-- ==== Sys2Proof/Word.lean ====
section
/-! DEFINITION. The words of the UP2416: a byte, a doubleword (the unit of every bus transaction) and
the byte mask of a write (spec/01_memory_path.md, R1). -/

namespace Sys2Proof

/-- One byte lane. -/
abbrev Byte := BitVec 8

/-- A doubleword: eight bytes, lane 0 the least significant (spec/00_scope.md, Byte order). -/
abbrev Dword := BitVec 64

/-- The eight lane enables of a write; bit i enables lane i (R1). -/
abbrev ByteMask := BitVec 8

end Sys2Proof
end

