-- ==== Sys2Proof/Config.lean ====
section
/-! DEFINITION. What the spec leaves to no rule: the free values of the model. Nothing in Lean can
evaluate one of them. -/

namespace Sys2Proof

/-- FREE VALUE (log 22). The count a replayed entry leaves in a holder record when the exact sum of
the old count and the moved pieces lies outside 0..65,535. R176 has the replay make no check of its
own and states no count for such an entry; checks 12 and 13 keep the part from writing one, so it comes
from a foreign journal, or from a record read under another configuration than its entries. -/
opaque Config.unstatedCount : Int → Nat

/-- FREE VALUE (log 34). The residue of an EXCHANGE, or of the one a REVERSAL names, by the two currencies,
amount_a and the rate figure, where R65 and R67 state none: one of the currencies is not configured (R67 takes the
exponents and the payable unit as configured, and the fields of an unconfigured currency are not judged, R195), or
amount_a or the rate figure lies outside 1..999,999,999,999. -/
opaque Config.unstatedResidue : Nat → Nat → Int → Nat → Nat

/-- FREE VALUE (log 43). The 14 columns in which an item of a currency that is not configured prints an
amount, by the currency, the amount and the column: R74 takes exponent and separators as configured, and only
an item rebuilt by RESUME_DAY under another configuration has such a currency. -/
opaque Config.unstatedColumn : Nat → Int → Nat → Nat

/-- FREE VALUE (log 44). The hash total after a replayed POSTING whose amounts lie outside
0..999,999,999,999, by the old total and the amounts: R69 states none, and R176 has the replay make no
check. -/
opaque Config.unstatedHash : Nat → Int → Int → Nat

/-- FREE VALUE (log 52). Whether the REV item of a replayed REVERSAL prints its amount with the sign of a
credit, by the REVERSAL's number and its original's form, when the original is no POSTING of kind 1, 2 or 5:
R42 gives a REV item the side opposite to its original's, and such an original has none. -/
opaque Config.unstatedSide : Nat → Nat → Bool

end Sys2Proof
end

