-- ==== Sys2Proof/Syntax.lean ====
section
/-! DEFINITION. The steps of the UP2416 as commands: one constructor for each row of
spec/opcode_table.json. The table gives its rows no fields; a row's operands are what its rule takes
from outside the part (an address, a frame, a level). Everything else a step needs is in the state. -/

namespace Sys2Proof

/-- A drawer switch's level (R80). -/
inductive Sense where
  | closed
  | opened
  deriving DecidableEq, Repr

/-- The two head-office lines (R182). -/
inductive HoPort where
  | primary
  | backup
  deriving DecidableEq, Repr

/-- The two ways a reply wait on a drop line runs out (R126). -/
inductive ReplyTimeout where
  /-- no first byte within 25 ms -/
  | noFirstByte
  /-- a frame not received whole within 500 ms of its first byte -/
  | notWhole
  deriving DecidableEq, Repr

/-- The commands of the block, in the table's order. -/
inductive Instr where
  /-- RESET (R21) -/
  | reset
  /-- HOST_WRITE (R5) -/
  | hostWrite
  /-- SLOT_FIELD_WRITE (R22) -/
  | slotFieldWrite
  /-- COMMIT (R24) -/
  | commit
  /-- SCREEN_ROW_WRITE (R8) -/
  | screenRowWrite
  /-- CONSUMER_INDEX_WRITE (R132) -/
  | consumerIndexWrite
  /-- HOST_READ (R16) -/
  | hostRead (addr : BitVec 64)
  /-- HOST_READ_GRANT (R16) -/
  | hostReadGrant
  /-- INJECT_DRAIN (R15) -/
  | injectDrain
  /-- PLACE_WAITING_GROUP (R13) -/
  | placeWaitingGroup
  /-- FETCH_GRANT (R18) -/
  | fetchGrant
  /-- INSTALL_WINDOW_MAP (R4) -/
  | installWindowMap
  /-- JUDGING_EVENT (R26) -/
  | judgingEvent
  /-- RING_POSITION_ANSWER (R106) -/
  | ringPositionAnswer
  /-- SENSED_OPEN (R83) -/
  | sensedOpen (h : Fin 17)
  /-- SENSED_CLOSED (R84) -/
  | sensedClosed (h : Fin 17)
  /-- SENSE_SETTLE (R90) -/
  | senseSettle (h : Fin 17) (level : Sense)
  /-- RELEASE_WINDOW_EXPIRY (R84) -/
  | releaseWindowExpiry (h : Fin 17)
  /-- HELD_EXPIRY_TAKEN (R83) -/
  | heldExpiryTaken (h : Fin 17)
  /-- OVERDUE_LIMIT_EXPIRY (R86) -/
  | overdueLimitExpiry (h : Fin 17)
  /-- TICK (R163) -/
  | tick
  /-- APPLY_CONFIG (R194) -/
  | applyConfig
  /-- CONFIG_IMAGE_FETCHED (R195) -/
  | configImageFetched
  /-- OPEN_DAY (R168) -/
  | openDay
  /-- CARRY_RECORD_FETCHED (R167) -/
  | carryRecordFetched
  /-- FRESH_DAY_OPENS (R169) -/
  | freshDayOpens
  /-- RESUME_DAY (R175) -/
  | resumeDay
  /-- JOURNAL_RUN_ENTRY (R119) -/
  | journalRunEntry
  /-- SET_TIME (R164) -/
  | setTime
  /-- CLOSE_DAY (R165) -/
  | closeDay
  /-- FORCE_BALANCE (R171) -/
  | forceBalance
  /-- RELEASE_DRAWER (R89) -/
  | releaseDrawer
  /-- RELEASE_HOLD (R103) -/
  | releaseHold
  /-- CLEAR_MONITOR (R102) -/
  | clearMonitor
  /-- RESUME_BATCH (R189) -/
  | resumeBatch
  /-- RESEND_BATCH (R189) -/
  | resendBatch
  /-- START_LEARN (R138) -/
  | startLearn
  /-- END_LEARN (R140) -/
  | endLearn
  /-- CHECK_JOURNAL (R121) -/
  | checkJournal
  /-- CHECK_TOTALS (R73) -/
  | checkTotals
  /-- CHECK_LINE (R141) -/
  | checkLine
  /-- CLEAR_ALERTS (R202) -/
  | clearAlerts
  /-- BAD_COMMAND_CODE (R192) -/
  | badCommandCode
  /-- CYCLE_START (R127) -/
  | cycleStart (d : Fin 2)
  /-- ROW_SEND (R128) -/
  | rowSend (d : Fin 2)
  /-- DROP_FRAME_SENT (R126) -/
  | dropFrameSent (d : Fin 2)
  /-- DROP_REPLY (R126) -/
  | dropReply (d : Fin 2) (frame : List Byte)
  /-- DROP_REPLY_TIMEOUT (R126) -/
  | dropReplyTimeout (d : Fin 2) (late : ReplyTimeout)
  /-- LEARN_REPEAT_EXPIRY (R139) -/
  | learnRepeatExpiry (d : Fin 2)
  /-- BOOK_IN (R151) -/
  | bookIn (k : Fin 4) (frame : List Byte)
  /-- BOOK_OUT (R155) -/
  | bookOut (k : Fin 4) (frame : List Byte)
  /-- LINE_DONE (R153) -/
  | lineDone (k : Fin 4) (frame : List Byte)
  /-- READY (R150) -/
  | ready (k : Fin 4) (frame : List Byte)
  /-- PRINTER_ACK (R149) -/
  | printerAck (k : Fin 4) (frame : List Byte)
  /-- PRINTER_NAK (R149) -/
  | printerNak (k : Fin 4) (frame : List Byte)
  /-- PRINTER_REPLY_TIMEOUT (R149) -/
  | printerReplyTimeout (k : Fin 4)
  /-- LINE_DONE_TIMEOUT (R156) -/
  | lineDoneTimeout (k : Fin 4)
  /-- PAGE_TURN_TIMEOUT (R154) -/
  | pageTurnTimeout (k : Fin 4)
  /-- HO_FRAME_SENT (R183) -/
  | hoFrameSent (port : HoPort)
  /-- HO_ACK (R184) -/
  | hoAck (port : HoPort) (frame : List Byte)
  /-- HO_NAK (R185) -/
  | hoNak (port : HoPort) (frame : List Byte)
  /-- HO_WAIT (R186) -/
  | hoWait (port : HoPort) (frame : List Byte)
  /-- HO_FINAL (R187) -/
  | hoFinal (port : HoPort) (frame : List Byte)
  /-- HO_INVALID_FRAME (R182) -/
  | hoInvalidFrame (port : HoPort) (frame : List Byte)
  /-- ACK_WAIT_EXPIRY (R185) -/
  | ackWaitExpiry
  /-- WAIT_PAUSE_EXPIRY (R186) -/
  | waitPauseExpiry
  /-- FINAL_WAIT_EXPIRY (R187) -/
  | finalWaitExpiry
  /-- SETTLEMENT_WRITE_DONE (R174) -/
  | settlementWriteDone
  /-- HOST_WRITE_ARRIVAL (R2) -/
  | hostWriteArrival (addr : BitVec 64) (mask : ByteMask) (data : Dword)
  /-- RESET_RELEASE (R3) -/
  | resetRelease (straps : BitVec 2)
  /-- DRAWER_SENSE_SAMPLE (R80) -/
  | drawerSenseSample (h : Fin 17) (level : Sense)
  /-- PRINTER_INVALID_FRAME (R149) -/
  | printerInvalidFrame (k : Fin 4) (frame : List Byte)
  deriving DecidableEq, Repr

end Sys2Proof
end

