-- ==== Sys2Proof/WellFormed.lean ====
section
/-! DEFINITION. Which commands have the form the spec gives them: a bus address names an aligned
doubleword (R1), and a received frame handed to a row carries the kind code of the row's message
(spec/13_record_formats.md, 13.8). -/

namespace Sys2Proof

/-- The low three bits of a bus address are zero (R1). -/
def alignedAddress (addr : BitVec 64) : Bool := addr.toNat % 8 == 0

/-- The byte at index i of a frame equals the code. -/
def frameHasCode (frame : List Byte) (i : Nat) (code : Byte) : Bool := frame[i]? == some code

/-- The form of a command. Every operand of a fixed range carries its bound in its type. -/
def Instr.wf : Instr → Bool
  | .hostRead addr => alignedAddress addr
  | .hostWriteArrival addr _ _ => alignedAddress addr
  | .bookIn _ frame => frameHasCode frame 0 0x10#8
  | .bookOut _ frame => frameHasCode frame 0 0x11#8
  | .lineDone _ frame => frameHasCode frame 0 0x12#8
  | .ready _ frame => frameHasCode frame 0 0x13#8
  | .printerAck _ frame => frameHasCode frame 0 0x14#8
  | .hoAck _ frame => frameHasCode frame 1 0x81#8
  | .hoNak _ frame => frameHasCode frame 1 0x82#8
  | .hoWait _ frame => frameHasCode frame 1 0x83#8
  | .hoFinal _ frame => frameHasCode frame 1 0x84#8
  | .reset => true
  | .hostWrite => true
  | .slotFieldWrite => true
  | .commit => true
  | .screenRowWrite => true
  | .consumerIndexWrite => true
  | .hostReadGrant => true
  | .injectDrain => true
  | .placeWaitingGroup => true
  | .fetchGrant => true
  | .installWindowMap => true
  | .judgingEvent => true
  | .ringPositionAnswer => true
  | .sensedOpen _ => true
  | .sensedClosed _ => true
  | .senseSettle _ _ => true
  | .releaseWindowExpiry _ => true
  | .heldExpiryTaken _ => true
  | .overdueLimitExpiry _ => true
  | .tick => true
  | .applyConfig => true
  | .configImageFetched => true
  | .openDay => true
  | .carryRecordFetched => true
  | .freshDayOpens => true
  | .resumeDay => true
  | .journalRunEntry => true
  | .setTime => true
  | .closeDay => true
  | .forceBalance => true
  | .releaseDrawer => true
  | .releaseHold => true
  | .clearMonitor => true
  | .resumeBatch => true
  | .resendBatch => true
  | .startLearn => true
  | .endLearn => true
  | .checkJournal => true
  | .checkTotals => true
  | .checkLine => true
  | .clearAlerts => true
  | .badCommandCode => true
  | .cycleStart _ => true
  | .rowSend _ => true
  | .dropFrameSent _ => true
  | .dropReply _ _ => true
  | .dropReplyTimeout _ _ => true
  | .learnRepeatExpiry _ => true
  | .printerNak _ _ => true
  | .printerReplyTimeout _ => true
  | .lineDoneTimeout _ => true
  | .pageTurnTimeout _ => true
  | .hoFrameSent _ => true
  | .hoInvalidFrame _ _ => true
  | .ackWaitExpiry => true
  | .waitPauseExpiry => true
  | .finalWaitExpiry => true
  | .settlementWriteDone => true
  | .resetRelease _ => true
  | .drawerSenseSample _ _ => true
  | .printerInvalidFrame _ _ => true

end Sys2Proof
end

