-- ==== Sys2Proof/Machine/Bytes.lean ====
section
/-! DEFINITION. Byte order, fields of records and byte lanes. Every record in memory is little-endian
(spec/00_scope.md, Byte order; spec/13_record_formats.md, R203, R204). -/

namespace Sys2Proof.Machine

/-- The value v as n bytes, low byte first. -/
def leBytes : Nat → Nat → List Byte
  | 0, _ => []
  | n + 1, v => BitVec.ofNat 8 v :: leBytes n (v / 256)

/-- The number whose bytes, low byte first, are given. -/
def leNat : List Byte → Nat
  | [] => 0
  | b :: bs => b.toNat + 256 * leNat bs

/-- A two's-complement field of 8 bytes read as a number (i64). -/
def signed64 (n : Nat) : Int := (BitVec.ofNat 64 n).toInt

/-- A number as the unsigned contents of an i64 field. -/
def unsigned64 (i : Int) : Nat := (BitVec.ofInt 64 i).toNat

/-- The unsigned field of n bytes at an offset of a record. -/
def field (record : List Byte) (offset n : Nat) : Nat := leNat ((record.drop offset).take n)

/-- k unsigned 16-bit fields from an offset on. -/
def fields16 (record : List Byte) (offset k : Nat) : List Nat :=
  (List.range k).map fun i => field record (offset + 2 * i) 2

/-- k unsigned 32-bit fields from an offset on. -/
def fields32 (record : List Byte) (offset k : Nat) : List Nat :=
  (List.range k).map fun i => field record (offset + 4 * i) 4

/-- The bytes of a list of u16 values. -/
def bytes16 (values : List Nat) : List Byte := values.flatMap (leBytes 2)

/-- The doubleword whose lanes are the first eight bytes given (absent lanes zero). -/
def dwordOfBytes (bytes : List Byte) : Dword := BitVec.ofNat 64 (leNat (bytes.take 8))

/-- The eight lanes of a doubleword, lane 0 first. -/
def bytesOfDword (d : Dword) : List Byte := leBytes 8 d.toNat

/-- n doublewords cut from a byte string. -/
def dwordsOfBytes : Nat → List Byte → List Dword
  | 0, _ => []
  | n + 1, bytes => dwordOfBytes bytes :: dwordsOfBytes n (bytes.drop 8)

/-- The bytes of a list of doublewords, lane 0 of the first first. -/
def bytesOfDwords (ds : List Dword) : List Byte := ds.flatMap bytesOfDword

/-- Lane i of a doubleword. -/
def lane (d : Dword) (i : Nat) : Byte := BitVec.ofNat 8 (d.toNat / 256 ^ i)

/-- The doubleword that takes the enabled lanes from new and the others from old (R1, R22, R192). -/
def mergeLanes (mask : ByteMask) (old new : Dword) : Dword :=
  dwordOfBytes ((List.range 8).map fun i => if mask.getLsbD i then lane new i else lane old i)

/-- The low lanes of a doubleword as an unsigned field: n lanes from lane i on. -/
def laneField (d : Dword) (i n : Nat) : Nat := d.toNat / 256 ^ i % 256 ^ n

/-- A doubleword made of fields, each given as (bytes, value), lowest lane first. -/
def dwordOfFields (fs : List (Nat × Nat)) : Dword :=
  dwordOfBytes (fs.flatMap fun f => leBytes f.1 f.2)

/-- The contents of a record with the field of the given bytes at an offset replaced. -/
def setBytes (record : List Byte) (offset : Nat) (new : List Byte) : List Byte :=
  record.take offset ++ new ++ record.drop (offset + new.length)

end Sys2Proof.Machine
end

