-- ==== Sys2Proof/Machine/Crc.lean ====
section
/-! DEFINITION. The three check computations: the 16-bit check word of holder records and head-office
frames (R70, R182), the CRC-32 of the journal chain, the carry-forward records and the image (R109,
R167, R195), and the CRC-8 of drop-line and printer frames (R125, R149). -/

namespace Sys2Proof.Machine

/-- Feeds bytes to a check register. The match makes the kernel finish each register value before the
next byte. -/
def crcFeed (byte : Nat → Nat → Nat) : List Byte → Nat → Nat
  | [], r => r
  | b :: bs, r =>
    match byte r b.toNat with
    | 0 => crcFeed byte bs 0
    | n + 1 => crcFeed byte bs (n + 1)

/-- One left shift of a 16-bit register with the polynomial 1021h (R70). -/
def crc16Shift (r : Nat) : Nat :=
  if 0x8000 ≤ r then (2 * r % 0x10000) ^^^ 0x1021 else 2 * r

/-- One byte into the 16-bit register: combined into the upper eight bits, then eight shifts (R70). -/
def crc16Byte (r b : Nat) : Nat :=
  crc16Shift (crc16Shift (crc16Shift (crc16Shift (crc16Shift (crc16Shift (crc16Shift (crc16Shift
    (r ^^^ (b * 256)))))))))

/-- The CRC-16 of R70: the register starts at FFFFh, nothing reflected or inverted. -/
def crc16 (bytes : List Byte) : BitVec 16 := BitVec.ofNat 16 (crcFeed crc16Byte bytes 0xFFFF)

/-- One right shift of a 32-bit register with the reflected polynomial EDB88320h (R109). -/
def crc32Shift (r : Nat) : Nat := if r % 2 = 1 then (r / 2) ^^^ 0xEDB88320 else r / 2

/-- One byte into the 32-bit register: combined into the low eight bits, then eight shifts (R109). -/
def crc32Byte (r b : Nat) : Nat :=
  crc32Shift (crc32Shift (crc32Shift (crc32Shift (crc32Shift (crc32Shift (crc32Shift (crc32Shift
    (r ^^^ b))))))))

/-- The CRC-32 of R109 over the bytes given, started at FFFFFFFFh and inverted at the end. -/
def crc32 (bytes : List Byte) : BitVec 32 :=
  ~~~ (BitVec.ofNat 32 (crcFeed crc32Byte bytes 0xFFFFFFFF))

/-- The chain of an entry: the CRC-32 over the predecessor's chain, low byte first, and the entry's
bytes 0..59 (R109). -/
def chainOf (previous : BitVec 32) (content : List Byte) : BitVec 32 :=
  crc32 (leBytes 4 previous.toNat ++ content.take 60)

/-- One left shift of an 8-bit register with the polynomial 07h (R125). -/
def crc8Shift (r : Nat) : Nat := if 0x80 ≤ r then (2 * r % 0x100) ^^^ 0x07 else 2 * r

/-- One byte into the 8-bit register (R125). -/
def crc8Byte (r b : Nat) : Nat :=
  crc8Shift (crc8Shift (crc8Shift (crc8Shift (crc8Shift (crc8Shift (crc8Shift (crc8Shift
    (r ^^^ b))))))))

/-- The CRC-8 of R125: the register starts at 00h. -/
def crc8 (bytes : List Byte) : Byte := BitVec.ofNat 8 (crcFeed crc8Byte bytes 0)

/-- The check word of a holder record: the twelve counts as u16, then the balance as u64 (R70). -/
def checkWord (counts : List Nat) (balance : Nat) : BitVec 16 :=
  crc16 (bytes16 counts ++ leBytes 8 balance)

end Sys2Proof.Machine
end

