-- ==== Sys2Proof/Machine/State.lean ====
section
/-! DEFINITION. The state of the UP2416, block by block, as plain data, and the state after reset.
Addresses, journal numbers and amounts are numbers; a list named "newest first" grows at its head. -/

namespace Sys2Proof.Machine

/-! ### Configuration (spec/12_setup_commands_and_status.md, 12.2; spec/13_record_formats.md, 13.5) -/

/-- A currency of the image, as its bytes read. -/
structure Currency where
  configured : Nat
  exponent : Nat
  denominations : Nat
  decimal : Nat
  grouping : Nat
  payable : Nat
  faces : List Nat
  deriving DecidableEq, Repr

/-- A counter position of the image. -/
structure PositionSetup where
  enabled : Nat
  role : Nat
  line : Nat
  address : Nat
  printer : Nat
  deriving DecidableEq, Repr

/-- A line port of the image. -/
structure PortSetup where
  role : Nat
  rate : Nat
  deriving DecidableEq, Repr

/-- A monitor definition of the image (R94). -/
structure MonitorSetup where
  enabled : Nat
  mask : Nat
  holder : Nat
  currency : Nat
  basis : Nat
  compare : Nat
  mode : Nat
  action : Nat
  threshold : Nat
  preset : Nat
  deriving DecidableEq, Repr

/-- A configuration image, field by field. -/
structure Configuration where
  /-- bases of SLOTS, SCREENS, KEYS, MIRROR, JOURNAL and CARRY -/
  bases : Vector Nat 6
  size : Nat
  branch : Nat
  release : Nat
  overdue : Nat
  cutoff : Nat
  autoCutoff : Nat
  currencies : Vector Currency 4
  active : Vector Nat 17
  positions : Vector PositionSetup 16
  ports : Vector PortSetup 6
  monitors : Vector MonitorSetup 8
  deriving DecidableEq, Repr

/-! ### Path Unit (spec/01_memory_path.md) -/

/-- The two classes of an injected write (R12). -/
inductive EntryClass where
  | journal
  | mirror
  deriving DecidableEq, Repr

/-- One pending write of the Inject Queue (R12). -/
structure InjectEntry where
  addr : Nat
  data : Dword
  cls : EntryClass
  deriving DecidableEq, Repr

/-- Who handed over a journal-class group; its placing matters to that block (R13). -/
inductive Producer where
  | posting
  | journal
  | keyRing
  /-- a command completion, and whether it is the final one (R193) -/
  | completion (final : Bool)
  | freshRecord
  | settlement
  deriving DecidableEq, Repr

/-- A journal-class group: doublewords in the order in which they are to reach memory (R13). -/
structure Group where
  producer : Producer
  writes : List (Nat × Dword)
  deriving DecidableEq, Repr

/-- The six clients of the Fetch Port (R18). -/
inductive FetchClient where
  | posting
  | journal
  | drop (d : Fin 2)
  | day
  | control
  deriving DecidableEq, Repr

/-- An outstanding fetch request: the next doubleword's address and how many are left (R18). -/
structure FetchRequest where
  client : FetchClient
  next : Nat
  left : Nat
  deriving DecidableEq, Repr

/-- The one transaction the processor bus may hold (R1, R2, R17). -/
inductive BusState where
  | idle
  | readWaiting (addr : Nat)
  /-- the hold list with its one read (R17) -/
  | readHeld (addr : Nat) (slot : Fin 16)
  | writeWaiting (addr : Nat) (mask : ByteMask) (data : Dword)
  deriving DecidableEq, Repr

/-- An entry of the Window Map (R3). -/
structure Window where
  known : Bool
  base : Nat
  length : Nat
  deriving DecidableEq, Repr

/-- The arbiter's mode (R20). -/
inductive ArbiterMode where
  | normal
  | drain
  deriving DecidableEq, Repr

/-- The Path Unit's state (R21). -/
structure Path where
  bus : BusState
  /-- the eight bytes the last completed read returned (the model's own latch, log 28) -/
  answer : Option Dword
  windows : Vector Window 7
  /-- a placement waiting for the hold list to empty (R4) -/
  placement : Option Configuration
  queue : List InjectEntry
  waiting : List Group
  controlRefused : Bool
  screenRefused : Bool
  fetches : List FetchRequest
  /-- the current doubleword has been looked up in the Inject Queue and waits for the bus (R18) -/
  fetchWaits : Bool
  mode : ArbiterMode
  injectStreak : Nat
  fetchStreak : Nat
  violations : Vector (BitVec 32) 7
  reported : Vector Bool 7
  deriving DecidableEq, Repr

/-! ### Posting Unit (spec/02_posting_slots_and_verdicts.md) -/

/-- A slot's state (R23). -/
inductive SlotState where
  | filling
  | submitted
  | done
  deriving DecidableEq, Repr

/-- A slot: its 120 captured bytes and its state (R22, R23). -/
structure Slot where
  buffer : List Byte
  state : SlotState
  deriving DecidableEq, Repr

/-- An entry of the Submit Queue (R25). -/
structure SubmitEntry where
  slot : Fin 16
  marked : Bool
  deriving DecidableEq, Repr

/-- The head's reversal fetch and the reversal buffer (R27). -/
structure ReversalFetch where
  number : Nat
  /-- the ring positions have been answered and the request made (R106) -/
  asked : Bool
  /-- the named entry stands at ring position 0: entry first, predecessor's doubleword second -/
  wrapped : Bool
  /-- the fetched doublewords in the order fetched -/
  words : List Dword
  deriving DecidableEq, Repr

/-- The Posting Unit's state (R40). -/
structure Posting where
  slots : Vector Slot 16
  queue : List SubmitEntry
  need : Option Nat
  reversal : Option ReversalFetch
  deriving DecidableEq, Repr

/-! ### Totals Store (spec/03, 04 and 05) -/

/-- A holder record (R77). -/
structure HolderRecord where
  counts : List Nat
  balance : Nat
  check : BitVec 16
  faulty : Bool
  opening : Nat
  counted : Bool
  deriving DecidableEq, Repr

/-- The flags of a holder (R53, R78, R79). -/
structure HolderFlags where
  held : Bool
  balanced : Bool
  forced : Bool
  deriving DecidableEq, Repr

/-- A Day Totals record (R43). -/
structure DayTotals where
  received : BitVec 64
  paid : BitVec 64
  overage : BitVec 64
  shortage : BitVec 64
  residue : BitVec 64
  credit : BitVec 64
  debit : BitVec 64
  deriving DecidableEq, Repr

/-- The Totals Store. -/
structure Totals where
  records : Vector (Vector HolderRecord 4) 17
  flags : Vector HolderFlags 17
  day : Vector DayTotals 4
  kinds : Vector (BitVec 32) 7
  accepted : BitVec 32
  refused : BitVec 32
  hash : Nat
  reversed : List Nat
  deriving DecidableEq, Repr

/-! ### Drawer Unit (spec/05_cash_holders_and_drawers.md) -/

/-- The states of a drawer machine (5.2). -/
inductive DrawerState where
  | locked
  | released
  | opened
  | overdue
  deriving DecidableEq, Repr

/-- A drawer machine (R92). A timer is running with its span in seconds, or stopped (none). -/
structure Drawer where
  state : DrawerState
  window : Option Nat
  limit : Option Nat
  /-- the release window has run out and its expiry is held (R83) -/
  heldExpiry : Bool
  sense : Option Sense
  runLevel : Sense
  runLength : Nat
  forced : Bool
  settle : Bool
  deriving DecidableEq, Repr

/-! ### Monitor Unit (spec/06_limit_monitors.md) -/

/-- The Monitor Unit's state (R95). -/
structure Monitors where
  counts : Vector (BitVec 32) 8
  fired : Vector Bool 8
  /-- the freeze flag, with the monitor that set it -/
  freeze : Option (Fin 8)
  deriving DecidableEq, Repr

/-! ### Journal Unit (spec/07_the_journal.md) -/

/-- The requesters of read-back runs (R119). -/
inductive Requester where
  | replay
  | batch
  | check
  deriving DecidableEq, Repr

/-- A read-back run (R119). -/
structure Run where
  requester : Requester
  next : Nat
  /-- the last number; a replay run has none (R122) -/
  last : Option Nat
  /-- none until the predecessor's chain has been fetched -/
  chain : Option (BitVec 32)
  /-- the run's request was answered by the Journal Unit (R106) -/
  started : Bool
  deriving DecidableEq, Repr

/-- The Journal Unit's state. -/
structure Journal where
  present : Bool
  start : Nat
  next : Nat
  chain : BitVec 32
  free : Nat
  /-- the printers that hold a reservation (R117) -/
  reservations : List (Fin 4)
  /-- the runs in the order in which they began, and the index of the run whose turn is next -/
  runs : List Run
  turn : Nat
  /-- the requester whose fetch request is outstanding or being verified -/
  serving : Option Requester
  /-- fetched doublewords not yet verified, oldest first -/
  buffer : List Dword
  deriving DecidableEq, Repr

/-! ### Screen Unit (spec/08_teller_screens.md) -/

/-- A controller's mode (R123). -/
inductive ControllerMode where
  | idle
  | cycling
  /-- CYCLING with a START_LEARN taken: the cycle stops at the end of the exchange in progress, and the
  controller is LEARNING then (R138; log 23) -/
  | stopping
  | learning
  deriving DecidableEq, Repr

/-- The exchanges of a drop line (R127, R139). -/
inductive ExchangeKind where
  | bell
  | echo
  /-- a ROW, and whether it is the resend (R128) -/
  | row (resend : Bool)
  | poll
  | assign
  deriving DecidableEq, Repr

/-- How far an exchange is: its row buffer is filling, its frame is on the line, its reply is awaited. -/
inductive ExchangePhase where
  | filling
  | sending
  | awaiting
  deriving DecidableEq, Repr

/-- An exchange in progress (R123). -/
structure Exchange where
  position : Fin 16
  kind : ExchangeKind
  phase : ExchangePhase
  deriving DecidableEq, Repr

/-- A drop-line controller (R142). -/
structure Controller where
  mode : ControllerMode
  exchange : Option Exchange
  rowNumber : Nat
  /-- the row buffer, doublewords oldest first -/
  row : List Dword
  /-- the positions of this cycle still to be visited after the current one (R127) -/
  remaining : List (Fin 16)
  /-- the rows sent in the current visit; rowNumber is the last of them (R127, R128) -/
  rowsSent : Nat
  /-- learn: acknowledged positions, current position, repeat timer (R139) -/
  acknowledged : List (Fin 16)
  current : Option (Fin 16)
  repeatTimer : Bool
  deriving DecidableEq, Repr

/-- A terminal's state (R124). -/
inductive TerminalState where
  | notConfigured
  | absent
  | present
  deriving DecidableEq, Repr

/-- A message field (R134): its text, and whether it is a REFUSED message. -/
structure Message where
  text : List Char
  refused : Bool
  deriving DecidableEq, Repr

/-- A position's terminal, key ring and status row (R142). -/
structure Position where
  state : TerminalState
  line : Nat
  address : Nat
  missed : Nat
  skip : Nat
  pollBit : Bool
  dirty : BitVec 24
  bell : Bool
  echo : Bool
  producer : BitVec 16
  writeAt : Nat
  consumer : BitVec 16
  ring : List (BitVec 16)
  /-- the last composition, 160 bytes, or none (R136) -/
  composition : Option (List Byte)
  imageDirty : BitVec 20
  message : Message
  deriving DecidableEq, Repr

/-- The Screen Unit's state. -/
structure Screen where
  controllers : Vector Controller 2
  positions : Vector Position 16
  deriving DecidableEq, Repr

/-! ### Passbook Unit (spec/09_passbook_printing.md) -/

/-- The mnemonics of a passbook line (R42, R143). -/
inductive Mnemonic where
  | dep
  | wdl
  | ncr
  | ndr
  | rev
  | sum
  deriving DecidableEq, Repr

/-- A pending reversal (R143). -/
structure PendingReversal where
  number : Nat
  original : Nat
  amount : Int
  balance : Int
  flag : Bool
  deriving DecidableEq, Repr

/-- A used entry of the Unprinted Item Table (R143). -/
structure Item where
  account : Nat
  currency : Fin 4
  key : Nat
  first : Nat
  mnemonic : Mnemonic
  amount : Int
  balance : Int
  folds : Nat
  summary : Bool
  printing : Bool
  isOpen : Bool
  reversals : List PendingReversal
  deriving DecidableEq, Repr

/-- A printer's state (R150). -/
inductive PrinterState where
  | idle
  | book
  | printing
  | turnWait
  | ejecting
  | fault
  deriving DecidableEq, Repr

/-- A part message whose ACK is awaited (R149). A STRIPE knows what it writes and whether a TURN follows. -/
inductive Awaited where
  | print
  | stripe (page line : Nat) (turn : Bool)
  | turn
  | eject
  | reset
  deriving DecidableEq, Repr

/-- A printer job (9.4). -/
structure Job where
  account : Nat
  page : Nat
  line : Nat
  printed : Nat
  /-- the key of the current entry -/
  current : Option Nat
  deriving DecidableEq, Repr

/-- A printer (R161). -/
structure Printer where
  state : PrinterState
  job : Option Job
  /-- the message awaited; its 2 s reply timer runs while there is one -/
  awaited : Option Awaited
  lineTimer : Bool
  turnTimer : Bool
  deriving DecidableEq, Repr

/-- The condition of a passbook item in a replay (R160). -/
inductive ItemCondition where
  | pending
  | printed
  | cancelled
  | untracked
  deriving DecidableEq, Repr

/-- A passbook item of a replay, with the noted REVERSAL and whether that carries the flag (R160). -/
structure ReplayItem where
  item : Item
  condition : ItemCondition
  noted : Option (Item × Bool)
  deriving DecidableEq, Repr

/-- The Passbook Unit's state. -/
structure Passbook where
  items : List Item
  printers : Vector Printer 4
  /-- the conditions of a replay, in number order -/
  replay : List ReplayItem
  deriving DecidableEq, Repr

/-! ### Day Control (spec/10_the_business_day.md) -/

/-- The day states (R162). -/
inductive DayState where
  | setup
  | recovering
  | opened
  | closing
  | sending
  | suspended
  | rejected
  | settled
  deriving DecidableEq, Repr

/-- A record buffer: its doublewords, newest first, and its validity mark (R167). -/
structure RecordBuffer where
  words : List Dword
  valid : Bool
  deriving DecidableEq, Repr

/-- The command work of Day Control. -/
inductive DayWork where
  | openFetching (date time : Nat)
  | openWriting (date time : Nat)
  | resumeChoosing
  | resumeReplaying
  deriving DecidableEq, Repr

/-- A settlement write in progress (R174). -/
structure Settlement where
  placed : Nat
  copy : Fin 2
  nextStart : Nat
  deriving DecidableEq, Repr

/-- A replay in progress (R175 to R177). -/
structure Replay where
  state : DayState
  /-- the last complete entry replayed, 0 before DAY_OPEN, and its chain -/
  last : Nat
  chain : BitVec 32
  /-- a cash POSTING entry awaiting its BREAKDOWN, and its chain -/
  posting : Option (List Byte)
  kinds : List (Nat × Nat)
  deriving DecidableEq, Repr

/-- Day Control's state. -/
structure Day where
  state : DayState
  date : Nat
  clock : Nat
  openingCopy : Option (Fin 2)
  openingSettled : Nat
  records : Vector RecordBuffer 2
  work : Option DayWork
  settlement : Option Settlement
  replay : Replay
  deriving DecidableEq, Repr

/-! ### Batch Unit (spec/11_sending_to_head_office.md) -/

/-- The sender's states. -/
inductive SenderState where
  | idle
  | composing
  | awaitAck
  | paused
  | awaitFinal
  | halted
  | finished
  deriving DecidableEq, Repr

/-- The suspend cause. -/
inductive SuspendCause where
  | none
  | link
  | journal
  deriving DecidableEq, Repr

/-- A monitor's figures in the plan (R179). -/
structure MonitorFigures where
  count : BitVec 32
  fired : Bool
  enabled : Bool
  action : Nat
  deriving DecidableEq, Repr

/-- The batch plan (R179). -/
structure Plan where
  last : Nat
  chain : BitVec 32
  records : Nat
  blocks : Nat
  monitors : List MonitorFigures
  accepted : BitVec 32
  hash : Nat
  deriving DecidableEq, Repr

/-- The Batch Unit's state (R191). -/
structure Batch where
  state : SenderState
  plan : Option Plan
  current : Nat
  kind : Nat
  buffer : List Byte
  port : HoPort
  retries : Nat
  cause : SuspendCause
  ackWait : Bool
  pause : Bool
  finalWait : Bool
  deriving DecidableEq, Repr

/-! ### Control Unit (spec/12_setup_commands_and_status.md) -/

/-- The command taken: code and tag (R192). -/
structure TakenCommand where
  code : Nat
  tag : Nat
  deriving DecidableEq, Repr

/-- The Control Unit's state. -/
structure Control where
  config : Option Configuration
  command : Dword
  arguments : Vector Dword 6
  /-- the command state IN_PROGRESS (R193) -/
  busy : Bool
  taken : Option TakenCommand
  mirrorDirty : BitVec 1024
  /-- bit i: the alert of code i -/
  alerts : BitVec 16
  /-- the image being fetched, newest first (R194); none when no APPLY_CONFIG fetches -/
  image : Option (List Dword)
  /-- CHECK_JOURNAL's T and C (R121) -/
  journalCheck : Option (Nat × BitVec 32)
  /-- CHECK_LINE's position and pattern (R141) -/
  lineCheck : Option (Fin 16 × List Byte)
  deriving DecidableEq, Repr

/-- The machine. -/
structure State where
  path : Path
  posting : Posting
  totals : Totals
  drawers : Vector Drawer 17
  monitors : Monitors
  journal : Journal
  screen : Screen
  passbook : Passbook
  day : Day
  batch : Batch
  control : Control
  /-- the frames being sent on each line port, the one on the line first (R198) -/
  lines : Vector (List (List Byte)) 6
  /-- memory: the bytes listed, addresses strictly rising; an unlisted byte reads 00h (log 4) -/
  mem : List Host.Cell
  /-- RESET is asserted (R3) -/
  inReset : Bool
  /-- the commands waiting, first in, first out -/
  pending : List Instr
  deriving DecidableEq, Repr

/-- The ways a step of the block can stop. -/
inductive Fault where
  /-- Raised by HOST_READ and HOST_WRITE_ARRIVAL for an address whose low three bits are not zero: the
  processor bus has no such transaction (R1). Safe: no state is produced (log 5). -/
  | unalignedAddress
  deriving DecidableEq, Repr

/-- Commands the model gives no meaning. -/
inductive Refusal where
  /-- Raised by the dispatcher alone, for a row without a meaning. Safe: no state is produced. -/
  | notModelled (mnemonic : String)
  deriving DecidableEq, Repr

/-! ### Reset (R21, R40, R43, R71, R92, R95, R142, R161, R162, R191, R197) -/

/-- The strap code's CONTROL base (R3). -/
def strapBase (straps : BitVec 2) : Nat := 0x3FFE0000 + straps.toNat * 0x40000000

/-- The Window Map after reset: CONTROL alone is known (R3, R21). The base and the length of an unknown window
are 0 (log 33). -/
def resetWindows (base : Nat) : Vector Window 7 :=
  (Vector.replicate 7 ⟨false, 0, 0⟩).set 0 ⟨true, base, 0x2000⟩

/-- The Path Unit after reset (R21). -/
def resetPath (base : Nat) : Path :=
  { bus := .idle, answer := none, windows := resetWindows base, placement := none, queue := [],
    waiting := [], controlRefused := false, screenRefused := false, fetches := [],
    fetchWaits := false, mode := .normal, injectStreak := 0, fetchStreak := 0,
    violations := Vector.replicate 7 0, reported := Vector.replicate 7 false }

/-- The Posting Unit after reset (R40). -/
def resetPosting : Posting :=
  { slots := Vector.replicate 16 ⟨List.replicate 120 0, .filling⟩, queue := [], need := none,
    reversal := none }

/-- A record of twelve zero counts and a zero balance, with the check word of 32 zero bytes (R71). -/
def zeroRecord : HolderRecord :=
  { counts := List.replicate 12 0, balance := 0, check := 0xF14C, faulty := false, opening := 0,
    counted := false }

/-- The Totals Store after reset (R43, R53, R56, R69, R77 to R79). -/
def resetTotals : Totals :=
  { records := Vector.replicate 17 (Vector.replicate 4 zeroRecord),
    flags := Vector.replicate 17 ⟨false, false, false⟩,
    day := Vector.replicate 4 ⟨0, 0, 0, 0, 0, 0, 0⟩, kinds := Vector.replicate 7 0, accepted := 0,
    refused := 0, hash := 0, reversed := [] }

/-- A drawer machine after reset (R92). -/
def resetDrawer : Drawer :=
  { state := .locked, window := none, limit := none, heldExpiry := false, sense := none,
    runLevel := .closed, runLength := 0, forced := false, settle := false }

/-- The Monitor Unit after reset (R95). -/
def resetMonitors : Monitors :=
  { counts := Vector.replicate 8 0, fired := Vector.replicate 8 false, freeze := none }

/-- The Journal Unit after reset (spec/07_the_journal.md, the table at its head). -/
def resetJournal : Journal :=
  { present := false, start := 0, next := 1, chain := 0xFFFFFFFF, free := 0, reservations := [],
    runs := [], turn := 0, serving := none, buffer := [] }

/-- A drop-line controller after reset (R142). -/
def resetController : Controller :=
  { mode := .idle, exchange := none, rowNumber := 0, row := [], remaining := [], rowsSent := 0,
    acknowledged := [], current := none, repeatTimer := false }

/-- A position's screen state after reset (R142). -/
def resetPosition : Position :=
  { state := .notConfigured, line := 0, address := 0, missed := 0, skip := 0, pollBit := false,
    dirty := 0, bell := false, echo := false, producer := 0, writeAt := 0, consumer := 0,
    ring := List.replicate 24 0, composition := none, imageDirty := 0, message := ⟨[], false⟩ }

/-- A printer after reset (R161). -/
def resetPrinter : Printer :=
  { state := .idle, job := none, awaited := none, lineTimer := false, turnTimer := false }

/-- No replay. -/
def resetReplay : Replay :=
  { state := .setup, last := 0, chain := 0xFFFFFFFF, posting := none, kinds := [] }

/-- Day Control after reset (R162). -/
def resetDay : Day :=
  { state := .setup, date := 0, clock := 0, openingCopy := none, openingSettled := 0,
    records := Vector.replicate 2 ⟨[], false⟩, work := none, settlement := none,
    replay := resetReplay }

/-- The Batch Unit after reset (R191). -/
def resetBatch : Batch :=
  { state := .idle, plan := none, current := 0, kind := 0, buffer := [], port := .primary,
    retries := 0, cause := .none, ackWait := false, pause := false, finalWait := false }

/-- The Control Unit after reset (R197 and the table at the head of its chapter). -/
def resetControl : Control :=
  { config := none, command := 0, arguments := Vector.replicate 6 0, busy := false, taken := none,
    mirrorDirty := 0, alerts := 0, image := none, journalCheck := none, lineCheck := none }

/-- The state every block takes at reset, with the CONTROL base, the memory and the queue given. -/
def resetState (base : Nat) (mem : List Host.Cell) (pending : List Instr) : State :=
  { path := resetPath base, posting := resetPosting, totals := resetTotals,
    drawers := Vector.replicate 17 resetDrawer, monitors := resetMonitors, journal := resetJournal,
    screen := ⟨Vector.replicate 2 resetController, Vector.replicate 16 resetPosition⟩,
    passbook := ⟨[], Vector.replicate 4 resetPrinter, []⟩, day := resetDay, batch := resetBatch,
    control := resetControl, lines := Vector.replicate 6 [], mem := mem, inReset := false,
    pending := pending }

/-- The machine right after reset, with the straps at 00 (log 6) and memory with nothing listed. -/
def State.reset : State := resetState (strapBase 0) [] []

end Sys2Proof.Machine
end

