-- ==== Sys2Proof/Machine/Memory.lean ====
section
/-! DEFINITION. Memory behind the part: bytes by address in one canonical form, read and written by
byte and by doubleword (R1, R2, R21). -/

namespace Sys2Proof.Machine

/-- What an unlisted address reads as (DESIGN CHOICE, log 4). -/
def unlistedByte : Byte := 0

/-- The byte at an address. -/
def Memory.read : List Host.Cell → Nat → Byte
  | [], _ => unlistedByte
  | (a, b) :: rest, addr =>
    if addr < a then unlistedByte else if addr = a then b else Memory.read rest addr

/-- Memory with the byte at an address written; the form stays canonical. -/
def Memory.write : List Host.Cell → Nat → Byte → List Host.Cell
  | [], addr, v => if v = unlistedByte then [] else [(addr, v)]
  | (a, b) :: rest, addr, v =>
    if addr < a then if v = unlistedByte then (a, b) :: rest else (addr, v) :: (a, b) :: rest
    else if addr = a then if v = unlistedByte then rest else (a, v) :: rest
    else (a, b) :: Memory.write rest addr v

/-- The listed addresses rise strictly from lo on, and no listed byte equals the unlisted one. -/
def Memory.sortedFrom : Nat → List Host.Cell → Bool
  | _, [] => true
  | lo, (a, b) :: rest => lo ≤ a && b != unlistedByte && Memory.sortedFrom (a + 1) rest

/-- The canonical form of memory. -/
def Memory.wf (mem : List Host.Cell) : Bool := Memory.sortedFrom 0 mem

/-- The doubleword at an address (R1). -/
def Memory.readDword (mem : List Host.Cell) (addr : Nat) : Dword :=
  dwordOfBytes ((List.range 8).map fun i => Memory.read mem (addr + i))

/-- A write transaction: the enabled lanes of the doubleword are left in memory (R1, R2). -/
def Memory.writeDword (mem : List Host.Cell) (addr : Nat) (mask : ByteMask) (data : Dword) :
    List Host.Cell :=
  (List.range 8).foldl
    (fun m i => if mask.getLsbD i then Memory.write m (addr + i) (lane data i) else m) mem

end Sys2Proof.Machine
end

