-- ==== Sys2Proof/Machine/Operands.lean ====
section
/-! DEFINITION. What the part reads out of records: the slot (13.1), the journal entry (13.2), the
configuration image (13.5), the carry-forward record (13.7) and the command record (13.4). -/

namespace Sys2Proof.Machine

/-! ### The posting slot (13.1) -/

/-- The fields of a slot buffer, as its bytes read. -/
structure SlotFields where
  tag : Nat
  kind : Nat
  position : Nat
  holderA : Nat
  holderB : Nat
  currencyA : Nat
  currencyB : Nat
  passbook : Nat
  direction : Nat
  date : Nat
  amountA : Int
  amountB : Int
  rate : Nat
  account : Nat
  balance : Int
  reverseRef : Nat
  teller : Nat
  breakdownA : List Nat
  breakdownB : List Nat
  submitCode : Nat
  tagCopy : Nat
  deriving DecidableEq, Repr

/-- The fields of a slot at their offsets (13.1). -/
def slotFields (b : List Byte) : SlotFields :=
  { tag := field b 0x00 4, kind := field b 0x04 1, position := field b 0x05 1,
    holderA := field b 0x06 1, holderB := field b 0x07 1, currencyA := field b 0x08 1,
    currencyB := field b 0x09 1, passbook := field b 0x0A 1, direction := field b 0x0B 1,
    date := field b 0x0C 4, amountA := signed64 (field b 0x10 8),
    amountB := signed64 (field b 0x18 8), rate := field b 0x20 8, account := field b 0x28 8,
    balance := signed64 (field b 0x30 8), reverseRef := field b 0x38 4, teller := field b 0x3C 4,
    breakdownA := fields16 b 0x40 12, breakdownB := fields16 b 0x58 12,
    submitCode := field b 0x70 4, tagCopy := field b 0x74 4 }

/-! ### The journal entry (13.2) -/

/-- The fields of an entry that its kind names; a field a kind does not name is zero (R108). -/
structure EntryFields where
  kind : Nat
  code : Nat := 0
  position : Nat := 0
  holderA : Nat := 0
  holderB : Nat := 0
  currencyA : Nat := 0
  currencyB : Nat := 0
  flags : Nat := 0
  tag : Nat := 0
  amountA : Int := 0
  amountB : Int := 0
  account : Nat := 0
  balance : Int := 0
  ref : Nat := 0
  teller : Nat := 0
  deriving DecidableEq, Repr

/-- The content of an entry, bytes 00..3B (13.2). -/
def entryContent (number time : Nat) (f : EntryFields) : List Byte :=
  leBytes 4 number ++ leBytes 4 time ++ leBytes 1 f.kind ++ leBytes 1 f.code ++
    leBytes 1 f.position ++ leBytes 1 f.holderA ++ leBytes 1 f.holderB ++ leBytes 1 f.currencyA ++
    leBytes 1 f.currencyB ++ leBytes 1 f.flags ++ leBytes 4 f.tag ++
    leBytes 8 (unsigned64 f.amountA) ++ leBytes 8 (unsigned64 f.amountB) ++ leBytes 8 f.account ++
    leBytes 8 (unsigned64 f.balance) ++ leBytes 4 f.ref ++ leBytes 4 f.teller

/-- The content of a BREAKDOWN entry (13.2, R111). -/
def breakdownContent (number time code : Nat) (a b : List Nat) : List Byte :=
  leBytes 4 number ++ leBytes 4 time ++ [3, BitVec.ofNat 8 code, 0, 0] ++ bytes16 a ++ bytes16 b

/-- The number field of an entry. -/
def entryNumber (e : List Byte) : Nat := field e 0x00 4

/-- The chain field of an entry. -/
def entryChain (e : List Byte) : BitVec 32 := BitVec.ofNat 32 (field e 0x3C 4)

/-- The fields of an entry read back (13.2). -/
def entryFields (e : List Byte) : EntryFields :=
  { kind := field e 0x08 1, code := field e 0x09 1, position := field e 0x0A 1,
    holderA := field e 0x0B 1, holderB := field e 0x0C 1, currencyA := field e 0x0D 1,
    currencyB := field e 0x0E 1, flags := field e 0x0F 1, tag := field e 0x10 4,
    amountA := signed64 (field e 0x14 8), amountB := signed64 (field e 0x1C 8),
    account := field e 0x24 8, balance := signed64 (field e 0x2C 8), ref := field e 0x34 4,
    teller := field e 0x38 4 }

/-! ### The configuration image (13.5) -/

/-- The currency group c of an image. -/
def imageCurrency (b : List Byte) (c : Nat) : Currency :=
  let o := 0x40 + 0x40 * c
  { configured := field b o 1, exponent := field b (o + 1) 1, denominations := field b (o + 2) 1,
    decimal := field b (o + 3) 1, grouping := field b (o + 4) 1, payable := field b (o + 8) 4,
    faces := fields32 b (o + 0x10) 12 }

/-- The position group of an image, n counted from 0. -/
def imagePosition (b : List Byte) (n : Nat) : PositionSetup :=
  let o := 0x160 + 8 * n
  { enabled := field b o 1, role := field b (o + 1) 1, line := field b (o + 2) 1,
    address := field b (o + 3) 1, printer := field b (o + 4) 1 }

/-- The line-port group of an image. -/
def imagePort (b : List Byte) (k : Nat) : PortSetup :=
  { role := field b (0x1E0 + 2 * k) 1, rate := field b (0x1E1 + 2 * k) 1 }

/-- The monitor group of an image. -/
def imageMonitor (b : List Byte) (m : Nat) : MonitorSetup :=
  let o := 0x200 + 0x20 * m
  { enabled := field b o 1, mask := field b (o + 1) 1, holder := field b (o + 2) 1,
    currency := field b (o + 3) 1, basis := field b (o + 4) 1, compare := field b (o + 5) 1,
    mode := field b (o + 6) 1, action := field b (o + 7) 1, threshold := field b (o + 8) 8,
    preset := field b (o + 0x10) 4 }

/-- The image as fields (13.5). -/
def imageConfiguration (b : List Byte) : Configuration :=
  { bases := Vector.ofFn fun i => field b (4 * i.val) 4, size := field b 0x18 4,
    branch := field b 0x1C 4, release := field b 0x20 1, overdue := field b 0x22 2,
    cutoff := field b 0x24 4, autoCutoff := field b 0x28 1,
    currencies := Vector.ofFn fun c => imageCurrency b c.val,
    active := Vector.ofFn fun h => field b (0x140 + h.val) 1,
    positions := Vector.ofFn fun n => imagePosition b n.val,
    ports := Vector.ofFn fun k => imagePort b k.val,
    monitors := Vector.ofFn fun m => imageMonitor b m.val }

/-- The configuration that stands for none being in force: nothing active, configured, enabled or
defined, every port UNUSED (R197). -/
def noConfiguration : Configuration :=
  { bases := Vector.replicate 6 0, size := 0, branch := 0, release := 0, overdue := 0, cutoff := 0,
    autoCutoff := 0, currencies := Vector.replicate 4 ⟨0, 0, 0, 0, 0, 0, []⟩,
    active := Vector.replicate 17 0, positions := Vector.replicate 16 ⟨0, 0, 0xFF, 0, 0xFF⟩,
    ports := Vector.replicate 6 ⟨0, 0⟩, monitors := Vector.replicate 8 ⟨0, 0, 0, 0, 0, 0, 0, 0, 0, 0⟩ }

/-- The configuration in force, or what stands for none (R197). -/
def State.configuration (s : State) : Configuration := s.control.config.getD noConfiguration

/-- A holder is active when the configuration in force marks it so (R76). -/
def Configuration.holderActive (c : Configuration) (h : Fin 17) : Bool := c.active[h] == 1

/-- A currency of the configuration. -/
def Configuration.hasCurrency (c : Configuration) (k : Fin 4) : Bool :=
  c.currencies[k].configured == 1

/-- The number of a currency's configured denominations; one that is not configured has none (R62). -/
def Configuration.denominations (c : Configuration) (k : Fin 4) : Nat :=
  if c.hasCurrency k then c.currencies[k].denominations else 0

/-- The faces of a currency's configured denominations (R62). -/
def Configuration.faces (c : Configuration) (k : Fin 4) : List Nat :=
  c.currencies[k].faces.take (c.denominations k)

/-- A position of the configuration that is enabled. -/
def Configuration.positionEnabled (c : Configuration) (p : Fin 16) : Bool :=
  c.positions[p].enabled == 1

/-- The holder Hn that belongs to the position Pn, and slot n with it (00_scope, Nomenclature). -/
def holderOfPosition (p : Fin 16) : Fin 17 := p.succ

/-- The position and slot number 1..16 of an index. -/
def positionNumber (p : Fin 16) : Nat := p.val + 1

/-- The line port whose role is the code given (R198). -/
def Configuration.portWithRole (c : Configuration) (role : Nat) : Option (Fin 6) :=
  (List.finRange 6).find? fun k => c.ports[k].role == role

/-- The port of drop-line controller d (R123). -/
def Configuration.dropPort (c : Configuration) (d : Fin 2) : Option (Fin 6) :=
  c.portWithRole (1 + d.val)

/-- The port of printer k (R149). -/
def Configuration.printerPort (c : Configuration) (k : Fin 4) : Option (Fin 6) :=
  c.portWithRole (3 + k.val)

/-- The port of a head-office line (R182). -/
def Configuration.headOfficePort (c : Configuration) : HoPort → Option (Fin 6)
  | .primary => c.portWithRole 7
  | .backup => c.portWithRole 8

/-- The release window in use, in seconds (R88). -/
def Configuration.releaseSpan (c : Configuration) : Nat :=
  if c.release = 0 then 5 else if 15 < c.release then 15 else c.release

/-- The overdue limit in use, in seconds (R88). -/
def Configuration.overdueSpan (c : Configuration) : Nat :=
  if c.overdue = 0 then 60
  else if c.overdue < 10 then 10 else if 600 < c.overdue then 600 else c.overdue

/-- The position is configured on drop line d (R124). -/
def Configuration.onLine (c : Configuration) (d : Fin 2) (p : Fin 16) : Bool :=
  c.positionEnabled p && c.positions[p].line == d.val && (c.dropPort d).isSome

/-- The positions configured on drop line d, in ascending order (R127). -/
def Configuration.linePositions (c : Configuration) (d : Fin 2) : List (Fin 16) :=
  (List.finRange 16).filter (c.onLine d)

/-- A field that names one of n things, as an index (none when out of range). -/
def indexOf (n v : Nat) : Option (Fin n) := if h : v < n then some ⟨v, h⟩ else none

/-! ### The carry-forward record (13.7) -/

/-- A date is valid when its month is 1..12 and its day 1..31 (00_scope, Dates). -/
def dateValid (d : Nat) : Bool :=
  1 ≤ d / 100 % 100 && d / 100 % 100 ≤ 12 && 1 ≤ d % 100 && d % 100 ≤ 31

/-- The bytes of a record buffer, whose doublewords are newest first. -/
def bufferBytes (words : List Dword) : List Byte := bytesOfDwords words.reverse

/-- A carry-forward record is valid: its CRC-32 and its settled date are (R167). -/
def recordValid (b : List Byte) : Bool :=
  field b 0xFF8 4 == (crc32 (b.take 0xFF8)).toNat && dateValid (field b 0 4)

/-- The settled date of a record (13.7). -/
def recordSettled (b : List Byte) : Nat := field b 0 4

/-- The next journal start of a record (13.7). -/
def recordStart (b : List Byte) : Nat := field b 4 4

/-- The counts of holder h in currency c of a record (13.7). -/
def recordCounts (b : List Byte) (h : Fin 17) (c : Fin 4) : List Nat :=
  fields16 b (8 + 96 * h.val + 24 * c.val) 12

/-- A carry-forward record composed: settled date, next journal start, counts, zeros, CRC-32 (13.7). -/
def composeRecord (settled start : Nat) (counts : List Nat) : List Byte :=
  let body := leBytes 4 settled ++ leBytes 4 start ++ bytes16 counts ++ List.replicate 0x990 0
  body ++ leBytes 4 (crc32 body).toNat ++ leBytes 4 0

/-! ### The command record (13.4) -/

/-- The code of a command doubleword. -/
def commandCode (d : Dword) : Nat := laneField d 0 2

/-- The tag of a command doubleword. -/
def commandTag (d : Dword) : Nat := laneField d 2 2

end Sys2Proof.Machine
end

