-- ==== Sys2Proof/Machine/Flags.lean ====
section
/-! DEFINITION. The codes and flags of the part: refusal reasons (R29), result and entry flags (13.1,
13.2), alerts (12.5), command statuses (13.4), day states (R162) and the Mirror's codes (13.6). -/

namespace Sys2Proof.Machine

/-- The reasons of a refusal (R29). -/
inductive Reason where
  | dayState
  | badField
  | tagMismatch
  | notPermitted
  | holderClosed
  | holderHeld
  | wrongDate
  | breakdownMismatch
  | amountRange
  | exchangeMismatch
  | shortNotes
  | countRange
  | reversalTarget
  | reversalMismatch
  | reversalLimit
  | journalFull
  | totalsFault
  | journalDamaged
  deriving DecidableEq, Repr

/-- The reason codes of R29. -/
def Reason.code : Reason → Nat
  | .dayState => 1
  | .badField => 2
  | .tagMismatch => 3
  | .notPermitted => 4
  | .holderClosed => 5
  | .holderHeld => 6
  | .wrongDate => 7
  | .breakdownMismatch => 8
  | .amountRange => 9
  | .exchangeMismatch => 10
  | .shortNotes => 11
  | .countRange => 12
  | .reversalTarget => 13
  | .reversalMismatch => 14
  | .reversalLimit => 15
  | .journalFull => 16
  | .totalsFault => 17
  | .journalDamaged => 18

/-- The reason names of R29, as the message field shows them (R134). -/
def Reason.name : Reason → List Char
  | .dayState => "DAY_STATE".toList
  | .badField => "BAD_FIELD".toList
  | .tagMismatch => "TAG_MISMATCH".toList
  | .notPermitted => "NOT_PERMITTED".toList
  | .holderClosed => "HOLDER_CLOSED".toList
  | .holderHeld => "HOLDER_HELD".toList
  | .wrongDate => "WRONG_DATE".toList
  | .breakdownMismatch => "BREAKDOWN_MISMATCH".toList
  | .amountRange => "AMOUNT_RANGE".toList
  | .exchangeMismatch => "EXCHANGE_MISMATCH".toList
  | .shortNotes => "SHORT_NOTES".toList
  | .countRange => "COUNT_RANGE".toList
  | .reversalTarget => "REVERSAL_TARGET".toList
  | .reversalMismatch => "REVERSAL_MISMATCH".toList
  | .reversalLimit => "REVERSAL_LIMIT".toList
  | .journalFull => "JOURNAL_FULL".toList
  | .totalsFault => "TOTALS_FAULT".toList
  | .journalDamaged => "JOURNAL_DAMAGED".toList

/-- The sum of the set flags' values (R203). -/
def flagSum (flags : List (Bool × Nat)) : Nat :=
  flags.foldl (fun n f => if f.1 then n + f.2 else n) 0

/-- The result flags of an accepted posting (13.1, R37). -/
def resultFlags (tracked folded released : Bool) : Nat :=
  flagSum [(tracked, 1), (folded, 2), (released, 4)]

/-- The flags of a POSTING entry (13.2, R111). -/
def postingFlags (passbook marked mix debit : Bool) : Nat :=
  flagSum [(passbook, 1), (marked, 2), (mix, 4), (debit, 8)]

/-- Bit i of a flag byte. -/
def flagSet (flags i : Nat) : Bool := flags / 2 ^ i % 2 == 1

/-- The alerts (12.5). -/
inductive Alert where
  | totalsFault
  | journalDamaged
  | journalFull
  | batchRejected
  | linkSuspended
  | drawerForced
  | drawerOverdue
  | monitorFired
  | terminalLost
  | journalLow
  | writeSuppressed
  deriving DecidableEq, Repr

/-- The alert codes (12.5), which are also the priority order of R135. -/
def Alert.code : Alert → Nat
  | .totalsFault => 0
  | .journalDamaged => 1
  | .journalFull => 2
  | .batchRejected => 3
  | .linkSuspended => 4
  | .drawerForced => 5
  | .drawerOverdue => 6
  | .monitorFired => 7
  | .terminalLost => 8
  | .journalLow => 9
  | .writeSuppressed => 10

/-- The alert names the status row shows (R135). -/
def Alert.name : Alert → List Char
  | .totalsFault => "TOTALS_FAULT".toList
  | .journalDamaged => "JOURNAL_DAMAGED".toList
  | .journalFull => "JOURNAL_FULL".toList
  | .batchRejected => "BATCH_REJECTED".toList
  | .linkSuspended => "LINK_SUSPENDED".toList
  | .drawerForced => "DRAWER_FORCED".toList
  | .drawerOverdue => "DRAWER_OVERDUE".toList
  | .monitorFired => "MONITOR_FIRED".toList
  | .terminalLost => "TERMINAL_LOST".toList
  | .journalLow => "JOURNAL_LOW".toList
  | .writeSuppressed => "WRITE_SUPPRESSED".toList

/-- The alerts in priority order (R135). -/
def alertsByPriority : List Alert :=
  [.totalsFault, .journalDamaged, .journalFull, .batchRejected, .linkSuspended, .drawerForced,
    .drawerOverdue, .monitorFired, .terminalLost, .journalLow, .writeSuppressed]

/-- The alert is in the set (R201). -/
def alertIn (set : BitVec 16) (a : Alert) : Bool := set.getLsbD a.code

/-- The alert set with an alert added (R201). -/
def addAlert (set : BitVec 16) (a : Alert) : BitVec 16 := set ||| BitVec.twoPow 16 a.code

/-- ATTN is asserted while the alert set is not empty (R201). -/
def State.attention (s : State) : Bool := s.control.alerts != 0

/-- The command statuses (13.4). -/
inductive Status where
  | inProgress
  | done
  | refusedState
  | badArgument
  | failed
  deriving DecidableEq, Repr

/-- The status codes (13.4). -/
def Status.code : Status → Nat
  | .inProgress => 1
  | .done => 2
  | .refusedState => 3
  | .badArgument => 4
  | .failed => 5

/-- The day-state codes (R162). -/
def DayState.code : DayState → Nat
  | .setup => 0
  | .recovering => 1
  | .opened => 2
  | .closing => 3
  | .sending => 4
  | .suspended => 5
  | .rejected => 6
  | .settled => 7

/-- The day-state names the status row shows (R133). -/
def DayState.name : DayState → List Char
  | .setup => "SETUP".toList
  | .recovering => "RECOVERING".toList
  | .opened => "OPEN".toList
  | .closing => "CLOSING".toList
  | .sending => "SENDING".toList
  | .suspended => "SUSPENDED".toList
  | .rejected => "REJECTED".toList
  | .settled => "SETTLED".toList

/-- The day states in which event entries, refusals and reservations are written (R38, R115, R117). -/
def DayState.journals : DayState → Bool
  | .opened | .closing | .sending | .suspended | .rejected => true
  | .setup | .recovering | .settled => false

/-- The drawer-state codes (5.2). -/
def DrawerState.code : DrawerState → Nat
  | .locked => 0
  | .released => 1
  | .opened => 2
  | .overdue => 3

/-- DLKn is energised while drawer n is RELEASED (R81). -/
def Drawer.energised (d : Drawer) : Bool := d.state == .released

/-- The terminal-state codes (13.6). -/
def TerminalState.code : TerminalState → Nat
  | .notConfigured => 0
  | .absent => 1
  | .present => 2

/-- The printer-state codes (13.6). -/
def PrinterState.code : PrinterState → Nat
  | .idle => 0
  | .book => 1
  | .printing => 2
  | .turnWait => 3
  | .ejecting => 4
  | .fault => 5

/-- The sender-state codes (13.6). -/
def SenderState.code : SenderState → Nat
  | .idle => 0
  | .composing => 1
  | .awaitAck => 2
  | .paused => 3
  | .awaitFinal => 4
  | .halted => 5
  | .finished => 6

/-- The active-port codes (13.6). -/
def hoPortCode : HoPort → Nat
  | .primary => 7
  | .backup => 8

/-- The suspend-cause codes (13.6). -/
def SuspendCause.code : SuspendCause → Nat
  | .none => 0
  | .link => 1
  | .journal => 2

/-- A Boolean as a flag byte. -/
def bit (b : Bool) : Nat := if b then 1 else 0

end Sys2Proof.Machine
end

