-- ==== Sys2Proof/Machine/Ops.lean ====
section
/-! DEFINITION. The operations the rows share: the Inject Queue and its groups (R12 to R15), the Fetch
Port (R18), the arbiter (R19, R20), numbering entries (R106 to R118), read-back runs (R119, R120),
command completions (R193), alerts (R201) and the line ports (R198). -/

namespace Sys2Proof.Machine

/-! ### The Inject Queue -/

/-- The newest pending entry at a doubleword (R16). -/
def newestEntry (queue : List InjectEntry) (addr : Nat) : Option Dword :=
  queue.foldl (fun r e => if e.addr = addr then some e.data else r) none

/-- Free room is 32 less occupancy (R12). -/
def freeRoom (p : Path) : Nat := 32 - p.queue.length

/-- DRAIN is entered at an occupancy of 24 or more, by a placing or an admission (R20). -/
def modeAfterEntry (mode : ArbiterMode) (queue : List InjectEntry) : ArbiterMode :=
  if 24 ≤ queue.length then .drain else mode

/-- The journal-class entries of a group (R12). -/
def groupEntries (writes : List (Nat × Dword)) : List InjectEntry :=
  writes.map fun w => ⟨w.1, w.2, .journal⟩

/-- A group can be placed at its hand-over: no earlier group waits and the room suffices (R13). -/
def groupFits (p : Path) (size : Nat) : Bool := p.waiting.isEmpty && size ≤ freeRoom p

/-- The queue with a group placed at its tail (R13). -/
def placeWrites (p : Path) (writes : List (Nat × Dword)) : Path :=
  { p with queue := p.queue ++ groupEntries writes,
           mode := modeAfterEntry p.mode (p.queue ++ groupEntries writes) }

/-- What the placing of a group tells the Control Unit: a final completion ends the command (R193). -/
def controlPlaced (c : Control) : Producer → Control
  | .completion true => { c with busy := false, taken := none }
  | .posting | .journal | .keyRing | .completion false | .freshRecord | .settlement => c

/-- What the placing of a group tells Day Control: the settlement write counts its groups (R174). -/
def dayPlaced (d : Day) : Producer → Day
  | .settlement => { d with settlement := d.settlement.map fun w => { w with placed := w.placed + 1 } }
  | .posting | .journal | .keyRing | .completion _ | .freshRecord => d

/-- A group is placed: its writes join the queue, and its producer is told (R13). -/
def placeGroup (s : State) (g : Group) : State :=
  { s with path := placeWrites s.path g.writes, control := controlPlaced s.control g.producer,
           day := dayPlaced s.day g.producer }

/-- A producer hands over a journal-class group: it is placed, or it waits (R13). -/
def handGroup (s : State) (g : Group) : State :=
  { s with
    path := if groupFits s.path g.writes.length then placeWrites s.path g.writes
            else { s.path with waiting := s.path.waiting ++ [g] },
    control := if groupFits s.path g.writes.length then controlPlaced s.control g.producer
               else s.control,
    day := if groupFits s.path g.writes.length then dayPlaced s.day g.producer else s.day }

/-- Groups handed over in order. -/
def handGroups (s : State) (gs : List Group) : State := gs.foldl handGroup s

/-- The outcome of a mirror-class hand-over (R14): the path, and whether the write was taken. -/
def mirrorWrite (p : Path) (addr : Nat) (data : Dword) : Path × Bool :=
  if p.queue.any fun e => e.cls == .mirror && e.addr == addr then
    ({ p with queue := p.queue.map fun e =>
                if e.cls == .mirror && e.addr == addr then { e with data := data } else e }, true)
  else if p.queue.length < 24 && p.waiting.isEmpty then
    ({ p with queue := p.queue ++ [⟨addr, data, .mirror⟩],
              mode := modeAfterEntry p.mode (p.queue ++ [⟨addr, data, .mirror⟩]) }, true)
  else (p, false)

/-! ### The arbiter (R19, R20) -/

/-- The three requesters of the memory bus (R2). -/
inductive BusGrant where
  | host
  | inject
  | fetch
  deriving DecidableEq, Repr

/-- A host transaction waits for the bus (R2). -/
def hostWaits (p : Path) : Bool :=
  match p.bus with
  | .readWaiting _ | .writeWaiting _ _ _ => true
  | .idle | .readHeld _ _ => false

/-- Whom the arbiter hands the bus at the next grant (R19, R20). -/
def nextGrant (p : Path) : Option BusGrant :=
  if p.mode == .drain then (if p.queue.isEmpty then none else some .inject)
  else if !p.queue.isEmpty && p.injectStreak == 8 then some .inject
  else if !p.fetches.isEmpty && p.fetchStreak == 8 then some .fetch
  else if hostWaits p then some .host
  else if !p.queue.isEmpty then some .inject
  else if !p.fetches.isEmpty then some .fetch
  else none

/-- A streak counter after a host grant made while its requester waited (R19). -/
def streakUp (waits : Bool) (n : Nat) : Nat := if waits && n < 8 then n + 1 else n

/-- The streak counters after a host grant (R19). -/
def hostGranted (p : Path) : Path :=
  { p with injectStreak := streakUp (!p.queue.isEmpty) p.injectStreak,
           fetchStreak := streakUp (!p.fetches.isEmpty) p.fetchStreak }

/-! ### Windows and addresses -/

/-- The base of a window (R3). -/
def windowBase (s : State) (k : Fin 7) : Nat := s.path.windows[k].base

/-- The size E of the journal ring of the configuration in force (R107). -/
def ringSize (s : State) : Nat := s.configuration.size

/-- The ring position of entry k of the day (R106). -/
def ringPosition (s : State) (k : Nat) : Nat := (s.journal.start + k - 1) % ringSize s

/-- The address of the entry at a ring position (R106). -/
def ringAddress (s : State) (position : Nat) : Nat := s.configuration.bases[4] + position * 0x40

/-! ### Alerts (R201) -/

/-- An alert joins the alert set (R201). -/
def raiseAlert (s : State) (a : Alert) : State :=
  { s with control := { s.control with alerts := addAlert s.control.alerts a } }

/-- An alert is raised when a condition holds. -/
def raiseAlertIf (s : State) (cond : Bool) (a : Alert) : State :=
  { s with control := { s.control with
      alerts := if cond then addAlert s.control.alerts a else s.control.alerts } }

/-! ### Numbering entries (R109, R110, R114, R118) -/

/-- JOURNAL_LOW stands at a free count of E ÷ 10 or less (R118). -/
def journalLow (s : State) (free : Nat) : Bool := 10 * free ≤ ringSize s

/-- The entry a content becomes when it is numbered now: its 64 bytes with the chain (R109, R110). -/
def chainedEntry (s : State) (content : List Byte) : List Byte :=
  content ++ leBytes 4 (chainOf s.journal.chain content).toNat

/-- The eight doublewords of the entry numbered now, with their addresses (R106). -/
def entryWrites (s : State) (content : List Byte) : List (Nat × Dword) :=
  let base := ringAddress s (ringPosition s s.journal.next)
  ((List.range 8).map fun i => base + 8 * i).zip (dwordsOfBytes 8 (chainedEntry s content))

/-- The Journal Unit numbers an entry: next number, chain, and the free count lowered by 1 unless the
entry redeems a reservation; JOURNAL_LOW when lowering leaves it low (R110, R114, R118). -/
def numberEntry (s : State) (content : List Byte) (lowers : Bool) : State :=
  let free := if lowers then s.journal.free - 1 else s.journal.free
  raiseAlertIf
    { s with journal := { s.journal with
        next := s.journal.next + 1, chain := chainOf s.journal.chain content, free := free } }
    (lowers && journalLow s free) .journalLow

/-- The Journal Unit numbers an entry of its own and hands over its group of 8 (R110). -/
def writeEntry (s : State) (f : EntryFields) (lowers : Bool) : State :=
  let content := entryContent s.journal.next s.day.clock f
  handGroup (numberEntry s content lowers) ⟨.journal, entryWrites s content⟩

/-- An event entry is written, skipped with JOURNAL_FULL, or dropped (R115). -/
def eventEntry (s : State) (f : EntryFields) : State :=
  if !s.journal.present || !s.day.state.journals then s
  else if 8 < s.journal.free then writeEntry s f true
  else raiseAlert s .journalFull

/-- A day-control entry is written down to the last free entry (R107, R116). -/
def dayControlEntry (s : State) (f : EntryFields) : State :=
  if !s.journal.present then s
  else if 1 ≤ s.journal.free then writeEntry s f true
  else raiseAlert s .journalFull

/-- A reservation is granted (R117). -/
def reservationGranted (s : State) : Bool :=
  s.journal.present && s.day.state.journals && decide (8 < s.journal.free)

/-- The list with printer k's reservation, and the free count lowered (R117, R118). -/
def reserve (s : State) (k : Fin 4) : State :=
  raiseAlertIf
    { s with journal := { s.journal with
        reservations := s.journal.reservations ++ [k], free := s.journal.free - 1 } }
    (journalLow s (s.journal.free - 1)) .journalLow

/-- Printer k hands over an entry with its reservation; without one the entry is an ordinary event
entry, and outside the journaling day states the reservation counts as cancelled (R117). -/
def redeemEntry (s : State) (k : Fin 4) (f : EntryFields) : State :=
  if s.journal.reservations.contains k then
    let released := { s with journal := { s.journal with
      reservations := s.journal.reservations.erase k } }
    if s.day.state.journals then writeEntry released f false
    else { s with journal := { s.journal with
             reservations := s.journal.reservations.erase k, free := s.journal.free + 1 } }
  else eventEntry s f

/-! ### The Fetch Port (R18) -/

/-- A client makes a request of count doublewords (R18). -/
def requestFetch (s : State) (client : FetchClient) (addr count : Nat) : State :=
  { s with path := { s.path with
      fetches := s.path.fetches ++ [⟨client, addr, count⟩],
      fetchWaits := if s.path.fetches.isEmpty then false else s.path.fetchWaits } }

/-- A client withdraws its request; a current one gives way to the next. A list it leaves empty has become
empty, also where a further request joins at the same event (R18, R19; log 41). -/
def withdrawFetch (s : State) (client : FetchClient) : State :=
  let left := s.path.fetches.filter fun r => r.client != client
  { s with path := { s.path with
      fetches := left,
      fetchWaits := if (s.path.fetches.head?.map (·.client)) == some client then false
                    else s.path.fetchWaits,
      fetchStreak := if left.isEmpty then 0 else s.path.fetchStreak } }

/-- A client has a request outstanding. -/
def fetching (s : State) (client : FetchClient) : Bool :=
  s.path.fetches.any fun r => r.client == client

/-! ### Read-back runs (R106, R119, R120) -/

/-- No journal-class group of the Journal Unit's own waits for room (R106). -/
def journalUnitFree (s : State) : Bool := !s.path.waiting.any fun g => g.producer == .journal

/-- The run whose turn is next: the active runs in the order in which they began (R120). -/
def nextRun (j : Journal) : Option (Nat × Run) :=
  let indexed := (List.range j.runs.length).zip j.runs
  (indexed.drop j.turn ++ indexed.take j.turn).find? fun r => r.2.started

/-- How many entries a run's next request covers: up to 4, at consecutive ring positions, not past
its last number, and for a replay not past entry E (R119, R122). -/
def requestEntries (s : State) (r : Run) : Nat :=
  min (min 4 (ringSize s - ringPosition s r.next)) ((r.last.getD (ringSize s)) + 1 - r.next)

/-- When the Journal Unit's client is free, the run whose turn it is makes its next request (R120). -/
def serveRuns (s : State) : State :=
  if s.journal.serving.isSome then s
  else
    match nextRun s.journal with
    | none => s
    | some (i, r) =>
      let served := { s with journal := { s.journal with
        serving := some r.requester, turn := i + 1, buffer := [] } }
      match r.chain with
      | none => requestFetch served .journal (ringAddress s (ringPosition s (r.next - 1)) + 0x38) 1
      | some _ =>
        requestFetch served .journal (ringAddress s (ringPosition s r.next)) (8 * requestEntries s r)

/-- A requester asks for a run from a to b; without b it is a replay run (R119, R122). -/
def askRun (s : State) (requester : Requester) (a : Nat) (b : Option Nat) : State :=
  serveRuns
    { s with journal := { s.journal with
        runs := s.journal.runs ++
          [⟨requester, a, b, if a ≤ 1 then some 0xFFFFFFFF else none, journalUnitFree s⟩] } }

/-- A run leaves the list; the turn stays with the run that had it (R120). -/
def dropRun (j : Journal) (requester : Requester) : Journal :=
  let before := (j.runs.take j.turn).filter fun r => r.requester != requester
  { j with runs := j.runs.filter fun r => r.requester != requester, turn := before.length }

/-- A run ends: it leaves the list, its request is withdrawn, and the next run is served (R119, R120; the fetch
streak, log 41). -/
def endRun (s : State) (requester : Requester) : State :=
  let ended := { s with journal := dropRun s.journal requester }
  if s.journal.serving == some requester then
    serveRuns { withdrawFetch ended .journal with
      journal := { dropRun s.journal requester with serving := none, buffer := [] } }
  else ended

/-- The run of a requester. -/
def runOf (j : Journal) (requester : Requester) : Option Run :=
  j.runs.find? fun r => r.requester == requester

/-- The run of a requester, changed. -/
def updateRun (j : Journal) (requester : Requester) (f : Run → Run) : Journal :=
  { j with runs := j.runs.map fun r => if r.requester == requester then f r else r }

/-! ### What a client does with an answered doubleword -/

/-- The Posting Unit's reversal buffer takes a doubleword; a wrapped fetch asks for the predecessor's
after the entry's eighth (R27). -/
def postingTakes (s : State) (data : Dword) : State :=
  match s.posting.reversal with
  | none => s
  | some r =>
    let taken := { s with posting := { s.posting with
      reversal := some { r with words := r.words ++ [data] } } }
    if r.wrapped && r.words.length == 7 then
      requestFetch taken .posting (ringAddress s (ringSize s - 1) + 0x38) 1
    else taken

/-- The Journal Unit takes a doubleword: a predecessor's chain, or part of an entry (R119). -/
def journalTakes (s : State) (data : Dword) : State :=
  match s.journal.serving with
  | none => s
  | some requester =>
    match (runOf s.journal requester).bind (·.chain) with
    | some _ => { s with journal := { s.journal with buffer := s.journal.buffer ++ [data] } }
    | none =>
      let chain := BitVec.ofNat 32 (laneField data 4 4)
      let started := updateRun s.journal requester fun r => { r with chain := some chain }
      serveRuns { s with journal := { started with serving := none } }

/-- A drop-line controller's row buffer takes a doubleword (R128). -/
def rowTakes (s : State) (d : Fin 2) (data : Dword) : State :=
  let c := s.screen.controllers[d]
  let taken := { c with row := c.row ++ [data] }
  { s with screen := { s.screen with controllers := s.screen.controllers.set d taken } }

/-- The CARRY address of doubleword i of a copy (13.7). -/
def copyAddress (s : State) (copy : Fin 2) (i : Nat) : Nat :=
  windowBase s 6 + copy.val * 0x1000 + 8 * i

/-- A record buffer with a doubleword taken; its validity is marked at the last (R167). -/
def bufferTakes (b : RecordBuffer) (data : Dword) : RecordBuffer :=
  { words := data :: b.words,
    valid := b.words.length == 511 && recordValid (bufferBytes (data :: b.words)) }

/-- Day Control's record buffers take a doubleword: copy 0, then copy 1, in requests of 32 (R167). -/
def dayTakes (s : State) (data : Dword) : State :=
  let copy : Fin 2 := if s.day.records[0].words.length < 512 then 0 else 1
  let n := s.day.records[copy].words.length + 1
  let taken := { s with day := { s.day with
    records := s.day.records.set copy (bufferTakes s.day.records[copy] data) } }
  if n % 32 != 0 then taken
  else if n < 512 then requestFetch taken .day (copyAddress s copy n) 32
  else if copy == 0 then requestFetch taken .day (copyAddress s 1 0) 32
  else taken

/-- The Control Unit takes a doubleword of the image, in 24 requests of 32 (R194). -/
def controlTakes (s : State) (data : Dword) : State :=
  match s.control.image with
  | none => s
  | some words =>
    let n := words.length + 1
    let taken := { s with control := { s.control with image := some (data :: words) } }
    if n % 32 == 0 && n < 768 then requestFetch taken .control (windowBase s 0 + 8 * n) 32 else taken

/-- An answered doubleword is handed to its client (R18). -/
def clientTakes (s : State) (data : Dword) : FetchClient → State
  | .posting => postingTakes s data
  | .journal => journalTakes s data
  | .drop d => rowTakes s d data
  | .day => dayTakes s data
  | .control => controlTakes s data

/-- The current doubleword is answered: it leaves its request, its client takes it, and the next
doubleword or request becomes current. The list becomes empty only where the client makes no further
request at this event (R18, R19; log 41). -/
def answerFetch (s : State) (data : Dword) : State :=
  match s.path.fetches with
  | [] => s
  | r :: rest =>
    let left := if r.left ≤ 1 then rest else { r with next := r.next + 8, left := r.left - 1 } :: rest
    let taken := clientTakes
      { s with path := { s.path with fetches := left, fetchWaits := false } } data r.client
    { taken with path := { taken.path with
        fetchStreak := if taken.path.fetches.isEmpty then 0 else taken.path.fetchStreak } }

/-- Doublewords that become current with an entry pending are answered from it at once; the first
without one waits for the bus (R18). -/
def pumpFetches : Nat → State → State
  | 0, s => s
  | n + 1, s =>
    if s.path.fetchWaits then s
    else
      match s.path.fetches with
      | [] => s
      | r :: _ =>
        match newestEntry s.path.queue r.next with
        | some data => pumpFetches n (answerFetch s data)
        | none => { s with path := { s.path with fetchWaits := true } }

/-- A grant to the Fetch Port: the current doubleword is answered from the queue or from memory (R18). -/
def grantFetch (s : State) : State :=
  match s.path.fetches with
  | [] => s
  | r :: _ =>
    answerFetch { s with path := { s.path with fetchStreak := 0 } }
      ((newestEntry s.path.queue r.next).getD (Memory.readDword s.mem r.next))

/-! ### Completions (R193) -/

/-- The completion doubleword (13.4). -/
def completionDword (tag : Nat) (status : Status) (detail : Nat) : Dword :=
  dwordOfFields [(2, tag), (1, status.code), (1, 0), (4, detail)]

/-- The completion of the command taken is handed over; a final one ends the command at its placing
(R193). -/
def complete (s : State) (status : Status) (detail : Nat) : State :=
  handGroup s ⟨.completion (status != .inProgress),
    [(windowBase s 0 + 0x1838,
      completionDword ((s.control.taken.map (·.tag)).getD 0) status detail)]⟩

/-- The tag of the command taken (R193). -/
def takenTag (s : State) : Nat := (s.control.taken.map (·.tag)).getD 0

/-! ### Line ports (R198) -/

/-- A frame is placed on a port's line behind those being sent (R198). -/
def sendFrame (s : State) (port : Option (Fin 6)) (frame : List Byte) : State :=
  { s with lines := match port with
                    | none => s.lines
                    | some k => s.lines.set k (s.lines[k] ++ [frame]) }

/-- The frames of a port are cut short (R198). -/
def clearLine (s : State) (port : Option (Fin 6)) : State :=
  { s with lines := match port with
                    | none => s.lines
                    | some k => s.lines.set k [] }

/-- The frame on a port's line has been sent (R126, R183). -/
def frameSent (s : State) (k : Fin 6) : State := { s with lines := s.lines.set k s.lines[k].tail }

end Sys2Proof.Machine
end

