-- ==== Sys2Proof/Machine/Amounts.lean ====
section
/-! DEFINITION. Amount arithmetic: breakdown sums, exchange conversion and residue, control totals,
check words and the print format of amounts (spec/04_amount_arithmetic.md). -/

namespace Sys2Proof.Machine

/-- The largest posting amount (4, Ranges). -/
def maxAmount : Int := 999999999999

/-- The sum of a breakdown over its currency's faces (R62). -/
def breakdownSum (faces counts : List Nat) : Nat := (List.zipWith (· * ·) counts faces).sum

/-- Amount in 1..999,999,999,999 (R63). -/
def postingAmount (a : Int) : Bool := 1 ≤ a && a ≤ maxAmount

/-- Amount in 0..999,999,999,999, for a COUNT (R63). -/
def countAmount (a : Int) : Bool := 0 ≤ a && a ≤ maxAmount

/-- The sum test of check 9 (R63): the reason it fails with, if it fails. -/
def sumTest (faces counts : List Nat) (amount : Int) : Option Reason :=
  if maxAmount < (breakdownSum faces counts : Int) then some .amountRange
  else if (breakdownSum faces counts : Int) ≠ amount then some .breakdownMismatch else none

/-- The numerator N of a conversion (R65). -/
def conversionN (a rate eB : Nat) : Nat := a * rate * 10 ^ eB

/-- The divisor D of a conversion (R65). -/
def conversionD (eA : Nat) : Nat := 10 ^ 8 * 10 ^ eA

/-- The payable: the quotient rounded down to the payable unit (R65, R66). A unit of 0, which only a currency
that is not configured has, is used by no posting and no replay (log 34). -/
def payable (a rate eA eB unit : Nat) : Nat :=
  let q := conversionN a rate eB / conversionD eA
  q - q % unit

/-- The residue of a conversion in ten-thousandths of a minor unit (R67). -/
def residue (a rate eA eB unit : Nat) : Nat :=
  (conversionN a rate eB - payable a rate eA eB unit * conversionD eA) * 10 ^ 4 / conversionD eA

/-- The payable of an exchange under a configuration (R65, R66). -/
def exchangePayable (c : Configuration) (a b : Fin 4) (amount rate : Nat) : Nat :=
  payable amount rate c.currencies[a].exponent c.currencies[b].exponent c.currencies[b].payable

/-- A conversion is stated for these figures: configured currencies, and amount_a and rate figure each in
1..999,999,999,999 (R65). -/
def conversionStated (c : Configuration) (a b : Fin 4) (amount : Int) (rate : Nat) : Bool :=
  c.hasCurrency a && c.hasCurrency b && decide (1 ≤ c.currencies[b].payable) && postingAmount amount &&
    postingAmount rate

/-- The residue of an exchange under a configuration (R67). Where a journal entry, of a replay or of a
REVERSAL's original, gives figures for which R65 states no conversion, the value is free (log 34). -/
def exchangeResidue (c : Configuration) (a b : Fin 4) (amount : Int) (rate : Nat) : Nat :=
  if conversionStated c a b amount rate then
    residue amount.toNat rate c.currencies[a].exponent c.currencies[b].exponent c.currencies[b].payable
  else Config.unstatedResidue a.val b.val amount rate

/-- The hash total is a sum modulo 10^15 (R69). -/
def hashModulus : Nat := 10 ^ 15

/-- The hash total after an acceptance: one subtraction of 10^15 at most (R69). For a replayed entry whose
amounts no posting can have the spec states no total, and the value is free (log 44). -/
def hashAfter (hash : Nat) (amountA amountB : Int) : Nat :=
  if countAmount amountA && countAmount amountB then
    let sum := hash + amountA.toNat + amountB.toNat
    if hashModulus ≤ sum then sum - hashModulus else sum
  else Config.unstatedHash hash amountA amountB % hashModulus

/-- A record with its counts written: balance and check word follow (R64, R71). A replay step that rebuilds
the record ends its faulty mark (R71, R72); an acceptance finds none, since check 8 has refused a posting that
reads a marked record (R71). -/
def writeCounts (faces : List Nat) (r : HolderRecord) (counts : List Nat) : HolderRecord :=
  { r with counts := counts, balance := breakdownSum faces counts,
           check := checkWord counts (breakdownSum faces counts), faulty := false }

/-- A record verifies: its stored check word is the one computed, and it carries no mark (R72). -/
def recordVerifies (r : HolderRecord) : Bool :=
  !r.faulty && checkWord r.counts r.balance == r.check

/-! ### Print amounts (R74, R75) -/

/-- The decimal digits of a number, lowest first, at most n of them. -/
def digitsReversed : Nat → Nat → List Char
  | 0, _ => []
  | n + 1, v =>
    Char.ofNat (48 + v % 10) :: (if v / 10 = 0 then [] else digitsReversed n (v / 10))

/-- A number in decimal without leading zeros; 0 is one digit. -/
def decimal (v : Nat) : List Char := (digitsReversed 24 v).reverse

/-- A number in exactly n digits with leading zeros. -/
def fixedDecimal : Nat → Nat → List Char
  | 0, _ => []
  | n + 1, v => fixedDecimal n (v / 10) ++ [Char.ofNat (48 + v % 10)]

/-- A separator between groups of three, on digits lowest first (R74). -/
def groupDigits (sep : Char) : List Char → List Char
  | a :: b :: c :: d :: rest => a :: b :: c :: sep :: groupDigits sep (d :: rest)
  | short => short

/-- The decimal separator of a currency (13.5). -/
def decimalSeparator (code : Nat) : Char := if code = 0 then '.' else ','

/-- The grouping separator of a currency (13.5). -/
def groupingSeparator (code : Nat) : Option Char :=
  if code = 1 then some ',' else if code = 2 then some '.' else if code = 3 then some ' ' else none

/-- The body of an amount field (R74). -/
def amountBody (cur : Currency) (m : Nat) : List Char :=
  let whole := digitsReversed 24 (m / 10 ^ cur.exponent)
  let grouped := match groupingSeparator cur.grouping with
    | none => whole
    | some sep => groupDigits sep whole
  grouped.reverse ++
    (if cur.exponent = 0 then []
     else decimalSeparator cur.decimal :: fixedDecimal cur.exponent (m % 10 ^ cur.exponent))

/-- A text at the right of a field of n columns, spaces to its left. -/
def rightAlign (n : Nat) (text : List Char) : List Char :=
  List.replicate (n - text.length) ' ' ++ text

/-- A text at the left of a field of n columns, spaces to its right. -/
def leftAlign (n : Nat) (text : List Char) : List Char :=
  text.take n ++ List.replicate (n - text.length) ' '

/-- A field of 14 columns: body and sign column at the right, or 14 asterisks (R74, R75). The sign
column is '-' for a negative value and a space otherwise. -/
def amountField (cur : Currency) (v : Int) : List Char :=
  let text := amountBody cur v.natAbs ++ [if v < 0 then '-' else ' ']
  if text.length ≤ 14 then rightAlign 14 text else List.replicate 14 '*'

/-- The 14 columns of an amount in a currency. For a currency that the configuration does not configure
the spec states no format, and the columns are free among the bytes a line of text may have, 20h to 7Eh
(R158; log 43). -/
def printedAmount (c : Configuration) (k : Fin 4) (v : Int) : List Char :=
  if c.hasCurrency k then amountField c.currencies[k] v
  else (List.range 14).map fun i => Char.ofNat (0x20 + Config.unstatedColumn k.val v i % 95)

end Sys2Proof.Machine
end

