-- ==== Sys2Proof/Machine/Totals.lean ====
section
/-! DEFINITION. The Totals Store: what an accepted or replayed posting does to the holder records, the
Day Totals and the control totals (spec/03_posting_kinds.md; R64, R67 to R73, R77). -/

namespace Sys2Proof.Machine

/-- What a posting moves, from its slot at acceptance or from its entries in a replay. -/
structure Movement where
  /-- the posting's own kind, 7 for a REVERSAL (R43) -/
  kind : Nat
  /-- the kind whose form it has: its own, or its original's (R55) -/
  form : Nat
  holderA : Nat
  holderB : Nat
  currencyA : Nat
  currencyB : Nat
  amountA : Int
  amountB : Int
  rate : Nat
  /-- the direction is DEBIT (R50) -/
  debit : Bool
  breakdownA : List Nat
  breakdownB : List Nat
  /-- reverse_ref of a REVERSAL -/
  ref : Nat
  /-- a COUNT that marks its currency counted: CLOSING, without the pre-cut-off mark (R53) -/
  closing : Bool
  deriving DecidableEq, Repr

/-- The movement undoes its form's effect (R59). -/
def Movement.reverses (m : Movement) : Bool := m.kind == 7

/-- What happens to the counts of a leg's record (R64). -/
inductive CountChange where
  | gain (pieces : List Nat)
  | lose (pieces : List Nat)
  | replace (pieces : List Nat)
  deriving DecidableEq, Repr

/-- A leg of a posting (R96). A NONCASH leg has no holder and no count change. -/
structure Leg where
  holder : Option (Fin 17)
  currency : Fin 4
  amount : Int
  change : Option CountChange
  deriving DecidableEq, Repr

/-- A leg with a holder; a holder or currency out of range gives no leg (log 22). -/
def holderLeg (h c : Nat) (amount : Int) (change : CountChange) : Option Leg := do
  let h ← indexOf 17 h
  let c ← indexOf 4 c
  pure ⟨some h, c, amount, some change⟩

/-- The pieces go in, or out when the movement reverses. -/
def flowIn (reverses : Bool) (pieces : List Nat) : CountChange :=
  if reverses then .lose pieces else .gain pieces

/-- The legs of a movement, in the order of R96. -/
def Movement.legs (m : Movement) : List Leg :=
  let r := m.reverses
  match m.form with
  | 1 => (holderLeg m.holderA m.currencyA m.amountA (flowIn r m.breakdownA)).toList
  | 2 => (holderLeg m.holderA m.currencyA m.amountA (flowIn (!r) m.breakdownA)).toList
  | 3 => (holderLeg m.holderA m.currencyA m.amountA (flowIn (!r) m.breakdownA)).toList ++
      (holderLeg m.holderB m.currencyA m.amountA (flowIn r m.breakdownA)).toList
  | 4 => (holderLeg m.holderA m.currencyA m.amountA (flowIn r m.breakdownA)).toList ++
      (holderLeg m.holderA m.currencyB m.amountB (flowIn (!r) m.breakdownB)).toList
  | 5 => ((indexOf 4 m.currencyA).map fun c => (⟨none, c, m.amountA, none⟩ : Leg)).toList
  | 6 => (holderLeg m.holderA m.currencyA m.amountA (.replace m.breakdownA)).toList
  | _ => []

/-- Each count after a change, as exact figures (R64). -/
def countsAfter (old : List Nat) : CountChange → List Int
  | .gain p => List.zipWith (fun (o n : Nat) => (o : Int) + n) old p
  | .lose p => List.zipWith (fun (o n : Nat) => (o : Int) - n) old p
  | .replace p => p.map fun n => (n : Int)

/-- A count as stored. Checks 12 and 13 keep an accepted posting in 0..65,535; for a replayed entry
outside it the spec states no count, and the value is free (log 22). -/
def storedCount (n : Int) : Nat :=
  if 0 ≤ n && n ≤ 65535 then n.toNat else Config.unstatedCount n % 65536

/-- The record of a holder in a currency. -/
def recordOf (t : Totals) (h : Fin 17) (c : Fin 4) : HolderRecord := t.records[h][c]

/-- The Totals Store with one record replaced. -/
def setRecord (t : Totals) (h : Fin 17) (c : Fin 4) (r : HolderRecord) : Totals :=
  { t with records := t.records.set h (t.records[h].set c r) }

/-- The Totals Store with a holder's flags replaced. -/
def setFlags (t : Totals) (h : Fin 17) (f : HolderFlags) : Totals :=
  { t with flags := t.flags.set h f }

/-- A leg renews its record, which then carries no faulty mark (R64, R71, R72). The record of an inactive holder
or an unconfigured currency, which only a replayed leg can name, keeps its zero contents (R71). -/
def applyLeg (c : Configuration) (t : Totals) (l : Leg) : Totals :=
  match l.holder, l.change with
  | some h, some change =>
    let r := recordOf t h l.currency
    if c.holderActive h && c.hasCurrency l.currency then
      setRecord t h l.currency
        (writeCounts (c.faces l.currency) r ((countsAfter r.counts change).map storedCount))
    else t
  | _, _ => t

/-- An amount as an addend of a u64 total. -/
def addend (a : Int) : BitVec 64 := BitVec.ofInt 64 a

/-- The Day Totals with one currency's record changed. -/
def bookDay (t : Totals) (c : Nat) (f : DayTotals → DayTotals) : Totals :=
  match indexOf 4 c with
  | none => t
  | some k => { t with day := t.day.set k (f t.day[k]) }

/-- Received gains (R44, R59). -/
def bookReceived (t : Totals) (c : Nat) (a : Int) : Totals :=
  bookDay t c fun d => { d with received := d.received + addend a }

/-- Paid gains (R45, R59). -/
def bookPaid (t : Totals) (c : Nat) (a : Int) : Totals :=
  bookDay t c fun d => { d with paid := d.paid + addend a }

/-- The residue of an EXCHANGE is added, that of a reversed one subtracted (R49, R60, R67). For an amount or a
rate that no posting can have, and for an unconfigured currency, the residue is free (log 34). A replayed REVERSAL
whose residue is more than the accumulator holds leaves the difference modulo 2^64 (log 60). -/
def bookResidue (conf : Configuration) (t : Totals) (m : Movement) : Totals :=
  match indexOf 4 m.currencyA, indexOf 4 m.currencyB with
  | some a, some b =>
    let r := BitVec.ofNat 64 (exchangeResidue conf a b m.amountA m.rate)
    bookDay t m.currencyB fun d =>
      { d with residue := if m.reverses then d.residue - r else d.residue + r }
  | _, _ => t

/-- Noncash credit or debit gains; a REVERSAL books the opposite of its original's direction (R50,
R59). -/
def bookNoncash (t : Totals) (m : Movement) : Totals :=
  bookDay t m.currencyA fun d =>
    if m.debit != m.reverses then { d with debit := d.debit + addend m.amountA }
    else { d with credit := d.credit + addend m.amountA }

/-- The difference of a COUNT: counted balance minus book balance (R52, R68). -/
def countDifference (c : Configuration) (t : Totals) (m : Movement) : Int :=
  match indexOf 17 m.holderA, indexOf 4 m.currencyA with
  | some h, some k =>
    (breakdownSum (c.faces k) m.breakdownA : Int) - ((recordOf t h k).balance : Int)
  | _, _ => 0

/-- Over gains a positive difference, short the magnitude of a negative one (R52, R68). -/
def bookDifference (t : Totals) (c : Nat) (diff : Int) : Totals :=
  bookDay t c fun d =>
    if 0 < diff then { d with overage := d.overage + addend diff }
    else if diff < 0 then { d with shortage := d.shortage + addend (-diff) } else d

/-- The mix flag: the right sum in the wrong pieces (R52, R68). -/
def mixFlag (c : Configuration) (t : Totals) (m : Movement) : Bool :=
  match indexOf 17 m.holderA, indexOf 4 m.currencyA with
  | some h, some k =>
    m.form == 6 && countDifference c t m == 0 && m.breakdownA != (recordOf t h k).counts
  | _, _ => false

/-- What a form books in the Day Totals (R44 to R52, R59). The store given is the one before the legs. -/
def bookForm (c : Configuration) (t : Totals) (m : Movement) : Totals :=
  match m.form, m.reverses with
  | 1, false => bookReceived t m.currencyA m.amountA
  | 1, true => bookPaid t m.currencyA m.amountA
  | 2, false => bookPaid t m.currencyA m.amountA
  | 2, true => bookReceived t m.currencyA m.amountA
  | 4, false =>
    bookResidue c (bookPaid (bookReceived t m.currencyA m.amountA) m.currencyB m.amountB) m
  | 4, true =>
    bookResidue c (bookReceived (bookPaid t m.currencyA m.amountA) m.currencyB m.amountB) m
  | 5, _ => bookNoncash t m
  | 6, _ => bookDifference t m.currencyA (countDifference c t m)
  | _, _ => t

/-- Every configured currency of a holder is counted (R53). -/
def allCounted (c : Configuration) (t : Totals) (h : Fin 17) : Bool :=
  (List.finRange 4).all fun k => !c.hasCurrency k || (recordOf t h k).counted

/-- A COUNT in CLOSING marks its currency counted and may balance its holder (R53). -/
def markCounted (c : Configuration) (t : Totals) (m : Movement) : Totals :=
  match indexOf 17 m.holderA, indexOf 4 m.currencyA with
  | some h, some k =>
    if m.form == 6 && m.closing then
      let marked := setRecord t h k { recordOf t h k with counted := true }
      if allCounted c marked h then setFlags marked h { marked.flags[h] with balanced := true }
      else marked
    else t
  | _, _ => t

/-- The Reversed Set with a number in it: no two are alike. A replay has no check 11, and may take it past
64 numbers (R56; log 22). -/
def joinReversed (set : List Nat) (n : Nat) : List Nat := if set.contains n then set else set ++ [n]

/-- The control totals, the per-kind count and the Reversed Set after an acceptance (R43, R56, R69). -/
def bookControl (t : Totals) (m : Movement) : Totals :=
  { t with
    accepted := t.accepted + 1, hash := hashAfter t.hash m.amountA m.amountB,
    kinds := match indexOf 7 (m.kind - 1) with
             | none => t.kinds
             | some k => t.kinds.set k (t.kinds[k] + 1),
    reversed := if m.reverses then joinReversed t.reversed m.ref else t.reversed }

/-- The Totals Store applies an accepted posting (R35). -/
def applyMovement (c : Configuration) (t : Totals) (m : Movement) : Totals :=
  bookControl (markCounted c (m.legs.foldl (applyLeg c) (bookForm c t m)) m) m

/-! ### The start of a day and its records (R77, R170, R175) -/

/-- A record loaded with counts: those beyond the configured denominations are 0, the opening balance
is the new balance, mark and counted mark are clear (R71, R77). -/
def loadedRecord (c : Configuration) (k : Fin 4) (counts : List Nat) : HolderRecord :=
  let kept := counts.take (c.denominations k)
  let all := kept ++ List.replicate (12 - kept.length) 0
  let sum := breakdownSum (c.faces k) all
  { counts := all, balance := sum, check := checkWord all sum, faulty := false, opening := sum,
    counted := false }

/-- The records of a new day: loaded for active holders in configured currencies, zero for the rest
(R77). -/
def loadedRecords (c : Configuration) (counts : Fin 17 → Fin 4 → List Nat) :
    Vector (Vector HolderRecord 4) 17 :=
  Vector.ofFn fun h => Vector.ofFn fun k =>
    if c.holderActive h && c.hasCurrency k then loadedRecord c k (counts h k) else zeroRecord

/-- The Totals Store of a new day: records loaded, every total, flag and the Reversed Set cleared
(R170). -/
def openedTotals (c : Configuration) (counts : Fin 17 → Fin 4 → List Nat) : Totals :=
  { resetTotals with records := loadedRecords c counts }

/-- The counts of a carry-forward record, or zeros for a fresh start (R77). -/
def carriedCounts (record : Option (List Byte)) (h : Fin 17) (k : Fin 4) : List Nat :=
  match record with
  | none => List.replicate 12 0
  | some b => recordCounts b h k

/-- The counts of all 68 records in the order of 13.7. -/
def allCounts (t : Totals) : List Nat :=
  (List.finRange 17).flatMap fun h => (List.finRange 4).flatMap fun k => (recordOf t h k).counts

/-- Every active holder is balanced (R172). -/
def allBalanced (c : Configuration) (t : Totals) : Bool :=
  (List.finRange 17).all fun h => !c.holderActive h || t.flags[h].balanced

/-! ### Faulty records (R72, R73) -/

/-- The records named are given the faulty mark (R72). -/
def markFaulty (t : Totals) (named : List (Fin 17 × Fin 4)) : Totals :=
  named.foldl (fun t n => setRecord t n.1 n.2 { recordOf t n.1 n.2 with faulty := true }) t

/-- The records of active holders in configured currencies (R73). -/
def examinedRecords (c : Configuration) : List (Fin 17 × Fin 4) :=
  (List.finRange 17).flatMap fun h => (List.finRange 4).filterMap fun k =>
    if c.holderActive h && c.hasCurrency k then some (h, k) else none

/-- A record fails CHECK_TOTALS: it does not verify, or its balance is not its counts' sum (R73). -/
def failsExamination (c : Configuration) (t : Totals) (n : Fin 17 × Fin 4) : Bool :=
  let r := recordOf t n.1 n.2
  !recordVerifies r || r.balance != breakdownSum (c.faces n.2) r.counts

end Sys2Proof.Machine
end

