-- ==== Sys2Proof/Machine/Mirror.lean ====
section
/-! DEFINITION. The Status Mirror: what each doubleword shows, which change marks it dirty, and its
mirror-class writes (13.6, R199, R200). -/

namespace Sys2Proof.Machine

/-- The numbers of the Mirror's doublewords, ascending (13.6). -/
def mirrorNumbers : List Nat :=
  List.range 18 ++ (List.range 8).map (32 + ·) ++
    (List.range 4).flatMap (fun c => (List.range 7).map fun j => 64 + 8 * c + j) ++
    (List.range 4).map (96 + ·) ++
    (List.range 17).flatMap fun h => (List.range 21).map fun j => 256 + 32 * h + j

/-- Every doubleword of the Mirror layout, as a set (R199). -/
def wholeMirror : BitVec 1024 := mirrorNumbers.foldl (fun s k => s ||| BitVec.twoPow 1024 k) 0

/-- Two violation counters of doubleword 14 + j; the last has one (13.6). -/
def violationFields (s : State) (j : Nat) : List (Nat × Nat) :=
  [(4, ((s.path.violations.toList)[2 * j]?.map (·.toNat)).getD 0),
    (4, ((s.path.violations.toList)[2 * j + 1]?.map (·.toNat)).getD 0)]

/-- Doublewords 0 to 17 (13.6). The block count of an empty plan reads as 0 (R191; log 51). -/
def partFields (s : State) (k : Nat) : List (Nat × Nat) :=
  let c := s.configuration
  match k with
  | 0 => [(1, bit s.control.config.isSome), (1, s.day.state.code),
      (1, (s.day.openingCopy.map (·.val)).getD 0xFF), (1, bit s.day.settlement.isSome),
      (1, bit s.journal.present)]
  | 1 => [(4, s.day.date), (4, s.day.clock)]
  | 2 => [(4, c.size), (4, c.branch)]
  | 3 => [(2, if s.control.config.isSome then c.releaseSpan else 0),
      (2, if s.control.config.isSome then c.overdueSpan else 0), (1, bit s.monitors.freeze.isSome)]
  | 4 => [(2, s.control.alerts.toNat)]
  | 5 => [(4, s.journal.next), (4, s.journal.free)]
  | 6 => [(1, s.posting.queue.length), (1, (s.posting.queue.filter (·.marked)).length), (2, 0),
      (4, s.totals.accepted.toNat)]
  | 7 => [(4, s.totals.refused.toNat)]
  | 8 => [(8, s.totals.hash)]
  | 9 => [(1, s.batch.state.code), (1, s.batch.retries), (1, hoPortCode s.batch.port),
      (1, s.batch.cause.code), (4, s.batch.current)]
  | 10 => [(4, (s.batch.plan.map (·.blocks)).getD 0)]
  | 11 => (s.screen.positions.toList.take 8).map fun q => (1, q.state.code)
  | 12 => (s.screen.positions.toList.drop 8).map fun q => (1, q.state.code)
  | 13 => s.passbook.printers.toList.map fun p => (1, p.state.code)
  | _ => violationFields s (k - 14)

/-- Doubleword 32 + m (13.6). -/
def monitorFields (s : State) (m : Fin 8) : List (Nat × Nat) :=
  [(4, s.monitors.counts[m].toNat), (1, s.configuration.monitors[m].enabled),
    (1, bit s.monitors.fired[m])]

/-- Doubleword 64 + 8c + j (13.6). -/
def dayFields (d : DayTotals) (j : Nat) : List (Nat × Nat) :=
  match j with
  | 0 => [(8, d.received.toNat)]
  | 1 => [(8, d.paid.toNat)]
  | 2 => [(8, d.overage.toNat)]
  | 3 => [(8, d.shortage.toNat)]
  | 4 => [(8, d.residue.toNat)]
  | 5 => [(8, d.credit.toNat)]
  | _ => [(8, d.debit.toNat)]

/-- Doubleword 96 + j (13.6). -/
def kindFields (t : Totals) (j : Nat) : List (Nat × Nat) :=
  ((t.kinds.toList.drop (2 * j)).take 2).map fun n => (4, n.toNat)

/-- The set of marks of a holder's four records, bit c for Cc. -/
def markBits (t : Totals) (h : Fin 17) (mark : HolderRecord → Bool) : Nat :=
  flagSum [(mark t.records[h][0], 1), (mark t.records[h][1], 2), (mark t.records[h][2], 4),
    (mark t.records[h][3], 8)]

/-- Doubleword 256 + 32h + j (13.6). -/
def holderFields (s : State) (h : Fin 17) (j : Nat) : List (Nat × Nat) :=
  if j = 0 then
    let f := s.totals.flags[h]
    let d := s.drawers[h]
    [(1, bit (s.configuration.holderActive h)), (1, d.state.code), (1, bit d.forced),
      (1, bit f.held), (1, bit f.balanced), (1, bit f.forced),
      (1, markBits s.totals h (·.counted)), (1, markBits s.totals h (·.faulty))]
  else
    let r := s.totals.records[h][Fin.ofNat 4 ((j - 1) / 5)]
    match (j - 1) % 5 with
    | 3 => [(8, r.balance)]
    | 4 => [(8, r.opening)]
    | i => ((r.counts.drop (4 * i)).take 4).map fun n => (2, n)

/-- The fields of a Mirror doubleword, lowest lane first (13.6). -/
def mirrorFields (s : State) (k : Nat) : List (Nat × Nat) :=
  if k < 18 then partFields s k
  else if k < 64 then monitorFields s (Fin.ofNat 8 (k - 32))
  else if k < 96 then dayFields s.totals.day[Fin.ofNat 4 ((k - 64) / 8)] ((k - 64) % 8)
  else if k < 256 then kindFields s.totals (k - 96)
  else holderFields s (Fin.ofNat 17 ((k - 256) / 32)) ((k - 256) % 32)

/-- The doublewords whose figures two states show differently (R199). -/
def mirrorChanges (before after : State) : BitVec 1024 :=
  mirrorNumbers.foldl (fun set k =>
    if mirrorFields before k = mirrorFields after k then set else set ||| BitVec.twoPow 1024 k) 0

/-- Doublewords put in the Mirror dirty set (R199). -/
def markMirror (s : State) (set : BitVec 1024) : State :=
  { s with control := { s.control with mirrorDirty := s.control.mirrorDirty ||| set } }

/-- One dirty Mirror doubleword is composed and handed over; a refusal stops the hand-overs (R200). -/
def handMirrorDword (s : State) (k : Nat) : State :=
  if s.path.controlRefused || !s.control.mirrorDirty.getLsbD k then s
  else
    let r := mirrorWrite s.path (windowBase s 4 + 8 * k) (dwordOfFields (mirrorFields s k))
    if r.2 then
      let kept := s.control.mirrorDirty &&& ~~~ BitVec.twoPow 1024 k
      { s with path := r.1, control := { s.control with mirrorDirty := kept } }
    else { s with path := { s.path with controlRefused := true } }

/-- The dirty doublewords are handed over in ascending number while the MIRROR window is known and no
refusal is outstanding (R199, R200). -/
def flushMirror (s : State) : State :=
  if s.path.controlRefused || !s.path.windows[4].known || s.control.mirrorDirty == 0 then s
  else mirrorNumbers.foldl handMirrorDword s

end Sys2Proof.Machine
end

