-- ==== Sys2Proof/Machine/StatusRow.lean ====
section
/-! DEFINITION. The status row: its composition, its recomposition and its image in memory (R133 to
R137). -/

namespace Sys2Proof.Machine

/-- A cell: character byte, then attribute byte (R133). -/
def cells (emphasis : Bool) (text : List Char) : List Byte :=
  text.flatMap fun ch => [BitVec.ofNat 8 ch.toNat, if emphasis then 1 else 0]

/-- A text with its own emphasis at the left of a field, plain spaces after it (R133). -/
def textCells (emphasis : Bool) (n : Nat) (text : List Char) : List Byte :=
  cells emphasis (text.take n) ++ cells false (List.replicate (n - text.length) ' ')

/-- The drawer word of a position and whether it is emphasised (R133). -/
def drawerWord (s : State) (p : Fin 16) : List Char × Bool :=
  let h := holderOfPosition p
  let d := s.drawers[h]
  if !s.configuration.holderActive h then ("NONE".toList, false)
  else
    match d.state with
    | .opened => if d.forced then ("FORCED".toList, true) else ("OPEN".toList, false)
    | .overdue => ("OVERDUE".toList, true)
    | .released => ("RELEASED".toList, false)
    | .locked => (if s.totals.flags[h].held then "HELD".toList else "LOCKED".toList, false)

/-- A holder has a faulty record (R135). -/
def holderFaulty (t : Totals) (h : Fin 17) : Bool := t.records[h].any fun r => r.faulty

/-- The conditions of a teller's own holder, in priority order (R135). -/
def holderConditions (s : State) (h : Fin 17) : List Alert :=
  let d := s.drawers[h]
  (if holderFaulty s.totals h then [.totalsFault] else []) ++
    (if d.forced then [.drawerForced] else []) ++
    (if d.state == .overdue then [.drawerOverdue] else [])

/-- What the alert field of a position shows: the alert set, or its own holder's conditions (R135). -/
def shownAlerts (s : State) (p : Fin 16) : List Alert :=
  if s.configuration.positions[p].role = 2 then
    alertsByPriority.filter (alertIn s.control.alerts)
  else holderConditions s (holderOfPosition p)

/-- The alert text: the highest alert, with the number of the others (R135). -/
def alertText : List Alert → List Char
  | [] => []
  | [a] => a.name
  | a :: rest => a.name ++ '+' :: decimal rest.length

/-- The alert field: a space and 19 columns, emphasised as a whole while an alert is shown (R133). -/
def alertCells (alerts : List Alert) : List Byte :=
  cells (!alerts.isEmpty) (' ' :: leftAlign 19 (alertText alerts))

/-- The time as HH:MM (R133). -/
def timeText (clock : Nat) : List Char :=
  fixedDecimal 2 (clock / 7200) ++ ':' :: fixedDecimal 2 (clock % 7200 / 120)

/-- The 80 cells of an enabled position's status row (R133). -/
def composeRow (s : State) (p : Fin 16) : List Byte :=
  let word := drawerWord s p
  let message := s.screen.positions[p].message
  cells false (fixedDecimal 2 (positionNumber p)) ++
    cells false (List.replicate (8 - word.1.length) ' ') ++ cells word.2 word.1 ++
    cells false [' '] ++ textCells message.refused 29 message.text ++
    alertCells (shownAlerts s p) ++
    cells false (' ' :: leftAlign 14 s.day.state.name) ++ cells false (timeText s.day.clock)

/-- The doublewords in which two compositions differ; none differs in every one (R136). -/
def changedDwords (old : Option (List Byte)) (new : List Byte) : BitVec 20 :=
  match old with
  | none => BitVec.allOnes 20
  | some o =>
    (List.range 20).foldl (fun set j =>
      if (o.drop (8 * j)).take 8 = (new.drop (8 * j)).take 8 then set
      else set ||| BitVec.twoPow 20 j) 0

/-- A position recomposed: changed cells mark row 23 and their doublewords (R136). -/
def recomposed (s : State) (p : Fin 16) : Position :=
  let q := s.screen.positions[p]
  if s.configuration.positionEnabled p then
    let row := composeRow s p
    let changed := changedDwords q.composition row
    if changed = 0 then q
    else { q with composition := some row, dirty := q.dirty ||| BitVec.twoPow 24 23,
                  imageDirty := q.imageDirty ||| changed }
  else if q.composition.isNone then q
  else { q with composition := none, imageDirty := 0 }

/-- Every status row recomposed; a row whose shown state has not changed stays as it is (R136). -/
def recomposeRows (s : State) : State :=
  { s with screen := { s.screen with positions := Vector.ofFn (recomposed s) } }

/-- The address of doubleword j of a position's status row (1.2). -/
def rowImageAddress (s : State) (p : Fin 16) (j : Nat) : Nat :=
  s.path.windows[2].base + p.val * 0x1000 + 0xE60 + 8 * j

/-- Doubleword j of a composition. -/
def rowDword (q : Position) (j : Nat) : Dword :=
  dwordOfBytes ((q.composition.getD []).drop (8 * j))

/-- One dirty doubleword of a status row is handed over; a refusal stops the hand-overs (R137). -/
def handRowDword (s : State) (p : Fin 16) (j : Nat) : State :=
  let q := s.screen.positions[p]
  if s.path.screenRefused || !q.imageDirty.getLsbD j then s
  else
    let r := mirrorWrite s.path (rowImageAddress s p j) (rowDword q j)
    if r.2 then
      let kept := { q with imageDirty := q.imageDirty &&& ~~~ BitVec.twoPow 20 j }
      { s with path := r.1, screen := { s.screen with positions := s.screen.positions.set p kept } }
    else { s with path := { s.path with screenRefused := true } }

/-- The dirty doublewords of the status rows are handed over in position order, then doubleword order,
while the SCREENS window is known and no refusal is outstanding (R137). -/
def flushRows (s : State) : State :=
  if s.path.screenRefused || !s.path.windows[2].known then s
  else
    (List.finRange 16).foldl (fun s p =>
      if s.screen.positions[p].imageDirty = 0 then s
      else (List.range 20).foldl (fun s j => handRowDword s p j) s) s

end Sys2Proof.Machine
end

