-- ==== Sys2Proof/Machine/Conclude.lean ====
section
/-! DEFINITION. What every step ends with: forwarded fetch answers (R18), status rows recomposed (R136),
changed Mirror doublewords marked (R199), and the mirror-class hand-overs, the Control Unit's first (R14,
R137, R200; log 15, log 16). -/

namespace Sys2Proof.Machine

/-- The end of a step that took the state before to the state after its own effect. The mirror-class writes of
an event at which a judging event can be reached are handed over here, before JUDGING_EVENT, which is a row of
its own (R26; log 50). A replayed entry's changed figures and rows are handed over as those of any event (R176;
log 55). -/
def conclude (before after : State) : State :=
  let pumped := pumpFetches 256 after
  let composed := recomposeRows pumped
  flushRows (flushMirror (markMirror composed (mirrorChanges before composed)))

/-- A step of the running part. While RESET is asserted nothing happens (R21; log 7). -/
def running (s : State) (body : State → State) : Host.Outcome State Fault Refusal :=
  if s.inReset then .next s else .next (conclude s (body s))

end Sys2Proof.Machine
end

