-- ==== Sys2Proof/Machine/Batch.lean ====
section
/-! DEFINITION. The Batch Unit: the plan, the blocks, the head-office frame, and the sender's answers
(spec/11_sending_to_head_office.md), with the settling of the day it reports (R173, R174). -/

namespace Sys2Proof.Machine

/-! ### The plan and the blocks (R179 to R181) -/

/-- n ÷ 4 rounded up. -/
def quarters (n : Nat) : Nat := (n + 3) / 4

/-- The block count of a batch (R179). -/
def blockCount (records last : Nat) : Nat := 4 + quarters records + quarters last

/-- The monitor figures taken at the fixing event (R105, R179). -/
def monitorFigures (c : Configuration) (m : Monitors) : List MonitorFigures :=
  (List.finRange 8).map fun i =>
    ⟨m.counts[i], m.fired[i], c.monitors[i].enabled == 1, c.monitors[i].action⟩

/-- The plan fixed from L and the chain of entry L (R179, R190). -/
def planAt (c : Configuration) (t : Totals) (m : Monitors) (last : Nat) (chain : BitVec 32) : Plan :=
  let records := (examinedRecords c).length
  { last := last, chain := chain, records := records, blocks := blockCount records last,
    monitors := monitorFigures c m, accepted := t.accepted, hash := t.hash }

/-- The 64 bytes of a HOLDER record; bytes 04..07 are zeros (13.8; log 48). -/
def holderRecordBytes (t : Totals) (n : Fin 17 × Fin 4) : List Byte :=
  let r := recordOf t n.1 n.2
  leBytes 1 n.1.val ++ leBytes 1 n.2.val ++ leBytes 1 (bit r.counted) ++
    leBytes 1 (bit t.flags[n.1].forced) ++ leBytes 4 0 ++ bytes16 r.counts ++ leBytes 8 r.opening ++
    leBytes 8 r.balance ++ List.replicate 16 0

/-- The seven figures of a Day Totals record (13.8). -/
def dayRecordBytes (d : DayTotals) : List Byte :=
  leBytes 8 d.received.toNat ++ leBytes 8 d.paid.toNat ++ leBytes 8 d.overage.toNat ++
    leBytes 8 d.shortage.toNat ++ leBytes 8 d.residue.toNat ++ leBytes 8 d.credit.toNat ++
    leBytes 8 d.debit.toNat

/-- The DAY TOTALS payload: the store's figures as they stand, with zeros for a currency that is not configured
(R180, R181, 13.8). -/
def dayTotalsBytes (c : Configuration) (t : Totals) : List Byte :=
  ((List.finRange 4).flatMap fun k =>
    if c.hasCurrency k then dayRecordBytes t.day[k] else List.replicate 56 0) ++
    t.kinds.toList.flatMap fun n => leBytes 4 n.toNat

/-- The MONITOR payload (13.8). -/
def monitorBytes (figures : List MonitorFigures) : List Byte :=
  figures.flatMap fun f => leBytes 4 f.count.toNat ++ leBytes 1 (bit f.fired) ++
    leBytes 1 (bit f.enabled) ++ leBytes 1 f.action ++ leBytes 1 0

/-- The HEADER payload (13.8). -/
def headerBytes (c : Configuration) (date : Nat) (p : Plan) : List Byte :=
  leBytes 4 c.branch ++ leBytes 4 date ++ leBytes 4 1 ++ leBytes 4 p.last ++ leBytes 4 p.blocks

/-- The TRAILER payload (13.8). -/
def trailerBytes (p : Plan) : List Byte :=
  leBytes 4 p.accepted.toNat ++ leBytes 4 p.chain.toNat ++ leBytes 8 p.hash

/-- What a block holds (R180): a kind with its payload, or the entries a to b to be read back. -/
inductive BlockContent where
  | payload (kind : Nat) (bytes : List Byte)
  | entries (a b : Nat)
  deriving DecidableEq, Repr

/-- Block n of the batch (R180). -/
def blockContent (s : State) (p : Plan) (n : Nat) : BlockContent :=
  let holders := quarters p.records
  if n = 0 then .payload 1 (headerBytes s.configuration s.day.date p)
  else if n ≤ holders then
    .payload 2 (((((examinedRecords s.configuration).drop (4 * (n - 1))).take 4)).flatMap
      (holderRecordBytes s.totals))
  else if n = holders + 1 then .payload 3 (dayTotalsBytes s.configuration s.totals)
  else if n = holders + 2 then .payload 4 (monitorBytes p.monitors)
  else if n + 1 < p.blocks then
    let a := 4 * (n - holders - 3) + 1
    .entries a (min (a + 3) p.last)
  else .payload 6 (trailerBytes p)

/-- A head-office frame (R182). -/
def headOfficeFrame (kind n : Nat) (payload : List Byte) : List Byte :=
  let body := leBytes 1 kind ++ leBytes 2 n ++ leBytes 2 payload.length ++ payload
  0xA5#8 :: body ++ leBytes 2 (crc16 body).toNat

/-- The sender's part of the state replaced. -/
def setBatch (s : State) (b : Batch) : State := { s with batch := b }

/-- The block buffer is sent on the active port; the ACK wait starts when the frame has been sent
(R183). -/
def sendBlock (s : State) (b : Batch) : State :=
  sendFrame (setBatch s { b with state := .awaitAck, ackWait := false, pause := false,
                                 finalWait := false })
    (s.configuration.headOfficePort b.port) (headOfficeFrame b.kind b.current b.buffer)

/-- A block becomes current and is composed: sent at once, or its entries asked for (R181). -/
def composeBlock (s : State) (b : Batch) (p : Plan) (n : Nat) : State :=
  let stopped := { b with current := n, retries := 0, ackWait := false, pause := false,
                          finalWait := false }
  match blockContent s p n with
  | .payload kind bytes => sendBlock s { stopped with kind := kind, buffer := bytes }
  | .entries a e =>
    askRun (setBatch s { stopped with state := .composing, kind := 5, buffer := [] }) .batch a (some e)

/-- The batch is fixed and block 0 composed (R179). -/
def fixBatch (s : State) : State :=
  let p := planAt s.configuration s.totals s.monitors (s.journal.next - 1) s.journal.chain
  composeBlock s { resetBatch with plan := some p } p 0

/-- The BATCH_STARTED entry (R113). -/
def batchStarted (blocks : Nat) : EntryFields := { kind := 16, ref := blocks }

/-- The day state replaced. -/
def setDayState (s : State) (d : DayState) : State := { s with day := { s.day with state := d } }

/-- The test of R172, and the move to SENDING when it passes: the batch is fixed, then BATCH_STARTED is
numbered. -/
def testSending (s : State) : State :=
  if s.day.state = .closing ∧ allBalanced s.configuration s.totals = true ∧
      (s.posting.queue.any (·.marked)) = false then
    let fixed := fixBatch (setDayState s .sending)
    dayControlEntry fixed (batchStarted ((fixed.batch.plan.map (·.blocks)).getD 0))
  else s

/-- The batch is suspended: HALTED, the day SUSPENDED, BATCH_SUSPENDED journaled (R181, R188). -/
def suspendBatch (s : State) (cause : SuspendCause) : State :=
  let b := s.batch
  dayControlEntry
    (setDayState (setBatch s { b with state := .halted, cause := cause, ackWait := false,
                                      pause := false, finalWait := false }) .suspended)
    { kind := 17, ref := b.current }

/-- A failed send: a retry on the active port, the backup line, or the suspension of the batch (R185,
R188). -/
def failedSend (s : State) : State :=
  let b := s.batch
  if b.retries < 3 then sendBlock s { b with retries := b.retries + 1 }
  else if b.port = .primary ∧ (s.configuration.headOfficePort .backup).isSome then
    sendBlock s { b with port := .backup, retries := 0 }
  else raiseAlert (suspendBatch s .link) .linkSuspended

/-- A taken RESUME_BATCH or RESEND_BATCH restarts the batch at a block (R189). -/
def restartBatch (s : State) (n : Nat) : State :=
  match s.batch.plan with
  | none => s
  | some p =>
    dayControlEntry
      (composeBlock (setDayState s .sending)
        { s.batch with port := .primary, retries := 0, cause := .none } p n)
      (batchStarted p.blocks)

/-! ### Settlement (R174) -/

/-- The doublewords of a carry-forward copy in 16 groups of 32, in ascending address order (R169,
R174). -/
def recordGroups (s : State) (producer : Producer) (copy : Fin 2) (record : List Byte) : List Group :=
  (List.range 16).map fun g =>
    ⟨producer, (List.range 32).map fun i =>
      (copyAddress s copy (32 * g + i), dwordOfBytes (record.drop (8 * (32 * g + i))))⟩

/-- The next journal start written at settlement (R174). -/
def settlementStart (s : State) : Nat :=
  let n := s.journal.next
  (s.journal.start + (if 1 ≤ s.journal.free then n else n - 1)) % ringSize s

/-- The copy settlement writes: the one that is not the opening copy (R174). -/
def settlementCopy (s : State) : Fin 2 := if s.day.openingCopy = some 1 then 0 else 1

/-- The day is settled: the carry-forward record is composed and handed over (R174). -/
def settleDay (s : State) : State :=
  let copy := settlementCopy s
  let start := settlementStart s
  let record := composeRecord s.day.date start (allCounts s.totals)
  handGroups
    { s with day := { s.day with state := .settled, settlement := some ⟨0, copy, start⟩ } }
    (recordGroups s .settlement copy record)

/-! ### Messages from head office (R182, R184 to R187) -/

/-- A received frame is valid (R182). -/
def headOfficeFrameValid (f : List Byte) : Bool :=
  let kind := f.getD 1 0
  let len := field f 4 2
  f.head? == some 0xA5 && decide (8 ≤ f.length) && f.length == len + 8 &&
    field f (len + 6) 2 == (crc16 ((f.drop 1).take (len + 5))).toNat &&
    (((kind == 0x81 || kind == 0x82 || kind == 0x83) && len == 0) ||
      (kind == 0x84 && len == 9 && (f.getD 6 0 == 1 || f.getD 6 0 == 2)))

/-- The block number of a frame (R182). -/
def frameBlock (f : List Byte) : Nat := field f 2 2

/-- The sender takes frames in its waiting states, from the active port (R182). -/
def frameTaken (s : State) (port : HoPort) (f : List Byte) (kind : Byte) : Bool :=
  headOfficeFrameValid f && f.getD 1 0 == kind && s.batch.port == port &&
    (s.configuration.headOfficePort port).isSome &&
    (s.batch.state == .awaitAck || s.batch.state == .paused || s.batch.state == .awaitFinal)

/-- The block outstanding is the TRAILER (R180). -/
def trailerCurrent (b : Batch) : Bool := b.plan.any fun p => b.current + 1 == p.blocks

/-- The current block is acknowledged (R184). -/
def acknowledge (s : State) : State :=
  let b := s.batch
  match b.plan with
  | none => s
  | some p =>
    if trailerCurrent b then
      setBatch s { b with state := .awaitFinal, retries := 0, ackWait := false, pause := false,
                          finalWait := true }
    else composeBlock s b p (b.current + 1)

/-- An ACK (R184). -/
def takeHoAck (s : State) (port : HoPort) (f : List Byte) : State :=
  if frameTaken s port f 0x81 && frameBlock f == s.batch.current && s.batch.state != .awaitFinal then
    acknowledge s
  else s

/-- A NAK (R185). -/
def takeHoNak (s : State) (port : HoPort) (f : List Byte) : State :=
  if frameTaken s port f 0x82 && frameBlock f == s.batch.current && s.batch.state != .awaitFinal then
    failedSend s
  else s

/-- A WAIT pauses the sender, restarts the pause, or restarts the FINAL wait (R186). -/
def takeHoWait (s : State) (port : HoPort) (f : List Byte) : State :=
  if frameTaken s port f 0x83 && frameBlock f == s.batch.current then
    if s.batch.state = .awaitFinal then setBatch s { s.batch with finalWait := true }
    else setBatch s { s.batch with state := .paused, ackWait := false, pause := true }
  else s

/-- The batch is rejected (R187). -/
def rejectBatch (s : State) (code : Nat) (hash : Nat) : State :=
  raiseAlert
    (dayControlEntry
      (setDayState (setBatch s { s.batch with state := .halted, cause := .none, ackWait := false,
                                              pause := false, finalWait := false }) .rejected)
      { kind := 18, code := code, amountA := signed64 hash })
    .batchRejected

/-- A FINAL is judged against the plan's hash total (R187). -/
def judgeFinal (s : State) (result hash : Nat) : State :=
  if result = 2 then rejectBatch s 1 hash
  else if s.batch.plan.any fun p => p.hash == hash then
    settleDay (setBatch s { s.batch with state := .finished, finalWait := false, ackWait := false,
                                         pause := false, retries := 0 })
  else rejectBatch s 2 hash

/-- A FINAL, in AWAIT_FINAL or as the TRAILER's ACK (R187). -/
def takeHoFinal (s : State) (port : HoPort) (f : List Byte) : State :=
  if frameTaken s port f 0x84 then
    if s.batch.state = .awaitFinal then judgeFinal s (field f 6 1) (field f 7 8)
    else if trailerCurrent s.batch then judgeFinal (acknowledge s) (field f 6 1) (field f 7 8)
    else s
  else s

/-- A frame has been sent on a head-office line: the ACK wait starts when it was the block's own (R183,
R184). In PAUSED, after a WAIT taken while the frame was on the line, none starts (R186; log 46). -/
def hoSent (s : State) (port : HoPort) : State :=
  match s.configuration.headOfficePort port with
  | none => s
  | some k =>
    if s.lines[k].isEmpty then s
    else
      let sent := frameSent s k
      if s.batch.port = port ∧ s.batch.state = .awaitAck ∧ sent.lines[k] = [] then
        setBatch sent { s.batch with ackWait := true }
      else sent

/-- The ACK wait expires (R185). -/
def expireAck (s : State) : State := if s.batch.ackWait then failedSend s else s

/-- The pause expires: the block is resent with no retry counted (R186). -/
def expirePause (s : State) : State := if s.batch.pause then sendBlock s s.batch else s

/-- The FINAL wait expires (R187). -/
def expireFinal (s : State) : State := if s.batch.finalWait then failedSend s else s

/-- An entry of the block is placed in the block buffer; the last completes the block (R181). -/
def batchTakesEntry (s : State) (e : List Byte) (last : Bool) : State :=
  let b := { s.batch with buffer := s.batch.buffer ++ e }
  if last then sendBlock s b else setBatch s b

/-- The run of a block broke: HALTED with cause JOURNAL (R120, R181). -/
def batchBreaks (s : State) : State := raiseAlert (suspendBatch s .journal) .journalDamaged

end Sys2Proof.Machine
end

