-- ==== Sys2Proof/Machine/Drawer.lean ====
section
/-! DEFINITION. The drawer machines: releases, sense samples, timers (spec/05_cash_holders_and_drawers.md,
5.2). -/

namespace Sys2Proof.Machine

/-- The machine with drawer h replaced. -/
def setDrawer (s : State) (h : Fin 17) (d : Drawer) : State :=
  { s with drawers := s.drawers.set h d }

/-- The DRAWER_EVENT entry of a drawer (R87). -/
def drawerEntry (h : Fin 17) (code tag : Nat) : EntryFields :=
  { kind := 8, code := code, position := h.val, holderA := h.val, tag := tag, ref := h.val }

/-- A DRAWER_EVENT handed to the Journal Unit (R87, R115). -/
def drawerEvent (s : State) (h : Fin 17) (code tag : Nat) : State :=
  eventEntry s (drawerEntry h code tag)

/-- A drawer that opens: lock de-energised, window stopped, overdue limit started, a held expiry
discarded (R83, R85). -/
def openedDrawer (d : Drawer) (span : Nat) : Drawer :=
  { d with state := .opened, window := none, limit := some span, heldExpiry := false }

/-- A drawer that is locked: both timers stopped (R84). -/
def lockedDrawer (d : Drawer) : Drawer :=
  { d with state := .locked, window := none, limit := none, heldExpiry := false }

/-- A release taken by a drawer machine (R82). -/
def releasedDrawer (c : Configuration) (d : Drawer) : Drawer :=
  match d.state with
  | .locked | .released =>
    { d with state := .released, window := some c.releaseSpan, heldExpiry := false }
  | .opened | .overdue => { d with state := .opened, limit := some c.overdueSpan }

/-- A release handed to the machine of a holder (R82). -/
def releaseDrawer (s : State) (h : Fin 17) : State :=
  setDrawer s h (releasedDrawer s.configuration s.drawers[h])

/-! ### Sense (R80) -/

/-- What a sample does: the debounced sense and run after it, and what it completes (R80). -/
inductive SampleResult where
  | nothing
  /-- a run was emptied by a sample at the debounced level -/
  | emptied
  | sensed (level : Sense)
  | determined (level : Sense)
  deriving DecidableEq, Repr

/-- The debounced sense and the run after a sample, and what the sample completes (R80). -/
def sampledSense (d : Drawer) (level : Sense) : Drawer × SampleResult :=
  if d.sense = some level then ({ d with runLevel := level, runLength := 0 }, .emptied)
  else
    let length := if d.runLevel = level then d.runLength + 1 else 1
    if length < 3 then ({ d with runLevel := level, runLength := length }, .nothing)
    else
      ({ d with sense := some level, runLevel := level, runLength := 0 },
        if d.sense.isNone then .determined level else .sensed level)

/-- The window of a RELEASED drawer runs out while an open run is forming: its expiry is held (R83). -/
def openRunForming (d : Drawer) : Bool :=
  d.runLevel == .opened && decide (1 ≤ d.runLength)

/-- A sensed open (R83, R85). -/
def takeSensedOpen (s : State) (h : Fin 17) : State :=
  let d := s.drawers[h]
  let span := s.configuration.overdueSpan
  match d.state with
  | .released => setDrawer s h (openedDrawer d span)
  | .locked =>
    drawerEvent
      (raiseAlert (setDrawer s h { openedDrawer d span with forced := true }) .drawerForced) h 3 0
  | .opened | .overdue => s

/-- A sensed closed (R84). -/
def takeSensedClosed (s : State) (h : Fin 17) : State :=
  let d := s.drawers[h]
  match d.state with
  | .opened => setDrawer s h (lockedDrawer d)
  | .overdue => drawerEvent (setDrawer s h (lockedDrawer d)) h 4 0
  | .locked | .released => s

/-- The release window's expiry, not held (R84). -/
def takeWindowExpiry (s : State) (h : Fin 17) : State :=
  drawerEvent (setDrawer s h (lockedDrawer s.drawers[h])) h 1 0

/-- The first determination of a sense settles a drawer with a pending settle, with no forced report; a
RELEASED drawer takes an open sense as a sensed open (R90). -/
def takeDetermination (s : State) (h : Fin 17) (level : Sense) : State :=
  let d := { s.drawers[h] with settle := false }
  let span := s.configuration.overdueSpan
  if !s.drawers[h].settle then s
  else
    match s.drawers[h].state, level with
    | .locked, .opened => setDrawer s h (openedDrawer d span)
    | .released, .opened => setDrawer s h (openedDrawer d span)
    | _, _ => setDrawer s h d

/-- A held expiry is taken at the sample that empties the run (R83). -/
def takeHeldExpiry (s : State) (h : Fin 17) : State :=
  if s.drawers[h].heldExpiry then takeWindowExpiry s h else s

/-- A sample of DSNh, with everything it completes. A closed sample ends an open run also while the sense
is undetermined (R83). The sense of an inactive holder is debounced and gives no event (R76, R80). -/
def takeSample (s : State) (h : Fin 17) (level : Sense) : State :=
  let r := sampledSense s.drawers[h] level
  let t := setDrawer s h r.1
  if !s.configuration.holderActive h then t
  else
    match r.2 with
    | .nothing => if level = .closed then takeHeldExpiry t h else t
    | .emptied => takeHeldExpiry t h
    | .sensed .opened => takeSensedOpen t h
    | .sensed .closed => takeSensedClosed t h
    | .determined l => takeDetermination t h l

/-- What a sample at a level would complete. -/
def sampleCompletes (s : State) (h : Fin 17) (level : Sense) : SampleResult :=
  (sampledSense s.drawers[h] level).2

/-! ### Setting from the sense (R90, R91) -/

/-- An active holder's drawer set from its debounced sense, with every timer stopped (R90). -/
def settledDrawer (c : Configuration) (h : Fin 17) (d : Drawer) : Drawer :=
  let stopped := { lockedDrawer d with settle := false }
  if !c.holderActive h then stopped
  else
    match d.sense with
    | some .opened => { stopped with state := .opened, limit := some c.overdueSpan }
    | some .closed => stopped
    | none => { stopped with settle := true }

/-- The drawers at the event at which a configuration takes effect: the forced flag of a holder made
inactive is cleared (R85, R90). -/
def configuredDrawers (c : Configuration) (ds : Vector Drawer 17) : Vector Drawer 17 :=
  Vector.ofFn fun h =>
    let d := settledDrawer c h ds[h]
    { d with forced := d.forced && c.holderActive h }

/-- The drawers at the event at which RESUME_DAY ends with the day resumed: set from the sense, forced
flags clear (R91). -/
def resumedDrawers (c : Configuration) (ds : Vector Drawer 17) : Vector Drawer 17 :=
  Vector.ofFn fun h =>
    let d := ds[h]
    if c.holderActive h then { settledDrawer c h d with forced := false }
    else { lockedDrawer d with forced := false }

/-- Every forced flag cleared (R85, R170). -/
def unforcedDrawers (ds : Vector Drawer 17) : Vector Drawer 17 :=
  Vector.ofFn fun h => { ds[h] with forced := false }

/-! ### The rows' bodies -/

/-- The release window of a drawer runs out: held while an open run forms, taken otherwise (R83,
R84). -/
def expireWindow (s : State) (h : Fin 17) : State :=
  let d := s.drawers[h]
  if d.window.isNone || d.heldExpiry then s
  else if openRunForming d then setDrawer s h { d with window := none, heldExpiry := true }
  else takeWindowExpiry s h

/-- The overdue limit of a drawer runs out (R86). -/
def expireLimit (s : State) (h : Fin 17) : State :=
  let d := s.drawers[h]
  if d.limit.isNone then s
  else
    drawerEvent
      (raiseAlert (setDrawer s h { d with state := .overdue, limit := none }) .drawerOverdue) h 2 0

end Sys2Proof.Machine
end

