-- ==== Sys2Proof/Machine/Monitor.lean ====
section
/-! DEFINITION. The limit monitors: matching, counting, firing (spec/06_limit_monitors.md). -/

namespace Sys2Proof.Machine

/-- A leg as the Monitor Unit is handed it, with the posting's own kind code (R96). -/
structure WatchedLeg where
  kind : Nat
  holder : Option (Fin 17)
  currency : Fin 4
  amount : Int
  before : Nat
  after : Nat
  deriving DecidableEq, Repr

/-- The balance of a leg's record; a leg without a holder has none. -/
def legBalance (t : Totals) (l : Leg) : Nat :=
  match l.holder with
  | none => 0
  | some h => (recordOf t h l.currency).balance

/-- The legs of a movement with their balances before and after it (R96). -/
def watchedLegs (before after : Totals) (m : Movement) : List WatchedLeg :=
  m.legs.map fun l => ⟨m.kind, l.holder, l.currency, l.amount, legBalance before l, legBalance after l⟩

/-- The comparison of R97, by basis, mode and compare. -/
def comparisonHolds (d : MonitorSetup) (l : WatchedLeg) : Bool :=
  if d.basis = 0 then
    if d.compare = 0 then (d.threshold : Int) ≤ l.amount else l.amount < (d.threshold : Int)
  else if l.holder.isNone then false
  else if d.mode = 0 then
    if d.compare = 0 then d.threshold ≤ l.after else l.after < d.threshold
  else if d.compare = 0 then l.before < d.threshold && d.threshold ≤ l.after
  else d.threshold ≤ l.before && l.after < d.threshold

/-- A leg matches a monitor (R97). -/
def legMatches (d : MonitorSetup) (l : WatchedLeg) : Bool :=
  d.enabled == 1 && 1 ≤ l.kind && flagSet d.mask (l.kind - 1) &&
    (d.holder == 0xFF || l.holder.map (·.val) == some d.holder) && d.currency == l.currency.val &&
    comparisonHolds d l

/-- A firing: the monitor, the leg that made the step, and the action's code (R99, R100). -/
structure Firing where
  monitor : Fin 8
  leg : WatchedLeg
  action : Nat
  deriving DecidableEq, Repr

/-- The freeze flag after a firing (R100). -/
def freezeAfter (freeze : Option (Fin 8)) (m : Fin 8) (action : Nat) : Option (Fin 8) :=
  if action = 3 then some m else freeze

/-- One monitor considers one leg: nothing while frozen; a match counts; the step to 0 with the fired
flag clear fires (R98, R99). -/
def considerLeg (c : Configuration) (l : WatchedLeg) (r : Monitors × List Firing) (m : Fin 8) :
    Monitors × List Firing :=
  if r.1.freeze.isSome || !legMatches c.monitors[m] l then r
  else
    let counted := { r.1 with counts := r.1.counts.set m (r.1.counts[m] + 1) }
    if counted.counts[m] == 0 && !r.1.fired[m] then
      let action := c.monitors[m].action
      ({ counted with fired := counted.fired.set m true,
                      freeze := freezeAfter counted.freeze m action }, r.2 ++ [⟨m, l, action⟩])
    else (counted, r.2)

/-- The legs in order, for each the monitors M0 to M7 (R98). -/
def evaluate (c : Configuration) (mon : Monitors) (legs : List WatchedLeg) :
    Monitors × List Firing :=
  legs.foldl (fun r l => (List.finRange 8).foldl (considerLeg c l) r) (mon, [])

/-- HOLD_HOLDER sets the held flag of the leg's holder; a leg without one sets none (R100). -/
def holdFor (t : Totals) (holder : Option (Fin 17)) (action : Nat) : Totals :=
  match holder with
  | none => t
  | some h => if action = 2 then setFlags t h { t.flags[h] with held := true } else t

/-- The holds of a posting's firings (R100). -/
def holdsAfter (t : Totals) (firings : List Firing) : Totals :=
  firings.foldl (fun t f => holdFor t f.leg.holder f.action) t

/-- A NOTE fired (R100). -/
def noteFired (firings : List Firing) : Bool := firings.any fun f => f.action == 1

/-- The MONITOR_FIRED entry of a firing (R101). -/
def firedEntry (position tag number : Nat) (f : Firing) : EntryFields :=
  { kind := 9, code := f.action, position := position,
    holderA := (f.leg.holder.map (·.val)).getD 0xFF, currencyA := f.leg.currency.val, tag := tag,
    amountA := f.leg.amount, amountB := number, balance := f.leg.after, ref := f.monitor.val }

/-- The counts loaded from the presets, every fired flag and the freeze flag clear (R95). -/
def loadedMonitors (c : Configuration) : Monitors :=
  { counts := Vector.ofFn fun m => BitVec.ofNat 32 c.monitors[m].preset,
    fired := Vector.replicate 8 false, freeze := none }

/-- Monitor m cleared: fired flag cleared, freeze lifted if m set it, count loaded (R102). -/
def clearedMonitor (c : Configuration) (mon : Monitors) (m : Fin 8) : Monitors :=
  { counts := mon.counts.set m (BitVec.ofNat 32 c.monitors[m].preset),
    fired := mon.fired.set m false, freeze := if mon.freeze = some m then none else mon.freeze }

end Sys2Proof.Machine
end

