-- ==== Sys2Proof/Machine/Passbook.lean ====
section
/-! DEFINITION. The Unprinted Item Table and the printers (spec/09_passbook_printing.md). -/

namespace Sys2Proof.Machine

/-! ### The table (R143 to R148) -/

/-- How an item was admitted (R145). -/
inductive Admission where
  | folded
  | entered
  | untracked
  deriving DecidableEq, Repr

/-- The account's summary entry (R143: at most one). -/
def summaryOf (items : List Item) (account : Nat) : Option Item :=
  items.find? fun e => e.account == account && e.summary

/-- The number of the account's ordinary entries. -/
def ordinaryCount (items : List Item) (account : Nat) : Nat :=
  (items.filter fun e => e.account == account && !e.summary).length

/-- The entry with a key, changed. -/
def updateItem (items : List Item) (key : Nat) (f : Item → Item) : List Item :=
  items.map fun e => if e.key == key then f e else e

/-- The entry with a key, freed. -/
def freeItem (items : List Item) (key : Nat) : List Item := items.filter fun e => e.key != key

/-- The table has a free entry (R143). -/
def hasFreeEntry (items : List Item) : Bool := items.length < 192

/-- A summary takes an item in (R145, case 1). -/
def foldItem (e i : Item) : Item :=
  { e with folds := e.folds + 1, amount := e.amount + i.amount, key := i.key, balance := i.balance }

/-- An item becomes its account's summary entry (R145, case 2). -/
def newSummary (i : Item) : Item :=
  { i with first := i.key, mnemonic := .sum, folds := 1, summary := true, isOpen := true }

/-- An item is admitted by the first case of R145 that applies. -/
def admitItem (items : List Item) (i : Item) : List Item × Admission :=
  let summary := summaryOf items i.account
  let canFold := summary.any fun e => !e.printing && e.isOpen && e.currency == i.currency
  match summary with
  | some e =>
    if canFold then (updateItem items e.key fun e => foldItem e i, .folded)
    else
      let closed := updateItem items e.key fun e => { e with isOpen := false }
      if ordinaryCount items i.account < 5 && hasFreeEntry items then (closed ++ [i], .entered)
      else (closed, .untracked)
  | none =>
    if !hasFreeEntry items then (items, .untracked)
    else if ordinaryCount items i.account < 5 then (items ++ [i], .entered)
    else (items ++ [newSummary i], .entered)

/-- An ordinary item of a posting (R143, R144). -/
def ordinaryItem (account : Nat) (currency : Fin 4) (key : Nat) (mnemonic : Mnemonic)
    (amount balance : Int) : Item :=
  { account := account, currency := currency, key := key, first := 0, mnemonic := mnemonic,
    amount := amount, balance := balance, folds := 1, summary := false, printing := false,
    isOpen := false, reversals := [] }

/-- The mnemonic and the signed account-side amount of a posting (R42). The sign of a negative amount, which only
a replayed entry has, turns the side's sign (log 61). -/
def itemSide (form : Nat) (debit : Bool) (amount : Int) : Mnemonic × Int :=
  if form = 1 then (.dep, amount)
  else if form = 2 then (.wdl, -amount)
  else if debit then (.ndr, -amount) else (.ncr, amount)

/-- The entry that is, or holds, the item numbered o of an account (R147). -/
def locateItem (items : List Item) (account o : Nat) : Option Item :=
  match items.find? fun e => !e.summary && e.key == o with
  | some e => some e
  | none => items.find? fun e =>
      e.account == account && e.summary && decide (e.first ≤ o ∧ o ≤ e.key)

/-- A reversal taken out of a WAITING summary: the entry, or none when nothing is left (R147). -/
def unfold (e : Item) (r : PendingReversal) : Option Item :=
  if e.folds ≤ 1 then none
  else some { e with folds := e.folds - 1, amount := e.amount - r.amount, balance := r.balance }

/-- The entry with a key replaced, or freed. -/
def replaceItem (items : List Item) (key : Nat) (new : Option Item) : List Item :=
  match new with
  | none => freeItem items key
  | some e => updateItem items key fun _ => e

/-- The original's item is settled; none when the original has no item in the table, and then the
REVERSAL's own item is admitted (R147). -/
def settleOriginal (items : List Item) (account : Nat) (r : PendingReversal) : Option (List Item) :=
  (locateItem items account r.original).map fun e =>
    if e.printing then updateItem items e.key fun e => { e with reversals := e.reversals ++ [r] }
    else if e.summary then replaceItem items e.key (unfold e r)
    else freeItem items e.key

/-- The REV item of a pending reversal (R148). -/
def reversalItem (e : Item) (r : PendingReversal) : Item :=
  ordinaryItem e.account e.currency r.number .rev (-r.amount) r.balance

/-- An interrupted entry: WAITING again with its pending reversals resolved, or freed (R148, R156). -/
def interruptedItem (e : Item) : Option Item :=
  let waiting := { e with printing := false, reversals := [] }
  if e.summary then e.reversals.foldl (fun r p => r.bind fun e => unfold e p) (some waiting)
  else if e.reversals.isEmpty then some waiting else none

/-- The account's WAITING entry with the smallest key (R152). -/
def nextWaiting (items : List Item) (account : Nat) : Option Item :=
  (items.filter fun e => e.account == account && !e.printing).foldl
    (fun best e => match best with
      | none => some e
      | some b => if e.key < b.key then some e else some b) none

/-! ### Printers: frames, messages, notices (R149, R159) -/

/-- A printer frame (13.8). -/
def printerFrame (kind : Byte) (payload : List Byte) : List Byte :=
  let body := kind :: BitVec.ofNat 8 payload.length :: payload
  body ++ [crc8 body]

/-- The payload length of a kind the printer sends (13.8). -/
def printerPayload (kind : Byte) : Option Nat :=
  if kind = 0x10 then some 10
  else if 0x11 ≤ kind.toNat && kind.toNat ≤ 0x15 then some 0 else none

/-- A frame from the printer is valid (R149). -/
def printerFrameValid (frame : List Byte) : Bool :=
  match frame with
  | kind :: len :: rest =>
    printerPayload kind == some len.toNat && rest.length == len.toNat + 1 &&
      frame.getLast? == some (crc8 frame.dropLast)
  | _ => false

/-- A valid frame of a kind. -/
def printerSends (frame : List Byte) (kind : Byte) : Bool :=
  printerFrameValid frame && frame.head? == some kind

/-- The frame of a part message (13.8). -/
def stripeFrame (page line : Nat) : List Byte :=
  printerFrame 0x02 [BitVec.ofNat 8 page, BitVec.ofNat 8 line]

/-- The machine with printer k replaced. -/
def setPrinter (s : State) (k : Fin 4) (p : Printer) : State :=
  { s with passbook := { s.passbook with printers := s.passbook.printers.set k p } }

/-- The machine with the item table replaced. -/
def setItems (s : State) (items : List Item) : State :=
  { s with passbook := { s.passbook with items := items } }

/-- A part message goes out on the printer's port; its ACK is awaited (R149). The port keeps the last
frame sent (log 28). -/
def sendPrinter (s : State) (k : Fin 4) (p : Printer) (message : Awaited) (frame : List Byte) : State :=
  sendFrame (clearLine (setPrinter s k { p with awaited := some message })
    (s.configuration.printerPort k)) (s.configuration.printerPort k) frame

/-- The positions bound to printer k. -/
def boundTo (c : Configuration) (k : Fin 4) (p : Fin 16) : Bool :=
  c.positionEnabled p && c.positions[p].printer == k.val

/-- A notice for every enabled position bound to the printer (R134, R159). -/
def notice (s : State) (k : Fin 4) (text : List Char) : State :=
  let m : Message := ⟨"PRINTER ".toList ++ decimal k.val ++ ' ' :: text, false⟩
  let noticed := Vector.ofFn fun p =>
    if boundTo s.configuration k p then { s.screen.positions[p] with message := m }
    else s.screen.positions[p]
  { s with screen := { s.screen with positions := noticed } }

/-- A notice with the job's lines printed (R159). -/
def doneText (printed : Nat) : List Char := "DONE ".toList ++ decimal printed

/-! ### The printed line (R158) -/

/-- The mnemonic's three letters (R158). -/
def Mnemonic.text : Mnemonic → List Char
  | .dep => ['D', 'E', 'P']
  | .wdl => ['W', 'D', 'L']
  | .ncr => ['N', 'C', 'R']
  | .ndr => ['N', 'D', 'R']
  | .rev => ['R', 'E', 'V']
  | .sum => ['S', 'U', 'M']

/-- The business date as DDMMYY (R158). -/
def printDate (date : Nat) : List Char :=
  fixedDecimal 2 (date % 100) ++ fixedDecimal 2 (date / 100 % 100) ++
    fixedDecimal 2 (date / 10000 % 100)

/-- The 40 columns of an entry's line (R158). -/
def printedLine (c : Configuration) (date : Nat) (e : Item) : List Char :=
  printDate date ++ ' ' :: e.mnemonic.text ++ ' ' ::
    printedAmount c e.currency e.amount ++ ' ' :: printedAmount c e.currency e.balance

/-- The character codes of a text. -/
def charBytes (text : List Char) : List Byte := text.map fun ch => BitVec.ofNat 8 ch.toNat

/-! ### Jobs (R151 to R156) -/

/-- EJECT is sent, with a notice (R155). -/
def eject (s : State) (k : Fin 4) (p : Printer) (text : List Char) : State :=
  notice (sendPrinter s k { p with state := .ejecting, turnTimer := false, lineTimer := false }
    .eject (printerFrame 0x04 [])) k text

/-- STRIPE is sent; the printer is BOOK (R153, R154). -/
def stripe (s : State) (k : Fin 4) (p : Printer) (page line : Nat) (turn : Bool) : State :=
  sendPrinter s k { p with state := .book, turnTimer := false, lineTimer := false }
    (.stripe page line turn) (stripeFrame page line)

/-- The job takes a line: reservation, PRINT, or EJECT with JOURNAL FULL; without a WAITING entry it
ends with DONE n (R152, R153). -/
def takeLine (s : State) (k : Fin 4) (p : Printer) (job : Job) : State :=
  match nextWaiting s.passbook.items job.account with
  | none => eject s k { p with job := some job } (doneText job.printed)
  | some e =>
    if !reservationGranted s then
      eject s k { p with job := some job } "JOURNAL FULL".toList
    else
      let held := setItems (reserve s k)
        (updateItem s.passbook.items e.key fun e => { e with printing := true })
      let frame := printerFrame 0x01
        (BitVec.ofNat 8 job.page :: BitVec.ofNat 8 job.line ::
          charBytes (printedLine s.configuration s.day.date e))
      sendPrinter held k
        { p with state := .printing, job := some { job with current := some e.key },
                 lineTimer := true, turnTimer := false } .print frame

/-- A BOOK_IN of a started or continued job is judged (R151). -/
def judgeBook (s : State) (k : Fin 4) (p : Printer) (job : Job) (started : Bool) : State :=
  let held := { p with job := some job }
  if s.day.state = .setup ∨ s.day.state = .recovering ∨ s.day.state = .settled then
    eject s k held "NO SERVICE".toList
  else if job.account < 1 ∨ 999999999999 < job.account ∨ job.page < 1 ∨ 32 < job.page ∨
      job.line < 1 ∨ 25 < job.line then
    eject s k held "BAD STRIPE".toList
  else if job.page = 32 ∧ job.line = 25 then eject s k held "BOOK FULL".toList
  else if (nextWaiting s.passbook.items job.account).isNone then
    eject s k held (if started then "NO ITEMS".toList else doneText job.printed)
  else if job.line = 25 then stripe s k held (job.page + 1) 1 true
  else takeLine s k held job

/-- A BOOK_IN starts a job in IDLE, continues or replaces one in TURN_WAIT, and is discarded otherwise
(R149, R151). -/
def takeBookIn (s : State) (k : Fin 4) (frame : List Byte) : State :=
  let p := s.passbook.printers[k]
  let account := field frame 2 8
  let page := field frame 10 1
  let line := field frame 11 1
  let fresh : Job := ⟨account, page, line, 0, none⟩
  let ready := { p with state := .book, awaited := none, turnTimer := false }
  match p.state with
  | .idle => judgeBook s k ready fresh true
  | .turnWait =>
    match p.job with
    | none => judgeBook s k ready fresh true
    | some job =>
      if job.account = account then
        judgeBook s k ready { job with page := page, line := line, current := none } false
      else judgeBook s k ready fresh true
  | .book | .printing | .ejecting | .fault => s

/-- The entry a printer's job is printing. -/
def currentItem (s : State) (p : Printer) : Option Item :=
  p.job.bind fun j => j.current.bind fun key => s.passbook.items.find? fun e => e.key == key

/-- The ITEM_PRINTED entry of a line (R112, R153). -/
def printedEntry (k : Fin 4) (job : Job) (e : Item) : EntryFields :=
  { kind := 5, code := k.val, flags := bit e.summary, account := e.account, amountA := job.page,
    amountB := job.line, balance := e.balance, ref := e.key,
    tag := if e.summary then e.first else 0 }

/-- The ITEM_UNTRACKED entry of an item (R112, R146). -/
def untrackedEntry (position tag : Nat) (i : Item) : EntryFields :=
  { kind := 7, position := position, tag := tag, account := i.account, amountA := i.amount,
    balance := i.balance, ref := i.key }

/-- An item is admitted, and journaled when it is untracked (R145, R146). -/
def admitJournaled (s : State) (position tag : Nat) (i : Item) : State :=
  let r := admitItem s.passbook.items i
  if r.2 = .untracked then eventEntry (setItems s r.1) (untrackedEntry position tag i)
  else setItems s r.1

/-- The pending reversals of a printed entry: the REV items of those with the flag (R148). -/
def resolvePrinted (s : State) (e : Item) : State :=
  (e.reversals.filter (·.flag)).foldl (fun s r => admitJournaled s 0 0 (reversalItem e r)) s

/-- After a line, the stripe and the page (R153, R154). -/
def afterLine (s : State) (k : Fin 4) (p : Printer) (job : Job) : State :=
  if job.line < 24 then stripe s k p job.page (job.line + 1) false
  else if job.page < 32 then stripe s k p (job.page + 1) 1 true
  else stripe s k p 32 25 false

/-- A LINE_DONE ends a PRINTING line (R149, R153). -/
def takeLineDone (s : State) (k : Fin 4) : State :=
  let p := s.passbook.printers[k]
  match p.state, p.job, currentItem s p with
  | .printing, some job, some e =>
    let journaled := redeemEntry s k (printedEntry k job e)
    let resolved := resolvePrinted (setItems journaled (freeItem s.passbook.items e.key)) e
    let done := { job with printed := job.printed + 1, current := none }
    afterLine resolved k { p with job := some done, awaited := none, lineTimer := false } done
  | _, _, _ => s

/-- The PRINT_INTERRUPTED entry of a line (R112, R156). -/
def interruptedEntry (k : Fin 4) (job : Job) (e : Item) (timeout : Bool) : EntryFields :=
  { kind := 6, code := k.val, flags := bit timeout, account := e.account, ref := e.key,
    amountA := job.page, amountB := job.line }

/-- A PRINTING line is interrupted: its entry returns to WAITING or is freed, and the reservation is
redeemed (R148, R156). -/
def interruptLine (s : State) (k : Fin 4) (timeout : Bool) : State :=
  let p := s.passbook.printers[k]
  match p.state, p.job, currentItem s p with
  | .printing, some job, some e =>
    redeemEntry (setItems s (replaceItem s.passbook.items e.key (interruptedItem e))) k
      (interruptedEntry k job e timeout)
  | _, _, _ => s

/-- A printer with no job, no message awaited and no timer, in a state. -/
def barePrinter (state : PrinterState) : Printer := { resetPrinter with state := state }

/-- A part message has failed, or the LINE_DONE timer has run out: FAULT, with the notice (R156). -/
def failPrinter (s : State) (k : Fin 4) : State :=
  notice (setPrinter (interruptLine s k true) k (barePrinter .fault)) k "FAULT".toList

/-- A BOOK_OUT, by the printer's state (R154, R155, R156). -/
def takeBookOut (s : State) (k : Fin 4) : State :=
  match s.passbook.printers[k].state with
  | .book | .ejecting => setPrinter s k (barePrinter .idle)
  | .printing =>
    notice (setPrinter (interruptLine s k false) k (barePrinter .idle)) k "INTERRUPTED".toList
  | .idle | .turnWait | .fault => s

/-- RESET_PRINTER is sent to a printer with a port; one without is IDLE (R150). -/
def restartPrinter (s : State) (k : Fin 4) : State :=
  match s.configuration.printerPort k with
  | none => setPrinter s k (barePrinter .idle)
  | some _ => sendPrinter s k (barePrinter .fault) .reset (printerFrame 0x05 [])

/-- The notice of a line interrupted with TIMEOUT (R156). -/
def noticeIfPrinting (s : State) (k : Fin 4) (was : PrinterState) : State :=
  if was = .printing then notice s k "FAULT".toList else s

/-- A READY: the job ends, a line is interrupted, RESET_PRINTER is sent (R150). -/
def takeReady (s : State) (k : Fin 4) : State :=
  noticeIfPrinting (restartPrinter (interruptLine s k true) k) k s.passbook.printers[k].state

/-- A STRIPE has been acknowledged: TURN, or the job goes on at the striped place (R153, R154). -/
def stripeDone (s : State) (k : Fin 4) (p : Printer) (page line : Nat) (turn : Bool) : State :=
  match p.job with
  | none => setPrinter s k { p with awaited := none }
  | some job =>
    if turn then
      notice (sendPrinter s k { p with state := .turnWait, turnTimer := true } .turn
        (printerFrame 0x03 [])) k "TURN PAGE".toList
    else
      let placed := { job with page := page, line := line, current := none }
      if page = 32 ∧ line = 25 then
        eject s k { p with job := some placed }
          (if (nextWaiting s.passbook.items job.account).isSome then "BOOK FULL".toList
           else doneText job.printed)
      else takeLine s k { p with job := some placed } placed

/-- An ACK, by the message it answers; without one it is discarded (R149). -/
def takeAck (s : State) (k : Fin 4) : State :=
  let p := s.passbook.printers[k]
  match p.awaited with
  | none => s
  | some .print | some .turn | some .eject => setPrinter s k { p with awaited := none }
  | some (.stripe page line turn) => stripeDone s k p page line turn
  | some .reset => setPrinter s k (barePrinter .idle)

/-- A reply that fails the message awaited; without one it is discarded (R149). -/
def takeFailure (s : State) (k : Fin 4) : State :=
  if s.passbook.printers[k].awaited.isSome then failPrinter s k else s

/-- The LINE_DONE timer's expiry (R156). -/
def expireLine (s : State) (k : Fin 4) : State :=
  if s.passbook.printers[k].lineTimer then failPrinter s k else s

/-- The page-turn timer's expiry (R154). -/
def expireTurn (s : State) (k : Fin 4) : State :=
  if s.passbook.printers[k].turnTimer then
    notice (setPrinter s k (barePrinter .idle)) k "TURN TIMEOUT".toList
  else s

/-- The printers at the event at which OPEN_DAY makes the day OPEN: those with a job or a book on its
way restart; the table and the reservations are gone already, so no line leaves an entry (R150). -/
def reopenPrinter (s : State) (k : Fin 4) : State :=
  match s.passbook.printers[k].state with
  | .idle | .fault => s
  | .book | .printing | .turnWait | .ejecting =>
    noticeIfPrinting (restartPrinter s k) k s.passbook.printers[k].state

end Sys2Proof.Machine
end

