-- ==== Sys2Proof/Machine/Day.lean ====
section
/-! DEFINITION. Day Control: the clock, the cut-off, the choice of a carry-forward record and the opening
of the day (spec/10_the_business_day.md, 10.1 to 10.7). -/

namespace Sys2Proof.Machine

/-- The clock after a tick (R163). -/
def clockAfter (clock : Nat) : Nat := if clock + 1 = 172800 then 0 else clock + 1

/-- The cut-off: CLOSING, DAY_CUTOFF, and the test of R172 (R165). -/
def cutOff (s : State) (code tag : Nat) : State :=
  testSending (dayControlEntry (setDayState s .closing) { kind := 15, code := code, tag := tag })

/-- The compare fires at this clock value (R165). -/
def compareFires (s : State) (clock : Nat) : Bool :=
  s.day.state == .opened && s.configuration.autoCutoff == 1 && clock == s.configuration.cutoff

/-- A tick of the business clock (R163, R165). -/
def takeTick (s : State) : State :=
  let ticked := { s with day := { s.day with clock := clockAfter s.day.clock } }
  if compareFires s (clockAfter s.day.clock) then cutOff ticked 2 0 else ticked

/-! ### Choosing a record (R167) -/

/-- The bytes of a record buffer. -/
def copyBytes (s : State) (copy : Fin 2) : List Byte := bufferBytes s.day.records[copy].words

/-- The chosen record: the valid one with the later settled date, copy 0 on equal dates (R167). -/
def chosenCopy (s : State) : Option (Fin 2) :=
  let later := recordSettled (copyBytes s 0) < recordSettled (copyBytes s 1)
  match s.day.records[(0 : Fin 2)].valid, s.day.records[(1 : Fin 2)].valid with
  | true, true => some (if later then 1 else 0)
  | true, false => some 0
  | false, true => some 1
  | false, false => none

/-- Both copies have been fetched (R167). -/
def recordsFetched (s : State) : Bool :=
  s.day.records[(0 : Fin 2)].words.length == 512 && s.day.records[(1 : Fin 2)].words.length == 512

/-- Day Control begins to fetch both copies for a work (R167). -/
def fetchRecords (s : State) (work : DayWork) : State :=
  requestFetch
    { s with day := { s.day with records := Vector.replicate 2 ⟨[], false⟩, work := some work } }
    .day (copyAddress s 0 0) 32

/-! ### The opening event (R107, R170) -/

/-- The Journal Unit at the opening event (R107). -/
def openedJournal (s : State) (start : Nat) : Journal :=
  { s.journal with start := start % ringSize s, next := 1, chain := 0xFFFFFFFF, reservations := [],
                   free := ringSize s, present := true }

/-- The Path Unit at the opening event (R11). -/
def openedPath (p : Path) : Path :=
  { p with violations := Vector.replicate 7 0, reported := Vector.replicate 7 false }

/-- Day Control at the opening event (R170). The record buffers are emptied (log 58). -/
def openedDay (d : Day) (date time : Nat) (copy : Fin 2) (settled : Nat) : Day :=
  { d with state := .opened, date := date, clock := time, openingCopy := some copy,
           openingSettled := settled, work := none, records := Vector.replicate 2 ⟨[], false⟩ }

/-- The DAY_OPEN entry (R113). -/
def dayOpenEntry (fresh : Bool) (tag date settled start size : Nat) : EntryFields :=
  { kind := 1, code := bit fresh, tag := tag, amountA := date, amountB := settled, account := start,
    ref := size }

/-- The day opens from a chosen record, or fresh: every block takes its day's start, DAY_OPEN is
number 1, and OPEN_DAY completes (R170). The sender takes its reset values (R179; log 40). -/
def dayOpens (s : State) (date time : Nat) (record : Option (Fin 2)) : State :=
  let c := s.configuration
  let bytes := record.map (copyBytes s)
  let settled := (bytes.map recordSettled).getD 0
  let start := (bytes.map recordStart).getD 0
  let opened :=
    { s with
      totals := openedTotals c (carriedCounts bytes), monitors := loadedMonitors c,
      journal := openedJournal s start, passbook := { s.passbook with items := [] },
      path := openedPath s.path, drawers := unforcedDrawers s.drawers, batch := resetBatch,
      day := openedDay s.day date time (record.getD 0) settled }
  let restarted := (List.finRange 4).foldl reopenPrinter opened
  let entered := dayControlEntry restarted
    (dayOpenEntry record.isNone (takenTag s) date settled (start % ringSize s) (ringSize s))
  complete entered .done (match record with | none => 2 | some copy => copy.val)

/-- OPEN_DAY's records are judged: a failure, or the opening (R168). A failure leaves the record buffers and
their marks as they are (log 58). -/
def openChosen (s : State) (date time : Nat) : State :=
  let stopped := { s with day := { s.day with work := none } }
  match chosenCopy s with
  | none => complete stopped .failed 1
  | some copy =>
    if date ≤ recordSettled (copyBytes s copy) then complete stopped .failed 2
    else dayOpens s date time (some copy)

/-! ### A fresh start (R169) and the end of the settlement write (R174) -/

/-- The groups of a fresh start: zeros over copy 1's first doubleword, then copy 0 (R169). -/
def freshGroups (s : State) : List Group :=
  ⟨.freshRecord, [(copyAddress s 1 0, 0)]⟩ ::
    recordGroups s .freshRecord 0 (composeRecord 101 0 (List.replicate 816 0))

/-- No group of a producer waits. -/
def noneWaiting (s : State) (p : Producer) : Bool := !s.path.waiting.any fun g => g.producer == p

/-- The settlement write returns to idle and DAY_SETTLED is journaled (R113, R174). -/
def settlementDone (s : State) : State :=
  match s.day.settlement with
  | none => s
  | some w =>
    dayControlEntry { s with day := { s.day with settlement := none } }
      { kind := 19, amountA := s.day.date, account := w.nextStart, ref := w.copy.val }

end Sys2Proof.Machine
end

