-- ==== Sys2Proof/Machine/Replay.lean ====
section
/-! DEFINITION. Read-back runs handed to their requesters (R119 to R122), and the replay of a day by
RESUME_DAY (R104, R160, R175 to R178, R190). -/

namespace Sys2Proof.Machine

/-! ### Passbook conditions (R160) -/

/-- A replayed item, in number order. -/
def addReplayItem (i : ReplayItem) : List ReplayItem → List ReplayItem
  | [] => [i]
  | j :: rest => if j.item.key ≤ i.item.key then j :: addReplayItem i rest else i :: j :: rest

/-- A pending item of a replay. -/
def pendingItem (i : Item) : ReplayItem := ⟨i, .pending, none⟩

/-- A POSTING of kinds 1, 2 or 5 with the PASSBOOK flag makes its item pending (R160). With the flag on
another kind it makes none: such an item has no mnemonic and no side (R42; log 22). -/
def replayItem (items : List ReplayItem) (number form : Nat) (f : EntryFields) : List ReplayItem :=
  match indexOf 4 f.currencyA with
  | none => items
  | some c =>
    if flagSet f.flags 0 && (form == 1 || form == 2 || form == 5) then
      let side := itemSide form (flagSet f.flags 3) f.amountA
      addReplayItem (pendingItem (ordinaryItem f.account c number side.1 side.2 f.balance)) items
    else items

/-- The amount of a replayed REVERSAL's item: the opposite of its original's side (R42, R160). An original
that is no POSTING of kind 1, 2 or 5 has no side, and the item's is free (log 52). -/
def reversedAmount (number form : Nat) (f : EntryFields) : Int :=
  if form = 1 ∨ form = 2 ∨ form = 5 then -(itemSide form (flagSet f.flags 3) f.amountA).2
  else if Config.unstatedSide number form then f.amountA else -f.amountA

/-- A REVERSAL cancels a pending original, noting itself; otherwise its own item is pending with the
flag (R160; log 52). One whose currency_a is above 3 names no currency for its item: it leaves the items as they
are, a pending original pending (log 22). -/
def replayReversal (items : List ReplayItem) (number form : Nat) (f : EntryFields) :
    List ReplayItem :=
  match indexOf 4 f.currencyA with
  | none => items
  | some c =>
    let own := ordinaryItem f.account c number .rev (reversedAmount number form f) f.balance
    let flag := flagSet f.flags 0
    if items.any fun i => i.item.key == f.ref && i.condition == .pending then
      items.map fun i =>
        if i.item.key == f.ref then { i with condition := .cancelled, noted := some (own, flag) } else i
    else if flag then addReplayItem (pendingItem own) items
    else items

/-- The entry names the item as printed (R160). -/
def printedBy (f : EntryFields) (i : ReplayItem) : Bool :=
  if flagSet f.flags 0 then
    i.item.account == f.account && decide (f.tag ≤ i.item.key ∧ i.item.key ≤ f.ref) &&
      (i.condition == .pending || i.condition == .cancelled)
  else i.item.key == f.ref

/-- The noted REVERSALs' items that an ITEM_PRINTED makes pending (R160). -/
def notedItems (f : EntryFields) (items : List ReplayItem) : List Item :=
  items.filterMap fun i =>
    if printedBy f i && i.condition == .cancelled then
      i.noted.bind fun n => if n.2 then some n.1 else none
    else none

/-- An ITEM_PRINTED entry (R160). -/
def replayPrinted (items : List ReplayItem) (f : EntryFields) : List ReplayItem :=
  (notedItems f items).foldl (fun l i => addReplayItem (pendingItem i) l)
    (items.map fun i => if printedBy f i then { i with condition := .printed } else i)

/-- An ITEM_UNTRACKED entry (R160). -/
def replayUntracked (items : List ReplayItem) (f : EntryFields) : List ReplayItem :=
  items.map fun i => if i.item.key == f.ref then { i with condition := .untracked } else i

/-- The table rebuilt: the pending items admitted in number order; one without room is untracked with no
entry, and a summary may be closed on the way (R145, R160; log 39). -/
def rebuiltItems (items : List ReplayItem) : List Item :=
  (items.filter fun i => i.condition == .pending).foldl (fun l i => (admitItem l i.item).1) []

/-! ### Entries replayed (R104, R176) -/

/-- The counts of a breakdown, those beyond the configured denominations taken as 0 (R176). -/
def keptCounts (c : Configuration) (currency : Nat) (counts : List Nat) : List Nat :=
  match indexOf 4 currency with
  | none => counts
  | some k =>
    counts.take (c.denominations k) ++ List.replicate (counts.length - c.denominations k) 0

/-- The kind of the replayed POSTING numbered n, 0 when there is none (R176; log 22). -/
def replayedKind (r : Replay) (n : Nat) : Nat := ((r.kinds.find? fun k => k.1 == n).map (·.2)).getD 0

/-- The form of a replayed POSTING: its kind, or its original's (R176). -/
def replayedForm (r : Replay) (f : EntryFields) : Nat :=
  if f.code = 7 then replayedKind r f.ref else f.code

/-- The form by which a replayed POSTING moves the books: R59 gives a REVERSAL of a COUNT or of another
REVERSAL no effect, and no leg for the monitors (R96, R176; log 22). -/
def movedForm (r : Replay) (f : EntryFields) : Nat :=
  let form := replayedForm r f
  if f.code = 7 ∧ 5 < form then 0 else form

/-- The movement of a replayed POSTING with its BREAKDOWN (R176). -/
def replayMovement (c : Configuration) (r : Replay) (f : EntryFields) (breakdown : List Byte) :
    Movement :=
  { kind := f.code, form := movedForm r f, holderA := f.holderA, holderB := f.holderB,
    currencyA := f.currencyA, currencyB := f.currencyB, amountA := f.amountA, amountB := f.amountB,
    rate := f.account, debit := flagSet f.flags 3,
    breakdownA := keptCounts c f.currencyA (fields16 breakdown 0x0C 12),
    breakdownB := keptCounts c f.currencyB (fields16 breakdown 0x24 12), ref := f.ref,
    closing := r.state == .closing && !flagSet f.flags 1 }

/-- A form whose POSTING has a BREAKDOWN (R36, R176). -/
def cashForm (form : Nat) : Bool := form == 1 || form == 2 || form == 3 || form == 4 || form == 6

/-- A POSTING is applied: totals, monitors without entries or alerts, passbook condition, kind (R104, R176). A
REVERSAL of no replayed POSTING moves no record (log 22). -/
def replayPosting (s : State) (number : Nat) (f : EntryFields) (breakdown : List Byte) : State :=
  let c := s.configuration
  let r := s.day.replay
  let m := replayMovement c r f breakdown
  let booked := applyMovement c s.totals m
  let judged := evaluate c s.monitors (watchedLegs s.totals booked m)
  let items := s.passbook.replay
  { s with
    totals := holdsAfter booked judged.2, monitors := judged.1,
    passbook := { s.passbook with replay :=
      if f.code = 7 then replayReversal items number m.form f else replayItem items number m.form f },
    day := { s.day with replay := { r with kinds := r.kinds ++ [(number, f.code)] } } }

/-- A replayed MONITOR_FIRED whose monitor the evaluation did not fire; a ref above 7 names none (R104;
log 22). -/
def replayFired (s : State) (f : EntryFields) : State :=
  match indexOf 8 f.ref with
  | none => s
  | some m =>
    if s.monitors.fired[m] then s
    else
      { s with
        monitors := { s.monitors with
          fired := s.monitors.fired.set m true,
          freeze := if f.code = 3 ∧ s.monitors.freeze = none then some m else s.monitors.freeze },
        totals := holdFor s.totals (indexOf 17 f.holderA) f.code }

/-- A replayed MONITOR_CLEARED; a ref above 7 names none (R104; log 22). -/
def replayCleared (s : State) (f : EntryFields) : State :=
  match indexOf 8 f.ref with
  | none => s
  | some m => { s with monitors := clearedMonitor s.configuration s.monitors m }

/-- A replayed HOLD_RELEASED; a ref above 16 names none (R104; log 22). -/
def replayHoldReleased (s : State) (f : EntryFields) : State :=
  match indexOf 17 f.ref with
  | none => s
  | some h => { s with totals := setFlags s.totals h { s.totals.flags[h] with held := false } }

/-- A replayed FORCE_BALANCED (R79, R176); a ref above 16 names none (log 22). -/
def replayForced (s : State) (f : EntryFields) : State :=
  match indexOf 17 f.ref with
  | none => s
  | some h =>
    { s with totals :=
        setFlags s.totals h { s.totals.flags[h] with balanced := true, forced := true } }

/-- The replay's own figures replaced. -/
def setReplay (s : State) (r : Replay) : State := { s with day := { s.day with replay := r } }

/-- The replayed passbook conditions replaced. -/
def setReplayItems (s : State) (items : List ReplayItem) : State :=
  { s with passbook := { s.passbook with replay := items } }

/-- The first BATCH_STARTED of the day gives the plan kept (R176, R190). -/
def replayBatch (s : State) (number : Nat) (f : EntryFields) : State :=
  match s.batch.plan with
  | some _ => s
  | none =>
    let p := planAt s.configuration s.totals s.monitors (number - 1) s.day.replay.chain
    { s with batch := { s.batch with plan := some { p with blocks := f.ref } } }

/-- The day state a day-control entry leads to from the replayed one, when it follows from it (R176,
R177). -/
def replayedState (kind : Nat) (state : DayState) : Option DayState :=
  let started := state == .sending || state == .suspended || state == .rejected
  if kind = 15 then if state = .opened then some .closing else none
  else if kind = 16 then
    if state = .closing ∨ state = .suspended ∨ state = .rejected then some .sending else none
  else if kind = 17 then if started then some .suspended else none
  else if kind = 18 then if started then some .rejected else none
  else if started then some .settled else none

/-- An entry other than DAY_OPEN, a POSTING or a BREAKDOWN, replayed; none when the replay ends before
it (R176, R177). -/
def replayOther (s : State) (number : Nat) (f : EntryFields) : Option State :=
  let items := s.passbook.replay
  match f.kind with
  | 4 => some { s with totals := { s.totals with refused := s.totals.refused + 1 } }
  | 5 => some (setReplayItems s (replayPrinted items f))
  | 7 => some (setReplayItems s (replayUntracked items f))
  | 9 => some (replayFired s f)
  | 10 => some (replayCleared s f)
  | 11 => some (replayHoldReleased s f)
  | 12 => some (replayForced s f)
  | 6 | 8 | 13 | 14 => some s
  | 15 | 16 | 17 | 18 | 19 =>
    (replayedState f.kind s.day.replay.state).map fun d =>
      let moved := if f.kind = 16 then replayBatch s number f else s
      setReplay moved { moved.day.replay with state := d }
  | _ => none

/-- The entry is the last complete one of the replay (R177). -/
def replayedTo (s : State) (number : Nat) (chain : BitVec 32) : State :=
  setReplay s { s.day.replay with last := number, chain := chain, posting := none }

/-- DAY_OPEN meets the conditions of R175. -/
def dayOpenFits (s : State) (settled : Nat) (f : EntryFields) : Bool :=
  f.kind == 1 && f.account == s.journal.start && f.ref == ringSize s &&
    decide ((settled : Int) < f.amountA) && (f.code != 0 || f.amountB == settled) &&
    (f.code != 1 || settled == 101)

/-- DAY_OPEN replayed: the date, the opening settled date, and the monitors of a new day (R104, R175). Both are
taken as the entry has them, valid dates or not, and a negative amount_b as 0 (log 54). -/
def replayDayOpen (s : State) (f : EntryFields) : State :=
  let flags := Vector.ofFn fun h => { s.totals.flags[h] with held := false }
  { s with
    monitors := loadedMonitors s.configuration, totals := { s.totals with flags := flags },
    day := { s.day with date := f.amountA.toNat, openingSettled := f.amountB.toNat,
                        replay := { s.day.replay with state := .opened } } }

/-- A verified entry handed to the replay; none when the replay ends before it (R175 to R177). A POSTING of no
kind counts as replayed and changes nothing (log 22). -/
def replayEntry (s : State) (number : Nat) (e : List Byte) : Option State :=
  let f := entryFields e
  let r := s.day.replay
  let settled := ((s.day.openingCopy.map fun c => recordSettled (copyBytes s c))).getD 0
  if r.last = 0 ∧ r.posting = none then
    if dayOpenFits s settled f then some (replayedTo (replayDayOpen s f) number (entryChain e))
    else none
  else
    match r.posting with
    | some p =>
      if f.kind = 3 ∧ f.code = (entryFields p).code then
        some (replayedTo (replayPosting s (entryNumber p) (entryFields p) e) number (entryChain e))
      else none
    | none =>
      if f.kind = 2 then
        if cashForm (replayedForm r f) then some (setReplay s { r with posting := some e })
        else if f.code = 5 ∨ f.code = 7 then
          some (replayedTo (replayPosting s number f (List.replicate 64 0)) number (entryChain e))
        else some (replayedTo s number (entryChain e))
      else (replayOther s number f).map fun t => replayedTo t number (entryChain e)

/-! ### The end of the replay (R178) -/

/-- The batch a resumed day keeps (R190). -/
def resumedBatch (c : Configuration) (b : Batch) (state : DayState) : Batch :=
  if state = .suspended ∨ state = .rejected then
    { resetBatch with
      state := .halted,
      plan := b.plan.map fun p =>
        let records := (examinedRecords c).length
        { p with records := records, blocks := blockCount records p.last } }
  else resetBatch

/-- A NOTE monitor is fired (R104). -/
def noteMonitorFired (c : Configuration) (m : Monitors) : Bool :=
  (List.finRange 8).any fun i => m.fired[i] && c.monitors[i].action == 1

/-- DONE slots become FILLING (R23). -/
def resumedSlots (slots : Vector Slot 16) : Vector Slot 16 :=
  Vector.ofFn fun n => if slots[n].state = .done then { slots[n] with state := .filling } else slots[n]

/-- RESUME_DAY ends with the day resumed (R178). The record buffers are emptied (log 58). -/
def resumeDay (s : State) : State :=
  let c := s.configuration
  let r := s.day.replay
  let state := if r.state = .sending then .suspended else r.state
  let free := ringSize s - r.last
  let resumed :=
    { s with
      journal := { s.journal with next := r.last + 1, chain := r.chain, free := free,
                                  reservations := [], present := true },
      drawers := resumedDrawers c s.drawers,
      posting := { s.posting with slots := resumedSlots s.posting.slots },
      passbook := { s.passbook with items := rebuiltItems s.passbook.replay, replay := [] },
      batch := resumedBatch c s.batch state,
      day := { s.day with state := state, work := none, replay := resetReplay,
                          records := Vector.replicate 2 ⟨[], false⟩ } }
  let alerted := raiseAlertIf (raiseAlertIf resumed (journalLow s free) .journalLow)
    (noteMonitorFired c s.monitors) .monitorFired
  complete (testSending alerted) .done r.last

/-- RESUME_DAY fails: the day is SETUP again and the rebuilt state takes its reset values (R104, R122,
R178). The record buffers are emptied (log 58). -/
def failResume (s : State) (detail : Nat) : State :=
  let failed :=
    { s with
      totals := resetTotals, monitors := loadedMonitors s.configuration,
      journal := { s.journal with present := false, free := 0, next := 1 },
      passbook := { s.passbook with items := [], replay := [] }, batch := resetBatch,
      day := { s.day with state := .setup, date := 0, openingCopy := none, openingSettled := 0,
                          work := none, replay := resetReplay,
                          records := Vector.replicate 2 ⟨[], false⟩ } }
  complete failed .failed detail

/-- The replay ends: its run is withdrawn, and the day is resumed or RESUME_DAY fails (R177, R178). -/
def endReplay (s : State) : State :=
  let ended := endRun s .replay
  if s.day.replay.last = 0 then failResume ended 2 else resumeDay ended

/-- RESUME_DAY's record is chosen and the replay run begins (R122, R175). -/
def resumeChosen (s : State) : State :=
  match chosenCopy s with
  | none => failResume s 1
  | some copy =>
    let bytes := copyBytes s copy
    let loaded :=
      { s with
        totals := openedTotals s.configuration (carriedCounts (some bytes)),
        journal := { s.journal with start := recordStart bytes % ringSize s },
        passbook := { s.passbook with replay := [] }, batch := { s.batch with plan := none },
        day := { s.day with openingCopy := some copy, work := some .resumeReplaying,
                            replay := resetReplay } }
    askRun loaded .replay 1 none

/-! ### An entry of a run (R119 to R122) -/

/-- The entry is the one expected and its chain verifies (R119). -/
def entryVerifies (r : Run) (e : List Byte) : Bool :=
  entryNumber e == r.next &&
    entryChain e == chainOf (r.chain.getD 0xFFFFFFFF) e

/-- A verified entry is the run's last: the number asked, or entry E for a replay (R119, R122). -/
def runEnds (s : State) (r : Run) : Bool := r.next == r.last.getD (ringSize s)

/-- The CHECK_JOURNAL run has ended with its last entry verified (R121). -/
def endJournalCheck (s : State) (chain : BitVec 32) : State :=
  match s.control.journalCheck with
  | none => s
  | some (t, c) =>
    let ended := { s with control := { s.control with journalCheck := none } }
    if chain = c then complete ended .done t
    else complete (raiseAlert ended .journalDamaged) .failed t

/-- A break is told to the run's requester (R120, R121, R122, R181). -/
def tellBreak (s : State) (r : Run) : State :=
  match r.requester with
  | .replay => endReplay s
  | .batch => batchBreaks (endRun s .batch)
  | .check =>
    let ended := endRun s .check
    complete (raiseAlert { ended with control := { ended.control with journalCheck := none } }
      .journalDamaged) .failed r.next

/-- A verified entry is handed to the run's requester (R119). -/
def handEntry (s : State) (r : Run) (e : List Byte) (last : Bool) : State :=
  match r.requester with
  | .replay =>
    match replayEntry s r.next e with
    | none => endReplay s
    | some t => if last then endReplay t else t
  | .batch => batchTakesEntry (if last then endRun s .batch else s) e last
  | .check => if last then endJournalCheck (endRun s .check) (entryChain e) else s

/-- The buffer is through: the Journal Unit's client is free for the next run (R120). -/
def passTurn (s : State) : State :=
  if s.journal.buffer.length < 8 ∧ fetching s .journal = false ∧ s.journal.serving.isSome then
    serveRuns { s with journal := { s.journal with serving := none } }
  else s

/-- The first whole entry of the buffer is verified and handed over, or breaks the run (R119). -/
def verifyEntry (s : State) : State :=
  match s.journal.serving.bind (runOf s.journal) with
  | none => s
  | some r =>
    let e := bytesOfDwords (s.journal.buffer.take 8)
    let rest := { s with journal := { s.journal with buffer := s.journal.buffer.drop 8 } }
    if entryVerifies r e then
      let moved := { rest with journal := updateRun rest.journal r.requester fun r =>
        { r with next := r.next + 1, chain := some (entryChain e) } }
      passTurn (handEntry moved r e (runEnds s r))
    else tellBreak rest r

/-- The next grant would answer the last doubleword of a client's data (R119, R167, R194). -/
def grantAnswers (s : State) (client : FetchClient) : Bool :=
  nextGrant s.path == some .fetch && (s.path.fetches.head?.map (·.client)) == some client

/-- An entry of a read-back run: the one whose last doubleword has been answered, or is answered by this
grant (R119; log 12). -/
def takeRunEntry (s : State) : State :=
  if 8 ≤ s.journal.buffer.length then verifyEntry s
  else if s.journal.buffer.length = 7 ∧ grantAnswers s .journal = true then verifyEntry (grantFetch s)
  else s

end Sys2Proof.Machine
end

