-- ==== Sys2Proof/Machine/Screen.lean ====
section
/-! DEFINITION. The drop lines, the terminal table, key rings and learn (spec/08_teller_screens.md). -/

namespace Sys2Proof.Machine

/-! ### Frames (R125) -/

/-- A drop-line frame. -/
def dropFrame (address : Nat) (kind : Byte) (payload : List Byte) : List Byte :=
  let body := BitVec.ofNat 8 address :: kind :: BitVec.ofNat 8 payload.length :: payload
  body ++ [crc8 body]

/-- The broadcast address. -/
def broadcast : Nat := 15

/-- The machine with position p's screen state replaced. -/
def setPosition (s : State) (p : Fin 16) (q : Position) : State :=
  { s with screen := { s.screen with positions := s.screen.positions.set p q } }

/-- The machine with controller d replaced. -/
def setController (s : State) (d : Fin 2) (c : Controller) : State :=
  { s with screen := { s.screen with controllers := s.screen.controllers.set d c } }

/-- A frame goes out on drop line d (R123). -/
def sendDrop (s : State) (d : Fin 2) (frame : List Byte) : State :=
  sendFrame s (s.configuration.dropPort d) frame

/-- An exchange begins: its frame is on the line (R123, R126). -/
def beginExchange (s : State) (d : Fin 2) (p : Fin 16) (kind : ExchangeKind) (frame : List Byte) :
    State :=
  sendDrop
    (setController s d { s.screen.controllers[d] with exchange := some ⟨p, kind, .sending⟩ }) d frame

/-- The exchange of controller d is over. -/
def clearExchange (s : State) (d : Fin 2) : State :=
  setController s d { s.screen.controllers[d] with exchange := none }

/-! ### Visits (R127, R128, R130) -/

/-- The POLL of a position (R130). -/
def sendPoll (s : State) (d : Fin 2) (p : Fin 16) : State :=
  let q := s.screen.positions[p]
  beginExchange s d p .poll (dropFrame q.address 0x02 [BitVec.ofNat 8 (bit q.pollBit)])

/-- The row a ROW exchange takes: row 23 if dirty, else the lowest (R128). -/
def rowToSend (dirty : BitVec 24) : Option Nat :=
  if dirty.getLsbD 23 then some 23 else (List.range 23).find? fun r => dirty.getLsbD r

/-- A row leaves a dirty-row set. -/
def withoutRow (dirty : BitVec 24) (r : Nat) : BitVec 24 := dirty &&& ~~~ BitVec.twoPow 24 r

/-- A row joins a dirty-row set. -/
def withRow (dirty : BitVec 24) (r : Nat) : BitVec 24 := dirty ||| BitVec.twoPow 24 r

/-- The address of row r of a position's page (1.2). -/
def rowAddress (s : State) (p : Fin 16) (r : Nat) : Nat :=
  windowBase s 2 + p.val * 0x1000 + r * 0xA0

/-- A ROW exchange takes its row: the buffer is filled from the composition at once, or fetched
(R128). -/
def takeRow (s : State) (d : Fin 2) (p : Fin 16) (r : Nat) : State :=
  let q := s.screen.positions[p]
  let c := s.screen.controllers[d]
  let buffer := if r = 23 then dwordsOfBytes 20 (q.composition.getD []) else []
  let taken := setController (setPosition s p { q with dirty := withoutRow q.dirty r }) d
    { c with exchange := some ⟨p, .row false, .filling⟩, rowNumber := r, row := buffer,
             rowsSent := c.rowsSent + 1 }
  if r = 23 then taken else requestFetch taken (.drop d) (rowAddress s p r) 20

/-- The rows of a visit: up to two, then the POLL. A row that waits for a later visit is passed over (R127,
R128). -/
def visitRows (s : State) (d : Fin 2) (p : Fin 16) (later : Option Nat) : State :=
  let dirty := s.screen.positions[p].dirty
  match rowToSend (match later with | none => dirty | some r => withoutRow dirty r) with
  | some r => if s.screen.controllers[d].rowsSent < 2 then takeRow s d p r else sendPoll s d p
  | none => sendPoll s d p

/-- The ECHO of a visit, when pending, then the rows. An ECHO made pending while the BELL of the same visit is on
the line goes out in it (R127, R141; log 45). -/
def visitEcho (s : State) (d : Fin 2) (p : Fin 16) : State :=
  let q := s.screen.positions[p]
  match q.echo, s.control.lineCheck with
  | true, some (_, pattern) =>
    beginExchange (setPosition s p { q with echo := false }) d p .echo
      (dropFrame q.address 0x04 pattern)
  | _, _ => visitRows s d p none

/-- The visit of a PRESENT terminal begins: BELL when pending (R127). -/
def beginVisit (s : State) (d : Fin 2) (p : Fin 16) (rest : List (Fin 16)) : State :=
  let c := s.screen.controllers[d]
  let q := s.screen.positions[p]
  let started := setController s d { c with remaining := rest, rowsSent := 0 }
  if q.bell then
    beginExchange (setPosition started p { q with bell := false }) d p .bell
      (dropFrame q.address 0x03 [])
  else visitEcho started d p

/-- The controller goes on to the next position of the cycle; an ABSENT terminal is polled when its
skip count is 0 (R127). -/
def visitNext (s : State) (d : Fin 2) : List (Fin 16) → State
  | [] => setController s d { s.screen.controllers[d] with exchange := none, remaining := [] }
  | p :: rest =>
    let q := s.screen.positions[p]
    match q.state with
    | .present => beginVisit s d p rest
    | .absent =>
      if q.skip = 0 then
        sendPoll (setController s d { s.screen.controllers[d] with remaining := rest }) d p
      else visitNext (setPosition s p { q with skip := q.skip - 1 }) d rest
    | .notConfigured => visitNext s d rest

/-- A cycle begins (R127). -/
def beginCycle (s : State) (d : Fin 2) : State :=
  visitNext s d (s.configuration.linePositions d)

/-! ### Learn (R138 to R140) -/

/-- CHECK_LINE completes at the outcome of its ECHO, or when its terminal is lost (R141). -/
def endLineCheck (s : State) (status : Status) (detail : Nat) : State :=
  complete { s with control := { s.control with lineCheck := none } } status detail

/-- A CHECK_LINE whose ECHO has not been sent when the LOCK of an acknowledged line makes its terminal ABSENT
completes FAILED. It was taken while a START_LEARN waited for the exchange in progress; no END_LEARN can be taken
meanwhile (R6, R140, R141; log 23). -/
def loseLineCheck (s : State) (d : Fin 2) : State :=
  match s.control.lineCheck with
  | none => s
  | some (p, _) =>
    let q := s.screen.positions[p]
    if s.configuration.onLine d p && q.echo then
      endLineCheck (setPosition s p { q with echo := false }) .failed 3
    else s

/-- The learn ends: LOCK is broadcast, every configured position of the line is ABSENT, and a new cycle
begins (R140). -/
def finishLearn (s : State) (d : Fin 2) : State :=
  let c := s.screen.controllers[d]
  let absent := Vector.ofFn fun p =>
    let q := s.screen.positions[p]
    if s.configuration.onLine d p then { q with state := .absent, skip := 0, missed := 0 } else q
  let unlearned := { s with screen := { s.screen with positions := absent } }
  beginCycle
    (sendDrop (setController unlearned d
      { c with mode := .cycling, exchange := none, current := none, repeatTimer := false }) d
      (dropFrame broadcast 0x07 [])) d

/-- ASSIGN is broadcast for a position (R139). -/
def sendAssign (s : State) (d : Fin 2) (p : Fin 16) : State :=
  let current := setController s d
    { s.screen.controllers[d] with current := some p, repeatTimer := false }
  beginExchange current d p .assign
    (dropFrame broadcast 0x05 [BitVec.ofNat 8 s.screen.positions[p].address])

/-- The lowest unacknowledged position becomes current; with none left the learn ends (R139, R140). -/
def assignNext (s : State) (d : Fin 2) : State :=
  let c := s.screen.controllers[d]
  match (s.configuration.linePositions d).find? fun p => !c.acknowledged.contains p with
  | some p => sendAssign s d p
  | none => finishLearn (loseLineCheck s d) d

/-- The controller becomes LEARNING with every position of its line unacknowledged, and the lowest is
assigned (R138, R139). -/
def beginLearning (s : State) (d : Fin 2) : State :=
  assignNext (setController s d
    { s.screen.controllers[d] with
      mode := .learning, remaining := [], acknowledged := [], current := none,
      repeatTimer := false }) d

/-- What follows an exchange of a visit: the visit, or the learn that was started meanwhile (R138). -/
def afterExchange (s : State) (d : Fin 2) (visit : State → State) : State :=
  if s.screen.controllers[d].mode = .stopping then beginLearning s d else visit s

/-- The visit ends (R127). -/
def endVisit (s : State) (d : Fin 2) : State :=
  afterExchange (clearExchange s d) d fun s => visitNext s d s.screen.controllers[d].remaining

/-! ### Keys (R131) -/

/-- The number of keys a ring holds (R131). -/
def keysHeld (q : Position) : Nat := (q.producer - q.consumer).toNat

/-- The two-byte entries of a KEYS payload. -/
def keyEntries : List Byte → List (BitVec 16)
  | a :: b :: rest => BitVec.ofNat 16 (a.toNat + 256 * b.toNat) :: keyEntries rest
  | _ => []

/-- Keys are taken while the ring has room; at the first that finds it full the rest are dropped and
BELL is pending. The doublewords that hold a taken key are listed in the order of their first (R131). -/
def takeKeys : List (BitVec 16) → Position × List Nat → Position × List Nat
  | [], r => r
  | k :: rest, (q, touched) =>
    if keysHeld q < 24 then
      let j := q.writeAt / 4
      takeKeys rest
        ({ q with ring := q.ring.set q.writeAt k, writeAt := (q.writeAt + 1) % 24,
                  producer := q.producer + 1 },
          if touched.contains j then touched else touched ++ [j])
    else ({ q with bell := true }, touched)

/-- The address of doubleword i of a position's ring (13.3). -/
def ringDword (s : State) (p : Fin 16) (i : Nat) : Nat := windowBase s 3 + p.val * 0x40 + 8 * i

/-- Key-entry doubleword j of a ring shadow (13.3). -/
def keyDword (q : Position) (j : Nat) : Dword :=
  dwordOfFields (((q.ring.drop (4 * j)).take 4).map fun k => (2, k.toNat))

/-- The producer doubleword (13.3). -/
def producerDword (q : Position) : Dword := dwordOfFields [(2, q.producer.toNat), (1, q.writeAt)]

/-- The keys of a GOOD reply are taken and their group handed over (R131). -/
def keysTaken (s : State) (p : Fin 16) (keys : List (BitVec 16)) : State :=
  let r := takeKeys keys (s.screen.positions[p], [])
  let held := setPosition s p r.1
  if r.2.isEmpty then held
  else
    handGroup held ⟨.keyRing,
      (r.2.map fun j => (ringDword s p (2 + j), keyDword r.1 j)) ++
        [(ringDword s p 0, producerDword r.1)]⟩

/-- The whole ring image of a position, 7 doublewords (R132). -/
def ringGroup (s : State) (p : Fin 16) : Group :=
  let q := s.screen.positions[p]
  ⟨.keyRing, ((List.range 6).map fun j => (ringDword s p (2 + j), keyDword q j)) ++
    [(ringDword s p 0, producerDword q)]⟩

/-! ### Outcomes (R126, R128 to R130, R139, R141) -/

/-- The outcome of an exchange (R126). -/
inductive DropOutcome where
  | good (kind : Byte) (payload : List Byte)
  | bad
  | noReply
  deriving DecidableEq, Repr

/-- The frame is whole: its length matches its payload and its check byte is right (R126). -/
def dropFrameWhole (frame : List Byte) : Bool :=
  match frame with
  | _ :: _ :: len :: rest =>
    rest.length == len.toNat + 1 && frame.getLast? == some (crc8 frame.dropLast)
  | _ => false

/-- The kinds and lengths a GOOD reply to an exchange may have (R126, R204). -/
def replyFits (kind : ExchangeKind) (code : Byte) (len : Nat) : Bool :=
  match kind with
  | .row _ | .bell | .assign => code == 0x10 && len == 0
  | .poll => (code == 0x13 && len == 0) ||
      (code == 0x12 && decide (2 ≤ len ∧ len ≤ 16) && len % 2 == 0)
  | .echo => code == 0x04 && len == 16

/-- A received frame is judged (R126). A NAK and a frame that is not valid are BAD alike. -/
def judgeReply (address : Nat) (kind : ExchangeKind) (frame : List Byte) : DropOutcome :=
  let code := frame.getD 1 0
  let len := (frame.getD 2 0).toNat
  if dropFrameWhole frame && (frame.getD 0 0).toNat == address && replyFits kind code len then
    .good code ((frame.drop 3).take len)
  else .bad

/-- The TERMINAL_EVENT entry of a position (R112). -/
def terminalEntry (p : Fin 16) (q : Position) (code : Nat) : EntryFields :=
  { kind := 14, code := code, position := positionNumber p, ref := q.line, amountA := q.address }

/-- A PRESENT terminal is made ABSENT by its third miss. The rows that show the alert are recomposed before the
next visit (R129, R136, R201). -/
def loseTerminal (s : State) (p : Fin 16) : State :=
  let q := s.screen.positions[p]
  let lost := setPosition s p
    { q with state := .absent, skip := 7, missed := 0, bell := false, echo := false }
  let reported := eventEntry (raiseAlert lost .terminalLost) (terminalEntry p q 1)
  recomposeRows (if q.echo then endLineCheck reported .failed 3 else reported)

/-- A miss of a PRESENT terminal counts, and the third loses it (R126, R129). -/
def countMiss (s : State) (p : Fin 16) : State :=
  let q := s.screen.positions[p]
  if q.state ≠ .present then s
  else if q.missed + 1 < 3 then setPosition s p { q with missed := q.missed + 1 }
  else loseTerminal s p

/-- What an outcome does to the missed count; an ASSIGN without an answer counts no miss (R126, R138;
log 23). -/
def countOutcome (s : State) (e : Exchange) (o : DropOutcome) : State :=
  match o with
  | .good _ _ => setPosition s e.position { s.screen.positions[e.position] with missed := 0 }
  | .bad => s
  | .noReply => if e.kind = .assign then s else countMiss s e.position

/-- The row goes back to the dirty-row set (R128). -/
def returnRow (s : State) (d : Fin 2) (p : Fin 16) : State :=
  let c := s.screen.controllers[d]
  let q := s.screen.positions[p]
  setPosition s p { q with dirty := withRow q.dirty c.rowNumber }

/-- The ROW frame of the row buffer (R125, 13.8). -/
def rowFrame (s : State) (d : Fin 2) (p : Fin 16) : List Byte :=
  let c := s.screen.controllers[d]
  dropFrame s.screen.positions[p].address 0x01
    (BitVec.ofNat 8 c.rowNumber :: bytesOfDwords c.row)

/-- The row just sent, when a GOOD outcome finds it in the set again: a host write has put back a row of 0..22,
which waits for a later visit, and a recomposition row 23, which does not (R8, R128, R136). -/
def rowPutBack (s : State) (d : Fin 2) : Option Nat :=
  let r := s.screen.controllers[d].rowNumber
  if r = 23 then none else some r

/-- The outcome of a ROW (R128). A first send that is BAD after START_LEARN is not sent again: the cycle
stops at the end of this exchange, and the row stays dirty (R138; log 35). -/
def rowOutcome (s : State) (d : Fin 2) (p : Fin 16) (resend : Bool) (o : DropOutcome) : State :=
  match o with
  | .good _ _ => afterExchange (clearExchange s d) d fun s => visitRows s d p (rowPutBack s d)
  | .bad =>
    if resend ∨ s.screen.controllers[d].mode = .stopping then
      afterExchange (returnRow (clearExchange s d) d p) d fun s =>
        visitRows s d p (some s.screen.controllers[d].rowNumber)
    else beginExchange s d p (.row true) (rowFrame s d p)
  | .noReply => endVisit (returnRow s d p) d

/-- The outcome of a POLL. The rows that show an alert of the RETURNED entry are recomposed before the next visit
(R127, R129, R130, R131, R136). -/
def pollOutcome (s : State) (d : Fin 2) (p : Fin 16) (wasAbsent : Bool) (o : DropOutcome) : State :=
  let q := s.screen.positions[p]
  match o with
  | .good kind payload =>
    let flipped := { q with pollBit := !q.pollBit }
    let keys := if kind = 0x12 then keyEntries payload else []
    if wasAbsent then
      let back := setPosition s p
        { flipped with state := .present, missed := 0, dirty := BitVec.allOnes 24, skip := 7 }
      endVisit (recomposeRows (eventEntry (keysTaken back p keys) (terminalEntry p q 2))) d
    else endVisit (keysTaken (setPosition s p flipped) p keys) d
  | .bad | .noReply =>
    endVisit (if wasAbsent then setPosition s p { q with skip := 7 } else s) d

/-- The outcome of an ECHO completes CHECK_LINE (R141). -/
def echoOutcome (s : State) (d : Fin 2) (p : Fin 16) (o : DropOutcome) : State :=
  let pattern := (s.control.lineCheck.map (·.2)).getD []
  match o with
  | .good _ payload =>
    let done := if payload = pattern then endLineCheck s .done 0 else endLineCheck s .failed 1
    afterExchange (clearExchange done d) d fun s => visitRows s d p none
  | .bad => afterExchange (clearExchange (endLineCheck s .failed 2) d) d fun s => visitRows s d p none
  | .noReply => endVisit (endLineCheck s .failed 2) d

/-- The outcome of a BELL (R127). -/
def bellOutcome (s : State) (d : Fin 2) (p : Fin 16) (o : DropOutcome) : State :=
  match o with
  | .good _ _ | .bad => afterExchange (clearExchange s d) d fun s => visitEcho s d p
  | .noReply => endVisit s d

/-- The outcome of an ASSIGN (R139). -/
def assignOutcome (s : State) (d : Fin 2) (p : Fin 16) (o : DropOutcome) : State :=
  let c := { s.screen.controllers[d] with exchange := none }
  match o with
  | .good _ _ => assignNext (setController s d { c with acknowledged := c.acknowledged ++ [p] }) d
  | .bad =>
    sendDrop (setController s d { c with repeatTimer := true }) d
      (dropFrame broadcast 0x06 [BitVec.ofNat 8 s.screen.positions[p].address])
  | .noReply => setController s d { c with repeatTimer := true }

/-- The outcome of the exchange in progress is taken (R126). -/
def takeOutcome (s : State) (d : Fin 2) (e : Exchange) (o : DropOutcome) : State :=
  let wasAbsent := s.screen.positions[e.position].state = .absent
  let t := countOutcome s e o
  match e.kind with
  | .bell => bellOutcome t d e.position o
  | .echo => echoOutcome t d e.position o
  | .row resend => rowOutcome t d e.position resend o
  | .poll => pollOutcome t d e.position wasAbsent o
  | .assign => assignOutcome t d e.position o

/-- The exchange of controller d whose reply is awaited (R126). -/
def awaitedExchange (s : State) (d : Fin 2) : Option Exchange :=
  s.screen.controllers[d].exchange.filter fun e => e.phase == .awaiting

/-! ### The rows' bodies -/

/-- A frame received on drop line d: judged, or discarded when no reply is awaited (R123, R126). -/
def receiveDrop (s : State) (d : Fin 2) (frame : List Byte) : State :=
  match awaitedExchange s d with
  | none => s
  | some e => takeOutcome s d e (judgeReply s.screen.positions[e.position].address e.kind frame)

/-- A reply wait runs out: NONE without a first byte, BAD for a frame not whole in time (R126). -/
def expireReply (s : State) (d : Fin 2) (late : ReplyTimeout) : State :=
  match awaitedExchange s d with
  | none => s
  | some e => takeOutcome s d e (match late with | .noFirstByte => .noReply | .notWhole => .bad)

/-- A frame has been sent: the reply wait begins when the exchange's own frame was the last (R126). -/
def dropSent (s : State) (d : Fin 2) : State :=
  match s.configuration.dropPort d with
  | none => s
  | some k =>
    let c := s.screen.controllers[d]
    if s.lines[k].isEmpty then s
    else
      let sent := frameSent s k
      if sent.lines[k].isEmpty then
        setController sent d { c with exchange := c.exchange.map fun e =>
          if e.phase = .sending then { e with phase := .awaiting } else e }
      else sent

/-- A full row buffer is sent (R128). -/
def sendRow (s : State) (d : Fin 2) : State :=
  match s.screen.controllers[d].exchange with
  | some ⟨p, .row resend, .filling⟩ =>
    if s.screen.controllers[d].row.length = 20 then
      beginExchange s d p (.row resend) (rowFrame s d p)
    else s
  | _ => s

/-- A CYCLING controller whose last visit has ended begins a new cycle (R127). -/
def startCycle (s : State) (d : Fin 2) : State :=
  let c := s.screen.controllers[d]
  if c.mode = .cycling ∧ c.exchange = none then beginCycle s d else s

/-- The repeat timer expires: the current ASSIGN is broadcast again (R139). -/
def repeatAssign (s : State) (d : Fin 2) : State :=
  let c := s.screen.controllers[d]
  match c.mode, c.repeatTimer, c.current with
  | .learning, true, some p => sendAssign s d p
  | _, _, _ => s

/-- START_LEARN: the cycle stops at the end of the exchange in progress, or at once. A row still being
fetched is no exchange yet: its fetch is withdrawn and it stays dirty (R123, R138; log 23, log 25). -/
def startLearning (s : State) (d : Fin 2) : State :=
  let c := s.screen.controllers[d]
  match c.exchange with
  | none => beginLearning s d
  | some e =>
    if e.phase = .filling then
      beginLearning (clearExchange (returnRow (withdrawFetch s (.drop d)) d e.position) d) d
    else setController s d { c with mode := .stopping }

end Sys2Proof.Machine
end

