-- ==== Sys2Proof/Machine/Setup.lean ====
section
/-! DEFINITION. The checks of a configuration image and the event at which it takes effect (R3, R4, R94,
R194 to R198). -/

namespace Sys2Proof.Machine

/-! ### The checks (R195) -/

/-- Check 1: the stored CRC-32 (R195). -/
def imageCrcFits (b : List Byte) : Bool :=
  field b 0x17F8 4 == (crc32 (b.take 0x17F8)).toNat

/-- The lengths of SLOTS, SCREENS, KEYS, MIRROR, JOURNAL and CARRY (1.2). -/
def windowLengths (size : Nat) : List Nat := [0x800, 0x10000, 0x400, 0x4000, size * 64, 0x2000]

/-- The six configured windows as base and length (R3). -/
def placedWindows (c : Configuration) : List (Nat × Nat) := c.bases.toList.zip (windowLengths c.size)

/-- Two windows do not overlap. -/
def apart (a b : Nat × Nat) : Bool := a.1 + a.2 ≤ b.1 || b.1 + b.2 ≤ a.1

/-- No two of the windows overlap. -/
def allApart : List (Nat × Nat) → Bool
  | [] => true
  | w :: rest => rest.all (apart w) && allApart rest

/-- E is a power of two in 1,024..65,536 (R195). -/
def sizeFits (size : Nat) : Bool := [1024, 2048, 4096, 8192, 16384, 32768, 65536].contains size

/-- Check 2 (R3, R195). -/
def windowsFit (controlBase : Nat) (c : Configuration) : Bool :=
  sizeFits c.size && c.bases.all (fun b => b % 0x1000 == 0) &&
    (placedWindows c).all (fun w => w.1 + w.2 ≤ 0x100000000) &&
    allApart ((controlBase, 0x2000) :: placedWindows c)

/-- A flag of the image is 0 or 1. -/
def flagCode (n : Nat) : Bool := n ≤ 1

/-- Check 3 (R195, R198). -/
def rolesFit (c : Configuration) : Bool :=
  let roles := c.ports.toList.map (·.role)
  c.ports.all (fun p => p.role ≤ 8 && p.rate ≤ 3) && roles.count 7 == 1 &&
    [1, 2, 3, 4, 5, 6, 8].all (fun r => roles.count r ≤ 1) &&
    c.positions.all (fun p => (p.role == 1 || p.role == 2) && flagCode p.enabled) &&
    c.monitors.all (fun m => flagCode m.enabled) && c.currencies.all (fun k => flagCode k.configured) &&
    c.active.all flagCode && flagCode c.autoCutoff

/-- The faces ascend strictly. -/
def ascending : List Nat → Bool
  | a :: b :: rest => a < b && ascending (b :: rest)
  | _ => true

/-- The decimal and the grouping separator are the same character (R74). -/
def separatorsClash (decimal grouping : Nat) : Bool :=
  (decimal == 0 && grouping == 2) || (decimal == 1 && grouping == 1)

/-- A configured currency passes check 4 (R195). -/
def currencyFits (k : Currency) : Bool :=
  let faces := k.faces.take k.denominations
  k.exponent ≤ 3 && 1 ≤ k.denominations && k.denominations ≤ 12 &&
    faces.all (fun f => 1 ≤ f && f ≤ 10000000) && ascending faces && 1 ≤ k.payable &&
    k.payable ≤ 10000000 && k.decimal ≤ 1 && k.grouping ≤ 3 &&
    !separatorsClash k.decimal k.grouping

/-- Check 4 (R195). -/
def currenciesFit (c : Configuration) : Bool :=
  c.currencies.any (fun k => k.configured == 1) &&
    c.currencies.all fun k => k.configured != 1 || currencyFits k

/-- The line and address bindings named by positions (R195). -/
def bindings (c : Configuration) : List (Nat × Nat) :=
  (c.positions.toList.filter fun p => p.line ≤ 1).map fun p => (p.line, p.address)

/-- Check 5 (R195). -/
def bindingsFit (c : Configuration) : Bool :=
  c.positions.all (fun p => (p.line ≤ 1 || p.line == 0xFF) &&
      (1 < p.line || (1 ≤ p.address && p.address ≤ 14)) && (p.printer ≤ 3 || p.printer == 0xFF)) &&
    (bindings c).all fun b => (bindings c).count b == 1

/-- An enabled monitor's fields pass R94. -/
def monitorFits (c : Configuration) (m : MonitorSetup) : Bool :=
  (m.holder == 0xFF || (indexOf 17 m.holder).any c.holderActive) &&
    (indexOf 4 m.currency).any c.hasCurrency && m.basis ≤ 1 && m.compare ≤ 1 && m.mode ≤ 1 &&
    1 ≤ m.action && m.action ≤ 3 && m.threshold ≤ 7864200000000 && !(m.basis == 0 && m.mode == 1)

/-- Check 6 (R94, R195). -/
def monitorsFit (c : Configuration) : Bool :=
  c.monitors.all fun m => m.enabled != 1 || monitorFits c m

/-- The checks in order; the detail of the first that fails (R195). Check 7 compares every field of the tables,
those of a currency that neither configures too (log 57). -/
def imageFault (s : State) (b : List Byte) : Option Nat :=
  let c := imageConfiguration b
  if !imageCrcFits b then some 1
  else if !windowsFit (windowBase s 0) c then some 2
  else if !rolesFit c then some 3
  else if !currenciesFit c then some 4
  else if !bindingsFit c then some 5
  else if !monitorsFit c then some 6
  else if s.day.state = .settled ∧ c.currencies ≠ s.configuration.currencies then some 7
  else none

/-! ### Taking effect (R4, R196) -/

/-- The Window Map of a configuration; CONTROL is never moved (R4). -/
def configuredWindows (control : Window) (c : Configuration) : Vector Window 7 :=
  let lengths := windowLengths c.size
  Vector.ofFn fun k =>
    match k with
    | ⟨0, _⟩ => control
    | ⟨n + 1, h⟩ => ⟨true, c.bases[n]'(by omega), lengths.getD n 0⟩

/-- The terminal-table entry of a position under a configuration (R124, R130, R134). An entry that becomes
NOT_CONFIGURED has BELL and echo cleared and keeps its other values (log 47). -/
def configuredPosition (c : Configuration) (screensMoved : Bool) (p : Fin 16) (q : Position) :
    Position :=
  let cleared := { q with
    message := ⟨[], false⟩, bell := false, echo := false,
    imageDirty := if screensMoved && c.positionEnabled p then BitVec.allOnes 20 else q.imageDirty }
  if c.onLine 0 p || c.onLine 1 p then
    { cleared with
      state := .absent, line := c.positions[p].line, address := c.positions[p].address, missed := 0,
      skip := 0, pollBit := false, dirty := BitVec.allOnes 24 }
  else { cleared with state := .notConfigured }

/-- A controller under a configuration: no exchange, no learn; CYCLING with a port (R123, R124). -/
def configuredController (c : Configuration) (d : Fin 2) : Controller :=
  { resetController with mode := if (c.dropPort d).isSome then .cycling else .idle }

/-- The journal is made ABSENT when E or its base changed; its free count of 0 raises no JOURNAL_LOW (R107,
R118; log 37). -/
def configuredJournal (old new : Configuration) (j : Journal) : Journal :=
  if old.size = new.size ∧ old.bases[4] = new.bases[4] then j else { j with present := false, free := 0 }

/-- A cycle begins on each controller with a port (R124). -/
def beginCycles (s : State) : State :=
  (List.finRange 2).foldl
    (fun s d => if (s.configuration.dropPort d).isSome then beginCycle s d else s) s

/-- The PRINTING lines interrupted and the jobs ended, under the configuration that goes (R150). -/
def endJobs (s : State) : State := (List.finRange 4).foldl (fun s k => interruptLine s k true) s

/-- Every block's part of a new configuration but the frames it sends (R85, R90, R95, R107, R124, R196,
R198). -/
def withConfiguration (s : State) (c : Configuration) : State :=
  let old := s.configuration
  let moved := !s.path.windows[2].known || old.bases[1] != c.bases[1]
  { s with
    path := { s.path with windows := configuredWindows s.path.windows[0] c, placement := none },
    control := { s.control with config := some c, image := none,
                                mirrorDirty := s.control.mirrorDirty ||| wholeMirror },
    drawers := configuredDrawers c s.drawers, monitors := loadedMonitors c,
    journal := configuredJournal old c s.journal,
    screen := { controllers := Vector.ofFn (configuredController c),
                positions := Vector.ofFn fun p =>
                               configuredPosition c moved p s.screen.positions[p] },
    lines := Vector.replicate 6 [] }

/-- A configuration takes effect: every block takes its part, the key rings are written where KEYS is
new or moved, and APPLY_CONFIG completes DONE (R132, R196; order log 27). A line it interrupts leaves its
terminal's message field blank (R134; log 38). -/
def takeEffect (s : State) (c : Configuration) : State :=
  let keysMoved := !s.path.windows[3].known || s.configuration.bases[2] != c.bases[2]
  let ended := endJobs (withdrawFetch (withdrawFetch s (.drop 0)) (.drop 1))
  let placed := withConfiguration ended c
  let reset := (List.finRange 4).foldl restartPrinter placed
  let cycling := beginCycles reset
  let rings := if keysMoved then handGroups cycling ((List.finRange 16).map (ringGroup cycling))
               else cycling
  complete rings .done 0

/-- A read is held (R17). -/
def readIsHeld (p : Path) : Bool :=
  match p.bus with
  | .readHeld _ _ => true
  | .idle | .readWaiting _ | .writeWaiting _ _ _ => false

/-- The fetched image is judged: FAILED with its detail, or handed over for installation, which takes
place at once unless a read is held (R4, R194). -/
def judgeImage (s : State) (words : List Dword) : State :=
  let b := bufferBytes words
  let stopped := { s with control := { s.control with image := none } }
  match imageFault s b with
  | some detail => complete stopped .failed detail
  | none =>
    if readIsHeld s.path then
      { stopped with path := { s.path with placement := some (imageConfiguration b) } }
    else takeEffect stopped (imageConfiguration b)

end Sys2Proof.Machine
end

