-- ==== Sys2Proof/Machine/Commands.lean ====
section
/-! DEFINITION. The commands of the host, once taken (12.1): what each does to the machine with its code,
tag and arguments captured (R192, R193). -/

namespace Sys2Proof.Machine

/-- Argument doubleword i, counted from 1 (13.4). -/
def argument (s : State) (i : Fin 6) : Dword := s.control.arguments[i]

/-- The low byte of the first argument doubleword. -/
def argumentByte (s : State) : Nat := laneField (argument s 0) 0 1

/-- No configuration has been applied, or the day is RECOVERING: what refuses the commands marked
"config" in every state but RECOVERING (12.1, R197). -/
def unconfigured (s : State) : Bool := s.control.config.isNone || s.day.state == .recovering

/-- The active holder the first argument names (R89, R103, R171). -/
def argumentHolder (s : State) : Option (Fin 17) :=
  (indexOf 17 (argumentByte s)).filter s.configuration.holderActive

/-- APPLY_CONFIG (R194). -/
def commandApplyConfig (s : State) : State :=
  if !(s.day.state == .setup || s.day.state == .settled) || s.day.settlement.isSome then
    complete s .refusedState 0
  else
    requestFetch
      (complete { s with control := { s.control with image := some [] } } .inProgress 0)
      .control (windowBase s 0) 32

/-- OPEN_DAY (R168, R169). -/
def commandOpenDay (s : State) : State :=
  let date := laneField (argument s 0) 0 4
  let time := laneField (argument s 1) 0 4
  let fresh := laneField (argument s 2) 0 1
  if !(s.day.state == .setup || s.day.state == .settled) || s.control.config.isNone ||
      s.day.settlement.isSome || (fresh == 1 && s.day.state == .settled) then
    complete s .refusedState 0
  else if !dateValid date || decide (172799 < time) || decide (1 < fresh) then
    complete s .badArgument 0
  else if fresh = 0 then fetchRecords (complete s .inProgress 0) (.openFetching date time)
  else
    let writing := { s with day := { s.day with work := some (.openWriting date time) } }
    handGroups (complete writing .inProgress 0) (freshGroups s)

/-- RESUME_DAY (R175). -/
def commandResumeDay (s : State) : State :=
  let time := laneField (argument s 0) 0 4
  if s.day.state != .setup || s.control.config.isNone then complete s .refusedState 0
  else if 172799 < time then complete s .badArgument 0
  else
    let recovering := { s with day := { s.day with state := .recovering, clock := time } }
    fetchRecords (complete recovering .inProgress 0) .resumeChoosing

/-- SET_TIME (R164). -/
def commandSetTime (s : State) : State :=
  let time := laneField (argument s 0) 0 4
  if s.day.state = .recovering then complete s .refusedState 0
  else if 172799 < time then complete s .badArgument 0
  else complete { s with day := { s.day with clock := time } } .done 0

/-- CLOSE_DAY (R165). -/
def commandCloseDay (s : State) : State :=
  if s.day.state = .opened then complete (cutOff s 1 (takenTag s)) .done 0
  else complete s .refusedState 0

/-- FORCE_BALANCE (R171). -/
def commandForceBalance (s : State) : State :=
  if !(s.day.state == .opened || s.day.state == .closing) then complete s .refusedState 0
  else
    match argumentHolder s with
    | none => complete s .badArgument 0
    | some h =>
      let f := s.totals.flags[h]
      if f.balanced then complete s .done 0
      else
        let forced := { s with totals := setFlags s.totals h { f with balanced := true, forced := true } }
        let entered := eventEntry forced
          { kind := 12, holderA := h.val, tag := takenTag s, ref := h.val }
        complete (testSending entered) .done 1

/-- RELEASE_DRAWER (R89). -/
def commandReleaseDrawer (s : State) : State :=
  if unconfigured s then complete s .refusedState 0
  else
    match argumentHolder s with
    | none => complete s .badArgument 0
    | some h =>
      let d := { releasedDrawer s.configuration s.drawers[h] with forced := false }
      complete (drawerEvent (setDrawer s h d) h 5 (takenTag s)) .done d.state.code

/-- RELEASE_HOLD (R103). -/
def commandReleaseHold (s : State) : State :=
  if unconfigured s then complete s .refusedState 0
  else
    match argumentHolder s with
    | none => complete s .badArgument 0
    | some h =>
      let f := s.totals.flags[h]
      let lifted := { s with totals := setFlags s.totals h { f with held := false } }
      complete (eventEntry lifted
        { kind := 11, code := bit f.held, holderA := h.val, tag := takenTag s, ref := h.val })
        .done (bit f.held)

/-- CLEAR_MONITOR (R102). -/
def commandClearMonitor (s : State) : State :=
  if unconfigured s then complete s .refusedState 0
  else
    match indexOf 8 (argumentByte s) with
    | none => complete s .badArgument 0
    | some m =>
      if s.monitors.freeze.isSome && s.monitors.freeze != some m then complete s .refusedState 0
      else
        let fired := bit s.monitors.fired[m]
        let cleared := { s with monitors := clearedMonitor s.configuration s.monitors m }
        complete (eventEntry cleared
          { kind := 10, code := fired, tag := takenTag s, amountA := s.monitors.counts[m].toNat,
            ref := m.val })
          .done fired

/-- RESUME_BATCH (R189). -/
def commandResumeBatch (s : State) : State :=
  if s.day.state = .suspended then
    complete (restartBatch s s.batch.current) .done s.batch.current
  else complete s .refusedState 0

/-- RESEND_BATCH (R189). -/
def commandResendBatch (s : State) : State :=
  if s.day.state = .suspended ∨ s.day.state = .rejected then complete (restartBatch s 0) .done 0
  else complete s .refusedState 0

/-- Drop line d is LEARNING. -/
def learning (s : State) (d : Fin 2) : Bool := s.screen.controllers[d].mode == .learning

/-- START_LEARN (R138). -/
def commandStartLearn (s : State) : State :=
  let line := indexOf 2 (argumentByte s)
  if unconfigured s || line.any (learning s) then complete s .refusedState 0
  else
    match line with
    | none => complete s .badArgument 0
    | some d =>
      if (s.configuration.dropPort d).isNone then complete s .badArgument 0
      else complete (startLearning s d) .done (s.configuration.linePositions d).length

/-- END_LEARN (R140). -/
def commandEndLearn (s : State) : State :=
  match indexOf 2 (argumentByte s) with
  | none => complete s .badArgument 0
  | some d =>
    if learning s d then
      complete (finishLearn (clearLine s (s.configuration.dropPort d)) d) .done
        s.screen.controllers[d].acknowledged.length
    else complete s .refusedState 0

/-- CHECK_JOURNAL (R121). -/
def commandCheckJournal (s : State) : State :=
  if s.day.state = .recovering ∨ s.journal.present = false then complete s .refusedState 0
  else
    let last := s.journal.next - 1
    askRun
      (complete { s with control := { s.control with
        journalCheck := some (last, s.journal.chain) } } .inProgress 0) .check 1 (some last)

/-- CHECK_TOTALS (R73). -/
def commandCheckTotals (s : State) : State :=
  let c := s.configuration
  let failing := (examinedRecords c).filter (failsExamination c s.totals)
  let marked := { s with totals := markFaulty s.totals failing }
  complete (raiseAlertIf marked (!failing.isEmpty) .totalsFault) .done failing.length

/-- The 16-byte pattern of CHECK_LINE (R141). -/
def linePattern (s : State) : List Byte :=
  bytesOfDword (argument s 1) ++ bytesOfDword (argument s 2)

/-- CHECK_LINE (R141). -/
def commandCheckLine (s : State) : State :=
  let n := argumentByte s
  match if n = 0 then none else indexOf 16 (n - 1) with
  | none => complete s .badArgument 0
  | some p =>
    let q := s.screen.positions[p]
    match q.state with
    | .notConfigured => complete s .badArgument 0
    | .absent => complete s .refusedState 0
    | .present =>
      if (indexOf 2 q.line).any (learning s) then complete s .refusedState 0
      else
        complete
          { setPosition s p { q with echo := true } with
            control := { s.control with lineCheck := some (p, linePattern s) } }
          .inProgress 0

/-- CLEAR_ALERTS (R202). -/
def commandClearAlerts (s : State) : State :=
  let mask : BitVec 16 := BitVec.ofNat 16 (laneField (argument s 0) 0 2)
  if 0x800 ≤ mask.toNat then complete s .badArgument 0
  else
    complete { s with control := { s.control with alerts := s.control.alerts &&& ~~~ mask } } .done
      (s.control.alerts &&& mask).toNat

/-- A taken command, by its code; a code that names none is answered BAD_ARGUMENT (R192, 12.1). A command that
is refused, REFUSED_STATE or BAD_ARGUMENT, completes with detail 0 (log 56). -/
def runCommand (s : State) (code : Nat) : State :=
  match code with
  | 1 => commandApplyConfig s
  | 2 => commandOpenDay s
  | 3 => commandResumeDay s
  | 4 => commandSetTime s
  | 5 => commandCloseDay s
  | 6 => commandForceBalance s
  | 7 => commandReleaseDrawer s
  | 8 => commandReleaseHold s
  | 9 => commandClearMonitor s
  | 10 => commandResumeBatch s
  | 11 => commandResendBatch s
  | 12 => commandStartLearn s
  | 13 => commandEndLearn s
  | 14 => commandCheckJournal s
  | 15 => commandCheckTotals s
  | 16 => commandCheckLine s
  | 17 => commandClearAlerts s
  | _ => complete s .badArgument 0

end Sys2Proof.Machine
end

