-- ==== Sys2Proof/Machine/Posting.lean ====
section
/-! DEFINITION. The Posting Unit: becoming head, the fourteen checks, acceptance and refusal
(spec/02_posting_slots_and_verdicts.md, spec/03_posting_kinds.md). -/

namespace Sys2Proof.Machine

/-! ### Becoming head (R26, R27, R106) -/

/-- The fields of a slot's buffer. -/
def slotFieldsOf (s : State) (n : Fin 16) : SlotFields := slotFields s.posting.slots[n].buffer

/-- The head's need, from its kind field (R26). -/
def headNeed (kind : Nat) : Nat :=
  if (1 ≤ kind && kind ≤ 4) || kind == 6 || kind == 7 then 17 else 9

/-- The day state a queue entry is judged under: OPEN with the pre-cut-off mark (R30). -/
def judgedState (s : State) (e : SubmitEntry) : DayState := if e.marked then .opened else s.day.state

/-- The Journal Unit answers the ring positions and the reversal fetch is requested: nine adjacent
doublewords, or eight at ring position 0 with the predecessor's to follow (R27, R106). -/
def askReversal (s : State) (r : ReversalFetch) : State :=
  let position := ringPosition s r.number
  let wrapped := position == 0
  let asked := { s with posting := { s.posting with
    reversal := some { r with asked := true, wrapped := wrapped } } }
  if wrapped then requestFetch asked .posting (ringAddress s 0) 8
  else requestFetch asked .posting (ringAddress s position - 8) 9

/-- The queue's head is new: its need is taken, and a REVERSAL's fetch begins, in CLOSING also for an unmarked
one (R26, R27; log 36). -/
def newHead (s : State) : State :=
  match s.posting.queue with
  | [] => { s with posting := { s.posting with need := none, reversal := none } }
  | e :: _ =>
    let f := slotFieldsOf s e.slot
    let state := judgedState s e
    let needed := { s with posting := { s.posting with need := some (headNeed f.kind), reversal := none } }
    if f.kind = 7 ∧ (state = .opened ∨ state = .closing) ∧ 2 ≤ f.reverseRef ∧
        f.reverseRef + 1 ≤ s.journal.next then
      let r : ReversalFetch := ⟨f.reverseRef, false, false, []⟩
      if journalUnitFree s then askReversal needed r
      else { needed with posting := { needed.posting with reversal := some r } }
    else needed

/-- The Journal Unit's deferred answers: the read-back runs, then the reversal's ring positions (R106; order
log 16). -/
def answerPositions (s : State) : State :=
  if !journalUnitFree s then s
  else
    let started := { s with journal := { s.journal with
      runs := s.journal.runs.map fun r => { r with started := true } } }
    let served := serveRuns started
    match s.posting.reversal with
    | none => served
    | some r => if r.asked then served else askReversal served r

/-- The judging event can be made: the reversal fetch is answered, the room meets the need, and no group
waits (R26). -/
def canJudge (s : State) : Bool :=
  !s.posting.queue.isEmpty && s.path.waiting.isEmpty &&
    decide (s.posting.need.getD 0 ≤ freeRoom s.path) &&
    (match s.posting.reversal with
     | none => true
     | some r => r.words.length == 9)

/-! ### The reversal buffer (R27, R55, R57) -/

/-- The fetched entry of the reversal buffer. -/
def reversalEntry (r : ReversalFetch) : List Byte :=
  bytesOfDwords (if r.wrapped then r.words.take 8 else r.words.drop 1)

/-- The predecessor's chain in the reversal buffer. -/
def reversalChain (r : ReversalFetch) : BitVec 32 :=
  BitVec.ofNat 32 (laneField (if r.wrapped then r.words.getD 8 0 else r.words.getD 0 0) 4 4)

/-- The original's kind when the buffer gives a usable form, 0 otherwise (R55). -/
def usableForm (reversal : Option ReversalFetch) : Nat :=
  match reversal with
  | none => 0
  | some r =>
    let f := entryFields (reversalEntry r)
    if f.kind = 2 ∧ 1 ≤ f.code ∧ f.code ≤ 5 then f.code else 0

/-- The form a posting is judged by: its kind, or its original's (R55). -/
def judgedForm (s : State) (f : SlotFields) : Nat :=
  if f.kind = 7 then usableForm s.posting.reversal else f.kind

/-! ### Check 3 (R31, R41, R42, R55) -/

/-- Account range of CASH_IN and CASH_OUT, and of a REVERSAL (R42, R55). -/
def maxAccount : Nat := 999999999999

/-- The breakdown's counts beyond the configured denominations are 0 (R31, R41). -/
def beyondZero (c : Configuration) (k : Fin 4) (counts : List Nat) : Bool :=
  (counts.drop (c.denominations k)).all (· == 0)

/-- Every count is 0. -/
def allZero (counts : List Nat) : Bool := counts.all (· == 0)

/-- A used currency field with its breakdown: configured, and zero beyond its denominations (R41). -/
def currencyUsed (c : Configuration) (k : Nat) (counts : List Nat) : Bool :=
  match indexOf 4 k with
  | none => false
  | some k => c.hasCurrency k && beyondZero c k counts

/-- A used holder field names an active holder (R41). -/
def holderUsed (c : Configuration) (h : Nat) : Bool := (indexOf 17 h).any c.holderActive

/-- Account and account balance of kinds 1, 2 and 5 (R42). -/
def accountFits (f : SlotFields) : Bool :=
  let lowest := if f.kind = 5 ∨ f.passbook = 1 then 1 else 0
  decide (lowest ≤ f.account ∧ f.account ≤ maxAccount ∧ -maxAmount ≤ f.balance ∧ f.balance ≤ maxAmount)

/-- The kind carries an account and may carry the passbook flag (R41). -/
def accountKind (kind : Nat) : Bool := kind == 1 || kind == 2 || kind == 5

/-- The form of kinds 1 to 6 (R41). -/
def formFits (c : Configuration) (f : SlotFields) : Bool :=
  let exchange := f.kind == 4
  (if f.kind = 5 then f.holderA == 0 && allZero f.breakdownA else holderUsed c f.holderA) &&
    (if f.kind = 3 then holderUsed c f.holderB && f.holderB != f.holderA
     else if exchange then f.holderB == f.holderA else f.holderB == 0) &&
    currencyUsed c f.currencyA f.breakdownA &&
    (if exchange then currencyUsed c f.currencyB f.breakdownB && f.currencyB != f.currencyA
     else f.currencyB == 0 && allZero f.breakdownB) &&
    (f.passbook == 0 || (f.passbook == 1 && accountKind f.kind)) &&
    (if f.kind = 5 then f.direction == 1 || f.direction == 2 else f.direction == 0) &&
    (exchange || f.amountB == 0) &&
    (if exchange then decide (1 ≤ f.rate ∧ f.rate ≤ 999999999999) else f.rate == 0) &&
    (if accountKind f.kind then accountFits f else f.account == 0 && f.balance == 0) &&
    f.reverseRef == 0

/-- A REVERSAL's breakdown: zero beyond its currency's denominations, and a nonzero count belongs to a
configured currency (R55). -/
def reversalBreakdown (c : Configuration) (k : Nat) (counts : List Nat) : Bool :=
  allZero counts || currencyUsed c k counts

/-- The holders a form names (R32). -/
def namedHolders (form : Nat) (f : SlotFields) : List (Fin 17) :=
  if form = 3 then (indexOf 17 f.holderA).toList ++ (indexOf 17 f.holderB).toList
  else if form = 1 ∨ form = 2 ∨ form = 4 ∨ form = 6 then (indexOf 17 f.holderA).toList
  else []

/-- The fields of a REVERSAL: those whose form does not depend on the original, and the holders that its
original's form names, which are active (R31, R55, R76; log 20). -/
def reversalFits (c : Configuration) (form : Nat) (f : SlotFields) : Bool :=
  decide (f.passbook ≤ 1 ∧ f.direction ≤ 2 ∧ f.holderA ≤ 16 ∧ f.holderB ≤ 16 ∧ f.currencyA ≤ 3 ∧
      f.currencyB ≤ 3 ∧ f.rate ≤ 999999999999 ∧ f.account ≤ maxAccount ∧ -maxAmount ≤ f.balance ∧
      f.balance ≤ maxAmount) &&
    reversalBreakdown c f.currencyA f.breakdownA && reversalBreakdown c f.currencyB f.breakdownB &&
    (namedHolders form f).all c.holderActive

/-- Check 3 passes for a slot judged by a form (R31). -/
def fieldsFit (c : Configuration) (n : Fin 16) (form : Nat) (f : SlotFields) : Bool :=
  decide (1 ≤ f.kind ∧ f.kind ≤ 7) && f.position == positionNumber n && c.positionEnabled n &&
    (if f.kind = 7 then reversalFits c form f else formFits c f)

/-! ### Checks 2 and 5 to 9 -/

/-- The day state permits the kind (R30). -/
def kindPermitted (state : DayState) (kind : Nat) : Bool :=
  match state with
  | .opened => true
  | .closing => kind == 3 || kind == 6
  | .setup | .recovering | .sending | .suspended | .rejected | .settled => false

/-- The role permits the named holders (R32). -/
def roleFits (c : Configuration) (n : Fin 16) (form : Nat) (f : SlotFields) : Bool :=
  let named := namedHolders form f
  if c.positions[n].role = 2 then named.all c.holderActive
  else if form = 3 then
    named == [holderOfPosition n, 0] || named == [0, holderOfPosition n]
  else named.all fun h => h == holderOfPosition n

/-- A hold of a named holder blocks the posting (R32). -/
def holdBlocks (kind form : Nat) (f : SlotFields) (h : Fin 17) : Bool :=
  if kind = 6 then false
  else if kind = 3 then (namedHolders form f).any fun o => o != h && o != 0
  else true

/-- The records a posting reads: one per holder and currency of each leg (R33). -/
def readRecords (m : Movement) : List (Fin 17 × Fin 4) :=
  m.legs.filterMap fun l => l.holder.map fun h => (h, l.currency)

/-- The first of two tests that fails. -/
def orElse (a b : Option Reason) : Option Reason := a.orElse fun _ => b

/-- A range test of check 9. -/
def rangeTest (inRange : Bool) : Option Reason := if inRange then none else some .amountRange

/-- The sum test of a breakdown under the faces of the currency field (R62, R63). -/
def fieldSumTest (c : Configuration) (k : Nat) (counts : List Nat) (amount : Int) : Option Reason :=
  match indexOf 4 k with
  | none => none
  | some k => sumTest (c.faces k) counts amount

/-- The payable of an EXCHANGE slot (R65, R66). -/
def slotPayable (c : Configuration) (f : SlotFields) : Nat :=
  match indexOf 4 f.currencyA, indexOf 4 f.currencyB with
  | some a, some b => exchangePayable c a b f.amountA.toNat f.rate
  | _, _ => 0

/-- Check 9, in the order of R63. -/
def amountTests (c : Configuration) (form : Nat) (f : SlotFields) : Option Reason :=
  let sumA := fieldSumTest c f.currencyA f.breakdownA f.amountA
  let sumB := fieldSumTest c f.currencyB f.breakdownB f.amountB
  let rangeA := rangeTest (postingAmount f.amountA)
  let rangeB := rangeTest (postingAmount f.amountB)
  match form with
  | 1 | 2 | 3 => orElse rangeA sumA
  | 4 =>
    let payableTest := if f.kind = 7 then none else rangeTest (postingAmount (slotPayable c f))
    orElse rangeA (orElse sumA (orElse payableTest (orElse rangeB sumB)))
  | 5 => rangeA
  | 6 => orElse (rangeTest (countAmount f.amountA)) sumA
  | _ => none

/-! ### Check 11 (R57, R58) -/

/-- The fields of a REVERSAL repeat the original's under its kind; the account balance is tested under none
(R58; log 42). -/
def repeatsOriginal (form : Nat) (f : SlotFields) (o : EntryFields) : Bool :=
  let sameA := f.holderA == o.holderA && f.currencyA == o.currencyA && f.amountA == o.amountA
  let direction := if flagSet o.flags 3 then 2 else 1
  match form with
  | 1 | 2 =>
    sameA && f.account == o.account && f.holderB == 0 && f.currencyB == 0 && f.amountB == 0 &&
      f.rate == 0 && f.direction == 0 && allZero f.breakdownB
  | 3 =>
    sameA && f.holderB == o.holderB && f.currencyB == 0 && f.amountB == 0 && f.rate == 0 &&
      f.account == 0 && f.direction == 0 && allZero f.breakdownB && f.passbook == 0
  | 4 =>
    sameA && f.holderB == f.holderA && f.currencyB == o.currencyB && f.amountB == o.amountB &&
      f.rate == o.account && f.account == 0 && f.direction == 0 && f.passbook == 0
  | _ =>
    f.currencyA == o.currencyA && f.amountA == o.amountA && f.account == o.account &&
      f.direction == direction && f.holderA == 0 && f.holderB == 0 && f.currencyB == 0 &&
      f.amountB == 0 && f.rate == 0 && allZero f.breakdownA && allZero f.breakdownB

/-- Check 11, in the order of R57. -/
def reversalTests (s : State) (f : SlotFields) : Option Reason :=
  match s.posting.reversal with
  | none => some .reversalTarget
  | some r =>
    let e := reversalEntry r
    let o := entryFields e
    if entryNumber e ≠ f.reverseRef ∨ entryChain e ≠ chainOf (reversalChain r) e then
      some .journalDamaged
    else if usableForm s.posting.reversal = 0 then some .reversalTarget
    else if s.totals.reversed.contains f.reverseRef then some .reversalTarget
    else if !repeatsOriginal o.code f o then some .reversalMismatch
    else if 64 ≤ s.totals.reversed.length then some .reversalLimit
    else none

/-! ### The movement of a slot, checks 12 and 13 -/

/-- What a slot's posting moves. -/
def slotMovement (s : State) (e : SubmitEntry) (f : SlotFields) : Movement :=
  { kind := f.kind, form := judgedForm s f, holderA := f.holderA, holderB := f.holderB,
    currencyA := f.currencyA, currencyB := f.currencyB, amountA := f.amountA, amountB := f.amountB,
    rate := f.rate, debit := f.direction == 2, breakdownA := f.breakdownA,
    breakdownB := f.breakdownB, ref := f.reverseRef, closing := judgedState s e == .closing }

/-- The counts every leg would leave, exactly (R33). -/
def resultingCounts (t : Totals) (m : Movement) : List Int :=
  m.legs.flatMap fun l =>
    match l.holder, l.change with
    | some h, some change => countsAfter (recordOf t h l.currency).counts change
    | _, _ => []

/-! ### The fourteen checks (R29) -/

/-- A check of the table: its reason when its condition fails. -/
def failsWith (fails : Bool) (r : Reason) : Option Reason := if fails then some r else none

/-- The reason of the first check that fails, or none (R29 to R34). -/
def verdict (s : State) (e : SubmitEntry) : Option Reason :=
  let c := s.configuration
  let f := slotFieldsOf s e.slot
  let form := judgedForm s f
  let m := slotMovement s e f
  let named := namedHolders form f
  let counts := resultingCounts s.totals m
  orElse (failsWith (f.tagCopy != f.tag) .tagMismatch) <|
  orElse (failsWith (!kindPermitted (judgedState s e) f.kind) .dayState) <|
  orElse (failsWith (!fieldsFit c e.slot form f) .badField) <|
  orElse (failsWith (f.date != s.day.date) .wrongDate) <|
  orElse (failsWith (!roleFits c e.slot form f) .notPermitted) <|
  orElse (failsWith (named.any fun h => s.totals.flags[h].balanced) .holderClosed) <|
  orElse (failsWith (named.any fun h => s.totals.flags[h].held && holdBlocks f.kind form f h)
    .holderHeld) <|
  orElse (failsWith ((readRecords m).any fun n => !recordVerifies (recordOf s.totals n.1 n.2))
    .totalsFault) <|
  orElse (amountTests c form f) <|
  orElse (failsWith (f.kind == 4 && f.amountB != (slotPayable c f : Int)) .exchangeMismatch) <|
  orElse (if f.kind = 7 then reversalTests s f else none) <|
  orElse (failsWith (counts.any (· < 0)) .shortNotes) <|
  orElse (failsWith (counts.any (65535 < ·)) .countRange) <|
  failsWith (decide (s.journal.free ≤ 64)) .journalFull

/-! ### The verdict group and its placing (R36 to R38) -/

/-- The result doubleword (13.1). -/
def resultDword (verdictCode reason flags number : Nat) : Dword :=
  dwordOfFields [(1, verdictCode), (1, reason), (1, flags), (1, 0), (4, number)]

/-- The address of slot n's result doubleword (1.2). -/
def resultAddress (s : State) (n : Fin 16) : Nat := windowBase s 1 + n.val * 0x80 + 0x78

/-- The held read of a slot's result doubleword is answered (R17). -/
def answerHeld (p : Path) (n : Fin 16) (data : Dword) : Path :=
  match p.bus with
  | .readHeld _ slot => if slot = n then { p with bus := .idle, answer := some data } else p
  | .idle | .readWaiting _ | .writeWaiting _ _ _ => p

/-- The verdict group is placed; the held read is answered (R13, R17, R36). -/
def placeVerdict (s : State) (n : Fin 16) (writes : List (Nat × Dword)) (result : Dword) : State :=
  let placed := handGroup s ⟨.posting, writes ++ [(resultAddress s n, result)]⟩
  { placed with path := answerHeld placed.path n result }

/-- The slot is DONE, its entry leaves the queue, and its position's message shows the verdict (R23,
R25, R134). -/
def leaveQueue (s : State) (n : Fin 16) (text : List Char) (refused : Bool) : State :=
  let slot := { s.posting.slots[n] with state := .done }
  let q := { s.screen.positions[n] with message := ⟨text, refused⟩ }
  { s with
    posting := { s.posting with slots := s.posting.slots.set n slot, queue := s.posting.queue.tail },
    screen := { s.screen with positions := s.screen.positions.set n q } }

/-- After a verdict: the test of R172, and the entry behind becomes head (R25, R172). When the test moves the
day to SENDING the entry becomes head in SENDING, in which R27 makes no fetch for it (log 49). -/
def afterVerdict (s : State) : State := newHead (testSending s)

/-! ### Refusal (R38) -/

/-- The POSTING_REFUSED entry (R111). -/
def refusedEntry (f : SlotFields) (marked : Bool) (reason : Reason) : EntryFields :=
  { kind := 4, code := reason.code, position := f.position, holderA := f.holderA,
    holderB := f.holderB, currencyA := f.currencyA, currencyB := f.currencyB,
    flags := flagSum [(marked, 2)], tag := f.tag, amountA := f.amountA, amountB := f.amountB,
    ref := f.kind, teller := f.teller }

/-- What a failing check changes: the records that fail check 8 are marked, and the alerts of checks 8
and 11 are raised (R29, R33). -/
def refusalMarks (s : State) (m : Movement) (reason : Reason) : State :=
  if reason = .totalsFault then
    let failing := (readRecords m).filter fun n => !recordVerifies (recordOf s.totals n.1 n.2)
    raiseAlert { s with totals := markFaulty s.totals failing } .totalsFault
  else raiseAlertIf s (reason == .journalDamaged) .journalDamaged

/-- The entry of a refusal is made (R38). -/
def refusalJournaled (s : State) : Bool := s.day.state.journals && decide (8 < s.journal.free)

/-- A refusal: its group, the refused count, and the slot's leaving (R38). -/
def refusePosting (s : State) (e : SubmitEntry) (reason : Reason) : State :=
  let f := slotFieldsOf s e.slot
  let marked := refusalMarks s (slotMovement s e f) reason
  let counted := { marked with totals := { marked.totals with
    refused := if s.day.state.journals then marked.totals.refused + 1 else marked.totals.refused } }
  let content := entryContent s.journal.next s.day.clock (refusedEntry f e.marked reason)
  let placed :=
    if refusalJournaled s then
      placeVerdict (numberEntry counted content true) e.slot (entryWrites s content)
        (resultDword 3 reason.code 0 s.journal.next)
    else placeVerdict counted e.slot [] (resultDword 3 reason.code 0 0)
  afterVerdict (leaveQueue placed e.slot ("REFUSED ".toList ++ reason.name) true)

/-! ### Acceptance (R35 to R37) -/

/-- The POSTING entry (R111). -/
def postingEntry (m : Movement) (f : SlotFields) (marked mix : Bool) : EntryFields :=
  { kind := 2, code := f.kind, position := f.position, holderA := f.holderA, holderB := f.holderB,
    currencyA := f.currencyA, currencyB := f.currencyB,
    flags := postingFlags (f.passbook == 1) marked mix (f.direction == 2), tag := f.tag,
    amountA := f.amountA, amountB := f.amountB,
    account := if m.form = 4 then f.rate else f.account, balance := f.balance,
    ref := if f.kind = 7 then f.reverseRef else 0, teller := f.teller }

/-- The holders a posting releases (R37). -/
def releasedHolders (m : Movement) : List (Fin 17) :=
  if m.form = 3 then (indexOf 17 m.holderA).toList ++ (indexOf 17 m.holderB).toList
  else if m.form = 1 ∨ m.form = 2 ∨ m.form = 4 then (indexOf 17 m.holderA).toList
  else []

/-- What the Passbook Unit does with an accepted posting: the table, the admission of its item if it has
one, and the item (R144, R147). -/
structure PassbookOutcome where
  items : List Item
  admission : Option Admission
  item : Option Item
  deriving DecidableEq, Repr

/-- An item admitted, as an outcome. -/
def admitted (items : List Item) (i : Item) : PassbookOutcome :=
  let r := admitItem items i
  ⟨r.1, some r.2, some i⟩

/-- The item of an accepted posting other than a REVERSAL (R42, R144). -/
def postingItem (f : SlotFields) (number : Nat) (c : Fin 4) : Item :=
  let side := itemSide f.kind (f.direction == 2) f.amountA
  ordinaryItem f.account c number side.1 side.2 f.balance

/-- A REVERSAL against the table: the original's item is settled, else its own is admitted (R147), of account 0
too where the original has that account (R55, R58; log 53). -/
def passbookReversal (s : State) (m : Movement) (f : SlotFields) (number : Nat) (c : Fin 4) :
    PassbookOutcome :=
  let items := s.passbook.items
  let original := (s.posting.reversal.map fun r => entryFields (reversalEntry r)).getD ⟨0, 0, 0, 0, 0,
    0, 0, 0, 0, 0, 0, 0, 0, 0, 0⟩
  let signed := (itemSide m.form (f.direction == 2) f.amountA).2
  let pending : PendingReversal := ⟨number, f.reverseRef, signed, f.balance, f.passbook == 1⟩
  let settled := if flagSet original.flags 0 then settleOriginal items f.account pending else none
  match settled with
  | some left => ⟨left, none, none⟩
  | none =>
    if f.passbook = 1 then
      admitted items (ordinaryItem f.account c number .rev (-signed) f.balance)
    else ⟨items, none, none⟩

/-- The Passbook Unit's part of an acceptance (R37, R144, R147). -/
def passbookOutcome (s : State) (m : Movement) (f : SlotFields) (number : Nat) : PassbookOutcome :=
  match indexOf 4 f.currencyA with
  | none => ⟨s.passbook.items, none, none⟩
  | some c =>
    if f.kind = 7 then passbookReversal s m f number c
    else if f.passbook = 1 then admitted s.passbook.items (postingItem f number c)
    else ⟨s.passbook.items, none, none⟩

/-- The item stands in the table as an entry or within one (R37, R144). -/
def itemTracked (o : PassbookOutcome) : Bool :=
  o.admission == some .entered || o.admission == some .folded

/-- The MONITOR_FIRED entries, in the order of the firings (R101, R110). -/
def enterFirings (s : State) (f : SlotFields) (number : Nat) (firings : List Firing) : State :=
  firings.foldl (fun s x => eventEntry s (firedEntry f.position f.tag number x)) s

/-- The ITEM_UNTRACKED entry of an item the table cannot hold (R110, R146). -/
def enterUntracked (s : State) (f : SlotFields) (o : PassbookOutcome) : State :=
  match o.admission, o.item with
  | some .untracked, some i => eventEntry s (untrackedEntry f.position f.tag i)
  | _, _ => s

/-- The posting's own entries numbered: POSTING, and BREAKDOWN for a cash form; and their doublewords
(R36, R110, R111). -/
def numberPosting (s : State) (m : Movement) (f : SlotFields) (marked mix : Bool) :
    State × List (Nat × Dword) :=
  let posting := entryContent s.journal.next s.day.clock (postingEntry m f marked mix)
  let first := numberEntry s posting true
  if cashForm m.form then
    let breakdown := breakdownContent first.journal.next s.day.clock f.kind f.breakdownA f.breakdownB
    (numberEntry first breakdown true, entryWrites s posting ++ entryWrites first breakdown)
  else (first, entryWrites s posting)

/-- An acceptance: the Totals Store, the monitors, the drawers and the table, then the group, then the
entries of firings and of an untracked item (R35 to R37, R110). -/
def acceptPosting (s : State) (e : SubmitEntry) : State :=
  let c := s.configuration
  let f := slotFieldsOf s e.slot
  let m := slotMovement s e f
  let number := s.journal.next
  let booked := applyMovement c s.totals m
  let judged := evaluate c s.monitors (watchedLegs s.totals booked m)
  let passbook := passbookOutcome s m f number
  let released := releasedHolders m
  let changed :=
    { s with totals := holdsAfter booked judged.2, monitors := judged.1,
             passbook := { s.passbook with items := passbook.items } }
  let unlocked := released.foldl releaseDrawer changed
  let numbered := numberPosting unlocked m f e.marked (mixFlag c s.totals m)
  let flags := resultFlags (itemTracked passbook) (passbook.admission == some .folded)
    (!released.isEmpty)
  let placed := placeVerdict numbered.1 e.slot numbered.2 (resultDword 2 0 flags number)
  let noted := raiseAlertIf placed (noteFired judged.2) .monitorFired
  let entered := enterUntracked (enterFirings noted f number judged.2) f passbook
  afterVerdict (leaveQueue entered e.slot ("ACCEPTED ".toList ++ decimal number) false)

/-- The judging event of the head (R26, R29). -/
def judgeHead (s : State) : State :=
  match s.posting.queue with
  | [] => s
  | e :: _ =>
    if !canJudge s then s
    else
      match verdict s e with
      | some reason => refusePosting s e reason
      | none => acceptPosting s e

end Sys2Proof.Machine
end

