-- ==== Sys2Proof/Machine/HostBus.lean ====
section
/-! DEFINITION. The host's transactions: a write judged by its region and captured by its owner (R5 to
R11, R22 to R25, R132, R192), and reads (R16, R17). -/

namespace Sys2Proof.Machine

/-! ### Regions (1.2) -/

/-- The regions of the windows that a rule tells apart (1.2). -/
inductive Region where
  | image
  | command
  | argument (i : Fin 6)
  | completion
  | hostArea
  | slotFields (n : Fin 16) (offset : Nat)
  | slotResult (n : Fin 16)
  | screenRow (p : Fin 16) (r : Nat)
  | statusRow
  | screenTail
  | consumer (p : Fin 16)
  | keysOther
  /-- MIRROR, JOURNAL and CARRY -/
  | partOwned
  deriving DecidableEq, Repr

/-- An offset of CONTROL (1.2). -/
def controlRegion (o : Nat) : Region :=
  if o < 0x1800 then .image
  else if o < 0x1808 then .command
  else if o < 0x1838 then .argument (Fin.ofNat 6 ((o - 0x1808) / 8))
  else if o < 0x1840 then .completion
  else .hostArea

/-- An offset of SLOTS (1.2). -/
def slotRegion (o : Nat) : Region :=
  if o % 0x80 < 0x78 then .slotFields (Fin.ofNat 16 (o / 0x80)) (o % 0x80)
  else .slotResult (Fin.ofNat 16 (o / 0x80))

/-- An offset of SCREENS (1.2). -/
def screenRegion (o : Nat) : Region :=
  let within := o % 0x1000
  if within < 0xE60 then .screenRow (Fin.ofNat 16 (o / 0x1000)) (within / 0xA0)
  else if within < 0xF00 then .statusRow else .screenTail

/-- An offset of KEYS (1.2). -/
def keysRegion (o : Nat) : Region :=
  if o % 0x40 = 8 then .consumer (Fin.ofNat 16 (o / 0x40)) else .keysOther

/-- The region at an offset of window k (1.2). -/
def windowRegion (k : Fin 7) (o : Nat) : Region :=
  match k.val with
  | 0 => controlRegion o
  | 1 => slotRegion o
  | 2 => screenRegion o
  | 3 => keysRegion o
  | _ => .partOwned

/-- The known window a doubleword lies in (R3). -/
def windowAt (p : Path) (addr : Nat) : Option (Fin 7) :=
  (List.finRange 7).find? fun k =>
    p.windows[k].known && decide (p.windows[k].base ≤ addr) &&
      decide (addr < p.windows[k].base + p.windows[k].length)

/-- The region of a doubleword, none outside every known window (R3). -/
def regionAt (s : State) (addr : Nat) : Option Region :=
  (windowAt s.path addr).map fun k => windowRegion k (addr - s.path.windows[k].base)

/-! ### Judging a write (R5 to R10) -/

/-- The region's rule lets a host write pass (R6 to R10). -/
def regionPasses (s : State) : Region → Bool
  | .image => s.day.state == .setup || s.day.state == .settled
  | .command => !s.control.busy
  | .argument _ | .hostArea | .screenRow _ _ | .screenTail | .consumer _ => true
  | .slotFields n _ => s.posting.slots[n].state != .submitted
  | .completion | .slotResult _ | .statusRow | .keysOther | .partOwned => false

/-- An entry is pending at the doubleword (R10). -/
def pendingAt (s : State) (addr : Nat) : Bool := (newestEntry s.path.queue addr).isSome

/-- A host write passes at its grant; a region passes or suppresses a doubleword's lanes alike (R5,
R10). With an entry pending at the doubleword none passes, one that enables no lane among them (log 59). -/
def writePasses (s : State) (addr : Nat) : Bool :=
  !pendingAt s addr && (match regionAt s addr with
    | none => true
    | some r => regionPasses s r)

/-! ### Captures (R7, R8, R22 to R25, R132, R192) -/

/-- The slot buffer with the enabled lanes of a doubleword copied in (R22). -/
def captureBuffer (b : List Byte) (offset : Nat) (mask : ByteMask) (data : Dword) : List Byte :=
  (List.range 120).map fun j =>
    if decide (offset ≤ j ∧ j < offset + 8) && mask.getLsbD (j - offset) then lane data (j - offset)
    else b.getD j 0

/-- All four lanes 0..3 are enabled. -/
def lowLanes (mask : ByteMask) : Bool := mask.toNat % 16 == 15

/-- The submit code (R23). -/
def submitCode : Nat := 0x54534F50

/-- The write of a slot's host fields commits it: lanes 0..3 of the commit doubleword, with the submit
code in the buffer (R23, R24). -/
def commits (offset : Nat) (mask : ByteMask) (buffer : List Byte) : Bool :=
  offset == 0x70 && lowLanes mask && field buffer 0x70 4 == submitCode

/-- The slot joins the Submit Queue, marked in OPEN; an entry on an empty queue is head at once (R24,
R25). -/
def submit (s : State) (n : Fin 16) (buffer : List Byte) : State :=
  let queued := { s with posting := { s.posting with
    slots := s.posting.slots.set n ⟨buffer, .submitted⟩,
    queue := s.posting.queue ++ [⟨n, s.day.state == .opened⟩] } }
  if s.posting.queue.isEmpty then newHead queued else queued

/-- A passing write to a slot's host fields: a DONE slot is FILLING again, the bytes are captured, a
commit submits (R7, R22 to R24). -/
def captureSlot (s : State) (n : Fin 16) (offset : Nat) (mask : ByteMask) (data : Dword) : State :=
  let buffer := captureBuffer s.posting.slots[n].buffer offset mask data
  if commits offset mask buffer then submit s n buffer
  else { s with posting := { s.posting with slots := s.posting.slots.set n ⟨buffer, .filling⟩ } }

/-- A passing write to a screen row marks it dirty (R8). -/
def captureRow (s : State) (p : Fin 16) (r : Nat) : State :=
  let q := s.screen.positions[p]
  setPosition s p { q with dirty := withRow q.dirty r }

/-- A passing write to a consumer doubleword (R9, R132). -/
def captureConsumer (s : State) (p : Fin 16) (mask : ByteMask) (data : Dword) : State :=
  let q := s.screen.positions[p]
  let old := BitVec.ofNat 64 q.consumer.toNat
  setPosition s p { q with consumer := BitVec.ofNat 16 (laneField (mergeLanes mask old data) 0 2) }

/-- A captured write to the command doubleword; with lanes 0..3 enabled it is a command (R192, R193). -/
def captureCommand (s : State) (mask : ByteMask) (data : Dword) : State :=
  let merged := mergeLanes mask s.control.command data
  let captured := { s with control := { s.control with command := merged } }
  if lowLanes mask then
    runCommand
      { captured with control := { captured.control with
          busy := true, taken := some ⟨commandCode merged, commandTag merged⟩ } }
      (commandCode merged)
  else captured

/-- A captured argument write (R192). -/
def captureArgument (s : State) (i : Fin 6) (mask : ByteMask) (data : Dword) : State :=
  { s with control := { s.control with
      arguments := s.control.arguments.set i (mergeLanes mask s.control.arguments[i] data) } }

/-- A passing write handed to the block that owns the region (R5). -/
def capture (s : State) (mask : ByteMask) (data : Dword) : Region → State
  | .slotFields n o => captureSlot s n o mask data
  | .screenRow p r => captureRow s p r
  | .consumer p => captureConsumer s p mask data
  | .command => captureCommand s mask data
  | .argument i => captureArgument s i mask data
  | .image | .completion | .hostArea | .slotResult _ | .statusRow | .screenTail | .keysOther
  | .partOwned => s

/-! ### Violations (R11) -/

/-- A counter that stops at FFFFFFFFh (R11). -/
def countUp (n : BitVec 32) : BitVec 32 := if n = 0xFFFFFFFF then n else n + 1

/-- A write with a suppressed lane is counted in its window; the first since the flag was cleared raises
the alert and hands over a VIOLATION entry (R11, R112). -/
def violation (s : State) (k : Fin 7) (mask : ByteMask) (addr : Nat) : State :=
  let counted := { s with path := { s.path with
    violations := s.path.violations.set k (countUp s.path.violations[k]),
    reported := s.path.reported.set k true } }
  if s.path.reported[k] then counted
  else
    eventEntry (raiseAlert counted .writeSuppressed)
      { kind := 13, code := k.val, flags := mask.toNat, ref := addr }

/-- A suppressed write: counted where it lies in a known window; one that enables no lane is neither
suppressed nor counted (R1, R5, R10). -/
def suppressWrite (s : State) (mask : ByteMask) (addr : Nat) : State :=
  if mask = 0 then s
  else
    match windowAt s.path addr with
    | none => s
    | some k => violation s k mask addr

/-! ### Grants to the host (R2, R5, R16, R19) -/

/-- The host's write is taken at its grant (R5). One that enables no lane is captured where it passes (R1;
log 14); at a doubleword with an entry pending it does not pass, so no row is marked and no DONE slot returns
(R10; log 59). -/
def takeWrite (s : State) (addr : Nat) (mask : ByteMask) (data : Dword) : State :=
  let granted := { s with path := { hostGranted s.path with bus := .idle } }
  if writePasses s addr then
    let written := { granted with mem := Memory.writeDword s.mem addr mask data }
    match regionAt s addr with
    | none => written
    | some r => capture written mask data r
  else suppressWrite granted mask addr

/-- The write that waits, when the next grant is the host's (R2, R19). -/
def grantedWrite (s : State) : Option (Nat × ByteMask × Dword) :=
  if nextGrant s.path == some .host then
    match s.path.bus with
    | .writeWaiting addr mask data => some (addr, mask, data)
    | .idle | .readWaiting _ | .readHeld _ _ => none
  else none

/-- The waiting write taken when its region and lanes are those of the row (R5; log 13). -/
def grantWriteWhen (s : State) (row : Option Region → ByteMask → Dword → Bool) : State :=
  match grantedWrite s with
  | none => s
  | some (addr, mask, data) =>
    if row (regionAt s addr) mask data then takeWrite s addr mask data else s

/-- The waiting write is a commit doubleword write that enables lanes 0..3 (R24). -/
def rowIsCommit (r : Option Region) (mask : ByteMask) (_ : Dword) : Bool :=
  match r with
  | some (.slotFields _ 0x70) => lowLanes mask
  | _ => false

/-- The waiting write is any other write to a slot's host fields (R22). -/
def rowIsSlotField (r : Option Region) (mask : ByteMask) (data : Dword) : Bool :=
  match r with
  | some (.slotFields _ _) => !rowIsCommit r mask data
  | _ => false

/-- The waiting write is to a screen row (R8). -/
def rowIsScreenRow (r : Option Region) (_ : ByteMask) (_ : Dword) : Bool :=
  match r with
  | some (.screenRow _ _) => true
  | _ => false

/-- The waiting write is to a consumer doubleword (R132). -/
def rowIsConsumer (r : Option Region) (_ : ByteMask) (_ : Dword) : Bool :=
  match r with
  | some (.consumer _) => true
  | _ => false

/-- The waiting write is a command with a code that the test accepts: lanes 0..3 enabled, no command in
progress (R6, R192). -/
def rowIsCommand (s : State) (codes : Nat → Bool) (r : Option Region) (mask : ByteMask)
    (data : Dword) : Bool :=
  r == some .command && lowLanes mask && !s.control.busy &&
    codes (commandCode (mergeLanes mask s.control.command data))

/-- The grant of a write to the command doubleword that is the command of a code (R192). -/
def grantCommand (s : State) (code : Nat) : State :=
  grantWriteWhen s (rowIsCommand s fun k => k == code)

/-! ### Reads (R16, R17) -/

/-- The slot whose result doubleword an address names, while it is SUBMITTED (R17). -/
def heldSlot (s : State) (addr : Nat) : Option (Fin 16) :=
  match regionAt s addr with
  | some (.slotResult n) => if s.posting.slots[n].state = .submitted then some n else none
  | _ => none

/-- A host read arrives on the idle processor bus: held, answered from the queue, or waiting (R16,
R17). -/
def readArrives (s : State) (addr : Nat) : State :=
  match s.path.bus with
  | .idle =>
    match heldSlot s addr with
    | some n => { s with path := { s.path with bus := .readHeld addr n } }
    | none =>
      match newestEntry s.path.queue addr with
      | some data => { s with path := { s.path with answer := some data } }
      | none => { s with path := { s.path with bus := .readWaiting addr } }
  | .readWaiting _ | .readHeld _ _ | .writeWaiting _ _ _ => s

/-- A host write arrives on the idle processor bus and waits for its grant (R1, R2). -/
def writeArrives (s : State) (addr : Nat) (mask : ByteMask) (data : Dword) : State :=
  match s.path.bus with
  | .idle => { s with path := { s.path with bus := .writeWaiting addr mask data } }
  | .readWaiting _ | .readHeld _ _ | .writeWaiting _ _ _ => s

/-- The grant of a waiting host read: answered from the newest entry placed meanwhile, or from memory
(R16). -/
def grantRead (s : State) : State :=
  match s.path.bus with
  | .readWaiting addr =>
    if nextGrant s.path == some .host then
      let data := (newestEntry s.path.queue addr).getD (Memory.readDword s.mem addr)
      { s with path := { hostGranted s.path with bus := .idle, answer := some data } }
    else s
  | .idle | .readHeld _ _ | .writeWaiting _ _ _ => s

/-! ### The Inject Queue's grant, and waiting groups (R13 to R15, R19, R20) -/

/-- Room is offered to the producers with a refusal outstanding (R14). -/
def offerRoom (p : Path) : Path :=
  if p.queue.length < 24 && p.waiting.isEmpty then
    { p with controlRefused := false, screenRefused := false }
  else p

/-- The path after a drain: streak, mode (R15, R19, R20). -/
def drainedPath (p : Path) : Path :=
  { p with queue := p.queue.tail, injectStreak := 0,
           mode := if p.queue.tail.length ≤ 8 then .normal else p.mode }

/-- Of the groups that wait, oldest first, those whose size the free room reaches are placed, up to the
first that it does not reach (R13). -/
def placeReached (s : State) : List Group → State
  | [] => { s with path := { s.path with waiting := [] } }
  | g :: rest =>
    if g.writes.length ≤ freeRoom s.path then placeReached (placeGroup s g) rest
    else { s with path := { s.path with waiting := g :: rest } }

/-- An event that has left room: waiting groups are placed, then room is offered (R13, R14; log 16). -/
def useRoom (s : State) : State :=
  let placed := placeReached s s.path.waiting
  { placed with path := offerRoom placed.path }

/-- The head entry drains: it is written to memory and leaves the queue, waiting groups are placed in
the room it leaves, and room may be offered (R13 to R15). -/
def drainHead (s : State) : State :=
  if nextGrant s.path != some .inject then s
  else
    match s.path.queue with
    | [] => s
    | e :: _ =>
      useRoom { s with path := drainedPath s.path,
                       mem := Memory.writeDword s.mem e.addr (BitVec.allOnes 8) e.data }

/-- The oldest waiting group is placed: by the drain that leaves room for it, or now where the room is
there already (R13; log 12). -/
def placeWaiting (s : State) : State :=
  match s.path.waiting with
  | [] => s
  | g :: _ =>
    if g.writes.length ≤ freeRoom s.path then useRoom s
    else if g.writes.length ≤ freeRoom (drainedPath s.path) then drainHead s
    else s

end Sys2Proof.Machine
end

