-- ==== Sys2Proof/Machine/RowsBus.lean ====
section
/-! DEFINITION. The rows of the Path Unit and of the host's transactions (R1 to R21, R22 to R25, R132). -/

namespace Sys2Proof.Machine

/-- RESET: every block takes its reset state; memory and the queue stay (R1, R21). The CONTROL base is
sampled at the release (R3). -/
def execReset (s : State) : Host.Outcome State Fault Refusal :=
  .next { resetState s.path.windows[0].base s.mem s.pending with inReset := true }

/-- RESET_RELEASE: the straps give the CONTROL base; later changes of their levels have no effect (R3). -/
def execResetRelease (straps : BitVec 2) (s : State) : Host.Outcome State Fault Refusal :=
  if s.inReset then
    .next { s with path := { s.path with windows := resetWindows (strapBase straps) },
                   inReset := false }
  else .next s

/-- HOST_WRITE_ARRIVAL: the write waits for the bus (R1, R2); an unaligned address is no transaction. -/
def execHostWriteArrival (addr : BitVec 64) (mask : ByteMask) (data : Dword) (s : State) : Host.Outcome State Fault Refusal :=
  if alignedAddress addr then running s fun s => writeArrives s addr.toNat mask data
  else .fault .unalignedAddress

/-- HOST_WRITE: the waiting write is taken at its grant (R5; log 13). -/
def execHostWrite (s : State) : Host.Outcome State Fault Refusal :=
  running s fun s => grantWriteWhen s fun _ _ _ => true

/-- SLOT_FIELD_WRITE (R7, R22). -/
def execSlotFieldWrite (s : State) : Host.Outcome State Fault Refusal :=
  running s fun s => grantWriteWhen s rowIsSlotField

/-- COMMIT (R24). -/
def execCommit (s : State) : Host.Outcome State Fault Refusal :=
  running s fun s => grantWriteWhen s rowIsCommit

/-- SCREEN_ROW_WRITE (R8). -/
def execScreenRowWrite (s : State) : Host.Outcome State Fault Refusal :=
  running s fun s => grantWriteWhen s rowIsScreenRow

/-- CONSUMER_INDEX_WRITE (R9, R132). -/
def execConsumerIndexWrite (s : State) : Host.Outcome State Fault Refusal :=
  running s fun s => grantWriteWhen s rowIsConsumer

/-- HOST_READ: held, answered from the Inject Queue, or waiting (R16, R17). -/
def execHostRead (addr : BitVec 64) (s : State) : Host.Outcome State Fault Refusal :=
  if alignedAddress addr then running s fun s => readArrives s addr.toNat
  else .fault .unalignedAddress

/-- HOST_READ_GRANT (R16). -/
def execHostReadGrant (s : State) : Host.Outcome State Fault Refusal :=
  running s grantRead

/-- INJECT_DRAIN (R15). -/
def execInjectDrain (s : State) : Host.Outcome State Fault Refusal :=
  running s drainHead

/-- PLACE_WAITING_GROUP (R13). -/
def execPlaceWaitingGroup (s : State) : Host.Outcome State Fault Refusal :=
  running s placeWaiting

/-- FETCH_GRANT (R18). -/
def execFetchGrant (s : State) : Host.Outcome State Fault Refusal :=
  running s fun s => if nextGrant s.path == some .fetch then grantFetch s else s

/-- INSTALL_WINDOW_MAP: a waiting placement is installed once no read is held (R4, R196). -/
def execInstallWindowMap (s : State) : Host.Outcome State Fault Refusal :=
  running s fun s =>
    match s.path.placement with
    | none => s
    | some c => if readIsHeld s.path then s else takeEffect s c

/-- JUDGING_EVENT (R26). -/
def execJudgingEvent (s : State) : Host.Outcome State Fault Refusal :=
  running s judgeHead

/-- RING_POSITION_ANSWER (R106). -/
def execRingPositionAnswer (s : State) : Host.Outcome State Fault Refusal :=
  running s answerPositions

end Sys2Proof.Machine
end

