-- ==== Sys2Proof/Machine/RowsCommands.lean ====
section
/-! DEFINITION. The rows of the host's commands: the grant of the write that gives the command (R6, R192; 12.1). -/

namespace Sys2Proof.Machine

/-- APPLY_CONFIG, code 1 (R194). -/
def execApplyConfig (s : State) : Host.Outcome State Fault Refusal :=
  running s fun s => grantCommand s 1

/-- OPEN_DAY, code 2 (R168). -/
def execOpenDay (s : State) : Host.Outcome State Fault Refusal :=
  running s fun s => grantCommand s 2

/-- RESUME_DAY, code 3 (R175). -/
def execResumeDay (s : State) : Host.Outcome State Fault Refusal :=
  running s fun s => grantCommand s 3

/-- SET_TIME, code 4 (R164). -/
def execSetTime (s : State) : Host.Outcome State Fault Refusal :=
  running s fun s => grantCommand s 4

/-- CLOSE_DAY, code 5 (R165). -/
def execCloseDay (s : State) : Host.Outcome State Fault Refusal :=
  running s fun s => grantCommand s 5

/-- FORCE_BALANCE, code 6 (R171). -/
def execForceBalance (s : State) : Host.Outcome State Fault Refusal :=
  running s fun s => grantCommand s 6

/-- RELEASE_DRAWER, code 7 (R89). -/
def execReleaseDrawer (s : State) : Host.Outcome State Fault Refusal :=
  running s fun s => grantCommand s 7

/-- RELEASE_HOLD, code 8 (R103). -/
def execReleaseHold (s : State) : Host.Outcome State Fault Refusal :=
  running s fun s => grantCommand s 8

/-- CLEAR_MONITOR, code 9 (R102). -/
def execClearMonitor (s : State) : Host.Outcome State Fault Refusal :=
  running s fun s => grantCommand s 9

/-- RESUME_BATCH, code 10 (R189). -/
def execResumeBatch (s : State) : Host.Outcome State Fault Refusal :=
  running s fun s => grantCommand s 10

/-- RESEND_BATCH, code 11 (R189). -/
def execResendBatch (s : State) : Host.Outcome State Fault Refusal :=
  running s fun s => grantCommand s 11

/-- START_LEARN, code 12 (R138). -/
def execStartLearn (s : State) : Host.Outcome State Fault Refusal :=
  running s fun s => grantCommand s 12

/-- END_LEARN, code 13 (R140). -/
def execEndLearn (s : State) : Host.Outcome State Fault Refusal :=
  running s fun s => grantCommand s 13

/-- CHECK_JOURNAL, code 14 (R121). -/
def execCheckJournal (s : State) : Host.Outcome State Fault Refusal :=
  running s fun s => grantCommand s 14

/-- CHECK_TOTALS, code 15 (R73). -/
def execCheckTotals (s : State) : Host.Outcome State Fault Refusal :=
  running s fun s => grantCommand s 15

/-- CHECK_LINE, code 16 (R141). -/
def execCheckLine (s : State) : Host.Outcome State Fault Refusal :=
  running s fun s => grantCommand s 16

/-- CLEAR_ALERTS, code 17 (R202). -/
def execClearAlerts (s : State) : Host.Outcome State Fault Refusal :=
  running s fun s => grantCommand s 17

/-- BAD_COMMAND_CODE: a code that names no command is answered BAD_ARGUMENT (R192). -/
def execBadCommandCode (s : State) : Host.Outcome State Fault Refusal :=
  running s fun s =>
    grantWriteWhen s (rowIsCommand s fun k => k == 0 || decide (17 < k))

end Sys2Proof.Machine
end

