-- ==== Sys2Proof/Machine/RowsDay.lean ====
section
/-! DEFINITION. The rows of Day Control, the journal runs and the configuration's fetch (R119, R163, R167, R169,
R174, R195). -/

namespace Sys2Proof.Machine

/-- The image is judged when its last doubleword has been answered, or is answered by this grant (R194;
log 12). -/
def takeImage (s : State) : State :=
  match s.control.image with
  | none => s
  | some words =>
    if words.length = 768 then judgeImage s words
    else if words.length = 767 ∧ grantAnswers s .control = true then
      let granted := grantFetch s
      judgeImage granted (granted.control.image.getD [])
    else s

/-- The chosen record goes to the work that fetched it (R168, R175). -/
def useRecords (s : State) : State :=
  match s.day.work with
  | some (.openFetching date time) => openChosen s date time
  | some .resumeChoosing => resumeChosen s
  | some (.openWriting _ _) | some .resumeReplaying | none => s

/-- The records are judged when the last doubleword of copy 1 has been answered, or is answered by this
grant (R167; log 12). -/
def takeRecords (s : State) : State :=
  if recordsFetched s then useRecords s
  else if grantAnswers s .day && recordsFetched (grantFetch s) then useRecords (grantFetch s)
  else s

/-- The fresh day opens when no group of its record waits any more, or the last is placed now (R169;
log 12). -/
def takeFreshDay (s : State) : State :=
  match s.day.work with
  | some (.openWriting date time) =>
    if noneWaiting s .freshRecord then dayOpens s date time none
    else if noneWaiting (placeWaiting s) .freshRecord then dayOpens (placeWaiting s) date time none
    else s
  | some (.openFetching _ _) | some .resumeChoosing | some .resumeReplaying | none => s

/-- All 16 groups of the settlement write have been placed (R174). -/
def settlementPlaced (s : State) : Bool := s.day.settlement.any fun w => w.placed == 16

/-- The settlement write is done when its last group has been placed, or is placed now (R174; log 12). -/
def takeSettlementDone (s : State) : State :=
  if settlementPlaced s then settlementDone s
  else if settlementPlaced (placeWaiting s) then settlementDone (placeWaiting s)
  else s

/-- TICK (R163). -/
def execTick (s : State) : Host.Outcome State Fault Refusal :=
  running s takeTick

/-- CONFIG_IMAGE_FETCHED (R194, R195). -/
def execConfigImageFetched (s : State) : Host.Outcome State Fault Refusal :=
  running s takeImage

/-- CARRY_RECORD_FETCHED (R167, R168, R175). -/
def execCarryRecordFetched (s : State) : Host.Outcome State Fault Refusal :=
  running s takeRecords

/-- FRESH_DAY_OPENS (R169, R170). -/
def execFreshDayOpens (s : State) : Host.Outcome State Fault Refusal :=
  running s takeFreshDay

/-- JOURNAL_RUN_ENTRY (R119). -/
def execJournalRunEntry (s : State) : Host.Outcome State Fault Refusal :=
  running s takeRunEntry

/-- SETTLEMENT_WRITE_DONE (R174). -/
def execSettlementWriteDone (s : State) : Host.Outcome State Fault Refusal :=
  running s takeSettlementDone

end Sys2Proof.Machine
end

