-- ==== Sys2Proof/Machine/RowsDrawer.lean ====
section
/-! DEFINITION. The rows of the drawers (R80 to R91). -/

namespace Sys2Proof.Machine

/-- DRAWER_SENSE_SAMPLE: a 10 ms sample, with all it completes (R80; log 12). -/
def execDrawerSenseSample (h : Fin 17) (level : Sense) (s : State) : Host.Outcome State Fault Refusal :=
  running s fun s => takeSample s h level

/-- SENSED_OPEN: the sample that completes a sensed open (R80, R83, R85). -/
def execSensedOpen (h : Fin 17) (s : State) : Host.Outcome State Fault Refusal :=
  running s fun s =>
    if sampleCompletes s h .opened = .sensed .opened then takeSample s h .opened else s

/-- SENSED_CLOSED: the sample that completes a sensed closed (R80, R84). -/
def execSensedClosed (h : Fin 17) (s : State) : Host.Outcome State Fault Refusal :=
  running s fun s =>
    if sampleCompletes s h .closed = .sensed .closed then takeSample s h .closed else s

/-- SENSE_SETTLE: the sample that determines the sense of a drawer with a pending settle (R80, R90). -/
def execSenseSettle (h : Fin 17) (level : Sense) (s : State) : Host.Outcome State Fault Refusal :=
  running s fun s =>
    if s.drawers[h].settle ∧ sampleCompletes s h level = .determined level then takeSample s h level
    else s

/-- RELEASE_WINDOW_EXPIRY: held while an open run forms (R83, R84). -/
def execReleaseWindowExpiry (h : Fin 17) (s : State) : Host.Outcome State Fault Refusal :=
  running s fun s => expireWindow s h

/-- HELD_EXPIRY_TAKEN: the closed sample that ends the open run (R83). -/
def execHeldExpiryTaken (h : Fin 17) (s : State) : Host.Outcome State Fault Refusal :=
  running s fun s => if s.drawers[h].heldExpiry then takeSample s h .closed else s

/-- OVERDUE_LIMIT_EXPIRY (R86). -/
def execOverdueLimitExpiry (h : Fin 17) (s : State) : Host.Outcome State Fault Refusal :=
  running s fun s => expireLimit s h

end Sys2Proof.Machine
end

