-- ==== Sys2Proof/Machine/RowsDrop.lean ====
section
/-! DEFINITION. The rows of the drop lines (R123 to R141). -/

namespace Sys2Proof.Machine

/-- CYCLE_START (R127). -/
def execCycleStart (d : Fin 2) (s : State) : Host.Outcome State Fault Refusal :=
  running s fun s => startCycle s d

/-- ROW_SEND (R128). -/
def execRowSend (d : Fin 2) (s : State) : Host.Outcome State Fault Refusal :=
  running s fun s => sendRow s d

/-- DROP_FRAME_SENT (R126). -/
def execDropFrameSent (d : Fin 2) (s : State) : Host.Outcome State Fault Refusal :=
  running s fun s => dropSent s d

/-- DROP_REPLY (R126). -/
def execDropReply (d : Fin 2) (frame : List Byte) (s : State) : Host.Outcome State Fault Refusal :=
  running s fun s => receiveDrop s d frame

/-- DROP_REPLY_TIMEOUT (R126). -/
def execDropReplyTimeout (d : Fin 2) (late : ReplyTimeout) (s : State) : Host.Outcome State Fault Refusal :=
  running s fun s => expireReply s d late

/-- LEARN_REPEAT_EXPIRY (R139). -/
def execLearnRepeatExpiry (d : Fin 2) (s : State) : Host.Outcome State Fault Refusal :=
  running s fun s => repeatAssign s d

end Sys2Proof.Machine
end

