-- ==== Sys2Proof/Machine/RowsHeadOffice.lean ====
section
/-! DEFINITION. The rows of the head-office lines (R182 to R188). -/

namespace Sys2Proof.Machine

/-- HO_FRAME_SENT (R183). -/
def execHoFrameSent (port : HoPort) (s : State) : Host.Outcome State Fault Refusal :=
  running s fun s => hoSent s port

/-- HO_ACK (R184). -/
def execHoAck (port : HoPort) (frame : List Byte) (s : State) : Host.Outcome State Fault Refusal :=
  running s fun s => takeHoAck s port frame

/-- HO_NAK (R185). -/
def execHoNak (port : HoPort) (frame : List Byte) (s : State) : Host.Outcome State Fault Refusal :=
  running s fun s => takeHoNak s port frame

/-- HO_WAIT (R186). -/
def execHoWait (port : HoPort) (frame : List Byte) (s : State) : Host.Outcome State Fault Refusal :=
  running s fun s => takeHoWait s port frame

/-- HO_FINAL (R187). -/
def execHoFinal (port : HoPort) (frame : List Byte) (s : State) : Host.Outcome State Fault Refusal :=
  running s fun s => takeHoFinal s port frame

/-- HO_INVALID_FRAME: the frame is discarded, and timers go on (R182). -/
def execHoInvalidFrame (_port : HoPort) (_frame : List Byte) (s : State) : Host.Outcome State Fault Refusal :=
  running s fun s => s

/-- ACK_WAIT_EXPIRY (R185). -/
def execAckWaitExpiry (s : State) : Host.Outcome State Fault Refusal :=
  running s expireAck

/-- WAIT_PAUSE_EXPIRY (R186). -/
def execWaitPauseExpiry (s : State) : Host.Outcome State Fault Refusal :=
  running s expirePause

/-- FINAL_WAIT_EXPIRY (R187). -/
def execFinalWaitExpiry (s : State) : Host.Outcome State Fault Refusal :=
  running s expireFinal

end Sys2Proof.Machine
end

