-- ==== Sys2Proof/Machine/RowsPrinter.lean ====
section
/-! DEFINITION. The rows of the printers (R149 to R159). -/

namespace Sys2Proof.Machine

/-- A valid frame of a kind arrives from a printer that has a port (R149). -/
def printerHears (s : State) (k : Fin 4) (frame : List Byte) (kind : Byte) : Bool :=
  (s.configuration.printerPort k).isSome && printerSends frame kind

/-- BOOK_IN: a valid frame of its kind (R151). -/
def execBookIn (k : Fin 4) (frame : List Byte) (s : State) : Host.Outcome State Fault Refusal :=
  running s fun s => if printerHears s k frame 0x10 then takeBookIn s k frame else s

/-- BOOK_OUT: a valid frame of its kind (R154 to R156). -/
def execBookOut (k : Fin 4) (frame : List Byte) (s : State) : Host.Outcome State Fault Refusal :=
  running s fun s => if printerHears s k frame 0x11 then takeBookOut s k else s

/-- LINE_DONE: a valid frame of its kind (R153). -/
def execLineDone (k : Fin 4) (frame : List Byte) (s : State) : Host.Outcome State Fault Refusal :=
  running s fun s => if printerHears s k frame 0x12 then takeLineDone s k else s

/-- READY: a valid frame of its kind (R150). -/
def execReady (k : Fin 4) (frame : List Byte) (s : State) : Host.Outcome State Fault Refusal :=
  running s fun s => if printerHears s k frame 0x13 then takeReady s k else s

/-- PRINTER_ACK: a valid frame of its kind (R149). -/
def execPrinterAck (k : Fin 4) (frame : List Byte) (s : State) : Host.Outcome State Fault Refusal :=
  running s fun s => if printerHears s k frame 0x14 then takeAck s k else s

/-- PRINTER_NAK: a NAK or an invalid frame during a reply wait fails the message (R149, R156). -/
def execPrinterNak (k : Fin 4) (frame : List Byte) (s : State) : Host.Outcome State Fault Refusal :=
  running s fun s =>
    if printerHears s k frame 0x15 || !printerFrameValid frame then takeFailure s k else s

/-- PRINTER_INVALID_FRAME: the frame is discarded (R149). -/
def execPrinterInvalidFrame (_k : Fin 4) (_frame : List Byte) (s : State) : Host.Outcome State Fault Refusal :=
  running s fun s => s

/-- PRINTER_REPLY_TIMEOUT: the 2 s reply wait ends (R149, R156). -/
def execPrinterReplyTimeout (k : Fin 4) (s : State) : Host.Outcome State Fault Refusal :=
  running s fun s => takeFailure s k

/-- LINE_DONE_TIMEOUT (R156). -/
def execLineDoneTimeout (k : Fin 4) (s : State) : Host.Outcome State Fault Refusal :=
  running s fun s => expireLine s k

/-- PAGE_TURN_TIMEOUT (R154). -/
def execPageTurnTimeout (k : Fin 4) (s : State) : Host.Outcome State Fault Refusal :=
  running s fun s => expireTurn s k

end Sys2Proof.Machine
end

