-- ==== Sys2Proof/Machine/Dispatch.lean ====
section
/-! DEFINITION. The meaning of each command: one arm per row of the table. -/

namespace Sys2Proof.Machine

def exec (i : Instr) (s : State) : Host.Outcome State Fault Refusal :=
  match i with
  | .reset => Sys2Proof.Machine.execReset s
  | .hostWrite => Sys2Proof.Machine.execHostWrite s
  | .slotFieldWrite => Sys2Proof.Machine.execSlotFieldWrite s
  | .commit => Sys2Proof.Machine.execCommit s
  | .screenRowWrite => Sys2Proof.Machine.execScreenRowWrite s
  | .consumerIndexWrite => Sys2Proof.Machine.execConsumerIndexWrite s
  | .hostRead addr => Sys2Proof.Machine.execHostRead addr s
  | .hostReadGrant => Sys2Proof.Machine.execHostReadGrant s
  | .injectDrain => Sys2Proof.Machine.execInjectDrain s
  | .placeWaitingGroup => Sys2Proof.Machine.execPlaceWaitingGroup s
  | .fetchGrant => Sys2Proof.Machine.execFetchGrant s
  | .installWindowMap => Sys2Proof.Machine.execInstallWindowMap s
  | .judgingEvent => Sys2Proof.Machine.execJudgingEvent s
  | .ringPositionAnswer => Sys2Proof.Machine.execRingPositionAnswer s
  | .sensedOpen h => Sys2Proof.Machine.execSensedOpen h s
  | .sensedClosed h => Sys2Proof.Machine.execSensedClosed h s
  | .senseSettle h level => Sys2Proof.Machine.execSenseSettle h level s
  | .releaseWindowExpiry h => Sys2Proof.Machine.execReleaseWindowExpiry h s
  | .heldExpiryTaken h => Sys2Proof.Machine.execHeldExpiryTaken h s
  | .overdueLimitExpiry h => Sys2Proof.Machine.execOverdueLimitExpiry h s
  | .tick => Sys2Proof.Machine.execTick s
  | .applyConfig => Sys2Proof.Machine.execApplyConfig s
  | .configImageFetched => Sys2Proof.Machine.execConfigImageFetched s
  | .openDay => Sys2Proof.Machine.execOpenDay s
  | .carryRecordFetched => Sys2Proof.Machine.execCarryRecordFetched s
  | .freshDayOpens => Sys2Proof.Machine.execFreshDayOpens s
  | .resumeDay => Sys2Proof.Machine.execResumeDay s
  | .journalRunEntry => Sys2Proof.Machine.execJournalRunEntry s
  | .setTime => Sys2Proof.Machine.execSetTime s
  | .closeDay => Sys2Proof.Machine.execCloseDay s
  | .forceBalance => Sys2Proof.Machine.execForceBalance s
  | .releaseDrawer => Sys2Proof.Machine.execReleaseDrawer s
  | .releaseHold => Sys2Proof.Machine.execReleaseHold s
  | .clearMonitor => Sys2Proof.Machine.execClearMonitor s
  | .resumeBatch => Sys2Proof.Machine.execResumeBatch s
  | .resendBatch => Sys2Proof.Machine.execResendBatch s
  | .startLearn => Sys2Proof.Machine.execStartLearn s
  | .endLearn => Sys2Proof.Machine.execEndLearn s
  | .checkJournal => Sys2Proof.Machine.execCheckJournal s
  | .checkTotals => Sys2Proof.Machine.execCheckTotals s
  | .checkLine => Sys2Proof.Machine.execCheckLine s
  | .clearAlerts => Sys2Proof.Machine.execClearAlerts s
  | .badCommandCode => Sys2Proof.Machine.execBadCommandCode s
  | .cycleStart d => Sys2Proof.Machine.execCycleStart d s
  | .rowSend d => Sys2Proof.Machine.execRowSend d s
  | .dropFrameSent d => Sys2Proof.Machine.execDropFrameSent d s
  | .dropReply d frame => Sys2Proof.Machine.execDropReply d frame s
  | .dropReplyTimeout d late => Sys2Proof.Machine.execDropReplyTimeout d late s
  | .learnRepeatExpiry d => Sys2Proof.Machine.execLearnRepeatExpiry d s
  | .bookIn k frame => Sys2Proof.Machine.execBookIn k frame s
  | .bookOut k frame => Sys2Proof.Machine.execBookOut k frame s
  | .lineDone k frame => Sys2Proof.Machine.execLineDone k frame s
  | .ready k frame => Sys2Proof.Machine.execReady k frame s
  | .printerAck k frame => Sys2Proof.Machine.execPrinterAck k frame s
  | .printerNak k frame => Sys2Proof.Machine.execPrinterNak k frame s
  | .printerReplyTimeout k => Sys2Proof.Machine.execPrinterReplyTimeout k s
  | .lineDoneTimeout k => Sys2Proof.Machine.execLineDoneTimeout k s
  | .pageTurnTimeout k => Sys2Proof.Machine.execPageTurnTimeout k s
  | .hoFrameSent port => Sys2Proof.Machine.execHoFrameSent port s
  | .hoAck port frame => Sys2Proof.Machine.execHoAck port frame s
  | .hoNak port frame => Sys2Proof.Machine.execHoNak port frame s
  | .hoWait port frame => Sys2Proof.Machine.execHoWait port frame s
  | .hoFinal port frame => Sys2Proof.Machine.execHoFinal port frame s
  | .hoInvalidFrame port frame => Sys2Proof.Machine.execHoInvalidFrame port frame s
  | .ackWaitExpiry => Sys2Proof.Machine.execAckWaitExpiry s
  | .waitPauseExpiry => Sys2Proof.Machine.execWaitPauseExpiry s
  | .finalWaitExpiry => Sys2Proof.Machine.execFinalWaitExpiry s
  | .settlementWriteDone => Sys2Proof.Machine.execSettlementWriteDone s
  | .hostWriteArrival addr mask data => Sys2Proof.Machine.execHostWriteArrival addr mask data s
  | .resetRelease straps => Sys2Proof.Machine.execResetRelease straps s
  | .drawerSenseSample h level => Sys2Proof.Machine.execDrawerSenseSample h level s
  | .printerInvalidFrame k frame => Sys2Proof.Machine.execPrinterInvalidFrame k frame s

end Sys2Proof.Machine
end

