-- ==== Sys2Proof/Safety.lean ====
section
/-! DEFINITION. What every reachable state of the part satisfies, and the views of a state that the
statements speak of: the journal-class writes on their way to memory, and what a read of a doubleword would
return. -/

namespace Sys2Proof.Machine

/-- The journal-class writes of a path in the order in which they are to reach memory: those placed in the
Inject Queue, then those of the groups that wait for room (R12, R13, R15). -/
def journalWrites (p : Path) : List (Nat × Dword) :=
  (p.queue.filter fun e => e.cls == .journal).map (fun e => (e.addr, e.data)) ++
    p.waiting.flatMap (·.writes)

/-- The mirror-class entries of the Inject Queue (R12). -/
def mirrorEntries (p : Path) : List InjectEntry := p.queue.filter fun e => e.cls == .mirror

/-- What the path holds to in every state: at most 32 pending doublewords and at most 24 of mirror class, no
two of these at one address (R12); both streak counters at most 8, and at 0 when nothing waits that they count
for (R19); DRAIN from an occupancy of 24 until one of 8 or below (R20). -/
structure Path.Sound (p : Path) : Prop where
  occupancy : p.queue.length ≤ 32
  mirrorClass : (mirrorEntries p).length ≤ 24
  mirrorApart : ((mirrorEntries p).map (·.addr)).Nodup
  injectStreak : p.injectStreak ≤ 8
  fetchStreak : p.fetchStreak ≤ 8
  injectRest : p.queue = [] → p.injectStreak = 0
  fetchRest : p.fetches = [] → p.fetchStreak = 0
  normal : p.mode = .normal → p.queue.length < 24
  drain : p.mode = .drain → 8 < p.queue.length

/-- The business time a day that is being opened will start at stands on a tick (R168, R169). -/
def DayWork.timely : Option DayWork → Prop
  | some (.openFetching _ time) => time < 172800
  | some (.openWriting _ time) => time < 172800
  | some .resumeChoosing => True
  | some .resumeReplaying => True
  | none => True

/-- The parts of a state that the invariant of every step speaks of. -/
structure SoundParts (path : Path) (mem : List Host.Cell) (clock : Nat) (work : Option DayWork) : Prop where
  path : path.Sound
  memory : Memory.wf mem = true
  clock : clock < 172800
  work : DayWork.timely work

/-- The invariant that every step keeps: the path is sound, memory has its canonical form, and the clock
stands on a tick of the day (R12, R19, R20, R163; log 4). -/
def Sound (s : State) : Prop := SoundParts s.path s.mem s.day.clock s.day.work

/-- What a read of a doubleword returns at an event: the newest pending entry's data, else memory's (R16). -/
def readValue (s : State) (addr : Nat) : Dword :=
  (newestEntry s.path.queue addr).getD (Memory.readDword s.mem addr)

/-- The number that n bytes of a record spell from an offset on, low byte first (R203); bytes beyond the record's
end count as zero. -/
def uintAt (record : List Byte) (offset n : Nat) : Nat :=
  ((List.range n).map fun i => (record.getD (offset + i) 0).toNat * 256 ^ i).sum

/-- A drain leaves the oldest waiting group, if there is one, without the room it needs (R13). -/
abbrev drainPlacesNone (p : Path) : Prop :=
  ∀ g ∈ p.waiting.head?, freeRoom (drainedPath p) < g.writes.length

/-! ### What the end of a step renews by itself

The end of every step answers fetched doublewords that are still pending, recomposes the status rows, and hands
over mirror-class writes (R14, R18, R136, R137, R199, R200). A statement about a command says what the command
does to everything else, which is the state's books, and which journal-class writes it hands over. -/

/-- A position apart from its status row's composition and dirty marks (R136, R137). -/
def keptPosition (q : Position) : Position :=
  { q with dirty := q.dirty &&& 0x7FFFFF#24, composition := none, imageDirty := 0 }

/-- The state apart from what the end of a step renews: the Inject Queue with its mode and refusals, the
fetch list and the buffers it fills, the status rows, and the Mirror dirty set. -/
def books (s : State) : State :=
  { s with
    path := { s.path with queue := [], mode := .normal, controlRefused := false,
                          screenRefused := false, fetches := [], fetchWaits := false,
                          fetchStreak := 0 },
    posting := { s.posting with
      reversal := s.posting.reversal.map fun r => { r with words := [] } },
    journal := { s.journal with
      runs := s.journal.runs.map fun r => { r with chain := none }, turn := 0, serving := none,
      buffer := [] },
    screen := { controllers := s.screen.controllers.map fun c => { c with row := [] },
                positions := s.screen.positions.map keptPosition },
    day := { s.day with records := Vector.replicate 2 ⟨[], false⟩ },
    control := { s.control with mirrorDirty := 0, image := s.control.image.map fun _ => [] } }

/-! ### The books of the Totals Store -/

/-- The sum of a figure of the seventeen holders in a currency, modulo 2^64. -/
def holderSum (f : Fin 17 → Nat) : BitVec 64 := ((List.finRange 17).map fun h => BitVec.ofNat 64 (f h)).sum

/-- The Totals Store is in balance under a configuration: every record has twelve counts and its balance is
their sum (R62, R64), and in each currency the balances sum to the openings plus received less paid plus over
less short (R43). -/
structure InBalance (c : Configuration) (t : Totals) : Prop where
  twelve : ∀ (h : Fin 17) (k : Fin 4), (recordOf t h k).counts.length = 12
  sums : ∀ (h : Fin 17) (k : Fin 4),
    (recordOf t h k).balance = breakdownSum (c.faces k) (recordOf t h k).counts
  identity : ∀ k : Fin 4, holderSum (fun h => (recordOf t h k).balance) =
    holderSum (fun h => (recordOf t h k).opening) + t.day[k].received - t.day[k].paid + t.day[k].overage -
      t.day[k].shortage

/-- The record of a holder in a currency after a leg's change: booked for an active holder in a configured
currency, kept for any other (R64, R71). -/
def bookedRecord (c : Configuration) (t : Totals) (h : Fin 17) (k : Fin 4) (change : CountChange) : HolderRecord :=
  if c.holderActive h && c.hasCurrency k then
    writeCounts (c.faces k) (recordOf t h k) ((countsAfter (recordOf t h k).counts change).map storedCount)
  else recordOf t h k

/-- Every record that carries no faulty mark has the check word of its contents (R72). -/
def ChecksTrue (t : Totals) : Prop :=
  ∀ (h : Fin 17) (k : Fin 4), (recordOf t h k).faulty = false → recordVerifies (recordOf t h k) = true

/-! ### The host's writes at their grant -/

/-- The running part's next grant is the host's, and a write waits (R2, R5). -/
abbrev WriteGranted (s : State) (addr : Nat) (mask : ByteMask) (data : Dword) : Prop :=
  s.inReset = false ∧ nextGrant s.path = some .host ∧ s.path.bus = .writeWaiting addr mask data

/-- The state with the waiting write taken: the streaks count it, and the processor bus is free (R5, R19). -/
def granted (s : State) : State := { s with path := { hostGranted s.path with bus := .idle } }

/-- The state with the waiting write taken and passed to memory (R5). -/
def written (s : State) (addr : Nat) (mask : ByteMask) (data : Dword) : State :=
  { granted s with mem := Memory.writeDword s.mem addr mask data }

/-- The write that is granted is a command of a code: it passes to the command doubleword with lanes 0 to 3
enabled (R6, R192). -/
abbrev CommandGiven (s : State) (addr : Nat) (mask : ByteMask) (data : Dword) (code : Nat) : Prop :=
  WriteGranted s addr mask data ∧ regionAt s addr = some .command ∧ writePasses s addr = true ∧
    lowLanes mask = true ∧ commandCode (mergeLanes mask s.control.command data) = code

/-- The state at the event at which a command is taken, before what the command itself does (R192, R193). -/
def commandTaken (s : State) (addr : Nat) (mask : ByteMask) (data : Dword) : State :=
  { written s addr mask data with
    control := { s.control with
      command := mergeLanes mask s.control.command data, busy := true,
      taken := some ⟨commandCode (mergeLanes mask s.control.command data),
        commandTag (mergeLanes mask s.control.command data)⟩ } }

/-- The command answers a next state that agrees with the state x in its books and in the journal-class
writes on their way to memory. -/
def Gives (c : Instr) (s x : State) : Prop :=
  ∃ t, exec c s = .next t ∧ books t = books x ∧ journalWrites t.path = journalWrites x.path

/-- The command gives the state x, and x's fetch requests and reversal buffer with it where the doubleword that x
would fetch next has no entry pending (R18, R27). -/
def GivesAsking (c : Instr) (s x : State) : Prop :=
  ∃ t, exec c s = .next t ∧ books t = books x ∧ journalWrites t.path = journalWrites x.path ∧
    ((∀ r ∈ x.path.fetches.head?, newestEntry x.path.queue r.next = none) →
      t.path.fetches = x.path.fetches ∧ t.posting = x.posting)

/-! ### The opening of a day -/

/-- The state of the part at an opening event, before DAY_OPEN is handed over (R170): the day OPEN; the Totals
Store, the monitors and the journal at a day's start; no item, no forced flag, no violation counted or reported,
the sender as after reset (R179; log 40), the record buffers empty (log 58). A printer in BOOK, PRINTING, TURN_WAIT
or EJECTING is FAULT and is sent RESET_PRINTER, or IDLE without a port; a line PRINTING shows its positions FAULT
(R150, R156; log 26). -/
def dayOpened (s : State) (date time : Nat) (copy : Fin 2) (settled start : Nat)
    (counts : Fin 17 → Fin 4 → List Nat) : State :=
  let c := s.configuration
  let restarts (k : Fin 4) := s.passbook.printers[k].state ≠ .idle ∧ s.passbook.printers[k].state ≠ .fault
  let interrupted (k : Fin 4) (p : Fin 16) :=
    s.passbook.printers[k].state = .printing ∧ c.positions[p].enabled = 1 ∧ c.positions[p].printer = k.val
  { s with
    totals := openedTotals c counts, monitors := loadedMonitors c, batch := resetBatch,
    journal := { s.journal with
      start := start, next := 1, chain := 0xFFFFFFFF, reservations := [], free := c.size, present := true },
    path := { s.path with violations := Vector.replicate 7 0, reported := Vector.replicate 7 false },
    drawers := Vector.ofFn fun h => { s.drawers[h] with forced := false },
    passbook := { s.passbook with
      items := [],
      printers := Vector.ofFn fun k =>
        if restarts k then
          (if c.printerPort k = none then barePrinter .idle
           else { barePrinter .fault with awaited := some .reset })
        else s.passbook.printers[k] },
    lines := Vector.ofFn fun port =>
      if (∃ k, restarts k ∧ c.printerPort k = some port) then [printerFrame 0x05 []] else s.lines[port],
    screen := { s.screen with positions := Vector.ofFn fun p =>
      if (∃ k, interrupted k p) then
        { s.screen.positions[p] with
          message := ⟨"PRINTER ".toList ++ decimal c.positions[p].printer ++ " FAULT".toList, false⟩ }
      else s.screen.positions[p] },
    day := { s.day with
      state := .opened, date := date, clock := time, openingCopy := some copy, openingSettled := settled,
      work := none, records := Vector.replicate 2 ⟨[], false⟩ } }

end Sys2Proof.Machine
end

