-- ==== Sys2Proof/Certificates/Slice0/Obligations.lean ====
section
/-! DEFINITION. The statements about the part, chapter by chapter of the spec. `Gives c s x` says that the
command completes with a next state whose books and journal-class writes are those of x. A statement that
covers several commands or rules of one subject is the conjunction of its claims, each stated just before it. -/

open Sys2Proof Sys2Proof.Machine

/-! ### The block, its queue, and the invariant of every step -/

/-- A step runs the command at the front of the queue on the state with the queue's rest (log 1). -/
def Sys2Proof.Claims.StepRunsTheFrontCommand : Prop :=
  ∀ (c : Instr) (rest : List Instr) (s : State), s.pending = c :: rest →
    step s = exec c { s with pending := rest }

/-- On an empty queue the block idles (DESIGN CHOICE, log 3). -/
def Sys2Proof.Claims.EmptyQueueIdles : Prop := ∀ s : State, s.pending = [] → step s = .next s

/-- A step runs the command at the front of the queue; without one the block idles. -/
def Obligations.StepRunsTheFrontCommand : Prop :=
  Claims.StepRunsTheFrontCommand ∧ Claims.EmptyQueueIdles

/-- The state after reset satisfies the invariant of every step. -/
def Obligations.ResetStateIsSound : Prop := Sound State.reset

/-- Every step keeps the invariant: the path's bounds (R12, R19, R20), memory's canonical form (log 4), the
clock on a tick of the day (R163). -/
def Obligations.EveryStepKeepsSoundness : Prop := ∀ s t : State, Sound s → step s = .next t → Sound t

/-- RESET and its release take the path to the table of R21, with CONTROL at the sampled strap base; memory
and the queue of commands (log 7) stay, and the image area and the command doubleword pass host writes. -/
def Obligations.ResetTakesThePathState : Prop :=
  ∀ (s : State) (straps : BitVec 2), ∃ t u, exec .reset s = .next t ∧
    exec (.resetRelease straps) t = .next u ∧ t.mem = s.mem ∧ u.mem = s.mem ∧ u.pending = s.pending ∧
    u.path.windows[0] = ⟨true, strapBase straps, 0x2000⟩ ∧
    (∀ k : Fin 7, k ≠ 0 → u.path.windows[k].known = false) ∧
    u.path.placement = none ∧ u.path.queue = [] ∧ u.path.waiting = [] ∧
    u.path.controlRefused = false ∧ u.path.screenRefused = false ∧ u.path.fetches = [] ∧
    u.path.mode = .normal ∧ u.path.injectStreak = 0 ∧ u.path.fetchStreak = 0 ∧
    (∀ k : Fin 7, u.path.violations[k] = 0 ∧ u.path.reported[k] = false) ∧ u.path.bus = .idle ∧
    u.day.state = .setup ∧ regionPasses u .image = true ∧ regionPasses u .command = true

/-- RESET takes the Posting Unit, the Drawer Unit, the Screen Unit and the Passbook Unit to the tables of R40,
R92, R142 and R161. -/
def Sys2Proof.Claims.ResetTakesTheUnitsState : Prop :=
  ∀ s : State, ∃ t, exec .reset s = .next t ∧ t.mem = s.mem ∧
    (∀ n : Fin 16, t.posting.slots[n] = ⟨List.replicate 120 0, .filling⟩) ∧ t.posting.queue = [] ∧
    t.posting.reversal = none ∧ t.posting.need = none ∧ t.path.fetches = [] ∧
    (∀ h : Fin 17, t.drawers[h].state = .locked ∧ t.drawers[h].energised = false ∧
      t.drawers[h].window = none ∧ t.drawers[h].limit = none ∧ t.drawers[h].sense = none ∧
      t.drawers[h].runLength = 0 ∧ t.drawers[h].forced = false ∧ t.drawers[h].settle = false) ∧
    t.control.config = none ∧ (∀ h : Fin 17, t.configuration.holderActive h = false) ∧
    (∀ d : Fin 2, t.screen.controllers[d].mode = .idle ∧ t.screen.controllers[d].exchange = none ∧
      t.screen.controllers[d].current = none ∧ t.screen.controllers[d].acknowledged = [] ∧
      t.screen.controllers[d].repeatTimer = false) ∧
    (∀ p : Fin 16,
      let q := t.screen.positions[p]
      q.state = .notConfigured ∧ q.missed = 0 ∧ q.skip = 0 ∧ q.pollBit = false ∧ q.dirty = 0 ∧
        q.bell = false ∧ q.echo = false ∧ q.producer = 0 ∧ q.writeAt = 0 ∧ q.consumer = 0 ∧
        q.ring = List.replicate 24 0 ∧ q.composition = none ∧ q.imageDirty = 0 ∧ q.message.text = []) ∧
    t.passbook.items = [] ∧ t.journal.reservations = [] ∧
    (∀ k : Fin 4, t.passbook.printers[k] = barePrinter .idle ∧ t.configuration.printerPort k = none)

/-- RESET takes the Totals Store, the Monitor Unit, the Journal Unit, Day Control, the Batch Unit, the Control Unit
and the line ports to the reset values of their chapters: zero records with their check word, no configuration, the
day SETUP, the journal ABSENT, no alert, no frame on any line (R43, R56, R69, R71, R78, R79, R95, R107, R162, R191,
R197, R198). -/
def Sys2Proof.Claims.ResetTakesTheBooks : Prop :=
  ∀ s : State, ∃ t, exec .reset s = .next t ∧
    (∀ (h : Fin 17) (k : Fin 4),
      recordOf t.totals h k = ⟨List.replicate 12 0, 0, 0xF14C, false, 0, false⟩) ∧
    (∀ h : Fin 17, t.totals.flags[h] = ⟨false, false, false⟩) ∧
    (∀ k : Fin 4, t.totals.day[k] = ⟨0, 0, 0, 0, 0, 0, 0⟩) ∧ (∀ k : Fin 7, t.totals.kinds[k] = 0) ∧
    t.totals.accepted = 0 ∧ t.totals.refused = 0 ∧ t.totals.hash = 0 ∧ t.totals.reversed = [] ∧
    (∀ m : Fin 8, t.monitors.counts[m] = 0 ∧ t.monitors.fired[m] = false ∧
      t.configuration.monitors[m].enabled ≠ 1) ∧ t.monitors.freeze = none ∧
    t.journal.present = false ∧ t.journal.start = 0 ∧ t.journal.next = 1 ∧ t.journal.chain = 0xFFFFFFFF ∧
    t.journal.free = 0 ∧ t.journal.reservations = [] ∧ t.journal.runs = [] ∧
    t.day.state = .setup ∧ t.day.date = 0 ∧ t.day.clock = 0 ∧ t.day.openingCopy = none ∧
    t.day.openingSettled = 0 ∧ (∀ c : Fin 2, t.day.records[c] = ⟨[], false⟩) ∧ t.day.work = none ∧
    t.day.settlement = none ∧ t.day.replay.kinds = [] ∧ t.configuration.autoCutoff ≠ 1 ∧
    t.batch.state = .idle ∧ t.batch.plan = none ∧ t.batch.current = 0 ∧ t.batch.buffer = [] ∧
    t.batch.port = .primary ∧ t.batch.retries = 0 ∧ t.batch.cause = .none ∧ t.batch.ackWait = false ∧
    t.batch.pause = false ∧ t.batch.finalWait = false ∧
    t.control.config = none ∧ t.control.command = 0 ∧ (∀ i : Fin 6, t.control.arguments[i] = 0) ∧
    t.control.busy = false ∧ t.control.taken = none ∧ t.control.mirrorDirty = 0 ∧
    t.path.controlRefused = false ∧ t.control.alerts = 0 ∧ t.attention = false ∧ t.control.image = none ∧
    t.control.journalCheck = none ∧ t.control.lineCheck = none ∧
    (∀ k : Fin 4, t.configuration.hasCurrency k = false) ∧
    (∀ p : Fin 16, t.configuration.positionEnabled p = false) ∧
    (∀ d : Fin 2, t.configuration.dropPort d = none) ∧
    (∀ p : HoPort, t.configuration.headOfficePort p = none) ∧ (∀ k : Fin 6, t.lines[k] = [])

/-- What RESET leaves in the units (R40, R43, R92, R95, R107, R142, R161, R162, R191, R197). -/
def Obligations.ResetTakesTheUnitsState : Prop :=
  Claims.ResetTakesTheUnitsState ∧ Claims.ResetTakesTheBooks

/-! ### The processor bus and the windows (chapter 1) -/

/-- While RESET is asserted no command but RESET and its release changes anything; a transaction is one at an
aligned address (DEDUCED, log 7). -/
def Sys2Proof.Claims.AssertedResetHoldsEveryCommand : Prop :=
  ∀ (s : State) (c : Instr), s.inReset = true → c ≠ .reset → (∀ straps, c ≠ .resetRelease straps) →
    (∀ addr, c = .hostRead addr → addr.toNat % 8 = 0) →
    (∀ addr mask data, c = .hostWriteArrival addr mask data → addr.toNat % 8 = 0) →
    exec c s = .next s

/-- A transaction at an address whose low three bits are not zero stops with a fault (R1; DESIGN CHOICE, log 5). -/
def Sys2Proof.Claims.UnalignedAddressIsNoTransaction : Prop :=
  ∀ (s : State) (addr : BitVec 64) (mask : ByteMask) (data : Dword), addr.toNat % 8 ≠ 0 →
    exec (.hostRead addr) s = .fault .unalignedAddress ∧
      exec (.hostWriteArrival addr mask data) s = .fault .unalignedAddress

/-- A host write that arrives on the idle bus waits for the bus and changes nothing else (R2). -/
def Sys2Proof.Claims.ArrivingWriteWaits : Prop :=
  ∀ (s : State) (addr : BitVec 64) (mask : ByteMask) (data : Dword), s.inReset = false →
    addr.toNat % 8 = 0 → s.path.bus = .idle →
    Gives (.hostWriteArrival addr mask data) s
      { s with path := { s.path with bus := .writeWaiting addr.toNat mask data } }

/-- A host read that arrives on the idle bus: held at a SUBMITTED slot's result doubleword whatever is pending
there, else answered from the newest pending entry, else waiting (R16, R17). -/
def Sys2Proof.Claims.ArrivingReadIsHeldAnsweredOrWaits : Prop :=
  ∀ (s : State) (addr : BitVec 64), s.inReset = false → addr.toNat % 8 = 0 → s.path.bus = .idle →
    (∀ n, regionAt s addr.toNat = some (.slotResult n) → s.posting.slots[n].state = .submitted →
      Gives (.hostRead addr) s { s with path := { s.path with bus := .readHeld addr.toNat n } }) ∧
    ((∀ n, regionAt s addr.toNat = some (.slotResult n) → s.posting.slots[n].state ≠ .submitted) →
      (∀ data, newestEntry s.path.queue addr.toNat = some data →
        Gives (.hostRead addr) s { s with path := { s.path with answer := some data } }) ∧
      (newestEntry s.path.queue addr.toNat = none →
        Gives (.hostRead addr) s { s with path := { s.path with bus := .readWaiting addr.toNat } }))

/-- What becomes of a host transaction at its arrival, and of commands under RESET. -/
def Obligations.ArrivingTransactionsWaitOrAreAnswered : Prop :=
  Claims.AssertedResetHoldsEveryCommand ∧ Claims.UnalignedAddressIsNoTransaction ∧
    Claims.ArrivingWriteWaits ∧ Claims.ArrivingReadIsHeldAnsweredOrWaits

/-- A waiting read is answered at its grant with the newest value of its doubleword, pending or in memory; the
streaks count the grant and the bus is free (R16, R19). -/
def Obligations.GrantedReadReturnsTheNewestValue : Prop :=
  ∀ (s : State) (addr : Nat), s.inReset = false → s.path.bus = .readWaiting addr →
    nextGrant s.path = some .host →
    Gives .hostReadGrant s
      { s with path := { hostGranted s.path with bus := .idle, answer := some (readValue s addr) } }

/-- The arbiter's order in NORMAL mode, and DRAIN mode (R19, R20). -/
def Sys2Proof.Claims.ArbiterOrder : Prop :=
  ∀ p : Path,
    (p.mode = .drain → p.queue ≠ [] → nextGrant p = some .inject) ∧
    (p.mode = .normal →
      (p.queue ≠ [] → p.injectStreak = 8 → nextGrant p = some .inject) ∧
      ((p.queue = [] ∨ p.injectStreak ≠ 8) →
        (p.fetches ≠ [] → p.fetchStreak = 8 → nextGrant p = some .fetch) ∧
        ((p.fetches = [] ∨ p.fetchStreak ≠ 8) →
          (hostWaits p = true → nextGrant p = some .host) ∧
          (hostWaits p = false →
            (p.queue ≠ [] → nextGrant p = some .inject) ∧
            (p.queue = [] → p.fetches ≠ [] → nextGrant p = some .fetch) ∧
            (p.queue = [] → p.fetches = [] → nextGrant p = none)))))

/-- A granted host write adds 1 to each streak counter whose requester waits, up to 8 (R19). -/
def Sys2Proof.Claims.HostGrantCountsTheStreaks : Prop :=
  ∀ p : Path,
    (hostGranted p).injectStreak =
      (if p.queue ≠ [] ∧ p.injectStreak < 8 then p.injectStreak + 1 else p.injectStreak) ∧
    (hostGranted p).fetchStreak =
      (if p.fetches ≠ [] ∧ p.fetchStreak < 8 then p.fetchStreak + 1 else p.fetchStreak) ∧
    { hostGranted p with injectStreak := p.injectStreak, fetchStreak := p.fetchStreak } = p

/-- Whom the arbiter hands the bus, and what a host grant counts (R19, R20). -/
def Obligations.ArbiterOrder : Prop :=
  Claims.ArbiterOrder ∧ Claims.HostGrantCountsTheStreaks

/-- A write transaction leaves its enabled lanes in memory and every other byte as it was (R1, R2). -/
def Obligations.WriteChangesItsEnabledLanesOnly : Prop :=
  ∀ (mem : List Host.Cell) (addr : Nat) (mask : ByteMask) (data : Dword) (a : Nat),
    Memory.wf mem = true →
    Memory.read (Memory.writeDword mem addr mask data) a =
      if addr ≤ a ∧ a < addr + 8 ∧ mask.getLsbD (a - addr) = true then lane data (a - addr)
      else Memory.read mem a

/-- A granted write outside every known window, or to the image area, the host area or a screen tail where it
passes, reaches memory and is captured by no block (R3, R6, R8; the row HOST_WRITE takes any waiting write, log
13). -/
def Sys2Proof.Claims.UncapturedWritePasses : Prop :=
  ∀ (s : State) (addr : Nat) (mask : ByteMask) (data : Dword), WriteGranted s addr mask data →
    writePasses s addr = true →
    (regionAt s addr = none ∨ regionAt s addr = some .image ∨ regionAt s addr = some .hostArea ∨
      regionAt s addr = some .screenTail) →
    Gives .hostWrite s (written s addr mask data)

/-- A granted argument write passes and is captured lane by lane, whatever the command state (R6, R192). -/
def Sys2Proof.Claims.ArgumentWriteIsCaptured : Prop :=
  ∀ (s : State) (addr : Nat) (mask : ByteMask) (data : Dword) (i : Fin 6), WriteGranted s addr mask data →
    regionAt s addr = some (.argument i) → pendingAt s addr = false →
    Gives .hostWrite s
      { written s addr mask data with
        control := { s.control with
          arguments := s.control.arguments.set i (mergeLanes mask s.control.arguments[i] data) } }

/-- A granted write to a screen row passes and marks that row of its position dirty (R8). -/
def Sys2Proof.Claims.ScreenRowWriteMarksTheRow : Prop :=
  ∀ (s : State) (addr : Nat) (mask : ByteMask) (data : Dword) (p : Fin 16) (r : Nat),
    WriteGranted s addr mask data → regionAt s addr = some (.screenRow p r) →
    pendingAt s addr = false →
    let q := s.screen.positions[p]
    Gives .screenRowWrite s
      (setPosition (written s addr mask data) p { q with dirty := q.dirty ||| BitVec.twoPow 24 r })

/-- A granted write to a consumer doubleword passes and sets that ring's consumer index by its lanes 0 and 1
(R9, R132). -/
def Sys2Proof.Claims.ConsumerWriteSetsTheIndex : Prop :=
  ∀ (s : State) (addr : Nat) (mask : ByteMask) (data : Dword) (p : Fin 16),
    WriteGranted s addr mask data → regionAt s addr = some (.consumer p) → pendingAt s addr = false →
    let q := s.screen.positions[p]
    ∃ t, exec .consumerIndexWrite s = .next t ∧
      books t = books (setPosition (written s addr mask data) p
        { q with consumer := t.screen.positions[p].consumer }) ∧
      journalWrites t.path = journalWrites s.path ∧
      (∀ i < 16, t.screen.positions[p].consumer.getLsbD i =
        if mask.getLsbD (i / 8) then data.getLsbD i else q.consumer.getLsbD i)

/-- A granted write that passes reaches memory, and the unit that captures it. -/
def Obligations.PassedWritesReachMemoryAndTheirUnit : Prop :=
  Claims.UncapturedWritePasses ∧ Claims.ArgumentWriteIsCaptured ∧ Claims.ScreenRowWriteMarksTheRow ∧
    Claims.ConsumerWriteSetsTheIndex

/-- Which region a doubleword of a known window lies in, by the window and the offset (1.2). -/
def Sys2Proof.Claims.RegionsStandAtTheirOffsets : Prop :=
  ∀ (s : State) (addr : Nat) (k : Fin 7) (o : Nat), windowAt s.path addr = some k →
    addr = s.path.windows[k].base + o → o % 8 = 0 →
    (k = 0 → o < 0x2000 →
      (o < 0x1800 → regionAt s addr = some .image) ∧
      (o = 0x1800 → regionAt s addr = some .command) ∧
      (∀ i : Fin 6, o = 0x1808 + 8 * i.val → regionAt s addr = some (.argument i)) ∧
      (o = 0x1838 → regionAt s addr = some .completion) ∧
      (0x1840 ≤ o → regionAt s addr = some .hostArea)) ∧
    (k = 1 → ∀ (n : Fin 16) (f : Nat), f < 0x80 → o = n.val * 0x80 + f →
      (f < 0x78 → regionAt s addr = some (.slotFields n f)) ∧
      (f = 0x78 → regionAt s addr = some (.slotResult n))) ∧
    (k = 2 → ∀ (p : Fin 16) (f : Nat), f < 0x1000 → o = p.val * 0x1000 + f →
      (∀ r < 23, r * 160 ≤ f → f < (r + 1) * 160 → regionAt s addr = some (.screenRow p r)) ∧
      (0xE60 ≤ f → f < 0xF00 → regionAt s addr = some .statusRow) ∧
      (0xF00 ≤ f → regionAt s addr = some .screenTail)) ∧
    (k = 3 → ∀ (p : Fin 16) (f : Nat), f < 0x40 → o = p.val * 0x40 + f →
      (f = 8 → regionAt s addr = some (.consumer p)) ∧
      (f ≠ 8 → regionAt s addr = some .keysOther)) ∧
    (4 ≤ k.val → regionAt s addr = some .partOwned)

/-- A doubleword's window is the first known one whose span from its base covers it; one in no known window has
no region (R3). -/
def Sys2Proof.Claims.WindowsCoverTheirSpans : Prop :=
  ∀ (s : State) (addr : Nat),
    let covers (k : Fin 7) : Prop := s.path.windows[k].known = true ∧ s.path.windows[k].base ≤ addr ∧
      addr < s.path.windows[k].base + s.path.windows[k].length
    (∀ k : Fin 7, windowAt s.path addr = some k → covers k) ∧
    (∀ k : Fin 7, covers k → (∀ j : Fin 7, j < k → ¬covers j) → windowAt s.path addr = some k) ∧
    ((∀ k : Fin 7, ¬covers k) → windowAt s.path addr = none) ∧
    (windowAt s.path addr = none → regionAt s addr = none)

/-- Where the regions of the part pass and suppress: the image area by the day state, the command doubleword by
the command state, a slot's host fields by its state; MIRROR, JOURNAL, CARRY, result, completion, producer and
key doublewords and the status row always suppress (R6 to R10). -/
def Sys2Proof.Claims.RegionsPassAsTheirRulesSay : Prop :=
  ∀ s : State,
    (regionPasses s .image = true ↔ s.day.state = .setup ∨ s.day.state = .settled) ∧
    (regionPasses s .command = true ↔ s.control.busy = false) ∧
    (∀ n o, regionPasses s (.slotFields n o) = true ↔ s.posting.slots[n].state ≠ .submitted) ∧
    (∀ i, regionPasses s (.argument i) = true) ∧ regionPasses s .hostArea = true ∧
    (∀ p r, regionPasses s (.screenRow p r) = true) ∧ regionPasses s .screenTail = true ∧
    (∀ p, regionPasses s (.consumer p) = true) ∧ regionPasses s .completion = false ∧
    (∀ n, regionPasses s (.slotResult n) = false) ∧ regionPasses s .statusRow = false ∧
    regionPasses s .keysOther = false ∧ regionPasses s .partOwned = false

/-- A granted write that its region suppresses leaves memory as it is and is counted in its window up to
FFFFFFFFh; the first since the reported flag was cleared sets the flag, raises WRITE_SUPPRESSED and hands over a
VIOLATION entry (R5, R10, R11). -/
def Sys2Proof.Claims.SuppressedWriteIsCounted : Prop :=
  ∀ (s : State) (addr : Nat) (mask : ByteMask) (data : Dword) (k : Fin 7), WriteGranted s addr mask data →
    mask ≠ 0 → writePasses s addr = false → windowAt s.path addr = some k →
    let counter := s.path.violations[k]
    let counted : State := { granted s with path := { (granted s).path with
      violations := s.path.violations.set k (if counter = 0xFFFFFFFF then counter else counter + 1),
      reported := s.path.reported.set k true } }
    Gives .hostWrite s
      (if s.path.reported[k] = true then counted
       else eventEntry (raiseAlert counted .writeSuppressed)
         { kind := 13, code := k.val, flags := mask.toNat, ref := addr })

/-- A write passes where no entry is pending at its doubleword, one that enables no lane among them (DESIGN CHOICE,
log 59), and its region, if it has one, lets it. One that a pending entry suppresses outside every known window
completes, leaves memory as it is, and is counted in no window (R5, R10; the row HOST_WRITE takes any waiting
write, log 13). -/
def Sys2Proof.Claims.PendingDoublewordSuppressesItsWrite : Prop :=
  ∀ (s : State) (addr : Nat) (mask : ByteMask) (data : Dword),
    let pending := ∃ e ∈ s.path.queue, e.addr = addr
    (pendingAt s addr = true ↔ pending) ∧
    (writePasses s addr = true ↔
      ¬pending ∧ ∀ r, regionAt s addr = some r → regionPasses s r = true) ∧
    (WriteGranted s addr mask data → pending → windowAt s.path addr = none →
      Gives .hostWrite s (granted s))

/-- Where each region stands, which regions suppress a write, and what a suppressed write leaves (R2 to R11). -/
def Obligations.SuppressedWriteIsCounted : Prop :=
  Claims.RegionsStandAtTheirOffsets ∧ Claims.WindowsCoverTheirSpans ∧ Claims.RegionsPassAsTheirRulesSay ∧
    Claims.SuppressedWriteIsCounted ∧ Claims.PendingDoublewordSuppressesItsWrite

/-- In KEYS the consumer doubleword's write passes and is captured, and a write to a producer or a key entry is
suppressed (R9; that the row HOST_WRITE takes such a write is DESIGN CHOICE, log 13). -/
def Obligations.KeysPassTheConsumerAlone : Prop :=
  ∀ (s : State) (addr : Nat) (mask : ByteMask) (data : Dword) (o : Nat), WriteGranted s addr mask data →
    mask ≠ 0 → pendingAt s addr = false → windowAt s.path addr = some 3 →
    addr = s.path.windows[3].base + o → o < 0x400 → o % 8 = 0 →
    (o % 0x40 = 8 →
      ∃ t, exec .hostWrite s = .next t ∧ t.mem = Memory.writeDword s.mem addr mask data ∧
        (mask.getLsbD 0 = true → mask.getLsbD 1 = true →
          t.screen.positions[Fin.ofNat 16 (o / 0x40)].consumer = data.setWidth 16)) ∧
    (o % 0x40 ≠ 8 → ∃ t, exec .hostWrite s = .next t ∧ t.mem = s.mem)

/-- The head of the Inject Queue drains at its grant: its doubleword reaches memory with every lane, it leaves
the queue, and the inject streak returns to 0. The oldest waiting group is placed at the tail where the drain
leaves room for it, and goes on waiting otherwise (R13, R15, R19). -/
def Sys2Proof.Claims.DrainWritesTheHead : Prop :=
  ∀ (s : State) (e : InjectEntry) (rest : List InjectEntry), s.inReset = false →
    nextGrant s.path = some .inject → s.path.queue = e :: rest →
    let t : State := { s with path := { s.path with queue := rest, injectStreak := 0 },
                              mem := Memory.writeDword s.mem e.addr (BitVec.allOnes 8) e.data }
    (drainPlacesNone s.path → Gives .injectDrain s t) ∧
    (∀ g waiting, s.path.waiting = g :: waiting → rest.length + g.writes.length ≤ 32 →
      (∀ h ∈ waiting.head?, 32 < rest.length + g.writes.length + h.writes.length) →
      Gives .injectDrain s
        { t with
          path := { t.path with queue := rest ++ groupEntries g.writes, waiting := waiting },
          control := controlPlaced s.control g.producer, day := dayPlaced s.day g.producer })

/-- A drain that places no group moves a value from the queue to memory: what a read of any doubleword would
return stays the same (R15, R16). -/
def Sys2Proof.Claims.DrainKeepsEveryReadValue : Prop :=
  ∀ (s : State) (a : Nat), Memory.wf s.mem = true → (∀ e ∈ s.path.queue, e.addr % 8 = 0) → a % 8 = 0 →
    drainPlacesNone s.path → readValue (drainHead s) a = readValue s a

/-- DRAIN is left by the drain that leaves occupancy at 8 or below, and by no other (R20); a group that the drain
places may bring it back at an occupancy of 24. -/
def Sys2Proof.Claims.DrainModeEndsAtEight : Prop :=
  ∀ s : State, s.path.mode = .drain → s.path.queue ≠ [] →
    (drainPlacesNone s.path →
      ((drainHead s).path.mode = .normal ↔ (drainHead s).path.queue.length ≤ 8)) ∧
    ((drainHead s).path.mode = .normal →
      s.path.queue.length ≤ 9 ∧ (drainHead s).path.queue.length < 24) ∧
    (9 < s.path.queue.length → (drainHead s).path.mode = .drain)

/-- What the placing of a group tells its producer: a final completion's ends the command, its status IDLE and no
command taken; a settlement record's counts towards the 16 of its write; any other's tells nothing, and neither
does a group that has to wait (R174, R193). -/
def Sys2Proof.Claims.PlacingTellsItsProducer : Prop :=
  (∀ (s : State) (g : Group), s.path.waiting = [] → s.path.queue.length + g.writes.length ≤ 32 →
    (handGroup s g).control = controlPlaced s.control g.producer ∧
      (handGroup s g).day = dayPlaced s.day g.producer) ∧
  (∀ (s : State) (g : Group), g.writes ≠ [] →
    ¬(s.path.waiting = [] ∧ s.path.queue.length + g.writes.length ≤ 32) →
    (handGroup s g).control = s.control ∧ (handGroup s g).day = s.day) ∧
  ∀ (c : Control) (d : Day) (p : Producer),
    controlPlaced c p = (if p = .completion true then { c with busy := false, taken := none } else c) ∧
    dayPlaced d p = (if p = .settlement then
      { d with settlement := d.settlement.map fun w => { w with placed := w.placed + 1 } } else d)

/-- The drain of the Inject Queue, and what a placing tells its producer (R15, R16, R20, R174, R193). -/
def Obligations.DrainsKeepWhatReadsReturn : Prop :=
  Claims.DrainWritesTheHead ∧ Claims.DrainKeepsEveryReadValue ∧ Claims.DrainModeEndsAtEight ∧
    Claims.PlacingTellsItsProducer

/-- A group is placed whole, at the tail and in its own order, when no group waits and the room suffices;
otherwise it waits behind the others (R13). -/
def Sys2Proof.Claims.GroupIsPlacedWholeOrWaits : Prop :=
  ∀ (s : State) (g : Group),
    (s.path.waiting = [] ∧ s.path.queue.length + g.writes.length ≤ 32 →
      (handGroup s g).path.queue = s.path.queue ++ groupEntries g.writes ∧
        (handGroup s g).path.waiting = []) ∧
    (¬(s.path.waiting = [] ∧ s.path.queue.length + g.writes.length ≤ 32) → g.writes ≠ [] →
      (handGroup s g).path.queue = s.path.queue ∧
        (handGroup s g).path.waiting = s.path.waiting ++ [g])

/-- Where the room is there, the oldest waiting group is placed at the tail and the younger ones go on waiting
(R13; the row as its own step, log 12). -/
def Sys2Proof.Claims.OldestWaitingGroupIsPlaced : Prop :=
  ∀ (s : State) (g : Group) (rest : List Group), s.inReset = false → s.path.waiting = g :: rest →
    s.path.queue.length + g.writes.length ≤ 32 →
    (∀ h ∈ rest.head?, 32 < s.path.queue.length + g.writes.length + h.writes.length) →
    Gives .placeWaitingGroup s
      { s with
        path := { s.path with queue := s.path.queue ++ groupEntries g.writes, waiting := rest },
        control := controlPlaced s.control g.producer, day := dayPlaced s.day g.producer }

/-- PLACE_WAITING_GROUP as the drain that leaves room for the oldest waiting group: the head reaches memory, and
the group is placed at the tail (R13, R15; log 12). -/
def Sys2Proof.Claims.DrainThatLeavesRoomPlacesTheGroup : Prop :=
  ∀ (s : State) (e : InjectEntry) (queue : List InjectEntry) (g : Group) (rest : List Group),
    s.inReset = false → nextGrant s.path = some .inject → s.path.queue = e :: queue →
    s.path.waiting = g :: rest → g.writes ≠ [] → queue.length + g.writes.length = 32 →
    (∀ h ∈ rest, h.writes ≠ []) →
    Gives .placeWaitingGroup s
      { s with
        path := { s.path with queue := queue ++ groupEntries g.writes, waiting := rest, injectStreak := 0 },
        mem := Memory.writeDword s.mem e.addr (BitVec.allOnes 8) e.data,
        control := controlPlaced s.control g.producer, day := dayPlaced s.day g.producer }

/-- Journal-class groups at their hand-over, while they wait, and at their placing (R13, R174, R193). -/
def Obligations.GroupsArePlacedWholeAndInOrder : Prop :=
  Claims.GroupIsPlacedWholeOrWaits ∧ Claims.OldestWaitingGroupIsPlaced ∧
    Claims.DrainThatLeavesRoomPlacesTheGroup ∧ Claims.PlacingTellsItsProducer

/-- A mirror-class write replaces the pending entry at its address in place; without one it joins the tail when
occupancy is below 24 and no group waits, and is refused otherwise (R14). -/
def Obligations.MirrorWriteReplacesJoinsOrIsRefused : Prop :=
  ∀ (p : Path) (addr : Nat) (data : Dword),
    (∀ (a b : List InjectEntry) (d : Dword), p.queue = a ++ ⟨addr, d, .mirror⟩ :: b →
      (∀ e ∈ a ++ b, e.cls = .mirror → e.addr ≠ addr) →
      mirrorWrite p addr data = ({ p with queue := a ++ ⟨addr, data, .mirror⟩ :: b }, true)) ∧
    ((∀ e ∈ p.queue, e.cls = .mirror → e.addr ≠ addr) →
      (p.queue.length < 24 ∧ p.waiting = [] →
        (mirrorWrite p addr data).1.queue = p.queue ++ [⟨addr, data, .mirror⟩] ∧
          (mirrorWrite p addr data).2 = true) ∧
      (¬(p.queue.length < 24 ∧ p.waiting = []) → mirrorWrite p addr data = (p, false)))

/-- A grant to the Fetch Port answers the current doubleword from the newest entry pending there, else from
memory, hands it to its client and goes on to the next doubleword, with the fetch streak at 0 (R18, R19). -/
def Sys2Proof.Claims.FetchGrantAnswersTheCurrentDoubleword : Prop :=
  ∀ (s : State) (r : FetchRequest) (rest : List FetchRequest), s.inReset = false →
    nextGrant s.path = some .fetch → s.path.fetches = r :: rest → 1 < r.left →
    newestEntry s.path.queue (r.next + 8) = none →
    let data := readValue s r.next
    let ahead := { r with next := r.next + 8, left := r.left - 1 } :: rest
    ∃ t, exec .fetchGrant s = .next t ∧ books t = books s ∧ t.path.fetchStreak = 0 ∧
      (∀ words, r.client = .control → s.control.image = some words → words.length % 32 < 31 →
        t.control.image = some (data :: words) ∧ t.path.fetches = ahead) ∧
      (∀ d, r.client = .drop d →
        t.screen.controllers[d].row = s.screen.controllers[d].row ++ [data] ∧ t.path.fetches = ahead) ∧
      (∀ f, r.client = .posting → s.posting.reversal = some f → f.words.length ≠ 7 →
        t.posting.reversal = some { f with words := f.words ++ [data] } ∧ t.path.fetches = ahead) ∧
      (∀ requester chain, r.client = .journal → s.journal.serving = some requester →
        (runOf s.journal requester).bind (·.chain) = some chain →
        t.journal.buffer = s.journal.buffer ++ [data] ∧ t.path.fetches = ahead) ∧
      (r.client = .day → s.day.records[0].words.length < 512 → s.day.records[0].words.length % 32 < 31 →
        t.day.records[0].words = data :: s.day.records[0].words ∧ t.path.fetches = ahead) ∧
      (r.client = .day → 512 ≤ s.day.records[0].words.length → s.day.records[1].words.length % 32 < 31 →
        t.day.records[1].words = data :: s.day.records[1].words ∧ t.path.fetches = ahead)

/-- The grant of a request's last doubleword hands it over and ends the request, with the fetch streak at 0. A
client whose data goes on makes its next request behind those that wait: the 32 doublewords of the image that
follow, up to 24 requests; those of carry-forward copy 0, then copy 1; the predecessor's last doubleword for an
entry at ring position 0; and, for a run that has its predecessor's chain, up to four entries not past the ring's
end or the run's last number (R18, R19, R27, R119, R128, R167, R194; entry first, DEDUCED, log 17). -/
def Sys2Proof.Claims.LastDoublewordEndsTheRequest : Prop :=
  ∀ (s : State) (r : FetchRequest) (rest : List FetchRequest), s.inReset = false →
    nextGrant s.path = some .fetch → s.path.fetches = r :: rest → r.left = 1 →
    let data := readValue s r.next
    let waits (asked : List FetchRequest) : Prop :=
      ∀ q ∈ (rest ++ asked).head?, newestEntry s.path.queue q.next = none
    let next (more : Bool) (q : FetchRequest) := if more = true then [q] else []
    ∃ t, exec .fetchGrant s = .next t ∧ books t = books s ∧ t.path.fetchStreak = 0 ∧
      (∀ d, r.client = .drop d → waits [] →
        t.screen.controllers[d].row = s.screen.controllers[d].row ++ [data] ∧ t.path.fetches = rest) ∧
      (∀ f, r.client = .posting → s.posting.reversal = some f →
        let asked := next (f.wrapped && f.words.length == 7)
          ⟨.posting, ringAddress s (ringSize s - 1) + 0x38, 1⟩
        waits asked → t.posting.reversal = some { f with words := f.words ++ [data] } ∧
          t.path.fetches = rest ++ asked) ∧
      (∀ u chain, r.client = .journal → s.journal.runs = [u] → s.journal.serving = some u.requester →
        u.chain = some chain → waits [] →
        t.journal.buffer = s.journal.buffer ++ [data] ∧ t.path.fetches = rest) ∧
      (∀ u, r.client = .journal → s.journal.runs = [u] → u.started = true →
        s.journal.serving = some u.requester → u.chain = none →
        let last := u.last.getD (ringSize s)
        let entries := min (min 4 (ringSize s - ringPosition s u.next)) (last + 1 - u.next)
        let asked : List FetchRequest := [⟨.journal, ringAddress s (ringPosition s u.next), 8 * entries⟩]
        waits asked → t.journal.runs = [{ u with chain := some (BitVec.ofNat 32 (laneField data 4 4)) }] ∧
          t.journal.buffer = [] ∧ t.path.fetches = rest ++ asked) ∧
      (∀ words, r.client = .control → s.control.image = some words →
        let n := words.length + 1
        let asked := next (n % 32 == 0 && decide (n < 768)) ⟨.control, windowBase s 0 + 8 * n, 32⟩
        waits asked → t.control.image = some (data :: words) ∧ t.path.fetches = rest ++ asked) ∧
      (r.client = .day → s.day.records[0].words.length < 512 →
        let n := s.day.records[0].words.length + 1
        let asked := next (n % 32 == 0)
          (if n < 512 then ⟨.day, windowBase s 6 + 8 * n, 32⟩ else ⟨.day, windowBase s 6 + 0x1000, 32⟩)
        waits asked →
          t.day.records[0].words = data :: s.day.records[0].words ∧ t.path.fetches = rest ++ asked) ∧
      (r.client = .day → 512 ≤ s.day.records[0].words.length →
        let n := s.day.records[1].words.length + 1
        let asked := next (n % 32 == 0 && decide (n < 512)) ⟨.day, windowBase s 6 + 0x1000 + 8 * n, 32⟩
        waits asked →
          t.day.records[1].words = data :: s.day.records[1].words ∧ t.path.fetches = rest ++ asked)

/-- The requests that a command begins with: APPLY_CONFIG's image and the first carry-forward copy of OPEN_DAY and
RESUME_DAY, 32 doublewords from their windows' bases, and CHECK_JOURNAL's first entries, up to four not past the
ring's end (R119, R121, R167, R194). -/
def Sys2Proof.Claims.CommandsRequestTheirData : Prop :=
  ∀ (s : State) (addr : Nat) (mask : ByteMask) (data : Dword), s.path.fetches = [] →
    let asks (c : Instr) (q : FetchRequest) : Prop :=
      newestEntry (complete (commandTaken s addr mask data) .inProgress 0).path.queue q.next = none →
      ∃ t, exec c s = .next t ∧ t.path.fetches = [q]
    let date := laneField s.control.arguments[0] 0 4
    let valid := 1 ≤ date / 100 % 100 ∧ date / 100 % 100 ≤ 12 ∧ 1 ≤ date % 100 ∧ date % 100 ≤ 31
    let entries := min (min 4 (ringSize s - ringPosition s 1)) (s.journal.next - 1)
    (CommandGiven s addr mask data 1 → s.day.state = .setup ∨ s.day.state = .settled →
      s.day.settlement = none → asks .applyConfig ⟨.control, windowBase s 0, 32⟩) ∧
    (CommandGiven s addr mask data 2 → s.day.state = .setup ∨ s.day.state = .settled →
      s.day.settlement = none → s.control.config ≠ none → valid →
      laneField s.control.arguments[1] 0 4 < 172800 → laneField s.control.arguments[2] 0 1 = 0 →
      asks .openDay ⟨.day, windowBase s 6, 32⟩) ∧
    (CommandGiven s addr mask data 3 → s.day.state = .setup → s.control.config ≠ none →
      laneField s.control.arguments[0] 0 4 < 172800 → asks .resumeDay ⟨.day, windowBase s 6, 32⟩) ∧
    (CommandGiven s addr mask data 14 → s.day.state ≠ .recovering → s.journal.present = true →
      s.journal.runs = [] → s.journal.serving = none → journalUnitFree s = true →
      asks .checkJournal ⟨.journal, ringAddress s (ringPosition s 1), 8 * entries⟩)

/-- A run whose answer the Journal Unit had deferred begins with its first entries, up to four not past the ring's
end or its last number, or with the last doubleword of their predecessor where it has no check chain (R106, R119). -/
def Sys2Proof.Claims.DeferredRunMakesItsRequest : Prop :=
  ∀ (s : State) (r : Run), s.inReset = false → s.path.fetches = [] → s.journal.runs = [r] →
    s.journal.serving = none → s.posting.reversal = none → journalUnitFree s = true →
    let last := r.last.getD (ringSize s)
    let entries := min (min 4 (ringSize s - ringPosition s r.next)) (last + 1 - r.next)
    let asked : FetchRequest :=
      if r.chain = none then ⟨.journal, ringAddress s (ringPosition s (r.next - 1)) + 0x38, 1⟩
      else ⟨.journal, ringAddress s (ringPosition s r.next), 8 * entries⟩
    newestEntry s.path.queue asked.next = none →
    ∃ t, exec .ringPositionAnswer s = .next t ∧ t.journal.runs = [{ r with started := true }] ∧
      t.journal.serving = some r.requester ∧ t.path.fetches = [asked]

/-- A visit of a PRESENT terminal with a dirty row and nothing pending takes the row: rows 0 to 22 are fetched from
their page, 20 doublewords, and row 23 comes from its composition (R128). -/
def Sys2Proof.Claims.VisitTakesItsRow : Prop :=
  ∀ (s : State) (d : Fin 2) (p : Fin 16) (rest : List (Fin 16)) (n : Nat), s.inReset = false →
    s.path.fetches = [] → s.screen.controllers[d].mode = .cycling → s.screen.controllers[d].exchange = none →
    s.configuration.linePositions d = p :: rest → s.screen.positions[p].state = .present →
    s.screen.positions[p].bell = false → s.screen.positions[p].echo = false →
    rowToSend s.screen.positions[p].dirty = some n →
    newestEntry s.path.queue (windowBase s 2 + p.val * 0x1000 + n * 0xA0) = none →
    ∃ t, exec (.cycleStart d) s = .next t ∧
      t.screen.controllers[d].exchange = some ⟨p, .row false, .filling⟩ ∧
      t.screen.controllers[d].rowNumber = n ∧
      t.screen.controllers[d].row =
        (if n = 23 then dwordsOfBytes 20 (s.screen.positions[p].composition.getD []) else []) ∧
      t.path.fetches =
        (if n = 23 then [] else [⟨.drop d, windowBase s 2 + p.val * 0x1000 + n * 0xA0, 20⟩])

/-- The Journal Unit's deferred answer of the ring position starts the head's reversal fetch: nine doublewords
from the predecessor's last, or the entry's eight first at ring position 0 (R27, R106; the order at position 0 is
DEDUCED, log 17). -/
def Sys2Proof.Claims.RingPositionAnswerStartsTheFetch : Prop :=
  ∀ (s : State) (n : Nat), s.inReset = false → s.path.queue = [] → s.path.fetches = [] →
    journalUnitFree s = true → s.journal.runs = [] → s.posting.reversal = some ⟨n, false, false, []⟩ →
    ∃ t, exec .ringPositionAnswer s = .next t ∧ books t = books { s with posting := { s.posting with
        reversal := some ⟨n, true, ringPosition s n == 0, []⟩ } } ∧
      t.path.fetches =
        [if ringPosition s n = 0 then ⟨.posting, ringAddress s 0, 8⟩
         else ⟨.posting, ringAddress s (ringPosition s n) - 8, 9⟩]

/-- The Fetch Port's grants, its clients' requests, and the reversal fetch (R18, R27, R106, R119, R128, R167,
R194). -/
def Obligations.FetchesReachTheirClients : Prop :=
  Claims.FetchGrantAnswersTheCurrentDoubleword ∧ Claims.LastDoublewordEndsTheRequest ∧
    Claims.CommandsRequestTheirData ∧ Claims.DeferredRunMakesItsRequest ∧ Claims.VisitTakesItsRow ∧
    Claims.RingPositionAnswerStartsTheFetch

/-! ### Slots, postings and totals (chapters 2 to 4) -/

/-- A passing write to a slot's host fields that is no commit is captured by byte lane, and the slot is FILLING,
from FILLING or DONE alike (R7, R22, R23). -/
def Sys2Proof.Claims.SlotWriteIsCapturedByLane : Prop :=
  ∀ (s : State) (addr : Nat) (mask : ByteMask) (data : Dword) (n : Fin 16) (o : Nat),
    WriteGranted s addr mask data → regionAt s addr = some (.slotFields n o) → pendingAt s addr = false →
    s.posting.slots[n].state ≠ .submitted → ¬(o = 0x70 ∧ lowLanes mask = true) →
    ∃ t, exec .slotFieldWrite s = .next t ∧
      books t = books { written s addr mask data with posting := { s.posting with
        slots := s.posting.slots.set n ⟨t.posting.slots[n].buffer, .filling⟩ } } ∧
      journalWrites t.path = journalWrites s.path ∧
      (∀ j < 120, t.posting.slots[n].buffer.getD j 0 =
        if o ≤ j ∧ j < o + 8 ∧ mask.getLsbD (j - o) = true then lane data (j - o)
        else s.posting.slots[n].buffer.getD j 0)

/-- A commit takes the enabled lanes into its slot's buffer and reaches memory. With the submit code the slot is
SUBMITTED and joins the Submit Queue, marked when the day is OPEN; on an empty queue it becomes the head, with the
head's need and fetch. With any other code the slot is FILLING and the queue is as it was. Nothing else changes
(R7, R23, R24, R26, R27). -/
def Sys2Proof.Claims.CommitSubmitsTheSlot : Prop :=
  ∀ (s : State) (addr : Nat) (mask : ByteMask) (data : Dword) (n : Fin 16),
    WriteGranted s addr mask data → regionAt s addr = some (.slotFields n 0x70) → pendingAt s addr = false →
    s.posting.slots[n].state ≠ .submitted → lowLanes mask = true →
    ∃ buffer : List Byte,
      (∀ j < 120, buffer.getD j 0 =
        if 0x70 ≤ j ∧ mask.getLsbD (j - 0x70) = true then lane data (j - 0x70)
        else s.posting.slots[n].buffer.getD j 0) ∧
      let filled (state : SlotState) (queue : List SubmitEntry) : State :=
        { written s addr mask data with posting := { s.posting with
            slots := s.posting.slots.set n ⟨buffer, state⟩, queue := queue } }
      let queued := filled .submitted (s.posting.queue ++ [⟨n, s.day.state == .opened⟩])
      (laneField data 0 4 = 0x54534F50 → s.posting.queue ≠ [] → GivesAsking .commit s queued) ∧
      (laneField data 0 4 = 0x54534F50 → s.posting.queue = [] → GivesAsking .commit s (newHead queued)) ∧
      (laneField data 0 4 ≠ 0x54534F50 → GivesAsking .commit s (filled .filling s.posting.queue))

/-- What becoming head does: the entry's need, 17 doublewords for a kind with a BREAKDOWN and for a REVERSAL, else
9; and for a REVERSAL in OPEN, under the mark or in CLOSING (DEDUCED, log 36) whose reverse_ref lies in 2 up to the
last numbered entry, its ring position asked for and, where the Journal Unit answers, its fetch requested: nine
doublewords from the predecessor's last, or at ring position 0 the entry's eight first (DEDUCED, log 17). While the
unit does not answer, the request waits for it. Behind a verdict the day state is the one after the test of the
move to SENDING (DESIGN CHOICE, log 49) (R18, R26, R27, R106, R108). -/
def Sys2Proof.Claims.NewHeadTakesItsNeedAndFetch : Prop :=
  ∀ s : State,
    (s.posting.queue = [] →
      newHead s = { s with posting := { s.posting with need := none, reversal := none } }) ∧
    ∀ e rest, s.posting.queue = e :: rest →
      let f := slotFieldsOf s e.slot
      let fetches := f.kind = 7 ∧ (e.marked = true ∨ s.day.state = .opened ∨ s.day.state = .closing) ∧
        2 ≤ f.reverseRef ∧ f.reverseRef + 1 ≤ s.journal.next
      let position := ringPosition s f.reverseRef
      let headed (reversal : Option ReversalFetch) : State := { s with posting := { s.posting with
        need := some (if f.kind ∈ [1, 2, 3, 4, 6, 7] then 17 else 9), reversal := reversal } }
      let asking (r : FetchRequest) (s : State) : State := { s with path := { s.path with
        fetches := s.path.fetches ++ [r],
        fetchWaits := if s.path.fetches = [] then false else s.path.fetchWaits } }
      (¬fetches → newHead s = headed none) ∧
      (fetches → journalUnitFree s = false →
        newHead s = headed (some ⟨f.reverseRef, false, false, []⟩)) ∧
      (fetches → journalUnitFree s = true → position = 0 →
        newHead s = asking ⟨.posting, ringAddress s 0, 8⟩ (headed (some ⟨f.reverseRef, true, true, []⟩))) ∧
      (fetches → journalUnitFree s = true → position ≠ 0 →
        newHead s = asking ⟨.posting, ringAddress s position - 8, 9⟩
          (headed (some ⟨f.reverseRef, true, false, []⟩)))

/-- The fields a slot is judged by stand at their offsets in its buffer, each of its width and low byte first,
amounts and balance in two's complement (R22, 13.1). -/
def Sys2Proof.Claims.SlotFieldsStandAtTheirOffsets : Prop :=
  ∀ (s : State) (n : Fin 16),
    let b := s.posting.slots[n].buffer
    let f := slotFieldsOf s n
    let signed (x : Int) (offset : Nat) : Prop :=
      -2 ^ 63 ≤ x ∧ x < 2 ^ 63 ∧ x % 2 ^ 64 = uintAt b offset 8
    f.tag = uintAt b 0x00 4 ∧ f.kind = uintAt b 0x04 1 ∧ f.position = uintAt b 0x05 1 ∧
    f.holderA = uintAt b 0x06 1 ∧ f.holderB = uintAt b 0x07 1 ∧ f.currencyA = uintAt b 0x08 1 ∧
    f.currencyB = uintAt b 0x09 1 ∧ f.passbook = uintAt b 0x0A 1 ∧ f.direction = uintAt b 0x0B 1 ∧
    f.date = uintAt b 0x0C 4 ∧ signed f.amountA 0x10 ∧ signed f.amountB 0x18 ∧ f.rate = uintAt b 0x20 8 ∧
    f.account = uintAt b 0x28 8 ∧ signed f.balance 0x30 ∧ f.reverseRef = uintAt b 0x38 4 ∧
    f.teller = uintAt b 0x3C 4 ∧ f.breakdownA = (List.range 12).map (fun d => uintAt b (0x40 + 2 * d) 2) ∧
    f.breakdownB = (List.range 12).map (fun d => uintAt b (0x58 + 2 * d) 2) ∧
    f.submitCode = uintAt b 0x70 4 ∧ f.tagCopy = uintAt b 0x74 4

/-- A slot's host fields, where they stand, its commit, and what becoming head does (R7, R22 to R24, R26, R27,
13.1). -/
def Obligations.SlotsAreFilledAndCommitted : Prop :=
  Claims.SlotWriteIsCapturedByLane ∧ Claims.CommitSubmitsTheSlot ∧ Claims.NewHeadTakesItsNeedAndFetch ∧
    Claims.SlotFieldsStandAtTheirOffsets

/-- The first failing check gives the reason: a tag copy that differs before the day state, the day state before
the fields, the fields before the business date (R29, R30). -/
def Sys2Proof.Claims.EarlierChecksDecide : Prop :=
  ∀ (s : State) (e : SubmitEntry),
    let f := slotFieldsOf s e.slot
    let form := judgedForm s f
    (f.tagCopy ≠ f.tag → verdict s e = some .tagMismatch) ∧
    (f.tagCopy = f.tag → kindPermitted (judgedState s e) f.kind = false → verdict s e = some .dayState) ∧
    (f.tagCopy = f.tag → kindPermitted (judgedState s e) f.kind = true →
      fieldsFit s.configuration e.slot form f = false → verdict s e = some .badField) ∧
    (f.tagCopy = f.tag → kindPermitted (judgedState s e) f.kind = true →
      fieldsFit s.configuration e.slot form f = true → f.date ≠ s.day.date → verdict s e = some .wrongDate)

/-- With checks 1 to 4 passed, the first of checks 5 to 14 that fails gives the reason, in their order; none
fails, and the posting is accepted (R29, R32, R33, R34). -/
def Sys2Proof.Claims.LaterChecksDecide : Prop :=
  ∀ (s : State) (e : SubmitEntry),
    let f := slotFieldsOf s e.slot
    let form := judgedForm s f
    let m := slotMovement s e f
    let named := namedHolders form f
    f.tagCopy = f.tag → kindPermitted (judgedState s e) f.kind = true →
    fieldsFit s.configuration e.slot form f = true → f.date = s.day.date →
    verdict s e =
      if roleFits s.configuration e.slot form f = false then some .notPermitted
      else if ∃ h ∈ named, s.totals.flags[h].balanced = true then some .holderClosed
      else if ∃ h ∈ named, s.totals.flags[h].held = true ∧ holdBlocks f.kind form f h = true then
        some .holderHeld
      else if ∃ n ∈ readRecords m, recordVerifies (recordOf s.totals n.1 n.2) = false then
        some .totalsFault
      else if amountTests s.configuration form f ≠ none then amountTests s.configuration form f
      else if f.kind = 4 ∧ f.amountB ≠ (slotPayable s.configuration f : Int) then some .exchangeMismatch
      else if f.kind = 7 ∧ reversalTests s f ≠ none then reversalTests s f
      else if ∃ n ∈ resultingCounts s.totals m, n < 0 then some .shortNotes
      else if ∃ n ∈ resultingCounts s.totals m, 65535 < n then some .countRange
      else if s.journal.free ≤ 64 then some .journalFull
      else none

/-- Check 3 for kinds 1 to 6: the slot's own enabled position, and the form of the kind (R31, R41, R42). -/
def Sys2Proof.Claims.FieldsFitTheKind : Prop :=
  ∀ (c : Configuration) (n : Fin 16) (form : Nat) (f : SlotFields), f.kind ≠ 7 →
    let active (h : Nat) := ∃ i : Fin 17, h = i.val ∧ c.holderActive i = true
    let used (k : Nat) (counts : List Nat) := ∃ i : Fin 4, k = i.val ∧ c.hasCurrency i = true ∧
      ∀ x ∈ counts.drop c.currencies[i].denominations, x = 0
    let zero (counts : List Nat) := ∀ x ∈ counts, x = 0
    let account (lowest : Nat) := lowest ≤ f.account ∧ f.account ≤ 999999999999 ∧
      -999999999999 ≤ f.balance ∧ f.balance ≤ 999999999999
    let plain := f.holderB = 0 ∧ f.currencyB = 0 ∧ zero f.breakdownB ∧ f.amountB = 0 ∧ f.rate = 0
    let noAccount := f.passbook = 0 ∧ f.account = 0 ∧ f.balance = 0
    (fieldsFit c n form f = true ↔
      f.position = n.val + 1 ∧ c.positionEnabled n = true ∧ f.reverseRef = 0 ∧
      used f.currencyA f.breakdownA ∧ (f.kind ≠ 5 → active f.holderA) ∧ (f.kind ≠ 5 → f.direction = 0) ∧
      ((f.kind = 1 ∨ f.kind = 2) ∧ plain ∧ f.passbook ≤ 1 ∧ account f.passbook ∨
        f.kind = 3 ∧ active f.holderB ∧ f.holderB ≠ f.holderA ∧ f.currencyB = 0 ∧ zero f.breakdownB ∧
          f.amountB = 0 ∧ f.rate = 0 ∧ noAccount ∨
        f.kind = 4 ∧ f.holderB = f.holderA ∧ used f.currencyB f.breakdownB ∧
          f.currencyB ≠ f.currencyA ∧ 1 ≤ f.rate ∧ f.rate ≤ 999999999999 ∧ noAccount ∨
        f.kind = 5 ∧ f.holderA = 0 ∧ zero f.breakdownA ∧ plain ∧ (f.direction = 1 ∨ f.direction = 2) ∧
          f.passbook ≤ 1 ∧ account 1 ∨
        f.kind = 6 ∧ plain ∧ noAccount))

/-- Check 3 for a REVERSAL: the slot's own enabled position, its fields in range, breakdowns of configured
denominations, and no inactive holder among those its original's form names (R31, R55, R76; a direction of 0, 1 or
2 is DEDUCED, log 18, and the inactive holders too, log 20). -/
def Sys2Proof.Claims.ReversalFieldsFit : Prop :=
  ∀ (c : Configuration) (n : Fin 16) (form : Nat) (f : SlotFields), f.kind = 7 →
    let belongs (k : Nat) (counts : List Nat) := (∀ x ∈ counts, x = 0) ∨
      ∃ i : Fin 4, k = i.val ∧ c.hasCurrency i = true ∧
        ∀ x ∈ counts.drop c.currencies[i].denominations, x = 0
    (fieldsFit c n form f = true ↔
      f.position = n.val + 1 ∧ c.positionEnabled n = true ∧ f.passbook ≤ 1 ∧ f.direction ≤ 2 ∧
      f.holderA ≤ 16 ∧ f.holderB ≤ 16 ∧ f.currencyA ≤ 3 ∧ f.currencyB ≤ 3 ∧ f.rate ≤ 999999999999 ∧
      f.account ≤ 999999999999 ∧ -999999999999 ≤ f.balance ∧ f.balance ≤ 999999999999 ∧
      belongs f.currencyA f.breakdownA ∧ belongs f.currencyB f.breakdownB ∧
      ∀ h ∈ namedHolders form f, c.holderActive h = true)

/-- Checks 5 and 7: a SUPERVISOR's slot may name active holders; a TELLER's its own, and in a TRANSFER the vault
as the other side. A hold blocks every kind but COUNT, NONCASH and a TRANSFER with the vault (R32). -/
def Sys2Proof.Claims.RoleAndHoldJudgeTheNamedHolders : Prop :=
  ∀ (c : Configuration) (n : Fin 16) (form : Nat) (f : SlotFields) (a b : Fin 17),
    f.holderA = a.val → f.holderB = b.val →
    let own : Fin 17 := n.succ
    (form = 3 → namedHolders form f = [a, b]) ∧
    (form = 1 ∨ form = 2 ∨ form = 4 ∨ form = 6 → namedHolders form f = [a]) ∧
    (form = 0 ∨ form = 5 → namedHolders form f = []) ∧
    (c.positions[n].role = 2 →
      (roleFits c n form f = true ↔ ∀ h ∈ namedHolders form f, c.holderActive h = true)) ∧
    (c.positions[n].role = 1 → form ≠ 3 →
      (roleFits c n form f = true ↔ ∀ h ∈ namedHolders form f, h = own)) ∧
    (c.positions[n].role = 1 → form = 3 →
      (roleFits c n form f = true ↔ a = own ∧ b = 0 ∨ a = 0 ∧ b = own)) ∧
    (∀ h, (f.kind = 1 ∨ f.kind = 2 ∨ f.kind = 4 ∨ f.kind = 7) → holdBlocks f.kind form f h = true) ∧
    (∀ h, f.kind = 6 → holdBlocks f.kind form f h = false) ∧
    (f.kind = 3 → form = 3 → a ≠ b → (holdBlocks f.kind form f a = true ↔ b ≠ 0) ∧
      (holdBlocks f.kind form f b = true ↔ a ≠ 0))

/-- Check 9 in its order: an amount out of range, then the sum of its breakdown, and for an EXCHANGE the payable
and the second amount with its sum (R62, R63). -/
def Sys2Proof.Claims.AmountsAreTestedInOrder : Prop :=
  ∀ (c : Configuration) (f : SlotFields) (a b : Fin 4), f.currencyA = a.val → f.currencyB = b.val →
    let range (lowest x : Int) : Option Reason :=
      if lowest ≤ x ∧ x ≤ 999999999999 then none else some .amountRange
    let sum (k : Fin 4) (counts : List Nat) (x : Int) : Option Reason :=
      let total : Nat := (List.zipWith (· * ·) counts (c.faces k)).sum
      if 999999999999 < total then some .amountRange
      else if (total : Int) ≠ x then some .breakdownMismatch else none
    let first (tests : List (Option Reason)) : Option Reason := tests.findSome? id
    (∀ form, form = 1 ∨ form = 2 ∨ form = 3 →
      amountTests c form f = first [range 1 f.amountA, sum a f.breakdownA f.amountA]) ∧
    (f.kind = 4 → amountTests c 4 f =
      first [range 1 f.amountA, sum a f.breakdownA f.amountA,
        range 1 (exchangePayable c a b f.amountA.toNat f.rate), range 1 f.amountB,
        sum b f.breakdownB f.amountB]) ∧
    (f.kind = 7 → amountTests c 4 f =
      first [range 1 f.amountA, sum a f.breakdownA f.amountA, range 1 f.amountB,
        sum b f.breakdownB f.amountB]) ∧
    amountTests c 5 f = range 1 f.amountA ∧
    amountTests c 6 f = first [range 0 f.amountA, sum a f.breakdownA f.amountA] ∧
    amountTests c 0 f = none

/-- Check 11 in its order (R57), against the fetched entry: its number and chain, its kinds, the Reversed Set,
the fields repeated, the room in the set; and what each kind repeats (R58; that
the account balance is tested under none is DEDUCED for TRANSFER and EXCHANGE, log 42). -/
def Sys2Proof.Claims.ReversalIsTestedInOrder : Prop :=
  (∀ (s : State) (f : SlotFields),
    (s.posting.reversal = none → reversalTests s f = some .reversalTarget) ∧
    (∀ r, s.posting.reversal = some r →
      let e := reversalEntry r
      let o := entryFields e
      reversalTests s f =
        if entryNumber e ≠ f.reverseRef ∨ entryChain e ≠ chainOf (reversalChain r) e then
          some .journalDamaged
        else if ¬(o.kind = 2 ∧ 1 ≤ o.code ∧ o.code ≤ 5) ∨ f.reverseRef ∈ s.totals.reversed then
          some .reversalTarget
        else if repeatsOriginal o.code f o = false then some .reversalMismatch
        else if 64 ≤ s.totals.reversed.length then some .reversalLimit
        else none)) ∧
  ∀ (f : SlotFields) (o : EntryFields),
    let zero (counts : List Nat) := ∀ x ∈ counts, x = 0
    let sameA := f.holderA = o.holderA ∧ f.currencyA = o.currencyA ∧ f.amountA = o.amountA
    (∀ form, form = 1 ∨ form = 2 →
      (repeatsOriginal form f o = true ↔ sameA ∧ f.account = o.account ∧ f.holderB = 0 ∧
        f.currencyB = 0 ∧ f.amountB = 0 ∧ f.rate = 0 ∧ f.direction = 0 ∧ zero f.breakdownB)) ∧
    (repeatsOriginal 3 f o = true ↔ sameA ∧ f.holderB = o.holderB ∧ f.currencyB = 0 ∧ f.amountB = 0 ∧
      f.rate = 0 ∧ f.account = 0 ∧ f.direction = 0 ∧ zero f.breakdownB ∧ f.passbook = 0) ∧
    (repeatsOriginal 4 f o = true ↔ sameA ∧ f.holderB = f.holderA ∧ f.currencyB = o.currencyB ∧
      f.amountB = o.amountB ∧ f.rate = o.account ∧ f.account = 0 ∧ f.direction = 0 ∧ f.passbook = 0) ∧
    (repeatsOriginal 5 f o = true ↔ f.currencyA = o.currencyA ∧ f.amountA = o.amountA ∧
      f.account = o.account ∧ f.direction = (if flagSet o.flags 3 then 2 else 1) ∧ f.holderA = 0 ∧
      f.holderB = 0 ∧ f.currencyB = 0 ∧ f.amountB = 0 ∧ f.rate = 0 ∧ zero f.breakdownA ∧
      zero f.breakdownB)

/-- In OPEN every kind passes check 2, in CLOSING kinds 3 and 6 alone, in every other state none; a marked entry
is judged as under OPEN (R30). -/
def Sys2Proof.Claims.DayStatePermitsTheKind : Prop :=
  ∀ (s : State) (e : SubmitEntry) (kind : Nat),
    kindPermitted (judgedState s e) kind = true ↔
      e.marked = true ∨ s.day.state = .opened ∨ (s.day.state = .closing ∧ (kind = 3 ∨ kind = 6))

/-- An acceptance needs a free count above 64 and holder counts that stay within 0..65,535 (R33, R34). -/
def Sys2Proof.Claims.AcceptanceNeedsRoomAndCounts : Prop :=
  ∀ (s : State) (e : SubmitEntry), verdict s e = none →
    64 < s.journal.free ∧
      ∀ n ∈ resultingCounts s.totals (slotMovement s e (slotFieldsOf s e.slot)), 0 ≤ n ∧ n ≤ 65535

/-- What a slot's posting moves: the slot's fields, in the form of its kind, for a REVERSAL that of the original in
the buffer where it is a POSTING of kind 1 to 5, and none elsewhere; a COUNT counts as one in CLOSING where the day
is CLOSING and its entry carries no mark (R30, R53, R55, R57). -/
def Sys2Proof.Claims.MovementIsTheSlots : Prop :=
  ∀ (s : State) (e : SubmitEntry) (f : SlotFields),
    slotMovement s e f =
      { kind := f.kind, form := judgedForm s f, holderA := f.holderA, holderB := f.holderB,
        currencyA := f.currencyA, currencyB := f.currencyB, amountA := f.amountA, amountB := f.amountB,
        rate := f.rate, debit := decide (f.direction = 2), breakdownA := f.breakdownA,
        breakdownB := f.breakdownB, ref := f.reverseRef,
        closing := decide (e.marked = false ∧ s.day.state = .closing) } ∧
    (f.kind ≠ 7 → judgedForm s f = f.kind) ∧
    (f.kind = 7 → s.posting.reversal = none → judgedForm s f = 0) ∧
    ∀ r, f.kind = 7 → s.posting.reversal = some r →
      let o := entryFields (reversalEntry r)
      judgedForm s f = if o.kind = 2 ∧ 1 ≤ o.code ∧ o.code ≤ 5 then o.code else 0

/-- The reversal buffer holds the original's eight doublewords and the chain of its predecessor, from the order in
which they are fetched (R27, R57; the order at ring position 0 is DEDUCED, log 17). -/
def Sys2Proof.Claims.ReversalBufferHoldsTheOriginal : Prop :=
  ∀ r : ReversalFetch, r.words.length = 9 →
    let first := if r.wrapped = true then 0 else 1
    let before := if r.wrapped = true then 8 else 0
    (reversalEntry r).length = 64 ∧
    (∀ i < 8, uintAt (reversalEntry r) (8 * i) 8 = (r.words.getD (first + i) 0).toNat) ∧
    (reversalChain r).toNat = (r.words.getD before 0).toNat / 2 ^ 32

/-- When the head can be judged: no group waits, the free room meets its need, and its reversal fetch, if it has
one, is answered. An entry that becomes head needs 17 doublewords for a kind with a BREAKDOWN and for a REVERSAL,
else 9; a REVERSAL in OPEN, under the mark or in CLOSING (DEDUCED, log 36) has a fetch where its reverse_ref lies
in 2 up to the last numbered entry (R26, R27). -/
def Sys2Proof.Claims.HeadWaitsForItsRoomAndFetch : Prop :=
  ∀ s : State,
    (canJudge s = true ↔ s.posting.queue ≠ [] ∧ s.path.waiting = [] ∧
      s.posting.need.getD 0 ≤ 32 - s.path.queue.length ∧
      ∀ r, s.posting.reversal = some r → r.words.length = 9) ∧
    (s.posting.queue = [] → (newHead s).posting.need = none ∧ (newHead s).posting.reversal = none) ∧
    ∀ e rest, s.posting.queue = e :: rest →
      let f := slotFieldsOf s e.slot
      let fetches := f.kind = 7 ∧ (e.marked = true ∨ s.day.state = .opened ∨ s.day.state = .closing) ∧
        2 ≤ f.reverseRef ∧ f.reverseRef + 1 ≤ s.journal.next
      (newHead s).posting.need = some (if f.kind ∈ [1, 2, 3, 4, 6, 7] then 17 else 9) ∧
      ((newHead s).posting.reversal.map (·.number) = if fetches then some f.reverseRef else none)

/-- The records a posting reads, and the counts it would give them, in the order of its legs: a CASH_IN adds its
pieces, a CASH_OUT takes them, a TRANSFER takes them from holder_a and adds them to holder_b, an EXCHANGE adds
those of currency_a and takes those of currency_b, a REVERSAL the other way, a COUNT puts its own in their place; a
NONCASH reads none (R33, R44 to R53, R59). -/
def Sys2Proof.Claims.LegsReadTheirRecords : Prop :=
  ∀ (t : Totals) (m : Movement) (a b : Fin 17) (k j : Fin 4), m.holderA = a.val → m.holderB = b.val →
    m.currencyA = k.val → m.currencyB = j.val →
    let more (h : Fin 17) (c : Fin 4) (p : List Nat) : List Int :=
      List.zipWith (fun (n d : Nat) => (n : Int) + d) (recordOf t h c).counts p
    let less (h : Fin 17) (c : Fin 4) (p : List Nat) : List Int :=
      List.zipWith (fun (n d : Nat) => (n : Int) - d) (recordOf t h c).counts p
    let into (h : Fin 17) (c : Fin 4) (p : List Nat) := if m.kind = 7 then less h c p else more h c p
    let out (h : Fin 17) (c : Fin 4) (p : List Nat) := if m.kind = 7 then more h c p else less h c p
    (m.form = 1 → readRecords m = [(a, k)] ∧ resultingCounts t m = into a k m.breakdownA) ∧
    (m.form = 2 → readRecords m = [(a, k)] ∧ resultingCounts t m = out a k m.breakdownA) ∧
    (m.form = 3 → readRecords m = [(a, k), (b, k)] ∧
      resultingCounts t m = out a k m.breakdownA ++ into b k m.breakdownA) ∧
    (m.form = 4 → readRecords m = [(a, k), (a, j)] ∧
      resultingCounts t m = into a k m.breakdownA ++ out a j m.breakdownB) ∧
    (m.form = 5 ∨ m.form = 0 → readRecords m = [] ∧ resultingCounts t m = []) ∧
    (m.form = 6 → readRecords m = [(a, k)] ∧ resultingCounts t m = m.breakdownA.map fun n => (n : Int))

/-- When the head is judged, the thirteen checks in their order, what each tests, and what an acceptance needs
(R26, R27, R29 to R34). -/
def Obligations.ChecksDecideInTheirOrder : Prop :=
  Claims.EarlierChecksDecide ∧ Claims.LaterChecksDecide ∧ Claims.FieldsFitTheKind ∧
    Claims.ReversalFieldsFit ∧ Claims.RoleAndHoldJudgeTheNamedHolders ∧ Claims.AmountsAreTestedInOrder ∧
    Claims.ReversalIsTestedInOrder ∧ Claims.DayStatePermitsTheKind ∧ Claims.AcceptanceNeedsRoomAndCounts ∧
    Claims.MovementIsTheSlots ∧ Claims.ReversalBufferHoldsTheOriginal ∧ Claims.HeadWaitsForItsRoomAndFetch ∧
    Claims.LegsReadTheirRecords

/-- A refusal leaves everything as it was but for this: the refused count; at check 8 the failing records marked
and TOTALS_FAULT raised (for a record marked before too, DEDUCED, log 19), at a failing chain JOURNAL_DAMAGED; its
group, POSTING_REFUSED where the day journals and room is left and the result doubleword last; the answer to a read
held there; the slot DONE with its reason on the position's row; the queue's rest. Then the test of the move to
SENDING is made, and the entry behind becomes head, in this order (DESIGN CHOICE, log 49) (R17, R29, R33, R38, R72,
R111, R134, R172). -/
def Sys2Proof.Claims.RefusalLeavesTheBooks : Prop :=
  ∀ (s : State) (e : SubmitEntry) (rest : List SubmitEntry) (reason : Reason), s.inReset = false →
    s.posting.queue = e :: rest → canJudge s = true → verdict s e = some reason →
    let f := slotFieldsOf s e.slot
    let failing := (readRecords (slotMovement s e f)).filter fun n => !recordVerifies (recordOf s.totals n.1 n.2)
    let journaled := s.day.state.journals = true ∧ 8 < s.journal.free
    let content := entryContent s.journal.next s.day.clock (refusedEntry f e.marked reason)
    let result := resultDword 3 reason.code 0 (if journaled then s.journal.next else 0)
    let marked : State :=
      if reason = .totalsFault then raiseAlert { s with totals := markFaulty s.totals failing } .totalsFault
      else if reason = .journalDamaged then raiseAlert s .journalDamaged else s
    let counted : State := { marked with totals := { marked.totals with
      refused := if s.day.state.journals = true then marked.totals.refused + 1 else marked.totals.refused } }
    let handed : State :=
      if journaled then handGroup (numberEntry counted content true)
        ⟨.posting, entryWrites s content ++ [(resultAddress s e.slot, result)]⟩
      else handGroup counted ⟨.posting, [(resultAddress s e.slot, result)]⟩
    let message : Message := ⟨"REFUSED ".toList ++ reason.name, true⟩
    let positions := s.screen.positions.set e.slot { s.screen.positions[e.slot] with message := message }
    let answered : Path := match s.path.bus with
      | .readHeld _ n =>
        if n = e.slot then { handed.path with bus := .idle, answer := some result } else handed.path
      | _ => handed.path
    let left : State := { handed with
      path := answered
      posting := { s.posting with
        slots := s.posting.slots.set e.slot ⟨s.posting.slots[e.slot].buffer, .done⟩, queue := rest }
      screen := { s.screen with positions := positions } }
    GivesAsking .judgingEvent s (newHead (testSending left))

/-- Marking records faulty sets the mark of those named, and changes nothing else of the Totals Store (R72). -/
def Sys2Proof.Claims.MarkingTouchesTheNamedRecords : Prop :=
  ∀ (t : Totals) (named : List (Fin 17 × Fin 4)),
    { markFaulty t named with records := t.records } = t ∧
    ∀ (h : Fin 17) (k : Fin 4), recordOf (markFaulty t named) h k =
      { recordOf t h k with faulty := (recordOf t h k).faulty || decide ((h, k) ∈ named) }

/-- A refusal at check 8 marks the records that fail and raises TOTALS_FAULT (R33, R72); that it raises the alert
also for a record marked faulty before is DEDUCED (log 19). -/
def Sys2Proof.Claims.FaultyRecordIsMarked : Prop :=
  ∀ (s : State) (e : SubmitEntry) (rest : List SubmitEntry) (h : Fin 17) (k : Fin 4), s.inReset = false →
    s.posting.queue = e :: rest → canJudge s = true → verdict s e = some .totalsFault →
    (h, k) ∈ readRecords (slotMovement s e (slotFieldsOf s e.slot)) →
    recordVerifies (recordOf s.totals h k) = false →
    ∃ t, exec .judgingEvent s = .next t ∧ (recordOf t.totals h k).faulty = true ∧
      (recordOf t.totals h k).counts = (recordOf s.totals h k).counts ∧
      alertIn t.control.alerts .totalsFault = true

/-- The result doubleword: verdict, reason and flags in lanes 0 to 2, zero in lane 3, the journal number in lanes
4 to 7 (13.1). -/
def Sys2Proof.Claims.ResultDoublewordHoldsTheVerdict : Prop :=
  ∀ code reason flags number : Nat, code < 256 → reason < 256 → flags < 256 → number < 2 ^ 32 →
    (resultDword code reason flags number).toNat =
      code + reason * 2 ^ 8 + flags * 2 ^ 16 + number * 2 ^ 32

/-- The POSTING_REFUSED entry: kind 4, the reason's code, the slot's fields as captured, PRE_CUTOFF for a marked
entry, the slot's kind in ref, zero in account and balance (R111, 13.2). -/
def Sys2Proof.Claims.RefusedEntryCarriesTheSlot : Prop :=
  ∀ (f : SlotFields) (marked : Bool) (reason : Reason),
    refusedEntry f marked reason =
      { kind := 4, code := reason.code, position := f.position, holderA := f.holderA, holderB := f.holderB,
        currencyA := f.currencyA, currencyB := f.currencyB, flags := if marked = true then 2 else 0,
        tag := f.tag, amountA := f.amountA, amountB := f.amountB, account := 0, balance := 0, ref := f.kind,
        teller := f.teller }

/-- The reasons of a refusal with their codes and names (R29). -/
def Sys2Proof.Claims.ReasonsHaveTheirCodes : Prop :=
  ([.dayState, .badField, .tagMismatch, .notPermitted, .holderClosed, .holderHeld, .wrongDate,
    .breakdownMismatch, .amountRange, .exchangeMismatch, .shortNotes, .countRange, .reversalTarget,
    .reversalMismatch, .reversalLimit, .journalFull, .totalsFault, .journalDamaged] : List Reason).map
      (fun r => (r.code, r.name)) =
    [(1, "DAY_STATE".toList), (2, "BAD_FIELD".toList), (3, "TAG_MISMATCH".toList),
      (4, "NOT_PERMITTED".toList), (5, "HOLDER_CLOSED".toList), (6, "HOLDER_HELD".toList),
      (7, "WRONG_DATE".toList), (8, "BREAKDOWN_MISMATCH".toList), (9, "AMOUNT_RANGE".toList),
      (10, "EXCHANGE_MISMATCH".toList), (11, "SHORT_NOTES".toList), (12, "COUNT_RANGE".toList),
      (13, "REVERSAL_TARGET".toList), (14, "REVERSAL_MISMATCH".toList), (15, "REVERSAL_LIMIT".toList),
      (16, "JOURNAL_FULL".toList), (17, "TOTALS_FAULT".toList), (18, "JOURNAL_DAMAGED".toList)]

/-- What a refusal leaves, what it changes, and the entry and the result it hands over (R29, R33, R38, R72, R111,
R172, 13.1; the alert for a record marked before is DEDUCED, log 19; the head after it, log 49). -/
def Obligations.RefusalLeavesTheBooks : Prop :=
  Claims.RefusalLeavesTheBooks ∧ Claims.MarkingTouchesTheNamedRecords ∧ Claims.FaultyRecordIsMarked ∧
    Claims.ResultDoublewordHoldsTheVerdict ∧ Claims.RefusedEntryCarriesTheSlot ∧ Claims.ReasonsHaveTheirCodes

/-- An acceptance applies the posting to the Totals Store and to the monitors, releases the drawers of the holders
whose cash it moves, hands its item to the table, makes the slot DONE, answers the held read of its result
doubleword, raises MONITOR_FIRED for a NOTE, and hands over, in this order: the POSTING entry, the BREAKDOWN entry
of a cash kind, and the result doubleword with the POSTING entry's number and the flags of R37; a MONITOR_FIRED
entry for each firing, in their order; ITEM_UNTRACKED for an item without room. Then the test of the move to
SENDING is made on the books after it, and the entry behind becomes head, in this order (DESIGN CHOICE, log 49).
Nothing else changes (R17, R35 to R37, R100, R110, R134, R146, R172, R179). -/
def Sys2Proof.Claims.AcceptanceAppliesAndAnswers : Prop :=
  ∀ (s : State) (e : SubmitEntry) (rest : List SubmitEntry), s.inReset = false →
    s.posting.queue = e :: rest → canJudge s = true → verdict s e = none →
    let c := s.configuration
    let f := slotFieldsOf s e.slot
    let m := slotMovement s e f
    let booked := applyMovement c s.totals m
    let judged := evaluate c s.monitors (watchedLegs s.totals booked m)
    let number := s.journal.next
    let item := passbookOutcome s m f number
    let flags := (if item.admission = some .entered ∨ item.admission = some .folded then 1 else 0) +
      (if item.admission = some .folded then 2 else 0) + (if releasedHolders m = [] then 0 else 4)
    let result := resultDword 2 0 flags number
    let changed : State := { s with
      totals := holdsAfter booked judged.2, monitors := judged.1,
      passbook := { s.passbook with items := item.items },
      drawers := Vector.ofFn fun h =>
        if h ∈ releasedHolders m then releasedDrawer c s.drawers[h] else s.drawers[h] }
    let posting := entryContent number s.day.clock (postingEntry m f e.marked (mixFlag c s.totals m))
    let breakdown := breakdownContent (number + 1) s.day.clock f.kind f.breakdownA f.breakdownB
    let numbered := numberEntry changed posting true
    let handed := if cashForm m.form = true then
        handGroup (numberEntry numbered breakdown true)
          ⟨.posting, entryWrites s posting ++ entryWrites numbered breakdown ++ [(resultAddress s e.slot, result)]⟩
      else handGroup numbered ⟨.posting, entryWrites s posting ++ [(resultAddress s e.slot, result)]⟩
    let answered : Path := match s.path.bus with
      | .readHeld _ n =>
        if n = e.slot then { handed.path with bus := .idle, answer := some result } else handed.path
      | _ => handed.path
    let noted :=
      if judged.2.any (·.action == 1) = true then raiseAlert { handed with path := answered } .monitorFired
      else { handed with path := answered }
    let untracked : List EntryFields := match item.admission, item.item with
      | some .untracked, some i =>
        [{ kind := 7, position := f.position, tag := f.tag, account := i.account,
           amountA := i.amount, balance := i.balance, ref := i.key }]
      | _, _ => []
    let entered := (judged.2.map (firedEntry f.position f.tag number) ++ untracked).foldl eventEntry noted
    let message : Message := ⟨"ACCEPTED ".toList ++ decimal number, false⟩
    let positions := s.screen.positions.set e.slot { s.screen.positions[e.slot] with message := message }
    let slots := s.posting.slots.set e.slot { s.posting.slots[e.slot] with state := .done }
    let left : State := { entered with
      posting := { s.posting with slots := slots, queue := rest }
      screen := { s.screen with positions := positions } }
    GivesAsking .judgingEvent s (newHead (testSending left))

/-- The holders an acceptance releases: both sides of a TRANSFER, holder_a of a CASH_IN, CASH_OUT or EXCHANGE,
the same for their reversals, and none for a COUNT or a NONCASH (R37). -/
def Sys2Proof.Claims.CashMovesReleaseTheirHolders : Prop :=
  ∀ (m : Movement) (a b : Fin 17), m.holderA = a.val → m.holderB = b.val →
    (m.form = 1 ∨ m.form = 2 ∨ m.form = 4 → releasedHolders m = [a]) ∧
    (m.form = 3 → releasedHolders m = [a, b]) ∧ (m.form = 5 ∨ m.form = 6 → releasedHolders m = [])

/-- What an acceptance hands the Unprinted Item Table: nothing without the passbook flag; the item of a CASH_IN,
CASH_OUT or NONCASH with its side; and for a REVERSAL the settling of its original's item first, then its own, of
account 0 too (DEDUCED, log 53) (R42, R144, R147). -/
def Sys2Proof.Claims.AcceptedPostingHandsItsItem : Prop :=
  ∀ (s : State) (m : Movement) (f : SlotFields) (number : Nat) (k : Fin 4), f.currencyA = k.val →
    let items := s.passbook.items
    let own (mnemonic : Mnemonic) (amount : Int) :=
      admitItem items (ordinaryItem f.account k number mnemonic amount f.balance)
    let handed (r : List Item × Admission) (o : PassbookOutcome) :=
      o.items = r.1 ∧ o.admission = some r.2
    let out := passbookOutcome s m f number
    (f.kind ≠ 7 → f.passbook = 0 → out = ⟨items, none, none⟩) ∧
    (f.passbook = 1 → f.kind = 1 → handed (own .dep f.amountA) out) ∧
    (f.passbook = 1 → f.kind = 2 → handed (own .wdl (-f.amountA)) out) ∧
    (f.passbook = 1 → f.kind = 5 → f.direction = 1 → handed (own .ncr f.amountA) out) ∧
    (f.passbook = 1 → f.kind = 5 → f.direction = 2 → handed (own .ndr (-f.amountA)) out) ∧
    (∀ r, f.kind = 7 → s.posting.reversal = some r →
      let o := entryFields (reversalEntry r)
      let side := (itemSide m.form (f.direction == 2) f.amountA).2
      let pending : PendingReversal := ⟨number, f.reverseRef, side, f.balance, f.passbook == 1⟩
      (∀ left, flagSet o.flags 0 = true → settleOriginal items f.account pending = some left →
        out = ⟨left, none, none⟩) ∧
      (flagSet o.flags 0 = false ∨ settleOriginal items f.account pending = none →
        (f.passbook = 1 → handed (own .rev (-side)) out) ∧
        (f.passbook ≠ 1 → out = ⟨items, none, none⟩)))

/-- What settling an original does to its item: a WAITING ordinary entry is freed, a WAITING summary gives the
original back and is freed when nothing is left, a PRINTING entry notes the reversal; without an item there is
nothing to settle (R147). -/
def Sys2Proof.Claims.OriginalItemIsSettled : Prop :=
  ∀ (items : List Item) (account : Nat) (r : PendingReversal),
    (locateItem items account r.original = none → settleOriginal items account r = none) ∧
    (∀ e, locateItem items account r.original = some e →
      (e.printing = true → settleOriginal items account r =
        some (updateItem items e.key fun e => { e with reversals := e.reversals ++ [r] })) ∧
      (e.printing = false → e.summary = false →
        settleOriginal items account r = some (items.filter fun i => i.key != e.key)) ∧
      (e.printing = false → e.summary = true → e.folds ≤ 1 →
        settleOriginal items account r = some (items.filter fun i => i.key != e.key)) ∧
      (e.printing = false → e.summary = true → 1 < e.folds →
        settleOriginal items account r = some (updateItem items e.key fun _ =>
          { e with folds := e.folds - 1, amount := e.amount - r.amount, balance := r.balance })))

/-- The POSTING entry: kind 2, the posting's kind, the slot's fields, its four flags, the rate figure as the
account of an EXCHANGE and of a REVERSAL of one, reverse_ref as a REVERSAL's ref. MIX marks a COUNT whose pieces
are worth the record's balance and are others than the record's (R68, R111, 13.2). -/
def Sys2Proof.Claims.PostingEntryCarriesTheSlot : Prop :=
  ∀ (c : Configuration) (t : Totals) (m : Movement) (f : SlotFields) (marked mix : Bool),
    postingEntry m f marked mix =
      { kind := 2, code := f.kind, position := f.position, holderA := f.holderA, holderB := f.holderB,
        currencyA := f.currencyA, currencyB := f.currencyB,
        flags := (if f.passbook = 1 then 1 else 0) + (if marked = true then 2 else 0) +
          (if mix = true then 4 else 0) + (if f.direction = 2 then 8 else 0),
        tag := f.tag, amountA := f.amountA, amountB := f.amountB,
        account := if m.form = 4 then f.rate else f.account, balance := f.balance,
        ref := if f.kind = 7 then f.reverseRef else 0, teller := f.teller } ∧
    (m.form ≠ 6 → mixFlag c t m = false) ∧
    ∀ (h : Fin 17) (k : Fin 4), m.form = 6 → m.holderA = h.val → m.currencyA = k.val →
      (mixFlag c t m = true ↔
        (List.zipWith (· * ·) m.breakdownA (c.faces k)).sum = (recordOf t h k).balance ∧
          m.breakdownA ≠ (recordOf t h k).counts)

/-- The mnemonic and the signed amount of an item by its posting's kind and direction; of a negative amount, which
only a replay meets, the signed amount is taken so too (DESIGN CHOICE, log 61). The entry of the table that holds
an original: the account's ordinary entry of its number or, without one, the summary whose range holds it (R42,
R74, R147). -/
def Sys2Proof.Claims.ItemsAreFoundAndSided : Prop :=
  (∀ (debit : Bool) (amount : Int), itemSide 1 debit amount = (.dep, amount) ∧
    itemSide 2 debit amount = (.wdl, -amount) ∧ itemSide 5 false amount = (.ncr, amount) ∧
    itemSide 5 true amount = (.ndr, -amount)) ∧
  ∀ (items : List Item) (account o : Nat),
    let own (e : Item) := e.summary = false ∧ e.key = o
    let holds (e : Item) := e.account = account ∧ e.summary = true ∧ e.first ≤ o ∧ o ≤ e.key
    (∀ e, locateItem items account o = some e →
      e ∈ items ∧ (own e ∨ holds e ∧ ∀ x ∈ items, ¬own x)) ∧
    (locateItem items account o = none ↔ ∀ e ∈ items, ¬own e ∧ ¬holds e)

/-- What an acceptance does to the books, the drawers, the items and the slot, and its POSTING entry (R35 to R38,
R60, R68, R111, R145). -/
def Obligations.AcceptanceAppliesAndAnswers : Prop :=
  Claims.AcceptanceAppliesAndAnswers ∧ Claims.CashMovesReleaseTheirHolders ∧
    Claims.AcceptedPostingHandsItsItem ∧ Claims.OriginalItemIsSettled ∧
    Claims.PostingEntryCarriesTheSlot ∧ Claims.ItemsAreFoundAndSided

/-- The books of a day that opens are in balance (R43, R77, R170). -/
def Sys2Proof.Claims.OpeningBooksAreInBalance : Prop :=
  ∀ (c : Configuration) (counts : Fin 17 → Fin 4 → List Nat), (∀ h k, (counts h k).length ≤ 12) →
    InBalance c (openedTotals c counts)

/-- An accepted posting keeps the books in balance: in every currency the holders' balances stay the opening sum
plus received less paid plus over less short, and every balance stays the sum of its counts (R43, R64). -/
def Sys2Proof.Claims.AcceptedPostingKeepsTheBalance : Prop :=
  ∀ (s : State) (e : SubmitEntry), verdict s e = none → InBalance s.configuration s.totals →
    InBalance s.configuration
      (applyMovement s.configuration s.totals (slotMovement s e (slotFieldsOf s e.slot)))

/-- The books open in balance, and every accepted posting keeps them so (R43, R64). -/
def Obligations.BooksStayInBalance : Prop :=
  Claims.OpeningBooksAreInBalance ∧ Claims.AcceptedPostingKeepsTheBalance

/-- Applying a posting keeps every unmarked record's check word true (R64, R71, R72). -/
def Sys2Proof.Claims.PostingKeepsCheckWords : Prop :=
  ∀ (c : Configuration) (t : Totals) (m : Movement), ChecksTrue t → ChecksTrue (applyMovement c t m)

/-- A replayed POSTING with its BREAKDOWN leaves every record that it rebuilds with a true check word and without
the faulty mark it may have had, and no other record changes (R71, R72, R176). -/
def Sys2Proof.Claims.RebuiltRecordCarriesNoMark : Prop :=
  ∀ (s : State) (n : Nat) (p e : List Byte) (h : Fin 17) (k : Fin 4), s.day.replay.last ≠ 0 →
    s.day.replay.posting = some p → (entryFields e).kind = 3 →
    (entryFields e).code = (entryFields p).code →
    let m := replayMovement s.configuration s.day.replay (entryFields p) e
    let rebuilt := ∃ l ∈ m.legs, l.holder = some h ∧ l.currency = k
    ∃ t, replayEntry s n e = some t ∧
      (rebuilt → s.configuration.holderActive h = true → s.configuration.hasCurrency k = true →
        (recordOf t.totals h k).faulty = false ∧ recordVerifies (recordOf t.totals h k) = true) ∧
      (¬rebuilt → recordOf t.totals h k = recordOf s.totals h k)

/-- Applying a posting keeps the check words true, and a replay step ends a faulty mark (R64, R71, R72, R176). -/
def Obligations.PostingKeepsCheckWords : Prop :=
  Claims.PostingKeepsCheckWords ∧ Claims.RebuiltRecordCarriesNoMark

/-- An accepted CASH_IN or CASH_OUT changes its holder's record in its currency, received or paid of that currency,
and the control totals; nothing else of the Totals Store (R44, R45, R69). A record of an inactive holder or an
unconfigured currency, which only a replayed posting names, keeps its contents (R71), while that currency's Day
Totals gain all the same (DESIGN CHOICE, log 22). Amounts outside 0..999,999,999,999, which no posting has, join
the Day Totals modulo 2^64 and leave the hash total free (DESIGN CHOICE, log 44). -/
def Sys2Proof.Claims.CashPostingBooks : Prop :=
  ∀ (c : Configuration) (t : Totals) (m : Movement) (h : Fin 17) (k : Fin 4),
    m.holderA = h.val → m.currencyA = k.val →
    let after (change : CountChange) := bookedRecord c t h k change
    (m.kind = 1 → m.form = 1 →
      applyMovement c t m =
        { t with
          records := t.records.set h (t.records[h].set k (after (.gain m.breakdownA))),
          day := t.day.set k { t.day[k] with received := t.day[k].received + addend m.amountA },
          kinds := t.kinds.set 0 (t.kinds[0] + 1), accepted := t.accepted + 1,
          hash := hashAfter t.hash m.amountA m.amountB }) ∧
    (m.kind = 2 → m.form = 2 →
      applyMovement c t m =
        { t with
          records := t.records.set h (t.records[h].set k (after (.lose m.breakdownA))),
          day := t.day.set k { t.day[k] with paid := t.day[k].paid + addend m.amountA },
          kinds := t.kinds.set 1 (t.kinds[1] + 1), accepted := t.accepted + 1,
          hash := hashAfter t.hash m.amountA m.amountB })

/-- A booked record: an active holder's in a configured currency takes each count after the change, the sum of its
counts as its balance, the check word over both, and no faulty mark, which only a replay step can find there (R71,
R72); any other keeps its contents (R64, R71). A count outside 0..65,535, which only a replay meets, is free
(DESIGN CHOICE, log 22) and is not in this claim. -/
def Sys2Proof.Claims.BookedRecordFollowsTheChange : Prop :=
  ∀ (c : Configuration) (t : Totals) (h : Fin 17) (k : Fin 4) (change : CountChange),
    let old := recordOf t h k
    let new := bookedRecord c t h k change
    (c.holderActive h = true → c.hasCurrency k = true →
      (∀ n ∈ countsAfter old.counts change, 0 ≤ n ∧ n ≤ 65535) →
      (new.counts.map fun n => (n : Int)) = countsAfter old.counts change ∧
        new.balance = (List.zipWith (· * ·) new.counts (c.faces k)).sum ∧
        new.check = checkWord new.counts new.balance ∧ new.faulty = false ∧
        new.opening = old.opening ∧ new.counted = old.counted) ∧
    (c.holderActive h = false ∨ c.hasCurrency k = false → new = old)

/-- An accepted TRANSFER moves the pieces from holder_a's record to holder_b's in its currency; received and paid
stay (R47, R69). An accepted EXCHANGE takes the pieces of currency_a in and pays those of currency_b out of its
holder's two records: received of the one, paid and residue of the other gain, also where a replay names a currency
that is not configured (DESIGN CHOICE, log 22); for figures no posting has the residue (log 34) and the hash total
(log 44) are free (R48, R49, R67). -/
def Sys2Proof.Claims.TwoLegPostingBooks : Prop :=
  ∀ (c : Configuration) (t : Totals) (m : Movement) (h g : Fin 17) (k j : Fin 4), m.holderA = h.val →
    m.currencyA = k.val →
    (m.kind = 3 → m.form = 3 → m.holderB = g.val → g ≠ h →
      applyMovement c t m =
        { t with
          records := (t.records.set h (t.records[h].set k (bookedRecord c t h k (.lose m.breakdownA)))).set g
            (t.records[g].set k (bookedRecord c t g k (.gain m.breakdownA))),
          kinds := t.kinds.set 2 (t.kinds[2] + 1), accepted := t.accepted + 1,
          hash := hashAfter t.hash m.amountA m.amountB }) ∧
    (m.kind = 4 → m.form = 4 → m.currencyB = j.val → j ≠ k →
      applyMovement c t m =
        { t with
          records := t.records.set h
            ((t.records[h].set k (bookedRecord c t h k (.gain m.breakdownA))).set j
              (bookedRecord c t h j (.lose m.breakdownB))),
          day := (t.day.set k { t.day[k] with received := t.day[k].received + addend m.amountA }).set j
            { t.day[j] with
              paid := t.day[j].paid + addend m.amountB,
              residue := t.day[j].residue +
                BitVec.ofNat 64 (exchangeResidue c k j m.amountA m.rate) },
          kinds := t.kinds.set 3 (t.kinds[3] + 1), accepted := t.accepted + 1,
          hash := hashAfter t.hash m.amountA m.amountB })

/-- An accepted NONCASH changes no record: noncash credit or debit of its currency gains, with the control totals
(R50, R69), also where a replay names a currency that is not configured (DESIGN CHOICE, log 22); amounts no posting
has join modulo 2^64 and leave the hash total free (DESIGN CHOICE, log 44). -/
def Sys2Proof.Claims.NoncashPostingBooks : Prop :=
  ∀ (c : Configuration) (t : Totals) (m : Movement) (k : Fin 4), m.kind = 5 → m.form = 5 →
    m.currencyA = k.val →
    applyMovement c t m =
      { t with
        day := t.day.set k
          (if m.debit = true then { t.day[k] with debit := t.day[k].debit + addend m.amountA }
           else { t.day[k] with credit := t.day[k].credit + addend m.amountA }),
        kinds := t.kinds.set 4 (t.kinds[4] + 1), accepted := t.accepted + 1,
        hash := hashAfter t.hash m.amountA m.amountB }

/-- A COUNT outside CLOSING replaces the counts; over or short of its currency gains the difference of its pieces'
worth and the balance, and no flag changes (R52, R53, R68). In a replay so it does for an inactive holder or an
unconfigured currency, whose record stays (DESIGN CHOICE, log 22); the hash total of amounts no posting has is free
(DESIGN CHOICE, log 44). -/
def Sys2Proof.Claims.CountBooksItsDifference : Prop :=
  ∀ (c : Configuration) (t : Totals) (m : Movement) (h : Fin 17) (k : Fin 4), m.kind = 6 → m.form = 6 →
    m.holderA = h.val → m.currencyA = k.val → m.closing = false →
    let worth := (List.zipWith (· * ·) m.breakdownA (c.faces k)).sum
    let balance := (recordOf t h k).balance
    let day := t.day[k]
    applyMovement c t m =
      { t with
        records := t.records.set h (t.records[h].set k (bookedRecord c t h k (.replace m.breakdownA))),
        day := t.day.set k
          { day with
            overage := if balance < worth then day.overage + BitVec.ofNat 64 (worth - balance)
                       else day.overage,
            shortage := if worth < balance then day.shortage + BitVec.ofNat 64 (balance - worth)
                        else day.shortage },
        kinds := t.kinds.set 5 (t.kinds[5] + 1), accepted := t.accepted + 1,
        hash := hashAfter t.hash m.amountA m.amountB }

/-- An accepted REVERSAL of a one-leg posting moves its effect the other way, books it in the opposite total,
counts under kind 7, and its ref joins the Reversed Set, no two alike (R56, R59); so in a replay for a currency
that is not configured too, and past 64 numbers (DESIGN CHOICE, log 22), with the sums of amounts no posting has as
log 44 says (DESIGN CHOICE). -/
def Sys2Proof.Claims.ReversalBooksTheOpposite : Prop :=
  ∀ (c : Configuration) (t : Totals) (m : Movement) (h : Fin 17) (k : Fin 4), m.kind = 7 →
    m.currencyA = k.val →
    let reversed (t' : Totals) : Totals := { t' with
      kinds := t.kinds.set 6 (t.kinds[6] + 1), accepted := t.accepted + 1,
      hash := hashAfter t.hash m.amountA m.amountB, 
      reversed := if m.ref ∈ t.reversed then t.reversed else t.reversed ++ [m.ref] }
    let record (change : CountChange) :=
      t.records.set h (t.records[h].set k (bookedRecord c t h k change))
    (m.form = 1 → m.holderA = h.val → applyMovement c t m = reversed { t with
      records := record (.lose m.breakdownA),
      day := t.day.set k { t.day[k] with paid := t.day[k].paid + addend m.amountA } }) ∧
    (m.form = 2 → m.holderA = h.val → applyMovement c t m = reversed { t with
      records := record (.gain m.breakdownA),
      day := t.day.set k { t.day[k] with received := t.day[k].received + addend m.amountA } }) ∧
    (m.form = 5 → m.debit = false → applyMovement c t m = reversed { t with
      day := t.day.set k { t.day[k] with debit := t.day[k].debit + addend m.amountA } }) ∧
    (m.form = 5 → m.debit = true → applyMovement c t m = reversed { t with
      day := t.day.set k { t.day[k] with credit := t.day[k].credit + addend m.amountA } })

/-- An accepted REVERSAL of a TRANSFER moves the pieces back; of an EXCHANGE, the pieces of currency_a out and
those of currency_b in, paid and received the other way, and the residue recomputed and taken back (free for
figures no posting has, log 34) (R59, R60, R67); so in a replay for a currency that is not configured too, and past
64 numbers (DESIGN CHOICE, log 22), the hash total free for amounts no posting has (DESIGN CHOICE, log 44). A
residue above the accumulator, which only a replay meets, is taken back modulo 2^64 (DESIGN CHOICE, log 60). -/
def Sys2Proof.Claims.TwoLegReversalBooks : Prop :=
  ∀ (c : Configuration) (t : Totals) (m : Movement) (h g : Fin 17) (k j : Fin 4), m.kind = 7 →
    m.holderA = h.val → m.currencyA = k.val →
    let reversed (t' : Totals) : Totals := { t' with
      kinds := t.kinds.set 6 (t.kinds[6] + 1), accepted := t.accepted + 1,
      hash := hashAfter t.hash m.amountA m.amountB, 
      reversed := if m.ref ∈ t.reversed then t.reversed else t.reversed ++ [m.ref] }
    (m.form = 3 → m.holderB = g.val → g ≠ h → applyMovement c t m = reversed { t with
      records := (t.records.set h (t.records[h].set k (bookedRecord c t h k (.gain m.breakdownA)))).set g
        (t.records[g].set k (bookedRecord c t g k (.lose m.breakdownA))) }) ∧
    (m.form = 4 → m.currencyB = j.val → j ≠ k → applyMovement c t m = reversed { t with
      records := t.records.set h
        ((t.records[h].set k (bookedRecord c t h k (.lose m.breakdownA))).set j
          (bookedRecord c t h j (.gain m.breakdownB))),
      day := (t.day.set k { t.day[k] with paid := t.day[k].paid + addend m.amountA }).set j
        { t.day[j] with
          received := t.day[j].received + addend m.amountB,
          residue := t.day[j].residue -
            BitVec.ofNat 64 (exchangeResidue c k j m.amountA m.rate) } })

/-- Losing the pieces that were gained restores the counts, as the reversal of a CASH_IN does (R59). -/
def Sys2Proof.Claims.ReversalRestoresTheCounts : Prop :=
  ∀ old pieces : List Nat, old.length = pieces.length →
    (∀ n ∈ countsAfter old (.gain pieces), n ≤ 65535) →
    countsAfter ((countsAfter old (.gain pieces)).map storedCount) (.lose pieces) =
      old.map fun n => (n : Int)

/-- An amount joins the Day Totals as it stands, modulo 2^64 (R69; for an amount no posting has, which only a
replay meets, DESIGN CHOICE, log 44). -/
def Sys2Proof.Claims.AmountsJoinModuloTheDoubleword : Prop :=
  ∀ a : Int, (addend a).toNat = (a % 2 ^ 64).toNat

/-- What each kind books in the records and the day figures (R44 to R61; the Day Totals of a currency not
configured and the sums of amounts no posting has, which only a replay meets, are DESIGN CHOICE, logs 22 and 44). -/
def Obligations.PostingsBookTheirKind : Prop :=
  Claims.CashPostingBooks ∧ Claims.BookedRecordFollowsTheChange ∧ Claims.TwoLegPostingBooks ∧
    Claims.NoncashPostingBooks ∧ Claims.CountBooksItsDifference ∧ Claims.ReversalBooksTheOpposite ∧
    Claims.TwoLegReversalBooks ∧ Claims.ReversalRestoresTheCounts ∧ Claims.AmountsJoinModuloTheDoubleword

/-- A COUNT in CLOSING replaces the counts, marks its currency counted, and balances its holder when every
configured currency is counted (R52, R53). The counted mark and the balanced flag are given also for an inactive
holder's or an unconfigured currency's record, which only a replay meets, while R71 keeps that record's contents
(DESIGN CHOICE, log 22). -/
def Obligations.ClosingCountBalancesTheHolder : Prop :=
  ∀ (c : Configuration) (t : Totals) (m : Movement) (h : Fin 17) (k : Fin 4), m.kind = 6 → m.form = 6 →
    m.holderA = h.val → m.currencyA = k.val → m.closing = true → (∀ n ∈ m.breakdownA, n ≤ 65535) →
    let t' := applyMovement c t m
    (c.holderActive h = true → c.hasCurrency k = true →
      (recordOf t' h k).counts = m.breakdownA ∧
        (recordOf t' h k).balance = breakdownSum (c.faces k) m.breakdownA) ∧
      (recordOf t' h k).counted = true ∧
      ((∀ j : Fin 4, j ≠ k → c.hasCurrency j = true → (recordOf t h j).counted = true) →
        t'.flags[h].balanced = true) ∧
      ((∃ j : Fin 4, j ≠ k ∧ c.hasCurrency j = true ∧ (recordOf t h j).counted = false) →
        t'.flags[h] = t.flags[h])

/-- The conversion: the payable is a whole multiple of the payable unit, no more than the quotient and less than
one unit below it; the residue is below the unit times ten thousand (R65 to R67). -/
def Sys2Proof.Claims.PayableIsTheQuotientRoundedDown : Prop :=
  ∀ a rate eA eB u : Nat, 1 ≤ u →
    let p := payable a rate eA eB u
    let q := a * rate * 10 ^ eB / (10 ^ 8 * 10 ^ eA)
    p % u = 0 ∧ p ≤ q ∧ q < p + u ∧ residue a rate eA eB u < u * 10 ^ 4

/-- The residue of an exchange between configured currencies: what the payable leaves of the conversion, in
ten-thousandths of a minor unit, rounded down, for an amount and a rate in 1..999,999,999,999 (R65, R67). -/
def Sys2Proof.Claims.ResidueIsWhatThePayableLeaves : Prop :=
  ∀ (c : Configuration) (a b : Fin 4) (amount rate : Nat), c.hasCurrency a = true →
    c.hasCurrency b = true → 1 ≤ c.currencies[b].payable → 1 ≤ amount →
    amount ≤ 999999999999 → 1 ≤ rate → rate ≤ 999999999999 →
    let n := amount * rate * 10 ^ c.currencies[b].exponent
    let d := 10 ^ 8 * 10 ^ c.currencies[a].exponent
    let u := c.currencies[b].payable
    exchangePayable c a b amount rate = n / d / u * u ∧
      exchangeResidue c a b amount rate = (n - n / d / u * u * d) * 10 ^ 4 / d ∧
      n / d / u * u * d ≤ n

/-- An acceptance adds its amounts to the hash total modulo 10^15 (R69; for amounts no posting can have, which only
a replay meets, the total is free, log 44). -/
def Sys2Proof.Claims.HashIsASumModulo : Prop :=
  ∀ (hash : Nat) (a b : Int), hash < 10 ^ 15 → 0 ≤ a → a ≤ 999999999999 → 0 ≤ b → b ≤ 999999999999 →
    (hashAfter hash a b : Int) = (hash + a + b) % 10 ^ 15

/-- The printed amount is 14 columns wide, with the sign column last: '-' for a negative value, a space
otherwise, or 14 asterisks where it does not fit (R74, R75). -/
def Sys2Proof.Claims.AmountFieldIsFourteenColumns : Prop :=
  ∀ (cur : Currency) (v : Int),
    (amountField cur v).length = 14 ∧
      ((amountField cur v).getLast? = some (if v < 0 then '-' else ' ') ∨
        amountField cur v = List.replicate 14 '*')

/-- The printed amount: the integer part in decimal with its grouping separator every three digits from the
right, the decimal separator and as many digits as the exponent says, then the sign column; at the right of 14
columns where it fits in them, and 14 asterisks where it does not (R74, R75). -/
def Sys2Proof.Claims.AmountFieldShowsTheAmount : Prop :=
  ∀ (cur : Currency) (v : Int), v.natAbs < 10 ^ 24 →
    let whole := Nat.toDigits 10 (v.natAbs / 10 ^ cur.exponent)
    let rest := Nat.toDigits 10 (v.natAbs % 10 ^ cur.exponent)
    let fraction := if cur.exponent = 0 then [] else
      (if cur.decimal = 0 then '.' else ',') :: (List.replicate (cur.exponent - rest.length) '0' ++ rest)
    let sign := if v < 0 then '-' else ' '
    let shown (body : List Char) := if body.length + 1 ≤ 14 then
      List.replicate (13 - body.length) ' ' ++ body ++ [sign] else List.replicate 14 '*'
    (cur.grouping = 0 → amountField cur v = shown (whole ++ fraction)) ∧
    (∀ sep, groupingSeparator cur.grouping = some sep →
      ∃ grouped : List Char, amountField cur v = shown (grouped ++ fraction) ∧
        grouped.length = whole.length + (whole.length - 1) / 3 ∧
        ∀ i < grouped.length, grouped.reverse[i]? =
          if i % 4 = 3 then some sep else whole.reverse[i - i / 4]?)

/-- The separators of a currency's codes (R74, 13.5). -/
def Sys2Proof.Claims.SeparatorsFollowTheCodes : Prop :=
  groupingSeparator 0 = none ∧ groupingSeparator 1 = some ',' ∧ groupingSeparator 2 = some '.' ∧
    groupingSeparator 3 = some ' ' ∧ decimalSeparator 0 = '.' ∧ decimalSeparator 1 = ','

/-- The conversion, the hash total and the printed amount (R65 to R67, R69, R74, R75). -/
def Obligations.AmountArithmetic : Prop :=
  Claims.PayableIsTheQuotientRoundedDown ∧ Claims.ResidueIsWhatThePayableLeaves ∧
    Claims.HashIsASumModulo ∧ Claims.AmountFieldIsFourteenColumns ∧ Claims.AmountFieldShowsTheAmount ∧
    Claims.SeparatorsFollowTheCodes

/-! ### Drawers (chapter 5) -/

/-- The spans in use come from the fields of the configuration in force, 0 for the usual span and the others held to
their bounds, and stand in the Mirror (R88). -/
def Sys2Proof.Claims.SpansAreReadFromTheirFields : Prop :=
  ∀ c : Configuration,
    (c.release = 0 → c.releaseSpan = 5) ∧
    (1 ≤ c.release → c.release ≤ 15 → c.releaseSpan = c.release) ∧
    (15 < c.release → c.releaseSpan = 15) ∧
    (c.overdue = 0 → c.overdueSpan = 60) ∧
    (1 ≤ c.overdue → c.overdue ≤ 9 → c.overdueSpan = 10) ∧
    (10 ≤ c.overdue → c.overdue ≤ 600 → c.overdueSpan = c.overdue) ∧
    (600 < c.overdue → c.overdueSpan = 600) ∧
    ∀ s : State, s.control.config = some c →
      (mirrorFields s 3).take 2 = [(2, c.releaseSpan), (2, c.overdueSpan)]

/-- A timer that a release starts runs the span in force: the window of a LOCKED or RELEASED drawer, the limit of an
OPEN or OVERDUE one (R82, R88). -/
def Sys2Proof.Claims.ReleaseStartsTheSpanInForce : Prop :=
  ∀ (s : State) (c : Configuration) (h : Fin 17), s.control.config = some c →
    let d := (releaseDrawer s h).drawers[h]
    (s.drawers[h].state = .locked ∨ s.drawers[h].state = .released → d.window = some c.releaseSpan) ∧
    (s.drawers[h].state = .opened ∨ s.drawers[h].state = .overdue → d.limit = some c.overdueSpan)

/-- The limit that a sensed open starts, and the one that an open first determination with a settle pending starts,
runs the span in force, with the window stopped (R83, R85, R88, R90). -/
def Sys2Proof.Claims.OpeningStartsTheSpanInForce : Prop :=
  ∀ (s : State) (c : Configuration) (h : Fin 17), s.inReset = false → s.control.config = some c →
    c.holderActive h = true → s.drawers[h].runLevel = .opened → s.drawers[h].runLength = 2 →
    s.drawers[h].sense = some .closed ∨ s.drawers[h].sense = none ∧ s.drawers[h].settle = true →
    s.drawers[h].state = .locked ∨ s.drawers[h].state = .released →
    ∃ t, exec (.drawerSenseSample h .opened) s = .next t ∧ t.drawers[h].state = .opened ∧
      t.drawers[h].window = none ∧ t.drawers[h].limit = some c.overdueSpan

/-- A configuration that takes effect and a day that is resumed stop every running timer and start the limit of each
drawer sensed open with the new span, so that no timer runs on an old one (R88, R90, R91). -/
def Sys2Proof.Claims.NoTimerRunsOnAnOldSpan : Prop :=
  (∀ (s : State) (c : Configuration), s.inReset = false → s.path.placement = some c →
    readIsHeld s.path = false →
    ∃ t, exec .installWindowMap s = .next t ∧ t.drawers = configuredDrawers c s.drawers) ∧
  ∀ (c : Configuration) (ds : Vector Drawer 17), ∀ set ∈ [configuredDrawers c ds, resumedDrawers c ds],
    ∀ h : Fin 17,
      let sensed := c.holderActive h = true ∧ ds[h].sense = some .opened
      set[h].window = none ∧ set[h].state = (if sensed then .opened else .locked) ∧
        set[h].limit = if sensed then some c.overdueSpan else none

/-- The spans of the drawers' timers: their values, and the timers that a release, a sensed open, a first
determination, a configuration that takes effect and a resumed day start (R88). -/
def Obligations.SpansFollowTheConfiguration : Prop :=
  Claims.SpansAreReadFromTheirFields ∧ Claims.ReleaseStartsTheSpanInForce ∧
    Claims.OpeningStartsTheSpanInForce ∧ Claims.NoTimerRunsOnAnOldSpan

/-- A lock is energised while its drawer is RELEASED and in no other state (R81). -/
def Sys2Proof.Claims.LockFollowsReleased : Prop :=
  ∀ d : Drawer, d.energised = true ↔ d.state = .released

/-- A release by the drawer's state: LOCKED and RELEASED give RELEASED with a full window and no expiry held
(that the held expiry ends with the window is DEDUCED, log 21), OPEN and OVERDUE give OPEN with a full limit
(R82). -/
def Sys2Proof.Claims.ReleaseActsByState : Prop :=
  ∀ (c : Configuration) (d : Drawer),
    (d.state = .locked ∨ d.state = .released →
      releasedDrawer c d = { d with
        state := .released, window := some c.releaseSpan, heldExpiry := false }) ∧
    (d.state = .opened ∨ d.state = .overdue →
      releasedDrawer c d = { d with state := .opened, limit := some c.overdueSpan })

/-- The lock and the release of a drawer (R81, R82). -/
def Obligations.ReleaseActsByState : Prop :=
  Claims.LockFollowsReleased ∧ Claims.ReleaseActsByState

/-- An active holder's third open sample in a row is a sensed open: a RELEASED drawer opens, its window stopped
and its limit started; a LOCKED one opens forced, with DRAWER_FORCED and a FORCED entry (R80, R83, R85). -/
def Sys2Proof.Claims.SensedOpenOpensTheDrawer : Prop :=
  ∀ (s : State) (h : Fin 17), s.inReset = false → s.configuration.holderActive h = true →
    s.drawers[h].sense = some .closed → s.drawers[h].runLevel = .opened → s.drawers[h].runLength = 2 →
    let d : Drawer := { s.drawers[h] with
      state := .opened, window := none, limit := some s.configuration.overdueSpan, heldExpiry := false,
      sense := some .opened, runLength := 0 }
    let gives (x : State) := Gives (.sensedOpen h) s x ∧ Gives (.drawerSenseSample h .opened) s x
    (s.drawers[h].state = .released → gives (setDrawer s h d)) ∧
    (s.drawers[h].state = .locked → gives
      (eventEntry (raiseAlert (setDrawer s h { d with forced := true }) .drawerForced)
        { kind := 8, code := 3, position := h.val, holderA := h.val, ref := h.val }))

/-- A sensed closed locks an OPEN or OVERDUE drawer with both timers stopped; from OVERDUE it hands over
OVERDUE_CLOSED (R80, R84). -/
def Sys2Proof.Claims.SensedClosedLocksTheDrawer : Prop :=
  ∀ (s : State) (h : Fin 17), s.inReset = false → s.configuration.holderActive h = true →
    s.drawers[h].sense = some .opened → s.drawers[h].runLevel = .closed → s.drawers[h].runLength = 2 →
    let locked := setDrawer s h { s.drawers[h] with
      state := .locked, window := none, limit := none, heldExpiry := false, sense := some .closed,
      runLength := 0 }
    let gives (x : State) := Gives (.sensedClosed h) s x ∧ Gives (.drawerSenseSample h .closed) s x
    (s.drawers[h].state = .opened → gives locked) ∧
    (s.drawers[h].state = .overdue → gives
      (eventEntry locked { kind := 8, code := 4, position := h.val, holderA := h.val, ref := h.val }))

/-- A first or second sample at a level that is not the debounced one, and from an undetermined sense too, begins
or extends the run and gives no event (R80). -/
def Sys2Proof.Claims.ShortRunGivesNoEvent : Prop :=
  ∀ (s : State) (h : Fin 17) (level : Sense), s.inReset = false → s.drawers[h].sense ≠ some level →
    (level = .closed → s.drawers[h].heldExpiry = false) →
    (s.drawers[h].runLevel = level → s.drawers[h].runLength ≤ 1) →
    Gives (.drawerSenseSample h level) s
      (setDrawer s h { s.drawers[h] with
        runLevel := level,
        runLength := if s.drawers[h].runLevel = level then s.drawers[h].runLength + 1 else 1 })

/-- A sample at the debounced level empties the run and gives no event; at a closed one a held expiry is taken:
LOCKED, with NOT_OPENED (R80, R83). -/
def Sys2Proof.Claims.DebouncedLevelEmptiesTheRun : Prop :=
  ∀ (s : State) (h : Fin 17) (level : Sense), s.inReset = false → s.drawers[h].sense = some level →
    let d : Drawer := { s.drawers[h] with runLevel := level, runLength := 0 }
    (s.drawers[h].heldExpiry = false → Gives (.drawerSenseSample h level) s (setDrawer s h d)) ∧
    (s.drawers[h].heldExpiry = true → s.configuration.holderActive h = true → level = .closed →
      Gives (.drawerSenseSample h level) s
      (eventEntry
        (setDrawer s h { d with state := .locked, window := none, limit := none, heldExpiry := false })
        { kind := 8, code := 1, position := h.val, holderA := h.val, ref := h.val }))

/-- An inactive holder's samples are debounced, and move its drawer in no case (R76, R80). -/
def Sys2Proof.Claims.InactiveHoldersSenseIsDebouncedAlone : Prop :=
  ∀ (s : State) (h : Fin 17) (level : Sense), s.inReset = false → s.configuration.holderActive h = false →
    let d := s.drawers[h]
    let run := if d.runLevel = level then d.runLength + 1 else 1
    Gives (.drawerSenseSample h level) s (setDrawer s h { d with
      runLevel := level,
      sense := if d.sense ≠ some level ∧ 3 ≤ run then some level else d.sense,
      runLength := if d.sense = some level ∨ 3 ≤ run then 0 else run })

/-- The drawer's sense: runs of samples, sensed open, sensed closed (R76, R80, R83 to R85). -/
def Obligations.SensedSamplesMoveTheDrawer : Prop :=
  Claims.SensedOpenOpensTheDrawer ∧ Claims.SensedClosedLocksTheDrawer ∧ Claims.ShortRunGivesNoEvent ∧
    Claims.DebouncedLevelEmptiesTheRun ∧ Claims.InactiveHoldersSenseIsDebouncedAlone

/-- The release window runs out: with no open run forming the drawer is LOCKED with NOT_OPENED, with one forming
the expiry is held (R83, R84). -/
def Sys2Proof.Claims.WindowExpiryLocksOrIsHeld : Prop :=
  ∀ (s : State) (h : Fin 17) (span : Nat), s.inReset = false → s.drawers[h].state = .released →
    s.drawers[h].window = some span → s.drawers[h].heldExpiry = false →
    (¬(s.drawers[h].runLevel = .opened ∧ 1 ≤ s.drawers[h].runLength) →
      Gives (.releaseWindowExpiry h) s
        (eventEntry
          (setDrawer s h { s.drawers[h] with state := .locked, window := none, limit := none })
          { kind := 8, code := 1, position := h.val, holderA := h.val, ref := h.val })) ∧
    (s.drawers[h].runLevel = .opened ∧ 1 ≤ s.drawers[h].runLength →
      Gives (.releaseWindowExpiry h) s
        (setDrawer s h { s.drawers[h] with window := none, heldExpiry := true }))

/-- A held expiry is taken at the closed sample that empties the open run: LOCKED, with NOT_OPENED (R83); with the
sense undetermined that sample begins a run of its own level (DEDUCED, log 32). -/
def Sys2Proof.Claims.HeldExpiryIsTakenAtTheClosedSample : Prop :=
  ∀ (s : State) (h : Fin 17), s.inReset = false → s.configuration.holderActive h = true →
    s.drawers[h].state = .released → s.drawers[h].heldExpiry = true →
    let taken (run : Nat) := eventEntry
      (setDrawer s h { s.drawers[h] with
        state := .locked, window := none, limit := none, heldExpiry := false, runLevel := .closed,
        runLength := run })
      { kind := 8, code := 1, position := h.val, holderA := h.val, ref := h.val }
    let gives (x : State) := Gives (.heldExpiryTaken h) s x ∧ Gives (.drawerSenseSample h .closed) s x
    (s.drawers[h].sense = some .closed → gives (taken 0)) ∧
    (s.drawers[h].sense = none → s.drawers[h].runLevel = .opened → gives (taken 1))

/-- The overdue limit runs out: OVERDUE with no timer, DRAWER_OVERDUE, and an OVERDUE entry (R86). -/
def Sys2Proof.Claims.OverdueLimitRaisesTheAlert : Prop :=
  ∀ (s : State) (h : Fin 17) (span : Nat), s.inReset = false → s.drawers[h].limit = some span →
    Gives (.overdueLimitExpiry h) s
      (eventEntry
        (raiseAlert (setDrawer s h { s.drawers[h] with state := .overdue, limit := none }) .drawerOverdue)
        { kind := 8, code := 2, position := h.val, holderA := h.val, ref := h.val })

/-- The release window and the overdue limit run out (R83, R84, R86). -/
def Obligations.DrawerTimersRunOut : Prop :=
  Claims.WindowExpiryLocksOrIsHeld ∧ Claims.HeldExpiryIsTakenAtTheClosedSample ∧
    Claims.OverdueLimitRaisesTheAlert

/-- The first determination of an active holder's sense settles its LOCKED or RELEASED drawer with a settle
pending: open, it is OPEN with its limit started and its window stopped; closed, it stays as it is; with no forced
report. The sample that determines it is an event of both rows, SENSE_SETTLE and DRAWER_SENSE_SAMPLE (R80, R90). -/
def Sys2Proof.Claims.FirstDeterminationSettlesTheDrawer : Prop :=
  ∀ (s : State) (h : Fin 17) (level : Sense), s.inReset = false →
    s.configuration.holderActive h = true → s.drawers[h].settle = true →
    s.drawers[h].sense = none → s.drawers[h].runLevel = level → s.drawers[h].runLength = 2 →
    s.drawers[h].state = .locked ∨ s.drawers[h].state = .released →
    let determined : Drawer :=
      { s.drawers[h] with sense := some level, runLength := 0, settle := false }
    let gives (x : State) := Gives (.senseSettle h level) s x ∧ Gives (.drawerSenseSample h level) s x
    (level = .opened → gives
      (setDrawer s h { determined with
        state := .opened, window := none, limit := some s.configuration.overdueSpan,
        heldExpiry := false })) ∧
    (level = .closed → gives (setDrawer s h determined))

/-- Without a settle pending the first determination moves no drawer, and SENSE_SETTLE is no event (R80, R90). -/
def Sys2Proof.Claims.DeterminationWithoutASettle : Prop :=
  ∀ (s : State) (h : Fin 17) (level : Sense), s.inReset = false → s.drawers[h].settle = false →
    s.drawers[h].sense = none → s.drawers[h].runLevel = level → s.drawers[h].runLength = 2 →
    Gives (.drawerSenseSample h level) s
      (setDrawer s h { s.drawers[h] with sense := some level, runLength := 0 }) ∧
    Gives (.senseSettle h level) s s

/-- The first determination of a drawer's sense (R80, R90). -/
def Obligations.FirstDeterminationSettlesTheDrawer : Prop :=
  Claims.FirstDeterminationSettlesTheDrawer ∧ Claims.DeterminationWithoutASettle

/-! ### Monitors and journal entries (chapters 6 and 7) -/

/-- When a leg matches a monitor: the monitor enabled, the kind in its mask, its holder ANY or the leg's, its
currency the leg's, and the comparison of its basis, compare and mode (R97). -/
def Obligations.MonitorLegMatches : Prop :=
  ∀ (d : MonitorSetup) (l : WatchedLeg), 1 ≤ l.kind → l.kind ≤ 7 →
    let watched := d.enabled = 1 ∧ flagSet d.mask (l.kind - 1) = true ∧
      (d.holder = 0xFF ∨ ∃ h, l.holder = some h ∧ d.holder = h.val) ∧ d.currency = l.currency.val
    (d.basis = 0 → d.compare = 0 →
      (legMatches d l = true ↔ watched ∧ (d.threshold : Int) ≤ l.amount)) ∧
    (d.basis = 0 → d.compare = 1 →
      (legMatches d l = true ↔ watched ∧ l.amount < (d.threshold : Int))) ∧
    (d.basis = 1 → l.holder = none → legMatches d l = false) ∧
    (∀ h, d.basis = 1 → l.holder = some h →
      (d.mode = 0 → d.compare = 0 → (legMatches d l = true ↔ watched ∧ d.threshold ≤ l.after)) ∧
      (d.mode = 0 → d.compare = 1 → (legMatches d l = true ↔ watched ∧ l.after < d.threshold)) ∧
      (d.mode = 1 → d.compare = 0 →
        (legMatches d l = true ↔ watched ∧ l.before < d.threshold ∧ d.threshold ≤ l.after)) ∧
      (d.mode = 1 → d.compare = 1 →
        (legMatches d l = true ↔ watched ∧ d.threshold ≤ l.before ∧ l.after < d.threshold)))

/-- The legs are taken in order, and for each leg the monitors M0 to M7; the legs of a TRANSFER are the giving and
the receiving holder, those of an EXCHANGE currency_a and currency_b (R96, R98). -/
def Sys2Proof.Claims.LegsAndMonitorsAreTakenInOrder : Prop :=
  (∀ (c : Configuration) (mon : Monitors), evaluate c mon [] = (mon, [])) ∧
  (∀ (c : Configuration) (mon : Monitors) (legs : List WatchedLeg) (l : WatchedLeg),
    evaluate c mon (legs ++ [l]) =
      ([0, 1, 2, 3, 4, 5, 6, 7] : List (Fin 8)).foldl (considerLeg c l) (evaluate c mon legs)) ∧
  (∀ (before after : Totals) (m : Movement) (a b : Fin 17) (j k : Fin 4), m.holderA = a.val →
    m.holderB = b.val → m.currencyA = j.val → m.currencyB = k.val →
    let leg (h : Fin 17) (c : Fin 4) (amount : Int) : WatchedLeg :=
      ⟨m.kind, some h, c, amount, (recordOf before h c).balance, (recordOf after h c).balance⟩
    let legs := watchedLegs before after m
    (m.form = 1 ∨ m.form = 2 ∨ m.form = 6 → legs = [leg a j m.amountA]) ∧
    (m.form = 3 → legs = [leg a j m.amountA, leg b j m.amountA]) ∧
    (m.form = 4 → legs = [leg a j m.amountA, leg a k m.amountB]) ∧
    (m.form = 5 → legs = [⟨m.kind, none, j, m.amountA, 0, 0⟩]))

/-- While the freeze flag is set an acceptance counts nothing (R98). -/
def Sys2Proof.Claims.FrozenMonitorsCountNothing : Prop :=
  ∀ (c : Configuration) (mon : Monitors) (legs : List WatchedLeg), mon.freeze ≠ none →
    evaluate c mon legs = (mon, [])

/-- One monitor and one leg: no match leaves all as it is; a match counts; the step to 0 with the fired flag
clear fires and sets the flag, and BRANCH_FREEZE sets the freeze flag (R98 to R100). -/
def Sys2Proof.Claims.MonitorCountsAndFires : Prop :=
  ∀ (c : Configuration) (l : WatchedLeg) (mon : Monitors) (firings : List Firing) (m : Fin 8),
    mon.freeze = none →
    (legMatches c.monitors[m] l = false → considerLeg c l (mon, firings) m = (mon, firings)) ∧
    (legMatches c.monitors[m] l = true →
      (mon.counts[m] ≠ 0xFFFFFFFF ∨ mon.fired[m] = true →
        considerLeg c l (mon, firings) m =
          ({ mon with counts := mon.counts.set m (mon.counts[m] + 1) }, firings)) ∧
      (mon.counts[m] = 0xFFFFFFFF → mon.fired[m] = false →
        considerLeg c l (mon, firings) m =
          ({ counts := mon.counts.set m 0, fired := mon.fired.set m true,
             freeze := if c.monitors[m].action = 3 then some m else none },
            firings ++ [⟨m, l, c.monitors[m].action⟩])))

/-- HOLD_HOLDER sets the held flag of its leg's holder and no other, and changes nothing else of the Totals Store;
a leg without a holder and the other actions set none (R100). -/
def Sys2Proof.Claims.HoldActionSetsTheHold : Prop :=
  ∀ (t : Totals) (firings : List Firing),
    let t' := holdsAfter t firings
    { t' with flags := t.flags } = t ∧
      ∀ h : Fin 17, t'.flags[h].balanced = t.flags[h].balanced ∧ t'.flags[h].forced = t.flags[h].forced ∧
        (t'.flags[h].held = true ↔
          t.flags[h].held = true ∨ ∃ x ∈ firings, x.action = 2 ∧ x.leg.holder = some h)

/-- The MONITOR_FIRED entry of a firing (R101). -/
def Sys2Proof.Claims.FiredEntryNamesTheFiring : Prop :=
  ∀ (position tag number : Nat) (x : Firing),
    firedEntry position tag number x =
      { kind := 9, code := x.action, position := position,
        holderA := (match x.leg.holder with | some h => h.val | none => 0xFF),
        currencyA := x.leg.currency.val, tag := tag, amountA := x.leg.amount, amountB := number,
        balance := x.leg.after, ref := x.monitor.val }

/-- The legs and the monitors in their order, and what a leg does to a monitor (R98 to R100). -/
def Obligations.MonitorCountsAndFires : Prop :=
  Claims.LegsAndMonitorsAreTakenInOrder ∧ Claims.FrozenMonitorsCountNothing ∧
    Claims.MonitorCountsAndFires ∧ Claims.HoldActionSetsTheHold ∧ Claims.FiredEntryNamesTheFiring

/-- An event entry is dropped while the journal is ABSENT or outside the journaling day states, written under
the event reserve of 8, and otherwise skipped with JOURNAL_FULL (R115). -/
def Sys2Proof.Claims.EventEntryIsWrittenSkippedOrDropped : Prop :=
  ∀ (s : State) (f : EntryFields),
    (s.journal.present = false ∨ s.day.state = .setup ∨ s.day.state = .recovering ∨
      s.day.state = .settled → eventEntry s f = s) ∧
    (s.journal.present = true → s.day.state ≠ .setup → s.day.state ≠ .recovering →
      s.day.state ≠ .settled →
      (8 < s.journal.free →
        journalWrites (eventEntry s f).path = journalWrites s.path ++
          entryWrites s (entryContent s.journal.next s.day.clock f) ∧
        (eventEntry s f).journal.next = s.journal.next + 1 ∧
        (eventEntry s f).journal.free = s.journal.free - 1 ∧
        (eventEntry s f).journal.chain =
          chainOf s.journal.chain (entryContent s.journal.next s.day.clock f)) ∧
      (s.journal.free ≤ 8 → eventEntry s f = raiseAlert s .journalFull))

/-- A numbered entry's doublewords: eight, at the ring position of its number, its number in bytes 0 to 3, and
its chain in bytes 60 to 63 (R106, R109, 13.2). -/
def Sys2Proof.Claims.EntryStandsAtItsRingPosition : Prop :=
  ∀ (s : State) (f : EntryFields) (i : Nat), i < 8 →
    let content := entryContent s.journal.next s.day.clock f
    let entry := content ++ leBytes 4 (chainOf s.journal.chain content).toNat
    entry.length = 64 ∧ (entryWrites s content).length = 8 ∧
      (entryWrites s content)[i]? =
        some (s.configuration.bases[4] +
            (s.journal.start + s.journal.next - 1) % s.configuration.size * 0x40 + 8 * i,
          dwordOfBytes (entry.drop (8 * i))) ∧
      (s.journal.next < 2 ^ 32 → field entry 0 4 = s.journal.next)

/-- A day-control entry is dropped while the journal is ABSENT, written while the free count is 1 or more,
whatever the day state, and skipped with JOURNAL_FULL at 0 (R107, R116). -/
def Sys2Proof.Claims.DayControlEntryUsesTheLastEntry : Prop :=
  ∀ (s : State) (f : EntryFields),
    (s.journal.present = false → dayControlEntry s f = s) ∧
    (s.journal.present = true → s.journal.free = 0 → dayControlEntry s f = raiseAlert s .journalFull) ∧
    (s.journal.present = true → 1 ≤ s.journal.free →
      let content := entryContent s.journal.next s.day.clock f
      let t := dayControlEntry s f
      journalWrites t.path = journalWrites s.path ++ entryWrites s content ∧
        t.journal = { s.journal with
          next := s.journal.next + 1, chain := chainOf s.journal.chain content,
          free := s.journal.free - 1 })

/-- A reservation is granted while the journal is PRESENT, the day journals, and the free count is above 8, and
lowers the free count; redeemed in a journaling day state it pays for its entry whatever the free count, elsewhere
it is dropped and raises the free count by 1; without one the entry is an ordinary event entry (R117; the states
SETUP and RECOVERING are DEDUCED, log 29). -/
def Sys2Proof.Claims.ReservationPaysForItsEntry : Prop :=
  ∀ (s : State) (k : Fin 4) (f : EntryFields),
    (reservationGranted s = true ↔ s.journal.present = true ∧ 8 < s.journal.free ∧
      s.day.state ≠ .setup ∧ s.day.state ≠ .recovering ∧ s.day.state ≠ .settled) ∧
    (reserve s k).journal = { s.journal with
      reservations := s.journal.reservations ++ [k], free := s.journal.free - 1 } ∧
    (k ∉ s.journal.reservations → redeemEntry s k f = eventEntry s f) ∧
    (k ∈ s.journal.reservations →
      (s.day.state ≠ .setup → s.day.state ≠ .recovering → s.day.state ≠ .settled →
        let content := entryContent s.journal.next s.day.clock f
        let t := redeemEntry s k f
        journalWrites t.path = journalWrites s.path ++ entryWrites s content ∧
          t.control = s.control ∧
          t.journal = { s.journal with
            next := s.journal.next + 1, chain := chainOf s.journal.chain content,
            reservations := s.journal.reservations.erase k }) ∧
      (s.day.state = .setup ∨ s.day.state = .recovering ∨ s.day.state = .settled →
        redeemEntry s k f = { s with journal := { s.journal with
          reservations := s.journal.reservations.erase k, free := s.journal.free + 1 } }))

/-- JOURNAL_LOW is raised where an entry or a grant lowers the free count to a value f with 10 f at most E, and
not where it lowers it to more (R118). -/
def Sys2Proof.Claims.LowFreeCountRaisesTheAlert : Prop :=
  ∀ (s : State) (content : List Byte) (k : Fin 4), 1 ≤ s.journal.free →
    let low := 10 * (s.journal.free - 1) ≤ s.configuration.size
    (low → (numberEntry s content true).control.alerts = addAlert s.control.alerts .journalLow ∧
      (reserve s k).control.alerts = addAlert s.control.alerts .journalLow) ∧
    (¬low → (numberEntry s content true).control = s.control ∧ (reserve s k).control = s.control) ∧
    (numberEntry s content false).control = s.control

/-- An entry's 64 bytes hold its fields at their offsets, each of its width and low byte first, amounts and balance
in two's complement, the chain last; and the fields of any entry are read back from the same places (R108, 13.2). -/
def Sys2Proof.Claims.EntryFieldsStandAtTheirOffsets : Prop :=
  (∀ (number time : Nat) (chain : BitVec 32) (f : EntryFields),
    let e := entryContent number time f ++ leBytes 4 chain.toNat
    let signed (x : Int) : Nat := (x % 2 ^ 64).toNat
    e.length = 64 ∧ uintAt e 0x00 4 = number % 2 ^ 32 ∧ uintAt e 0x04 4 = time % 2 ^ 32 ∧
    uintAt e 0x08 1 = f.kind % 256 ∧ uintAt e 0x09 1 = f.code % 256 ∧ uintAt e 0x0A 1 = f.position % 256 ∧
    uintAt e 0x0B 1 = f.holderA % 256 ∧ uintAt e 0x0C 1 = f.holderB % 256 ∧
    uintAt e 0x0D 1 = f.currencyA % 256 ∧ uintAt e 0x0E 1 = f.currencyB % 256 ∧
    uintAt e 0x0F 1 = f.flags % 256 ∧ uintAt e 0x10 4 = f.tag % 2 ^ 32 ∧ uintAt e 0x14 8 = signed f.amountA ∧
    uintAt e 0x1C 8 = signed f.amountB ∧ uintAt e 0x24 8 = f.account % 2 ^ 64 ∧
    uintAt e 0x2C 8 = signed f.balance ∧ uintAt e 0x34 4 = f.ref % 2 ^ 32 ∧
    uintAt e 0x38 4 = f.teller % 2 ^ 32 ∧ uintAt e 0x3C 4 = chain.toNat) ∧
  ∀ e : List Byte,
    let f := entryFields e
    let signed (x : Int) (offset : Nat) : Prop :=
      -2 ^ 63 ≤ x ∧ x < 2 ^ 63 ∧ x % 2 ^ 64 = uintAt e offset 8
    entryNumber e = uintAt e 0x00 4 ∧ f.kind = uintAt e 0x08 1 ∧ f.code = uintAt e 0x09 1 ∧
    f.position = uintAt e 0x0A 1 ∧ f.holderA = uintAt e 0x0B 1 ∧ f.holderB = uintAt e 0x0C 1 ∧
    f.currencyA = uintAt e 0x0D 1 ∧ f.currencyB = uintAt e 0x0E 1 ∧ f.flags = uintAt e 0x0F 1 ∧
    f.tag = uintAt e 0x10 4 ∧ signed f.amountA 0x14 ∧ signed f.amountB 0x1C ∧ f.account = uintAt e 0x24 8 ∧
    signed f.balance 0x2C ∧ f.ref = uintAt e 0x34 4 ∧ f.teller = uintAt e 0x38 4 ∧
    (entryChain e).toNat = uintAt e 0x3C 4

/-- A BREAKDOWN entry's 64 bytes: number, time, kind 3 and code in their places, zeros in 0A and 0B, the twelve
counts of breakdown_a from 0C and of breakdown_b from 24, the chain last (R111, 13.2). -/
def Sys2Proof.Claims.BreakdownCountsStandAtTheirOffsets : Prop :=
  ∀ (number time code : Nat) (chain : BitVec 32) (a b : List Nat), a.length = 12 → b.length = 12 →
    let e := breakdownContent number time code a b ++ leBytes 4 chain.toNat
    e.length = 64 ∧ uintAt e 0x00 4 = number % 2 ^ 32 ∧ uintAt e 0x04 4 = time % 2 ^ 32 ∧ uintAt e 0x08 1 = 3 ∧
    uintAt e 0x09 1 = code % 256 ∧ uintAt e 0x0A 2 = 0 ∧
    (∀ d < 12, uintAt e (0x0C + 2 * d) 2 = a.getD d 0 % 2 ^ 16 ∧
      uintAt e (0x24 + 2 * d) 2 = b.getD d 0 % 2 ^ 16) ∧
    uintAt e 0x3C 4 = chain.toNat

/-- The chain of an entry: the CRC-32 over the chain before it, low byte first, and its first 60 bytes (R109). -/
def Sys2Proof.Claims.ChainCoversTheContent : Prop :=
  ∀ (previous : BitVec 32) (content rest : List Byte), content.length = 60 →
    chainOf previous (content ++ rest) = crc32 (leBytes 4 previous.toNat ++ content)

/-- The CRC-32: polynomial EDB88320h in a register shifted right, each byte in its low lane, started at all ones
and inverted at its end (R109). -/
def Sys2Proof.Claims.ChainIsAShiftRegister : Prop :=
  let shift (r : BitVec 32) : BitVec 32 := if r.getLsbD 0 = true then (r >>> 1) ^^^ 0xEDB88320 else r >>> 1
  crc32 [] = 0 ∧
    ∀ (bytes : List Byte) (b : Byte), crc32 (bytes ++ [b]) = ~~~(shift^[8] (~~~crc32 bytes ^^^ b.setWidth 32))

/-- The room rules of the entries, where a numbered entry stands, its fields, its chain, and JOURNAL_LOW (R106,
R108, R109, R111, R115 to R118, 13.2). -/
def Obligations.EventEntryIsWrittenSkippedOrDropped : Prop :=
  Claims.EventEntryIsWrittenSkippedOrDropped ∧ Claims.EntryStandsAtItsRingPosition ∧
    Claims.DayControlEntryUsesTheLastEntry ∧ Claims.ReservationPaysForItsEntry ∧
    Claims.LowFreeCountRaisesTheAlert ∧ Claims.EntryFieldsStandAtTheirOffsets ∧
    Claims.BreakdownCountsStandAtTheirOffsets ∧ Claims.ChainCoversTheContent ∧ Claims.ChainIsAShiftRegister

/-- CHECK_JOURNAL with the journal PRESENT writes IN_PROGRESS and begins a read-back run from entry 1 to the last
numbered entry, against the running chain; with it ABSENT, and in RECOVERING, it is REFUSED_STATE (detail 0, log
56) (R121). -/
def Sys2Proof.Claims.CheckJournalBeginsARun : Prop :=
  ∀ (s : State) (addr : Nat) (mask : ByteMask) (data : Dword), CommandGiven s addr mask data 14 →
    let t := commandTaken s addr mask data
    (s.day.state = .recovering ∨ s.journal.present = false → Gives .checkJournal s (complete t .refusedState 0)) ∧
    (s.day.state ≠ .recovering → s.journal.present = true → ∃ u, exec .checkJournal s = .next u ∧
      u.control.journalCheck = some (s.journal.next - 1, s.journal.chain) ∧
      (∃ r ∈ u.journal.runs, r.requester = .check ∧ r.next = 1 ∧ r.last = some (s.journal.next - 1)) ∧
      journalWrites u.path = journalWrites (complete t .inProgress 0).path ∧ u.totals = s.totals ∧
      u.journal.next = s.journal.next ∧ u.journal.free = s.journal.free)

/-- A verified entry of the CHECK_JOURNAL run that is not its last moves the run on to the next number, with the
entry's chain as the check chain; an entry that fails ends the run, raises JOURNAL_DAMAGED and completes FAILED
with its number (R119 to R121; the row as its own step, log 12). -/
def Sys2Proof.Claims.JournalRunVerifiesOrBreaks : Prop :=
  ∀ (s : State) (r : Run) (last : Nat), s.inReset = false → s.journal.runs = [r] →
    r.requester = .check → r.started = true → r.last = some last →
    s.journal.serving = some .check → 8 ≤ s.journal.buffer.length →
    let e := bytesOfDwords (s.journal.buffer.take 8)
    (entryNumber e = r.next → entryChain e = chainOf (r.chain.getD 0xFFFFFFFF) e → r.next < last →
      ∃ t, exec .journalRunEntry s = .next t ∧
        t.journal.runs = [{ r with next := r.next + 1, chain := some (entryChain e) }] ∧
        t.totals = s.totals ∧ t.monitors = s.monitors ∧ t.control.alerts = s.control.alerts ∧
        journalWrites t.path = journalWrites s.path) ∧
    (entryNumber e ≠ r.next ∨ entryChain e ≠ chainOf (r.chain.getD 0xFFFFFFFF) e →
      ∃ t, exec .journalRunEntry s = .next t ∧ t.journal.runs = [] ∧
        t.control.alerts = addAlert s.control.alerts .journalDamaged ∧ t.control.journalCheck = none ∧
        journalWrites t.path = journalWrites s.path ++ [(windowBase s 0 + 0x1838,
          completionDword (takenTag s) .failed r.next)])

/-- The last entry of the CHECK_JOURNAL run, verified, ends it: DONE with its number when its chain is the one
noted when the command was taken, else JOURNAL_DAMAGED and FAILED with that number (R121; the row as its own step,
log 12). -/
def Sys2Proof.Claims.JournalCheckEndsAtItsLastEntry : Prop :=
  ∀ (s : State) (r : Run) (last : Nat) (noted : BitVec 32), s.inReset = false → s.journal.runs = [r] →
    r.requester = .check → r.started = true → r.last = some last → r.next = last →
    s.journal.serving = some .check → 8 ≤ s.journal.buffer.length →
    s.control.journalCheck = some (last, noted) →
    let e := bytesOfDwords (s.journal.buffer.take 8)
    let ended : State := { s with
      journal := { s.journal with runs := [] }, control := { s.control with journalCheck := none } }
    entryNumber e = last → entryChain e = chainOf (r.chain.getD 0xFFFFFFFF) e →
    (entryChain e = noted → Gives .journalRunEntry s (complete ended .done last)) ∧
    (entryChain e ≠ noted →
      Gives .journalRunEntry s (complete (raiseAlert ended .journalDamaged) .failed last))

/-- CHECK_JOURNAL, its read-back run and the run's end (R119 to R121). -/
def Obligations.JournalRunsVerifyOrBreak : Prop :=
  Claims.CheckJournalBeginsARun ∧ Claims.JournalRunVerifiesOrBreaks ∧
    Claims.JournalCheckEndsAtItsLastEntry

/-! ### The clock, the commands and the alerts (chapters 10 and 12) -/

/-- A tick advances the clock by one, from 172,799 to 0, and does nothing else unless the cut-off compare fires
(R163, R165). -/
def Sys2Proof.Claims.TickAdvancesTheClock : Prop :=
  ∀ s : State, s.inReset = false → s.day.clock < 172800 →
    let clock := if s.day.clock = 172799 then 0 else s.day.clock + 1
    ¬(s.day.state = .opened ∧ s.configuration.autoCutoff = 1 ∧ clock = s.configuration.cutoff) →
    Gives .tick s { s with day := { s.day with clock := clock } }

/-- The tick that brings the clock to the automatic cut-off's time, at the midnight wrap for 0, makes an OPEN day
CLOSING with a DAY_CUTOFF entry of code 2. With every active holder balanced already and no marked entry queued the
day passes on to SENDING at the same event; else it stays CLOSING (R163, R165, R172). -/
def Sys2Proof.Claims.CutOffComparesAtTheTick : Prop :=
  ∀ s : State, s.inReset = false → s.day.state = .opened → s.day.clock < 172800 →
    let clock := if s.day.clock = 172799 then 0 else s.day.clock + 1
    s.configuration.autoCutoff = 1 → s.configuration.cutoff = clock →
    let cut := dayControlEntry { s with day := { s.day with state := .closing, clock := clock } }
      { kind := 15, code := 2 }
    let ready := (∀ h : Fin 17, s.configuration.holderActive h = true →
      s.totals.flags[h].balanced = true) ∧ ∀ x ∈ s.posting.queue, x.marked = false
    (¬ready → Gives .tick s cut) ∧
    (ready → Gives .tick s (testSending cut) ∧ (testSending cut).day.state = .sending)

/-- The tick and the automatic cut-off (R163, R165). -/
def Obligations.TickAdvancesTheClock : Prop :=
  Claims.TickAdvancesTheClock ∧ Claims.CutOffComparesAtTheTick

/-- CLOSE_DAY in OPEN makes the day CLOSING with a DAY_CUTOFF entry of code 1 and the command's tag, and completes
DONE; with every active holder balanced already and no marked entry queued the day passes on to SENDING at the same
event. In every other state it is REFUSED_STATE, detail 0 (log 56) (R165, R172). That the entries are handed over
before the completion is the model's choice (log 16). -/
def Sys2Proof.Claims.CloseDayCutsOff : Prop :=
  ∀ (s : State) (addr : Nat) (mask : ByteMask) (data : Dword), CommandGiven s addr mask data 5 →
    let t := commandTaken s addr mask data
    let cut := dayControlEntry { t with day := { t.day with state := .closing } }
      { kind := 15, code := 1, tag := takenTag t }
    let ready := (∀ h : Fin 17, s.configuration.holderActive h = true →
      s.totals.flags[h].balanced = true) ∧ ∀ x ∈ s.posting.queue, x.marked = false
    (s.day.state = .opened → ¬ready → Gives .closeDay s (complete cut .done 0)) ∧
    (s.day.state = .opened → ready → Gives .closeDay s (complete (testSending cut) .done 0) ∧
      (testSending cut).day.state = .sending) ∧
    (s.day.state ≠ .opened → Gives .closeDay s (complete t .refusedState 0))

/-- SET_TIME sets the clock outside RECOVERING when its tick is in 0..172,799, and is else BAD_ARGUMENT, in
RECOVERING REFUSED_STATE (detail 0, log 56) (R164). -/
def Sys2Proof.Claims.SetTimeSetsTheClock : Prop :=
  ∀ (s : State) (addr : Nat) (mask : ByteMask) (data : Dword), CommandGiven s addr mask data 4 →
    let t := commandTaken s addr mask data
    let time := laneField s.control.arguments[0] 0 4
    (s.day.state = .recovering → Gives .setTime s (complete t .refusedState 0)) ∧
    (s.day.state ≠ .recovering → 172799 < time → Gives .setTime s (complete t .badArgument 0)) ∧
    (s.day.state ≠ .recovering → time ≤ 172799 →
      Gives .setTime s (complete { t with day := { t.day with clock := time } } .done 0))

/-- CLOSE_DAY and SET_TIME (R164, R165). -/
def Obligations.ClockAndCutOffCommands : Prop :=
  Claims.CloseDayCutsOff ∧ Claims.SetTimeSetsTheClock

/-- A completion is one journal-class doubleword at CONTROL + 1838h: tag, status, zero, detail; IN_PROGRESS
leaves the command busy, and a final one that is placed ends it (R193, 13.4). -/
def Sys2Proof.Claims.CompletionIsOneDoubleword : Prop :=
  ∀ (s : State) (status : Status) (detail : Nat) (k : TakenCommand), s.control.taken = some k →
    k.tag < 0x10000 → detail < 0x100000000 →
    ∃ d : Dword, journalWrites (complete s status detail).path =
        journalWrites s.path ++ [(s.path.windows[0].base + 0x1838, d)] ∧
      laneField d 0 2 = k.tag ∧ laneField d 2 1 = status.code ∧ laneField d 3 1 = 0 ∧
      laneField d 4 4 = detail ∧
      (status = .inProgress → (complete s status detail).control = s.control) ∧
      (status ≠ .inProgress → s.path.waiting = [] → s.path.queue.length < 32 →
        (complete s status detail).control = { s.control with busy := false, taken := none })

/-- A command with a code outside 1..17 completes BAD_ARGUMENT (R192). -/
def Sys2Proof.Claims.UnknownCodeIsBadArgument : Prop :=
  ∀ (s : State) (addr : Nat) (mask : ByteMask) (data : Dword) (code : Nat),
    CommandGiven s addr mask data code → code = 0 ∨ 17 < code →
    Gives .badCommandCode s (complete (commandTaken s addr mask data) .badArgument 0)

/-- The command doubleword: the code in lanes 0 and 1, the tag in lanes 2 and 3 (R192, 13.4). -/
def Sys2Proof.Claims.CommandWordHoldsCodeAndTag : Prop :=
  ∀ d : Dword, commandCode d = d.toNat % 2 ^ 16 ∧ commandTag d = d.toNat / 2 ^ 16 % 2 ^ 16

/-- The command doubleword, the completion of a command, and that of one with no such code (R192, R193, 13.4). -/
def Obligations.CompletionIsOneDoubleword : Prop :=
  Claims.CompletionIsOneDoubleword ∧ Claims.UnknownCodeIsBadArgument ∧ Claims.CommandWordHoldsCodeAndTag

/-- RELEASE_DRAWER hands the drawer a release, clears its forced flag, hands over COMMAND_RELEASE with the
command's tag, and completes DONE with the drawer's state code (R89); entry before completion is the model's
choice (log 16). -/
def Sys2Proof.Claims.ReleaseDrawerReleases : Prop :=
  ∀ (s : State) (addr : Nat) (mask : ByteMask) (data : Dword) (h : Fin 17),
    CommandGiven s addr mask data 7 → s.control.config.isSome = true → s.day.state ≠ .recovering →
    laneField s.control.arguments[0] 0 1 = h.val → s.configuration.holderActive h = true →
    let t := commandTaken s addr mask data
    let d : Drawer := { releasedDrawer s.configuration s.drawers[h] with forced := false }
    Gives .releaseDrawer s
      (complete
        (eventEntry (setDrawer t h d)
          { kind := 8, code := 5, position := h.val, holderA := h.val, tag := takenTag t, ref := h.val })
        .done (if s.drawers[h].state = .locked ∨ s.drawers[h].state = .released then 1 else 2))

/-- RELEASE_HOLD clears the holder's held flag, with a HOLD_RELEASED entry, and completes DONE with whether it
was set (R103); entry before completion is the model's choice (log 16). -/
def Sys2Proof.Claims.ReleaseHoldClearsTheHold : Prop :=
  ∀ (s : State) (addr : Nat) (mask : ByteMask) (data : Dword) (h : Fin 17),
    CommandGiven s addr mask data 8 → s.control.config.isSome = true → s.day.state ≠ .recovering →
    laneField s.control.arguments[0] 0 1 = h.val → s.configuration.holderActive h = true →
    let t := commandTaken s addr mask data
    let was := if s.totals.flags[h].held = true then 1 else 0
    Gives .releaseHold s
      (complete
        (eventEntry
          { t with totals := { t.totals with
              flags := t.totals.flags.set h { t.totals.flags[h] with held := false } } }
          { kind := 11, code := was, holderA := h.val, tag := takenTag t, ref := h.val })
        .done was)

/-- RELEASE_DRAWER and RELEASE_HOLD are REFUSED_STATE in RECOVERING or before a configuration, and else
BAD_ARGUMENT for a holder number above 16 or an inactive holder, detail 0 (log 56) (R89, R103, R197). -/
def Sys2Proof.Claims.HolderCommandsAreRefused : Prop :=
  ∀ (s : State) (addr : Nat) (mask : ByteMask) (data : Dword) (c : Instr) (code : Nat),
    (c = .releaseDrawer ∧ code = 7) ∨ (c = .releaseHold ∧ code = 8) → CommandGiven s addr mask data code →
    let t := commandTaken s addr mask data
    let n := laneField s.control.arguments[0] 0 1
    (s.day.state = .recovering ∨ s.control.config = none → Gives c s (complete t .refusedState 0)) ∧
    (s.day.state ≠ .recovering → s.control.config ≠ none →
      (16 < n ∨ ∃ h : Fin 17, n = h.val ∧ s.configuration.holderActive h = false) →
      Gives c s (complete t .badArgument 0))

/-- RELEASE_DRAWER and RELEASE_HOLD (R89, R103). -/
def Obligations.HolderCommandsActOnTheHolder : Prop :=
  Claims.ReleaseDrawerReleases ∧ Claims.ReleaseHoldClearsTheHold ∧ Claims.HolderCommandsAreRefused

/-- CLEAR_MONITOR clears the monitor's fired flag, loads its count from its preset, lifts the freeze it set, and
completes DONE with whether it had fired; under another monitor's freeze it is REFUSED_STATE (R102). It is
REFUSED_STATE too in RECOVERING or before a configuration, and else BAD_ARGUMENT for a number above 7, detail 0
(log 56). That the entry is handed over before the completion is the model's choice (log 16). -/
def Obligations.ClearMonitorLoadsThePreset : Prop :=
  ∀ (s : State) (addr : Nat) (mask : ByteMask) (data : Dword), CommandGiven s addr mask data 9 →
    let t := commandTaken s addr mask data
    let number := laneField s.control.arguments[0] 0 1
    (∀ m : Fin 8, s.control.config ≠ none → s.day.state ≠ .recovering → number = m.val →
      let fired := if s.monitors.fired[m] = true then 1 else 0
      (s.monitors.freeze = none ∨ s.monitors.freeze = some m →
        Gives .clearMonitor s
          (complete
            (eventEntry
              { t with monitors :=
                  { counts := s.monitors.counts.set m (BitVec.ofNat 32 s.configuration.monitors[m].preset),
                    fired := s.monitors.fired.set m false, freeze := none } }
              { kind := 10, code := fired, tag := takenTag t, amountA := s.monitors.counts[m].toNat,
                ref := m.val })
            .done fired)) ∧
      (∀ n, s.monitors.freeze = some n → n ≠ m → Gives .clearMonitor s (complete t .refusedState 0))) ∧
    (s.day.state = .recovering ∨ s.control.config = none →
      Gives .clearMonitor s (complete t .refusedState 0)) ∧
    (s.day.state ≠ .recovering → s.control.config ≠ none → 7 < number →
      Gives .clearMonitor s (complete t .badArgument 0))

/-- CLEAR_ALERTS removes the masked alerts and reports which were removed; a mask bit that is no alert's is
BAD_ARGUMENT, detail 0 (log 56) (R202). -/
def Obligations.ClearAlertsRemovesTheMasked : Prop :=
  ∀ (s : State) (addr : Nat) (mask : ByteMask) (data : Dword), CommandGiven s addr mask data 17 →
    let t := commandTaken s addr mask data
    let alerts : BitVec 16 := s.control.arguments[0].setWidth 16
    (0x800 ≤ alerts.toNat → Gives .clearAlerts s (complete t .badArgument 0)) ∧
    (alerts.toNat < 0x800 →
      Gives .clearAlerts s
        (complete { t with control := { t.control with alerts := s.control.alerts &&& ~~~alerts } }
          .done (s.control.alerts &&& alerts).toNat))

/-- CHECK_TOTALS marks the failing records of active holders in configured currencies, raises TOTALS_FAULT when
there is one, and completes DONE with their number (R73). -/
def Sys2Proof.Claims.CheckTotalsMarksTheFailing : Prop :=
  ∀ (s : State) (addr : Nat) (mask : ByteMask) (data : Dword), CommandGiven s addr mask data 15 →
    let t := commandTaken s addr mask data
    let failing := (examinedRecords s.configuration).filter (failsExamination s.configuration s.totals)
    (failing = [] → Gives .checkTotals s (complete t .done 0)) ∧
    (failing ≠ [] → Gives .checkTotals s
      (complete (raiseAlert { t with totals := markFaulty s.totals failing } .totalsFault) .done
        failing.length))

/-- ATTN is asserted while an alert is present (R201). -/
def Sys2Proof.Claims.AttentionFollowsTheAlerts : Prop :=
  ∀ s : State, (s.attention = true ↔ s.control.alerts ≠ 0) ∧
    ∀ a b : Alert, alertIn (raiseAlert s a).control.alerts b = (decide (b = a) || alertIn s.control.alerts b)

/-- What CHECK_TOTALS tests, and check 8: a record fails the examination where it carries the mark, its check word
is not the CRC-16 of its counts and its balance, or its balance is not the sum of its counts times their faces; it
verifies where it carries no mark and has that check word. The marking sets the mark of the records named and
changes nothing else (R70, R72, R73). -/
def Sys2Proof.Claims.ExaminationTestsMarkWordAndSum : Prop :=
  ∀ (c : Configuration) (t : Totals) (h : Fin 17) (k : Fin 4) (named : List (Fin 17 × Fin 4)),
    let r := recordOf t h k
    let word := crc16 (r.counts.flatMap (leBytes 2) ++ leBytes 8 r.balance)
    let faces := if c.currencies[k].configured = 1 then
      c.currencies[k].faces.take c.currencies[k].denominations else []
    (failsExamination c t (h, k) = true ↔
      r.faulty = true ∨ r.check ≠ word ∨ r.balance ≠ (List.zipWith (· * ·) r.counts faces).sum) ∧
    (recordVerifies r = true ↔ r.faulty = false ∧ r.check = word) ∧
    recordOf (markFaulty t named) h k = { r with faulty := r.faulty || decide ((h, k) ∈ named) } ∧
    { markFaulty t named with records := t.records } = t

/-- The CRC-16: polynomial 1021h in a register shifted left, each byte in its high lane, started at all ones (R70). -/
def Sys2Proof.Claims.CheckWordIsAShiftRegister : Prop :=
  let shift (r : BitVec 16) : BitVec 16 := if r.msb = true then (r <<< 1) ^^^ 0x1021 else r <<< 1
  crc16 [] = 0xFFFF ∧
    ∀ (bytes : List Byte) (b : Byte), crc16 (bytes ++ [b]) = shift^[8] (crc16 bytes ^^^ (b.setWidth 16 <<< 8))

/-- CHECK_TOTALS, what it and check 8 test, and the ATTN pin (R70, R72, R73, R201). -/
def Obligations.CheckTotalsMarksTheFailing : Prop :=
  Claims.CheckTotalsMarksTheFailing ∧ Claims.AttentionFollowsTheAlerts ∧
    Claims.ExaminationTestsMarkWordAndSum ∧ Claims.CheckWordIsAShiftRegister

/-- FORCE_BALANCE in OPEN or CLOSING sets the holder's balanced flag and force-balanced mark with a FORCE_BALANCED
entry, makes the test of the move to SENDING, and completes DONE 1; a balanced holder completes DONE 0. In every
other state it is REFUSED_STATE, and for a holder above 16 or inactive BAD_ARGUMENT, detail 0 (log 56) (R171,
R172). That the entry is handed over before the completion is the model's choice (log 16). -/
def Sys2Proof.Claims.ForceBalanceBalancesTheHolder : Prop :=
  ∀ (s : State) (addr : Nat) (mask : ByteMask) (data : Dword), CommandGiven s addr mask data 6 →
    let t := commandTaken s addr mask data
    let n := laneField s.control.arguments[0] 0 1
    let begun := s.day.state = .opened ∨ s.day.state = .closing
    (∀ h : Fin 17, begun → n = h.val → s.configuration.holderActive h = true →
      let entered := eventEntry
        { t with totals := { t.totals with
            flags := t.totals.flags.set h { t.totals.flags[h] with balanced := true, forced := true } } }
        { kind := 12, holderA := h.val, tag := takenTag t, ref := h.val }
      (s.totals.flags[h].balanced = false → s.day.state = .opened →
        Gives .forceBalance s (complete entered .done 1)) ∧
      (s.totals.flags[h].balanced = false → s.day.state = .closing →
        Gives .forceBalance s (complete (testSending entered) .done 1)) ∧
      (s.totals.flags[h].balanced = true → Gives .forceBalance s (complete t .done 0))) ∧
    (¬begun → Gives .forceBalance s (complete t .refusedState 0)) ∧
    (begun → (16 < n ∨ ∃ h : Fin 17, n = h.val ∧ s.configuration.holderActive h = false) →
      Gives .forceBalance s (complete t .badArgument 0))

/-- With the day CLOSING, every active holder balanced and no marked entry queued, the day becomes SENDING: the
batch is fixed on the last numbered entry, its chain, the control totals and the monitors, block 0, the HEADER,
becomes current and goes out on HO_PRIMARY, and BATCH_STARTED is journaled with the block count; otherwise nothing
happens (R172, R179 to R181). -/
def Sys2Proof.Claims.BalancedDayMovesToSending : Prop :=
  ∀ s : State,
    let c := s.configuration
    let last := s.journal.next - 1
    let records := (examinedRecords c).length
    let p : Plan := {
      last := last, chain := s.journal.chain, records := records,
      blocks := 4 + (records + 3) / 4 + (last + 3) / 4,
      monitors := (List.finRange 8).map fun i => ⟨s.monitors.counts[i], s.monitors.fired[i],
        c.monitors[i].enabled == 1, c.monitors[i].action⟩,
      accepted := s.totals.accepted, hash := s.totals.hash }
    let header := leBytes 4 c.branch ++ leBytes 4 s.day.date ++ leBytes 4 1 ++ leBytes 4 last ++
      leBytes 4 p.blocks
    let balanced := ∀ h : Fin 17, c.holderActive h = true → s.totals.flags[h].balanced = true
    let unmarked := ∀ x ∈ s.posting.queue, x.marked = false
    (s.day.state = .closing → balanced → unmarked →
      testSending s = dayControlEntry
        (sendFrame
          { s with
            day := { s.day with state := .sending },
            batch := { resetBatch with
              state := .awaitAck, plan := some p, current := 0, kind := 1, buffer := header } }
          (c.headOfficePort .primary) (headOfficeFrame 1 0 header))
        { kind := 16, ref := p.blocks }) ∧
    (¬(s.day.state = .closing ∧ balanced ∧ unmarked) → testSending s = s)

/-- FORCE_BALANCE, and the move to SENDING (R171, R172, R179). -/
def Obligations.BalancedDayMovesToSending : Prop :=
  Claims.ForceBalanceBalancesTheHolder ∧ Claims.BalancedDayMovesToSending

/-- APPLY_CONFIG in SETUP or SETTLED with no settlement write begins to take in the image and writes IN_PROGRESS;
in every other day state, and while the settlement write is writing, it is REFUSED_STATE, detail 0 (log 56) (R194). -/
def Sys2Proof.Claims.ApplyConfigFetchesTheImage : Prop :=
  ∀ (s : State) (addr : Nat) (mask : ByteMask) (data : Dword), CommandGiven s addr mask data 1 →
    let t := commandTaken s addr mask data
    (s.day.state = .setup ∨ s.day.state = .settled → s.day.settlement = none →
      Gives .applyConfig s
        (complete { t with control := { t.control with image := some [] } } .inProgress 0)) ∧
    ((s.day.state ≠ .setup ∧ s.day.state ≠ .settled) ∨ s.day.settlement ≠ none →
      Gives .applyConfig s (complete t .refusedState 0))

/-- A fetched image that fails a check completes APPLY_CONFIG FAILED with the check's number and changes no
configuration; one that passes waits as a placement when a read is held, and when none is takes effect at once, as
INSTALL_WINDOW_MAP would install it (R4, R194, R195; the row as its own step, log 12). -/
def Sys2Proof.Claims.FetchedImageIsJudged : Prop :=
  ∀ (s : State) (words : List Dword), s.inReset = false → s.control.image = some words →
    words.length = 768 →
    (∀ detail, imageFault s (bufferBytes words) = some detail →
      Gives .configImageFetched s
        (complete { s with control := { s.control with image := none } } .failed detail)) ∧
    (imageFault s (bufferBytes words) = none → readIsHeld s.path = true →
      Gives .configImageFetched s
        { s with control := { s.control with image := none },
                 path := { s.path with placement := some (imageConfiguration (bufferBytes words)) } }) ∧
    (imageFault s (bufferBytes words) = none → readIsHeld s.path = false →
      let placed := { s with
        control := { s.control with image := none },
        path := { s.path with placement := some (imageConfiguration (bufferBytes words)) } }
      ∃ t, exec .configImageFetched s = .next t ∧ exec .installWindowMap placed = .next t ∧
        t.control.config = some (imageConfiguration (bufferBytes words)))

/-- The checks of an image in their order; the first that fails gives the detail (R195; that check 7 compares the
fields of a currency that neither table configures is DEDUCED, log 57). -/
def Sys2Proof.Claims.ImageChecksAreInOrder : Prop :=
  ∀ (s : State) (b : List Byte),
    let c := imageConfiguration b
    imageFault s b =
      if field b 0x17F8 4 ≠ (crc32 (b.take 6136)).toNat then some 1
      else if windowsFit s.path.windows[0].base c = false then some 2
      else if rolesFit c = false then some 3
      else if currenciesFit c = false then some 4
      else if bindingsFit c = false then some 5
      else if monitorsFit c = false then some 6
      else if s.day.state = .settled ∧ c.currencies ≠ s.configuration.currencies then some 7
      else none

/-- Check 2: E a power of two, bases of 4 KiB, ends below 2^32, and the seven windows apart. -/
def Sys2Proof.Claims.WindowCheckJudgesThePlaces : Prop :=
  ∀ (control : Nat) (c : Configuration),
    let placed : List (Nat × Nat) :=
      c.bases.toList.zip [0x800, 0x10000, 0x400, 0x4000, c.size * 64, 0x2000]
    (windowsFit control c = true ↔
      (∃ n, 10 ≤ n ∧ n ≤ 16 ∧ c.size = 2 ^ n) ∧ (∀ i : Fin 6, c.bases[i] % 0x1000 = 0) ∧
      (∀ w ∈ placed, w.1 + w.2 ≤ 2 ^ 32) ∧
      ((control, 0x2000) :: placed).Pairwise fun v w => v.1 + v.2 ≤ w.1 ∨ w.1 + w.2 ≤ v.1)

/-- Check 3: the role and rate codes, one HO_PRIMARY, no other role twice but UNUSED, and the flags 0 or 1. -/
def Sys2Proof.Claims.RoleCheckJudgesPortsAndFlags : Prop :=
  ∀ c : Configuration,
    (rolesFit c = true ↔
      (∀ k : Fin 6, c.ports[k].role ≤ 8 ∧ c.ports[k].rate ≤ 3) ∧ (∃ k : Fin 6, c.ports[k].role = 7) ∧
      (∀ j k : Fin 6, c.ports[j].role = c.ports[k].role → c.ports[j].role ≠ 0 → j = k) ∧
      (∀ p : Fin 16, (c.positions[p].role = 1 ∨ c.positions[p].role = 2) ∧ c.positions[p].enabled ≤ 1) ∧
      (∀ m : Fin 8, c.monitors[m].enabled ≤ 1) ∧ (∀ k : Fin 4, c.currencies[k].configured ≤ 1) ∧
      (∀ h : Fin 17, c.active[h] ≤ 1) ∧ c.autoCutoff ≤ 1)

/-- Check 4: a currency is configured, and each configured one has its fields in range, its faces ascending and its
separators apart. -/
def Sys2Proof.Claims.CurrencyCheckJudgesTheConfigured : Prop :=
  ∀ c : Configuration,
    (currenciesFit c = true ↔
      (∃ k : Fin 4, c.hasCurrency k = true) ∧
      ∀ k : Fin 4, c.hasCurrency k = true →
        let r := c.currencies[k]
        let faces := r.faces.take r.denominations
        r.exponent ≤ 3 ∧ 1 ≤ r.denominations ∧ r.denominations ≤ 12 ∧
        (∀ f ∈ faces, 1 ≤ f ∧ f ≤ 10000000) ∧ faces.Pairwise (· < ·) ∧
        1 ≤ r.payable ∧ r.payable ≤ 10000000 ∧ r.decimal ≤ 1 ∧ r.grouping ≤ 3 ∧
        groupingSeparator r.grouping ≠ some (decimalSeparator r.decimal))

/-- Check 5: the lines, addresses and printers that positions name, no line and address twice. -/
def Sys2Proof.Claims.BindingCheckJudgesThePositions : Prop :=
  ∀ c : Configuration,
    (bindingsFit c = true ↔
      (∀ p : Fin 16,
        let q := c.positions[p]
        (q.line = 0 ∨ q.line = 1 ∨ q.line = 0xFF) ∧ (q.line ≤ 1 → 1 ≤ q.address ∧ q.address ≤ 14) ∧
        (q.printer ≤ 3 ∨ q.printer = 0xFF)) ∧
      ∀ p q : Fin 16, c.positions[p].line ≤ 1 → c.positions[p].line = c.positions[q].line →
        c.positions[p].address = c.positions[q].address → p = q)

/-- Check 6: an enabled monitor watches ANY or an active holder, a configured currency, with every field in range,
and does not pair AMOUNT with CROSSING (R94). -/
def Sys2Proof.Claims.MonitorCheckJudgesTheEnabled : Prop :=
  ∀ c : Configuration,
    (monitorsFit c = true ↔ ∀ m : Fin 8, c.monitors[m].enabled = 1 →
      let d := c.monitors[m]
      (d.holder = 0xFF ∨ ∃ h : Fin 17, d.holder = h.val ∧ c.holderActive h = true) ∧
      (∃ k : Fin 4, d.currency = k.val ∧ c.hasCurrency k = true) ∧ d.basis ≤ 1 ∧ d.compare ≤ 1 ∧
      d.mode ≤ 1 ∧ 1 ≤ d.action ∧ d.action ≤ 3 ∧ d.threshold ≤ 7864200000000 ∧
      ¬(d.basis = 0 ∧ d.mode = 1))

/-- The fields of an image, each at its offset and of its width, low byte first (13.5). -/
def Sys2Proof.Claims.ImageFieldsStandAtTheirOffsets : Prop :=
  ∀ b : List Byte,
    let c := imageConfiguration b
    let u (offset n : Nat) : Nat := uintAt b offset n
    (∀ i : Fin 6, c.bases[i] = u (4 * i.val) 4) ∧ c.size = u 0x18 4 ∧ c.branch = u 0x1C 4 ∧
    c.release = u 0x20 1 ∧ c.overdue = u 0x22 2 ∧ c.cutoff = u 0x24 4 ∧ c.autoCutoff = u 0x28 1 ∧
    (∀ k : Fin 4,
      let o := 0x40 + 0x40 * k.val
      c.currencies[k] = ⟨u o 1, u (o + 1) 1, u (o + 2) 1, u (o + 3) 1, u (o + 4) 1, u (o + 8) 4,
        (List.range 12).map fun d => u (o + 0x10 + 4 * d) 4⟩) ∧
    (∀ h : Fin 17, c.active[h] = u (0x140 + h.val) 1) ∧
    (∀ p : Fin 16,
      let o := 0x160 + 8 * p.val
      c.positions[p] = ⟨u o 1, u (o + 1) 1, u (o + 2) 1, u (o + 3) 1, u (o + 4) 1⟩) ∧
    (∀ l : Fin 6, c.ports[l] = ⟨u (0x1E0 + 2 * l.val) 1, u (0x1E1 + 2 * l.val) 1⟩) ∧
    ∀ m : Fin 8,
      let o := 0x200 + 0x20 * m.val
      c.monitors[m] = ⟨u o 1, u (o + 1) 1, u (o + 2) 1, u (o + 3) 1, u (o + 4) 1, u (o + 5) 1,
        u (o + 6) 1, u (o + 7) 1, u (o + 8) 8, u (o + 0x10) 4⟩

/-- What a configuration says of a holder, a currency, a position and a line: the flags are 1, a line's port is the
first of its role, and a drop line's positions are the enabled ones on it, in ascending order, where it has a port
(R123, R127, R149, R182, R198, 13.5). -/
def Sys2Proof.Claims.ConfigurationIsReadFromItsFields : Prop :=
  ∀ c : Configuration,
    let role (n : Nat) (port : Option (Fin 6)) : Prop :=
      (port = none ↔ ∀ k : Fin 6, c.ports[k].role ≠ n) ∧
      ∀ k, port = some k → c.ports[k].role = n ∧ ∀ j : Fin 6, j < k → c.ports[j].role ≠ n
    (∀ h : Fin 17, c.holderActive h = true ↔ c.active[h] = 1) ∧
    (∀ k : Fin 4, c.hasCurrency k = true ↔ c.currencies[k].configured = 1) ∧
    (∀ p : Fin 16, c.positionEnabled p = true ↔ c.positions[p].enabled = 1) ∧
    (∀ d : Fin 2, role (1 + d.val) (c.dropPort d)) ∧ (∀ k : Fin 4, role (3 + k.val) (c.printerPort k)) ∧
    role 7 (c.headOfficePort .primary) ∧ role 8 (c.headOfficePort .backup) ∧
    ∀ d : Fin 2, c.linePositions d = (List.finRange 16).filter fun p =>
      decide (c.positions[p].enabled = 1 ∧ c.positions[p].line = d.val ∧ c.dropPort d ≠ none)

/-- APPLY_CONFIG, its image, its fields and the checks of the image (R4, R194, R195, 13.5). -/
def Obligations.ConfigurationImageIsFetchedAndJudged : Prop :=
  Claims.ApplyConfigFetchesTheImage ∧ Claims.FetchedImageIsJudged ∧ Claims.ImageChecksAreInOrder ∧
    Claims.WindowCheckJudgesThePlaces ∧ Claims.RoleCheckJudgesPortsAndFlags ∧
    Claims.CurrencyCheckJudgesTheConfigured ∧ Claims.BindingCheckJudgesThePositions ∧
    Claims.MonitorCheckJudgesTheEnabled ∧ Claims.ImageFieldsStandAtTheirOffsets ∧
    Claims.ConfigurationIsReadFromItsFields

/-- At its installation a configuration takes effect: the Window Map is its placement with CONTROL unmoved, the
drawers stand as their sense shows, the monitors hold their presets, no holder record changes, and a drop line
with a port cycles (R4, R90, R95, R124, R196). -/
def Sys2Proof.Claims.InstalledConfigurationTakesEffect : Prop :=
  ∀ (s : State) (c : Configuration), s.inReset = false → s.path.placement = some c →
    readIsHeld s.path = false →
    ∃ t, exec .installWindowMap s = .next t ∧ t.path.placement = none ∧ t.control.config = some c ∧
      t.path.windows[0] = s.path.windows[0] ∧
      (∀ k : Fin 6, t.path.windows[k.val + 1] =
        ⟨true, c.bases[k], ([0x800, 0x10000, 0x400, 0x4000, c.size * 64, 0x2000] : List Nat).getD k.val 0⟩) ∧
      t.monitors = loadedMonitors c ∧ t.totals = s.totals ∧ t.day.state = s.day.state ∧ t.mem = s.mem ∧
      (∀ h : Fin 17,
        (c.holderActive h = true → s.drawers[h].sense = some .opened →
          t.drawers[h].state = .opened ∧ t.drawers[h].limit = some c.overdueSpan) ∧
        (c.holderActive h = true → s.drawers[h].sense = some .closed → t.drawers[h].state = .locked) ∧
        (c.holderActive h = true → s.drawers[h].sense = none →
          t.drawers[h].state = .locked ∧ t.drawers[h].settle = true) ∧
        (c.holderActive h = false → t.drawers[h].state = .locked ∧ t.drawers[h].forced = false)) ∧
      (∀ d : Fin 2, t.screen.controllers[d].mode = if (c.dropPort d).isSome then .cycling else .idle) ∧
      (s.configuration.size ≠ c.size ∨ s.configuration.bases[4] ≠ c.bases[4] →
        t.journal.present = false ∧ t.journal.free = 0)

/-- With a read held the installation waits (R4). -/
def Sys2Proof.Claims.HeldReadDelaysTheInstallation : Prop :=
  ∀ (s : State) (c : Configuration), s.inReset = false → s.path.placement = some c →
    readIsHeld s.path = true → Gives .installWindowMap s s

/-- At an installation every terminal-table entry is rebuilt: BELL, echo and message cleared, key ring and indexes
kept; ABSENT with its line and address and all rows dirty where the position is enabled on a line with a port,
NOT_CONFIGURED elsewhere (BELL and echo cleared there too, DESIGN CHOICE, log 47). Each such line polls its lowest
position, a line without any has no exchange (R124, R127, R132, R134, R198; the message field blank also where a
line of the position was PRINTING is DEDUCED, log 38). -/
def Sys2Proof.Claims.InstallationRebuildsTheTerminals : Prop :=
  ∀ (s : State) (c : Configuration), s.inReset = false → s.path.placement = some c →
    readIsHeld s.path = false →
    let on (d : Fin 2) (p : Fin 16) :=
      c.positions[p].enabled = 1 ∧ c.positions[p].line = d.val ∧ (c.dropPort d).isSome = true
    ∃ t, exec .installWindowMap s = .next t ∧
      (∀ p : Fin 16,
        let old := s.screen.positions[p]
        let q := t.screen.positions[p]
        q.bell = false ∧ q.echo = false ∧ q.message.text = [] ∧ q.producer = old.producer ∧
        q.writeAt = old.writeAt ∧ q.consumer = old.consumer ∧ q.ring = old.ring ∧
        (on 0 p ∨ on 1 p → q.state = .absent ∧ q.line = c.positions[p].line ∧
          q.address = c.positions[p].address ∧ q.missed = 0 ∧ q.skip = 0 ∧ q.pollBit = false ∧
          q.dirty = BitVec.allOnes 24) ∧
        (¬(on 0 p ∨ on 1 p) → q.state = .notConfigured)) ∧
      ∀ d : Fin 2,
        (∀ (k : Fin 6) (p : Fin 16) (rest : List (Fin 16)), c.dropPort d = some k →
          (List.finRange 16).filter (fun p => decide (on d p)) = p :: rest →
          t.screen.controllers[d].exchange = some ⟨p, .poll, .sending⟩ ∧
          t.screen.controllers[d].remaining = rest ∧
          t.lines[k] = [dropFrame c.positions[p].address 0x02 [0]]) ∧
        ((∀ p, ¬on d p) → t.screen.controllers[d].exchange = none)

/-- At an installation each printer with a port is FAULT and is sent RESET_PRINTER, each without one is IDLE; a
port that is UNUSED or of head office carries nothing (R150, R198). -/
def Sys2Proof.Claims.InstallationRestartsThePrinters : Prop :=
  ∀ (s : State) (c : Configuration), s.inReset = false → s.path.placement = some c →
    readIsHeld s.path = false →
    ∃ t, exec .installWindowMap s = .next t ∧
      (∀ k : Fin 4,
        (∀ port, c.printerPort k = some port →
          t.passbook.printers[k] = { barePrinter .fault with awaited := some .reset } ∧
          t.lines[port] = [printerFrame 0x05 []]) ∧
        (c.printerPort k = none → t.passbook.printers[k] = barePrinter .idle)) ∧
      ∀ port : Fin 6, c.ports[port].role = 0 ∨ c.ports[port].role = 7 ∨ c.ports[port].role = 8 →
        t.lines[port] = []

/-- An installation hands over the 16 ring images, 7 doublewords each, where it makes KEYS known or moves it, and
then APPLY_CONFIG's DONE with detail 0 (R132, R196; the order is DESIGN CHOICE, log 27). -/
def Sys2Proof.Claims.InstallationWritesTheRingsAndCompletes : Prop :=
  ∀ (s : State) (c : Configuration), s.inReset = false → s.path.placement = some c →
    readIsHeld s.path = false → s.day.state = .setup ∨ s.day.state = .settled →
    let ring (p : Fin 16) : List (Nat × Dword) :=
      let q := s.screen.positions[p]
      let base := c.bases[2] + 0x40 * p.val
      ((List.range 6).map fun j => (base + 16 + 8 * j,
        dwordOfFields (((q.ring.drop (4 * j)).take 4).map fun k => (2, k.toNat)))) ++
        [(base, dwordOfFields [(2, q.producer.toNat), (1, q.writeAt)])]
    let moved := s.path.windows[3].known = false ∨ s.configuration.bases[2] ≠ c.bases[2]
    ∃ t, exec .installWindowMap s = .next t ∧
      journalWrites t.path = journalWrites s.path ++
        (if moved then (List.finRange 16).flatMap ring else []) ++
        [(s.path.windows[0].base + 0x1838, completionDword (takenTag s) .done 0)]

/-- An installation puts every doubleword of the Mirror layout in the Mirror dirty set, and the 20 doublewords of the
status row of each enabled position in its image dirty set where it makes SCREENS known or moves it, or where the
position had no composition: after it each is dirty, or stands in the Inject Queue at its new place with what it
shows; a Mirror doubleword at whose address a status row stands may hold the row's. A position that is not enabled
keeps no composition (R136, R137, R196, R199, R200; the hand-overs at the end of the step, log 15). -/
def Sys2Proof.Claims.InstallationRenewsTheMirrorAndTheRows : Prop :=
  ∀ (s : State) (c : Configuration), s.inReset = false → s.path.placement = some c →
    readIsHeld s.path = false →
    let moved := s.path.windows[2].known = false ∨ s.configuration.bases[1] ≠ c.bases[1]
    let mirror (k : Nat) := c.bases[3] + 8 * k
    let row (p : Fin 16) (j : Nat) := c.bases[1] + p.val * 0x1000 + 0xE60 + 8 * j
    ∃ t, exec .installWindowMap s = .next t ∧
      (∀ k ∈ mirrorNumbers, t.control.mirrorDirty.getLsbD k = true ∨
        ∃ e ∈ t.path.queue, e.cls = .mirror ∧ e.addr = mirror k ∧
          ((∀ (p : Fin 16) (j : Nat), j < 20 → row p j ≠ mirror k) →
            e.data = dwordOfFields (mirrorFields t k))) ∧
      (∀ p : Fin 16, c.positions[p].enabled = 1 →
        moved ∨ s.screen.positions[p].composition = none →
        ∀ j < 20, t.screen.positions[p].imageDirty.getLsbD j = true ∨
          ∃ e ∈ t.path.queue, e.cls = .mirror ∧ e.addr = row p j ∧
            e.data = dwordOfBytes ((composeRow t p).drop (8 * j))) ∧
      ∀ p : Fin 16, c.positions[p].enabled ≠ 1 → t.screen.positions[p].composition = none

/-- The installation of a configuration (R4, R196). -/
def Obligations.InstalledConfigurationTakesEffect : Prop :=
  Claims.InstalledConfigurationTakesEffect ∧ Claims.HeldReadDelaysTheInstallation ∧
    Claims.InstallationRebuildsTheTerminals ∧ Claims.InstallationRestartsThePrinters ∧
    Claims.InstallationWritesTheRingsAndCompletes ∧ Claims.InstallationRenewsTheMirrorAndTheRows

/-- OPEN_DAY in SETUP or SETTLED under an applied configuration and no settlement write: a bad date, time or flag
is BAD_ARGUMENT; else it writes IN_PROGRESS and makes the fetch of the records its work, or for a fresh start hands
over the record's groups after it (DESIGN CHOICE, log 16). Elsewhere, and fresh in SETTLED, it is REFUSED_STATE
(refusals have detail 0, log 56) (R168, R169). -/
def Sys2Proof.Claims.OpenDayBegins : Prop :=
  ∀ (s : State) (addr : Nat) (mask : ByteMask) (data : Dword), CommandGiven s addr mask data 2 →
    let t := commandTaken s addr mask data
    let date := laneField s.control.arguments[0] 0 4
    let time := laneField s.control.arguments[1] 0 4
    let fresh := laneField s.control.arguments[2] 0 1
    let valid := 1 ≤ date / 100 % 100 ∧ date / 100 % 100 ≤ 12 ∧ 1 ≤ date % 100 ∧ date % 100 ≤ 31
    let refused := (s.day.state ≠ .setup ∧ s.day.state ≠ .settled) ∨ s.control.config = none ∨
      s.day.settlement ≠ none ∨ (fresh = 1 ∧ s.day.state = .settled)
    (refused → Gives .openDay s (complete t .refusedState 0)) ∧
    (¬refused →
      (¬valid ∨ 172799 < time ∨ 1 < fresh → Gives .openDay s (complete t .badArgument 0)) ∧
      (valid → time ≤ 172799 → fresh = 0 →
        Gives .openDay s
          (complete { t with day := { t.day with work := some (.openFetching date time) } } .inProgress 0)) ∧
      (valid → time ≤ 172799 → fresh = 1 →
        Gives .openDay s
          (handGroups
            (complete { t with day := { t.day with work := some (.openWriting date time) } } .inProgress 0)
            (freshGroups t))))

/-- RESUME_DAY in SETUP under an applied configuration makes the day RECOVERING, sets the clock, and writes
IN_PROGRESS; a time above 172,799 is BAD_ARGUMENT; elsewhere REFUSED_STATE (log 56) (R175). -/
def Sys2Proof.Claims.ResumeDayBegins : Prop :=
  ∀ (s : State) (addr : Nat) (mask : ByteMask) (data : Dword), CommandGiven s addr mask data 3 →
    let t := commandTaken s addr mask data
    let time := laneField s.control.arguments[0] 0 4
    (s.day.state ≠ .setup ∨ s.control.config = none → Gives .resumeDay s (complete t .refusedState 0)) ∧
    (s.day.state = .setup → s.control.config ≠ none →
      (172799 < time → Gives .resumeDay s (complete t .badArgument 0)) ∧
      (time ≤ 172799 → Gives .resumeDay s
        (complete
          { t with day := { t.day with
              state := .recovering, clock := time, work := some .resumeChoosing } } .inProgress 0)))

/-- The kind of a replayed POSTING is the one listed first under its number (R176). -/
def Sys2Proof.Claims.ReplayKnowsTheKinds : Prop :=
  ∀ (r : Replay) (a b : List (Nat × Nat)) (n k : Nat), r.kinds = a ++ (n, k) :: b →
    (∀ x ∈ a, x.1 ≠ n) → replayedKind r n = k

/-- A replayed POSTING with pieces waits for its BREAKDOWN next to it; a NONCASH or a REVERSAL without pieces is
booked at once; one of no kind changes nothing. It is booked as at acceptance, from the counts of configured
denominations, a REVERSAL of a COUNT, a REVERSAL or nothing replayed moving nothing (DESIGN CHOICE, log 22); its
firings make no entry (R104, R176, R177). -/
def Sys2Proof.Claims.ReplayBooksPostings : Prop :=
  ∀ (s : State) (n : Nat) (e : List Byte), s.day.replay.last ≠ 0 →
    let c := s.configuration
    let r := s.day.replay
    let kept (k : Nat) (counts : List Nat) : List Nat := counts.mapIdx fun i x =>
      if ∀ j : Fin 4, k = j.val → i < c.denominations j then x else 0
    let moved (f : EntryFields) (form : Nat) : Nat := if f.code = 7 ∧ 5 < form then 0 else form
    let booked (number : Nat) (f : EntryFields) (form : Nat) (b : List Byte) : State :=
      let m : Movement := {
        kind := f.code, form := moved f form, holderA := f.holderA, holderB := f.holderB,
        currencyA := f.currencyA, currencyB := f.currencyB, amountA := f.amountA, amountB := f.amountB,
        rate := f.account, debit := flagSet f.flags 3, breakdownA := kept f.currencyA (fields16 b 0x0C 12),
        breakdownB := kept f.currencyB (fields16 b 0x24 12), ref := f.ref,
        closing := r.state == .closing && !flagSet f.flags 1 }
      let totals := applyMovement c s.totals m
      let judged := evaluate c s.monitors (watchedLegs s.totals totals m)
      let items := if f.code = 7 then replayReversal s.passbook.replay number m.form f
        else replayItem s.passbook.replay number m.form f
      { s with
        totals := holdsAfter totals judged.2, monitors := judged.1,
        passbook := { s.passbook with replay := items },
        day := { s.day with replay := { r with
          kinds := r.kinds ++ [(number, f.code)], last := n, chain := entryChain e, posting := none } } }
    let form (f : EntryFields) : Nat := if f.code = 7 then replayedKind r f.ref else f.code
    let cash (k : Nat) := 1 ≤ k ∧ k ≤ 4 ∨ k = 6
    let f := entryFields e
    (r.posting = none → f.kind = 2 → cash (form f) → replayEntry s n e =
      some { s with day := { s.day with replay := { r with posting := some e } } }) ∧
    (r.posting = none → f.kind = 2 → ¬cash (form f) → f.code = 5 ∨ f.code = 7 →
      replayEntry s n e = some (booked n f (form f) (List.replicate 64 0))) ∧
    (r.posting = none → f.kind = 2 → ¬cash (form f) → f.code ≠ 5 → f.code ≠ 7 →
      replayEntry s n e = some { s with day := { s.day with replay := { r with
        last := n, chain := entryChain e, posting := none } } }) ∧
    (∀ p, r.posting = some p →
      let g := entryFields p
      (f.kind = 3 → f.code = g.code →
        replayEntry s n e = some (booked (entryNumber p) g (form g) e)) ∧
      (¬(f.kind = 3 ∧ f.code = g.code) → replayEntry s n e = none))

/-- A flagged posting's item is pending (none for kinds 3, 4, 6, log 22); a reversal cancels a pending one and is
noted, else its own is pending with the flag, of the side opposite to its original's (free where that has none, log
52). A negative amount_a keeps its kind's mnemonic and turns the side (DESIGN CHOICE, log 61) (R42, R74, R160). -/
def Sys2Proof.Claims.ReplayedPostingsTrackItems : Prop :=
  ∀ (items : List ReplayItem) (number form : Nat) (f : EntryFields) (k : Fin 4), f.currencyA = k.val →
    let flag := flagSet f.flags 0
    let debit := flagSet f.flags 3
    let side := itemSide form debit f.amountA
    let cancels := ∃ i ∈ items, i.item.key = f.ref ∧ i.condition = .pending
    (flag = true → form = 1 ∨ form = 2 ∨ form = 5 → replayItem items number form f =
      addReplayItem ⟨ordinaryItem f.account k number side.1 side.2 f.balance, .pending, none⟩ items) ∧
    (flag = false ∨ form = 3 ∨ form = 4 ∨ form = 6 → replayItem items number form f = items) ∧
    ∃ amount : Int, (amount = f.amountA ∨ amount = -f.amountA) ∧ (form = 1 → amount = -f.amountA) ∧
      (form = 2 → amount = f.amountA) ∧
      (form = 5 → amount = if debit = true then f.amountA else -f.amountA) ∧
      let own := ordinaryItem f.account k number .rev amount f.balance
      (cancels → replayReversal items number form f = items.map fun i =>
        if i.item.key = f.ref then { i with condition := .cancelled, noted := some (own, flag) } else i) ∧
      (¬cancels → replayReversal items number form f =
        if flag = true then addReplayItem ⟨own, .pending, none⟩ items else items)

/-- ITEM_PRINTED marks printed the item it names, or with SUMMARY its account's range, pending or cancelled, and
makes the flagged reversals of the cancelled ones pending; ITEM_UNTRACKED marks its item; at the end the pending
items are admitted in number order (R160; a summary closed on the way is DEDUCED, log 39). -/
def Sys2Proof.Claims.ReplayedPrintsSettleItems : Prop :=
  (∀ (items : List ReplayItem) (f : EntryFields),
    let printed (i : ReplayItem) : Bool := if flagSet f.flags 0 = true then
        decide (i.item.account = f.account ∧ f.tag ≤ i.item.key ∧ i.item.key ≤ f.ref ∧
          (i.condition = .pending ∨ i.condition = .cancelled))
      else decide (i.item.key = f.ref)
    let back := items.filterMap fun i =>
      if printed i ∧ i.condition = .cancelled then
        i.noted.bind fun n => if n.2 = true then some n.1 else none
      else none
    replayPrinted items f = back.foldl (fun l i => addReplayItem ⟨i, .pending, none⟩ l)
      (items.map fun i => if printed i then { i with condition := .printed } else i) ∧
    replayUntracked items f =
      items.map fun i => if i.item.key = f.ref then { i with condition := .untracked } else i) ∧
  (∀ (items : List ReplayItem) (i : ReplayItem), items.Pairwise (fun a b => a.item.key ≤ b.item.key) →
    (addReplayItem i items).Pairwise (fun a b => a.item.key ≤ b.item.key) ∧
      (addReplayItem i items).Perm (i :: items)) ∧
  ∀ items : List ReplayItem, rebuiltItems items =
    (items.filter fun i => i.condition == .pending).foldl (fun table i => (admitItem table i.item).1) []

/-- The other replayed entries: refusals are counted, flags, holds, monitors and items follow their entries, and
entries without effect are passed over; an entry that cannot be part of the day ends the replay (R104, R160, R176,
R177; a MONITOR_FIRED of holder 17..254 counts as one of no holder, DESIGN CHOICE, log 22). -/
def Sys2Proof.Claims.ReplayFollowsTheOtherEntries : Prop :=
  ∀ (s : State) (n : Nat) (e : List Byte), s.day.replay.last ≠ 0 → s.day.replay.posting = none →
    let f := entryFields e
    let t := s.totals
    let mon := s.monitors
    let go (u : State) : Prop := replayEntry s n e = some { u with day := { u.day with
      replay := { u.day.replay with last := n, chain := entryChain e, posting := none } } }
    let flagged (h : Fin 17) (flags : HolderFlags) : State :=
      { s with totals := { t with flags := t.flags.set h flags } }
    (f.kind = 4 → go { s with totals := { t with refused := t.refused + 1 } }) ∧
    (f.kind = 5 → go { s with passbook := { s.passbook with replay := replayPrinted s.passbook.replay f } }) ∧
    (f.kind = 7 → go { s with passbook := { s.passbook with replay := replayUntracked s.passbook.replay f } }) ∧
    (f.kind = 6 ∨ f.kind = 8 ∨ f.kind = 13 ∨ f.kind = 14 → go s) ∧
    (∀ h : Fin 17, f.ref = h.val →
      (f.kind = 11 → go (flagged h { t.flags[h] with held := false })) ∧
      (f.kind = 12 → go (flagged h { t.flags[h] with balanced := true, forced := true }))) ∧
    (∀ m : Fin 8, f.ref = m.val →
      (f.kind = 10 → go { s with monitors :=
        { counts := mon.counts.set m (BitVec.ofNat 32 s.configuration.monitors[m].preset),
          fired := mon.fired.set m false,
          freeze := if mon.freeze = some m then none else mon.freeze } }) ∧
      (f.kind = 9 → mon.fired[m] = true → go s) ∧
      (f.kind = 9 → mon.fired[m] = false →
        let fired (u : State) : State := { u with monitors := { mon with
          fired := mon.fired.set m true,
          freeze := if f.code = 3 ∧ mon.freeze = none then some m else mon.freeze } }
        (∀ h : Fin 17, f.code = 2 → f.holderA = h.val →
          go (fired (flagged h { t.flags[h] with held := true }))) ∧
        (f.code ≠ 2 ∨ 17 ≤ f.holderA → go (fired s)))) ∧
    (f.kind < 2 ∨ f.kind = 3 ∨ 19 < f.kind → replayEntry s n e = none)

/-- The day-control entries move the replayed day state where they follow from it, and end the replay elsewhere;
the first BATCH_STARTED gives the plan of the batch (R176, R177, R190). -/
def Sys2Proof.Claims.ReplayFollowsTheDayStates : Prop :=
  ∀ (s : State) (n : Nat) (e : List Byte), s.day.replay.last ≠ 0 → s.day.replay.posting = none →
    let f := entryFields e
    let state := s.day.replay.state
    let sent := state = .sending ∨ state = .suspended ∨ state = .rejected
    let moved (u : State) (d : DayState) : Prop := replayEntry s n e = some { u with day := { u.day with
      replay := { u.day.replay with state := d, last := n, chain := entryChain e, posting := none } } }
    (f.kind = 15 → (state = .opened → moved s .closing) ∧ (state ≠ .opened → replayEntry s n e = none)) ∧
    (f.kind = 17 → (sent → moved s .suspended) ∧ (¬sent → replayEntry s n e = none)) ∧
    (f.kind = 18 → (sent → moved s .rejected) ∧ (¬sent → replayEntry s n e = none)) ∧
    (f.kind = 19 → (sent → moved s .settled) ∧ (¬sent → replayEntry s n e = none)) ∧
    (f.kind = 16 →
      let restarts := state = .closing ∨ state = .suspended ∨ state = .rejected
      (restarts → s.batch.plan ≠ none → moved s .sending) ∧
      (restarts → s.batch.plan = none →
        ∃ p : Plan, moved { s with batch := { s.batch with plan := some p } } .sending ∧
          p.last = n - 1 ∧ p.chain = s.day.replay.chain ∧ p.blocks = f.ref ∧
          p.accepted = s.totals.accepted ∧ p.hash = s.totals.hash ∧
          p.monitors = (List.finRange 8).map fun i => ⟨s.monitors.counts[i], s.monitors.fired[i],
            s.configuration.monitors[i].enabled == 1, s.configuration.monitors[i].action⟩) ∧
      (¬restarts → replayEntry s n e = none))

/-- OPEN_DAY and RESUME_DAY at their taking, and what each replayed entry does (R168, R169, R175, R176). -/
def Obligations.DayCommandsBegin : Prop :=
  Claims.OpenDayBegins ∧ Claims.ResumeDayBegins ∧ Claims.ReplayKnowsTheKinds ∧
    Claims.ReplayBooksPostings ∧ Claims.ReplayedPostingsTrackItems ∧ Claims.ReplayedPrintsSettleItems ∧
    Claims.ReplayFollowsTheOtherEntries ∧ Claims.ReplayFollowsTheDayStates

/-- Of two valid copies the later settled date is chosen, copy 0 on equal dates; of one, that one; of none, none
(R167). -/
def Sys2Proof.Claims.LaterValidCopyIsChosen : Prop :=
  ∀ s : State,
    let v (k : Fin 2) := s.day.records[k].valid
    let d (k : Fin 2) := recordSettled (copyBytes s k)
    (v 0 = true → v 1 = true → d 1 ≤ d 0 → chosenCopy s = some 0) ∧
    (v 0 = true → v 1 = true → d 0 < d 1 → chosenCopy s = some 1) ∧
    (v 0 = true → v 1 = false → chosenCopy s = some 0) ∧
    (v 0 = false → v 1 = true → chosenCopy s = some 1) ∧
    (v 0 = false → v 1 = false → chosenCopy s = none)

/-- With both copies fetched, OPEN_DAY opens the day from a chosen record older than its date: OPEN, the date and
time of its arguments, the records loaded, journal and monitors at a day's start. DAY_OPEN is number 1 with code 0,
tag, date, settled date, start and E, then DONE with the copy (the order is DESIGN CHOICE, log 16). With no valid
record, or one not older, it completes FAILED and the day state stays (R107, R113, R167, R168, R170; the row as its
own step, log 12). The sender takes all its reset values (those beyond its state and plan DEDUCED, log 40). -/
def Sys2Proof.Claims.FetchedRecordOpensTheDay : Prop :=
  ∀ (s : State) (date time : Nat), s.inReset = false → recordsFetched s = true →
    s.day.work = some (.openFetching date time) →
    (∀ copy, chosenCopy s = some copy → recordSettled (copyBytes s copy) < date → 2 ≤ ringSize s →
      let settled := recordSettled (copyBytes s copy)
      let start := recordStart (copyBytes s copy) % ringSize s
      let opened : State := { s with journal := { s.journal with
        start := start, next := 1, chain := 0xFFFFFFFF } }
      ∃ t, exec .carryRecordFetched s = .next t ∧ t.day.state = .opened ∧ t.day.date = date ∧
        t.day.clock = time ∧ t.day.openingCopy = some copy ∧ t.day.openingSettled = settled ∧
        t.day.work = none ∧
        t.totals = openedTotals s.configuration (carriedCounts (some (copyBytes s copy))) ∧
        t.monitors = loadedMonitors s.configuration ∧ t.passbook.items = [] ∧
        t.journal.present = true ∧ t.journal.start = start ∧
        t.journal.next = 2 ∧ t.journal.free = ringSize s - 1 ∧ t.journal.reservations = [] ∧
        t.batch = resetBatch ∧ (∀ h : Fin 17, t.drawers[h] = { s.drawers[h] with forced := false }) ∧
        (∀ k : Fin 7, t.path.violations[k] = 0 ∧ t.path.reported[k] = false) ∧ t.mem = s.mem ∧
        journalWrites t.path = journalWrites s.path ++
          entryWrites opened (entryContent 1 time
            { kind := 1, code := 0, tag := takenTag s, amountA := date, amountB := settled,
              account := start, ref := ringSize s }) ++
          [(windowBase s 0 + 0x1838, completionDword (takenTag s) .done copy.val)]) ∧
    (chosenCopy s = none →
      Gives .carryRecordFetched s
        (complete { s with day := { s.day with work := none } } .failed 1)) ∧
    (∀ copy, chosenCopy s = some copy → date ≤ recordSettled (copyBytes s copy) →
      Gives .carryRecordFetched s
        (complete { s with day := { s.day with work := none } } .failed 2))

/-- What the opening event with a chosen record leaves, the whole state of the part: every block at its day's
start, the printers' jobs ended with their notice and RESET_PRINTER (FAULT, DEDUCED, log 26), then DAY_OPEN and the
completion (R85, R107, R113, R150, R156, R161, R170, R179; logs 16, 40; the record buffers emptied, DESIGN CHOICE,
log 58). -/
def Sys2Proof.Claims.FetchedOpeningGivesEveryBlockItsStart : Prop :=
  ∀ (s : State) (date time : Nat) (copy : Fin 2), s.inReset = false →
    s.day.work = some (.openFetching date time) → recordsFetched s = true → chosenCopy s = some copy →
    recordSettled (copyBytes s copy) < date →
    let settled := recordSettled (copyBytes s copy)
    let start := recordStart (copyBytes s copy) % ringSize s
    Gives .carryRecordFetched s
      (complete
        (dayControlEntry
          (dayOpened s date time copy settled start fun h k => recordCounts (copyBytes s copy) h k)
          { kind := 1, code := 0, tag := takenTag s, amountA := date, amountB := settled, account := start,
            ref := ringSize s }) .done copy.val)

/-- The record RESUME_DAY chooses is loaded as a day's start, gives the journal start, and the replay run from
number 1 begins with no last number (R122, R167, R175). -/
def Sys2Proof.Claims.ResumeLoadsTheChosenRecord : Prop :=
  ∀ (s : State) (copy : Fin 2), s.inReset = false → recordsFetched s = true →
    s.day.work = some .resumeChoosing → chosenCopy s = some copy →
    let bytes := copyBytes s copy
    Gives .carryRecordFetched s
      { s with
        totals := openedTotals s.configuration (fun h k => recordCounts bytes h k),
        journal := { s.journal with
          start := field bytes 4 4 % s.configuration.size,
          runs := s.journal.runs ++ [⟨.replay, 1, none, some 0xFFFFFFFF, journalUnitFree s⟩] },
        passbook := { s.passbook with replay := [] }, batch := { s.batch with plan := none },
        day := { s.day with openingCopy := some copy, work := some .resumeReplaying,
                            replay := resetReplay } }

/-- RESUME_DAY without a valid record fails with detail 1: SETUP, the totals and the batch as after reset, the
journal ABSENT, the table empty, the monitors at their presets (R104, R122, R178). -/
def Sys2Proof.Claims.ResumeFailsWithoutARecord : Prop :=
  ∀ s : State, s.inReset = false → recordsFetched s = true → s.day.work = some .resumeChoosing →
    chosenCopy s = none →
    Gives .carryRecordFetched s
      (complete
        { s with
          totals := resetTotals, monitors := loadedMonitors s.configuration,
          journal := { s.journal with present := false, free := 0, next := 1 },
          passbook := { s.passbook with items := [], replay := [] }, batch := resetBatch,
          day := { s.day with
            state := .setup, date := 0, openingCopy := none, openingSettled := 0, work := none,
            replay := resetReplay } } .failed 1)

/-- A verified entry of the replay run that is not entry E takes the effect the replay gives it, with no entry and
no alert, and the run goes on to the next number, with the entry's chain as the check chain (R119, R176). -/
def Sys2Proof.Claims.ReplayTakesVerifiedEntries : Prop :=
  ∀ (s u : State) (r : Run), s.inReset = false → s.journal.runs = [r] → r.requester = .replay →
    r.started = true → r.last = none → s.journal.serving = some .replay → 8 ≤ s.journal.buffer.length →
    let e := bytesOfDwords (s.journal.buffer.take 8)
    let runs := [{ r with next := r.next + 1, chain := some (entryChain e) }]
    entryNumber e = r.next → entryChain e = chainOf (r.chain.getD 0xFFFFFFFF) e →
    r.next ≠ s.configuration.size → replayEntry s r.next e = some u →
    Gives .journalRunEntry s { u with journal := { s.journal with runs := runs } } ∧
      ∃ t, exec .journalRunEntry s = .next t ∧ t.journal.runs = runs

/-- The first entry must be the day's DAY_OPEN: of the journal's start and size, dated after the record, and
settled with it; it opens the replayed day, dated as it has them (DESIGN CHOICE, log 54), and clears the monitors
and holds (R104, R175). -/
def Sys2Proof.Claims.ReplayBeginsWithDayOpen : Prop :=
  ∀ (s : State) (n : Nat) (e : List Byte) (copy : Fin 2), s.day.replay.last = 0 →
    s.day.replay.posting = none → s.day.openingCopy = some copy →
    let f := entryFields e
    let settled := field (copyBytes s copy) 0 4
    let fits := f.kind = 1 ∧ f.account = s.journal.start ∧ f.ref = s.configuration.size ∧
      (settled : Int) < f.amountA ∧ (f.code = 0 → f.amountB = settled) ∧ (f.code = 1 → settled = 101)
    (¬fits → replayEntry s n e = none) ∧
    (fits → replayEntry s n e = some { s with
      monitors := loadedMonitors s.configuration,
      totals := { s.totals with
        flags := Vector.ofFn fun h : Fin 17 => { s.totals.flags[h] with held := false } },
      day := { s.day with
        date := f.amountA.toNat, openingSettled := f.amountB.toNat,
        replay := { s.day.replay with
          state := .opened, last := n, chain := entryChain e, posting := none } } })

/-- The replay ends at an entry that breaks the run or is no part of the day, and with entry E replayed. With a
DAY_OPEN replayed the day is resumed: SENDING as SUSPENDED, the journal PRESENT behind the last entry, DONE slots
FILLING, the items rebuilt, the batch halted with its plan counted anew, JOURNAL_LOW and a NOTE's alert raised,
DONE with the last number. Each drawer's timers stop and its forced flag is cleared; an active holder's is OPEN
with its overdue limit where its sense is open, and LOCKED elsewhere, with a settle pending where its sense is
undetermined; an inactive holder's is LOCKED. Without a DAY_OPEN RESUME_DAY fails with detail 2 (R23, R90, R91,
R104, R118, R122, R160, R177, R178, R190; order DESIGN CHOICE, log 16). -/
def Sys2Proof.Claims.ReplayEndsWithTheDay : Prop :=
  ∀ (s u : State) (r : Run), s.inReset = false → s.journal.runs = [r] → r.requester = .replay →
    r.started = true → r.last = none → s.journal.serving = some .replay → 8 ≤ s.journal.buffer.length →
    let e := bytesOfDwords (s.journal.buffer.take 8)
    let c := u.configuration
    let last := u.day.replay.last
    let state := if u.day.replay.state = .sending then DayState.suspended else u.day.replay.state
    let halted := state = .suspended ∨ state = .rejected
    let records := (examinedRecords c).length
    let waits := state = .closing →
      allBalanced c u.totals = false ∨ u.posting.queue.any (·.marked) = true
    let low := 10 * (c.size - last) ≤ c.size
    let noted := ∃ i : Fin 8, u.monitors.fired[i] = true ∧ c.monitors[i].action = 1
    let verified := entryNumber e = r.next ∧ entryChain e = chainOf (r.chain.getD 0xFFFFFFFF) e
    u = s ∧ (¬verified ∨ replayEntry s r.next e = none) ∨
      verified ∧ r.next = s.configuration.size ∧ replayEntry s r.next e = some u →
    (last ≠ 0 → waits → ∃ t, exec .journalRunEntry s = .next t ∧ t.day.state = state ∧ t.day.work = none ∧
      t.journal.runs = [] ∧ t.journal.present = true ∧ t.journal.next = last + 1 ∧
      t.journal.chain = u.day.replay.chain ∧ t.journal.free = c.size - last ∧ t.journal.reservations = [] ∧
      t.totals = u.totals ∧ t.monitors = u.monitors ∧
      (∀ h : Fin 17,
        let sensed := c.holderActive h = true ∧ u.drawers[h].sense = some .opened
        t.drawers[h] = { u.drawers[h] with
          window := none, heldExpiry := false, forced := false,
          state := if sensed then .opened else .locked,
          limit := if sensed then some c.overdueSpan else none,
          settle := if c.holderActive h = true then u.drawers[h].sense.isNone else u.drawers[h].settle }) ∧
      t.passbook.items = rebuiltItems u.passbook.replay ∧
      (∀ n : Fin 16, t.posting.slots[n] = { u.posting.slots[n] with
        state := if u.posting.slots[n].state = .done then .filling else u.posting.slots[n].state }) ∧
      t.batch = { resetBatch with
        state := if halted then .halted else .idle,
        plan := if halted then u.batch.plan.map fun p =>
            { p with records := records, blocks := 4 + (records + 3) / 4 + (p.last + 3) / 4 }
          else none } ∧
      (∀ a : Alert, alertIn t.control.alerts a = (alertIn s.control.alerts a ||
        (a == .journalLow && decide low) || (a == .monitorFired && decide noted))) ∧
      journalWrites t.path = journalWrites s.path ++
        [(s.path.windows[0].base + 0x1838, completionDword (takenTag s) .done last)]) ∧
    (last ≠ 0 → ¬waits → ∃ t, exec .journalRunEntry s = .next t ∧ t.day.state = .sending) ∧
    (last = 0 → Gives .journalRunEntry s
      (complete
        { u with
          totals := resetTotals, monitors := loadedMonitors c,
          journal := { u.journal with present := false, free := 0, next := 1, runs := [] },
          passbook := { u.passbook with items := [], replay := [] }, batch := resetBatch,
          day := { u.day with
            state := .setup, date := 0, openingCopy := none, openingSettled := 0, work := none,
            replay := resetReplay } } .failed 2))

/-- The state of the part with the day resumed, and what follows in it: the test of the move to SENDING, which in
CLOSING with every holder balanced and no marked entry queued fixes the plan, sends the HEADER and journals
BATCH_STARTED, and then the completion DONE with the last number (R23, R85, R90, R91, R104, R118, R160, R172, R178,
R179, R190; the order DESIGN CHOICE, log 16; the record buffers emptied, DESIGN CHOICE, log 58). -/
def Sys2Proof.Claims.ResumedDayIsTestedForSending : Prop :=
  ∀ (s u : State) (r : Run), s.inReset = false → s.journal.runs = [r] → r.requester = .replay →
    r.last = none → s.journal.serving = some .replay → 8 ≤ s.journal.buffer.length →
    let e := bytesOfDwords (s.journal.buffer.take 8)
    let c := u.configuration
    let last := u.day.replay.last
    let state := if u.day.replay.state = .sending then DayState.suspended else u.day.replay.state
    let halted := state = .suspended ∨ state = .rejected
    let records := (examinedRecords c).length
    let verified := entryNumber e = r.next ∧ entryChain e = chainOf (r.chain.getD 0xFFFFFFFF) e
    u = s ∧ (¬verified ∨ replayEntry s r.next e = none) ∨
      verified ∧ r.next = s.configuration.size ∧ replayEntry s r.next e = some u →
    last ≠ 0 →
    let plan := if halted then u.batch.plan.map fun p =>
        { p with records := records, blocks := 4 + (records + 3) / 4 + (p.last + 3) / 4 }
      else none
    let sensed (h : Fin 17) := c.holderActive h = true ∧ u.drawers[h].sense = some .opened
    let low := 10 * (c.size - last) ≤ c.size
    let noted := ∃ i : Fin 8, u.monitors.fired[i] = true ∧ c.monitors[i].action = 1
    let alerts := if low then addAlert u.control.alerts .journalLow else u.control.alerts
    let resumed : State := { u with
      journal := { u.journal with
        next := last + 1, chain := u.day.replay.chain, free := c.size - last, reservations := [],
        present := true, runs := [] }
      drawers := Vector.ofFn fun h => { u.drawers[h] with
        window := none, heldExpiry := false, forced := false,
        state := if sensed h then .opened else .locked,
        limit := if sensed h then some c.overdueSpan else none,
        settle := if c.holderActive h = true then u.drawers[h].sense.isNone else u.drawers[h].settle }
      posting := { u.posting with
        slots := Vector.ofFn fun n => { u.posting.slots[n] with
          state := if u.posting.slots[n].state = .done then .filling else u.posting.slots[n].state } }
      passbook := { u.passbook with items := rebuiltItems u.passbook.replay, replay := [] }
      batch := { resetBatch with state := if halted then .halted else .idle, plan := plan }
      day := { u.day with
        state := state, work := none, replay := resetReplay, records := Vector.replicate 2 ⟨[], false⟩ }
      control := { u.control with
        alerts := if noted then addAlert alerts .monitorFired else alerts } }
    Gives .journalRunEntry s (complete (testSending resumed) .done last)

/-- A carry-forward copy is marked at its 512th doubleword, and no other: valid where its CRC-32 is that of the
bytes before it and its settled date is a valid date; the settled date and the next start stand at 00 and 04 (R167,
13.7). -/
def Sys2Proof.Claims.FetchedCopyIsMarkedAtItsEnd : Prop :=
  ∀ (b : RecordBuffer) (data : Dword),
    let bytes := bytesOfDwords (data :: b.words).reverse
    let date := uintAt bytes 0 4
    (bufferTakes b data).words = data :: b.words ∧ recordSettled bytes = date ∧
    recordStart bytes = uintAt bytes 4 4 ∧
    ((bufferTakes b data).valid = true ↔ b.words.length = 511 ∧
      uintAt bytes 0xFF8 4 = (crc32 (bytes.take 0xFF8)).toNat ∧
      1 ≤ date / 100 % 100 ∧ date / 100 % 100 ≤ 12 ∧ 1 ≤ date % 100 ∧ date % 100 ≤ 31)

/-- The books of a day's start: an active holder's record in a configured currency takes the carried counts of its
configured denominations, their sum as balance and opening, a true check word and no mark; every other record,
total and flag is as after reset. The counts stand in the carry-forward record at 008 + 96 h + 24 c, without one
they are 0; the monitors hold their presets, none fired (R43, R71, R95, R170, R175, 13.7). -/
def Sys2Proof.Claims.RecordsAreLoadedFromTheirCounts : Prop :=
  (∀ (c : Configuration) (counts : Fin 17 → Fin 4 → List Nat) (h : Fin 17) (k : Fin 4),
    let r := recordOf (openedTotals c counts) h k
    let n := c.currencies[k].denominations
    let kept := ((counts h k).take n ++ List.replicate (12 - ((counts h k).take n).length) 0)
    let sum := (List.zipWith (· * ·) kept (c.currencies[k].faces.take n)).sum
    { openedTotals c counts with records := resetTotals.records } = resetTotals ∧
    (c.holderActive h = true → c.hasCurrency k = true →
      r = ⟨kept, sum, checkWord kept sum, false, sum, false⟩) ∧
    (c.holderActive h = false ∨ c.hasCurrency k = false → r = ⟨List.replicate 12 0, 0, 0xF14C, false, 0, false⟩)) ∧
  (∀ (b : List Byte) (h : Fin 17) (k : Fin 4),
    carriedCounts none h k = List.replicate 12 0 ∧ carriedCounts (some b) h k = recordCounts b h k ∧
    recordCounts b h k = (List.range 12).map fun d => uintAt b (0x008 + 96 * h.val + 24 * k.val + 2 * d) 2) ∧
  ∀ (c : Configuration) (m : Fin 8),
    (loadedMonitors c).counts[m].toNat = c.monitors[m].preset % 2 ^ 32 ∧ (loadedMonitors c).fired[m] = false ∧
      (loadedMonitors c).freeze = none

/-- The choice of a carry-forward record, the day it opens or resumes, and the replay's run and end (R91, R150,
R167 to R170, R172, R175 to R178). -/
def Obligations.FetchedRecordOpensTheDay : Prop :=
  Claims.LaterValidCopyIsChosen ∧ Claims.FetchedRecordOpensTheDay ∧
    Claims.FetchedOpeningGivesEveryBlockItsStart ∧ Claims.ResumeLoadsTheChosenRecord ∧
    Claims.ResumeFailsWithoutARecord ∧ Claims.ReplayTakesVerifiedEntries ∧ Claims.ReplayBeginsWithDayOpen ∧
    Claims.ReplayEndsWithTheDay ∧ Claims.ResumedDayIsTestedForSending ∧ Claims.FetchedCopyIsMarkedAtItsEnd ∧
    Claims.RecordsAreLoadedFromTheirCounts

/-- A fresh day opens once no group of its record waits: OPEN with the arguments' date and time, copy 0 the
opening copy, opening settled date 0, every count 0, DAY_OPEN with code 1, settled date 0, start 0 and E, then DONE
with detail 2 (R113, R169, R170; the row as its own step, log 12; the order is DESIGN CHOICE, log 16). -/
def Sys2Proof.Claims.FreshDayOpensWithZeroCounts : Prop :=
  ∀ (s : State) (date time : Nat), s.inReset = false → s.day.work = some (.openWriting date time) →
    noneWaiting s .freshRecord = true → 2 ≤ ringSize s →
    let opened : State := { s with journal := { s.journal with start := 0, next := 1, chain := 0xFFFFFFFF } }
    ∃ t, exec .freshDayOpens s = .next t ∧ t.day.state = .opened ∧ t.day.date = date ∧
      t.day.clock = time ∧ t.day.openingCopy = some 0 ∧ t.day.openingSettled = 0 ∧
      (∀ (h : Fin 17) (k : Fin 4), (recordOf t.totals h k).counts = List.replicate 12 0 ∧
        (recordOf t.totals h k).balance = 0 ∧ (recordOf t.totals h k).opening = 0) ∧
      t.journal.start = 0 ∧ t.journal.next = 2 ∧ t.journal.present = true ∧ t.mem = s.mem ∧
      journalWrites t.path = journalWrites s.path ++
        entryWrites opened (entryContent 1 time
          { kind := 1, code := 1, tag := takenTag s, amountA := date, ref := ringSize s }) ++
        [(windowBase s 0 + 0x1838, completionDword (takenTag s) .done 2)]

/-- What a fresh start's opening event leaves, the whole state of the part: every block at its day's start with
zero counts, the printers' jobs ended with their notice and RESET_PRINTER (FAULT, DEDUCED, log 26), then DAY_OPEN
and the completion (R85, R107, R113, R150, R156, R161, R169, R170, R179; logs 16, 40; the record buffers emptied,
DESIGN CHOICE, log 58). -/
def Sys2Proof.Claims.FreshOpeningGivesEveryBlockItsStart : Prop :=
  ∀ (s : State) (date time : Nat), s.inReset = false → s.day.work = some (.openWriting date time) →
    noneWaiting s .freshRecord = true →
    Gives .freshDayOpens s
      (complete
        (dayControlEntry (dayOpened s date time 0 0 0 fun _ _ => List.replicate 12 0)
          { kind := 1, code := 1, tag := takenTag s, amountA := date, ref := ringSize s }) .done 2)

/-- A carry-forward record is 4,096 bytes: settled date, next start, each count at its place, zeros, and the CRC-32
of all before it; with a valid date it is a valid record (R167, R174, 13.7). -/
def Sys2Proof.Claims.ComposedRecordHoldsItsFields : Prop :=
  ∀ (settled start : Nat) (t : Totals), settled < 2 ^ 32 → start < 2 ^ 32 →
    (∀ (h : Fin 17) (k : Fin 4), (recordOf t h k).counts.length = 12 ∧
      ∀ n ∈ (recordOf t h k).counts, n < 65536) →
    let record := composeRecord settled start (allCounts t)
    record.length = 4096 ∧ field record 0 4 = settled ∧ field record 4 4 = start ∧
      (∀ (h : Fin 17) (k : Fin 4) (d : Fin 12),
        field record (0x008 + 96 * h.val + 24 * k.val + 2 * d.val) 2 = (recordOf t h k).counts.getD d.val 0) ∧
      (∀ i, 0x668 ≤ i → i < 0xFF8 → record[i]? = some 0) ∧
      field record 0xFF8 4 = (crc32 (record.take 0xFF8)).toNat ∧ field record 0xFFC 4 = 0 ∧
      (dateValid settled = true → recordValid record = true)

/-- A record is handed over as 16 groups of 32 doublewords in ascending address order, its bytes unchanged; a fresh
start puts before copy 0's, with settled date 101 and zeros, a group that clears copy 1's first doubleword (R169,
R174). -/
def Sys2Proof.Claims.RecordIsHandedOverInSixteenGroups : Prop :=
  ∀ (s : State) (producer : Producer) (copy : Fin 2) (record : List Byte), record.length = 4096 →
    let groups := recordGroups s producer copy record
    let writes := groups.flatMap (·.writes)
    groups.length = 16 ∧ (∀ g ∈ groups, g.producer = producer ∧ g.writes.length = 32) ∧
      (writes.map (·.1)) =
        (List.range 512).map (fun i => s.path.windows[6].base + copy.val * 0x1000 + 8 * i) ∧
      bytesOfDwords (writes.map (·.2)) = record ∧
      freshGroups s = ⟨.freshRecord, [(s.path.windows[6].base + 0x1000, 0)]⟩ ::
        recordGroups s .freshRecord 0 (composeRecord 101 0 (List.replicate 816 0))

/-- A fresh start's day, and the record that is written (R150, R169, R170, R174). -/
def Obligations.FreshDayOpensWithZeroCounts : Prop :=
  Claims.FreshDayOpensWithZeroCounts ∧ Claims.FreshOpeningGivesEveryBlockItsStart ∧
    Claims.ComposedRecordHoldsItsFields ∧ Claims.RecordIsHandedOverInSixteenGroups

/-! ### Teller screens (chapter 8) -/

/-- CHECK_LINE: BAD_ARGUMENT for a number outside 1..16 and a NOT_CONFIGURED position, which every position is
before the first APPLY_CONFIG; REFUSED_STATE for an ABSENT terminal and a LEARNING line (detail 0, log 56). Else
the echo is pending with the pattern and IN_PROGRESS is written, also on a line whose cycle a START_LEARN has yet
to stop (DEDUCED, log 23), and in every day state (R141). -/
def Obligations.CheckLineAsksForAnEcho : Prop :=
  ∀ (s : State) (addr : Nat) (mask : ByteMask) (data : Dword), CommandGiven s addr mask data 16 →
    let n := laneField s.control.arguments[0] 0 1
    let t := commandTaken s addr mask data
    (n = 0 ∨ 16 < n → Gives .checkLine s (complete t .badArgument 0)) ∧
    ∀ p : Fin 16, n = p.val + 1 →
      let q := s.screen.positions[p]
      (q.state = .notConfigured → Gives .checkLine s (complete t .badArgument 0)) ∧
      (q.state = .absent → Gives .checkLine s (complete t .refusedState 0)) ∧
      (∀ d : Fin 2, q.state = .present → q.line = d.val → s.screen.controllers[d].mode = .learning →
        Gives .checkLine s (complete t .refusedState 0)) ∧
      (q.state = .present → (∀ d : Fin 2, q.line = d.val → s.screen.controllers[d].mode ≠ .learning) →
        Gives .checkLine s
          (complete
            { setPosition t p { q with echo := true } with
              control := { t.control with
                lineCheck := some
                  (p, bytesOfDword s.control.arguments[1] ++ bytesOfDword s.control.arguments[2]) } }
            .inProgress 0))

/-- START_LEARN on a line with a port and no exchange in progress makes its controller LEARNING with the lowest
configured position assigned first, and completes DONE with the number of positions (R138, R139). -/
def Sys2Proof.Claims.StartLearnAssignsTheLowest : Prop :=
  ∀ (s : State) (addr : Nat) (mask : ByteMask) (data : Dword) (d : Fin 2) (k : Fin 6) (p : Fin 16)
    (rest : List (Fin 16)),
    CommandGiven s addr mask data 12 → s.control.config.isSome = true → s.day.state ≠ .recovering →
    laneField s.control.arguments[0] 0 1 = d.val → s.screen.controllers[d].mode ≠ .learning →
    s.configuration.dropPort d = some k → s.configuration.linePositions d = p :: rest →
    s.screen.controllers[d].exchange = none →
    let t := commandTaken s addr mask data
    let c : Controller := { s.screen.controllers[d] with
      mode := .learning, exchange := some ⟨p, .assign, .sending⟩, remaining := [], acknowledged := [],
      current := some p, repeatTimer := false }
    Gives .startLearn s
      (complete
        (sendFrame (setController t d c) (some k)
          (dropFrame 15 0x05 [BitVec.ofNat 8 s.screen.positions[p].address]))
        .done (rest.length + 1))

/-- START_LEARN is REFUSED_STATE in RECOVERING, without a configuration and on a LEARNING line, else BAD_ARGUMENT
for no line or one without a port (detail 0, log 56). With an exchange on the line it completes DONE and the cycle
stops at that exchange's end (DEDUCED, log 23); a line without positions broadcasts LOCK at once (R138, R140). -/
def Sys2Proof.Claims.StartLearnMeetsTheCycle : Prop :=
  ∀ (s : State) (addr : Nat) (mask : ByteMask) (data : Dword), CommandGiven s addr mask data 12 →
    let t := commandTaken s addr mask data
    let line := laneField s.control.arguments[0] 0 1
    let refused := s.day.state = .recovering ∨ s.control.config = none ∨
      ∃ d : Fin 2, line = d.val ∧ s.screen.controllers[d].mode = .learning
    (refused → Gives .startLearn s (complete t .refusedState 0)) ∧
    (¬refused →
      (1 < line ∨ (∃ d : Fin 2, line = d.val ∧ s.configuration.dropPort d = none) →
        Gives .startLearn s (complete t .badArgument 0)) ∧
      (∀ (d : Fin 2) (k : Fin 6), line = d.val → s.configuration.dropPort d = some k →
        let c := s.screen.controllers[d]
        (∀ e, c.exchange = some e → e.phase ≠ .filling → Gives .startLearn s
          (complete (setController t d { c with mode := .stopping }) .done
            (s.configuration.linePositions d).length)) ∧
        (c.exchange = none → s.configuration.linePositions d = [] → Gives .startLearn s
          (complete
            (sendFrame
              (setController t d { c with
                mode := .cycling, remaining := [], acknowledged := [], current := none,
                repeatTimer := false })
              (some k) (dropFrame 15 0x07 []))
            .done 0))))

/-- END_LEARN on a LEARNING line cuts the exchange short, ends the learn and completes DONE with the number
acknowledged: LOCK is broadcast, the line's positions are ABSENT, and the controller cycles, all in this step
(DEDUCED, log 24). It is REFUSED_STATE on any other line and BAD_ARGUMENT for no line, detail 0 (log 56) (R140). -/
def Sys2Proof.Claims.EndLearnEndsTheLearn : Prop :=
  ∀ (s : State) (addr : Nat) (mask : ByteMask) (data : Dword), CommandGiven s addr mask data 13 →
    let t := commandTaken s addr mask data
    let line := laneField s.control.arguments[0] 0 1
    (1 < line → Gives .endLearn s (complete t .badArgument 0)) ∧
    (∀ d : Fin 2, line = d.val →
      (s.screen.controllers[d].mode = .learning → ∃ u, exec .endLearn s = .next u ∧
        u.screen.controllers[d].mode = .cycling ∧ u.screen.controllers[d].current = none ∧
        u.screen.controllers[d].repeatTimer = false ∧
        (∀ k, s.configuration.dropPort d = some k → ∃ more, u.lines[k] = dropFrame 15 0x07 [] :: more) ∧
        journalWrites u.path = journalWrites s.path ++ [(windowBase s 0 + 0x1838,
          completionDword (takenTag t) .done s.screen.controllers[d].acknowledged.length)] ∧
        (∀ p ∈ s.configuration.linePositions d, u.screen.positions[p].state = .absent ∧
          u.screen.positions[p].skip = 0 ∧ u.screen.positions[p].missed = 0) ∧
        u.totals = s.totals ∧ u.mem = t.mem) ∧
      (s.screen.controllers[d].mode ≠ .learning → Gives .endLearn s (complete t .refusedState 0)))

/-- The outcome of an ASSIGN: GOOD acknowledges the position, and the lowest left is assigned or the LOCK ends the
learn; BAD broadcasts WITHDRAW; BAD and NONE start the repeat timer (R139, R140; that NONE counts no miss is
DEDUCED, log 23). -/
def Sys2Proof.Claims.AssignOutcomesMoveTheLearn : Prop :=
  ∀ (s : State) (d : Fin 2) (k : Fin 6) (p : Fin 16), s.inReset = false →
    s.configuration.dropPort d = some k → s.screen.controllers[d].mode = .learning →
    s.screen.controllers[d].exchange = some ⟨p, .assign, .awaiting⟩ → s.screen.positions[p].address ≤ 14 →
    let c := s.screen.controllers[d]
    let q := s.screen.positions[p]
    let good : Instr := .dropReply d (dropFrame q.address 0x10 [])
    let left := (s.configuration.linePositions d).filter fun x => !(c.acknowledged ++ [p]).contains x
    (∀ next rest, left = next :: rest → Gives good s
      (sendFrame
        (setController (setPosition s p { q with missed := 0 }) d { c with
          acknowledged := c.acknowledged ++ [p], current := some next, repeatTimer := false,
          exchange := some ⟨next, .assign, .sending⟩ })
        (some k) (dropFrame 15 0x05 [BitVec.ofNat 8 s.screen.positions[next].address]))) ∧
    (left = [] → ∃ t, exec good s = .next t ∧ t.screen.controllers[d].mode = .cycling ∧
      t.screen.controllers[d].current = none ∧
      (∃ more, t.lines[k] = s.lines[k] ++ dropFrame 15 0x07 [] :: more) ∧
      ∀ x ∈ s.configuration.linePositions d, t.screen.positions[x].state = .absent) ∧
    (∀ frame, judgeReply q.address .assign frame = .bad → Gives (.dropReply d frame) s
      (sendFrame (setController s d { c with exchange := none, repeatTimer := true }) (some k)
        (dropFrame 15 0x06 [BitVec.ofNat 8 q.address]))) ∧
    Gives (.dropReplyTimeout d .noFirstByte) s
      (setController s d { c with exchange := none, repeatTimer := true })

/-- The repeat timer of a learning line broadcasts the current position's ASSIGN again (R139). -/
def Sys2Proof.Claims.RepeatTimerAssignsAgain : Prop :=
  ∀ (s : State) (d : Fin 2) (p : Fin 16), s.inReset = false →
    s.screen.controllers[d].mode = .learning → s.screen.controllers[d].repeatTimer = true →
    s.screen.controllers[d].current = some p →
    Gives (.learnRepeatExpiry d) s
      (sendFrame
        (setController s d { s.screen.controllers[d] with
          repeatTimer := false, exchange := some ⟨p, .assign, .sending⟩ })
        (s.configuration.dropPort d)
        (dropFrame 15 0x05 [BitVec.ofNat 8 s.screen.positions[p].address]))

/-- The LOCK at the end of a learn makes the terminal of a CHECK_LINE whose ECHO has not been sent ABSENT, and
completes it FAILED 3 (R140, R141; DEDUCED, log 23). -/
def Sys2Proof.Claims.LockEndsTheLineCheck : Prop :=
  ∀ (s : State) (d : Fin 2) (p x : Fin 16) (pattern : List Byte), s.inReset = false →
    s.screen.controllers[d].mode = .learning →
    s.screen.controllers[d].exchange = some ⟨p, .assign, .awaiting⟩ → s.screen.positions[p].address ≤ 14 →
    (∀ y ∈ s.configuration.linePositions d, y = p ∨ y ∈ s.screen.controllers[d].acknowledged) →
    x ∈ s.configuration.linePositions d → s.control.lineCheck = some (x, pattern) →
    s.screen.positions[x].echo = true →
    ∃ t, exec (.dropReply d (dropFrame s.screen.positions[p].address 0x10 [])) s = .next t ∧
      t.control.lineCheck = none ∧ t.screen.positions[x].echo = false ∧
      t.screen.positions[x].state = .absent ∧
      journalWrites t.path = journalWrites s.path ++
        [(s.path.windows[0].base + 0x1838, completionDword (takenTag s) .failed 3)]

/-- START_LEARN, END_LEARN, the repeat timer and the LOCK (R138 to R141). -/
def Obligations.LearnAssignsAddresses : Prop :=
  Claims.StartLearnAssignsTheLowest ∧ Claims.StartLearnMeetsTheCycle ∧ Claims.EndLearnEndsTheLearn ∧
    Claims.AssignOutcomesMoveTheLearn ∧ Claims.RepeatTimerAssignsAgain ∧ Claims.LockEndsTheLineCheck

/-- A controller whose cycle is over begins a new one; a PRESENT terminal with nothing dirty or pending is polled
with its poll bit (R127, R130; the pace of the cycles is the row's, log 9). -/
def Sys2Proof.Claims.CyclePollsAPresentTerminal : Prop :=
  ∀ (s : State) (d : Fin 2) (k : Fin 6) (p : Fin 16) (rest : List (Fin 16)), s.inReset = false →
    s.screen.controllers[d].mode = .cycling → s.screen.controllers[d].exchange = none →
    s.configuration.linePositions d = p :: rest → s.configuration.dropPort d = some k →
    s.screen.positions[p].state = .present → s.screen.positions[p].bell = false →
    s.screen.positions[p].echo = false → s.screen.positions[p].dirty = 0 →
    Gives (.cycleStart d) s
      (sendFrame
        (setController s d { s.screen.controllers[d] with
          remaining := rest, rowsSent := 0, exchange := some ⟨p, .poll, .sending⟩ })
        (some k)
        (dropFrame s.screen.positions[p].address 0x02
          [if s.screen.positions[p].pollBit = true then 1 else 0]))

/-- A new cycle passes the ABSENT terminals whose skip counts stand above 0, each lowered by 1 and sent nothing,
and polls an ABSENT terminal whose skip count is 0; a line of only skipped terminals passes the cycle without a
frame (R127, R129). -/
def Sys2Proof.Claims.CycleSkipsOrPollsAnAbsentTerminal : Prop :=
  ∀ (s : State) (d : Fin 2) (skipped : List (Fin 16)), s.inReset = false →
    s.screen.controllers[d].mode = .cycling → s.screen.controllers[d].exchange = none →
    (∀ x ∈ skipped, s.screen.positions[x].state = .absent ∧ 0 < s.screen.positions[x].skip) →
    let lowered : State := { s with screen := { s.screen with
      positions := Vector.ofFn fun x : Fin 16 =>
        if x ∈ skipped then { s.screen.positions[x] with skip := s.screen.positions[x].skip - 1 }
        else s.screen.positions[x] } }
    (∀ (k : Fin 6) (p : Fin 16) (rest : List (Fin 16)),
      s.configuration.linePositions d = skipped ++ p :: rest → s.configuration.dropPort d = some k →
      s.screen.positions[p].state = .absent → s.screen.positions[p].skip = 0 →
      Gives (.cycleStart d) s
        (sendFrame
          (setController lowered d { s.screen.controllers[d] with
            remaining := rest, exchange := some ⟨p, .poll, .sending⟩ })
          (some k)
          (dropFrame s.screen.positions[p].address 0x02
            [if s.screen.positions[p].pollBit = true then 1 else 0]))) ∧
    (s.configuration.linePositions d = skipped →
      Gives (.cycleStart d) s
        (setController lowered d { s.screen.controllers[d] with remaining := [], exchange := none }))

/-- A full row buffer goes out as a ROW frame of its row number and 160 bytes (R125, R128). -/
def Sys2Proof.Claims.FullRowBufferIsSent : Prop :=
  ∀ (s : State) (d : Fin 2) (p : Fin 16) (resend : Bool), s.inReset = false →
    s.screen.controllers[d].exchange = some ⟨p, .row resend, .filling⟩ →
    s.screen.controllers[d].row.length = 20 →
    Gives (.rowSend d) s
      (sendFrame
        (setController s d { s.screen.controllers[d] with exchange := some ⟨p, .row resend, .sending⟩ })
        (s.configuration.dropPort d)
        (dropFrame s.screen.positions[p].address 0x01
          (BitVec.ofNat 8 s.screen.controllers[d].rowNumber :: bytesOfDwords s.screen.controllers[d].row)))

/-- The end of an exchange's frame begins its reply wait (R126). -/
def Sys2Proof.Claims.SentFrameAwaitsItsReply : Prop :=
  ∀ (s : State) (d : Fin 2) (k : Fin 6) (e : Exchange) (frame : List Byte), s.inReset = false →
    s.configuration.dropPort d = some k → s.lines[k] = [frame] →
    s.screen.controllers[d].exchange = some e → e.phase = .sending →
    Gives (.dropFrameSent d) s
      (setController { s with lines := s.lines.set k [] } d
        { s.screen.controllers[d] with exchange := some { e with phase := .awaiting } })

/-- A drop-line frame: address, kind, the length of the payload, the payload, and the CRC-8 of all before it
(R125). -/
def Sys2Proof.Claims.DropFrameIsClosedByItsCheck : Prop :=
  ∀ (address : Nat) (kind : Byte) (payload : List Byte),
    let body := [BitVec.ofNat 8 address, kind, BitVec.ofNat 8 payload.length] ++ payload
    dropFrame address kind payload = body ++ [crc8 body]

/-- The CRC-8: polynomial 07h in a register shifted left, started at 0 (R125). -/
def Sys2Proof.Claims.FrameCheckIsAShiftRegister : Prop :=
  let shift (r : BitVec 8) : BitVec 8 := if r.msb = true then (r <<< 1) ^^^ 0x07 else r <<< 1
  crc8 [] = 0 ∧ ∀ (bytes : List Byte) (b : Byte), crc8 (bytes ++ [b]) = shift^[8] (crc8 bytes ^^^ b)

/-- How an exchange begins: the cycle, the ROW frame, the reply wait; and the frame of a drop line (R125 to R130). -/
def Obligations.ExchangesAreSentOnTheDropLine : Prop :=
  Claims.CyclePollsAPresentTerminal ∧ Claims.CycleSkipsOrPollsAnAbsentTerminal ∧
    Claims.FullRowBufferIsSent ∧ Claims.SentFrameAwaitsItsReply ∧
    Claims.DropFrameIsClosedByItsCheck ∧ Claims.FrameCheckIsAShiftRegister

/-- A GOOD EMPTY reply to a POLL of a PRESENT terminal flips its poll bit, clears its missed count, and ends the
visit and, with no position left, the cycle's exchanges (R126, R127, R130). -/
def Sys2Proof.Claims.GoodPollFlipsThePollBit : Prop :=
  ∀ (s : State) (d : Fin 2) (p : Fin 16), s.inReset = false →
    s.screen.controllers[d].exchange = some ⟨p, .poll, .awaiting⟩ →
    s.screen.controllers[d].mode = .cycling → s.screen.controllers[d].remaining = [] →
    s.screen.positions[p].state = .present → s.screen.positions[p].address ≤ 14 →
    Gives (.dropReply d (dropFrame s.screen.positions[p].address 0x13 [])) s
      (setController
        (setPosition s p { s.screen.positions[p] with
          missed := 0, pollBit := !s.screen.positions[p].pollBit })
        d { s.screen.controllers[d] with exchange := none })

/-- A frame received while no reply is awaited is discarded (R126; frames are given whole, log 11). -/
def Sys2Proof.Claims.UnawaitedReplyIsDiscarded : Prop :=
  ∀ (s : State) (d : Fin 2) (frame : List Byte), s.inReset = false → awaitedExchange s d = none →
    Gives (.dropReply d frame) s s

/-- The third miss in a row of a PRESENT terminal makes it ABSENT with skip count 7, raises TERMINAL_LOST and hands
over a LOST entry. A CHECK_LINE whose ECHO is pending then completes FAILED 3, and the line holds no check (R126,
R129, R141; the entry before the completion is the model's choice, log 16). -/
def Sys2Proof.Claims.ThirdMissLosesTheTerminal : Prop :=
  ∀ (s : State) (d : Fin 2) (p : Fin 16), s.inReset = false →
    s.screen.controllers[d].exchange = some ⟨p, .poll, .awaiting⟩ →
    s.screen.controllers[d].mode = .cycling → s.screen.controllers[d].remaining = [] →
    s.screen.positions[p].state = .present → s.screen.positions[p].missed = 2 →
    let q := s.screen.positions[p]
    let lost := eventEntry
      (raiseAlert
        (setPosition s p { q with state := .absent, skip := 7, missed := 0, bell := false, echo := false })
        .terminalLost)
      { kind := 14, code := 1, position := p.val + 1, ref := q.line, amountA := q.address }
    let told := if q.echo = true then
        complete { lost with control := { lost.control with lineCheck := none } } .failed 3
      else lost
    Gives (.dropReplyTimeout d .noFirstByte) s
      (setController told d { s.screen.controllers[d] with exchange := none })

/-- A frame is a GOOD reply when it is whole, from the address awaited and of a kind and length the exchange calls
for; every other frame is BAD (R126, 13.8). -/
def Sys2Proof.Claims.ReplyIsGoodOrBad : Prop :=
  ∀ (address : Nat) (kind : ExchangeKind) (frame : List Byte), address < 256 →
    let expected (code : Byte) (payload : List Byte) : Prop :=
      match kind with
      | .row _ | .bell | .assign => code = 0x10 ∧ payload = []
      | .poll => code = 0x13 ∧ payload = [] ∨
          code = 0x12 ∧ 2 ≤ payload.length ∧ payload.length ≤ 16 ∧ payload.length % 2 = 0
      | .echo => code = 0x04 ∧ payload.length = 16
    (∀ code payload, judgeReply address kind frame = .good code payload ↔
      frame = dropFrame address code payload ∧ expected code payload) ∧
    ((∀ code payload, ¬(frame = dropFrame address code payload ∧ expected code payload)) →
      judgeReply address kind frame = .bad)

/-- A ROW exchange takes row 23 where it is dirty, else the lowest dirty row (R128). -/
def Sys2Proof.Claims.RowTwentyThreeGoesFirst : Prop :=
  ∀ dirty : BitVec 24,
    (dirty = 0 → rowToSend dirty = none) ∧
    (∀ r < 24, rowToSend dirty = some r ↔ dirty.getLsbD r = true ∧
      (r = 23 ∨ dirty.getLsbD 23 = false ∧ ∀ i < r, dirty.getLsbD i = false))

/-- The outcome of a ROW: after GOOD the visit takes a second row that is dirty, else it polls; a row of 0..22 that
a host write has put back waits for a later visit, row 23 recomposed meanwhile does not. A BAD first send is sent
again; a BAD resend, or NONE, returns the row to the set for a later visit, and NONE counts a miss and ends the
visit (R126 to R128, R136). -/
def Sys2Proof.Claims.RowOutcomesEndTheSend : Prop :=
  ∀ (s : State) (d : Fin 2) (p : Fin 16) (resend : Bool), s.inReset = false →
    s.screen.controllers[d].mode = .cycling →
    s.screen.controllers[d].exchange = some ⟨p, .row resend, .awaiting⟩ →
    1 ≤ s.screen.controllers[d].rowsSent → s.screen.positions[p].state = .present →
    s.screen.positions[p].address ≤ 14 →
    let c := s.screen.controllers[d]
    let q := s.screen.positions[p]
    let sent (u : Position) (e : ExchangeKind) (kind : Byte) (payload : List Byte) : State :=
      sendFrame (setController (setPosition s p u) d { c with exchange := some ⟨p, e, .sending⟩ })
        (s.configuration.dropPort d) (dropFrame q.address kind payload)
    let polled (u : Position) := sent u .poll 0x02 [if q.pollBit = true then 1 else 0]
    let back : Position := { q with dirty := q.dirty ||| BitVec.twoPow 24 c.rowNumber }
    let good : Instr := .dropReply d (dropFrame q.address 0x10 [])
    let others := rowToSend (q.dirty &&& ~~~BitVec.twoPow 24 c.rowNumber)
    let next := if c.rowNumber = 23 then rowToSend q.dirty else others
    let second (u : Position) (r : Nat) : State := setController
      (setPosition s p { u with dirty := u.dirty &&& ~~~BitVec.twoPow 24 r }) d
      { c with exchange := some ⟨p, .row false, .filling⟩, rowNumber := r, rowsSent := 2 }
    (next = none ∨ 2 ≤ c.rowsSent → Gives good s (polled { q with missed := 0 })) ∧
    (∀ r, next = some r → c.rowsSent = 1 → Gives good s (second { q with missed := 0 } r)) ∧
    (∀ frame, judgeReply q.address (.row resend) frame = .bad →
      (resend = false → Gives (.dropReply d frame) s
        (sent q (.row true) 0x01 (BitVec.ofNat 8 c.rowNumber :: bytesOfDwords c.row))) ∧
      (resend = true → others = none ∨ 2 ≤ c.rowsSent → Gives (.dropReply d frame) s (polled back)) ∧
      (∀ r, resend = true → others = some r → c.rowsSent = 1 →
        Gives (.dropReply d frame) s (second back r))) ∧
    (q.missed < 2 → c.remaining = [] → Gives (.dropReplyTimeout d .noFirstByte) s
      (setController (setPosition s p { back with missed := q.missed + 1 }) d { c with exchange := none }))

/-- The ECHO's outcome completes CHECK_LINE: DONE for the pattern given back, FAILED 1 for other bytes, FAILED 2
for BAD and NONE; the visit goes on (here to the POLL), and NONE counts a miss and ends it (R126, R141). -/
def Sys2Proof.Claims.EchoOutcomeEndsTheCheck : Prop :=
  ∀ (s : State) (d : Fin 2) (p : Fin 16) (pattern : List Byte), s.inReset = false →
    s.screen.controllers[d].mode = .cycling →
    s.screen.controllers[d].exchange = some ⟨p, .echo, .awaiting⟩ →
    s.control.lineCheck = some (p, pattern) → s.screen.positions[p].state = .present →
    s.screen.positions[p].address ≤ 14 → s.screen.positions[p].dirty = 0 →
    let c := s.screen.controllers[d]
    let q := s.screen.positions[p]
    let ended (missed : Nat) (status : Status) (detail : Nat) : State :=
      complete { setPosition s p { q with missed := missed } with
        control := { s.control with lineCheck := none } } status detail
    let polled (u : State) : State :=
      sendFrame (setController u d { c with exchange := some ⟨p, .poll, .sending⟩ })
        (s.configuration.dropPort d) (dropFrame q.address 0x02 [if q.pollBit = true then 1 else 0])
    (∀ reply : List Byte, reply.length = 16 →
      Gives (.dropReply d (dropFrame q.address 0x04 reply)) s
        (polled (if reply = pattern then ended 0 .done 0 else ended 0 .failed 1))) ∧
    (∀ frame, judgeReply q.address .echo frame = .bad →
      Gives (.dropReply d frame) s (polled (ended q.missed .failed 2))) ∧
    (q.missed < 2 → c.remaining = [] → Gives (.dropReplyTimeout d .noFirstByte) s
      (setController (ended (q.missed + 1) .failed 2) d { c with exchange := none }))

/-- BELL pending opens a visit with a BELL, cleared as it is sent; its GOOD or BAD outcome lets the visit go on
(here to the POLL), NONE counts a miss and ends it (R126, R127). -/
def Sys2Proof.Claims.BellOpensTheVisit : Prop :=
  ∀ (s : State) (d : Fin 2) (k : Fin 6) (p : Fin 16) (rest : List (Fin 16)), s.inReset = false →
    s.screen.controllers[d].mode = .cycling → s.configuration.dropPort d = some k →
    s.screen.positions[p].state = .present → s.screen.positions[p].address ≤ 14 →
    let c := s.screen.controllers[d]
    let q := s.screen.positions[p]
    (c.exchange = none → s.configuration.linePositions d = p :: rest → q.bell = true →
      Gives (.cycleStart d) s
        (sendFrame
          (setController (setPosition s p { q with bell := false }) d { c with
            remaining := rest, rowsSent := 0, exchange := some ⟨p, .bell, .sending⟩ })
          (some k) (dropFrame q.address 0x03 []))) ∧
    (c.exchange = some ⟨p, .bell, .awaiting⟩ → q.echo = false → q.dirty = 0 →
      let polled (missed : Nat) : State :=
        sendFrame
          (setController (setPosition s p { q with missed := missed }) d
            { c with exchange := some ⟨p, .poll, .sending⟩ })
          (some k) (dropFrame q.address 0x02 [if q.pollBit = true then 1 else 0])
      Gives (.dropReply d (dropFrame q.address 0x10 [])) s (polled 0) ∧
      (∀ frame, judgeReply q.address .bell frame = .bad →
        Gives (.dropReply d frame) s (polled q.missed)) ∧
      (q.missed < 2 → c.remaining = [] → Gives (.dropReplyTimeout d .noFirstByte) s
        (setController (setPosition s p { q with missed := q.missed + 1 }) d { c with exchange := none })))

/-- An ABSENT terminal that gives its POLL a GOOD outcome is PRESENT with all rows dirty, with a RETURNED entry; a
BAD or NONE outcome leaves it ABSENT with skip count 7 (R127, R129). -/
def Sys2Proof.Claims.AnsweringTerminalReturns : Prop :=
  ∀ (s : State) (d : Fin 2) (p : Fin 16), s.inReset = false →
    s.screen.controllers[d].mode = .cycling → s.screen.controllers[d].remaining = [] →
    s.screen.controllers[d].exchange = some ⟨p, .poll, .awaiting⟩ → s.screen.positions[p].state = .absent →
    s.screen.positions[p].address ≤ 14 →
    let q := s.screen.positions[p]
    let ended (u : State) : State := setController u d { s.screen.controllers[d] with exchange := none }
    Gives (.dropReply d (dropFrame q.address 0x13 [])) s
      (ended (eventEntry
        (setPosition s p { q with
          state := .present, missed := 0, skip := 7, dirty := BitVec.allOnes 24, pollBit := !q.pollBit })
        { kind := 14, code := 2, position := p.val + 1, ref := q.line, amountA := q.address })) ∧
    (∀ frame, judgeReply q.address .poll frame = .bad →
      Gives (.dropReply d frame) s (ended (setPosition s p { q with skip := 7 }))) ∧
    Gives (.dropReplyTimeout d .noFirstByte) s (ended (setPosition s p { q with skip := 7 }))

/-- The end of the exchange in progress at a START_LEARN counts as in the cycle and makes the controller LEARNING
with its lowest position assigned (R138, R139; DEDUCED, log 23). -/
def Sys2Proof.Claims.StoppedCycleLearns : Prop :=
  ∀ (s : State) (d : Fin 2) (k : Fin 6) (p first : Fin 16) (rest : List (Fin 16)), s.inReset = false →
    s.configuration.dropPort d = some k → s.configuration.linePositions d = first :: rest →
    s.screen.controllers[d].exchange = some ⟨p, .poll, .awaiting⟩ →
    s.screen.controllers[d].mode = .stopping → s.screen.positions[p].state = .present →
    s.screen.positions[p].address ≤ 14 →
    let q := s.screen.positions[p]
    Gives (.dropReply d (dropFrame q.address 0x13 [])) s
      (sendFrame
        (setController (setPosition s p { q with missed := 0, pollBit := !q.pollBit }) d
          { s.screen.controllers[d] with
            mode := .learning, exchange := some ⟨first, .assign, .sending⟩, remaining := [],
            acknowledged := [], current := some first, repeatTimer := false })
        (some k) (dropFrame 15 0x05 [BitVec.ofNat 8 s.screen.positions[first].address]))

/-- How an exchange ends, by its command (R126 to R131, R138, R141). -/
def Obligations.RepliesAreJudged : Prop :=
  Claims.GoodPollFlipsThePollBit ∧ Claims.UnawaitedReplyIsDiscarded ∧ Claims.ThirdMissLosesTheTerminal ∧
    Claims.ReplyIsGoodOrBad ∧ Claims.RowTwentyThreeGoesFirst ∧ Claims.RowOutcomesEndTheSend ∧
    Claims.EchoOutcomeEndsTheCheck ∧ Claims.BellOpensTheVisit ∧ Claims.AnsweringTerminalReturns ∧
    Claims.StoppedCycleLearns

/-- Keys are taken while the ring holds fewer than 24; the write position and the producer index go on by the
number taken; keys that find the ring full are dropped and set BELL pending (R131). -/
def Sys2Proof.Claims.KeysFillTheRing : Prop :=
  ∀ (q : Position) (keys : List (BitVec 16)), q.ring.length = 24 → q.writeAt < 24 → keysHeld q ≤ 24 →
    let r := (takeKeys keys (q, [])).1
    let taken := min keys.length (24 - keysHeld q)
    r.producer = q.producer + BitVec.ofNat 16 taken ∧ r.writeAt = (q.writeAt + taken) % 24 ∧
      r.consumer = q.consumer ∧ keysHeld r ≤ 24 ∧
      (∀ i < taken, r.ring[(q.writeAt + i) % 24]? = keys[i]?) ∧
      (r.bell = true ↔ q.bell = true ∨ taken < keys.length)

/-- A GOOD KEYS reply flips the poll bit, takes its keys into the ring while there is room, and hands over one
group: the key doublewords that hold a taken key in the order of their first, then the producer doubleword; none
without a taken key (R130, R131, 13.3). -/
def Sys2Proof.Claims.KeysReplyHandsOverItsGroup : Prop :=
  ∀ (s : State) (d : Fin 2) (p : Fin 16) (keys : List (BitVec 16)), s.inReset = false →
    s.screen.controllers[d].mode = .cycling → s.screen.controllers[d].remaining = [] →
    s.screen.controllers[d].exchange = some ⟨p, .poll, .awaiting⟩ → s.screen.positions[p].state = .present →
    s.screen.positions[p].address ≤ 14 → s.screen.positions[p].writeAt < 24 → 1 ≤ keys.length →
    keys.length ≤ 8 →
    let q := s.screen.positions[p]
    let taken := min keys.length (24 - keysHeld q)
    let r := (takeKeys keys ({ q with missed := 0, pollBit := !q.pollBit }, [])).1
    let base := s.path.windows[3].base + p.val * 0x40
    let touched := ((List.range taken).map fun i => (q.writeAt + i) % 24 / 4).eraseDups
    let writes : List (Nat × Dword) :=
      (touched.map fun j => (base + 8 * (2 + j),
        dwordOfFields (((r.ring.drop (4 * j)).take 4).map fun k => (2, k.toNat)))) ++
        [(base, dwordOfFields [(2, r.producer.toNat), (1, r.writeAt)])]
    let held := setPosition s p r
    Gives (.dropReply d (dropFrame q.address 0x12 (keys.flatMap fun k => leBytes 2 k.toNat))) s
      (setController (if taken = 0 then held else handGroup held ⟨.keyRing, writes⟩) d
        { s.screen.controllers[d] with exchange := none })

/-- The key ring, and a KEYS reply taken with its group (R128, R131, R132). -/
def Obligations.KeysFillTheRing : Prop :=
  Claims.KeysFillTheRing ∧ Claims.KeysReplyHandsOverItsGroup

/-- After every command of the running part the status row of an enabled position is the one its state composes; a
changed row is dirty for the terminal, or its composition has just been taken for sending; and each changed
doubleword is dirty for memory or stands in the Inject Queue with its new cells (R128, R136, R137; at the end of
the step, log 15). -/
def Sys2Proof.Claims.StatusRowsFollowTheState : Prop :=
  ∀ (c : Instr) (s t : State) (p : Fin 16), s.inReset = false → c ≠ .reset →
    (∀ straps, c ≠ .resetRelease straps) → exec c s = .next t → t.configuration.positionEnabled p = true →
    let row (u : State) := u.screen.positions[p].composition.map (·.take 160)
    row t = some (composeRow t p) ∧
      (row t ≠ row s → t.screen.positions[p].dirty.getLsbD 23 = true ∨
        ∃ d : Fin 2, t.screen.controllers[d].exchange = some ⟨p, .row false, .filling⟩ ∧
          t.screen.controllers[d].rowNumber = 23 ∧
          t.screen.controllers[d].row = dwordsOfBytes 20 (composeRow t p)) ∧
      ∀ j < 20,
        (((row t).getD []).drop (8 * j)).take 8 ≠ (((row s).getD []).drop (8 * j)).take 8 →
        t.screen.positions[p].imageDirty.getLsbD j = true ∨
          ∃ e ∈ t.path.queue, e.cls = .mirror ∧
            e.addr = t.path.windows[2].base + p.val * 0x1000 + 0xE60 + 8 * j ∧
            e.data = dwordOfBytes ((composeRow t p).drop (8 * j))

/-- The 80 cells of a status row: position number, drawer word, message, alert, day state and time at their
columns, each a character byte and an attribute byte; emphasised are the words OVERDUE and FORCED, a REFUSED
message, and the whole alert field while an alert is shown (R133). -/
def Sys2Proof.Claims.StatusRowHoldsItsFields : Prop :=
  ∀ (s : State) (p : Fin 16),
    let word := drawerWord s p
    let message := s.screen.positions[p].message
    let alerts := shownAlerts s p
    let digits (n : Nat) : List Char := [Char.ofNat (48 + n / 10 % 10), Char.ofNat (48 + n % 10)]
    let spaces (n : Nat) : List Char := List.replicate n ' '
    let text := digits (p.val + 1) ++ spaces (8 - word.1.length) ++ word.1 ++
      [' '] ++ (message.text ++ spaces 29).take 29 ++ [' '] ++ (alertText alerts ++ spaces 19).take 19 ++
      [' '] ++ (s.day.state.name ++ spaces 14).take 14 ++
      digits (s.day.clock / 7200) ++ [':'] ++ digits (s.day.clock % 7200 / 120)
    let emphasis (i : Nat) : Bool :=
      (word.2 && decide (10 - word.1.length ≤ i ∧ i < 10)) ||
      (message.refused && decide (11 ≤ i ∧ i < 40 ∧ i < 11 + message.text.length)) ||
      (!alerts.isEmpty && decide (40 ≤ i ∧ i < 60))
    text.length = 80 ∧
      composeRow s p = text.zipIdx.flatMap fun x =>
        [BitVec.ofNat 8 x.1.toNat, if emphasis x.2 = true then 1 else 0]

/-- The drawer word: NONE for an inactive holder, else the first that applies of FORCED, OVERDUE, OPEN, RELEASED,
HELD and LOCKED (R133). -/
def Sys2Proof.Claims.DrawerWordIsTheFirstThatApplies : Prop :=
  ∀ (s : State) (p : Fin 16),
    let h : Fin 17 := p.succ
    let d := s.drawers[h]
    drawerWord s p =
      if s.configuration.holderActive h = false then ("NONE".toList, false)
      else if d.forced = true ∧ d.state = .opened then ("FORCED".toList, true)
      else if d.state = .overdue then ("OVERDUE".toList, true)
      else if d.state = .opened then ("OPEN".toList, false)
      else if d.state = .released then ("RELEASED".toList, false)
      else if s.totals.flags[h].held = true then ("HELD".toList, false)
      else ("LOCKED".toList, false)

/-- The alerts a row shows: a SUPERVISOR's the alert set in its order of priority, any other's the conditions of
its own holder; the first by name, with "+" and the number of the others (R135). -/
def Sys2Proof.Claims.AlertFieldShowsTheHighest : Prop :=
  (∀ (s : State) (p : Fin 16),
    let h : Fin 17 := p.succ
    let d := s.drawers[h]
    let faulty := ∃ k : Fin 4, (recordOf s.totals h k).faulty = true
    (s.configuration.positions[p].role = 2 → shownAlerts s p =
      ([.totalsFault, .journalDamaged, .journalFull, .batchRejected, .linkSuspended, .drawerForced,
        .drawerOverdue, .monitorFired, .terminalLost, .journalLow, .writeSuppressed] :
        List Alert).filter (alertIn s.control.alerts)) ∧
    (s.configuration.positions[p].role ≠ 2 → shownAlerts s p =
      (if faulty then [Alert.totalsFault] else []) ++ (if d.forced = true then [.drawerForced] else []) ++
        (if d.state = .overdue then [.drawerOverdue] else []))) ∧
  (∀ a b : Alert, ∀ rest : List Alert, alertText [] = [] ∧ alertText [a] = a.name ∧
    alertText (a :: b :: rest) = a.name ++ '+' :: decimal (rest.length + 1))

/-- After every command of the running part a Mirror doubleword whose figures it changed is dirty, or stands in the
Inject Queue with the new figures, where no status row stands at its address (R199, R200; by changed value, log
15). -/
def Sys2Proof.Claims.ChangedMirrorFiguresAreHandedOn : Prop :=
  ∀ (c : Instr) (s t : State) (k : Nat), s.inReset = false → c ≠ .reset →
    (∀ straps, c ≠ .resetRelease straps) → exec c s = .next t → k ∈ mirrorNumbers →
    mirrorFields s k ≠ mirrorFields t k →
    let addr := t.path.windows[4].base + 8 * k
    t.control.mirrorDirty.getLsbD k = true ∨
      ∃ e ∈ t.path.queue, e.cls = .mirror ∧ e.addr = addr ∧
        ((∀ (p : Fin 16) (j : Nat), j < 20 → rowImageAddress t p j ≠ addr) →
          e.data = dwordOfFields (mirrorFields t k))

/-- A doubleword made of fields, each given as its width in bytes and its value: every field stands, modulo its
width, in the lanes behind those of the fields before it, and the lanes behind the last field are zero (R203). -/
def Sys2Proof.Claims.FieldsStandBehindOneAnother : Prop :=
  ∀ (before after : List (Nat × Nat)) (n value : Nat),
    let fields := before ++ (n, value) :: after
    (fields.map (·.1)).sum ≤ 8 →
    laneField (dwordOfFields fields) (before.map (·.1)).sum n = value % 256 ^ n ∧
      (dwordOfFields fields).toNat < 256 ^ (fields.map (·.1)).sum

/-- The figures of the Mirror's doublewords as widths and values, lowest lane first, and the numbers of its
doublewords (13.6, R88; the block count of an empty plan shows 0, DESIGN CHOICE, log 51). -/
def Sys2Proof.Claims.MirrorDoublewordsHoldTheirFigures : Prop :=
  ∀ s : State,
    let c := s.configuration
    let flag (b : Bool) : Nat := if b = true then 1 else 0
    let applied := s.control.config.isSome
    mirrorFields s 0 = [(1, flag applied), (1, s.day.state.code),
      (1, (s.day.openingCopy.map (·.val)).getD 0xFF), (1, flag s.day.settlement.isSome),
      (1, flag s.journal.present)] ∧
    mirrorFields s 1 = [(4, s.day.date), (4, s.day.clock)] ∧ mirrorFields s 2 = [(4, c.size), (4, c.branch)] ∧
    (applied = true →
      mirrorFields s 3 = [(2, c.releaseSpan), (2, c.overdueSpan), (1, flag s.monitors.freeze.isSome)]) ∧
    mirrorFields s 4 = [(2, s.control.alerts.toNat)] ∧
    mirrorFields s 5 = [(4, s.journal.next), (4, s.journal.free)] ∧
    mirrorFields s 6 = [(1, s.posting.queue.length), (1, (s.posting.queue.filter (·.marked)).length), (2, 0),
      (4, s.totals.accepted.toNat)] ∧
    mirrorFields s 7 = [(4, s.totals.refused.toNat)] ∧ mirrorFields s 8 = [(8, s.totals.hash)] ∧
    mirrorFields s 9 = [(1, s.batch.state.code), (1, s.batch.retries), (1, hoPortCode s.batch.port),
      (1, s.batch.cause.code), (4, s.batch.current)] ∧
    mirrorFields s 10 = [(4, (s.batch.plan.map (·.blocks)).getD 0)] ∧
    mirrorFields s 11 ++ mirrorFields s 12 =
      (List.finRange 16).map (fun p => (1, s.screen.positions[p].state.code)) ∧
    (mirrorFields s 11).length = 8 ∧
    mirrorFields s 13 = (List.finRange 4).map (fun k => (1, s.passbook.printers[k].state.code)) ∧
    mirrorFields s 14 ++ mirrorFields s 15 ++ mirrorFields s 16 ++ mirrorFields s 17 =
      (List.finRange 7).map (fun k => (4, s.path.violations[k].toNat)) ++ [(4, 0)] ∧
    (∀ i < 4, (mirrorFields s (14 + i)).length = 2) ∧
    (∀ m : Fin 8, mirrorFields s (32 + m.val) = [(4, s.monitors.counts[m].toNat), (1, c.monitors[m].enabled),
      (1, flag s.monitors.fired[m])]) ∧
    (∀ k : Fin 4,
      let d := s.totals.day[k]
      ((List.range 7).map fun j => mirrorFields s (64 + 8 * k.val + j)) =
        [[(8, d.received.toNat)], [(8, d.paid.toNat)], [(8, d.overage.toNat)], [(8, d.shortage.toNat)],
          [(8, d.residue.toNat)], [(8, d.credit.toNat)], [(8, d.debit.toNat)]]) ∧
    mirrorFields s 96 ++ mirrorFields s 97 ++ mirrorFields s 98 ++ mirrorFields s 99 =
      (List.finRange 7).map (fun k => (4, s.totals.kinds[k].toNat)) ∧
    (∀ i < 3, (mirrorFields s (96 + i)).length = 2) ∧
    (∀ h : Fin 17,
      let marks (mark : HolderRecord → Bool) : Nat :=
        ((List.finRange 4).map fun k => if mark (recordOf s.totals h k) = true then 2 ^ k.val else 0).sum
      mirrorFields s (256 + 32 * h.val) = [(1, flag (c.holderActive h)), (1, s.drawers[h].state.code),
        (1, flag s.drawers[h].forced), (1, flag s.totals.flags[h].held), (1, flag s.totals.flags[h].balanced),
        (1, flag s.totals.flags[h].forced), (1, marks (·.counted)), (1, marks (·.faulty))]) ∧
    (∀ (h : Fin 17) (k : Fin 4),
      let r := recordOf s.totals h k
      let first := 257 + 32 * h.val + 5 * k.val
      (∀ i < 3, mirrorFields s (first + i) = ((r.counts.drop (4 * i)).take 4).map fun n => (2, n)) ∧
      mirrorFields s (first + 3) = [(8, r.balance)] ∧ mirrorFields s (first + 4) = [(8, r.opening)]) ∧
    ∀ k, k ∈ mirrorNumbers ↔ k < 18 ∨ 32 ≤ k ∧ k < 40 ∨ (64 ≤ k ∧ k < 96 ∧ k % 8 ≠ 7) ∨ 96 ≤ k ∧ k < 100 ∨
      (256 ≤ k ∧ k < 800 ∧ k % 32 < 21)

/-- The codes and names of the tables: day states, drawer, terminal, printer and sender states, ports, suspend
causes, statuses and alerts (R133, R135, R162, 5.2, 12.5, 13.4, 13.6). -/
def Sys2Proof.Claims.CodesFollowTheTables : Prop :=
  ([.setup, .recovering, .opened, .closing, .sending, .suspended, .rejected, .settled] : List DayState).map
      (·.code) = List.range 8 ∧
    ([.locked, .released, .opened, .overdue] : List DrawerState).map (·.code) = List.range 4 ∧
    ([.notConfigured, .absent, .present] : List TerminalState).map (·.code) = List.range 3 ∧
    ([.idle, .book, .printing, .turnWait, .ejecting, .fault] : List PrinterState).map (·.code) = List.range 6 ∧
    ([.idle, .composing, .awaitAck, .paused, .awaitFinal, .halted, .finished] : List SenderState).map
      (·.code) = List.range 7 ∧
    hoPortCode .primary = 7 ∧ hoPortCode .backup = 8 ∧
    ([.none, .link, .journal] : List SuspendCause).map (·.code) = List.range 3 ∧
    ([.setup, .recovering, .opened, .closing, .sending, .suspended, .rejected, .settled] : List DayState).map
      (·.name) = ["SETUP".toList, "RECOVERING".toList, "OPEN".toList, "CLOSING".toList, "SENDING".toList,
        "SUSPENDED".toList, "REJECTED".toList, "SETTLED".toList] ∧
    ([.inProgress, .done, .refusedState, .badArgument, .failed] : List Status).map (·.code) = [1, 2, 3, 4, 5] ∧
    ([.totalsFault, .journalDamaged, .journalFull, .batchRejected, .linkSuspended, .drawerForced,
      .drawerOverdue, .monitorFired, .terminalLost, .journalLow, .writeSuppressed] : List Alert).map
      (fun a => (a.code, a.name)) =
      [(0, "TOTALS_FAULT".toList), (1, "JOURNAL_DAMAGED".toList), (2, "JOURNAL_FULL".toList),
        (3, "BATCH_REJECTED".toList), (4, "LINK_SUSPENDED".toList), (5, "DRAWER_FORCED".toList),
        (6, "DRAWER_OVERDUE".toList), (7, "MONITOR_FIRED".toList), (8, "TERMINAL_LOST".toList),
        (9, "JOURNAL_LOW".toList), (10, "WRITE_SUPPRESSED".toList)]

/-- Status rows and the Mirror follow the state at the end of every step, and where the figures of the Mirror stand
(R133 to R136, R199, R200, 13.6). -/
def Obligations.ShownStateFollowsTheState : Prop :=
  Claims.StatusRowsFollowTheState ∧ Claims.StatusRowHoldsItsFields ∧
    Claims.DrawerWordIsTheFirstThatApplies ∧ Claims.AlertFieldShowsTheHighest ∧
    Claims.ChangedMirrorFiguresAreHandedOn ∧ Claims.FieldsStandBehindOneAnother ∧
    Claims.MirrorDoublewordsHoldTheirFigures ∧ Claims.CodesFollowTheTables

/-! ### Passbook printing (chapter 9) -/

/-- The Unprinted Item Table admits an item by the first case of R145 that applies, and closes a summary that did
not take it; a new entry is WAITING with no pending reversal. -/
def Obligations.ItemIsAdmittedByTheFirstCase : Prop :=
  ∀ (items : List Item) (i : Item), ordinaryCount items i.account ≤ 5 →
    let folds (e : Item) := e.printing = false ∧ e.isOpen = true ∧ e.currency = i.currency
    let closed (e : Item) := updateItem items e.key fun e => { e with isOpen := false }
    (∀ e, summaryOf items i.account = some e → folds e →
      admitItem items i = (updateItem items e.key fun e => { e with
        folds := e.folds + 1, amount := e.amount + i.amount, key := i.key, balance := i.balance },
        .folded)) ∧
    (summaryOf items i.account = none → ordinaryCount items i.account = 5 → items.length < 192 →
      admitItem items i = (items ++ [{ i with
        first := i.key, mnemonic := .sum, folds := 1, summary := true, isOpen := true }], .entered)) ∧
    (summaryOf items i.account = none → ordinaryCount items i.account < 5 → items.length < 192 →
      admitItem items i = (items ++ [i], .entered)) ∧
    (∀ e, summaryOf items i.account = some e → ¬folds e → ordinaryCount items i.account < 5 →
      items.length < 192 → admitItem items i = (closed e ++ [i], .entered)) ∧
    (summaryOf items i.account = none → 192 ≤ items.length → admitItem items i = (items, .untracked)) ∧
    (∀ e, summaryOf items i.account = some e → ¬folds e →
      ordinaryCount items i.account = 5 ∨ 192 ≤ items.length →
      admitItem items i = (closed e, .untracked)) ∧
    ∀ (account key : Nat) (currency : Fin 4) (mnemonic : Mnemonic) (amount balance : Int),
      let fresh := ordinaryItem account currency key mnemonic amount balance
      fresh.printing = false ∧ fresh.reversals = [] ∧ fresh.summary = false

/-- A BOOK_IN of an idle printer whose account has no WAITING item ejects the book with NO ITEMS; in SETUP,
RECOVERING and SETTLED it ejects with NO SERVICE (R151). -/
def Sys2Proof.Claims.BookWithoutItemsIsEjected : Prop :=
  ∀ (s : State) (k : Fin 4) (frame : List Byte) (port : Fin 6), s.inReset = false →
    s.configuration.printerPort k = some port → printerSends frame 0x10 = true →
    s.passbook.printers[k].state = .idle →
    let account := field frame 2 8
    let page := field frame 10 1
    let line := field frame 11 1
    let p : Printer := { s.passbook.printers[k] with
      state := .ejecting, job := some ⟨account, page, line, 0, none⟩, lineTimer := false,
      turnTimer := false }
    let ejected (text : List Char) :=
      notice (sendPrinter s k p .eject (printerFrame 0x04 [])) k text
    (s.day.state = .setup ∨ s.day.state = .recovering ∨ s.day.state = .settled →
      Gives (.bookIn k frame) s (ejected "NO SERVICE".toList)) ∧
    (s.day.state = .opened → 1 ≤ account → account ≤ 999999999999 → 1 ≤ page → page ≤ 31 → 1 ≤ line →
      line ≤ 25 → nextWaiting s.passbook.items account = none →
      Gives (.bookIn k frame) s (ejected "NO ITEMS".toList))

/-- A BOOK_IN starts a job in IDLE and in TURN_WAIT with another account, and continues the job of its account in
TURN_WAIT. It is judged in order: NO SERVICE, BAD STRIPE, BOOK FULL, no WAITING item, and at line 25 the stripe of
the next page before the TURN. Elsewhere it is discarded (R149, R151). -/
def Sys2Proof.Claims.BookInIsJudgedInOrder : Prop :=
  ∀ (s : State) (k : Fin 4) (frame : List Byte) (port : Fin 6), s.inReset = false →
    s.configuration.printerPort k = some port → printerSends frame 0x10 = true →
    let account := field frame 2 8
    let page := field frame 10 1
    let line := field frame 11 1
    let p := s.passbook.printers[k]
    (p.state = .book ∨ p.state = .printing ∨ p.state = .ejecting ∨ p.state = .fault →
      Gives (.bookIn k frame) s s) ∧
    ∀ (job : Job) (started : Bool),
      (started = true ∧ job = ⟨account, page, line, 0, none⟩ ∧
        (p.state = .idle ∨ p.state = .turnWait ∧ ∀ old, p.job = some old → old.account ≠ account) ∨
      started = false ∧ p.state = .turnWait ∧ ∃ old, p.job = some old ∧ old.account = account ∧
        job = { old with page := page, line := line, current := none }) →
      let held : Printer := { p with job := some job, turnTimer := false, lineTimer := false }
      let ejected (text : List Char) : Prop := Gives (.bookIn k frame) s
        (notice (sendPrinter s k { held with state := .ejecting } .eject (printerFrame 0x04 [])) k text)
      let closed := s.day.state = .setup ∨ s.day.state = .recovering ∨ s.day.state = .settled
      let bad := account < 1 ∨ 999999999999 < account ∨ page < 1 ∨ 32 < page ∨ line < 1 ∨ 25 < line
      (closed → ejected "NO SERVICE".toList) ∧
      (¬closed → bad → ejected "BAD STRIPE".toList) ∧
      (¬closed → ¬bad → page = 32 → line = 25 → ejected "BOOK FULL".toList) ∧
      (¬closed → ¬bad → ¬(page = 32 ∧ line = 25) → nextWaiting s.passbook.items account = none →
        ejected (if started = true then "NO ITEMS".toList else "DONE ".toList ++ decimal job.printed)) ∧
      (¬closed → ¬bad → page < 32 → line = 25 → nextWaiting s.passbook.items account ≠ none →
        Gives (.bookIn k frame) s
          (sendPrinter s k { held with state := .book } (.stripe (page + 1) 1 true)
            (printerFrame 0x02 [BitVec.ofNat 8 (page + 1), 1])))

/-- A BOOK_IN whose tests pass takes a line, for a new job in IDLE and in TURN_WAIT with another account, and for
the job of its account that goes on in TURN_WAIT: with a reservation the WAITING entry of the smallest key is
PRINTING and PRINT goes out with its text, the reply and LINE_DONE timers running; without one the book is ejected
with JOURNAL FULL. The entry taken is the account's WAITING one of the smallest key (R151, R152). -/
def Sys2Proof.Claims.JobTakesItsLine : Prop :=
  (∀ (s : State) (k : Fin 4) (frame : List Byte) (port : Fin 6) (e : Item), s.inReset = false →
    s.configuration.printerPort k = some port → printerSends frame 0x10 = true →
    let account := field frame 2 8
    let page := field frame 10 1
    let line := field frame 11 1
    let p := s.passbook.printers[k]
    s.day.state ≠ .setup → s.day.state ≠ .recovering → s.day.state ≠ .settled → 1 ≤ account →
    account ≤ 999999999999 → 1 ≤ page → page ≤ 32 → 1 ≤ line → line ≤ 24 →
    nextWaiting s.passbook.items account = some e →
    ∀ job : Job,
      (job = ⟨account, page, line, 0, none⟩ ∧
        (p.state = .idle ∨ p.state = .turnWait ∧ ∀ old, p.job = some old → old.account ≠ account) ∨
      p.state = .turnWait ∧ ∃ old, p.job = some old ∧ old.account = account ∧
        job = { old with page := page, line := line, current := none }) →
      (reservationGranted s = true → Gives (.bookIn k frame) s
        (sendPrinter
          (setItems (reserve s k)
            (updateItem s.passbook.items e.key fun e => { e with printing := true })) k
          { p with state := .printing, job := some { job with current := some e.key }, lineTimer := true,
                   turnTimer := false }
          .print
          (printerFrame 0x01 (BitVec.ofNat 8 page :: BitVec.ofNat 8 line ::
            charBytes (printedLine s.configuration s.day.date e))))) ∧
      (reservationGranted s = false → Gives (.bookIn k frame) s
        (notice
          (sendPrinter s k
            { p with state := .ejecting, job := some job, lineTimer := false, turnTimer := false } .eject
            (printerFrame 0x04 [])) k "JOURNAL FULL".toList))) ∧
  ∀ (items : List Item) (account : Nat),
    let waits (e : Item) := e ∈ items ∧ e.account = account ∧ e.printing = false
    (nextWaiting items account = none ↔ ∀ e, ¬waits e) ∧
      ∀ e, nextWaiting items account = some e → waits e ∧ ∀ x, waits x → e.key ≤ x.key

/-- A BOOK_OUT takes the book of a BOOK or EJECTING printer out of its job (dropping an EJECT's reply wait is
DEDUCED, log 31); in PRINTING it interrupts the line, with INTERRUPTED; in IDLE, TURN_WAIT and FAULT it changes
nothing (R154 to R156). -/
def Sys2Proof.Claims.BookOutEndsTheJob : Prop :=
  ∀ (s : State) (k : Fin 4) (frame : List Byte) (port : Fin 6), s.inReset = false →
    s.configuration.printerPort k = some port → printerSends frame 0x11 = true →
    let p := s.passbook.printers[k]
    (p.state = .book ∨ p.state = .ejecting →
      Gives (.bookOut k frame) s (setPrinter s k (barePrinter .idle))) ∧
    (p.state = .idle ∨ p.state = .turnWait ∨ p.state = .fault → Gives (.bookOut k frame) s s) ∧
    (∀ job e, p.state = .printing → p.job = some job →
      currentItem s p = some e → e.summary = false → e.reversals = [] →
      Gives (.bookOut k frame) s
        (notice
          (setPrinter
            (redeemEntry
              (setItems s (updateItem s.passbook.items e.key fun _ =>
                { e with printing := false, reversals := [] })) k
              { kind := 6, code := k.val, account := e.account, ref := e.key, amountA := job.page,
                amountB := job.line })
            k (barePrinter .idle)) k "INTERRUPTED".toList))

/-- The 40 columns of a printed line: the date as DDMMYY, a space, the mnemonic, a space, the amount's field, a
space, the balance's field, each field of 14 columns and every character in 20h..7Eh (R158; the fields' columns for
a currency that is not configured are free, DESIGN CHOICE, log 43). -/
def Sys2Proof.Claims.PrintedLineHoldsItsColumns : Prop :=
  ∀ (c : Configuration) (date : Nat) (e : Item),
    let line := printedLine c date e
    let digits (n : Nat) : List Char := [Char.ofNat (48 + n / 10 % 10), Char.ofNat (48 + n % 10)]
    let letters : List Char := match e.mnemonic with
      | .dep => ['D', 'E', 'P'] | .wdl => ['W', 'D', 'L'] | .ncr => ['N', 'C', 'R']
      | .ndr => ['N', 'D', 'R'] | .rev => ['R', 'E', 'V'] | .sum => ['S', 'U', 'M']
    line.length = 40 ∧ (∀ ch ∈ line, 0x20 ≤ ch.toNat ∧ ch.toNat ≤ 0x7E) ∧
    ∃ amount balance : List Char, amount.length = 14 ∧ balance.length = 14 ∧
      line = digits (date % 100) ++ digits (date / 100 % 100) ++ digits (date / 10000 % 100) ++ [' '] ++
        letters ++ [' '] ++ amount ++ [' '] ++ balance ∧
      (c.hasCurrency e.currency = true →
        amount = amountField c.currencies[e.currency] e.amount ∧
          balance = amountField c.currencies[e.currency] e.balance)

/-- A notice is the message, not emphasised, of every enabled position whose binding names the printer, "PRINTER k
" before its text, and changes nothing else; the numbers of notices and verdicts are in decimal (R134, R159). -/
def Sys2Proof.Claims.NoticeReachesTheBoundPositions : Prop :=
  (∀ (s : State) (k : Fin 4) (text : List Char) (p : Fin 16),
    let t := notice s k text
    let bound := s.configuration.positions[p].enabled = 1 ∧ s.configuration.positions[p].printer = k.val
    (bound → t.screen.positions[p] = { s.screen.positions[p] with
      message := ⟨"PRINTER ".toList ++ [Char.ofNat (48 + k.val), ' '] ++ text, false⟩ }) ∧
    (¬bound → t.screen.positions[p] = s.screen.positions[p]) ∧
    { t with screen := { t.screen with positions := s.screen.positions } } = s) ∧
  ∀ n : Nat, n < 10 ^ 24 → decimal n = Nat.toDigits 10 n

/-- BOOK_IN, the lines it prints and their text, the notices, and BOOK_OUT (R134, R151 to R156, R158, R159). -/
def Obligations.BooksComeAndGo : Prop :=
  Claims.BookWithoutItemsIsEjected ∧ Claims.BookInIsJudgedInOrder ∧ Claims.JobTakesItsLine ∧
    Claims.BookOutEndsTheJob ∧ Claims.PrintedLineHoldsItsColumns ∧ Claims.NoticeReachesTheBoundPositions

/-- A LINE_DONE in PRINTING journals ITEM_PRINTED with the reservation, frees the entry, and admits the REV items
of its pending reversals that carry the flag, in their order, one untracked journaled with position and tag 0. It
counts the line, and sends the STRIPE of the next line, of the next page after line 24, or of line 25 on page 32;
in every other state it is discarded (R146, R148, R153, R154). -/
def Sys2Proof.Claims.PrintedLineFreesItsEntry : Prop :=
  ∀ (s : State) (k : Fin 4) (frame : List Byte) (port : Fin 6),
    s.inReset = false → s.configuration.printerPort k = some port → printerSends frame 0x12 = true →
    let p := s.passbook.printers[k]
    (p.state ≠ .printing → Gives (.lineDone k frame) s s) ∧
    ∀ (job : Job) (e : Item), p.state = .printing → p.job = some job → currentItem s p = some e →
      let next : Nat × Nat := if job.line < 24 then (job.page, job.line + 1)
        else if job.page < 32 then (job.page + 1, 1) else (32, 25)
      let turn : Bool := decide (24 ≤ job.line ∧ job.page < 32)
      let freed : State := setItems
        (redeemEntry s k
          { kind := 5, code := k.val, flags := if e.summary = true then 1 else 0, account := e.account,
            amountA := job.page, amountB := job.line, balance := e.balance, ref := e.key,
            tag := if e.summary = true then e.first else 0 })
        (freeItem s.passbook.items e.key)
      let admitted (u : State) (r : PendingReversal) : State :=
        let x := admitItem u.passbook.items
          (ordinaryItem e.account e.currency r.number .rev (-r.amount) r.balance)
        if x.2 = .untracked then eventEntry (setItems u x.1)
          { kind := 7, account := e.account, amountA := -r.amount, balance := r.balance, ref := r.number }
        else setItems u x.1
      Gives (.lineDone k frame) s
        (sendPrinter ((e.reversals.filter fun r => r.flag).foldl admitted freed) k
          { p with
            state := .book, job := some { job with printed := job.printed + 1, current := none },
            lineTimer := false, turnTimer := false }
          (.stripe next.1 next.2 turn)
          (printerFrame 0x02 [BitVec.ofNat 8 next.1, BitVec.ofNat 8 next.2]))

/-- An interrupted line journals PRINT_INTERRUPTED with its reservation, and its entry WAITS again: an ordinary one
with a pending reversal is freed, a summary has each taken out of it and is freed when nothing is left. After
BOOK_OUT the printer is IDLE with INTERRUPTED; after the LINE_DONE timer, a NAK, an invalid frame or 2 s without
the reply of the PRINT it is FAULT with TIMEOUT in the entry's flags, and so it is after READY, which sends
RESET_PRINTER (R148 to R150, R156). -/
def Sys2Proof.Claims.InterruptedLineReturnsItsEntry : Prop :=
  ∀ (s : State) (k : Fin 4) (frame : List Byte) (port : Fin 6) (job : Job) (e : Item), s.inReset = false →
    s.configuration.printerPort k = some port → s.passbook.printers[k].state = .printing →
    s.passbook.printers[k].job = some job → currentItem s s.passbook.printers[k] = some e →
    let pending := e.reversals.length
    let waiting : Item := { e with printing := false, reversals := [] }
    let left : List Item :=
      if pending = 0 then updateItem s.passbook.items e.key fun _ => waiting
      else if e.summary = true ∧ pending < e.folds then updateItem s.passbook.items e.key fun _ =>
        { waiting with
          folds := e.folds - pending, amount := e.amount - (e.reversals.map (·.amount)).sum,
          balance := (e.reversals.getLast?.map (·.balance)).getD e.balance }
      else freeItem s.passbook.items e.key
    let interrupted (flags : Nat) : State := redeemEntry (setItems s left) k
      { kind := 6, code := k.val, flags := flags, account := e.account, ref := e.key, amountA := job.page,
        amountB := job.line }
    let failed := notice (setPrinter (interrupted 1) k (barePrinter .fault)) k "FAULT".toList
    (printerSends frame 0x11 = true → Gives (.bookOut k frame) s
      (notice (setPrinter (interrupted 0) k (barePrinter .idle)) k "INTERRUPTED".toList)) ∧
    (s.passbook.printers[k].lineTimer = true → Gives (.lineDoneTimeout k) s failed) ∧
    (s.passbook.printers[k].awaited = some .print →
      (printerSends frame 0x15 = true ∨ printerFrameValid frame = false →
        Gives (.printerNak k frame) s failed) ∧
      Gives (.printerReplyTimeout k) s failed) ∧
    (printerSends frame 0x13 = true → Gives (.ready k frame) s
      (notice (sendPrinter (interrupted 1) k (barePrinter .fault) .reset (printerFrame 0x05 [])) k
        "FAULT".toList))

/-- How a line ends: LINE_DONE, and the interruptions (R148 to R150, R153, R156). -/
def Obligations.LinesArePrintedOrInterrupted : Prop :=
  Claims.PrintedLineFreesItsEntry ∧ Claims.InterruptedLineReturnsItsEntry

/-- A READY of a printer that is not PRINTING sends RESET_PRINTER and awaits its ACK in FAULT (R150). -/
def Sys2Proof.Claims.ReadyResetsThePrinter : Prop :=
  ∀ (s : State) (k : Fin 4) (frame : List Byte) (port : Fin 6), s.inReset = false →
    s.configuration.printerPort k = some port → printerSends frame 0x13 = true →
    s.passbook.printers[k].state ≠ .printing →
    Gives (.ready k frame) s (sendPrinter s k (barePrinter .fault) .reset (printerFrame 0x05 []))

/-- An ACK of RESET_PRINTER makes the printer IDLE; one of PRINT, TURN or EJECT ends the wait; with no message
awaited it is discarded (R149, R150). -/
def Sys2Proof.Claims.AckAnswersTheMessage : Prop :=
  ∀ (s : State) (k : Fin 4) (frame : List Byte) (port : Fin 6), s.inReset = false →
    s.configuration.printerPort k = some port → printerSends frame 0x14 = true →
    let p := s.passbook.printers[k]
    (p.awaited = some .reset → Gives (.printerAck k frame) s (setPrinter s k (barePrinter .idle))) ∧
    (p.awaited = some .print ∨ p.awaited = some .turn ∨ p.awaited = some .eject →
      Gives (.printerAck k frame) s (setPrinter s k { p with awaited := none })) ∧
    (p.awaited = none → Gives (.printerAck k frame) s s)

/-- The ACK of a STRIPE: before a page turn TURN goes out with the page-turn timer and TURN PAGE; after STRIPE(32,
25) the book is ejected; else the job takes its next line at the striped place, or is ejected with DONE n or
JOURNAL FULL (R152 to R154). -/
def Sys2Proof.Claims.AckOfStripeGoesOn : Prop :=
  ∀ (s : State) (k : Fin 4) (frame : List Byte) (port : Fin 6) (page line : Nat) (turn : Bool) (job : Job),
    s.inReset = false → s.configuration.printerPort k = some port → printerSends frame 0x14 = true →
    s.passbook.printers[k].awaited = some (.stripe page line turn) →
    s.passbook.printers[k].job = some job →
    let p := s.passbook.printers[k]
    let placed : Job := { job with page := page, line := line, current := none }
    let full := page = 32 ∧ line = 25
    let next := nextWaiting s.passbook.items job.account
    let done := "DONE ".toList ++ decimal job.printed
    let ejected (text : List Char) : Prop := Gives (.printerAck k frame) s
      (notice
        (sendPrinter s k
          { p with state := .ejecting, job := some placed, turnTimer := false, lineTimer := false } .eject
          (printerFrame 0x04 [])) k text)
    (turn = true → Gives (.printerAck k frame) s
      (notice (sendPrinter s k { p with state := .turnWait, turnTimer := true } .turn (printerFrame 0x03 []))
        k "TURN PAGE".toList)) ∧
    (turn = false → full → ejected (if next = none then done else "BOOK FULL".toList)) ∧
    (turn = false → ¬full → next = none → ejected done) ∧
    (∀ e, turn = false → ¬full → next = some e →
      (reservationGranted s = false → ejected "JOURNAL FULL".toList) ∧
      (reservationGranted s = true → Gives (.printerAck k frame) s
        (sendPrinter
          (setItems (reserve s k)
            (updateItem s.passbook.items e.key fun e => { e with printing := true })) k
          { p with
            state := .printing, job := some { placed with current := some e.key }, lineTimer := true,
            turnTimer := false }
          .print
          (printerFrame 0x01 (BitVec.ofNat 8 page :: BitVec.ofNat 8 line ::
            charBytes (printedLine s.configuration s.day.date e))))))

/-- A NAK, or an invalid frame, or 2 s without a reply to an awaited message outside PRINTING makes the printer
FAULT with its job ended; with none awaited nothing happens (R149, R156; the expiry of a stopped timer does
nothing, DESIGN CHOICE, log 2). -/
def Sys2Proof.Claims.FailedMessageFaultsThePrinter : Prop :=
  ∀ (s : State) (k : Fin 4) (frame : List Byte) (port : Fin 6), s.inReset = false →
    s.configuration.printerPort k = some port →
    (printerSends frame 0x15 = true ∨ printerFrameValid frame = false) →
    let failed := notice (setPrinter s k (barePrinter .fault)) k "FAULT".toList
    (s.passbook.printers[k].state ≠ .printing → s.passbook.printers[k].awaited ≠ none →
      Gives (.printerNak k frame) s failed ∧ Gives (.printerReplyTimeout k) s failed) ∧
    (s.passbook.printers[k].awaited = none →
      Gives (.printerNak k frame) s s ∧ Gives (.printerReplyTimeout k) s s)

/-- An invalid frame from a printer that owes no reply is discarded (R149). -/
def Sys2Proof.Claims.InvalidPrinterFrameIsDiscarded : Prop :=
  ∀ (s : State) (k : Fin 4) (frame : List Byte), s.inReset = false →
    printerFrameValid frame = false → s.passbook.printers[k].awaited = none →
    Gives (.printerInvalidFrame k frame) s s

/-- The page-turn timer ends the job with TURN TIMEOUT (R154). -/
def Sys2Proof.Claims.TurnTimeoutEndsTheJob : Prop :=
  ∀ (s : State) (k : Fin 4), s.inReset = false → s.passbook.printers[k].turnTimer = true →
    Gives (.pageTurnTimeout k) s
      (notice (setPrinter s k (barePrinter .idle)) k "TURN TIMEOUT".toList)

/-- A printer frame: kind, the length of the payload, the payload, and the CRC-8 of all before it. One from a
printer is valid where it is whole and is a BOOK_IN of 10 bytes or another of the kinds 11h to 15h without payload,
and it sends its kind (R149, 13.8). -/
def Sys2Proof.Claims.PrinterFrameIsValid : Prop :=
  (∀ (kind : Byte) (payload : List Byte),
    let body := [kind, BitVec.ofNat 8 payload.length] ++ payload
    printerFrame kind payload = body ++ [crc8 body]) ∧
  ∀ f : List Byte,
    (printerFrameValid f = true ↔ ∃ (kind : Byte) (payload : List Byte), f = printerFrame kind payload ∧
      (kind = 0x10 ∧ payload.length = 10 ∨ 0x11 ≤ kind.toNat ∧ kind.toNat ≤ 0x15 ∧ payload = [])) ∧
    ∀ kind : Byte, printerSends f kind = true ↔ printerFrameValid f = true ∧ f.head? = some kind

/-- READY, the replies to a part message outside PRINTING, the page-turn timer, and the frames of a printer (R149,
R150, R154, R156). -/
def Obligations.PrinterMessagesAreAnswered : Prop :=
  Claims.ReadyResetsThePrinter ∧ Claims.AckAnswersTheMessage ∧ Claims.AckOfStripeGoesOn ∧
    Claims.FailedMessageFaultsThePrinter ∧ Claims.InvalidPrinterFrameIsDiscarded ∧
    Claims.TurnTimeoutEndsTheJob ∧ Claims.PrinterFrameIsValid

/-! ### Sending to head office (chapter 11) -/

/-- The end of a block's frame starts its ACK wait (R183). -/
def Sys2Proof.Claims.SentBlockStartsTheAckWait : Prop :=
  ∀ (s : State) (k : Fin 6) (frame : List Byte), s.inReset = false →
    s.configuration.headOfficePort s.batch.port = some k → s.lines[k] = [frame] →
    s.batch.state = .awaitAck →
    Gives (.hoFrameSent s.batch.port) s
      (setBatch { s with lines := s.lines.set k [] } { s.batch with ackWait := true })

/-- An ACK of the current block makes the next block current with the retry count at 0; an ACK of the TRAILER
starts the FINAL wait; an ACK of another block is discarded (R184). -/
def Sys2Proof.Claims.AckMovesToTheNextBlock : Prop :=
  ∀ (s : State) (f : List Byte) (p : Plan), s.inReset = false →
    frameTaken s s.batch.port f 0x81 = true → s.batch.state ≠ .awaitFinal → s.batch.plan = some p →
    (frameBlock f = s.batch.current → s.batch.current + 1 ≠ p.blocks →
      ∃ t, exec (.hoAck s.batch.port f) s = .next t ∧ t.batch.current = s.batch.current + 1 ∧
        t.batch.retries = 0 ∧ t.batch.port = s.batch.port ∧ t.batch.plan = some p ∧
        (t.batch.state = .awaitAck ∨ t.batch.state = .composing) ∧ t.totals = s.totals ∧
        t.day.state = s.day.state ∧ journalWrites t.path = journalWrites s.path) ∧
    (frameBlock f = s.batch.current → s.batch.current + 1 = p.blocks →
      Gives (.hoAck s.batch.port f) s
        (setBatch s { s.batch with
          state := .awaitFinal, retries := 0, ackWait := false, pause := false, finalWait := true })) ∧
    (frameBlock f ≠ s.batch.current → Gives (.hoAck s.batch.port f) s s)

/-- An ACK of the current block, not the TRAILER, makes the next block current with the retry count at 0: one of
figures is sent at once; an ENTRY block makes the sender COMPOSING and asks for a run over its entries (R181, R183,
R184). -/
def Sys2Proof.Claims.NextBlockIsComposed : Prop :=
  ∀ (s : State) (f : List Byte) (p : Plan), s.inReset = false →
    frameTaken s s.batch.port f 0x81 = true → s.batch.state ≠ .awaitFinal → s.batch.plan = some p →
    frameBlock f = s.batch.current → s.batch.current + 1 ≠ p.blocks →
    let next : Batch := { s.batch with
      current := s.batch.current + 1, retries := 0, ackWait := false, pause := false, finalWait := false }
    (∀ kind bytes, blockContent s p (s.batch.current + 1) = .payload kind bytes →
      Gives (.hoAck s.batch.port f) s
        (sendFrame (setBatch s { next with state := .awaitAck, kind := kind, buffer := bytes })
          (s.configuration.headOfficePort s.batch.port)
          (headOfficeFrame kind (s.batch.current + 1) bytes))) ∧
    (∀ a b, blockContent s p (s.batch.current + 1) = .entries a b →
      Gives (.hoAck s.batch.port f) s
        { setBatch s { next with state := .composing, kind := 5, buffer := [] } with
          journal := { s.journal with
            runs := s.journal.runs ++
              [⟨.batch, a, some b, if a ≤ 1 then some 0xFFFFFFFF else none, journalUnitFree s⟩] } })

/-- A frame is valid when it is a whole ACK, NAK or WAIT without payload, or a FINAL with result 1 or 2 and the
hash; its number is its block field (R182). -/
def Sys2Proof.Claims.HeadOfficeFrameIsValid : Prop :=
  ∀ f : List Byte,
    (headOfficeFrameValid f = true ↔
      ∃ (kind n : Nat) (payload : List Byte), f = headOfficeFrame kind n payload ∧ n < 65536 ∧
        ((kind = 0x81 ∨ kind = 0x82 ∨ kind = 0x83) ∧ payload = [] ∨
          kind = 0x84 ∧ payload.length = 9 ∧ (payload.head? = some 1 ∨ payload.head? = some 2))) ∧
    ∀ (kind n : Nat) (payload : List Byte), n < 65536 → frameBlock (headOfficeFrame kind n payload) = n

/-- A frame that is not valid, or comes on a port that is not the active one, or while the sender awaits nothing,
is discarded, and timers go on (R182). -/
def Sys2Proof.Claims.InvalidHeadOfficeFrameIsDiscarded : Prop :=
  ∀ (s : State) (port : HoPort) (f : List Byte), s.inReset = false →
    (headOfficeFrameValid f = false → Gives (.hoInvalidFrame port f) s s) ∧
    (headOfficeFrameValid f = false ∨ s.batch.port ≠ port ∨ s.configuration.headOfficePort port = none ∨
        (s.batch.state ≠ .awaitAck ∧ s.batch.state ≠ .paused ∧ s.batch.state ≠ .awaitFinal) →
      Gives (.hoAck port f) s s ∧ Gives (.hoNak port f) s s ∧ Gives (.hoWait port f) s s ∧
        Gives (.hoFinal port f) s s)

/-- The blocks of a batch by number: HEADER, the HOLDER blocks of four records, DAY TOTALS, MONITOR, the ENTRY
blocks of four entries, TRAILER; DAY TOTALS has the zeros of a currency not configured (R179, R180; zeros in bytes
04..07 of a HOLDER record are DEDUCED, log 48). -/
def Sys2Proof.Claims.BlocksHoldTheirContents : Prop :=
  ∀ (s : State) (p : Plan) (n : Nat),
    let c := s.configuration
    let t := s.totals
    let holders := (p.records + 3) / 4
    let holderRecord (m : Fin 17 × Fin 4) : List Byte :=
      let r := recordOf t m.1 m.2
      leBytes 1 m.1.val ++ leBytes 1 m.2.val ++ leBytes 1 (if r.counted = true then 1 else 0) ++
        leBytes 1 (if t.flags[m.1].forced = true then 1 else 0) ++ leBytes 4 0 ++ bytes16 r.counts ++
        leBytes 8 r.opening ++ leBytes 8 r.balance ++ List.replicate 16 0
    p.blocks = 4 + holders + (p.last + 3) / 4 →
    (n = 0 → blockContent s p n = .payload 1 (leBytes 4 c.branch ++ leBytes 4 s.day.date ++ leBytes 4 1 ++
      leBytes 4 p.last ++ leBytes 4 p.blocks)) ∧
    (1 ≤ n → n ≤ holders → blockContent s p n = .payload 2
      ((((examinedRecords c).drop (4 * (n - 1))).take 4).flatMap holderRecord)) ∧
    (n = holders + 1 → blockContent s p n = .payload 3
      (((List.finRange 4).flatMap fun k =>
        let d := if c.hasCurrency k = true then t.day[k] else ⟨0, 0, 0, 0, 0, 0, 0⟩
        leBytes 8 d.received.toNat ++ leBytes 8 d.paid.toNat ++ leBytes 8 d.overage.toNat ++
          leBytes 8 d.shortage.toNat ++ leBytes 8 d.residue.toNat ++ leBytes 8 d.credit.toNat ++
          leBytes 8 d.debit.toNat) ++
        t.kinds.toList.flatMap fun k => leBytes 4 k.toNat)) ∧
    (n = holders + 2 → blockContent s p n = .payload 4
      (p.monitors.flatMap fun m => leBytes 4 m.count.toNat ++
        leBytes 1 (if m.fired = true then 1 else 0) ++ leBytes 1 (if m.enabled = true then 1 else 0) ++
        leBytes 1 m.action ++ leBytes 1 0)) ∧
    (∀ j < (p.last + 3) / 4, n = holders + 3 + j →
      blockContent s p n = .entries (4 * j + 1) (min (4 * j + 4) p.last)) ∧
    (n + 1 = p.blocks → blockContent s p n = .payload 6
      (leBytes 4 p.accepted.toNat ++ leBytes 4 p.chain.toNat ++ leBytes 8 p.hash))

/-- The HOLDER records are those of active holders in configured currencies, by holder and then by currency (R180). -/
def Sys2Proof.Claims.HolderRecordsAreInOrder : Prop :=
  ∀ c : Configuration,
    (∀ (h : Fin 17) (k : Fin 4), (h, k) ∈ examinedRecords c ↔
      c.holderActive h = true ∧ c.hasCurrency k = true) ∧
    (examinedRecords c).Pairwise fun a b => a.1 < b.1 ∨ a.1 = b.1 ∧ a.2 < b.2

/-- The run of an ENTRY block: a verified entry joins the block buffer and gives the check chain of the next, the
last sends the block, and a break suspends the batch with cause JOURNAL and JOURNAL_DAMAGED, the day SUSPENDED,
BATCH_SUSPENDED journaled (R119, R120, R181; the row as its own step, log 12). -/
def Sys2Proof.Claims.EntryBlockIsReadBack : Prop :=
  ∀ (s : State) (r : Run) (last : Nat), s.inReset = false → s.journal.runs = [r] →
    r.requester = .batch → r.started = true → r.last = some last →
    s.journal.serving = some .batch → 8 ≤ s.journal.buffer.length →
    let e := bytesOfDwords (s.journal.buffer.take 8)
    let verified := entryNumber e = r.next ∧ entryChain e = chainOf (r.chain.getD 0xFFFFFFFF) e
    let filled : Batch := { s.batch with buffer := s.batch.buffer ++ e }
    let ended : State := { s with journal := { s.journal with runs := [] } }
    let runs := [{ r with next := r.next + 1, chain := some (entryChain e) }]
    (verified → r.next ≠ last →
      Gives .journalRunEntry s { setBatch s filled with journal := { s.journal with runs := runs } } ∧
        ∃ t, exec .journalRunEntry s = .next t ∧ t.journal.runs = runs) ∧
    (verified → r.next = last → Gives .journalRunEntry s
      (sendFrame
        (setBatch ended
          { filled with state := .awaitAck, ackWait := false, pause := false, finalWait := false })
        (s.configuration.headOfficePort s.batch.port)
        (headOfficeFrame s.batch.kind s.batch.current filled.buffer))) ∧
    (¬verified → Gives .journalRunEntry s
      (raiseAlert
        (dayControlEntry
          (setDayState
            (setBatch ended { s.batch with
              state := .halted, cause := .journal, ackWait := false, pause := false, finalWait := false })
            .suspended)
          { kind := 17, ref := s.batch.current }) .journalDamaged))

/-- A head-office frame: A5h, kind, number and length as two bytes each, low byte first, the payload, and the
CRC-16 of all between (R182, 13.8). -/
def Sys2Proof.Claims.HeadOfficeFrameIsClosedByItsCheck : Prop :=
  ∀ (kind n : Nat) (payload : List Byte),
    let body := leBytes 1 kind ++ leBytes 2 n ++ leBytes 2 payload.length ++ payload
    headOfficeFrame kind n payload = 0xA5 :: body ++ leBytes 2 (crc16 body).toNat

/-- A frame is taken where it is valid, of the kind, on the active port, which has a line, and the sender awaits a
frame (R182). -/
def Sys2Proof.Claims.FrameIsTakenWhileAwaited : Prop :=
  ∀ (s : State) (port : HoPort) (f : List Byte) (kind : Byte),
    frameTaken s port f kind = true ↔ headOfficeFrameValid f = true ∧ f.getD 1 0 = kind ∧
      s.batch.port = port ∧ s.configuration.headOfficePort port ≠ none ∧
      (s.batch.state = .awaitAck ∨ s.batch.state = .paused ∨ s.batch.state = .awaitFinal)

/-- What the blocks hold, a block's frame, its ACK, and a frame that is not valid (R180 to R184). -/
def Obligations.BlocksAreSentAndAcknowledged : Prop :=
  Claims.SentBlockStartsTheAckWait ∧ Claims.AckMovesToTheNextBlock ∧ Claims.NextBlockIsComposed ∧
    Claims.HeadOfficeFrameIsValid ∧ Claims.InvalidHeadOfficeFrameIsDiscarded ∧
    Claims.BlocksHoldTheirContents ∧ Claims.HolderRecordsAreInOrder ∧ Claims.EntryBlockIsReadBack ∧
    Claims.HeadOfficeFrameIsClosedByItsCheck ∧ Claims.FrameIsTakenWhileAwaited

/-- A failed send with fewer than three retries sends the block again on the same port: at a NAK, at the end of
the ACK wait, and at the end of the FINAL wait (R185, R187). -/
def Sys2Proof.Claims.FailedSendIsRetried : Prop :=
  ∀ (s : State) (k : Fin 6) (f : List Byte), s.inReset = false → s.batch.retries < 3 →
    s.configuration.headOfficePort s.batch.port = some k →
    let resent := sendFrame
      (setBatch s { s.batch with
        state := .awaitAck, retries := s.batch.retries + 1, ackWait := false, pause := false,
        finalWait := false })
      (some k) (headOfficeFrame s.batch.kind s.batch.current s.batch.buffer)
    (frameTaken s s.batch.port f 0x82 = true → frameBlock f = s.batch.current →
      s.batch.state ≠ .awaitFinal → Gives (.hoNak s.batch.port f) s resent) ∧
    (s.batch.ackWait = true → Gives .ackWaitExpiry s resent) ∧
    (s.batch.finalWait = true → Gives .finalWaitExpiry s resent)

/-- The fourth failed send on HO_PRIMARY, by a NAK, the end of the ACK wait or the end of the FINAL wait, moves the
block to HO_BACKUP where there is one, with the retry count at 0; with none, or on HO_BACKUP, the batch is HALTED
with cause LINK, the day SUSPENDED, BATCH_SUSPENDED journaled and LINK_SUSPENDED raised (R185, R187, R188). -/
def Sys2Proof.Claims.FourthFailureFailsOverOrSuspends : Prop :=
  ∀ (s : State) (f : List Byte), s.inReset = false → 3 ≤ s.batch.retries →
    let stopped : Batch := { s.batch with ackWait := false, pause := false, finalWait := false }
    let fails (x : State) : Prop :=
      (frameTaken s s.batch.port f 0x82 = true → frameBlock f = s.batch.current →
        s.batch.state ≠ .awaitFinal → Gives (.hoNak s.batch.port f) s x) ∧
      (s.batch.ackWait = true → Gives .ackWaitExpiry s x) ∧
      (s.batch.finalWait = true → Gives .finalWaitExpiry s x)
    (∀ k, s.batch.port = .primary → s.configuration.headOfficePort .backup = some k →
      fails (sendFrame
        (setBatch s { stopped with state := .awaitAck, port := .backup, retries := 0 })
        (some k) (headOfficeFrame s.batch.kind s.batch.current s.batch.buffer))) ∧
    (s.batch.port = .backup ∨ s.configuration.headOfficePort .backup = none →
      fails (raiseAlert
        (dayControlEntry
          (setDayState (setBatch s { stopped with state := .halted, cause := .link }) .suspended)
          { kind := 17, ref := s.batch.current }) .linkSuspended))

/-- A WAIT pauses the sender, and in AWAIT_FINAL restarts the FINAL wait (R186). -/
def Sys2Proof.Claims.WaitPausesTheSender : Prop :=
  ∀ (s : State) (f : List Byte), s.inReset = false → frameTaken s s.batch.port f 0x83 = true →
    frameBlock f = s.batch.current →
    (s.batch.state ≠ .awaitFinal → Gives (.hoWait s.batch.port f) s
      (setBatch s { s.batch with state := .paused, ackWait := false, pause := true })) ∧
    (s.batch.state = .awaitFinal → Gives (.hoWait s.batch.port f) s
      (setBatch s { s.batch with finalWait := true }))

/-- The end of the pause sends the block again and counts no retry (R186). -/
def Sys2Proof.Claims.EndedPauseResendsTheBlock : Prop :=
  ∀ (s : State) (k : Fin 6), s.inReset = false → s.batch.pause = true →
    s.configuration.headOfficePort s.batch.port = some k →
    Gives .waitPauseExpiry s
      (sendFrame
        (setBatch s { s.batch with
          state := .awaitAck, ackWait := false, pause := false, finalWait := false })
        (some k) (headOfficeFrame s.batch.kind s.batch.current s.batch.buffer))

/-- NAK, the waits' ends, failover and WAIT (R185 to R188). -/
def Obligations.FailedSendsRetryFailOverOrPause : Prop :=
  Claims.FailedSendIsRetried ∧ Claims.FourthFailureFailsOverOrSuspends ∧ Claims.WaitPausesTheSender ∧
    Claims.EndedPauseResendsTheBlock

/-- A FINAL ACCEPT with the plan's hash settles the day and hands over the carry-forward record; a FINAL REJECT,
or an ACCEPT with another hash, makes it REJECTED with its entry and BATCH_REJECTED (R174, R187). -/
def Sys2Proof.Claims.FinalSettlesOrRejects : Prop :=
  ∀ (s : State) (f : List Byte) (p : Plan), s.inReset = false →
    frameTaken s s.batch.port f 0x84 = true → s.batch.state = .awaitFinal → s.batch.plan = some p →
    let rejected (code : Nat) := raiseAlert
      (dayControlEntry
        (setDayState
          (setBatch s { s.batch with
            state := .halted, cause := .none, ackWait := false, pause := false, finalWait := false })
          .rejected)
        { kind := 18, code := code, amountA := signed64 (field f 7 8) }) .batchRejected
    (field f 6 1 = 1 → field f 7 8 = p.hash →
      ∃ t, exec (.hoFinal s.batch.port f) s = .next t ∧ t.day.state = .settled ∧
        t.batch.state = .finished ∧ t.totals = s.totals ∧
        (∃ w, t.day.settlement = some w ∧
          w.nextStart = (s.journal.start +
            (if 1 ≤ s.journal.free then s.journal.next else s.journal.next - 1)) % ringSize s ∧
          (s.day.openingCopy = some 1 → w.copy = 0) ∧ (s.day.openingCopy ≠ some 1 → w.copy = 1)) ∧
        journalWrites t.path = journalWrites s.path ++
          (recordGroups s .settlement (settlementCopy s) (composeRecord s.day.date (settlementStart s)
            (allCounts s.totals))).flatMap (·.writes)) ∧
    (field f 6 1 = 1 → field f 7 8 ≠ p.hash → Gives (.hoFinal s.batch.port f) s (rejected 2)) ∧
    (field f 6 1 = 2 → Gives (.hoFinal s.batch.port f) s (rejected 1))

/-- A FINAL in AWAIT_ACK or PAUSED is taken as the TRAILER's ACK and then judged as in AWAIT_FINAL; with another
block outstanding it is ignored (R187). -/
def Sys2Proof.Claims.EarlyFinalAcknowledgesTheTrailer : Prop :=
  ∀ (s : State) (f : List Byte) (p : Plan), s.inReset = false →
    frameTaken s s.batch.port f 0x84 = true → s.batch.state = .awaitAck ∨ s.batch.state = .paused →
    s.batch.plan = some p →
    let acked := setBatch s { s.batch with
      state := .awaitFinal, retries := 0, ackWait := false, pause := false, finalWait := true }
    (s.batch.current + 1 = p.blocks →
      exec (.hoFinal s.batch.port f) s =
        .next (conclude s (judgeFinal acked (field f 6 1) (field f 7 8)))) ∧
    (s.batch.current + 1 ≠ p.blocks → Gives (.hoFinal s.batch.port f) s s)

/-- With the 16 groups of the settlement write placed, the write is idle again and DAY_SETTLED is journaled (R174;
the row as its own step, log 12; that its room is judged here, not at the settling event, is DEDUCED, log 30). -/
def Sys2Proof.Claims.SettlementWriteEndsWithDaySettled : Prop :=
  ∀ (s : State) (w : Settlement), s.inReset = false → s.day.settlement = some w → w.placed = 16 →
    Gives .settlementWriteDone s
      (dayControlEntry { s with day := { s.day with settlement := none } }
        { kind := 19, amountA := s.day.date, account := w.nextStart, ref := w.copy.val })

/-- RESUME_BATCH in SUSPENDED goes on with the current block, RESEND_BATCH in SUSPENDED or REJECTED begins again
with block 0: the day SENDING, HO_PRIMARY, retry count 0, BATCH_STARTED journaled before the completion (the
model's choice of order, log 16); elsewhere both are REFUSED_STATE, detail 0 (log 56) (R189). -/
def Sys2Proof.Claims.BatchCommandsRestartTheBatch : Prop :=
  ∀ (s : State) (addr : Nat) (mask : ByteMask) (data : Dword),
    let t := commandTaken s addr mask data
    let restarted (u : State) (p : Plan) (n : Nat) := u.day.state = .sending ∧ u.batch.current = n ∧
      u.batch.port = .primary ∧ u.batch.retries = 0 ∧ u.batch.cause = .none ∧ u.batch.plan = some p ∧
      (u.batch.state = .awaitAck ∨ u.batch.state = .composing) ∧ u.totals = s.totals ∧
      journalWrites u.path = journalWrites (complete
        (dayControlEntry { t with day := { t.day with state := .sending } }
          { kind := 16, ref := p.blocks }) .done n).path
    (CommandGiven s addr mask data 10 →
      (∀ p, s.day.state = .suspended → s.batch.plan = some p →
        ∃ u, exec .resumeBatch s = .next u ∧ restarted u p s.batch.current) ∧
      (s.day.state ≠ .suspended → Gives .resumeBatch s (complete t .refusedState 0))) ∧
    (CommandGiven s addr mask data 11 →
      (∀ p, s.day.state = .suspended ∨ s.day.state = .rejected → s.batch.plan = some p →
        ∃ u, exec .resendBatch s = .next u ∧ restarted u p 0) ∧
      (s.day.state ≠ .suspended → s.day.state ≠ .rejected →
        Gives .resendBatch s (complete t .refusedState 0)))

/-- What RESUME_BATCH and RESEND_BATCH leave, the whole state of the part: the sender on HO_PRIMARY with its waits
ended and the block they name current. Its frame goes out, its reply awaited; for an ENTRY block the sender is
COMPOSING with its run asked for. Then BATCH_STARTED and the completion DONE with the block's number, in this order
(DESIGN CHOICE, log 16) (R119, R180, R181, R189). -/
def Sys2Proof.Claims.BatchCommandsSendTheirBlock : Prop :=
  ∀ (s : State) (addr : Nat) (mask : ByteMask) (data : Dword) (p : Plan) (n : Nat), s.batch.plan = some p →
    let t := commandTaken s addr mask data
    let next : Batch := { s.batch with
      port := .primary, current := n, retries := 0, cause := .none, ackWait := false, pause := false,
      finalWait := false }
    let sending (b : Batch) := setBatch { t with day := { t.day with state := .sending } } b
    let gives (c : Instr) : Prop :=
      (∀ kind bytes, blockContent s p n = .payload kind bytes →
        Gives c s (complete (dayControlEntry
          (sendFrame (sending { next with state := .awaitAck, kind := kind, buffer := bytes })
            (s.configuration.headOfficePort .primary) (headOfficeFrame kind n bytes))
          { kind := 16, ref := p.blocks }) .done n)) ∧
      (∀ a b, blockContent s p n = .entries a b →
        Gives c s (complete (dayControlEntry
          { sending { next with state := .composing, kind := 5, buffer := [] } with
            journal := { s.journal with
              runs := s.journal.runs ++
                [⟨.batch, a, some b, if a ≤ 1 then some 0xFFFFFFFF else none, journalUnitFree s⟩] } }
          { kind := 16, ref := p.blocks }) .done n))
    (CommandGiven s addr mask data 10 → s.day.state = .suspended → n = s.batch.current →
      gives .resumeBatch) ∧
    (CommandGiven s addr mask data 11 → s.day.state = .suspended ∨ s.day.state = .rejected → n = 0 →
      gives .resendBatch)

/-- FINAL, the end of the settlement write, RESUME_BATCH and RESEND_BATCH (R174, R181, R187, R189). -/
def Obligations.BatchSettlesOrRestarts : Prop :=
  Claims.FinalSettlesOrRejects ∧ Claims.EarlyFinalAcknowledgesTheTrailer ∧
    Claims.SettlementWriteEndsWithDaySettled ∧ Claims.BatchCommandsRestartTheBatch ∧
    Claims.BatchCommandsSendTheirBlock
end

