-- ==== Sys2Proof/Laws/Books.lean ====
section
/-! SUPPORT. What the shared operations of a step's end do: they leave the books and the journal-class
writes as they are. -/

namespace Sys2Proof.Machine

/-- The books with the journal-class writes: what a statement about a command speaks of. -/
def view (s : State) : State × List (Nat × Dword) := (books s, journalWrites s.path)

theorem foldl_keeps {α β γ : Type} (f : β → α → β) (g : β → γ) (h : ∀ b a, g (f b a) = g b)
    (l : List α) (b : β) : g (l.foldl f b) = g b := by
  induction l generalizing b with
  | nil => rfl
  | cons a l ih => rw [List.foldl_cons, ih, h]

/-! ### Mirror-class writes (R14) -/

/-- A mirror-class hand-over leaves the journal-class writes as they are. -/
theorem journalWrites_mirrorWrite (p : Path) (addr : Nat) (data : Dword) :
    journalWrites (mirrorWrite p addr data).1 = journalWrites p := by
  unfold mirrorWrite
  split
  · have h : ∀ q : List InjectEntry,
        ((q.map fun e => if e.cls == .mirror && e.addr == addr then { e with data := data }
            else e).filter fun e => e.cls == .journal).map (fun e => (e.addr, e.data)) =
          (q.filter fun e => e.cls == .journal).map fun e => (e.addr, e.data) := by
      intro q
      induction q with
      | nil => rfl
      | cons e q ih =>
        rcases e with ⟨a, d, c⟩
        cases c <;> by_cases ha : a = addr <;> simp_all
    simp only [journalWrites, h]
  · split <;> simp [journalWrites]

/-- A mirror-class hand-over changes the queue and the mode alone. -/
theorem mirrorWrite_path (p : Path) (addr : Nat) (data : Dword) :
    (mirrorWrite p addr data).1 =
      { p with queue := (mirrorWrite p addr data).1.queue, mode := (mirrorWrite p addr data).1.mode } := by
  unfold mirrorWrite
  split
  · rfl
  · split <;> rfl

/-! ### Vectors -/

theorem map_set_same {α β : Type} {n : Nat} (v : Vector α n) (i : Nat) (h : i < n) (x : α) (f : α → β)
    (hx : f x = f v[i]) : (v.set i x h).map f = v.map f := by
  ext j hj
  by_cases hij : i = j
  · subst hij; simp [hx]
  · simp [hij]

/-! ### Mirror and status rows (R136, R137, R199, R200) -/

theorem view_handMirrorDword (s : State) (k : Nat) : view (handMirrorDword s k) = view s := by
  unfold handMirrorDword
  split
  · rfl
  · dsimp only
    split
    · refine Prod.ext ?_ (journalWrites_mirrorWrite ..)
      simp only [view]
      rw [mirrorWrite_path]; rfl
    · rfl

theorem view_flushMirror (s : State) : view (flushMirror s) = view s := by
  unfold flushMirror
  split
  · rfl
  · exact foldl_keeps _ _ view_handMirrorDword _ _

theorem view_handRowDword (s : State) (p : Fin 16) (j : Nat) : view (handRowDword s p j) = view s := by
  unfold handRowDword
  dsimp only
  split
  · rfl
  · split
    · refine Prod.ext ?_ (journalWrites_mirrorWrite ..)
      simp only [view]
      rw [mirrorWrite_path]
      simp only [books, Fin.getElem_fin]
      congr 2
      exact map_set_same _ _ _ _ _ rfl
    · rfl

theorem view_flushRows (s : State) : view (flushRows s) = view s := by
  unfold flushRows
  split
  · rfl
  · refine foldl_keeps _ _ ?_ _ _
    intro s p
    split
    · rfl
    · exact foldl_keeps _ _ (fun s j => view_handRowDword s p j) _ _

theorem view_markMirror (s : State) (set : BitVec 1024) : view (markMirror s set) = view s := rfl

theorem withRow23_kept (d : BitVec 24) : (d ||| BitVec.twoPow 24 23) &&& 0x7FFFFF#24 = d &&& 0x7FFFFF#24 := by
  have h : BitVec.twoPow 24 23 &&& 0x7FFFFF#24 = 0 := by decide
  rw [BitVec.and_comm, BitVec.and_or_distrib_left, BitVec.and_comm _ (BitVec.twoPow 24 23), h]
  simp [BitVec.and_comm]

theorem keptPosition_recomposed (s : State) (p : Fin 16) :
    keptPosition (recomposed s p) = keptPosition s.screen.positions[p] := by
  unfold recomposed
  dsimp only
  split
  · split
    · rfl
    · simp [keptPosition, withRow23_kept]
  · split <;> rfl

theorem view_recomposeRows (s : State) : view (recomposeRows s) = view s := by
  refine Prod.ext ?_ rfl
  simp only [view, books, recomposeRows]
  congr 2
  ext1 j hj
  simpa using keptPosition_recomposed s ⟨j, hj⟩

/-! ### Fetches (R18) -/

theorem view_requestFetch (s : State) (client : FetchClient) (addr count : Nat) :
    view (requestFetch s client addr count) = view s := rfl

theorem view_withdrawFetch (s : State) (client : FetchClient) :
    view (withdrawFetch s client) = view s := rfl

theorem view_serveRuns (s : State) : view (serveRuns s) = view s := by
  unfold serveRuns
  split
  · rfl
  · split
    · rfl
    · dsimp only
      split <;> rfl

theorem view_clientTakes (s : State) (data : Dword) (client : FetchClient) :
    view (clientTakes s data client) = view s := by
  cases client with
  | posting =>
    simp only [clientTakes, postingTakes]
    split
    · rfl
    · rename_i r h
      split <;> (rw [← Prod.eta (view s)] ; refine Prod.ext ?_ rfl; simp [view, books, requestFetch, h])
  | journal =>
    simp only [clientTakes, journalTakes]
    split
    · rfl
    · split
      · rfl
      · rw [view_serveRuns]
        refine Prod.ext ?_ rfl
        simp only [view, books, updateRun]
        congr 2
        simp only [List.map_map]
        apply List.map_congr_left
        intro r _
        simp only [Function.comp]
        split <;> rfl
  | drop d =>
    refine Prod.ext ?_ rfl
    simp only [clientTakes, rowTakes, view, books, Fin.getElem_fin]
    congr 2
    exact map_set_same _ _ _ _ _ rfl
  | day =>
    simp only [clientTakes, dayTakes]
    repeat' split
    all_goals rfl
  | control =>
    simp only [clientTakes, controlTakes]
    split
    · rfl
    · rename_i w h
      split <;> (rw [← Prod.eta (view s)] ; refine Prod.ext ?_ rfl; simp [view, books, requestFetch, h])

theorem view_answerFetch (s : State) (data : Dword) : view (answerFetch s data) = view s := by
  unfold answerFetch
  split
  · rfl
  · dsimp only
    rename_i r rest h
    refine Eq.trans ?_ (view_clientTakes { s with path := { s.path with
      fetches := if r.left ≤ 1 then rest else { r with next := r.next + 8, left := r.left - 1 } :: rest,
      fetchWaits := false } } data r.client)
    rfl

theorem view_pumpFetches (n : Nat) (s : State) : view (pumpFetches n s) = view s := by
  induction n generalizing s with
  | zero => rfl
  | succ n ih =>
    unfold pumpFetches
    split
    · rfl
    · split
      · rfl
      · split
        · rw [ih, view_answerFetch]
        · rfl

/-- The end of a step leaves the books and the journal-class writes as the command left them. -/
theorem view_conclude (before after : State) : view (conclude before after) = view after := by
  simp only [conclude, view_flushRows, view_flushMirror, view_markMirror, view_recomposeRows,
    view_pumpFetches]

/-- A command of the running part gives what its body leaves. -/
theorem gives_of_running {c : Instr} {s x : State} {body : State → State} (hr : s.inReset = false)
    (hc : exec c s = running s body) (hx : view (body s) = view x) : Gives c s x := by
  refine ⟨conclude s (body s), ?_, ?_, ?_⟩
  · rw [hc, running, if_neg (by simp [hr])]
  · exact (congrArg Prod.fst (view_conclude s (body s))).trans (congrArg Prod.fst hx)
  · exact (congrArg Prod.snd (view_conclude s (body s))).trans (congrArg Prod.snd hx)

/-- What an operation leaves alone, it leaves alone after a step's end too. -/
theorem gives_conclude {c : Instr} {s x : State} {body : State → State} (hr : s.inReset = false)
    (hc : exec c s = running s body) (hx : body s = x) : Gives c s x :=
  gives_of_running hr hc (congrArg view hx)

/-! ### The fetch requests at a step's end -/

/-- The fetch requests and the Posting Unit: what a step's end leaves alone where nothing can be answered. -/
def asked (s : State) : List FetchRequest × Posting := (s.path.fetches, s.posting)

theorem asked_handMirrorDword (s : State) (k : Nat) : asked (handMirrorDword s k) = asked s := by
  unfold handMirrorDword
  split
  · rfl
  · dsimp only
    split
    · simp only [asked]; rw [mirrorWrite_path]
    · rfl

theorem asked_handRowDword (s : State) (p : Fin 16) (j : Nat) : asked (handRowDword s p j) = asked s := by
  unfold handRowDword
  dsimp only
  split
  · rfl
  · split
    · simp only [asked]; rw [mirrorWrite_path]
    · rfl

theorem asked_flushMirror (s : State) : asked (flushMirror s) = asked s := by
  unfold flushMirror
  split
  · rfl
  · exact foldl_keeps _ _ asked_handMirrorDword _ _

theorem asked_flushRows (s : State) : asked (flushRows s) = asked s := by
  unfold flushRows
  split
  · rfl
  · refine foldl_keeps _ _ (fun s p => ?_) _ _
    split
    · rfl
    · exact foldl_keeps _ _ (fun s j => asked_handRowDword s p j) _ _

theorem asked_markMirror (s : State) (set : BitVec 1024) : asked (markMirror s set) = asked s := rfl

theorem asked_recomposeRows (s : State) : asked (recomposeRows s) = asked s := rfl

/-- Where the doubleword to be fetched next has no entry pending, none is answered from the queue. -/
theorem asked_pumpFetches (n : Nat) (s : State)
    (h : ∀ r ∈ s.path.fetches.head?, newestEntry s.path.queue r.next = none) :
    asked (pumpFetches n s) = asked s := by
  cases n with
  | zero => rfl
  | succ n =>
    unfold pumpFetches
    split
    · rfl
    · split
      · rfl
      · rename_i r l hf
        rw [h r (by simp [hf])]
        rfl

/-- Where the doubleword to be fetched next has no entry pending, a step's end answers none. -/
theorem asked_conclude (before after : State)
    (h : ∀ r ∈ after.path.fetches.head?, newestEntry after.path.queue r.next = none) :
    asked (conclude before after) = asked after := by
  unfold conclude
  rw [asked_flushRows, asked_flushMirror, asked_markMirror, asked_recomposeRows, asked_pumpFetches _ _ h]

/-- A command of the running part gives what its body leaves, with its fetch requests. -/
theorem givesAsking_conclude {c : Instr} {s x : State} {body : State → State} (hr : s.inReset = false)
    (hc : exec c s = running s body) (hx : body s = x) : GivesAsking c s x := by
  subst hx
  refine ⟨conclude s (body s), ?_, congrArg Prod.fst (view_conclude s (body s)),
    congrArg Prod.snd (view_conclude s (body s)), fun h => ?_⟩
  · rw [hc, running, if_neg (by simp [hr])]
  · have := asked_conclude s (body s) h
    exact ⟨congrArg Prod.fst this, congrArg Prod.snd this⟩

end Sys2Proof.Machine
end

