-- ==== Sys2Proof/Laws/State.lean ====
section
/-! SUPPORT. The fields of a state after each named update: one lemma per field and update, so that no proof
unfolds a record update. -/

namespace Sys2Proof.Machine

/-! ### setDrawer -/

@[simp] theorem setDrawer_path (s : State) (h : Fin 17) (d : Drawer) :
    (setDrawer s h d).path = s.path := rfl
@[simp] theorem setDrawer_posting (s : State) (h : Fin 17) (d : Drawer) :
    (setDrawer s h d).posting = s.posting := rfl
@[simp] theorem setDrawer_totals (s : State) (h : Fin 17) (d : Drawer) :
    (setDrawer s h d).totals = s.totals := rfl
@[simp] theorem setDrawer_drawers (s : State) (h : Fin 17) (d : Drawer) :
    (setDrawer s h d).drawers = s.drawers.set h d := rfl
@[simp] theorem setDrawer_monitors (s : State) (h : Fin 17) (d : Drawer) :
    (setDrawer s h d).monitors = s.monitors := rfl
@[simp] theorem setDrawer_journal (s : State) (h : Fin 17) (d : Drawer) :
    (setDrawer s h d).journal = s.journal := rfl
@[simp] theorem setDrawer_screen (s : State) (h : Fin 17) (d : Drawer) :
    (setDrawer s h d).screen = s.screen := rfl
@[simp] theorem setDrawer_passbook (s : State) (h : Fin 17) (d : Drawer) :
    (setDrawer s h d).passbook = s.passbook := rfl
@[simp] theorem setDrawer_day (s : State) (h : Fin 17) (d : Drawer) :
    (setDrawer s h d).day = s.day := rfl
@[simp] theorem setDrawer_batch (s : State) (h : Fin 17) (d : Drawer) :
    (setDrawer s h d).batch = s.batch := rfl
@[simp] theorem setDrawer_control (s : State) (h : Fin 17) (d : Drawer) :
    (setDrawer s h d).control = s.control := rfl
@[simp] theorem setDrawer_lines (s : State) (h : Fin 17) (d : Drawer) :
    (setDrawer s h d).lines = s.lines := rfl
@[simp] theorem setDrawer_mem (s : State) (h : Fin 17) (d : Drawer) :
    (setDrawer s h d).mem = s.mem := rfl
@[simp] theorem setDrawer_inReset (s : State) (h : Fin 17) (d : Drawer) :
    (setDrawer s h d).inReset = s.inReset := rfl
@[simp] theorem setDrawer_pending (s : State) (h : Fin 17) (d : Drawer) :
    (setDrawer s h d).pending = s.pending := rfl

/-! ### setPosition -/

@[simp] theorem setPosition_path (s : State) (p : Fin 16) (q : Position) :
    (setPosition s p q).path = s.path := rfl
@[simp] theorem setPosition_posting (s : State) (p : Fin 16) (q : Position) :
    (setPosition s p q).posting = s.posting := rfl
@[simp] theorem setPosition_totals (s : State) (p : Fin 16) (q : Position) :
    (setPosition s p q).totals = s.totals := rfl
@[simp] theorem setPosition_drawers (s : State) (p : Fin 16) (q : Position) :
    (setPosition s p q).drawers = s.drawers := rfl
@[simp] theorem setPosition_monitors (s : State) (p : Fin 16) (q : Position) :
    (setPosition s p q).monitors = s.monitors := rfl
@[simp] theorem setPosition_journal (s : State) (p : Fin 16) (q : Position) :
    (setPosition s p q).journal = s.journal := rfl
@[simp] theorem setPosition_screen (s : State) (p : Fin 16) (q : Position) :
    (setPosition s p q).screen = { s.screen with positions := s.screen.positions.set p q } := rfl
@[simp] theorem setPosition_passbook (s : State) (p : Fin 16) (q : Position) :
    (setPosition s p q).passbook = s.passbook := rfl
@[simp] theorem setPosition_day (s : State) (p : Fin 16) (q : Position) :
    (setPosition s p q).day = s.day := rfl
@[simp] theorem setPosition_batch (s : State) (p : Fin 16) (q : Position) :
    (setPosition s p q).batch = s.batch := rfl
@[simp] theorem setPosition_control (s : State) (p : Fin 16) (q : Position) :
    (setPosition s p q).control = s.control := rfl
@[simp] theorem setPosition_lines (s : State) (p : Fin 16) (q : Position) :
    (setPosition s p q).lines = s.lines := rfl
@[simp] theorem setPosition_mem (s : State) (p : Fin 16) (q : Position) :
    (setPosition s p q).mem = s.mem := rfl
@[simp] theorem setPosition_inReset (s : State) (p : Fin 16) (q : Position) :
    (setPosition s p q).inReset = s.inReset := rfl
@[simp] theorem setPosition_pending (s : State) (p : Fin 16) (q : Position) :
    (setPosition s p q).pending = s.pending := rfl

/-! ### setController -/

@[simp] theorem setController_path (s : State) (d : Fin 2) (c : Controller) :
    (setController s d c).path = s.path := rfl
@[simp] theorem setController_posting (s : State) (d : Fin 2) (c : Controller) :
    (setController s d c).posting = s.posting := rfl
@[simp] theorem setController_totals (s : State) (d : Fin 2) (c : Controller) :
    (setController s d c).totals = s.totals := rfl
@[simp] theorem setController_drawers (s : State) (d : Fin 2) (c : Controller) :
    (setController s d c).drawers = s.drawers := rfl
@[simp] theorem setController_monitors (s : State) (d : Fin 2) (c : Controller) :
    (setController s d c).monitors = s.monitors := rfl
@[simp] theorem setController_journal (s : State) (d : Fin 2) (c : Controller) :
    (setController s d c).journal = s.journal := rfl
@[simp] theorem setController_screen (s : State) (d : Fin 2) (c : Controller) :
    (setController s d c).screen = { s.screen with controllers := s.screen.controllers.set d c } := rfl
@[simp] theorem setController_passbook (s : State) (d : Fin 2) (c : Controller) :
    (setController s d c).passbook = s.passbook := rfl
@[simp] theorem setController_day (s : State) (d : Fin 2) (c : Controller) :
    (setController s d c).day = s.day := rfl
@[simp] theorem setController_batch (s : State) (d : Fin 2) (c : Controller) :
    (setController s d c).batch = s.batch := rfl
@[simp] theorem setController_control (s : State) (d : Fin 2) (c : Controller) :
    (setController s d c).control = s.control := rfl
@[simp] theorem setController_lines (s : State) (d : Fin 2) (c : Controller) :
    (setController s d c).lines = s.lines := rfl
@[simp] theorem setController_mem (s : State) (d : Fin 2) (c : Controller) :
    (setController s d c).mem = s.mem := rfl
@[simp] theorem setController_inReset (s : State) (d : Fin 2) (c : Controller) :
    (setController s d c).inReset = s.inReset := rfl
@[simp] theorem setController_pending (s : State) (d : Fin 2) (c : Controller) :
    (setController s d c).pending = s.pending := rfl

/-! ### setPrinter -/

@[simp] theorem setPrinter_path (s : State) (k : Fin 4) (p : Printer) :
    (setPrinter s k p).path = s.path := rfl
@[simp] theorem setPrinter_posting (s : State) (k : Fin 4) (p : Printer) :
    (setPrinter s k p).posting = s.posting := rfl
@[simp] theorem setPrinter_totals (s : State) (k : Fin 4) (p : Printer) :
    (setPrinter s k p).totals = s.totals := rfl
@[simp] theorem setPrinter_drawers (s : State) (k : Fin 4) (p : Printer) :
    (setPrinter s k p).drawers = s.drawers := rfl
@[simp] theorem setPrinter_monitors (s : State) (k : Fin 4) (p : Printer) :
    (setPrinter s k p).monitors = s.monitors := rfl
@[simp] theorem setPrinter_journal (s : State) (k : Fin 4) (p : Printer) :
    (setPrinter s k p).journal = s.journal := rfl
@[simp] theorem setPrinter_screen (s : State) (k : Fin 4) (p : Printer) :
    (setPrinter s k p).screen = s.screen := rfl
@[simp] theorem setPrinter_passbook (s : State) (k : Fin 4) (p : Printer) :
    (setPrinter s k p).passbook = { s.passbook with printers := s.passbook.printers.set k p } := rfl
@[simp] theorem setPrinter_day (s : State) (k : Fin 4) (p : Printer) :
    (setPrinter s k p).day = s.day := rfl
@[simp] theorem setPrinter_batch (s : State) (k : Fin 4) (p : Printer) :
    (setPrinter s k p).batch = s.batch := rfl
@[simp] theorem setPrinter_control (s : State) (k : Fin 4) (p : Printer) :
    (setPrinter s k p).control = s.control := rfl
@[simp] theorem setPrinter_lines (s : State) (k : Fin 4) (p : Printer) :
    (setPrinter s k p).lines = s.lines := rfl
@[simp] theorem setPrinter_mem (s : State) (k : Fin 4) (p : Printer) :
    (setPrinter s k p).mem = s.mem := rfl
@[simp] theorem setPrinter_inReset (s : State) (k : Fin 4) (p : Printer) :
    (setPrinter s k p).inReset = s.inReset := rfl
@[simp] theorem setPrinter_pending (s : State) (k : Fin 4) (p : Printer) :
    (setPrinter s k p).pending = s.pending := rfl

/-! ### setItems -/

@[simp] theorem setItems_path (s : State) (items : List Item) :
    (setItems s items).path = s.path := rfl
@[simp] theorem setItems_posting (s : State) (items : List Item) :
    (setItems s items).posting = s.posting := rfl
@[simp] theorem setItems_totals (s : State) (items : List Item) :
    (setItems s items).totals = s.totals := rfl
@[simp] theorem setItems_drawers (s : State) (items : List Item) :
    (setItems s items).drawers = s.drawers := rfl
@[simp] theorem setItems_monitors (s : State) (items : List Item) :
    (setItems s items).monitors = s.monitors := rfl
@[simp] theorem setItems_journal (s : State) (items : List Item) :
    (setItems s items).journal = s.journal := rfl
@[simp] theorem setItems_screen (s : State) (items : List Item) :
    (setItems s items).screen = s.screen := rfl
@[simp] theorem setItems_passbook (s : State) (items : List Item) :
    (setItems s items).passbook = { s.passbook with items := items } := rfl
@[simp] theorem setItems_day (s : State) (items : List Item) :
    (setItems s items).day = s.day := rfl
@[simp] theorem setItems_batch (s : State) (items : List Item) :
    (setItems s items).batch = s.batch := rfl
@[simp] theorem setItems_control (s : State) (items : List Item) :
    (setItems s items).control = s.control := rfl
@[simp] theorem setItems_lines (s : State) (items : List Item) :
    (setItems s items).lines = s.lines := rfl
@[simp] theorem setItems_mem (s : State) (items : List Item) :
    (setItems s items).mem = s.mem := rfl
@[simp] theorem setItems_inReset (s : State) (items : List Item) :
    (setItems s items).inReset = s.inReset := rfl
@[simp] theorem setItems_pending (s : State) (items : List Item) :
    (setItems s items).pending = s.pending := rfl

/-! ### setBatch -/

@[simp] theorem setBatch_path (s : State) (b : Batch) :
    (setBatch s b).path = s.path := rfl
@[simp] theorem setBatch_posting (s : State) (b : Batch) :
    (setBatch s b).posting = s.posting := rfl
@[simp] theorem setBatch_totals (s : State) (b : Batch) :
    (setBatch s b).totals = s.totals := rfl
@[simp] theorem setBatch_drawers (s : State) (b : Batch) :
    (setBatch s b).drawers = s.drawers := rfl
@[simp] theorem setBatch_monitors (s : State) (b : Batch) :
    (setBatch s b).monitors = s.monitors := rfl
@[simp] theorem setBatch_journal (s : State) (b : Batch) :
    (setBatch s b).journal = s.journal := rfl
@[simp] theorem setBatch_screen (s : State) (b : Batch) :
    (setBatch s b).screen = s.screen := rfl
@[simp] theorem setBatch_passbook (s : State) (b : Batch) :
    (setBatch s b).passbook = s.passbook := rfl
@[simp] theorem setBatch_day (s : State) (b : Batch) :
    (setBatch s b).day = s.day := rfl
@[simp] theorem setBatch_batch (s : State) (b : Batch) :
    (setBatch s b).batch = b := rfl
@[simp] theorem setBatch_control (s : State) (b : Batch) :
    (setBatch s b).control = s.control := rfl
@[simp] theorem setBatch_lines (s : State) (b : Batch) :
    (setBatch s b).lines = s.lines := rfl
@[simp] theorem setBatch_mem (s : State) (b : Batch) :
    (setBatch s b).mem = s.mem := rfl
@[simp] theorem setBatch_inReset (s : State) (b : Batch) :
    (setBatch s b).inReset = s.inReset := rfl
@[simp] theorem setBatch_pending (s : State) (b : Batch) :
    (setBatch s b).pending = s.pending := rfl

/-! ### setDayState -/

@[simp] theorem setDayState_path (s : State) (d : DayState) :
    (setDayState s d).path = s.path := rfl
@[simp] theorem setDayState_posting (s : State) (d : DayState) :
    (setDayState s d).posting = s.posting := rfl
@[simp] theorem setDayState_totals (s : State) (d : DayState) :
    (setDayState s d).totals = s.totals := rfl
@[simp] theorem setDayState_drawers (s : State) (d : DayState) :
    (setDayState s d).drawers = s.drawers := rfl
@[simp] theorem setDayState_monitors (s : State) (d : DayState) :
    (setDayState s d).monitors = s.monitors := rfl
@[simp] theorem setDayState_journal (s : State) (d : DayState) :
    (setDayState s d).journal = s.journal := rfl
@[simp] theorem setDayState_screen (s : State) (d : DayState) :
    (setDayState s d).screen = s.screen := rfl
@[simp] theorem setDayState_passbook (s : State) (d : DayState) :
    (setDayState s d).passbook = s.passbook := rfl
@[simp] theorem setDayState_day (s : State) (d : DayState) :
    (setDayState s d).day = { s.day with state := d } := rfl
@[simp] theorem setDayState_batch (s : State) (d : DayState) :
    (setDayState s d).batch = s.batch := rfl
@[simp] theorem setDayState_control (s : State) (d : DayState) :
    (setDayState s d).control = s.control := rfl
@[simp] theorem setDayState_lines (s : State) (d : DayState) :
    (setDayState s d).lines = s.lines := rfl
@[simp] theorem setDayState_mem (s : State) (d : DayState) :
    (setDayState s d).mem = s.mem := rfl
@[simp] theorem setDayState_inReset (s : State) (d : DayState) :
    (setDayState s d).inReset = s.inReset := rfl
@[simp] theorem setDayState_pending (s : State) (d : DayState) :
    (setDayState s d).pending = s.pending := rfl

/-! ### setReplay -/

@[simp] theorem setReplay_path (s : State) (r : Replay) :
    (setReplay s r).path = s.path := rfl
@[simp] theorem setReplay_posting (s : State) (r : Replay) :
    (setReplay s r).posting = s.posting := rfl
@[simp] theorem setReplay_totals (s : State) (r : Replay) :
    (setReplay s r).totals = s.totals := rfl
@[simp] theorem setReplay_drawers (s : State) (r : Replay) :
    (setReplay s r).drawers = s.drawers := rfl
@[simp] theorem setReplay_monitors (s : State) (r : Replay) :
    (setReplay s r).monitors = s.monitors := rfl
@[simp] theorem setReplay_journal (s : State) (r : Replay) :
    (setReplay s r).journal = s.journal := rfl
@[simp] theorem setReplay_screen (s : State) (r : Replay) :
    (setReplay s r).screen = s.screen := rfl
@[simp] theorem setReplay_passbook (s : State) (r : Replay) :
    (setReplay s r).passbook = s.passbook := rfl
@[simp] theorem setReplay_day (s : State) (r : Replay) :
    (setReplay s r).day = { s.day with replay := r } := rfl
@[simp] theorem setReplay_batch (s : State) (r : Replay) :
    (setReplay s r).batch = s.batch := rfl
@[simp] theorem setReplay_control (s : State) (r : Replay) :
    (setReplay s r).control = s.control := rfl
@[simp] theorem setReplay_lines (s : State) (r : Replay) :
    (setReplay s r).lines = s.lines := rfl
@[simp] theorem setReplay_mem (s : State) (r : Replay) :
    (setReplay s r).mem = s.mem := rfl
@[simp] theorem setReplay_inReset (s : State) (r : Replay) :
    (setReplay s r).inReset = s.inReset := rfl
@[simp] theorem setReplay_pending (s : State) (r : Replay) :
    (setReplay s r).pending = s.pending := rfl

/-! ### raiseAlert -/

@[simp] theorem raiseAlert_path (s : State) (a : Alert) :
    (raiseAlert s a).path = s.path := rfl
@[simp] theorem raiseAlert_posting (s : State) (a : Alert) :
    (raiseAlert s a).posting = s.posting := rfl
@[simp] theorem raiseAlert_totals (s : State) (a : Alert) :
    (raiseAlert s a).totals = s.totals := rfl
@[simp] theorem raiseAlert_drawers (s : State) (a : Alert) :
    (raiseAlert s a).drawers = s.drawers := rfl
@[simp] theorem raiseAlert_monitors (s : State) (a : Alert) :
    (raiseAlert s a).monitors = s.monitors := rfl
@[simp] theorem raiseAlert_journal (s : State) (a : Alert) :
    (raiseAlert s a).journal = s.journal := rfl
@[simp] theorem raiseAlert_screen (s : State) (a : Alert) :
    (raiseAlert s a).screen = s.screen := rfl
@[simp] theorem raiseAlert_passbook (s : State) (a : Alert) :
    (raiseAlert s a).passbook = s.passbook := rfl
@[simp] theorem raiseAlert_day (s : State) (a : Alert) :
    (raiseAlert s a).day = s.day := rfl
@[simp] theorem raiseAlert_batch (s : State) (a : Alert) :
    (raiseAlert s a).batch = s.batch := rfl
@[simp] theorem raiseAlert_control (s : State) (a : Alert) :
    (raiseAlert s a).control = { s.control with alerts := addAlert s.control.alerts a } := rfl
@[simp] theorem raiseAlert_lines (s : State) (a : Alert) :
    (raiseAlert s a).lines = s.lines := rfl
@[simp] theorem raiseAlert_mem (s : State) (a : Alert) :
    (raiseAlert s a).mem = s.mem := rfl
@[simp] theorem raiseAlert_inReset (s : State) (a : Alert) :
    (raiseAlert s a).inReset = s.inReset := rfl
@[simp] theorem raiseAlert_pending (s : State) (a : Alert) :
    (raiseAlert s a).pending = s.pending := rfl

/-! ### sendFrame -/

@[simp] theorem sendFrame_path (s : State) (port : Option (Fin 6)) (frame : List Byte) :
    (sendFrame s port frame).path = s.path := rfl
@[simp] theorem sendFrame_posting (s : State) (port : Option (Fin 6)) (frame : List Byte) :
    (sendFrame s port frame).posting = s.posting := rfl
@[simp] theorem sendFrame_totals (s : State) (port : Option (Fin 6)) (frame : List Byte) :
    (sendFrame s port frame).totals = s.totals := rfl
@[simp] theorem sendFrame_drawers (s : State) (port : Option (Fin 6)) (frame : List Byte) :
    (sendFrame s port frame).drawers = s.drawers := rfl
@[simp] theorem sendFrame_monitors (s : State) (port : Option (Fin 6)) (frame : List Byte) :
    (sendFrame s port frame).monitors = s.monitors := rfl
@[simp] theorem sendFrame_journal (s : State) (port : Option (Fin 6)) (frame : List Byte) :
    (sendFrame s port frame).journal = s.journal := rfl
@[simp] theorem sendFrame_screen (s : State) (port : Option (Fin 6)) (frame : List Byte) :
    (sendFrame s port frame).screen = s.screen := rfl
@[simp] theorem sendFrame_passbook (s : State) (port : Option (Fin 6)) (frame : List Byte) :
    (sendFrame s port frame).passbook = s.passbook := rfl
@[simp] theorem sendFrame_day (s : State) (port : Option (Fin 6)) (frame : List Byte) :
    (sendFrame s port frame).day = s.day := rfl
@[simp] theorem sendFrame_batch (s : State) (port : Option (Fin 6)) (frame : List Byte) :
    (sendFrame s port frame).batch = s.batch := rfl
@[simp] theorem sendFrame_control (s : State) (port : Option (Fin 6)) (frame : List Byte) :
    (sendFrame s port frame).control = s.control := rfl
@[simp] theorem sendFrame_mem (s : State) (port : Option (Fin 6)) (frame : List Byte) :
    (sendFrame s port frame).mem = s.mem := rfl
@[simp] theorem sendFrame_inReset (s : State) (port : Option (Fin 6)) (frame : List Byte) :
    (sendFrame s port frame).inReset = s.inReset := rfl
@[simp] theorem sendFrame_pending (s : State) (port : Option (Fin 6)) (frame : List Byte) :
    (sendFrame s port frame).pending = s.pending := rfl

/-! ### clearLine -/

@[simp] theorem clearLine_path (s : State) (port : Option (Fin 6)) :
    (clearLine s port).path = s.path := rfl
@[simp] theorem clearLine_posting (s : State) (port : Option (Fin 6)) :
    (clearLine s port).posting = s.posting := rfl
@[simp] theorem clearLine_totals (s : State) (port : Option (Fin 6)) :
    (clearLine s port).totals = s.totals := rfl
@[simp] theorem clearLine_drawers (s : State) (port : Option (Fin 6)) :
    (clearLine s port).drawers = s.drawers := rfl
@[simp] theorem clearLine_monitors (s : State) (port : Option (Fin 6)) :
    (clearLine s port).monitors = s.monitors := rfl
@[simp] theorem clearLine_journal (s : State) (port : Option (Fin 6)) :
    (clearLine s port).journal = s.journal := rfl
@[simp] theorem clearLine_screen (s : State) (port : Option (Fin 6)) :
    (clearLine s port).screen = s.screen := rfl
@[simp] theorem clearLine_passbook (s : State) (port : Option (Fin 6)) :
    (clearLine s port).passbook = s.passbook := rfl
@[simp] theorem clearLine_day (s : State) (port : Option (Fin 6)) :
    (clearLine s port).day = s.day := rfl
@[simp] theorem clearLine_batch (s : State) (port : Option (Fin 6)) :
    (clearLine s port).batch = s.batch := rfl
@[simp] theorem clearLine_control (s : State) (port : Option (Fin 6)) :
    (clearLine s port).control = s.control := rfl
@[simp] theorem clearLine_mem (s : State) (port : Option (Fin 6)) :
    (clearLine s port).mem = s.mem := rfl
@[simp] theorem clearLine_inReset (s : State) (port : Option (Fin 6)) :
    (clearLine s port).inReset = s.inReset := rfl
@[simp] theorem clearLine_pending (s : State) (port : Option (Fin 6)) :
    (clearLine s port).pending = s.pending := rfl

/-! ### frameSent -/

@[simp] theorem frameSent_path (s : State) (k : Fin 6) :
    (frameSent s k).path = s.path := rfl
@[simp] theorem frameSent_posting (s : State) (k : Fin 6) :
    (frameSent s k).posting = s.posting := rfl
@[simp] theorem frameSent_totals (s : State) (k : Fin 6) :
    (frameSent s k).totals = s.totals := rfl
@[simp] theorem frameSent_drawers (s : State) (k : Fin 6) :
    (frameSent s k).drawers = s.drawers := rfl
@[simp] theorem frameSent_monitors (s : State) (k : Fin 6) :
    (frameSent s k).monitors = s.monitors := rfl
@[simp] theorem frameSent_journal (s : State) (k : Fin 6) :
    (frameSent s k).journal = s.journal := rfl
@[simp] theorem frameSent_screen (s : State) (k : Fin 6) :
    (frameSent s k).screen = s.screen := rfl
@[simp] theorem frameSent_passbook (s : State) (k : Fin 6) :
    (frameSent s k).passbook = s.passbook := rfl
@[simp] theorem frameSent_day (s : State) (k : Fin 6) :
    (frameSent s k).day = s.day := rfl
@[simp] theorem frameSent_batch (s : State) (k : Fin 6) :
    (frameSent s k).batch = s.batch := rfl
@[simp] theorem frameSent_control (s : State) (k : Fin 6) :
    (frameSent s k).control = s.control := rfl
@[simp] theorem frameSent_lines (s : State) (k : Fin 6) :
    (frameSent s k).lines = s.lines.set k s.lines[k].tail := rfl
@[simp] theorem frameSent_mem (s : State) (k : Fin 6) :
    (frameSent s k).mem = s.mem := rfl
@[simp] theorem frameSent_inReset (s : State) (k : Fin 6) :
    (frameSent s k).inReset = s.inReset := rfl
@[simp] theorem frameSent_pending (s : State) (k : Fin 6) :
    (frameSent s k).pending = s.pending := rfl

/-! ### requestFetch -/

@[simp] theorem requestFetch_posting (s : State) (client : FetchClient) (addr count : Nat) :
    (requestFetch s client addr count).posting = s.posting := rfl
@[simp] theorem requestFetch_totals (s : State) (client : FetchClient) (addr count : Nat) :
    (requestFetch s client addr count).totals = s.totals := rfl
@[simp] theorem requestFetch_drawers (s : State) (client : FetchClient) (addr count : Nat) :
    (requestFetch s client addr count).drawers = s.drawers := rfl
@[simp] theorem requestFetch_monitors (s : State) (client : FetchClient) (addr count : Nat) :
    (requestFetch s client addr count).monitors = s.monitors := rfl
@[simp] theorem requestFetch_journal (s : State) (client : FetchClient) (addr count : Nat) :
    (requestFetch s client addr count).journal = s.journal := rfl
@[simp] theorem requestFetch_screen (s : State) (client : FetchClient) (addr count : Nat) :
    (requestFetch s client addr count).screen = s.screen := rfl
@[simp] theorem requestFetch_passbook (s : State) (client : FetchClient) (addr count : Nat) :
    (requestFetch s client addr count).passbook = s.passbook := rfl
@[simp] theorem requestFetch_day (s : State) (client : FetchClient) (addr count : Nat) :
    (requestFetch s client addr count).day = s.day := rfl
@[simp] theorem requestFetch_batch (s : State) (client : FetchClient) (addr count : Nat) :
    (requestFetch s client addr count).batch = s.batch := rfl
@[simp] theorem requestFetch_control (s : State) (client : FetchClient) (addr count : Nat) :
    (requestFetch s client addr count).control = s.control := rfl
@[simp] theorem requestFetch_lines (s : State) (client : FetchClient) (addr count : Nat) :
    (requestFetch s client addr count).lines = s.lines := rfl
@[simp] theorem requestFetch_mem (s : State) (client : FetchClient) (addr count : Nat) :
    (requestFetch s client addr count).mem = s.mem := rfl
@[simp] theorem requestFetch_inReset (s : State) (client : FetchClient) (addr count : Nat) :
    (requestFetch s client addr count).inReset = s.inReset := rfl
@[simp] theorem requestFetch_pending (s : State) (client : FetchClient) (addr count : Nat) :
    (requestFetch s client addr count).pending = s.pending := rfl

/-! ### withdrawFetch -/

@[simp] theorem withdrawFetch_posting (s : State) (client : FetchClient) :
    (withdrawFetch s client).posting = s.posting := rfl
@[simp] theorem withdrawFetch_totals (s : State) (client : FetchClient) :
    (withdrawFetch s client).totals = s.totals := rfl
@[simp] theorem withdrawFetch_drawers (s : State) (client : FetchClient) :
    (withdrawFetch s client).drawers = s.drawers := rfl
@[simp] theorem withdrawFetch_monitors (s : State) (client : FetchClient) :
    (withdrawFetch s client).monitors = s.monitors := rfl
@[simp] theorem withdrawFetch_journal (s : State) (client : FetchClient) :
    (withdrawFetch s client).journal = s.journal := rfl
@[simp] theorem withdrawFetch_screen (s : State) (client : FetchClient) :
    (withdrawFetch s client).screen = s.screen := rfl
@[simp] theorem withdrawFetch_passbook (s : State) (client : FetchClient) :
    (withdrawFetch s client).passbook = s.passbook := rfl
@[simp] theorem withdrawFetch_day (s : State) (client : FetchClient) :
    (withdrawFetch s client).day = s.day := rfl
@[simp] theorem withdrawFetch_batch (s : State) (client : FetchClient) :
    (withdrawFetch s client).batch = s.batch := rfl
@[simp] theorem withdrawFetch_control (s : State) (client : FetchClient) :
    (withdrawFetch s client).control = s.control := rfl
@[simp] theorem withdrawFetch_lines (s : State) (client : FetchClient) :
    (withdrawFetch s client).lines = s.lines := rfl
@[simp] theorem withdrawFetch_mem (s : State) (client : FetchClient) :
    (withdrawFetch s client).mem = s.mem := rfl
@[simp] theorem withdrawFetch_inReset (s : State) (client : FetchClient) :
    (withdrawFetch s client).inReset = s.inReset := rfl
@[simp] theorem withdrawFetch_pending (s : State) (client : FetchClient) :
    (withdrawFetch s client).pending = s.pending := rfl

end Sys2Proof.Machine
end

