-- ==== Sys2Proof/Laws/Ops.lean ====
section
/-! SUPPORT. What the shared operations of entries and groups do, once for every row that calls them (R13,
R106 to R118, R193), what the books take in (R56, R69, R74), and the length of the DAY TOTALS block (R180). -/

namespace Sys2Proof.Machine

/-- A group handed over joins the journal-class writes at their end, placed or waiting (R13). -/
theorem journalWrites_handGroup (s : State) (g : Group) :
    journalWrites (handGroup s g).path = journalWrites s.path ++ g.writes := by
  have hj : ∀ w : List (Nat × Dword),
      ((groupEntries w).filter fun e => e.cls == .journal).map (fun e => (e.addr, e.data)) = w := by
    intro w
    induction w with
    | nil => rfl
    | cons a w ih => simp_all [groupEntries]
  unfold handGroup
  dsimp only
  split
  · rename_i hf
    simp only [groupFits, Bool.and_eq_true, List.isEmpty_iff] at hf
    simp [journalWrites, placeWrites, hj, hf.1]
  · simp [journalWrites, List.append_assoc]

/-- Groups handed over join the journal-class writes in their order (R13). -/
theorem journalWrites_handGroups (s : State) (gs : List Group) :
    journalWrites (handGroups s gs).path = journalWrites s.path ++ gs.flatMap (·.writes) := by
  unfold handGroups
  induction gs generalizing s with
  | nil => simp
  | cons g gs ih => rw [List.foldl_cons, ih, journalWrites_handGroup]; simp [List.append_assoc]

/-- A completion joins the journal-class writes (R193). -/
theorem journalWrites_complete (s : State) (status : Status) (detail : Nat) :
    journalWrites (complete s status detail).path = journalWrites s.path ++
      [(windowBase s 0 + 0x1838,
        completionDword ((s.control.taken.map (·.tag)).getD 0) status detail)] :=
  journalWrites_handGroup _ _

/-- A numbered entry's eight doublewords join the journal-class writes (R110). -/
theorem journalWrites_writeEntry (s : State) (f : EntryFields) (lowers : Bool) :
    journalWrites (writeEntry s f lowers).path = journalWrites s.path ++
      entryWrites s (entryContent s.journal.next s.day.clock f) :=
  journalWrites_handGroup _ _

/-- An event entry is dropped, written or skipped, by the day state and the free count (R115). -/
theorem eventEntry_cases (s : State) (f : EntryFields) :
    eventEntry s f =
      if s.journal.present && s.day.state.journals then
        if 8 < s.journal.free then writeEntry s f true else raiseAlert s .journalFull
      else s := by
  unfold eventEntry
  cases s.journal.present <;> cases s.day.state.journals <;> rfl

/-! ### handGroup -/

@[simp] theorem handGroup_posting (s : State) (g : Group) :
    (handGroup s g).posting = s.posting := rfl
@[simp] theorem handGroup_totals (s : State) (g : Group) :
    (handGroup s g).totals = s.totals := rfl
@[simp] theorem handGroup_drawers (s : State) (g : Group) :
    (handGroup s g).drawers = s.drawers := rfl
@[simp] theorem handGroup_monitors (s : State) (g : Group) :
    (handGroup s g).monitors = s.monitors := rfl
@[simp] theorem handGroup_journal (s : State) (g : Group) :
    (handGroup s g).journal = s.journal := rfl
@[simp] theorem handGroup_screen (s : State) (g : Group) :
    (handGroup s g).screen = s.screen := rfl
@[simp] theorem handGroup_passbook (s : State) (g : Group) :
    (handGroup s g).passbook = s.passbook := rfl
@[simp] theorem handGroup_batch (s : State) (g : Group) :
    (handGroup s g).batch = s.batch := rfl
@[simp] theorem handGroup_lines (s : State) (g : Group) :
    (handGroup s g).lines = s.lines := rfl
@[simp] theorem handGroup_mem (s : State) (g : Group) :
    (handGroup s g).mem = s.mem := rfl
@[simp] theorem handGroup_inReset (s : State) (g : Group) :
    (handGroup s g).inReset = s.inReset := rfl
@[simp] theorem handGroup_pending (s : State) (g : Group) :
    (handGroup s g).pending = s.pending := rfl

/-! ### raiseAlertIf -/

@[simp] theorem raiseAlertIf_path (s : State) (cond : Bool) (a : Alert) :
    (raiseAlertIf s cond a).path = s.path := rfl
@[simp] theorem raiseAlertIf_posting (s : State) (cond : Bool) (a : Alert) :
    (raiseAlertIf s cond a).posting = s.posting := rfl
@[simp] theorem raiseAlertIf_totals (s : State) (cond : Bool) (a : Alert) :
    (raiseAlertIf s cond a).totals = s.totals := rfl
@[simp] theorem raiseAlertIf_drawers (s : State) (cond : Bool) (a : Alert) :
    (raiseAlertIf s cond a).drawers = s.drawers := rfl
@[simp] theorem raiseAlertIf_monitors (s : State) (cond : Bool) (a : Alert) :
    (raiseAlertIf s cond a).monitors = s.monitors := rfl
@[simp] theorem raiseAlertIf_journal (s : State) (cond : Bool) (a : Alert) :
    (raiseAlertIf s cond a).journal = s.journal := rfl
@[simp] theorem raiseAlertIf_screen (s : State) (cond : Bool) (a : Alert) :
    (raiseAlertIf s cond a).screen = s.screen := rfl
@[simp] theorem raiseAlertIf_passbook (s : State) (cond : Bool) (a : Alert) :
    (raiseAlertIf s cond a).passbook = s.passbook := rfl
@[simp] theorem raiseAlertIf_day (s : State) (cond : Bool) (a : Alert) :
    (raiseAlertIf s cond a).day = s.day := rfl
@[simp] theorem raiseAlertIf_batch (s : State) (cond : Bool) (a : Alert) :
    (raiseAlertIf s cond a).batch = s.batch := rfl
@[simp] theorem raiseAlertIf_lines (s : State) (cond : Bool) (a : Alert) :
    (raiseAlertIf s cond a).lines = s.lines := rfl
@[simp] theorem raiseAlertIf_mem (s : State) (cond : Bool) (a : Alert) :
    (raiseAlertIf s cond a).mem = s.mem := rfl
@[simp] theorem raiseAlertIf_inReset (s : State) (cond : Bool) (a : Alert) :
    (raiseAlertIf s cond a).inReset = s.inReset := rfl
@[simp] theorem raiseAlertIf_pending (s : State) (cond : Bool) (a : Alert) :
    (raiseAlertIf s cond a).pending = s.pending := rfl

/-! ### numberEntry -/

@[simp] theorem numberEntry_path (s : State) (content : List Byte) (lowers : Bool) :
    (numberEntry s content lowers).path = s.path := rfl
@[simp] theorem numberEntry_posting (s : State) (content : List Byte) (lowers : Bool) :
    (numberEntry s content lowers).posting = s.posting := rfl
@[simp] theorem numberEntry_totals (s : State) (content : List Byte) (lowers : Bool) :
    (numberEntry s content lowers).totals = s.totals := rfl
@[simp] theorem numberEntry_drawers (s : State) (content : List Byte) (lowers : Bool) :
    (numberEntry s content lowers).drawers = s.drawers := rfl
@[simp] theorem numberEntry_monitors (s : State) (content : List Byte) (lowers : Bool) :
    (numberEntry s content lowers).monitors = s.monitors := rfl
@[simp] theorem numberEntry_screen (s : State) (content : List Byte) (lowers : Bool) :
    (numberEntry s content lowers).screen = s.screen := rfl
@[simp] theorem numberEntry_passbook (s : State) (content : List Byte) (lowers : Bool) :
    (numberEntry s content lowers).passbook = s.passbook := rfl
@[simp] theorem numberEntry_day (s : State) (content : List Byte) (lowers : Bool) :
    (numberEntry s content lowers).day = s.day := rfl
@[simp] theorem numberEntry_batch (s : State) (content : List Byte) (lowers : Bool) :
    (numberEntry s content lowers).batch = s.batch := rfl
@[simp] theorem numberEntry_lines (s : State) (content : List Byte) (lowers : Bool) :
    (numberEntry s content lowers).lines = s.lines := rfl
@[simp] theorem numberEntry_mem (s : State) (content : List Byte) (lowers : Bool) :
    (numberEntry s content lowers).mem = s.mem := rfl
@[simp] theorem numberEntry_inReset (s : State) (content : List Byte) (lowers : Bool) :
    (numberEntry s content lowers).inReset = s.inReset := rfl
@[simp] theorem numberEntry_pending (s : State) (content : List Byte) (lowers : Bool) :
    (numberEntry s content lowers).pending = s.pending := rfl

/-! ### writeEntry -/

@[simp] theorem writeEntry_posting (s : State) (f : EntryFields) (lowers : Bool) :
    (writeEntry s f lowers).posting = s.posting := rfl
@[simp] theorem writeEntry_totals (s : State) (f : EntryFields) (lowers : Bool) :
    (writeEntry s f lowers).totals = s.totals := rfl
@[simp] theorem writeEntry_drawers (s : State) (f : EntryFields) (lowers : Bool) :
    (writeEntry s f lowers).drawers = s.drawers := rfl
@[simp] theorem writeEntry_monitors (s : State) (f : EntryFields) (lowers : Bool) :
    (writeEntry s f lowers).monitors = s.monitors := rfl
@[simp] theorem writeEntry_screen (s : State) (f : EntryFields) (lowers : Bool) :
    (writeEntry s f lowers).screen = s.screen := rfl
@[simp] theorem writeEntry_passbook (s : State) (f : EntryFields) (lowers : Bool) :
    (writeEntry s f lowers).passbook = s.passbook := rfl
@[simp] theorem writeEntry_batch (s : State) (f : EntryFields) (lowers : Bool) :
    (writeEntry s f lowers).batch = s.batch := rfl
@[simp] theorem writeEntry_lines (s : State) (f : EntryFields) (lowers : Bool) :
    (writeEntry s f lowers).lines = s.lines := rfl
@[simp] theorem writeEntry_mem (s : State) (f : EntryFields) (lowers : Bool) :
    (writeEntry s f lowers).mem = s.mem := rfl
@[simp] theorem writeEntry_inReset (s : State) (f : EntryFields) (lowers : Bool) :
    (writeEntry s f lowers).inReset = s.inReset := rfl
@[simp] theorem writeEntry_pending (s : State) (f : EntryFields) (lowers : Bool) :
    (writeEntry s f lowers).pending = s.pending := rfl

/-! ### eventEntry -/

@[simp] theorem eventEntry_posting (s : State) (f : EntryFields) :
    (eventEntry s f).posting = s.posting := by
  unfold eventEntry; repeat' split
  all_goals rfl
@[simp] theorem eventEntry_totals (s : State) (f : EntryFields) :
    (eventEntry s f).totals = s.totals := by
  unfold eventEntry; repeat' split
  all_goals rfl
@[simp] theorem eventEntry_drawers (s : State) (f : EntryFields) :
    (eventEntry s f).drawers = s.drawers := by
  unfold eventEntry; repeat' split
  all_goals rfl
@[simp] theorem eventEntry_monitors (s : State) (f : EntryFields) :
    (eventEntry s f).monitors = s.monitors := by
  unfold eventEntry; repeat' split
  all_goals rfl
@[simp] theorem eventEntry_screen (s : State) (f : EntryFields) :
    (eventEntry s f).screen = s.screen := by
  unfold eventEntry; repeat' split
  all_goals rfl
@[simp] theorem eventEntry_passbook (s : State) (f : EntryFields) :
    (eventEntry s f).passbook = s.passbook := by
  unfold eventEntry; repeat' split
  all_goals rfl
@[simp] theorem eventEntry_batch (s : State) (f : EntryFields) :
    (eventEntry s f).batch = s.batch := by
  unfold eventEntry; repeat' split
  all_goals rfl
@[simp] theorem eventEntry_lines (s : State) (f : EntryFields) :
    (eventEntry s f).lines = s.lines := by
  unfold eventEntry; repeat' split
  all_goals rfl
@[simp] theorem eventEntry_mem (s : State) (f : EntryFields) :
    (eventEntry s f).mem = s.mem := by
  unfold eventEntry; repeat' split
  all_goals rfl
@[simp] theorem eventEntry_inReset (s : State) (f : EntryFields) :
    (eventEntry s f).inReset = s.inReset := by
  unfold eventEntry; repeat' split
  all_goals rfl
@[simp] theorem eventEntry_pending (s : State) (f : EntryFields) :
    (eventEntry s f).pending = s.pending := by
  unfold eventEntry; repeat' split
  all_goals rfl

/-! ### dayControlEntry -/

@[simp] theorem dayControlEntry_posting (s : State) (f : EntryFields) :
    (dayControlEntry s f).posting = s.posting := by
  unfold dayControlEntry; repeat' split
  all_goals rfl
@[simp] theorem dayControlEntry_totals (s : State) (f : EntryFields) :
    (dayControlEntry s f).totals = s.totals := by
  unfold dayControlEntry; repeat' split
  all_goals rfl
@[simp] theorem dayControlEntry_drawers (s : State) (f : EntryFields) :
    (dayControlEntry s f).drawers = s.drawers := by
  unfold dayControlEntry; repeat' split
  all_goals rfl
@[simp] theorem dayControlEntry_monitors (s : State) (f : EntryFields) :
    (dayControlEntry s f).monitors = s.monitors := by
  unfold dayControlEntry; repeat' split
  all_goals rfl
@[simp] theorem dayControlEntry_screen (s : State) (f : EntryFields) :
    (dayControlEntry s f).screen = s.screen := by
  unfold dayControlEntry; repeat' split
  all_goals rfl
@[simp] theorem dayControlEntry_passbook (s : State) (f : EntryFields) :
    (dayControlEntry s f).passbook = s.passbook := by
  unfold dayControlEntry; repeat' split
  all_goals rfl
@[simp] theorem dayControlEntry_batch (s : State) (f : EntryFields) :
    (dayControlEntry s f).batch = s.batch := by
  unfold dayControlEntry; repeat' split
  all_goals rfl
@[simp] theorem dayControlEntry_lines (s : State) (f : EntryFields) :
    (dayControlEntry s f).lines = s.lines := by
  unfold dayControlEntry; repeat' split
  all_goals rfl
@[simp] theorem dayControlEntry_mem (s : State) (f : EntryFields) :
    (dayControlEntry s f).mem = s.mem := by
  unfold dayControlEntry; repeat' split
  all_goals rfl
@[simp] theorem dayControlEntry_inReset (s : State) (f : EntryFields) :
    (dayControlEntry s f).inReset = s.inReset := by
  unfold dayControlEntry; repeat' split
  all_goals rfl
@[simp] theorem dayControlEntry_pending (s : State) (f : EntryFields) :
    (dayControlEntry s f).pending = s.pending := by
  unfold dayControlEntry; repeat' split
  all_goals rfl

/-! ### reserve -/

@[simp] theorem reserve_path (s : State) (k : Fin 4) :
    (reserve s k).path = s.path := rfl
@[simp] theorem reserve_posting (s : State) (k : Fin 4) :
    (reserve s k).posting = s.posting := rfl
@[simp] theorem reserve_totals (s : State) (k : Fin 4) :
    (reserve s k).totals = s.totals := rfl
@[simp] theorem reserve_drawers (s : State) (k : Fin 4) :
    (reserve s k).drawers = s.drawers := rfl
@[simp] theorem reserve_monitors (s : State) (k : Fin 4) :
    (reserve s k).monitors = s.monitors := rfl
@[simp] theorem reserve_screen (s : State) (k : Fin 4) :
    (reserve s k).screen = s.screen := rfl
@[simp] theorem reserve_passbook (s : State) (k : Fin 4) :
    (reserve s k).passbook = s.passbook := rfl
@[simp] theorem reserve_day (s : State) (k : Fin 4) :
    (reserve s k).day = s.day := rfl
@[simp] theorem reserve_batch (s : State) (k : Fin 4) :
    (reserve s k).batch = s.batch := rfl
@[simp] theorem reserve_lines (s : State) (k : Fin 4) :
    (reserve s k).lines = s.lines := rfl
@[simp] theorem reserve_mem (s : State) (k : Fin 4) :
    (reserve s k).mem = s.mem := rfl
@[simp] theorem reserve_inReset (s : State) (k : Fin 4) :
    (reserve s k).inReset = s.inReset := rfl
@[simp] theorem reserve_pending (s : State) (k : Fin 4) :
    (reserve s k).pending = s.pending := rfl

/-! ### redeemEntry -/

@[simp] theorem redeemEntry_posting (s : State) (k : Fin 4) (f : EntryFields) :
    (redeemEntry s k f).posting = s.posting := by
  unfold redeemEntry; repeat' split
  all_goals first | rfl | exact eventEntry_posting _ _
@[simp] theorem redeemEntry_totals (s : State) (k : Fin 4) (f : EntryFields) :
    (redeemEntry s k f).totals = s.totals := by
  unfold redeemEntry; repeat' split
  all_goals first | rfl | exact eventEntry_totals _ _
@[simp] theorem redeemEntry_drawers (s : State) (k : Fin 4) (f : EntryFields) :
    (redeemEntry s k f).drawers = s.drawers := by
  unfold redeemEntry; repeat' split
  all_goals first | rfl | exact eventEntry_drawers _ _
@[simp] theorem redeemEntry_monitors (s : State) (k : Fin 4) (f : EntryFields) :
    (redeemEntry s k f).monitors = s.monitors := by
  unfold redeemEntry; repeat' split
  all_goals first | rfl | exact eventEntry_monitors _ _
@[simp] theorem redeemEntry_screen (s : State) (k : Fin 4) (f : EntryFields) :
    (redeemEntry s k f).screen = s.screen := by
  unfold redeemEntry; repeat' split
  all_goals first | rfl | exact eventEntry_screen _ _
@[simp] theorem redeemEntry_passbook (s : State) (k : Fin 4) (f : EntryFields) :
    (redeemEntry s k f).passbook = s.passbook := by
  unfold redeemEntry; repeat' split
  all_goals first | rfl | exact eventEntry_passbook _ _
@[simp] theorem redeemEntry_batch (s : State) (k : Fin 4) (f : EntryFields) :
    (redeemEntry s k f).batch = s.batch := by
  unfold redeemEntry; repeat' split
  all_goals first | rfl | exact eventEntry_batch _ _
@[simp] theorem redeemEntry_lines (s : State) (k : Fin 4) (f : EntryFields) :
    (redeemEntry s k f).lines = s.lines := by
  unfold redeemEntry; repeat' split
  all_goals first | rfl | exact eventEntry_lines _ _
@[simp] theorem redeemEntry_mem (s : State) (k : Fin 4) (f : EntryFields) :
    (redeemEntry s k f).mem = s.mem := by
  unfold redeemEntry; repeat' split
  all_goals first | rfl | exact eventEntry_mem _ _
@[simp] theorem redeemEntry_inReset (s : State) (k : Fin 4) (f : EntryFields) :
    (redeemEntry s k f).inReset = s.inReset := by
  unfold redeemEntry; repeat' split
  all_goals first | rfl | exact eventEntry_inReset _ _
@[simp] theorem redeemEntry_pending (s : State) (k : Fin 4) (f : EntryFields) :
    (redeemEntry s k f).pending = s.pending := by
  unfold redeemEntry; repeat' split
  all_goals first | rfl | exact eventEntry_pending _ _

/-! ### complete -/

@[simp] theorem complete_posting (s : State) (status : Status) (detail : Nat) :
    (complete s status detail).posting = s.posting := rfl
@[simp] theorem complete_totals (s : State) (status : Status) (detail : Nat) :
    (complete s status detail).totals = s.totals := rfl
@[simp] theorem complete_drawers (s : State) (status : Status) (detail : Nat) :
    (complete s status detail).drawers = s.drawers := rfl
@[simp] theorem complete_monitors (s : State) (status : Status) (detail : Nat) :
    (complete s status detail).monitors = s.monitors := rfl
@[simp] theorem complete_journal (s : State) (status : Status) (detail : Nat) :
    (complete s status detail).journal = s.journal := rfl
@[simp] theorem complete_screen (s : State) (status : Status) (detail : Nat) :
    (complete s status detail).screen = s.screen := rfl
@[simp] theorem complete_passbook (s : State) (status : Status) (detail : Nat) :
    (complete s status detail).passbook = s.passbook := rfl
@[simp] theorem complete_batch (s : State) (status : Status) (detail : Nat) :
    (complete s status detail).batch = s.batch := rfl
@[simp] theorem complete_lines (s : State) (status : Status) (detail : Nat) :
    (complete s status detail).lines = s.lines := rfl
@[simp] theorem complete_mem (s : State) (status : Status) (detail : Nat) :
    (complete s status detail).mem = s.mem := rfl
@[simp] theorem complete_inReset (s : State) (status : Status) (detail : Nat) :
    (complete s status detail).inReset = s.inReset := rfl
@[simp] theorem complete_pending (s : State) (status : Status) (detail : Nat) :
    (complete s status detail).pending = s.pending := rfl

/-! ### What the books take in -/

/-- The Reversed Set holds no two numbers alike (R56). -/
theorem joinReversed_nodup {set : List Nat} (h : set.Nodup) (n : Nat) : (joinReversed set n).Nodup := by
  unfold joinReversed
  split
  · exact h
  · next hn => simp_all [List.nodup_append]; grind

/-- The members of the Reversed Set after a REVERSAL (R56). -/
theorem mem_joinReversed {set : List Nat} {n m : Nat} : m ∈ joinReversed set n ↔ m ∈ set ∨ m = n := by
  unfold joinReversed
  split <;> simp_all

/-- For amounts that a posting can have the hash total is the sum with one subtraction (R69). -/
theorem hashAfter_posted {a b : Int} (ha : countAmount a = true) (hb : countAmount b = true) (hash : Nat) :
    hashAfter hash a b =
      if hashModulus ≤ hash + a.toNat + b.toNat then hash + a.toNat + b.toNat - hashModulus
      else hash + a.toNat + b.toNat := by simp [hashAfter, ha, hb]

/-- The residue of a conversion that R65 states is R67's. -/
theorem exchangeResidue_stated {c : Configuration} {a b : Fin 4} {amount : Int} {rate : Nat}
    (h : conversionStated c a b amount rate = true) :
    exchangeResidue c a b amount rate =
      residue amount.toNat rate c.currencies[a].exponent c.currencies[b].exponent c.currencies[b].payable := by
  simp [exchangeResidue, h]

/-- A record whose counts are written has the check word of its contents and no mark (R71, R72). -/
theorem recordVerifies_writeCounts (faces : List Nat) (r : HolderRecord) (counts : List Nat) :
    recordVerifies (writeCounts faces r counts) = true := by simp [recordVerifies, writeCounts]

/-- A record replaced is read back; every other record stands. -/
theorem recordOf_setRecord (t : Totals) (h g : Fin 17) (k j : Fin 4) (r : HolderRecord) :
    recordOf (setRecord t h k r) g j = if h = g ∧ k = j then r else recordOf t g j := by
  by_cases hg : h = g
  · subst hg
    by_cases hk : k = j
    · subst hk; simp [recordOf, setRecord]
    · simp [recordOf, setRecord, hk, Fin.val_ne_of_ne hk]
  · simp [recordOf, setRecord, hg, Fin.val_ne_of_ne hg]

/-- A leg leaves the record of an active holder in a configured currency verified and unmarked (R64, R71, R72). -/
theorem recordVerifies_applyLeg {c : Configuration} {t : Totals} {l : Leg} {h : Fin 17} {change : CountChange}
    (hh : l.holder = some h) (hc : l.change = some change) (ha : c.holderActive h = true)
    (hk : c.hasCurrency l.currency = true) :
    recordVerifies (recordOf (applyLeg c t l) h l.currency) = true := by
  simp [applyLeg, hh, hc, ha, hk, recordOf_setRecord, recordVerifies_writeCounts]

/-- An amount of a configured currency prints in its format (R74). -/
theorem printedAmount_configured {c : Configuration} {k : Fin 4} (h : c.hasCurrency k = true) (v : Int) :
    printedAmount c k v = amountField c.currencies[k] v := by simp [printedAmount, h]

/-- An amount of a currency that is not configured prints in bytes 20h to 7Eh (R158; log 43). -/
theorem printedAmount_unconfigured {c : Configuration} {k : Fin 4} (h : c.hasCurrency k = false) (v : Int) :
    (printedAmount c k v).length = 14 ∧ ∀ ch ∈ printedAmount c k v, 0x20 ≤ ch.toNat ∧ ch.toNat ≤ 0x7E := by
  have hch : ∀ n : Nat, n < 95 → (Char.ofNat (0x20 + n)).toNat = 0x20 + n := by decide
  refine ⟨by simp [printedAmount, h], ?_⟩
  simp only [printedAmount, h, Bool.false_eq_true, if_false, List.mem_map, List.mem_range]
  rintro ch ⟨i, -, rfl⟩
  have hlt : Config.unstatedColumn k.val v i % 95 < 95 := Nat.mod_lt _ (by decide)
  rw [hch _ hlt]
  omega

/-- The REV item of an original that has a side takes the opposite one (R42, R160). -/
theorem reversedAmount_sided {number form : Nat} {f : EntryFields} (h : form = 1 ∨ form = 2 ∨ form = 5) :
    reversedAmount number form f = -(itemSide form (flagSet f.flags 3) f.amountA).2 := by
  simp [reversedAmount, h]

/-- Whatever the original, the REV item's amount is the entry's, with one sign or the other (R160; log 52). -/
theorem reversedAmount_cases (number form : Nat) (f : EntryFields) :
    reversedAmount number form f = f.amountA ∨ reversedAmount number form f = -f.amountA := by
  unfold reversedAmount itemSide
  grind

/-- A replayed POSTING other than a REVERSAL of a COUNT or a REVERSAL moves the books by its form (R59, R176). -/
theorem movedForm_of_le {r : Replay} {f : EntryFields} (h : f.code = 7 → replayedForm r f ≤ 5) :
    movedForm r f = replayedForm r f := by
  unfold movedForm
  dsimp only
  split
  · next hf => exact absurd (h hf.1) (by have := hf.2; omega)
  · rfl

/-! ### The DAY TOTALS block (R180) -/

/-- A figure written in n bytes takes n bytes. -/
theorem leBytes_length (n v : Nat) : (leBytes n v).length = n := by
  induction n generalizing v with
  | zero => rfl
  | succ n ih => simp [leBytes, ih]

/-- A Day Totals record takes 56 bytes of its block (R180). -/
theorem dayRecordBytes_length (d : DayTotals) : (dayRecordBytes d).length = 56 := by
  simp [dayRecordBytes, leBytes_length]

/-- The DAY TOTALS payload has 252 bytes, whatever is configured (R180). -/
theorem dayTotalsBytes_length (c : Configuration) (t : Totals) : (dayTotalsBytes c t).length = 252 := by
  have hk : (t.kinds.toList.flatMap fun n => leBytes 4 n.toNat).length = 28 := by
    simp [List.length_flatMap, leBytes_length]
  have hd : ∀ k : Fin 4,
      (if c.hasCurrency k then dayRecordBytes t.day[k] else List.replicate 56 0).length = 56 := by
    intro k; split <;> simp [dayRecordBytes_length]
  simp only [dayTotalsBytes, List.length_append, hk, List.length_flatMap, hd]
  rfl

end Sys2Proof.Machine
end

