-- ==== Sys2Proof/Laws/Records.lean ====
section
/-! SUPPORT. What stands where in the records, doublewords and texts of the part: fields at their offsets, the
Mirror's figures, the checks as shift registers, printed characters; and the small facts of indices, ports,
pending entries and faulty marks. -/

namespace Sys2Proof.Machine

/-! ### Bytes and their fields -/

/-- The number at an offset is the little-endian number of the bytes there (R203). -/
theorem uintAt_eq_leNat (b : List Byte) (o n : Nat) :
    uintAt b o n = leNat ((b.drop o).take n) := by
  induction n generalizing o with
  | zero => simp [uintAt, leNat]
  | succ n ih =>
    have h : uintAt b o (n + 1) = (b.getD o 0).toNat + 256 * uintAt b (o + 1) n := by
      simp only [uintAt, List.range_succ_eq_map, List.map_cons, List.map_map, List.sum_cons, Nat.add_zero,
        Nat.pow_zero, Nat.mul_one, ← List.sum_map_mul_left]
      congr 2
      apply List.map_congr_left
      intro i _
      simp only [Function.comp, Nat.succ_eq_add_one]
      rw [show o + (i + 1) = o + 1 + i by omega, Nat.pow_succ]
      ring
    rw [h, ih]
    rcases hb : b.drop o with _ | ⟨x, rest⟩
    · have hl : b.length ≤ o := List.drop_eq_nil_iff.mp hb
      simp [leNat, List.getD_eq_getElem?_getD, List.getElem?_eq_none hl,
        List.drop_eq_nil_of_le (show b.length ≤ o + 1 by omega)]
    · have hr : b.drop (o + 1) = rest := by
        rw [← List.drop_drop, hb]; rfl
      have hx : b.getD o 0 = x := by
        have := congrArg List.head? hb
        rw [List.head?_drop] at this
        simp [List.getD_eq_getElem?_getD, this]
      rw [hr, hx]
      simp [leNat]

/-- A field read is the number at its offset. -/
theorem field_eq_uintAt (b : List Byte) (o n : Nat) : field b o n = uintAt b o n := (uintAt_eq_leNat b o n).symm

/-- A little-endian number is below 256 to its length. -/
theorem leNat_lt (b : List Byte) : leNat b < 256 ^ b.length := by
  induction b with
  | nil => simp [leNat]
  | cons x b ih => simp only [leNat, List.length_cons, Nat.pow_succ]; have := x.isLt; omega

/-- A number of n bytes is below 256 to n. -/
theorem uintAt_lt (b : List Byte) (o n : Nat) : uintAt b o n < 256 ^ n := by
  rw [uintAt_eq_leNat]
  exact lt_of_lt_of_le (leNat_lt _) (Nat.pow_le_pow_right (by norm_num) (by simp))

/-- A 64-bit number read as signed lies in its range and is the number modulo 2^64. -/
theorem signed64_emod (n : Nat) (h : n < 2 ^ 64) :
    -(2 ^ 63) ≤ signed64 n ∧ signed64 n < 2 ^ 63 ∧ signed64 n % 2 ^ 64 = n := by
  unfold signed64
  have h1 := BitVec.toInt_lt (x := BitVec.ofNat 64 n)
  have h2 := BitVec.le_toInt (x := BitVec.ofNat 64 n)
  refine ⟨by simpa using h2, by simpa using h1, ?_⟩
  rw [BitVec.toInt_eq_toNat_bmod, BitVec.toNat_ofNat, Nat.mod_eq_of_lt h]
  have h3 : (n : Int).bmod (2 ^ 64) % 2 ^ 64 = n % 2 ^ 64 := Int.bmod_emod
  rw [h3]
  omega

/-- The little-endian number of two runs of bytes. -/
theorem leNat_append (a b : List Byte) : leNat (a ++ b) = leNat a + 256 ^ a.length * leNat b := by
  induction a with
  | nil => simp [leNat]
  | cons x a ih => simp [leNat, ih, Nat.pow_succ]; ring

/-- The little-endian bytes of a number spell it modulo their width. -/
theorem leNat_leBytes (n v : Nat) : leNat (leBytes n v) = v % 256 ^ n := by
  induction n generalizing v with
  | zero => simp [leBytes, leNat, Nat.mod_one]
  | succ n ih =>
    simp only [leBytes, leNat, ih, BitVec.toNat_ofNat]
    rw [show (256 : Nat) ^ (n + 1) = 256 * 256 ^ n by rw [Nat.pow_succ, Nat.mul_comm], Nat.mod_mul,
      show (2 : Nat) ^ 8 = 256 by norm_num]

/-- What stands behind a run of bytes is read at the offset behind it. -/
theorem uintAt_skip (a b : List Byte) (o n : Nat) (h : a.length ≤ o) :
    uintAt (a ++ b) o n = uintAt b (o - a.length) n := by
  simp only [uintAt_eq_leNat, List.drop_append, List.drop_eq_nil_of_le h, List.nil_append]

/-- The field that opens a record is read back from its front. -/
theorem uintAt_leBytes (b : List Byte) (n v : Nat) : uintAt (leBytes n v ++ b) 0 n = v % 256 ^ n := by
  have : (leBytes n v ++ b).take n = leBytes n v := by
    rw [List.take_append_of_le_length (by simp [leBytes_length])]
    exact List.take_of_length_le (by simp [leBytes_length])
  rw [uintAt_eq_leNat, List.drop_zero, this, leNat_leBytes]

/-- The field that is all of a record is read back. -/
theorem uintAt_leBytes_self (n v : Nat) : uintAt (leBytes n v) 0 n = v % 256 ^ n := by
  simpa using uintAt_leBytes [] n v

/-- An amount's two's complement is the amount modulo 2^64. -/
theorem unsigned64_eq (x : Int) : unsigned64 x = (x % 2 ^ 64).toNat := by
  simp [unsigned64, BitVec.toNat_ofInt]

/-- Two bytes a count: dropping counts drops twice as many bytes. -/
theorem drop_bytes16 (a : List Nat) (d : Nat) : (bytes16 a).drop (2 * d) = bytes16 (a.drop d) := by
  induction a generalizing d with
  | nil => simp [bytes16]
  | cons x a ih =>
    cases d with
    | zero => simp
    | succ d =>
      have := ih d
      simp only [bytes16, List.flatMap_cons] at this ⊢
      rw [show 2 * (d + 1) = (leBytes 2 x).length + 2 * d by simp [leBytes_length]; omega, ← List.drop_drop]
      simpa using this

/-- A run of counts is two bytes a count. -/
theorem bytes16_length (a : List Nat) : (bytes16 a).length = 2 * a.length := by
  simp [bytes16, List.length_flatMap, leBytes_length]; omega

/-- Count d of a run of counts stands at twice d. -/
theorem uintAt_bytes16 (a : List Nat) (rest : List Byte) (d : Nat) (h : d < a.length) :
    uintAt (bytes16 a ++ rest) (2 * d) 2 = a.getD d 0 % 2 ^ 16 := by
  have hl : (bytes16 a).length = 2 * a.length := by
    simp [bytes16, List.length_flatMap, leBytes_length]; omega
  rw [uintAt_eq_leNat, List.drop_append_of_le_length (by omega), drop_bytes16]
  rw [List.drop_eq_getElem_cons h]
  simp only [bytes16, List.flatMap_cons, List.append_assoc]
  rw [List.take_append_of_le_length (by simp [leBytes_length]), List.take_of_length_le (by simp [leBytes_length]),
    leNat_leBytes]
  simp [List.getD_eq_getElem?_getD, h]

/-- A run of doublewords is eight bytes each. -/
theorem bytesOfDwords_length (l : List Dword) : (bytesOfDwords l).length = 8 * l.length := by
  simp [bytesOfDwords, bytesOfDword, List.length_flatMap, leBytes_length]; omega

/-- Doubleword i of a run stands at eight times i. -/
theorem uintAt_bytesOfDwords (l : List Dword) (i : Nat) :
    uintAt (bytesOfDwords l) (8 * i) 8 = (l.getD i 0).toNat := by
  induction l generalizing i with
  | nil => simp [bytesOfDwords, uintAt]
  | cons d l ih =>
    have hd := d.isLt
    have e : bytesOfDwords (d :: l) = leBytes 8 d.toNat ++ bytesOfDwords l := by simp [bytesOfDwords, bytesOfDword]
    rw [e]
    cases i with
    | zero =>
      rw [Nat.mul_zero, uintAt_leBytes]; simp; omega
    | succ i =>
      rw [uintAt_skip _ _ _ _ (by simp only [leBytes_length]; omega), leBytes_length,
        show 8 * (i + 1) - 8 = 8 * i by omega, ih]
      simp

/-! ### Doublewords of fields and the Mirror -/

/-- Fields behind one another stay within the sum of their widths. -/
theorem leNat_flatMap_fields (fs : List (Nat × Nat)) :
    leNat (fs.flatMap fun f => leBytes f.1 f.2) < 256 ^ (fs.map (·.1)).sum := by
  have := leNat_lt (fs.flatMap fun f => leBytes f.1 f.2)
  simpa [List.length_flatMap, leBytes_length] using this

/-- A doubleword of fields that fit is the number their bytes spell. -/
theorem dwordOfFields_toNat (fs : List (Nat × Nat)) (h : (fs.map (·.1)).sum ≤ 8) :
    (dwordOfFields fs).toNat = leNat (fs.flatMap fun f => leBytes f.1 f.2) := by
  have hl : (fs.flatMap fun f => leBytes f.1 f.2).length ≤ 8 := by
    simpa [List.length_flatMap, leBytes_length] using h
  simp only [dwordOfFields, dwordOfBytes, BitVec.toNat_ofNat, List.take_of_length_le hl]
  apply Nat.mod_eq_of_lt
  exact lt_of_lt_of_le (leNat_flatMap_fields fs) (by
    calc 256 ^ (fs.map (·.1)).sum ≤ 256 ^ 8 := Nat.pow_le_pow_right (by norm_num) h
      _ = 2 ^ 64 := by norm_num)

/-- A vector as the list of its elements. -/
theorem vector_toList_finRange {α : Type} {n : Nat} (v : Vector α n) :
    v.toList = (List.finRange n).map fun i => v[i] := by
  apply List.ext_getElem <;> simp

/-- The Mirror doublewords of the part as a whole (13.6). -/
theorem mirrorFields_part (s : State) (k : Nat) (hk : k < 18) : mirrorFields s k = partFields s k := if_pos hk

/-- A monitor's Mirror doubleword (13.6). -/
theorem mirrorFields_monitor (s : State) (m : Fin 8) : mirrorFields s (32 + m.val) = monitorFields s m := by
  have h : Fin.ofNat 8 (32 + m.val - 32) = m := by ext; simp
  simp only [mirrorFields, h]
  rw [if_neg (by omega), if_pos (by omega)]

/-- A Day Totals figure's Mirror doubleword (13.6). -/
theorem mirrorFields_day (s : State) (k : Fin 4) (j : Nat) (hj : j < 7) :
    mirrorFields s (64 + 8 * k.val + j) = dayFields s.totals.day[k] j := by
  have h : Fin.ofNat 4 ((64 + 8 * k.val + j - 64) / 8) = k := by ext; simp; omega
  have h2 : (64 + 8 * k.val + j - 64) % 8 = j := by omega
  simp only [mirrorFields, h, h2]
  rw [if_neg (by omega), if_neg (by omega), if_pos (by omega)]

/-- The Mirror doublewords of the counts of each kind (13.6). -/
theorem mirrorFields_kind (s : State) (j : Nat) (hj : j < 4) :
    mirrorFields s (96 + j) = kindFields s.totals j := by
  simp only [mirrorFields]
  rw [if_neg (by omega), if_neg (by omega), if_neg (by omega), if_pos (by omega)]
  congr 1; omega

/-- A holder's Mirror doublewords (13.6). -/
theorem mirrorFields_holder (s : State) (h : Fin 17) (j : Nat) (hj : j < 21) :
    mirrorFields s (256 + 32 * h.val + j) = holderFields s h j := by
  have e : Fin.ofNat 17 ((256 + 32 * h.val + j - 256) / 32) = h := by ext; simp; omega
  have h2 : (256 + 32 * h.val + j - 256) % 32 = j := by omega
  simp only [mirrorFields, e, h2]
  rw [if_neg (by omega), if_neg (by omega), if_neg (by omega), if_neg (by omega)]

/-- A holder record's five Mirror doublewords (13.6). -/
theorem holderFields_record (s : State) (h : Fin 17) (k : Fin 4) (i : Nat) (hi : i < 5) :
    holderFields s h (1 + 5 * k.val + i) =
      if i = 3 then [(8, (recordOf s.totals h k).balance)] else if i = 4 then [(8, (recordOf s.totals h k).opening)]
      else (((recordOf s.totals h k).counts.drop (4 * i)).take 4).map fun n => (2, n) := by
  have e : Fin.ofNat 4 ((1 + 5 * k.val + i - 1) / 5) = k := by ext; simp; omega
  have h2 : (1 + 5 * k.val + i - 1) % 5 = i := by omega
  simp only [holderFields, e, h2]
  rw [if_neg (by omega)]
  interval_cases i <;> rfl

/-! ### The checks -/

/-- A check over one byte more is the step of that byte on the check before it. -/
theorem crcFeed_append (f : Nat → Nat → Nat) (bytes : List Byte) (b : Byte) (r : Nat) :
    crcFeed f (bytes ++ [b]) r = f (crcFeed f bytes r) b.toNat := by
  induction bytes generalizing r with
  | nil => simp only [List.nil_append, crcFeed]; split <;> simp [*]
  | cons x bytes ih =>
    simp only [List.cons_append, crcFeed]
    split <;> exact ih _

/-- A check stays within its width. -/
theorem crcFeed_lt {f : Nat → Nat → Nat} {w : Nat} (hf : ∀ r < 2 ^ w, ∀ b < 256, f r b < 2 ^ w)
    (bytes : List Byte) (r : Nat) (h : r < 2 ^ w) :
    crcFeed f bytes r < 2 ^ w := by
  induction bytes using List.reverseRecOn with
  | nil => exact h
  | append_singleton bytes b ih => rw [crcFeed_append]; exact hf _ ih _ b.isLt

/-- A shift of the 16-bit check stays within 16 bits (R70). -/
theorem crc16Shift_lt (r : Nat) (h : r < 2 ^ 16) : crc16Shift r < 2 ^ 16 := by
  unfold crc16Shift
  split
  · exact Nat.xor_lt_two_pow (by omega) (by norm_num)
  · omega

/-- A shift of the 16-bit check is that of a 16-bit register (R70). -/
theorem crc16Shift_ofNat (r : Nat) (h : r < 2 ^ 16) :
    BitVec.ofNat 16 (crc16Shift r) =
      if (BitVec.ofNat 16 r).msb = true then ((BitVec.ofNat 16 r) <<< 1) ^^^ 0x1021
      else (BitVec.ofNat 16 r) <<< 1 := by
  have hl : (BitVec.ofNat 16 r) <<< 1 = BitVec.ofNat 16 (2 * r % 0x10000) := by
    apply BitVec.eq_of_toNat_eq
    simp only [BitVec.toNat_shiftLeft, BitVec.toNat_ofNat, Nat.shiftLeft_eq]
    omega
  have hm : (BitVec.ofNat 16 r).msb = decide (0x8000 ≤ r) := by
    rw [BitVec.msb_eq_decide, BitVec.toNat_ofNat, Nat.mod_eq_of_lt h]
  rw [hl, hm]
  unfold crc16Shift
  by_cases hc : 0x8000 ≤ r
  · simp only [hc, if_true, decide_true]
    apply BitVec.eq_of_toNat_eq
    have := Nat.xor_lt_two_pow (x := 2 * r % 0x10000) (y := 0x1021) (n := 16) (by omega) (by norm_num)
    rw [BitVec.toNat_ofNat, BitVec.toNat_xor, BitVec.toNat_ofNat, Nat.mod_eq_of_lt this,
      Nat.mod_eq_of_lt (show 2 * r % 65536 < 2 ^ 16 by omega)]
    rfl
  · simp only [hc, if_false, decide_false, Bool.false_eq_true]
    congr 1; omega

/-- A shift of the 32-bit check stays within 32 bits (R109). -/
theorem crc32Shift_lt (r : Nat) (h : r < 2 ^ 32) : crc32Shift r < 2 ^ 32 := by
  unfold crc32Shift
  split
  · exact Nat.xor_lt_two_pow (by omega) (by norm_num)
  · omega

/-- A shift of the 32-bit check is that of a 32-bit register (R109). -/
theorem crc32Shift_ofNat (r : Nat) (h : r < 2 ^ 32) :
    BitVec.ofNat 32 (crc32Shift r) =
      if (BitVec.ofNat 32 r).getLsbD 0 = true then ((BitVec.ofNat 32 r) >>> 1) ^^^ 0xEDB88320
      else (BitVec.ofNat 32 r) >>> 1 := by
  have hl : (BitVec.ofNat 32 r) >>> 1 = BitVec.ofNat 32 (r / 2) := by
    apply BitVec.eq_of_toNat_eq
    simp only [BitVec.toNat_ushiftRight, BitVec.toNat_ofNat, Nat.shiftRight_eq_div_pow]
    omega
  have hm : (BitVec.ofNat 32 r).getLsbD 0 = decide (r % 2 = 1) := by
    rw [BitVec.getLsbD_ofNat, Nat.testBit_zero]; simp
  rw [hl, hm]
  unfold crc32Shift
  by_cases hc : r % 2 = 1
  · simp only [hc, if_true, decide_true]
    apply BitVec.eq_of_toNat_eq
    have := Nat.xor_lt_two_pow (x := r / 2) (y := 0xEDB88320) (n := 32) (by omega) (by norm_num)
    rw [BitVec.toNat_ofNat, BitVec.toNat_xor, BitVec.toNat_ofNat, Nat.mod_eq_of_lt this,
      Nat.mod_eq_of_lt (show r / 2 < 2 ^ 32 by omega)]
    rfl
  · simp only [hc, if_false, decide_false, Bool.false_eq_true]

/-- A shift of the 8-bit check stays within 8 bits (R125). -/
theorem crc8Shift_lt (r : Nat) (h : r < 2 ^ 8) : crc8Shift r < 2 ^ 8 := by
  unfold crc8Shift
  split
  · exact Nat.xor_lt_two_pow (by omega) (by norm_num)
  · omega

/-- Steps that agree with those of a register agree after any number of them. -/
theorem iterate_of {w : Nat} {f : Nat → Nat} {g : BitVec w → BitVec w} (hlt : ∀ r < 2 ^ w, f r < 2 ^ w)
    (h : ∀ r < 2 ^ w, BitVec.ofNat w (f r) = g (BitVec.ofNat w r)) (n r : Nat) (hr : r < 2 ^ w) :
    BitVec.ofNat w (f^[n] r) = g^[n] (BitVec.ofNat w r) := by
  induction n generalizing r with
  | zero => rfl
  | succ n ih => rw [Function.iterate_succ_apply, Function.iterate_succ_apply, ih _ (hlt r hr), h r hr]

/-- Steps that stay within a width stay within it after any number of them. -/
theorem iterate_lt {w : Nat} {f : Nat → Nat} (hlt : ∀ r < 2 ^ w, f r < 2 ^ w) (n r : Nat)
    (hr : r < 2 ^ w) : f^[n] r < 2 ^ w := by
  induction n generalizing r with
  | zero => exact hr
  | succ n ih => rw [Function.iterate_succ_apply]; exact ih _ (hlt r hr)

/-! ### Indices, ports, pending entries and faulty marks -/

/-- An index in range names itself. -/
theorem indexOf_val {n : Nat} (i : Fin n) : indexOf n i.val = some i := by
  simp [indexOf]

/-- The port of a role is the first that has it (R198). -/
theorem portWithRole_first (c : Configuration) (n : Nat) :
    (c.portWithRole n = none ↔ ∀ k : Fin 6, c.ports[k].role ≠ n) ∧
      ∀ k, c.portWithRole n = some k → c.ports[k].role = n ∧ ∀ j : Fin 6, j < k → c.ports[j].role ≠ n := by
  unfold Configuration.portWithRole
  refine ⟨by simp, fun k hk => ?_⟩
  rw [List.find?_eq_some_iff_getElem] at hk
  obtain ⟨h, i, hi, he, hb⟩ := hk
  refine ⟨by simpa using h, fun j hj => ?_⟩
  have hk : k.val = i := by rw [← he]; simp
  have := hb j.val (by omega)
  simpa using this

/-- The room a head needs by its kind (R26). -/
theorem headNeed_eq (k : Nat) : headNeed k = if k ∈ [1, 2, 3, 4, 6, 7] then 17 else 9 := by
  unfold headNeed
  simp only [List.mem_cons, List.not_mem_nil, or_false, Bool.or_eq_true, Bool.and_eq_true, decide_eq_true_eq,
    beq_iff_eq]
  congr 1
  simp only [eq_iff_iff]
  omega

/-- A search for the newest entry succeeds where one is at the address. -/
theorem newestEntry_isSome (q : List InjectEntry) (addr : Nat) (r : Option Dword) :
    (q.foldl (fun r e => if e.addr = addr then some e.data else r) r).isSome = true ↔
      r.isSome = true ∨ ∃ e ∈ q, e.addr = addr := by
  induction q generalizing r with
  | nil => simp
  | cons e q ih =>
    rw [List.foldl_cons, ih]
    by_cases h : e.addr = addr <;> simp [h]

/-- An entry is pending at a doubleword where the queue holds one at its address (R10). -/
theorem pendingAt_iff (s : State) (addr : Nat) : pendingAt s addr = true ↔ ∃ e ∈ s.path.queue, e.addr = addr := by
  unfold pendingAt newestEntry
  rw [newestEntry_isSome]; simp

/-- Marking changes the records alone (R72). -/
theorem markFaulty_rest (t : Totals) (named : List (Fin 17 × Fin 4)) :
    { markFaulty t named with records := t.records } = t := by
  unfold markFaulty
  induction named generalizing t with
  | nil => rfl
  | cons n named ih =>
    rw [List.foldl_cons]
    have := ih (setRecord t n.1 n.2 { recordOf t n.1 n.2 with faulty := true })
    simp only [setRecord, Totals.mk.injEq] at this ⊢
    cases t
    simpa using this

/-- Marking sets the mark of the records named and changes nothing else of a record (R72). -/
theorem recordOf_markFaulty (t : Totals) (named : List (Fin 17 × Fin 4)) (h : Fin 17) (k : Fin 4) :
    recordOf (markFaulty t named) h k =
      { recordOf t h k with faulty := (recordOf t h k).faulty || decide ((h, k) ∈ named) } := by
  unfold markFaulty
  induction named generalizing t with
  | nil => simp
  | cons n named ih =>
    rw [List.foldl_cons, ih, recordOf_setRecord]
    by_cases hn : n = (h, k)
    · subst hn; simp
    · split
      · rename_i he
        exact absurd (Prod.ext_iff.mpr ⟨he.1, he.2⟩) hn
      · have : (h, k) ≠ n := fun e => hn e.symm
        simp [this]

/-! ### Printed text -/

/-- A printed amount is its text at the right of 14 columns, or 14 asterisks (R75). -/
theorem amountField_cases (cur : Currency) (v : Int) :
    ∃ text, text = amountBody cur v.natAbs ++ [if v < 0 then '-' else ' '] ∧
      (text.length ≤ 14 ∧ amountField cur v = rightAlign 14 text ∨
        amountField cur v = List.replicate 14 '*') := by
  refine ⟨_, rfl, ?_⟩
  by_cases h : (amountBody cur v.natAbs ++ [if v < 0 then '-' else ' ']).length ≤ 14
  · exact .inl ⟨h, if_pos h⟩
  · exact .inr (if_neg h)

/-- A printed amount is 14 columns wide (R75). -/
theorem amountField_length (cur : Currency) (v : Int) : (amountField cur v).length = 14 := by
  obtain ⟨text, _, ⟨h, e⟩ | e⟩ := amountField_cases cur v
  · rw [e, rightAlign, List.length_append, List.length_replicate]; omega
  · rw [e]; rfl

/-- A line's amount is 14 columns wide, of any currency (R158). -/
theorem printedAmount_length (c : Configuration) (k : Fin 4) (v : Int) : (printedAmount c k v).length = 14 := by
  unfold printedAmount
  split
  · exact amountField_length _ _
  · simp

/-- Every character lies in 20h..7Eh (R158). -/
abbrev Printable (l : List Char) : Prop := ∀ ch ∈ l, 0x20 ≤ ch.toNat ∧ ch.toNat ≤ 0x7E

/-- A decimal digit is printable. -/
theorem printable_digit (n : Nat) :
    0x20 ≤ (Char.ofNat (48 + n % 10)).toNat ∧ (Char.ofNat (48 + n % 10)).toNat ≤ 0x7E := by
  have : n % 10 < 10 := Nat.mod_lt _ (by omega)
  generalize n % 10 = m at *
  interval_cases m <;> decide

/-- The digits of a number are printable. -/
theorem printable_digitsReversed (n v : Nat) : Printable (digitsReversed n v) := by
  induction n generalizing v with
  | zero => intro ch h; simp [digitsReversed] at h
  | succ n ih =>
    intro ch hch
    simp only [digitsReversed, List.mem_cons] at hch
    rcases hch with rfl | h
    · exact printable_digit v
    · split at h
      · simp at h
      · exact ih _ _ h

/-- The digits of a fixed width are printable. -/
theorem printable_fixedDecimal (n v : Nat) : Printable (fixedDecimal n v) := by
  induction n generalizing v with
  | zero => intro ch h; simp [fixedDecimal] at h
  | succ n ih =>
    intro ch hch
    simp only [fixedDecimal, List.mem_append, List.mem_singleton] at hch
    rcases hch with h | rfl
    · exact ih _ _ h
    · exact printable_digit v

/-- Grouping adds the separator and no other character (R74). -/
theorem mem_groupDigits (sep : Char) (l : List Char) : ∀ ch ∈ groupDigits sep l, ch = sep ∨ ch ∈ l := by
  induction l using groupDigits.induct with
  | case1 a b c d rest ih =>
    intro ch hch
    simp only [groupDigits, List.mem_cons] at hch
    rcases hch with h | h | h | h | h
    · simp [h]
    · simp [h]
    · simp [h]
    · simp [h]
    · rcases ih ch h with h | h
      · exact .inl h
      · right; simp only [List.mem_cons] at h ⊢; tauto
  | case2 l h =>
    intro ch hch
    unfold groupDigits at hch
    split at hch
    · exact absurd rfl (h _ _ _ _ _)
    · exact .inr hch

/-- Every grouping separator is printable. -/
theorem printable_groupingSeparator {code : Nat} {sep : Char} (h : groupingSeparator code = some sep) :
    0x20 ≤ sep.toNat ∧ sep.toNat ≤ 0x7E := by
  unfold groupingSeparator at h
  split at h
  · cases h; decide
  · split at h
    · cases h; decide
    · split at h
      · cases h; decide
      · cases h

/-- An amount's digits and separators are printable. -/
theorem printable_amountBody (cur : Currency) (m : Nat) : Printable (amountBody cur m) := by
  intro ch hch
  simp only [amountBody, List.mem_append, List.mem_reverse] at hch
  rcases hch with h | h
  · split at h
    · exact printable_digitsReversed _ _ _ h
    · rename_i sep hs
      rcases mem_groupDigits sep _ _ h with rfl | h
      · exact printable_groupingSeparator hs
      · exact printable_digitsReversed _ _ _ h
  · split at h
    · simp at h
    · simp only [List.mem_cons] at h
      rcases h with rfl | h
      · unfold decimalSeparator; split <;> decide
      · exact printable_fixedDecimal _ _ _ h

/-- A printed amount is printable. -/
theorem printable_amountField (cur : Currency) (v : Int) : Printable (amountField cur v) := by
  intro ch hch
  obtain ⟨text, ht, ⟨_, e⟩ | e⟩ := amountField_cases cur v
  · rw [e, rightAlign, List.mem_append, List.mem_replicate, ht, List.mem_append, List.mem_singleton] at hch
    rcases hch with ⟨_, rfl⟩ | h | rfl
    · decide
    · exact printable_amountBody _ _ _ h
    · split <;> decide
  · rw [e, List.mem_replicate] at hch
    rw [hch.2]; decide

/-- A line's amount is printable, of any currency (R158, log 43). -/
theorem printable_printedAmount (c : Configuration) (k : Fin 4) (v : Int) : Printable (printedAmount c k v) := by
  intro ch hch
  unfold printedAmount at hch
  split at hch
  · exact printable_amountField _ _ _ hch
  · simp only [List.mem_map, List.mem_range] at hch
    obtain ⟨i, _, rfl⟩ := hch
    have : Config.unstatedColumn k.val v i % 95 < 95 := Nat.mod_lt _ (by omega)
    generalize Config.unstatedColumn k.val v i % 95 = m at *
    have hv : (0x20 + m).isValidChar := by unfold Nat.isValidChar; omega
    have ht : (Char.ofNat (0x20 + m)).toNat = 0x20 + m := by
      rw [Char.ofNat, dif_pos hv]; rfl
    rw [ht]; omega

/-- Two decimal digits. -/
theorem fixedDecimal_two (v : Nat) :
    fixedDecimal 2 v = [Char.ofNat (48 + v / 10 % 10), Char.ofNat (48 + v % 10)] := rfl

/-- The decimal digits of a number are those of its tenth and its last. -/
theorem toDigits_succ (n : Nat) : Nat.toDigits 10 n =
    (if n / 10 = 0 then [] else Nat.toDigits 10 (n / 10)) ++ [Char.ofNat (48 + n % 10)] := by
  have hd : Nat.digitChar (n % 10) = Char.ofNat (48 + n % 10) := by
    have : n % 10 < 10 := Nat.mod_lt _ (by omega)
    generalize n % 10 = m at *
    interval_cases m <;> rfl
  split
  · rename_i h
    rw [Nat.toDigits_of_lt_base (by omega)]
    have : n % 10 = n := by omega
    rw [← hd, this]; rfl
  · rename_i h
    rw [Nat.toDigits_of_base_le (by omega) (by omega), hd]

/-- The digits of a number that fits are its decimal digits. -/
theorem digitsReversed_toDigits (k n : Nat) (h : n < 10 ^ k) (hk : 1 ≤ k) :
    (digitsReversed k n).reverse = Nat.toDigits 10 n := by
  induction k generalizing n with
  | zero => omega
  | succ k ih =>
    rw [toDigits_succ]
    simp only [digitsReversed, List.reverse_cons]
    split
    · rfl
    · rename_i hn
      rw [ih]
      · rw [Nat.pow_succ] at h; omega
      · rcases k with _ | k
        · simp at h; omega
        · omega

end Sys2Proof.Machine
end

