-- ==== Sys2Proof/Laws/Day.lean ====
section
/-! SUPPORT. What the opening of a day, the end of a replay and the restart of a batch do to the whole state, and
that the service of a read-back run commutes with the entries and completions handed over beside it. -/

namespace Sys2Proof.Machine

/-! ### The service of a run moves no figure of the books -/

/-- A state with another served run, buffer and fetch requests: what the service and the end of a run touch
beside the list of runs (R119, R120). -/
def shifted (x : State) (j : Option Requester × Nat × List Dword) (f : List FetchRequest × Bool × Nat) : State :=
  { x with
    journal := { x.journal with serving := j.1, turn := j.2.1, buffer := j.2.2 }
    path := { x.path with fetches := f.1, fetchWaits := f.2.1, fetchStreak := f.2.2 } }

theorem view_shifted (x : State) (j f) : view (shifted x j f) = view x := rfl

theorem handGroup_shifted (x : State) (g : Group) (j f) :
    handGroup (shifted x j f) g = shifted (handGroup x g) j f := by
  have : groupFits (shifted x j f).path g.writes.length = groupFits x.path g.writes.length := rfl
  simp only [handGroup, this]
  cases groupFits x.path g.writes.length <;> rfl

theorem dayControlEntry_shifted (x : State) (y : EntryFields) (j f) :
    dayControlEntry (shifted x j f) y = shifted (dayControlEntry x y) j f := by
  unfold dayControlEntry
  show (if (!x.journal.present) = true then _ else if 1 ≤ x.journal.free then _ else _) = _
  split
  · rfl
  · split
    · unfold writeEntry
      show handGroup (shifted (numberEntry x _ true) j f) ⟨.journal, _⟩ = _
      rw [handGroup_shifted]
      rfl
    · rfl

theorem testSending_shifted (x : State) (j f) : testSending (shifted x j f) = shifted (testSending x) j f := by
  unfold testSending
  show (if x.day.state = .closing ∧ allBalanced x.configuration x.totals = true ∧
    (x.posting.queue.any (·.marked)) = false then _ else _) = _
  split
  · rw [← dayControlEntry_shifted]
    rfl
  · rfl

theorem complete_shifted (x : State) (status : Status) (n : Nat) (j f) :
    complete (shifted x j f) status n = shifted (complete x status n) j f :=
  handGroup_shifted _ _ _ _

theorem serveRuns_shifted (x : State) : ∃ j f, serveRuns x = shifted x j f := by
  unfold serveRuns
  split
  · exact ⟨⟨_, _, _⟩, ⟨_, _, _⟩, rfl⟩
  · split
    · exact ⟨⟨_, _, _⟩, ⟨_, _, _⟩, rfl⟩
    · dsimp only; split <;> exact ⟨⟨_, _, _⟩, ⟨_, _, _⟩, rfl⟩

/-! ### The opening of a day -/

/-- A printer after the opening of a day (R150, R161). -/
def reopened (c : Configuration) (p : Printer) (k : Fin 4) : Printer :=
  if p.state ≠ .idle ∧ p.state ≠ .fault then
    (if c.printerPort k = none then barePrinter .idle else { barePrinter .fault with awaited := some .reset })
  else p

/-- A position that shows a message. -/
def shows (m : Message) (q : Position) : Position := { q with message := m }

/-- The notice a printing line leaves at an opening (R134, R156; log 26). -/
def faultNotice (k : Nat) : Message := ⟨"PRINTER ".toList ++ decimal k ++ " FAULT".toList, false⟩

theorem getElem_set_ne {α : Type} {n : Nat} (v : Vector α n) (a k : Fin n) (x : α) (h : k ≠ a) :
    (v.set a x)[k] = v[k] := by
  have : ¬ a.val = k.val := fun e => h (Fin.ext e.symm)
  simp [this]

/-- One printer at the opening of a day, as one update of the state (R150). -/
theorem reopenPrinter_parts (s : State) (k : Fin 4) :
    reopenPrinter s k = { s with
      passbook := { s.passbook with
        printers := s.passbook.printers.set k (reopened s.configuration s.passbook.printers[k] k) }
      lines := Vector.ofFn fun port =>
        if (s.passbook.printers[k].state ≠ .idle ∧ s.passbook.printers[k].state ≠ .fault) ∧
          s.configuration.printerPort k = some port then [printerFrame 0x05 []] else s.lines[port]
      screen := { s.screen with
        positions := Vector.ofFn fun p =>
          if s.passbook.printers[k].state = .printing ∧ boundTo s.configuration k p = true then
            shows (faultNotice k.val) s.screen.positions[p]
          else s.screen.positions[p] } } := by
  have hset : ∀ (v : Vector Printer 4), v.set k v[k] = v := by
    intro v; ext1 i hi; simp
  have hid : (Vector.ofFn fun port => s.lines[port]) = s.lines := by ext1 i hi; simp
  have hid2 : (Vector.ofFn fun port : Fin 16 => s.screen.positions[port]) = s.screen.positions := by
    ext1 i hi; simp
  have hl : ∀ (port : Fin 6) (f : List Byte),
      (s.lines.set port []).set port ((s.lines.set port [])[port] ++ [f]) =
        Vector.ofFn fun p : Fin 6 => if port = p then [f] else s.lines[p] := by
    intro port f; ext1 i hi
    by_cases h : port.val = i
    · subst h; simp
    · have : ¬ port = ⟨i, hi⟩ := fun e => h (congrArg Fin.val e)
      simp [h, this]
  have hr : restartPrinter s k = { s with
      passbook := { s.passbook with
        printers := s.passbook.printers.set k
          (if s.configuration.printerPort k = none then barePrinter .idle
            else { barePrinter .fault with awaited := some .reset }) }
      lines := Vector.ofFn fun port =>
        if s.configuration.printerPort k = some port then [printerFrame 0x05 []] else s.lines[port] } := by
    unfold restartPrinter
    cases hp : s.configuration.printerPort k with
    | none => simp [setPrinter]
    | some port =>
      simp only [sendPrinter, hp, clearLine, sendFrame, Option.some.injEq, reduceCtorEq, if_false]
      show ({ s with passbook := _, lines := _ } : State) = _
      have h2 := hl port (printerFrame 5 [])
      exact congrArg (fun l => ({ s with
        passbook := { s.passbook with
          printers := s.passbook.printers.set k { barePrinter .fault with awaited := some .reset } }
        lines := l } : State)) h2
  have hno : ∀ x : State, x.configuration = s.configuration → x.screen = s.screen →
      notice x k "FAULT".toList = { x with screen := { s.screen with
        positions := Vector.ofFn fun p =>
          if boundTo s.configuration k p = true then shows (faultNotice k.val) s.screen.positions[p]
          else s.screen.positions[p] } } := by
    intro x h1 h2
    simp only [notice, h1, h2]
    rfl
  cases hst : s.passbook.printers[k].state <;>
    simp only [reopenPrinter, hst, reopened, hset, reduceCtorEq, ne_eq, not_true_eq_false,
      not_false_eq_true, false_and, and_false, true_and, if_false, hid, hid2, noticeIfPrinting, if_true,
      and_self]
  all_goals (try exact hr)
  rw [hno _ (by rw [hr]; rfl) (by rw [hr]), hr]

/-- The state with the printers of a list reopened. -/
def reopenedAll (s : State) (l : List (Fin 4)) : State :=
  { s with
    passbook := { s.passbook with
      printers := Vector.ofFn fun k =>
        if k ∈ l then reopened s.configuration s.passbook.printers[k] k else s.passbook.printers[k] }
    lines := Vector.ofFn fun port =>
      if (∃ k ∈ l, (s.passbook.printers[k].state ≠ .idle ∧ s.passbook.printers[k].state ≠ .fault) ∧
        s.configuration.printerPort k = some port) then [printerFrame 0x05 []] else s.lines[port]
    screen := { s.screen with
      positions := Vector.ofFn fun p =>
        if (∃ k ∈ l, s.passbook.printers[k].state = .printing ∧ boundTo s.configuration k p = true) then
          shows (faultNotice s.configuration.positions[p].printer) s.screen.positions[p]
        else s.screen.positions[p] } }

/-- A list of elements changed one after the other, none twice, is the list changed at once. -/
theorem printers_step (v : Vector Printer 4) (r : Printer → Fin 4 → Printer) (a : Fin 4) (l : List (Fin 4))
    (h : a ∉ l) :
    (Vector.ofFn fun k => if k ∈ l then r (v.set a (r v[a] a))[k] k else (v.set a (r v[a] a))[k]) =
      Vector.ofFn fun k => if k ∈ a :: l then r v[k] k else v[k] := by
  ext1 i hi
  simp only [Vector.getElem_ofFn]
  by_cases h1 : (⟨i, hi⟩ : Fin 4) = a
  · subst h1
    rw [if_neg h, if_pos List.mem_cons_self]; simp
  · rw [getElem_set_ne v a ⟨i, hi⟩ _ h1]
    simp only [List.mem_cons, h1, false_or]

/-- Cells that several printers change in the same way, one printer after the other or at once. -/
theorem cells_step {α : Type} {n : Nat} (w : Vector α n) (q q' : Fin 4 → Fin n → Prop)
    [∀ k p, Decidable (q k p)] [∀ k p, Decidable (q' k p)] (u u' : Fin n → α → α) (a : Fin 4)
    (l : List (Fin 4)) (hq : ∀ k ∈ l, ∀ p, q' k p ↔ q k p) (hm : ∀ p x, q a p → u' p x = u p x)
    (hu : ∀ p x, u p (u p x) = u p x) :
    (Vector.ofFn fun p =>
        if (∃ k ∈ l, q' k p) then u p (Vector.ofFn fun p => if q a p then u' p w[p] else w[p])[p]
        else (Vector.ofFn fun p => if q a p then u' p w[p] else w[p])[p]) =
      Vector.ofFn fun p => if (∃ k ∈ a :: l, q k p) then u p w[p] else w[p] := by
  ext1 i hi
  simp only [Vector.getElem_ofFn, Fin.getElem_fin, List.exists_mem_cons_iff]
  have : (∃ k ∈ l, q' k ⟨i, hi⟩) ↔ (∃ k ∈ l, q k ⟨i, hi⟩) :=
    ⟨fun ⟨k, h, h2⟩ => ⟨k, h, (hq k h _).mp h2⟩, fun ⟨k, h, h2⟩ => ⟨k, h, (hq k h _).mpr h2⟩⟩
  by_cases h1 : ∃ k ∈ l, q k ⟨i, hi⟩ <;> by_cases h2 : q a ⟨i, hi⟩ <;>
    simp only [this, h1, h2, if_true, if_false, true_or, or_true, or_self] <;> simp only [hm _ _ h2, hu]

/-- The printers at the opening of a day, as one update of the state (R150). -/
theorem foldl_reopen (l : List (Fin 4)) (hl : l.Nodup) (s : State) :
    l.foldl reopenPrinter s = reopenedAll s l := by
  induction l generalizing s with
  | nil =>
    have h1 : (Vector.ofFn fun port : Fin 6 => s.lines[port.val]) = s.lines := by ext1 i hi; simp
    have h2 : (Vector.ofFn fun p : Fin 16 => s.screen.positions[p.val]) = s.screen.positions := by
      ext1 i hi; simp
    have h3 : (Vector.ofFn fun k : Fin 4 => s.passbook.printers[k.val]) = s.passbook.printers := by
      ext1 i hi; simp
    simp [reopenedAll, h1, h2, h3]
  | cons a l ih =>
    rw [List.foldl_cons, ih (List.nodup_cons.mp hl).2, reopenPrinter_parts]
    have hna := (List.nodup_cons.mp hl).1
    unfold reopenedAll
    have hconf : ∀ (b : Passbook) (x : Vector (List (List Byte)) 6) (y : Screen),
        ({ s with passbook := b, lines := x, screen := y } : State).configuration = s.configuration :=
      fun _ _ _ => rfl
    simp only [hconf]
    let v := s.passbook.printers
    let v' := v.set a (reopened s.configuration v[a] a)
    have hg : ∀ k : Fin 4, k ∈ l → v'[k] = v[k] := fun k hk =>
      getElem_set_ne _ _ _ _ fun e => hna (e ▸ hk)
    have e1 := printers_step v (reopened s.configuration) a l hna
    have e2 := cells_step s.lines
      (fun k port => (v[k].state ≠ .idle ∧ v[k].state ≠ .fault) ∧ s.configuration.printerPort k = some port)
      (fun k port => (v'[k].state ≠ .idle ∧ v'[k].state ≠ .fault) ∧ s.configuration.printerPort k = some port)
      (fun _ _ => [printerFrame 0x05 []]) (fun _ _ => [printerFrame 0x05 []]) a l
      (fun k hk p => by rw [hg k hk]) (fun _ _ _ => rfl) (fun _ _ => rfl)
    have e3 := cells_step s.screen.positions
      (fun k p => v[k].state = .printing ∧ boundTo s.configuration k p = true)
      (fun k p => v'[k].state = .printing ∧ boundTo s.configuration k p = true)
      (fun p => shows (faultNotice s.configuration.positions[p].printer)) (fun p => shows (faultNotice a.val))
      a l (fun k hk p => by rw [hg k hk])
      (fun p x h => by
        have := h.2
        simp only [boundTo, Bool.and_eq_true, beq_iff_eq] at this
        rw [this.2])
      (fun _ _ => rfl)
    have hmk : ∀ (p1 p2 : Vector Printer 4) (l1 l2 : Vector (List (List Byte)) 6)
        (q1 q2 : Vector Position 16), p1 = p2 → l1 = l2 → q1 = q2 →
        ({ s with
          passbook := { s.passbook with printers := p1 }
          lines := l1
          screen := { s.screen with positions := q1 } } : State) =
        { s with
          passbook := { s.passbook with printers := p2 }
          lines := l2
          screen := { s.screen with positions := q2 } } := by
      rintro _ _ _ _ _ _ rfl rfl rfl; rfl
    exact hmk _ _ _ _ _ _ e1 e2 e3

/-- The opening event: every block at its start, DAY_OPEN, and the completion (R113, R170). -/
theorem dayOpens_eq (s : State) (date time : Nat) (record : Option (Fin 2)) :
    let bytes := record.map (copyBytes s)
    let settled := (bytes.map recordSettled).getD 0
    let start := (bytes.map recordStart).getD 0 % ringSize s
    dayOpens s date time record =
      complete
        (dayControlEntry (dayOpened s date time (record.getD 0) settled start (carriedCounts bytes))
          (dayOpenEntry record.isNone (takenTag s) date settled start (ringSize s))) .done
        (match record with | none => 2 | some copy => copy.val) := by
  intro bytes settled start
  unfold dayOpens
  dsimp only
  rw [foldl_reopen _ (List.nodup_finRange 4)]
  congr 2
  have e1 : ∀ (c : Configuration) (v : Vector Printer 4),
      (Vector.ofFn fun k : Fin 4 => if k ∈ List.finRange 4 then reopened c v[k] k else v[k]) =
        Vector.ofFn fun k : Fin 4 => if v[k].state ≠ .idle ∧ v[k].state ≠ .fault then
          (if c.printerPort k = none then barePrinter .idle
           else { barePrinter .fault with awaited := some .reset }) else v[k] := by
    intro c v; ext1 i hi; simp only [Vector.getElem_ofFn, List.mem_finRange, if_true]; rfl
  have e2 : ∀ (c : Configuration) (v : Vector Printer 4) (w : Vector (List (List Byte)) 6),
      (Vector.ofFn fun port =>
        if (∃ k ∈ List.finRange 4, (v[k].state ≠ .idle ∧ v[k].state ≠ .fault) ∧
          c.printerPort k = some port) then [printerFrame 0x05 []] else w[port]) =
        Vector.ofFn fun port =>
          if (∃ k : Fin 4, (v[k].state ≠ .idle ∧ v[k].state ≠ .fault) ∧ c.printerPort k = some port)
          then [printerFrame 0x05 []] else w[port] := by
    intro c v w; ext1 i hi; simp only [Vector.getElem_ofFn, List.mem_finRange, true_and]
  have e3 : ∀ (c : Configuration) (v : Vector Printer 4) (w : Vector Position 16)
      (u : Fin 16 → Position → Position),
      (Vector.ofFn fun p =>
        if (∃ k ∈ List.finRange 4, v[k].state = .printing ∧ boundTo c k p = true) then u p w[p] else w[p]) =
        Vector.ofFn fun p =>
          if (∃ k : Fin 4, v[k].state = .printing ∧ c.positions[p].enabled = 1 ∧
            c.positions[p].printer = k.val) then u p w[p] else w[p] := by
    intro c v w u; ext1 i hi
    simp only [Vector.getElem_ofFn, List.mem_finRange, true_and, boundTo, Configuration.positionEnabled,
      Bool.and_eq_true, beq_iff_eq]
  have hmk : ∀ (x : State) (p1 p2 : Vector Printer 4) (l1 l2 : Vector (List (List Byte)) 6)
      (q1 q2 : Vector Position 16), p1 = p2 → l1 = l2 → q1 = q2 →
      ({ x with
        passbook := { x.passbook with printers := p1 }
        lines := l1
        screen := { x.screen with positions := q1 } } : State) =
      { x with
        passbook := { x.passbook with printers := p2 }
        lines := l2
        screen := { x.screen with positions := q2 } } := by
    rintro _ _ _ _ _ _ _ rfl rfl rfl; rfl
  exact hmk _ _ _ _ _ _ _ (e1 _ _) (e2 _ _ _)
    (e3 _ _ _ fun p => shows (faultNotice s.configuration.positions[p].printer))

/-! ### The end of a replay -/

/-- The drawers of a resumed day (R90, R91). -/
theorem resumedDrawers_eq (c : Configuration) (ds : Vector Drawer 17) :
    resumedDrawers c ds = Vector.ofFn fun h : Fin 17 =>
      let sensed := c.holderActive h = true ∧ ds[h].sense = some .opened
      { ds[h] with
        window := none, heldExpiry := false, forced := false,
        state := if sensed then .opened else .locked,
        limit := if sensed then some c.overdueSpan else none,
        settle := if c.holderActive h = true then ds[h].sense.isNone else ds[h].settle } := by
  unfold resumedDrawers
  congr 1; funext h
  simp only [settledDrawer, lockedDrawer]
  rcases hs : ds[h].sense with _ | ⟨_ | _⟩ <;> cases hc : c.holderActive h <;> simp_all

/-- RESUME_DAY's end, written out before the test of the move to SENDING and the completion (R178). -/
theorem resumeDay_eq (s : State) :
    let c := s.configuration
    let last := s.day.replay.last
    let state := if s.day.replay.state = .sending then DayState.suspended else s.day.replay.state
    let halted := state = .suspended ∨ state = .rejected
    let records := (examinedRecords c).length
    let plan := if halted then s.batch.plan.map fun p =>
        { p with records := records, blocks := 4 + (records + 3) / 4 + (p.last + 3) / 4 }
      else none
    let sensed (h : Fin 17) := c.holderActive h = true ∧ s.drawers[h].sense = some .opened
    let low := 10 * (c.size - last) ≤ c.size
    let noted := ∃ i : Fin 8, s.monitors.fired[i] = true ∧ c.monitors[i].action = 1
    let alerts := if low then addAlert s.control.alerts .journalLow else s.control.alerts
    resumeDay s = complete (testSending { s with
      journal := { s.journal with
        next := last + 1, chain := s.day.replay.chain, free := c.size - last, reservations := [],
        present := true }
      drawers := Vector.ofFn fun h => { s.drawers[h] with
        window := none, heldExpiry := false, forced := false,
        state := if sensed h then .opened else .locked,
        limit := if sensed h then some c.overdueSpan else none,
        settle := if c.holderActive h = true then s.drawers[h].sense.isNone else s.drawers[h].settle }
      posting := { s.posting with
        slots := Vector.ofFn fun n => { s.posting.slots[n] with
          state := if s.posting.slots[n].state = .done then .filling else s.posting.slots[n].state } }
      passbook := { s.passbook with items := rebuiltItems s.passbook.replay, replay := [] }
      batch := { resetBatch with state := if halted then .halted else .idle, plan := plan }
      day := { s.day with
        state := state, work := none, replay := resetReplay, records := Vector.replicate 2 ⟨[], false⟩ }
      control := { s.control with
        alerts := if noted then addAlert alerts .monitorFired else alerts } }) .done last := by
  intro c last state halted records plan sensed low noted alerts
  have hn : noteMonitorFired c s.monitors = decide noted := by
    simp only [noteMonitorFired, noted]
    rw [Bool.eq_iff_iff, List.any_eq_true]
    simp
  have hlo : journalLow s (ringSize s - s.day.replay.last) = decide low := rfl
  have hraise : ∀ (x : State) (b : Bool) a, raiseAlertIf x b a = { x with control := { x.control with
      alerts := if b = true then addAlert x.control.alerts a else x.control.alerts } } := by
    intro x b a; cases b <;> rfl
  have hba : resumedBatch c s.batch state =
      { resetBatch with state := if halted then .halted else .idle, plan := plan } := by
    simp only [resumedBatch, halted, plan, records]
    split <;> rfl
  have hsl : resumedSlots s.posting.slots = Vector.ofFn fun n => { s.posting.slots[n] with
      state := if s.posting.slots[n].state = .done then .filling else s.posting.slots[n].state } := by
    unfold resumedSlots
    congr 1; funext n
    split <;> rfl
  have hu : resumeDay s = complete (testSending (raiseAlertIf (raiseAlertIf { s with
      journal := { s.journal with
        next := s.day.replay.last + 1, chain := s.day.replay.chain,
        free := ringSize s - s.day.replay.last, reservations := [], present := true },
      drawers := resumedDrawers c s.drawers,
      posting := { s.posting with slots := resumedSlots s.posting.slots },
      passbook := { s.passbook with items := rebuiltItems s.passbook.replay, replay := [] },
      batch := resumedBatch c s.batch state,
      day := { s.day with
        state := state, work := none, replay := resetReplay, records := Vector.replicate 2 ⟨[], false⟩ } }
      (journalLow s (ringSize s - s.day.replay.last)) .journalLow)
      (noteMonitorFired c s.monitors) .monitorFired)) .done last := rfl
  rw [hu, hlo, hn, hraise, hraise, hba, hsl, resumedDrawers_eq]
  simp only [decide_eq_true_eq]
  rfl

theorem resumeDay_shifted (x : State) (j f) : resumeDay (shifted x j f) = shifted (resumeDay x) j f := by
  have raise : ∀ (x : State) b a, raiseAlertIf (shifted x j f) b a = shifted (raiseAlertIf x b a) j f := by
    intro x b a; cases b <;> rfl
  unfold resumeDay
  dsimp only
  rw [← complete_shifted, ← testSending_shifted, ← raise, ← raise]
  rfl

/-! ### A command taken, and the restart of a batch -/

/-- A command that is taken runs on the state in which it is taken (R192). -/
theorem grantCommand_eq {s : State} {addr : Nat} {mask : ByteMask} {data : Dword} {code : Nat}
    (h : CommandGiven s addr mask data code) :
    grantCommand s code = runCommand (commandTaken s addr mask data) code := by
  obtain ⟨⟨hr, hg, hb⟩, hreg, hw, hl, rfl⟩ := h
  have hbusy : s.control.busy = false := by
    have := hw
    simp only [writePasses, hreg, regionPasses, Bool.and_eq_true] at this
    simpa using this.2
  simp only [grantCommand, grantWriteWhen, grantedWrite, hg, hb, hreg, rowIsCommand, hl, hbusy,
    beq_self_eq_true, if_true, Bool.not_false, Bool.and_self, takeWrite, hw, capture, captureCommand]
  rfl

/-- A block that is ready goes out at once (R180, R181). -/
theorem composeBlock_payload (u : State) (b : Batch) (p : Plan) (n kind : Nat) (bytes : List Byte)
    (h : blockContent u p n = .payload kind bytes) :
    composeBlock u b p n =
      sendFrame
        (setBatch u { b with
          state := .awaitAck, current := n, kind := kind, buffer := bytes, retries := 0, ackWait := false,
          pause := false, finalWait := false })
        (u.configuration.headOfficePort b.port) (headOfficeFrame kind n bytes) := by
  unfold composeBlock; rw [h]; rfl

/-- An ENTRY block asks for its run (R119, R181). -/
theorem composeBlock_entries (u : State) (b : Batch) (p : Plan) (n a e : Nat)
    (h : blockContent u p n = .entries a e) :
    composeBlock u b p n = serveRuns
      { setBatch u { b with
          state := .composing, current := n, kind := 5, buffer := [], retries := 0, ackWait := false,
          pause := false, finalWait := false } with
        journal := { u.journal with
          runs := u.journal.runs ++
            [⟨.batch, a, some e, if a ≤ 1 then some 0xFFFFFFFF else none, journalUnitFree u⟩] } } := by
  unfold composeBlock; rw [h]; rfl

/-- A restarted batch begins with its block and journals BATCH_STARTED (R189). -/
theorem restartBatch_eq (t : State) (p : Plan) (n : Nat) (hp : t.batch.plan = some p) :
    restartBatch t n =
      dayControlEntry
        (composeBlock { t with day := { t.day with state := .sending } }
          { t.batch with port := .primary, retries := 0, cause := .none } p n)
        { kind := 16, ref := p.blocks } := by
  unfold restartBatch
  split <;> rename_i heq <;> rw [hp] at heq <;> cases heq
  rfl

end Sys2Proof.Machine
end

