-- ==== Sys2Proof/Laws/Exec.lean ====
section
/-! SUPPORT. Which body each command runs in the running part, by computation. -/

namespace Sys2Proof.Machine

theorem exec_hostWrite (s : State) :
    exec .hostWrite s = running s (fun s => grantWriteWhen s fun _ _ _ => true) := rfl

theorem exec_slotFieldWrite (s : State) :
    exec .slotFieldWrite s = running s (fun s => grantWriteWhen s rowIsSlotField) := rfl

theorem exec_commit (s : State) :
    exec .commit s = running s (fun s => grantWriteWhen s rowIsCommit) := rfl

theorem exec_screenRowWrite (s : State) :
    exec .screenRowWrite s = running s (fun s => grantWriteWhen s rowIsScreenRow) := rfl

theorem exec_consumerIndexWrite (s : State) :
    exec .consumerIndexWrite s = running s (fun s => grantWriteWhen s rowIsConsumer) := rfl

theorem exec_hostReadGrant (s : State) :
    exec .hostReadGrant s = running s grantRead := rfl

theorem exec_injectDrain (s : State) :
    exec .injectDrain s = running s drainHead := rfl

theorem exec_placeWaitingGroup (s : State) :
    exec .placeWaitingGroup s = running s placeWaiting := rfl

theorem exec_fetchGrant (s : State) :
    exec .fetchGrant s = running s (fun s => if nextGrant s.path == some .fetch then grantFetch s else s) := rfl

theorem exec_installWindowMap (s : State) :
    exec .installWindowMap s = running s (fun s =>
      match s.path.placement with
      | none => s
      | some c => if readIsHeld s.path then s else takeEffect s c) := rfl

theorem exec_judgingEvent (s : State) :
    exec .judgingEvent s = running s judgeHead := rfl

theorem exec_ringPositionAnswer (s : State) :
    exec .ringPositionAnswer s = running s answerPositions := rfl

theorem exec_sensedOpen (h : Fin 17) (s : State) :
    exec (.sensedOpen h) s = running s (fun s =>
      if sampleCompletes s h .opened = .sensed .opened then takeSample s h .opened else s) := rfl

theorem exec_sensedClosed (h : Fin 17) (s : State) :
    exec (.sensedClosed h) s = running s (fun s =>
      if sampleCompletes s h .closed = .sensed .closed then takeSample s h .closed else s) := rfl

theorem exec_senseSettle (h : Fin 17) (level : Sense) (s : State) :
    exec (.senseSettle h level) s = running s (fun s =>
      if s.drawers[h].settle ∧ sampleCompletes s h level = .determined level then takeSample s h level
      else s) := rfl

theorem exec_releaseWindowExpiry (h : Fin 17) (s : State) :
    exec (.releaseWindowExpiry h) s = running s (fun s => expireWindow s h) := rfl

theorem exec_heldExpiryTaken (h : Fin 17) (s : State) :
    exec (.heldExpiryTaken h) s = running s (fun s => if s.drawers[h].heldExpiry then takeSample s h .closed else s) := rfl

theorem exec_overdueLimitExpiry (h : Fin 17) (s : State) :
    exec (.overdueLimitExpiry h) s = running s (fun s => expireLimit s h) := rfl

theorem exec_tick (s : State) :
    exec .tick s = running s takeTick := rfl

theorem exec_applyConfig (s : State) :
    exec .applyConfig s = running s (fun s => grantCommand s 1) := rfl

theorem exec_configImageFetched (s : State) :
    exec .configImageFetched s = running s takeImage := rfl

theorem exec_openDay (s : State) :
    exec .openDay s = running s (fun s => grantCommand s 2) := rfl

theorem exec_carryRecordFetched (s : State) :
    exec .carryRecordFetched s = running s takeRecords := rfl

theorem exec_freshDayOpens (s : State) :
    exec .freshDayOpens s = running s takeFreshDay := rfl

theorem exec_resumeDay (s : State) :
    exec .resumeDay s = running s (fun s => grantCommand s 3) := rfl

theorem exec_journalRunEntry (s : State) :
    exec .journalRunEntry s = running s takeRunEntry := rfl

theorem exec_setTime (s : State) :
    exec .setTime s = running s (fun s => grantCommand s 4) := rfl

theorem exec_closeDay (s : State) :
    exec .closeDay s = running s (fun s => grantCommand s 5) := rfl

theorem exec_forceBalance (s : State) :
    exec .forceBalance s = running s (fun s => grantCommand s 6) := rfl

theorem exec_releaseDrawer (s : State) :
    exec .releaseDrawer s = running s (fun s => grantCommand s 7) := rfl

theorem exec_releaseHold (s : State) :
    exec .releaseHold s = running s (fun s => grantCommand s 8) := rfl

theorem exec_clearMonitor (s : State) :
    exec .clearMonitor s = running s (fun s => grantCommand s 9) := rfl

theorem exec_resumeBatch (s : State) :
    exec .resumeBatch s = running s (fun s => grantCommand s 10) := rfl

theorem exec_resendBatch (s : State) :
    exec .resendBatch s = running s (fun s => grantCommand s 11) := rfl

theorem exec_startLearn (s : State) :
    exec .startLearn s = running s (fun s => grantCommand s 12) := rfl

theorem exec_endLearn (s : State) :
    exec .endLearn s = running s (fun s => grantCommand s 13) := rfl

theorem exec_checkJournal (s : State) :
    exec .checkJournal s = running s (fun s => grantCommand s 14) := rfl

theorem exec_checkTotals (s : State) :
    exec .checkTotals s = running s (fun s => grantCommand s 15) := rfl

theorem exec_checkLine (s : State) :
    exec .checkLine s = running s (fun s => grantCommand s 16) := rfl

theorem exec_clearAlerts (s : State) :
    exec .clearAlerts s = running s (fun s => grantCommand s 17) := rfl

theorem exec_badCommandCode (s : State) :
    exec .badCommandCode s = running s (fun s =>
      grantWriteWhen s (rowIsCommand s fun k => k == 0 || decide (17 < k))) := rfl

theorem exec_cycleStart (d : Fin 2) (s : State) :
    exec (.cycleStart d) s = running s (fun s => startCycle s d) := rfl

theorem exec_rowSend (d : Fin 2) (s : State) :
    exec (.rowSend d) s = running s (fun s => sendRow s d) := rfl

theorem exec_dropFrameSent (d : Fin 2) (s : State) :
    exec (.dropFrameSent d) s = running s (fun s => dropSent s d) := rfl

theorem exec_dropReply (d : Fin 2) (frame : List Byte) (s : State) :
    exec (.dropReply d frame) s = running s (fun s => receiveDrop s d frame) := rfl

theorem exec_dropReplyTimeout (d : Fin 2) (late : ReplyTimeout) (s : State) :
    exec (.dropReplyTimeout d late) s = running s (fun s => expireReply s d late) := rfl

theorem exec_learnRepeatExpiry (d : Fin 2) (s : State) :
    exec (.learnRepeatExpiry d) s = running s (fun s => repeatAssign s d) := rfl

theorem exec_bookIn (k : Fin 4) (frame : List Byte) (s : State) :
    exec (.bookIn k frame) s = running s (fun s => if printerHears s k frame 0x10 then takeBookIn s k frame else s) := rfl

theorem exec_bookOut (k : Fin 4) (frame : List Byte) (s : State) :
    exec (.bookOut k frame) s = running s (fun s => if printerHears s k frame 0x11 then takeBookOut s k else s) := rfl

theorem exec_lineDone (k : Fin 4) (frame : List Byte) (s : State) :
    exec (.lineDone k frame) s = running s (fun s => if printerHears s k frame 0x12 then takeLineDone s k else s) := rfl

theorem exec_ready (k : Fin 4) (frame : List Byte) (s : State) :
    exec (.ready k frame) s = running s (fun s => if printerHears s k frame 0x13 then takeReady s k else s) := rfl

theorem exec_printerAck (k : Fin 4) (frame : List Byte) (s : State) :
    exec (.printerAck k frame) s = running s (fun s => if printerHears s k frame 0x14 then takeAck s k else s) := rfl

theorem exec_printerNak (k : Fin 4) (frame : List Byte) (s : State) :
    exec (.printerNak k frame) s = running s (fun s =>
      if printerHears s k frame 0x15 || !printerFrameValid frame then takeFailure s k else s) := rfl

theorem exec_printerReplyTimeout (k : Fin 4) (s : State) :
    exec (.printerReplyTimeout k) s = running s (fun s => takeFailure s k) := rfl

theorem exec_lineDoneTimeout (k : Fin 4) (s : State) :
    exec (.lineDoneTimeout k) s = running s (fun s => expireLine s k) := rfl

theorem exec_pageTurnTimeout (k : Fin 4) (s : State) :
    exec (.pageTurnTimeout k) s = running s (fun s => expireTurn s k) := rfl

theorem exec_hoFrameSent (port : HoPort) (s : State) :
    exec (.hoFrameSent port) s = running s (fun s => hoSent s port) := rfl

theorem exec_hoAck (port : HoPort) (frame : List Byte) (s : State) :
    exec (.hoAck port frame) s = running s (fun s => takeHoAck s port frame) := rfl

theorem exec_hoNak (port : HoPort) (frame : List Byte) (s : State) :
    exec (.hoNak port frame) s = running s (fun s => takeHoNak s port frame) := rfl

theorem exec_hoWait (port : HoPort) (frame : List Byte) (s : State) :
    exec (.hoWait port frame) s = running s (fun s => takeHoWait s port frame) := rfl

theorem exec_hoFinal (port : HoPort) (frame : List Byte) (s : State) :
    exec (.hoFinal port frame) s = running s (fun s => takeHoFinal s port frame) := rfl

theorem exec_hoInvalidFrame (port : HoPort) (frame : List Byte) (s : State) :
    exec (.hoInvalidFrame port frame) s = running s (fun s => s) := rfl

theorem exec_ackWaitExpiry (s : State) :
    exec .ackWaitExpiry s = running s expireAck := rfl

theorem exec_waitPauseExpiry (s : State) :
    exec .waitPauseExpiry s = running s expirePause := rfl

theorem exec_finalWaitExpiry (s : State) :
    exec .finalWaitExpiry s = running s expireFinal := rfl

theorem exec_settlementWriteDone (s : State) :
    exec .settlementWriteDone s = running s takeSettlementDone := rfl

theorem exec_drawerSenseSample (h : Fin 17) (level : Sense) (s : State) :
    exec (.drawerSenseSample h level) s = running s (fun s => takeSample s h level) := rfl

theorem exec_printerInvalidFrame (k : Fin 4) (frame : List Byte) (s : State) :
    exec (.printerInvalidFrame k frame) s = running s (fun s => s) := rfl

end Sys2Proof.Machine
end

