-- ==== Sys2Proof/Laws/Memory.lean ====
section
/-! SUPPORT. Memory keeps its canonical form, and a write is read back (R1, R2). -/

namespace Sys2Proof.Machine

theorem sortedFrom_mono {lo lo' : Nat} {mem : List Host.Cell} (h : lo' ≤ lo)
    (hm : Memory.sortedFrom lo mem = true) : Memory.sortedFrom lo' mem = true := by
  cases mem with
  | nil => rfl
  | cons c rest =>
    obtain ⟨a, b⟩ := c
    simp only [Memory.sortedFrom, Bool.and_eq_true, decide_eq_true_eq] at hm ⊢
    exact ⟨⟨by omega, hm.1.2⟩, hm.2⟩

/-- A write keeps the canonical form. -/
theorem sortedFrom_write {lo addr : Nat} {mem : List Host.Cell} (v : Byte) (h : lo ≤ addr)
    (hm : Memory.sortedFrom lo mem = true) : Memory.sortedFrom lo (Memory.write mem addr v) = true := by
  induction mem generalizing lo with
  | nil =>
    unfold Memory.write
    split
    · rfl
    · simp_all [Memory.sortedFrom]
  | cons c rest ih =>
    obtain ⟨a, b⟩ := c
    unfold Memory.write
    simp only [Memory.sortedFrom, Bool.and_eq_true, decide_eq_true_eq] at hm
    split
    · split
      · simp only [Memory.sortedFrom, Bool.and_eq_true, decide_eq_true_eq]; exact hm
      · simp only [Memory.sortedFrom, Bool.and_eq_true, decide_eq_true_eq, bne_iff_ne]
        exact ⟨⟨h, by assumption⟩, ⟨⟨by omega, by simpa using hm.1.2⟩, hm.2⟩⟩
    · split
      · split
        · exact sortedFrom_mono (by omega) hm.2
        · simp only [Memory.sortedFrom, Bool.and_eq_true, decide_eq_true_eq, bne_iff_ne]
          exact ⟨⟨hm.1.1, by assumption⟩, hm.2⟩
      · simp only [Memory.sortedFrom, Bool.and_eq_true, decide_eq_true_eq]
        exact ⟨hm.1, ih (by omega) hm.2⟩

theorem wf_write {mem : List Host.Cell} (addr : Nat) (v : Byte) (hm : Memory.wf mem = true) :
    Memory.wf (Memory.write mem addr v) = true := sortedFrom_write v (Nat.zero_le _) hm

/-- A write transaction keeps the canonical form. -/
theorem wf_writeDword {mem : List Host.Cell} (addr : Nat) (mask : ByteMask) (data : Dword)
    (hm : Memory.wf mem = true) : Memory.wf (Memory.writeDword mem addr mask data) = true := by
  unfold Memory.writeDword
  generalize List.range 8 = l
  induction l generalizing mem with
  | nil => exact hm
  | cons i l ih =>
    rw [List.foldl_cons]
    apply ih
    split
    · exact wf_write _ _ hm
    · exact hm

theorem read_below {lo addr : Nat} {mem : List Host.Cell} (hm : Memory.sortedFrom lo mem = true)
    (h : addr < lo) : Memory.read mem addr = unlistedByte := by
  cases mem with
  | nil => rfl
  | cons c rest =>
    obtain ⟨a, b⟩ := c
    simp only [Memory.sortedFrom, Bool.and_eq_true, decide_eq_true_eq] at hm
    rw [Memory.read, if_pos (by omega)]

theorem read_write_from {lo : Nat} {mem : List Host.Cell} (addr a : Nat) (v : Byte)
    (hm : Memory.sortedFrom lo mem = true) :
    Memory.read (Memory.write mem addr v) a = if a = addr then v else Memory.read mem a := by
  induction mem generalizing lo with
  | nil =>
    unfold Memory.write
    split
    · rename_i hv; by_cases ha : a = addr <;> simp [Memory.read, ha, hv]
    · by_cases ha : a = addr
      · simp [Memory.read, ha]
      · by_cases hl : a < addr <;> simp [Memory.read, ha, hl]
  | cons c rest ih =>
    obtain ⟨x, b⟩ := c
    simp only [Memory.sortedFrom, Bool.and_eq_true, decide_eq_true_eq] at hm
    unfold Memory.write
    split
    · rename_i hx
      split
      · rename_i hv
        by_cases ha : a = addr
        · subst ha; simp [Memory.read, hx, hv]
        · rw [if_neg ha]
      · by_cases ha : a = addr
        · simp [Memory.read, ha]
        · by_cases hl : a < addr
          · simp [Memory.read, ha, hl, Nat.lt_trans hl hx]
          · rw [Memory.read, if_neg hl, if_neg ha]
    · rename_i hx
      split
      · rename_i he
        subst he
        split
        · rename_i hv
          by_cases ha : a = addr
          · subst ha; rw [if_pos rfl, hv]; exact read_below hm.2 (by omega)
          · rw [if_neg ha]
            by_cases hl : a < addr
            · rw [Memory.read, if_pos hl]; exact read_below hm.2 (by omega)
            · rw [Memory.read.eq_def ((addr, b) :: rest) a]
              simp [hl, ha]
        · by_cases ha : a = addr
          · simp [Memory.read, ha]
          · by_cases hl : a < addr <;> simp [Memory.read, ha, hl]
      · rename_i he
        rw [Memory.read, Memory.read]
        by_cases hl : a < x
        · rw [if_pos hl, if_pos hl, if_neg (by omega)]
        · rw [if_neg hl, if_neg hl]
          by_cases hax : a = x
          · rw [if_pos hax, if_pos hax, if_neg (by omega)]
          · rw [if_neg hax, if_neg hax]; exact ih hm.2

/-- What is written is read back, and every other byte reads as before. -/
theorem read_write {mem : List Host.Cell} (addr a : Nat) (v : Byte) (hm : Memory.wf mem = true) :
    Memory.read (Memory.write mem addr v) a = if a = addr then v else Memory.read mem a :=
  read_write_from addr a v hm

end Sys2Proof.Machine
end

