-- ==== Sys2Proof/Laws/Mirror.lean ====
section
/-! SUPPORT. What the end of a step does with the dirty doublewords of the Mirror and of the status rows, and what
a configuration that takes effect puts in those sets (R14, R136, R137, R199, R200). -/

namespace Sys2Proof.Machine

/-! ### A mirror-class hand-over -/

/-- What each step of a fold keeps, the fold keeps. -/
theorem foldl_holds {α β : Type} (f : β → α → β) (P : β → Prop) (l : List α)
    (hf : ∀ b, ∀ a ∈ l, P b → P (f b a)) (b : β) (h : P b) : P (l.foldl f b) := by
  induction l generalizing b with
  | nil => exact h
  | cons a l ih => exact ih (fun b x hx => hf b x (List.mem_cons_of_mem _ hx)) _ (hf _ _ List.mem_cons_self h)

/-- An entry of mirror class stands in the Inject Queue at an address. -/
def mirrorEntry (p : Path) (addr : Nat) (good : Dword → Prop) : Prop :=
  ∃ e ∈ p.queue, e.cls = .mirror ∧ e.addr = addr ∧ good e.data

/-- A mirror-class write that is taken stands in the queue (R14). -/
theorem mirrorWrite_taken (p : Path) (addr : Nat) (data : Dword) (h : (mirrorWrite p addr data).2 = true) :
    mirrorEntry (mirrorWrite p addr data).1 addr (· = data) := by
  unfold mirrorWrite at h ⊢
  split
  · rename_i hq
    rw [List.any_eq_true] at hq
    obtain ⟨e, he, hm⟩ := hq
    exact ⟨{ e with data := data }, List.mem_map.mpr ⟨e, he, if_pos hm⟩, by simp_all, by simp_all, rfl⟩
  · split
    · exact ⟨⟨addr, data, .mirror⟩, by simp, rfl, rfl, rfl⟩
    · rename_i h1 h2; simp [h1, h2] at h

/-- A mirror-class write keeps the entries at other addresses (R14). -/
theorem mirrorWrite_keeps (p : Path) (addr other : Nat) (data : Dword) (good : Dword → Prop)
    (h : mirrorEntry p other good) (hd : addr = other → good data) :
    mirrorEntry (mirrorWrite p addr data).1 other good := by
  obtain ⟨e, he, hc, ha, hg⟩ := h
  unfold mirrorWrite
  split
  · by_cases hm : addr = other
    · exact ⟨{ e with data := data }, List.mem_map.mpr ⟨e, he, if_pos (by simp [hc, ha, hm])⟩, hc, ha,
        hd hm⟩
    · exact ⟨e, List.mem_map.mpr ⟨e, he, if_neg (by simp [hc, ha, Ne.symm hm])⟩, hc, ha, hg⟩
  · split
    · exact ⟨e, by simp [he], hc, ha, hg⟩
    · exact ⟨e, he, hc, ha, hg⟩

/-! ### What is shown depends on the books alone -/

theorem mirrorFields_books (s : State) (k : Nat) : mirrorFields (books s) k = mirrorFields s k := by
  have hq : (books s).screen.positions.toList.map (fun q => (1, q.state.code)) =
      s.screen.positions.toList.map fun q => (1, q.state.code) := by
    simp only [books, Vector.toList_map, List.map_map]; rfl
  have hp : ∀ k, partFields (books s) k = partFields s k := by
    intro k
    unfold partFields
    split <;> first
      | rfl
      | (simp only [List.map_take, hq]; done)
      | (simp only [List.map_drop, hq])
  have hm : ∀ m, monitorFields (books s) m = monitorFields s m := fun _ => rfl
  have hh : ∀ h j, holderFields (books s) h j = holderFields s h j := fun _ _ => rfl
  have ht : (books s).totals = s.totals := rfl
  simp only [mirrorFields, hp, hm, hh, ht]

theorem composeRow_books (s : State) (p : Fin 16) : composeRow (books s) p = composeRow s p := by
  unfold composeRow
  have : (books s).screen.positions[p].message = s.screen.positions[p].message := by
    simp [books, keptPosition]
  rw [this]; rfl

theorem mirrorFields_of_view {s t : State} (h : view s = view t) (k : Nat) :
    mirrorFields s k = mirrorFields t k := by
  rw [← mirrorFields_books s, ← mirrorFields_books t]; exact congrArg (mirrorFields · k) (congrArg Prod.fst h)

theorem composeRow_of_view {s t : State} (h : view s = view t) (p : Fin 16) : composeRow s p = composeRow t p := by
  rw [← composeRow_books s, ← composeRow_books t]; exact congrArg (composeRow · p) (congrArg Prod.fst h)

theorem windows_of_view {s t : State} (h : view s = view t) : s.path.windows = t.path.windows :=
  congrArg (fun v => v.1.path.windows) h

/-! ### The Mirror -/

/-- A Mirror doubleword is dirty, or stands in the Inject Queue with its figures. -/
def mirrorHandled (s : State) (k : Nat) : Prop :=
  s.control.mirrorDirty.getLsbD k = true ∨
    mirrorEntry s.path (windowBase s 4 + 8 * k) (· = dwordOfFields (mirrorFields s k))

theorem handMirrorDword_handled (s : State) (i k : Nat) (hk : k < 1024) (h : mirrorHandled s k) :
    mirrorHandled (handMirrorDword s i) k := by
  have hv := view_handMirrorDword s i
  have hw : windowBase (handMirrorDword s i) 4 = windowBase s 4 := by
    unfold windowBase; rw [windows_of_view hv]
  unfold mirrorHandled
  rw [hw, mirrorFields_of_view hv]
  unfold handMirrorDword
  split
  · exact h
  · dsimp only
    split
    · rename_i ht
      by_cases hi : i = k
      · subst hi
        exact .inr (mirrorWrite_taken _ _ _ ht)
      · rcases h with h | h
        · left
          simp [h, hk, Ne.symm hi]
        · exact .inr (mirrorWrite_keeps _ _ _ _ _ h fun e => absurd (by omega) hi)
    · exact h

theorem flushMirror_handled (s : State) (k : Nat) (hk : k < 1024) (h : mirrorHandled s k) :
    mirrorHandled (flushMirror s) k := by
  unfold flushMirror
  split
  · exact h
  · exact foldl_holds _ (mirrorHandled · k) _ (fun s i _ h => handMirrorDword_handled s i k hk h) _ h

/-! ### The status rows -/

/-- The status rows' addresses of two doublewords are alike for the same doubleword alone. -/
theorem rowImageAddress_inj {s : State} {p q : Fin 16} {i j : Nat} (hi : i < 20) (hj : j < 20)
    (h : rowImageAddress s p i = rowImageAddress s q j) : p = q ∧ i = j := by
  unfold rowImageAddress at h
  exact ⟨Fin.ext (by omega), by omega⟩

/-- A doubleword of a status row is dirty, or stands in the Inject Queue with its cells. -/
def rowHandled (s : State) (p : Fin 16) (j : Nat) : Prop :=
  s.screen.positions[p].imageDirty.getLsbD j = true ∨
    mirrorEntry s.path (rowImageAddress s p j) (· = rowDword s.screen.positions[p] j)

/-- A hand-over of a row's doubleword keeps every composition. -/
theorem handRowDword_composition (s : State) (q p : Fin 16) (i : Nat) :
    (handRowDword s q i).screen.positions[p].composition = s.screen.positions[p].composition := by
  unfold handRowDword
  dsimp only
  split
  · rfl
  · split
    · by_cases h : q = p
      · subst h; simp
      · have : ¬ q.val = p.val := fun e => h (Fin.ext e)
        simp [this]
    · rfl

theorem rowDword_congr {q r : Position} (h : q.composition = r.composition) (j : Nat) :
    rowDword q j = rowDword r j := by
  unfold rowDword; rw [h]

theorem handRowDword_handled (s : State) (q p : Fin 16) (i j : Nat) (hi : i < 20) (hj : j < 20)
    (h : rowHandled s p j) : rowHandled (handRowDword s q i) p j := by
  have hv := view_handRowDword s q i
  have hw : rowImageAddress (handRowDword s q i) p j = rowImageAddress s p j := by
    unfold rowImageAddress; rw [windows_of_view hv]
  unfold rowHandled
  rw [hw, rowDword_congr (handRowDword_composition s q p i)]
  unfold handRowDword
  dsimp only
  split
  · exact h
  · split
    · rename_i ht
      by_cases hqi : q = p ∧ i = j
      · obtain ⟨rfl, rfl⟩ := hqi
        exact .inr (mirrorWrite_taken _ _ _ ht)
      · rcases h with h | h
        · left
          by_cases hq : q = p
          · subst hq
            have hne : i ≠ j := fun e => hqi ⟨rfl, e⟩
            simp [Fin.getElem_fin] at h ⊢
            simp [h, hj]
            exact .inr hne
          · have : ¬ q.val = p.val := fun e => hq (Fin.ext e)
            simpa [this] using h
        · exact .inr (mirrorWrite_keeps _ _ _ _ _ h fun e => absurd (rowImageAddress_inj hi hj e) hqi)
    · exact h

/-- What every hand-over of a row's doubleword keeps, handing over the rows keeps. -/
theorem flushRows_holds (P : State → Prop)
    (hf : ∀ s (q : Fin 16) (i : Nat), i < 20 → P s → P (handRowDword s q i)) (s : State) (h : P s) :
    P (flushRows s) := by
  unfold flushRows
  split
  · exact h
  · refine foldl_holds _ P _ (fun s q _ h => ?_) _ h
    split
    · exact h
    · exact foldl_holds _ P _ (fun s i hi h => hf s q i (List.mem_range.mp hi) h) _ h

theorem flushRows_rowHandled (s : State) (p : Fin 16) (j : Nat) (hj : j < 20) (h : rowHandled s p j) :
    rowHandled (flushRows s) p j :=
  flushRows_holds (rowHandled · p j) (fun s q i hi h => handRowDword_handled s q p i j hi hj h) s h

theorem flushRows_composition (s : State) (p : Fin 16) :
    (flushRows s).screen.positions[p].composition = s.screen.positions[p].composition :=
  flushRows_holds (fun t => t.screen.positions[p].composition = s.screen.positions[p].composition)
    (fun t q i _ h => (handRowDword_composition t q p i).trans h) s rfl

/-- A Mirror doubleword is dirty, or stands in the Inject Queue, with its figures where no status row stands at its
address. -/
def mirrorHandledBeside (s : State) (k : Nat) : Prop :=
  s.control.mirrorDirty.getLsbD k = true ∨
    mirrorEntry s.path (windowBase s 4 + 8 * k) fun d =>
      (∀ (p : Fin 16) (j : Nat), j < 20 → rowImageAddress s p j ≠ windowBase s 4 + 8 * k) →
        d = dwordOfFields (mirrorFields s k)

theorem handRowDword_mirrorHandled (s : State) (q : Fin 16) (i k : Nat) (hi : i < 20)
    (h : mirrorHandledBeside s k) : mirrorHandledBeside (handRowDword s q i) k := by
  have hv := view_handRowDword s q i
  have hw := windows_of_view hv
  have hr : ∀ p j, rowImageAddress (handRowDword s q i) p j = rowImageAddress s p j := by
    intro p j; unfold rowImageAddress; rw [hw]
  have hb : windowBase (handRowDword s q i) 4 = windowBase s 4 := by unfold windowBase; rw [hw]
  unfold mirrorHandledBeside
  simp only [hr, hb, mirrorFields_of_view hv]
  unfold handRowDword
  dsimp only
  split
  · exact h
  · split
    · rcases h with h | h
      · exact .inl h
      · exact .inr (mirrorWrite_keeps _ _ _ _ _ h fun e hn => absurd e (hn q i hi))
    · exact h

theorem flushRows_mirrorHandled (s : State) (k : Nat) (h : mirrorHandled s k) :
    mirrorHandledBeside (flushRows s) k :=
  flushRows_holds (mirrorHandledBeside · k) (fun s q i hi h => handRowDword_mirrorHandled s q i k hi h) s
    (h.imp_right fun ⟨e, he, hc, ha, hd⟩ => ⟨e, he, hc, ha, fun _ => hd⟩)

theorem flushMirror_positions (s : State) : (flushMirror s).screen = s.screen := by
  unfold flushMirror
  split
  · rfl
  · refine foldl_keeps handMirrorDword (·.screen) (fun s k => ?_) _ _
    unfold handMirrorDword
    split
    · rfl
    · dsimp only; split <;> rfl

/-! ### The step's end -/

/-- A Mirror doubleword that the step left dirty is dirty after it, or stands in the Inject Queue. -/
theorem conclude_mirror (before after : State) (k : Nat) (hk : k < 1024)
    (h : (pumpFetches 256 after).control.mirrorDirty.getLsbD k = true) :
    mirrorHandledBeside (conclude before after) k := by
  unfold conclude
  refine flushRows_mirrorHandled _ _ (flushMirror_handled _ _ hk (.inl ?_))
  show BitVec.getLsbD (_ ||| _) k = true
  rw [BitVec.getLsbD_or]
  show ((pumpFetches 256 after).control.mirrorDirty.getLsbD k || _) = true
  rw [h, Bool.true_or]


/-- What the Mirror, the drawers and the status rows take from a state, with the dirty sets. -/
def shownOf (s : State) :=
  (s.path.windows, s.control.config, s.control.mirrorDirty, s.drawers,
    s.screen.positions.map fun q => (q.imageDirty, q.composition))

theorem shownOf_handGroup (s : State) (g : Group) : shownOf (handGroup s g) = shownOf s := by
  have hc : ∀ (p : Producer) (c : Control), (controlPlaced c p).config = c.config ∧
      (controlPlaced c p).mirrorDirty = c.mirrorDirty := by
    intro p c
    cases p <;> try exact ⟨rfl, rfl⟩
    rename_i b
    cases b <;> exact ⟨rfl, rfl⟩
  unfold handGroup shownOf
  dsimp only
  split <;> simp [hc, placeWrites]

theorem shownOf_handGroups (s : State) (gs : List Group) : shownOf (handGroups s gs) = shownOf s :=
  foldl_keeps handGroup shownOf shownOf_handGroup gs s

theorem shownOf_complete (s : State) (status : Status) (detail : Nat) :
    shownOf (complete s status detail) = shownOf s := shownOf_handGroup _ _

theorem shownOf_writeEntry (s : State) (f : EntryFields) (b : Bool) : shownOf (writeEntry s f b) = shownOf s :=
  shownOf_handGroup _ _

theorem shownOf_eventEntry (s : State) (f : EntryFields) : shownOf (eventEntry s f) = shownOf s := by
  unfold eventEntry
  split
  · rfl
  · split
    · exact shownOf_writeEntry _ _ _
    · rfl

theorem shownOf_redeemEntry (s : State) (k : Fin 4) (f : EntryFields) :
    shownOf (redeemEntry s k f) = shownOf s := by
  unfold redeemEntry
  split
  · dsimp only
    split
    · exact shownOf_writeEntry _ _ _
    · rfl
  · exact shownOf_eventEntry _ _

theorem shownOf_interruptLine (s : State) (k : Fin 4) (b : Bool) : shownOf (interruptLine s k b) = shownOf s := by
  unfold interruptLine
  dsimp only
  split
  · exact shownOf_redeemEntry _ _ _
  · rfl

theorem shownOf_endJobs (s : State) : shownOf (endJobs s) = shownOf s :=
  foldl_keeps (fun s k => interruptLine s k true) shownOf (fun s k => shownOf_interruptLine s k true) _ s

theorem shownOf_restartPrinter (s : State) (k : Fin 4) : shownOf (restartPrinter s k) = shownOf s := by
  unfold restartPrinter
  split <;> rfl

theorem map_set_keeps {α β : Type} {n : Nat} (v : Vector α n) (i : Fin n) (x : α) (f : α → β)
    (hx : f x = f v[i]) : (v.set i x).map f = v.map f := by
  ext j hj
  by_cases h : i.val = j
  · subst h; simp [hx]
  · simp [h]

theorem shownOf_setPosition (s : State) (p : Fin 16) (q : Position)
    (h : (q.imageDirty, q.composition) =
      (s.screen.positions[p].imageDirty, s.screen.positions[p].composition)) :
    shownOf (setPosition s p q) = shownOf s := by
  unfold shownOf setPosition
  dsimp only
  rw [map_set_keeps _ _ _ _ h]

theorem shownOf_takeRow (s : State) (d : Fin 2) (p : Fin 16) (r : Nat) :
    shownOf (takeRow s d p r) = shownOf s := by
  unfold takeRow
  dsimp only
  split <;>
    exact shownOf_setPosition s p
      { s.screen.positions[p] with dirty := withoutRow s.screen.positions[p].dirty r } rfl

theorem shownOf_visitRows (s : State) (d : Fin 2) (p : Fin 16) (l : Option Nat) :
    shownOf (visitRows s d p l) = shownOf s := by
  unfold visitRows
  dsimp only
  split
  · split
    · exact shownOf_takeRow _ _ _ _
    · rfl
  · rfl

theorem shownOf_visitEcho (s : State) (d : Fin 2) (p : Fin 16) : shownOf (visitEcho s d p) = shownOf s := by
  unfold visitEcho
  dsimp only
  split
  · exact shownOf_setPosition s p { s.screen.positions[p] with echo := false } rfl
  · exact shownOf_visitRows _ _ _ _

theorem shownOf_beginVisit (s : State) (d : Fin 2) (p : Fin 16) (l : List (Fin 16)) :
    shownOf (beginVisit s d p l) = shownOf s := by
  unfold beginVisit
  dsimp only
  split
  · exact shownOf_setPosition s p { s.screen.positions[p] with bell := false } rfl
  · rw [shownOf_visitEcho]; rfl

theorem shownOf_visitNext (s : State) (d : Fin 2) (l : List (Fin 16)) : shownOf (visitNext s d l) = shownOf s := by
  induction l generalizing s with
  | nil => rfl
  | cons p l ih =>
    unfold visitNext
    dsimp only
    split
    · exact shownOf_beginVisit _ _ _ _
    · split
      · rfl
      · rw [ih]; exact shownOf_setPosition _ _ _ rfl
    · exact ih _

theorem shownOf_beginCycles (s : State) : shownOf (beginCycles s) = shownOf s :=
  foldl_keeps _ shownOf (fun s d => by
    split
    · exact shownOf_visitNext _ _ _
    · rfl) _ s

theorem shownOf_serveRuns (s : State) : shownOf (serveRuns s) = shownOf s := by
  unfold serveRuns
  split
  · rfl
  · split
    · rfl
    · dsimp only; split <;> rfl

theorem shownOf_clientTakes (s : State) (data : Dword) (client : FetchClient) :
    shownOf (clientTakes s data client) = shownOf s := by
  cases client with
  | posting => simp only [clientTakes, postingTakes]; split; rfl; split <;> rfl
  | journal =>
    simp only [clientTakes, journalTakes]
    split
    · rfl
    · split
      · rfl
      · rw [shownOf_serveRuns]; rfl
  | drop d => rfl
  | day =>
    simp only [clientTakes, dayTakes]
    repeat' split
    all_goals rfl
  | control =>
    simp only [clientTakes, controlTakes]
    split
    · rfl
    · split <;> rfl

theorem shownOf_answerFetch (s : State) (data : Dword) : shownOf (answerFetch s data) = shownOf s := by
  unfold answerFetch
  split
  · rfl
  · dsimp only
    exact shownOf_clientTakes { s with path := _ } _ _

theorem shownOf_pumpFetches (n : Nat) (s : State) : shownOf (pumpFetches n s) = shownOf s := by
  induction n generalizing s with
  | zero => rfl
  | succ n ih =>
    unfold pumpFetches
    split
    · rfl
    · split
      · rfl
      · split
        · rw [ih, shownOf_answerFetch]
        · rfl

/-- What the Mirror, the drawers and the rows take from a configuration that takes effect (R196). -/
theorem takeEffect_shown (s : State) (c : Configuration) :
    ∃ e : State, shownOf e = shownOf s ∧ shownOf (takeEffect s c) = shownOf (withConfiguration e c) := by
  refine ⟨endJobs (withdrawFetch (withdrawFetch s (.drop 0)) (.drop 1)), by rw [shownOf_endJobs]; rfl, ?_⟩
  unfold takeEffect
  dsimp only
  rw [shownOf_complete]
  have : ∀ x : State, shownOf (beginCycles ((List.finRange 4).foldl restartPrinter x)) = shownOf x := by
    intro x
    rw [shownOf_beginCycles, foldl_keeps restartPrinter shownOf shownOf_restartPrinter]
  split
  · rw [shownOf_handGroups, this]
  · rw [this]


/-! ### The status rows at the step's end (R136, R137) -/

/-- The whole Mirror is every doubleword of the layout (R199). -/
theorem wholeMirror_holds : ∀ k ∈ mirrorNumbers, wholeMirror.getLsbD k = true ∧ k < 1024 := by
  decide +kernel

/-- Two compositions that differ in no doubleword have the same 20 doublewords (R136). -/
theorem changedDwords_zero (o new : List Byte) (h : changedDwords (some o) new = 0) :
    ∀ j < 20, (o.drop (8 * j)).take 8 = (new.drop (8 * j)).take 8 := by
  have key : ∀ (l : List Nat) (b : BitVec 20),
      l.foldl (fun set j => if (o.drop (8 * j)).take 8 = (new.drop (8 * j)).take 8 then set
        else set ||| BitVec.twoPow 20 j) b = 0 → b = 0 ∧
      ∀ j ∈ l, j < 20 → (o.drop (8 * j)).take 8 = (new.drop (8 * j)).take 8 := by
    intro l
    induction l with
    | nil => intro b hb; exact ⟨hb, by simp⟩
    | cons a l ih =>
      intro b hb
      rw [List.foldl_cons] at hb
      obtain ⟨h1, h2⟩ := ih _ hb
      by_cases hc : (o.drop (8 * a)).take 8 = (new.drop (8 * a)).take 8
      · rw [if_pos hc] at h1
        exact ⟨h1, fun j hj hlt => by rcases List.mem_cons.mp hj with rfl | hj; exact hc; exact h2 j hj hlt⟩
      · rw [if_neg hc] at h1
        have hb0 : b = 0 := by
          ext i hi
          have := congrArg (·.getLsbD i) h1
          simp at this
          simpa [BitVec.getLsbD_eq_getElem hi] using this.1
        refine ⟨hb0, fun j hj hlt => ?_⟩
        rcases List.mem_cons.mp hj with rfl | hj
        · have := congrArg (·.getLsbD j) h1
          simp [hlt] at this
        · exact h2 j hj hlt
  intro j hj
  exact (key _ _ h).2 j (List.mem_range.mpr hj) hj

/-- A row's doubleword that is dirty once the rows are recomposed is dirty after the step, or stands in the Inject
Queue (R137). -/
theorem conclude_rows (before after : State) (p : Fin 16) (j : Nat) (hj : j < 20)
    (h : (recomposeRows (pumpFetches 256 after)).screen.positions[p].imageDirty.getLsbD j = true) :
    rowHandled (conclude before after) p j := by
  unfold conclude
  refine flushRows_rowHandled _ _ _ hj ?_
  have hs := flushMirror_positions (markMirror (recomposeRows (pumpFetches 256 after))
    (mirrorChanges before (recomposeRows (pumpFetches 256 after))))
  exact .inl (by rw [hs]; exact h)

theorem conclude_composition (before after : State) (p : Fin 16) :
    (conclude before after).screen.positions[p].composition =
      (recomposeRows (pumpFetches 256 after)).screen.positions[p].composition := by
  unfold conclude
  rw [flushRows_composition, flushMirror_positions]
  rfl

theorem allOnes20 (j : Nat) (hj : j < 20) : (BitVec.allOnes 20).getLsbD j = true := by
  rw [BitVec.getLsbD_allOnes]; exact decide_eq_true hj

/-- An enabled position recomposed shows what its state composes; without a composition before, or with every
doubleword dirty, all 20 are dirty (R136). -/
theorem recomposed_row (s : State) (p : Fin 16) (he : s.configuration.positionEnabled p = true) (j : Nat)
    (hj : j < 20) :
    rowDword (recomposed s p) j = dwordOfBytes ((composeRow s p).drop (8 * j)) ∧
    (s.screen.positions[p].composition = none ∨ s.screen.positions[p].imageDirty = BitVec.allOnes 20 →
      (recomposed s p).imageDirty.getLsbD j = true) := by
  unfold recomposed
  simp only [he, if_true]
  split
  · rename_i h
    cases hc : s.screen.positions[p].composition with
    | none =>
      rw [hc] at h
      exact absurd (show BitVec.allOnes 20 = 0 from h) (by decide)
    | some o =>
      rw [hc] at h
      refine ⟨?_, fun hd => ?_⟩
      · have := changedDwords_zero o _ h j hj
        unfold rowDword dwordOfBytes
        rw [hc, Option.getD_some, this]
      · rcases hd with hd | hd
        · exact nomatch hd
        · rw [hd]; exact allOnes20 j hj
  · refine ⟨rfl, fun hd => ?_⟩
    rcases hd with hd | hd
    · show BitVec.getLsbD (_ ||| _) j = true
      rw [BitVec.getLsbD_or, hd, show (changedDwords none (composeRow s p)).getLsbD j = true from allOnes20 j hj,
        Bool.or_true]
    · show BitVec.getLsbD (_ ||| _) j = true
      rw [BitVec.getLsbD_or, hd, allOnes20 j hj, Bool.true_or]

/-! ### A placement and what takes effect (R4) -/

/-- A placement waits. -/
def withPlacement (s : State) (o : Option Configuration) : State :=
  { s with path := { s.path with placement := o } }

theorem handGroup_withPlacement (s : State) (o) (g : Group) :
    handGroup (withPlacement s o) g = withPlacement (handGroup s g) o := by
  have hf : groupFits (withPlacement s o).path g.writes.length = groupFits s.path g.writes.length := rfl
  unfold handGroup
  rw [hf]
  cases groupFits s.path g.writes.length <;> rfl

theorem writeEntry_withPlacement (s : State) (o) (f : EntryFields) (b : Bool) :
    writeEntry (withPlacement s o) f b = withPlacement (writeEntry s f b) o :=
  handGroup_withPlacement (numberEntry s (entryContent s.journal.next s.day.clock f) b) o _

theorem eventEntry_withPlacement (s : State) (o) (f : EntryFields) :
    eventEntry (withPlacement s o) f = withPlacement (eventEntry s f) o := by
  unfold eventEntry
  simp only [show (withPlacement s o).journal = s.journal from rfl, show (withPlacement s o).day = s.day from rfl]
  split
  · rfl
  · split
    · exact writeEntry_withPlacement _ _ _ _
    · rfl

theorem redeemEntry_withPlacement (s : State) (o) (k : Fin 4) (f : EntryFields) :
    redeemEntry (withPlacement s o) k f = withPlacement (redeemEntry s k f) o := by
  unfold redeemEntry
  simp only [show (withPlacement s o).journal = s.journal from rfl, show (withPlacement s o).day = s.day from rfl]
  split
  · split
    · exact writeEntry_withPlacement { s with journal := { s.journal with
        reservations := s.journal.reservations.erase k } } _ _ _
    · rfl
  · exact eventEntry_withPlacement _ _ _

theorem interruptLine_withPlacement (s : State) (o) (k : Fin 4) (b : Bool) :
    interruptLine (withPlacement s o) k b = withPlacement (interruptLine s k b) o := by
  unfold interruptLine
  have hc : currentItem (withPlacement s o) = currentItem s := rfl
  have hp : (withPlacement s o).passbook = s.passbook := rfl
  simp only [hc, hp]
  cases s.passbook.printers[k].state <;> cases s.passbook.printers[k].job <;>
    cases currentItem s s.passbook.printers[k] <;> try rfl
  dsimp only
  exact redeemEntry_withPlacement (setItems s (replaceItem s.passbook.items _ _)) o k _

/-- A change that each step of a fold commutes with commutes with the fold. -/
theorem foldl_commutes {α β : Type} (f : β → α → β) (g : β → β) (h : ∀ b a, f (g b) a = g (f b a))
    (l : List α) (b : β) : l.foldl f (g b) = g (l.foldl f b) := by
  induction l generalizing b with
  | nil => rfl
  | cons a l ih => rw [List.foldl_cons, h, ih]; rfl

/-- What waits as a placement does not bear on what takes effect. -/
theorem takeEffect_withPlacement (s : State) (o) (c : Configuration) :
    takeEffect (withPlacement s o) c = takeEffect s c := by
  have he : endJobs (withdrawFetch (withdrawFetch (withPlacement s o) (.drop 0)) (.drop 1)) =
      withPlacement (endJobs (withdrawFetch (withdrawFetch s (.drop 0)) (.drop 1))) o :=
    foldl_commutes (fun s k => interruptLine s k true) (withPlacement · o)
      (fun s k => interruptLine_withPlacement s o k true) (List.finRange 4)
      (withdrawFetch (withdrawFetch s (.drop 0)) (.drop 1))
  have hw : ∀ e : State, withConfiguration (withPlacement e o) c = withConfiguration e c := fun _ => rfl
  unfold takeEffect
  simp only [he, hw, show (withPlacement s o).path.windows = s.path.windows from rfl,
    show (withPlacement s o).configuration = s.configuration from rfl]

/-- The end of a step asks of the state before its Mirror figures alone (R199). -/
theorem conclude_before {before other : State} (h : ∀ k, mirrorFields before k = mirrorFields other k)
    (after : State) : conclude before after = conclude other after := by
  unfold conclude mirrorChanges
  simp only [h]

/-- The image taken in is given up. -/
def withoutImage (s : State) : State := { s with control := { s.control with image := none } }

theorem mirrorFields_placement (s : State) (o : Option Configuration) (k : Nat) :
    mirrorFields (withPlacement (withoutImage s) o) k = mirrorFields s k := by
  have hp : ∀ k, partFields (withPlacement (withoutImage s) o) k = partFields s k := by
    intro k
    unfold partFields
    split <;> rfl
  have hm : ∀ m, monitorFields (withPlacement (withoutImage s) o) m = monitorFields s m := fun _ => rfl
  have hh : ∀ h j, holderFields (withPlacement (withoutImage s) o) h j = holderFields s h j := fun _ _ => rfl
  have ht : (withPlacement (withoutImage s) o).totals = s.totals := rfl
  simp only [mirrorFields, hp, hm, hh, ht]

end Sys2Proof.Machine
end

