-- ==== Sys2Proof/Laws/PerInstr.lean ====
section
/-! SUPPORT. Per command: every bus address and every frame of a well-formed command has the form its rule
gives (R1; spec/13_record_formats.md, 13.8). -/

namespace Sys2Proof.Laws.Form

/-- The bus address a command carries. -/
def busAddress : Instr → Option (BitVec 64)
  | .hostRead addr => some addr
  | .hostWriteArrival addr _ _ => some addr
  | _ => none

/-- A well-formed command's bus address, where it has one, names an aligned doubleword (R1). -/
def Statement (i : Instr) : Prop := i.wf = true → ∀ a, busAddress i = some a → a.toNat % 8 = 0

theorem reset : Statement (.reset) :=
  fun _ _ h => nomatch h

theorem hostWrite : Statement (.hostWrite) :=
  fun _ _ h => nomatch h

theorem slotFieldWrite : Statement (.slotFieldWrite) :=
  fun _ _ h => nomatch h

theorem commit : Statement (.commit) :=
  fun _ _ h => nomatch h

theorem screenRowWrite : Statement (.screenRowWrite) :=
  fun _ _ h => nomatch h

theorem consumerIndexWrite : Statement (.consumerIndexWrite) :=
  fun _ _ h => nomatch h

theorem hostRead (addr : BitVec 64) : Statement (.hostRead addr) := by
  intro h a ha
  cases ha
  simpa [Instr.wf, alignedAddress] using h

theorem hostReadGrant : Statement (.hostReadGrant) :=
  fun _ _ h => nomatch h

theorem injectDrain : Statement (.injectDrain) :=
  fun _ _ h => nomatch h

theorem placeWaitingGroup : Statement (.placeWaitingGroup) :=
  fun _ _ h => nomatch h

theorem fetchGrant : Statement (.fetchGrant) :=
  fun _ _ h => nomatch h

theorem installWindowMap : Statement (.installWindowMap) :=
  fun _ _ h => nomatch h

theorem judgingEvent : Statement (.judgingEvent) :=
  fun _ _ h => nomatch h

theorem ringPositionAnswer : Statement (.ringPositionAnswer) :=
  fun _ _ h => nomatch h

theorem sensedOpen (h : Fin 17) : Statement (.sensedOpen h) :=
  fun _ _ h => nomatch h

theorem sensedClosed (h : Fin 17) : Statement (.sensedClosed h) :=
  fun _ _ h => nomatch h

theorem senseSettle (h : Fin 17) (level : Sense) : Statement (.senseSettle h level) :=
  fun _ _ h => nomatch h

theorem releaseWindowExpiry (h : Fin 17) : Statement (.releaseWindowExpiry h) :=
  fun _ _ h => nomatch h

theorem heldExpiryTaken (h : Fin 17) : Statement (.heldExpiryTaken h) :=
  fun _ _ h => nomatch h

theorem overdueLimitExpiry (h : Fin 17) : Statement (.overdueLimitExpiry h) :=
  fun _ _ h => nomatch h

theorem tick : Statement (.tick) :=
  fun _ _ h => nomatch h

theorem applyConfig : Statement (.applyConfig) :=
  fun _ _ h => nomatch h

theorem configImageFetched : Statement (.configImageFetched) :=
  fun _ _ h => nomatch h

theorem openDay : Statement (.openDay) :=
  fun _ _ h => nomatch h

theorem carryRecordFetched : Statement (.carryRecordFetched) :=
  fun _ _ h => nomatch h

theorem freshDayOpens : Statement (.freshDayOpens) :=
  fun _ _ h => nomatch h

theorem resumeDay : Statement (.resumeDay) :=
  fun _ _ h => nomatch h

theorem journalRunEntry : Statement (.journalRunEntry) :=
  fun _ _ h => nomatch h

theorem setTime : Statement (.setTime) :=
  fun _ _ h => nomatch h

theorem closeDay : Statement (.closeDay) :=
  fun _ _ h => nomatch h

theorem forceBalance : Statement (.forceBalance) :=
  fun _ _ h => nomatch h

theorem releaseDrawer : Statement (.releaseDrawer) :=
  fun _ _ h => nomatch h

theorem releaseHold : Statement (.releaseHold) :=
  fun _ _ h => nomatch h

theorem clearMonitor : Statement (.clearMonitor) :=
  fun _ _ h => nomatch h

theorem resumeBatch : Statement (.resumeBatch) :=
  fun _ _ h => nomatch h

theorem resendBatch : Statement (.resendBatch) :=
  fun _ _ h => nomatch h

theorem startLearn : Statement (.startLearn) :=
  fun _ _ h => nomatch h

theorem endLearn : Statement (.endLearn) :=
  fun _ _ h => nomatch h

theorem checkJournal : Statement (.checkJournal) :=
  fun _ _ h => nomatch h

theorem checkTotals : Statement (.checkTotals) :=
  fun _ _ h => nomatch h

theorem checkLine : Statement (.checkLine) :=
  fun _ _ h => nomatch h

theorem clearAlerts : Statement (.clearAlerts) :=
  fun _ _ h => nomatch h

theorem badCommandCode : Statement (.badCommandCode) :=
  fun _ _ h => nomatch h

theorem cycleStart (d : Fin 2) : Statement (.cycleStart d) :=
  fun _ _ h => nomatch h

theorem rowSend (d : Fin 2) : Statement (.rowSend d) :=
  fun _ _ h => nomatch h

theorem dropFrameSent (d : Fin 2) : Statement (.dropFrameSent d) :=
  fun _ _ h => nomatch h

theorem dropReply (d : Fin 2) (frame : List Byte) : Statement (.dropReply d frame) :=
  fun _ _ h => nomatch h

theorem dropReplyTimeout (d : Fin 2) (late : ReplyTimeout) : Statement (.dropReplyTimeout d late) :=
  fun _ _ h => nomatch h

theorem learnRepeatExpiry (d : Fin 2) : Statement (.learnRepeatExpiry d) :=
  fun _ _ h => nomatch h

theorem bookIn (k : Fin 4) (frame : List Byte) : Statement (.bookIn k frame) :=
  fun _ _ h => nomatch h

theorem bookOut (k : Fin 4) (frame : List Byte) : Statement (.bookOut k frame) :=
  fun _ _ h => nomatch h

theorem lineDone (k : Fin 4) (frame : List Byte) : Statement (.lineDone k frame) :=
  fun _ _ h => nomatch h

theorem ready (k : Fin 4) (frame : List Byte) : Statement (.ready k frame) :=
  fun _ _ h => nomatch h

theorem printerAck (k : Fin 4) (frame : List Byte) : Statement (.printerAck k frame) :=
  fun _ _ h => nomatch h

theorem printerNak (k : Fin 4) (frame : List Byte) : Statement (.printerNak k frame) :=
  fun _ _ h => nomatch h

theorem printerReplyTimeout (k : Fin 4) : Statement (.printerReplyTimeout k) :=
  fun _ _ h => nomatch h

theorem lineDoneTimeout (k : Fin 4) : Statement (.lineDoneTimeout k) :=
  fun _ _ h => nomatch h

theorem pageTurnTimeout (k : Fin 4) : Statement (.pageTurnTimeout k) :=
  fun _ _ h => nomatch h

theorem hoFrameSent (port : HoPort) : Statement (.hoFrameSent port) :=
  fun _ _ h => nomatch h

theorem hoAck (port : HoPort) (frame : List Byte) : Statement (.hoAck port frame) :=
  fun _ _ h => nomatch h

theorem hoNak (port : HoPort) (frame : List Byte) : Statement (.hoNak port frame) :=
  fun _ _ h => nomatch h

theorem hoWait (port : HoPort) (frame : List Byte) : Statement (.hoWait port frame) :=
  fun _ _ h => nomatch h

theorem hoFinal (port : HoPort) (frame : List Byte) : Statement (.hoFinal port frame) :=
  fun _ _ h => nomatch h

theorem hoInvalidFrame (port : HoPort) (frame : List Byte) : Statement (.hoInvalidFrame port frame) :=
  fun _ _ h => nomatch h

theorem ackWaitExpiry : Statement (.ackWaitExpiry) :=
  fun _ _ h => nomatch h

theorem waitPauseExpiry : Statement (.waitPauseExpiry) :=
  fun _ _ h => nomatch h

theorem finalWaitExpiry : Statement (.finalWaitExpiry) :=
  fun _ _ h => nomatch h

theorem settlementWriteDone : Statement (.settlementWriteDone) :=
  fun _ _ h => nomatch h

theorem hostWriteArrival (addr : BitVec 64) (mask : ByteMask) (data : Dword) : Statement (.hostWriteArrival addr mask data) := by
  intro h a ha
  cases ha
  simpa [Instr.wf, alignedAddress] using h

theorem resetRelease (straps : BitVec 2) : Statement (.resetRelease straps) :=
  fun _ _ h => nomatch h

theorem drawerSenseSample (h : Fin 17) (level : Sense) : Statement (.drawerSenseSample h level) :=
  fun _ _ h => nomatch h

theorem printerInvalidFrame (k : Fin 4) (frame : List Byte) : Statement (.printerInvalidFrame k frame) :=
  fun _ _ h => nomatch h

end Sys2Proof.Laws.Form
end

