-- ==== Sys2Proof/Laws/Posting.lean ====
section
/-! SUPPORT. What the shared operations of a commit and of a verdict do: a slot's buffer after a captured write,
the submit code in it, the answer to a held read, and the drawers that an acceptance releases. -/

namespace Sys2Proof.Machine

/-! ### A captured write of a slot -/

/-- A byte of a slot's buffer after a captured write (R7). -/
theorem captureBuffer_getD (b : List Byte) (o : Nat) (mask : ByteMask) (data : Dword) (j : Nat)
    (hj : j < 120) :
    (captureBuffer b o mask data).getD j 0 =
      if o ≤ j ∧ j < o + 8 ∧ mask.getLsbD (j - o) = true then lane data (j - o) else b.getD j 0 := by
  simp [captureBuffer, List.getD_eq_getElem?_getD, hj, and_assoc]

/-- Lanes 0 to 3 are enabled (R24, R192). -/
theorem lowLanes_bits {mask : ByteMask} (h : lowLanes mask = true) : ∀ i < 4, mask.getLsbD i = true := by
  revert h
  revert mask
  decide

theorem lane_captureBuffer (b : List Byte) (mask : ByteMask) (data : Dword) (h : lowLanes mask = true)
    (i : Nat) (hi : i < 4) : (captureBuffer b 0x70 mask data).getD (0x70 + i) 0 = lane data i := by
  have hm : mask.getLsbD (0x70 + i - 0x70) = true := by
    rw [Nat.add_sub_cancel_left]; exact lowLanes_bits h i hi
  rw [captureBuffer_getD _ _ _ _ _ (by omega), if_pos ⟨by omega, by omega, hm⟩, Nat.add_sub_cancel_left]

theorem leNat_lanes (data : Dword) :
    leNat [lane data 0, lane data 1, lane data 2, lane data 3] = laneField data 0 4 := by
  simp only [leNat, lane, laneField, BitVec.toNat_ofNat]
  omega

theorem take_four (b : List Byte) (o : Nat) (h : o + 4 ≤ b.length) :
    (b.drop o).take 4 = [b.getD (o + 0) 0, b.getD (o + 1) 0, b.getD (o + 2) 0, b.getD (o + 3) 0] := by
  apply List.ext_getElem
  · simp; omega
  · intro i h1 h2
    simp only [List.length_cons, List.length_nil] at h2
    have : i = 0 ∨ i = 1 ∨ i = 2 ∨ i = 3 := by omega
    rcases this with rfl | rfl | rfl | rfl <;> rw [List.getElem_take, List.getElem_drop] <;>
      simp only [List.getElem_cons_zero, List.getElem_cons_succ] <;> exact (List.getElem_eq_getD 0)

/-- The code that a commit leaves in the slot's buffer is the one it writes (R24). -/
theorem field_captureBuffer (b : List Byte) (mask : ByteMask) (data : Dword) (h : lowLanes mask = true) :
    field (captureBuffer b 0x70 mask data) 0x70 4 = laneField data 0 4 := by
  have hl := lane_captureBuffer b mask data h
  unfold field
  rw [take_four _ _ (by simp [captureBuffer]), hl 0 (by decide), hl 1 (by decide), hl 2 (by decide),
    hl 3 (by decide), leNat_lanes]

/-! ### The verdict's group -/

/-- A verdict hands over its entries with the result doubleword last, and answers the read held there (R17,
R38). -/
theorem placeVerdict_eq {s x : State} (n : Fin 16) (w : List (Nat × Dword)) (result : Dword)
    (hx : x.path = s.path) :
    placeVerdict x n w result =
      let handed := handGroup x ⟨.posting, w ++ [(resultAddress s n, result)]⟩
      { handed with path := match s.path.bus with
        | .readHeld _ m =>
          if m = n then { handed.path with bus := .idle, answer := some result } else handed.path
        | _ => handed.path } := by
  have hra : resultAddress x n = resultAddress s n := by simp only [resultAddress, windowBase, hx]
  simp only [placeVerdict, hra]
  have hb : (handGroup x ⟨.posting, w ++ [(resultAddress s n, result)]⟩).path.bus = s.path.bus := by
    rw [← hx]; simp only [handGroup]; split <;> rfl
  unfold answerHeld
  rw [hb]
  cases s.path.bus <;> rfl

/-- A group fits where none waits and the room suffices (R13). -/
theorem groupFits_iff (p : Path) (n : Nat) (hn : 0 < n ∨ p.queue.length ≤ 32) :
    groupFits p n = true ↔ p.waiting = [] ∧ p.queue.length + n ≤ 32 := by
  have : groupFits p n = (p.waiting.isEmpty && decide (n ≤ 32 - p.queue.length)) := rfl
  rw [this, Bool.and_eq_true, decide_eq_true_iff, List.isEmpty_iff]
  refine and_congr_right fun _ => ?_
  omega

theorem foldl_eventEntry_posting (l : List EntryFields) (s : State) :
    (l.foldl eventEntry s).posting = s.posting :=
  foldl_keeps eventEntry (·.posting) (fun _ _ => eventEntry_posting _ _) l s

theorem foldl_eventEntry_screen (l : List EntryFields) (s : State) :
    (l.foldl eventEntry s).screen = s.screen :=
  foldl_keeps eventEntry (·.screen) (fun _ _ => eventEntry_screen _ _) l s

/-! ### Drawers: releases and samples -/

theorem setDrawer_getElem (s : State) (h : Fin 17) (d : Drawer) : (setDrawer s h d).drawers[h] = d := by
  simp [setDrawer]

theorem setDrawer_set (s : State) (h : Fin 17) (d d' : Drawer) :
    setDrawer (setDrawer s h d) h d' = setDrawer s h d' := by
  simp [setDrawer]

theorem releasedDrawer_twice (c : Configuration) (d : Drawer) :
    releasedDrawer c (releasedDrawer c d) = releasedDrawer c d := by
  unfold releasedDrawer; rcases h : d.state <;> simp

/-- The releases of an acceptance, as one update of the drawers (R37, R82). -/
theorem foldl_release (l : List (Fin 17)) (s : State) :
    l.foldl releaseDrawer s = { s with
      drawers := Vector.ofFn fun h =>
        if h ∈ l then releasedDrawer s.configuration s.drawers[h] else s.drawers[h] } := by
  induction l generalizing s with
  | nil => simp
  | cons a l ih =>
    rw [List.foldl_cons, ih]
    have : (releaseDrawer s a).configuration = s.configuration := rfl
    rw [this]
    have hd : (Vector.ofFn fun h =>
          if h ∈ l then releasedDrawer s.configuration (releaseDrawer s a).drawers[h]
          else (releaseDrawer s a).drawers[h]) =
        Vector.ofFn fun h =>
          if h ∈ a :: l then releasedDrawer s.configuration s.drawers[h] else s.drawers[h] := by
      ext1 i hi
      simp only [Vector.getElem_ofFn, releaseDrawer, setDrawer, Fin.getElem_fin, Vector.getElem_set,
        List.mem_cons]
      by_cases h : (⟨i, hi⟩ : Fin 17) = a
      · subst h; simp [releasedDrawer_twice]
      · have : ¬ a.val = i := fun e => h (Fin.ext e.symm)
        simp [h, this]
    rw [hd]; rfl

/-- The third sample in a row at another level determines the sense, or changes it (R80). -/
theorem sampled_completes {d : Drawer} {level : Sense} (h1 : d.sense ≠ some level)
    (h2 : d.runLevel = level) (h3 : d.runLength = 2) :
    sampledSense d level = ({ d with sense := some level, runLevel := level, runLength := 0 },
      if d.sense.isNone then .determined level else .sensed level) := by
  simp [sampledSense, h1, h2, h3]

end Sys2Proof.Machine
end

