-- ==== Sys2Proof/Laws/Screens.lean ====
section
/-! SUPPORT. What the operations of the drop lines do at the end of a visit, of a cycle and of a learn (R126 to
R129, R140), and what a completion keeps (R193). -/

namespace Sys2Proof.Machine

/-- The positions of a line are those on it (R127). -/
theorem mem_linePositions {c : Configuration} {d : Fin 2} {x : Fin 16} :
    x ∈ c.linePositions d ↔ c.onLine d x = true := by
  simp [Configuration.linePositions]

/-- An ACK is the GOOD reply to an ASSIGN (R126). -/
theorem judgeReply_ack (a : Nat) (h : a ≤ 14) : judgeReply a .assign (dropFrame a 0x10 []) = .good 0x10 [] := by
  interval_cases a <;> decide +kernel

/-- A completion keeps the line check and the configuration (R193). -/
theorem complete_kept (s : State) (status : Status) (detail : Nat) :
    (complete s status detail).control.lineCheck = s.control.lineCheck ∧
      (complete s status detail).control.config = s.control.config := by
  have h : ∀ (c : Control) (g : Producer),
      (controlPlaced c g).lineCheck = c.lineCheck ∧ (controlPlaced c g).config = c.config := by
    intro c g
    cases g with
    | completion f => cases f <;> exact ⟨rfl, rfl⟩
    | _ => exact ⟨rfl, rfl⟩
  unfold complete handGroup
  dsimp only
  split <;> simp [h]

/-- The visit of an ABSENT terminal whose skip count is 0 leaves the terminals, the path and the commands alone
(R129). -/
theorem visitNext_absent {u : State} {d : Fin 2} {l : List (Fin 16)}
    (h : ∀ y ∈ l, u.screen.positions[y].state = .absent ∧ u.screen.positions[y].skip = 0) :
    (visitNext u d l).screen.positions = u.screen.positions ∧
      (visitNext u d l).path = u.path ∧ (visitNext u d l).control = u.control := by
  cases l with
  | nil => exact ⟨rfl, rfl, rfl⟩
  | cons y l =>
    have := h y (by simp)
    unfold visitNext
    simp only [this.1, this.2, if_true]
    refine ⟨rfl, rfl, rfl⟩

/-- A controller's change keeps two states of one view in one view. -/
theorem view_setController {s t : State} (d : Fin 2) (c : Controller) (h : view s = view t) :
    view (setController s d c) = view (setController t d c) := by
  simp only [view, Prod.mk.injEq] at h ⊢
  refine ⟨?_, h.2⟩
  have := h.1
  simp only [books, setController, State.mk.injEq, Screen.mk.injEq, Vector.map_set] at this ⊢
  simp only [this, and_self]

/-- The visit that is a cycle's last leaves the line without an exchange (R127). -/
theorem endVisit_last {u : State} {d : Fin 2} {c : Controller} (hc : u.screen.controllers[d] = c)
    (hm : c.mode = .cycling) (hr : c.remaining = []) :
    endVisit u d = setController u d { c with exchange := none } := by
  simp only [endVisit, afterExchange, clearExchange, setController, hc, Fin.getElem_fin, Vector.getElem_set_self, hm,
    hr, reduceCtorEq, if_false, visitNext, Vector.set_set]

end Sys2Proof.Machine
end

