-- ==== Sys2Proof/Laws/Sound.lean ====
section
/-! SUPPORT. The shared operations keep the invariant of every step: the Inject Queue, the Fetch Port, and
the end of a step (R12 to R14, R18 to R20). -/

namespace Sys2Proof.Machine

theorem foldl_sound {α : Type} {f : State → α → State} (hf : ∀ s a, Sound s → Sound (f s a)) (l : List α)
    {s : State} (h : Sound s) : Sound (l.foldl f s) := by
  induction l generalizing s with
  | nil => exact h
  | cons a l ih => rw [List.foldl_cons]; exact ih (hf s a h)

/-! ### The Inject Queue -/

theorem mirrorEntries_groupEntries (writes : List (Nat × Dword)) :
    (groupEntries writes).filter (fun e => e.cls == .mirror) = [] := by
  induction writes with
  | nil => rfl
  | cons w ws ih => simpa [groupEntries] using ih

theorem placeWrites_sound {p : Path} (h : p.Sound) (writes : List (Nat × Dword))
    (hf : writes.length ≤ freeRoom p) : (placeWrites p writes).Sound := by
  have hl : (groupEntries writes).length = writes.length := by simp [groupEntries]
  have hq : (p.queue ++ groupEntries writes).length = p.queue.length + writes.length := by simp [hl]
  have hm : mirrorEntries (placeWrites p writes) = mirrorEntries p := by
    simp [mirrorEntries, placeWrites, mirrorEntries_groupEntries]
  have ho := h.occupancy
  unfold freeRoom at hf
  constructor
  · simp only [placeWrites, hq]; omega
  · rw [hm]; exact h.mirrorClass
  · rw [hm]; exact h.mirrorApart
  · exact h.injectStreak
  · exact h.fetchStreak
  · intro he
    have he' : p.queue ++ groupEntries writes = [] := he
    exact h.injectRest (List.append_eq_nil_iff.mp he').1
  · exact h.fetchRest
  · simp only [placeWrites, modeAfterEntry]
    split
    · intro hc; cases hc
    · intro _; omega
  · simp only [placeWrites, modeAfterEntry, hq]
    split
    · intro _; omega
    · intro hd; have := h.drain hd; omega

theorem handGroup_sound {s : State} (h : Sound s) (g : Group) : Sound (handGroup s g) := by
  have hp : (handGroup s g).path.Sound := by
    unfold handGroup
    dsimp only
    split
    · rename_i hf
      simp only [groupFits, Bool.and_eq_true, decide_eq_true_eq] at hf
      exact placeWrites_sound h.path _ hf.2
    · exact { h.path with }
  have hc : (handGroup s g).day.clock = s.day.clock := by
    unfold handGroup dayPlaced; dsimp only; repeat' split
    all_goals rfl
  have hw : (handGroup s g).day.work = s.day.work := by
    unfold handGroup dayPlaced; dsimp only; repeat' split
    all_goals rfl
  exact ⟨hp, h.memory, hc ▸ h.clock, hw ▸ h.work⟩

theorem mirror_replaced (q : List InjectEntry) (addr : Nat) (data : Dword) :
    (q.map fun e => if e.cls == .mirror && e.addr == addr then { e with data := data } else e).filter
        (fun e => e.cls == .mirror) =
      (q.filter fun e => e.cls == .mirror).map fun e =>
        if e.cls == .mirror && e.addr == addr then { e with data := data } else e := by
  induction q with
  | nil => rfl
  | cons e q ih =>
    rcases e with ⟨a, d, c⟩
    cases c <;> by_cases ha : a = addr <;> simp_all

theorem mirrorWrite_sound {p : Path} (h : p.Sound) (addr : Nat) (data : Dword) :
    (mirrorWrite p addr data).1.Sound := by
  unfold mirrorWrite
  split
  · constructor
    · simpa using h.occupancy
    · simp only [mirrorEntries, mirror_replaced, List.length_map]; exact h.mirrorClass
    · have hm : ∀ l : List InjectEntry, (l.map fun e => if e.cls == .mirror && e.addr == addr then
          { e with data := data } else e).map (·.addr) = l.map (·.addr) := by
        intro l
        rw [List.map_map]
        apply List.map_congr_left
        intro e _
        simp only [Function.comp]
        split <;> rfl
      simp only [mirrorEntries, mirror_replaced, hm]; exact h.mirrorApart
    · exact h.injectStreak
    · exact h.fetchStreak
    · intro he; exact h.injectRest (by simpa using he)
    · exact h.fetchRest
    · intro hn; simpa using h.normal hn
    · intro hd; simpa using h.drain hd
  · rename_i hno
    split
    · rename_i hroom
      simp only [Bool.and_eq_true, decide_eq_true_eq] at hroom
      have hf : (p.queue ++ [(⟨addr, data, .mirror⟩ : InjectEntry)]).filter (fun e => e.cls == .mirror) =
          mirrorEntries p ++ [⟨addr, data, .mirror⟩] := by simp [mirrorEntries]
      have hle : (mirrorEntries p).length ≤ p.queue.length := List.length_filter_le ..
      constructor
      · simp only [List.length_append, List.length_singleton]; omega
      · simp only [mirrorEntries, hf, List.length_append, List.length_singleton]
        have := hroom.1
        simp only [mirrorEntries] at hle
        omega
      · simp only [mirrorEntries, hf, List.map_append, List.map_singleton]
        refine List.Nodup.append h.mirrorApart (List.nodup_singleton _) ?_
        intro a ha hb
        simp only [List.mem_singleton] at hb
        subst hb
        apply hno
        simp only [List.mem_map, List.mem_filter] at ha
        obtain ⟨e, ⟨he, hc⟩, heq⟩ := ha
        simp only [List.any_eq_true]
        exact ⟨e, he, by simp [heq]; simpa using hc⟩
      · exact h.injectStreak
      · exact h.fetchStreak
      · intro he; simp at he
      · exact h.fetchRest
      · simp only [modeAfterEntry]
        split
        · intro hc; cases hc
        · intro _; omega
      · simp only [modeAfterEntry, List.length_append, List.length_singleton]
        split
        · intro _; omega
        · intro hd; have := h.drain hd; omega
    · exact h

/-! ### The Fetch Port -/

theorem requestFetch_sound {s : State} (h : Sound s) (client : FetchClient) (addr count : Nat) :
    Sound (requestFetch s client addr count) :=
  ⟨{ h.path with fetchRest := fun he => absurd he (by simp [requestFetch]) }, h.memory, h.clock, h.work⟩

theorem withdrawFetch_sound {s : State} (h : Sound s) (client : FetchClient) :
    Sound (withdrawFetch s client) := by
  refine ⟨{ h.path with fetchStreak := ?_, fetchRest := ?_ }, h.memory, h.clock, h.work⟩
  · simp only [withdrawFetch]; split
    · exact Nat.zero_le _
    · exact h.path.fetchStreak
  · intro he
    simp only [withdrawFetch] at he ⊢
    rw [he]; rfl

theorem serveRuns_sound {s : State} (h : Sound s) : Sound (serveRuns s) := by
  unfold serveRuns
  split
  · exact h
  · split
    · exact h
    · dsimp only
      split <;> exact requestFetch_sound (s := { s with journal := _ }) h _ _ _

/-- Soundness but for the fetch streak's rest at 0, which the end of an answer sets (R19). -/
theorem restStreak_sound {s : State} {p : Path} (hp : p.Sound) (hs : s.path = p)
    (h : Memory.wf s.mem = true) (hc : s.day.clock < 172800) (hw : DayWork.timely s.day.work) : Sound s :=
  ⟨hs ▸ hp, h, hc, hw⟩

theorem clientTakes_path (s : State) (data : Dword) (client : FetchClient) :
    ∃ l w, (clientTakes s data client).path = { s.path with fetches := l, fetchWaits := w } := by
  have hreq : ∀ (s : State) c a n, ∃ l w, (requestFetch s c a n).path =
      { s.path with fetches := l, fetchWaits := w } := fun s c a n => ⟨_, _, rfl⟩
  have hserve : ∀ s : State, ∃ l w, (serveRuns s).path =
      { s.path with fetches := l, fetchWaits := w } := by
    intro s
    unfold serveRuns
    split
    · exact ⟨_, _, rfl⟩
    · split
      · exact ⟨_, _, rfl⟩
      · dsimp only
        split <;> exact ⟨_, _, rfl⟩
  cases client with
  | posting =>
    simp only [clientTakes, postingTakes]
    repeat' split
    all_goals exact ⟨_, _, rfl⟩
  | journal =>
    simp only [clientTakes, journalTakes]
    repeat' split
    all_goals first | exact ⟨_, _, rfl⟩ | exact hserve _
  | drop d => exact ⟨_, _, rfl⟩
  | day =>
    simp only [clientTakes, dayTakes]
    repeat' split
    all_goals exact ⟨_, _, rfl⟩
  | control =>
    simp only [clientTakes, controlTakes]
    repeat' split
    all_goals exact ⟨_, _, rfl⟩

theorem clientTakes_rest (s : State) (data : Dword) (client : FetchClient) :
    (clientTakes s data client).mem = s.mem ∧ (clientTakes s data client).day.clock = s.day.clock ∧
      (clientTakes s data client).day.work = s.day.work := by
  have hserve : ∀ s : State, (serveRuns s).mem = s.mem ∧ (serveRuns s).day = s.day := by
    intro s
    unfold serveRuns
    split
    · exact ⟨rfl, rfl⟩
    · split
      · exact ⟨rfl, rfl⟩
      · dsimp only
        split <;> exact ⟨rfl, rfl⟩
  cases client with
  | posting =>
    simp only [clientTakes, postingTakes]
    repeat' split
    all_goals exact ⟨rfl, rfl, rfl⟩
  | journal =>
    simp only [clientTakes, journalTakes]
    repeat' split
    all_goals first | exact ⟨rfl, rfl, rfl⟩ | simp [hserve]
  | drop d => exact ⟨rfl, rfl, rfl⟩
  | day =>
    simp only [clientTakes, dayTakes]
    repeat' split
    all_goals exact ⟨rfl, rfl, rfl⟩
  | control =>
    simp only [clientTakes, controlTakes]
    repeat' split
    all_goals exact ⟨rfl, rfl, rfl⟩

theorem answerFetch_sound {s : State} (h : Sound s) (data : Dword) : Sound (answerFetch s data) := by
  unfold answerFetch
  split
  · exact h
  · rename_i r rest hfetch
    dsimp only
    generalize hs : ({ s with path := { s.path with
      fetches := if r.left ≤ 1 then rest else { r with next := r.next + 8, left := r.left - 1 } :: rest,
      fetchWaits := false } } : State) = u
    obtain ⟨l, w, hp⟩ := clientTakes_path u data r.client
    obtain ⟨hm, hc, hk⟩ := clientTakes_rest u data r.client
    have hu : u.path = { s.path with fetches := u.path.fetches, fetchWaits := false } := by
      subst hs; rfl
    refine ⟨?_, ?_, ?_, ?_⟩
    · dsimp only
      rw [hp, hu]
      exact { h.path with
        fetchStreak := by dsimp only; split; exact Nat.zero_le _; exact h.path.fetchStreak
        fetchRest := by
          intro he
          have he' : l = [] := he
          subst he'; rfl }
    · show Memory.wf (clientTakes u data r.client).mem = true
      rw [hm]; subst hs; exact h.memory
    · show (clientTakes u data r.client).day.clock < 172800
      rw [hc]; subst hs; exact h.clock
    · show DayWork.timely (clientTakes u data r.client).day.work
      rw [hk]; subst hs; exact h.work

theorem pumpFetches_sound (n : Nat) {s : State} (h : Sound s) : Sound (pumpFetches n s) := by
  induction n generalizing s with
  | zero => exact h
  | succ n ih =>
    unfold pumpFetches
    split
    · exact h
    · split
      · exact h
      · split
        · exact ih (answerFetch_sound h _)
        · exact ⟨{ h.path with }, h.memory, h.clock, h.work⟩

theorem grantFetch_sound {s : State} (h : Sound s) : Sound (grantFetch s) := by
  unfold grantFetch
  split
  · exact h
  · exact answerFetch_sound (s := { s with path := { s.path with fetchStreak := 0 } })
      ⟨{ h.path with fetchStreak := Nat.zero_le _, fetchRest := fun _ => rfl }, h.memory, h.clock,
        h.work⟩ _

/-! ### The end of a step -/

theorem handMirrorDword_sound {s : State} (h : Sound s) (k : Nat) : Sound (handMirrorDword s k) := by
  unfold handMirrorDword
  split
  · exact h
  · dsimp only
    split
    · exact ⟨mirrorWrite_sound h.path _ _, h.memory, h.clock, h.work⟩
    · exact ⟨{ h.path with }, h.memory, h.clock, h.work⟩

theorem handRowDword_sound {s : State} (h : Sound s) (p : Fin 16) (j : Nat) :
    Sound (handRowDword s p j) := by
  unfold handRowDword
  dsimp only
  split
  · exact h
  · split
    · exact ⟨mirrorWrite_sound h.path _ _, h.memory, h.clock, h.work⟩
    · exact ⟨{ h.path with }, h.memory, h.clock, h.work⟩

theorem flushMirror_sound {s : State} (h : Sound s) : Sound (flushMirror s) := by
  unfold flushMirror
  split
  · exact h
  · exact foldl_sound (fun s k h => handMirrorDword_sound h k) _ h

theorem flushRows_sound {s : State} (h : Sound s) : Sound (flushRows s) := by
  unfold flushRows
  split
  · exact h
  · refine foldl_sound (fun s p h => ?_) _ h
    split
    · exact h
    · exact foldl_sound (fun s j h => handRowDword_sound h p j) _ h

theorem markMirror_sound {s : State} (h : Sound s) (set : BitVec 1024) : Sound (markMirror s set) :=
  ⟨h.path, h.memory, h.clock, h.work⟩

theorem recomposeRows_sound {s : State} (h : Sound s) : Sound (recomposeRows s) :=
  ⟨h.path, h.memory, h.clock, h.work⟩

/-- The end of a step keeps the invariant. -/
theorem conclude_sound (before : State) {s : State} (h : Sound s) : Sound (conclude before s) :=
  flushRows_sound (flushMirror_sound (markMirror_sound
    (recomposeRows_sound (pumpFetches_sound 256 h)) _))

theorem running_sound {s t : State} {body : State → State} (h : Sound s)
    (hb : Sound s → Sound (body s)) (hr : running s body = .next t) : Sound t := by
  unfold running at hr
  split at hr
  · cases hr; exact h
  · cases hr; exact conclude_sound s (hb h)

end Sys2Proof.Machine
end

