-- ==== Sys2Proof/Laws/SoundOps.lean ====
section
/-! SUPPORT. Every operation a row uses keeps the invariant of every step, operation by operation in the
order of the files of Machine/. -/

namespace Sys2Proof.Machine

/-! ### Ops.lean -/

theorem handGroups_sound {s : State} (hs : Sound s) (gs : List Group) :
    Sound (handGroups s gs) := by
  unfold handGroups
  try dsimp only
  all_goals repeat' first
    | with_reducible apply handGroup_sound
    | (with_reducible apply foldl_sound; intro s a hs; try split)
    | exact hs

theorem raiseAlert_sound {s : State} (hs : Sound s) (a : Alert) :
    Sound (raiseAlert s a) := by
  unfold raiseAlert
  try dsimp only
  all_goals repeat' first
    | exact hs

theorem raiseAlertIf_sound {s : State} (hs : Sound s) (cond : Bool) (a : Alert) :
    Sound (raiseAlertIf s cond a) := by
  unfold raiseAlertIf
  try dsimp only
  repeat' split
  all_goals repeat' first
    | exact hs

theorem numberEntry_sound {s : State} (hs : Sound s) (content : List Byte) (lowers : Bool) :
    Sound (numberEntry s content lowers) := by
  unfold numberEntry
  try dsimp only
  repeat' split
  all_goals repeat' first
    | with_reducible apply raiseAlertIf_sound
    | exact hs

theorem writeEntry_sound {s : State} (hs : Sound s) (f : EntryFields) (lowers : Bool) :
    Sound (writeEntry s f lowers) := by
  unfold writeEntry
  try dsimp only
  all_goals repeat' first
    | with_reducible apply handGroup_sound
    | with_reducible apply numberEntry_sound
    | exact hs

theorem eventEntry_sound {s : State} (hs : Sound s) (f : EntryFields) :
    Sound (eventEntry s f) := by
  unfold eventEntry
  try dsimp only
  repeat' split
  all_goals repeat' first
    | with_reducible apply writeEntry_sound
    | with_reducible apply raiseAlert_sound
    | exact hs

theorem dayControlEntry_sound {s : State} (hs : Sound s) (f : EntryFields) :
    Sound (dayControlEntry s f) := by
  unfold dayControlEntry
  try dsimp only
  repeat' split
  all_goals repeat' first
    | with_reducible apply writeEntry_sound
    | with_reducible apply raiseAlert_sound
    | exact hs

theorem reserve_sound {s : State} (hs : Sound s) (k : Fin 4) :
    Sound (reserve s k) := by
  unfold reserve
  try dsimp only
  all_goals repeat' first
    | with_reducible apply raiseAlertIf_sound
    | exact hs

theorem redeemEntry_sound {s : State} (hs : Sound s) (k : Fin 4) (f : EntryFields) :
    Sound (redeemEntry s k f) := by
  unfold redeemEntry
  try dsimp only
  repeat' split
  all_goals repeat' first
    | with_reducible apply writeEntry_sound
    | with_reducible apply eventEntry_sound
    | exact hs

theorem askRun_sound {s : State} (hs : Sound s) (requester : Requester) (a : Nat) (b : Option Nat) :
    Sound (askRun s requester a b) := by
  unfold askRun
  try dsimp only
  repeat' split
  all_goals repeat' first
    | with_reducible apply serveRuns_sound
    | exact hs

theorem endRun_sound {s : State} (hs : Sound s) (requester : Requester) :
    Sound (endRun s requester) := by
  have hw := withdrawFetch_sound (s := { s with journal := dropRun s.journal requester }) hs .journal
  unfold endRun
  split
  · exact serveRuns_sound (s := { withdrawFetch _ _ with journal := _ })
      ⟨hw.path, hw.memory, hw.clock, hw.work⟩
  · exact hs

theorem complete_sound {s : State} (hs : Sound s) (status : Status) (detail : Nat) :
    Sound (complete s status detail) := by
  unfold complete
  try dsimp only
  all_goals repeat' first
    | with_reducible apply handGroup_sound
    | exact hs

theorem sendFrame_sound {s : State} (hs : Sound s) (port : Option (Fin 6)) (frame : List Byte) :
    Sound (sendFrame s port frame) := by
  unfold sendFrame
  try dsimp only
  repeat' split
  all_goals repeat' first
    | exact hs

theorem clearLine_sound {s : State} (hs : Sound s) (port : Option (Fin 6)) :
    Sound (clearLine s port) := by
  unfold clearLine
  try dsimp only
  repeat' split
  all_goals repeat' first
    | exact hs

theorem frameSent_sound {s : State} (hs : Sound s) (k : Fin 6) :
    Sound (frameSent s k) := by
  unfold frameSent
  try dsimp only
  all_goals repeat' first
    | exact hs


/-! ### Drawer.lean -/

theorem setDrawer_sound {s : State} (hs : Sound s) (h : Fin 17) (d : Drawer) :
    Sound (setDrawer s h d) := by
  unfold setDrawer
  try dsimp only
  all_goals repeat' first
    | exact hs

theorem drawerEvent_sound {s : State} (hs : Sound s) (h : Fin 17) (code tag : Nat) :
    Sound (drawerEvent s h code tag) := by
  unfold drawerEvent
  try dsimp only
  all_goals repeat' first
    | with_reducible apply eventEntry_sound
    | exact hs

theorem releaseDrawer_sound {s : State} (hs : Sound s) (h : Fin 17) :
    Sound (releaseDrawer s h) := by
  unfold releaseDrawer
  try dsimp only
  all_goals repeat' first
    | with_reducible apply setDrawer_sound
    | exact hs

theorem takeSensedOpen_sound {s : State} (hs : Sound s) (h : Fin 17) :
    Sound (takeSensedOpen s h) := by
  unfold takeSensedOpen
  try dsimp only
  repeat' split
  all_goals repeat' first
    | with_reducible apply setDrawer_sound
    | with_reducible apply drawerEvent_sound
    | with_reducible apply raiseAlert_sound
    | exact hs

theorem takeSensedClosed_sound {s : State} (hs : Sound s) (h : Fin 17) :
    Sound (takeSensedClosed s h) := by
  unfold takeSensedClosed
  try dsimp only
  repeat' split
  all_goals repeat' first
    | with_reducible apply setDrawer_sound
    | with_reducible apply drawerEvent_sound
    | exact hs

theorem takeWindowExpiry_sound {s : State} (hs : Sound s) (h : Fin 17) :
    Sound (takeWindowExpiry s h) := by
  unfold takeWindowExpiry
  try dsimp only
  all_goals repeat' first
    | with_reducible apply drawerEvent_sound
    | with_reducible apply setDrawer_sound
    | exact hs

theorem takeDetermination_sound {s : State} (hs : Sound s) (h : Fin 17) (level : Sense) :
    Sound (takeDetermination s h level) := by
  unfold takeDetermination
  try dsimp only
  repeat' split
  all_goals repeat' first
    | with_reducible apply setDrawer_sound
    | exact hs

theorem takeHeldExpiry_sound {s : State} (hs : Sound s) (h : Fin 17) :
    Sound (takeHeldExpiry s h) := by
  unfold takeHeldExpiry
  try dsimp only
  repeat' split
  all_goals repeat' first
    | with_reducible apply takeWindowExpiry_sound
    | exact hs

theorem takeSample_sound {s : State} (hs : Sound s) (h : Fin 17) (level : Sense) :
    Sound (takeSample s h level) := by
  unfold takeSample
  try dsimp only
  repeat' split
  all_goals repeat' first
    | with_reducible apply setDrawer_sound
    | with_reducible apply takeHeldExpiry_sound
    | with_reducible apply takeSensedOpen_sound
    | with_reducible apply takeSensedClosed_sound
    | with_reducible apply takeDetermination_sound
    | exact hs

theorem expireWindow_sound {s : State} (hs : Sound s) (h : Fin 17) :
    Sound (expireWindow s h) := by
  unfold expireWindow
  try dsimp only
  repeat' split
  all_goals repeat' first
    | with_reducible apply setDrawer_sound
    | with_reducible apply takeWindowExpiry_sound
    | exact hs

theorem expireLimit_sound {s : State} (hs : Sound s) (h : Fin 17) :
    Sound (expireLimit s h) := by
  unfold expireLimit
  try dsimp only
  repeat' split
  all_goals repeat' first
    | with_reducible apply drawerEvent_sound
    | with_reducible apply raiseAlert_sound
    | with_reducible apply setDrawer_sound
    | exact hs


/-! ### Passbook.lean -/

theorem setPrinter_sound {s : State} (hs : Sound s) (k : Fin 4) (p : Printer) :
    Sound (setPrinter s k p) := by
  unfold setPrinter
  try dsimp only
  all_goals repeat' first
    | exact hs

theorem setItems_sound {s : State} (hs : Sound s) (items : List Item) :
    Sound (setItems s items) := by
  unfold setItems
  try dsimp only
  all_goals repeat' first
    | exact hs

theorem sendPrinter_sound {s : State} (hs : Sound s) (k : Fin 4) (p : Printer) (message : Awaited) (frame : List Byte) :
    Sound (sendPrinter s k p message frame) := by
  unfold sendPrinter
  try dsimp only
  all_goals repeat' first
    | with_reducible apply sendFrame_sound
    | with_reducible apply clearLine_sound
    | with_reducible apply setPrinter_sound
    | exact hs

theorem notice_sound {s : State} (hs : Sound s) (k : Fin 4) (text : List Char) :
    Sound (notice s k text) := by
  unfold notice
  try dsimp only
  all_goals repeat' first
    | exact hs

theorem eject_sound {s : State} (hs : Sound s) (k : Fin 4) (p : Printer) (text : List Char) :
    Sound (eject s k p text) := by
  unfold eject
  try dsimp only
  all_goals repeat' first
    | with_reducible apply notice_sound
    | with_reducible apply sendPrinter_sound
    | exact hs

theorem stripe_sound {s : State} (hs : Sound s) (k : Fin 4) (p : Printer) (page line : Nat) (turn : Bool) :
    Sound (stripe s k p page line turn) := by
  unfold stripe
  try dsimp only
  all_goals repeat' first
    | with_reducible apply sendPrinter_sound
    | exact hs

theorem takeLine_sound {s : State} (hs : Sound s) (k : Fin 4) (p : Printer) (job : Job) :
    Sound (takeLine s k p job) := by
  unfold takeLine
  try dsimp only
  repeat' split
  all_goals repeat' first
    | with_reducible apply eject_sound
    | with_reducible apply setItems_sound
    | with_reducible apply reserve_sound
    | with_reducible apply sendPrinter_sound
    | exact hs

theorem judgeBook_sound {s : State} (hs : Sound s) (k : Fin 4) (p : Printer) (job : Job) (started : Bool) :
    Sound (judgeBook s k p job started) := by
  unfold judgeBook
  try dsimp only
  repeat' split
  all_goals repeat' first
    | with_reducible apply eject_sound
    | with_reducible apply stripe_sound
    | with_reducible apply takeLine_sound
    | exact hs

theorem takeBookIn_sound {s : State} (hs : Sound s) (k : Fin 4) (frame : List Byte) :
    Sound (takeBookIn s k frame) := by
  unfold takeBookIn
  try dsimp only
  repeat' split
  all_goals repeat' first
    | with_reducible apply judgeBook_sound
    | exact hs

theorem admitJournaled_sound {s : State} (hs : Sound s) (position tag : Nat) (i : Item) :
    Sound (admitJournaled s position tag i) := by
  unfold admitJournaled
  try dsimp only
  repeat' split
  all_goals repeat' first
    | with_reducible apply eventEntry_sound
    | with_reducible apply setItems_sound
    | exact hs

theorem resolvePrinted_sound {s : State} (hs : Sound s) (e : Item) :
    Sound (resolvePrinted s e) := by
  unfold resolvePrinted
  try dsimp only
  all_goals repeat' first
    | with_reducible apply admitJournaled_sound
    | (with_reducible apply foldl_sound; intro s a hs; try split)
    | exact hs

theorem afterLine_sound {s : State} (hs : Sound s) (k : Fin 4) (p : Printer) (job : Job) :
    Sound (afterLine s k p job) := by
  unfold afterLine
  try dsimp only
  repeat' split
  all_goals repeat' first
    | with_reducible apply stripe_sound
    | exact hs

theorem takeLineDone_sound {s : State} (hs : Sound s) (k : Fin 4) :
    Sound (takeLineDone s k) := by
  unfold takeLineDone
  try dsimp only
  repeat' split
  all_goals repeat' first
    | with_reducible apply redeemEntry_sound
    | with_reducible apply resolvePrinted_sound
    | with_reducible apply setItems_sound
    | with_reducible apply afterLine_sound
    | exact hs

theorem interruptLine_sound {s : State} (hs : Sound s) (k : Fin 4) (timeout : Bool) :
    Sound (interruptLine s k timeout) := by
  unfold interruptLine
  try dsimp only
  repeat' split
  all_goals repeat' first
    | with_reducible apply redeemEntry_sound
    | with_reducible apply setItems_sound
    | exact hs

theorem failPrinter_sound {s : State} (hs : Sound s) (k : Fin 4) :
    Sound (failPrinter s k) := by
  unfold failPrinter
  try dsimp only
  all_goals repeat' first
    | with_reducible apply notice_sound
    | with_reducible apply setPrinter_sound
    | with_reducible apply interruptLine_sound
    | exact hs

theorem takeBookOut_sound {s : State} (hs : Sound s) (k : Fin 4) :
    Sound (takeBookOut s k) := by
  unfold takeBookOut
  try dsimp only
  repeat' split
  all_goals repeat' first
    | with_reducible apply setPrinter_sound
    | with_reducible apply notice_sound
    | with_reducible apply interruptLine_sound
    | exact hs

theorem restartPrinter_sound {s : State} (hs : Sound s) (k : Fin 4) :
    Sound (restartPrinter s k) := by
  unfold restartPrinter
  try dsimp only
  repeat' split
  all_goals repeat' first
    | with_reducible apply setPrinter_sound
    | with_reducible apply sendPrinter_sound
    | exact hs

theorem noticeIfPrinting_sound {s : State} (hs : Sound s) (k : Fin 4) (was : PrinterState) :
    Sound (noticeIfPrinting s k was) := by
  unfold noticeIfPrinting
  try dsimp only
  repeat' split
  all_goals repeat' first
    | with_reducible apply notice_sound
    | exact hs

theorem takeReady_sound {s : State} (hs : Sound s) (k : Fin 4) :
    Sound (takeReady s k) := by
  unfold takeReady
  try dsimp only
  all_goals repeat' first
    | with_reducible apply noticeIfPrinting_sound
    | with_reducible apply restartPrinter_sound
    | with_reducible apply interruptLine_sound
    | exact hs

theorem stripeDone_sound {s : State} (hs : Sound s) (k : Fin 4) (p : Printer) (page line : Nat) (turn : Bool) :
    Sound (stripeDone s k p page line turn) := by
  unfold stripeDone
  try dsimp only
  repeat' split
  all_goals repeat' first
    | with_reducible apply setPrinter_sound
    | with_reducible apply notice_sound
    | with_reducible apply sendPrinter_sound
    | with_reducible apply eject_sound
    | with_reducible apply takeLine_sound
    | exact hs

theorem takeAck_sound {s : State} (hs : Sound s) (k : Fin 4) :
    Sound (takeAck s k) := by
  unfold takeAck
  try dsimp only
  repeat' split
  all_goals repeat' first
    | with_reducible apply eject_sound
    | with_reducible apply setPrinter_sound
    | with_reducible apply stripe_sound
    | with_reducible apply stripeDone_sound
    | exact hs

theorem takeFailure_sound {s : State} (hs : Sound s) (k : Fin 4) :
    Sound (takeFailure s k) := by
  unfold takeFailure
  try dsimp only
  repeat' split
  all_goals repeat' first
    | with_reducible apply failPrinter_sound
    | exact hs

theorem expireLine_sound {s : State} (hs : Sound s) (k : Fin 4) :
    Sound (expireLine s k) := by
  unfold expireLine
  try dsimp only
  repeat' split
  all_goals repeat' first
    | with_reducible apply failPrinter_sound
    | exact hs

theorem expireTurn_sound {s : State} (hs : Sound s) (k : Fin 4) :
    Sound (expireTurn s k) := by
  unfold expireTurn
  try dsimp only
  repeat' split
  all_goals repeat' first
    | with_reducible apply notice_sound
    | with_reducible apply setPrinter_sound
    | exact hs

theorem reopenPrinter_sound {s : State} (hs : Sound s) (k : Fin 4) :
    Sound (reopenPrinter s k) := by
  unfold reopenPrinter
  try dsimp only
  repeat' split
  all_goals repeat' first
    | with_reducible apply noticeIfPrinting_sound
    | with_reducible apply restartPrinter_sound
    | exact hs


/-! ### Screen.lean -/

theorem setPosition_sound {s : State} (hs : Sound s) (p : Fin 16) (q : Position) :
    Sound (setPosition s p q) := by
  unfold setPosition
  try dsimp only
  all_goals repeat' first
    | exact hs

theorem setController_sound {s : State} (hs : Sound s) (d : Fin 2) (c : Controller) :
    Sound (setController s d c) := by
  unfold setController
  try dsimp only
  all_goals repeat' first
    | exact hs

theorem sendDrop_sound {s : State} (hs : Sound s) (d : Fin 2) (frame : List Byte) :
    Sound (sendDrop s d frame) := by
  unfold sendDrop
  try dsimp only
  all_goals repeat' first
    | with_reducible apply sendFrame_sound
    | exact hs

theorem beginExchange_sound {s : State} (hs : Sound s) (d : Fin 2) (p : Fin 16) (kind : ExchangeKind) (frame : List Byte) :
    Sound (beginExchange s d p kind frame) := by
  unfold beginExchange
  try dsimp only
  all_goals repeat' first
    | with_reducible apply sendDrop_sound
    | with_reducible apply setController_sound
    | exact hs

theorem clearExchange_sound {s : State} (hs : Sound s) (d : Fin 2) :
    Sound (clearExchange s d) := by
  unfold clearExchange
  try dsimp only
  all_goals repeat' first
    | with_reducible apply setController_sound
    | exact hs

theorem sendPoll_sound {s : State} (hs : Sound s) (d : Fin 2) (p : Fin 16) :
    Sound (sendPoll s d p) := by
  unfold sendPoll
  try dsimp only
  all_goals repeat' first
    | with_reducible apply beginExchange_sound
    | exact hs

theorem takeRow_sound {s : State} (hs : Sound s) (d : Fin 2) (p : Fin 16) (r : Nat) :
    Sound (takeRow s d p r) := by
  unfold takeRow
  try dsimp only
  repeat' split
  all_goals repeat' first
    | with_reducible apply setController_sound
    | with_reducible apply setPosition_sound
    | with_reducible apply requestFetch_sound
    | exact hs

theorem visitRows_sound {s : State} (hs : Sound s) (d : Fin 2) (p : Fin 16) (later : Option Nat) :
    Sound (visitRows s d p later) := by
  unfold visitRows
  try dsimp only
  repeat' split
  all_goals repeat' first
    | with_reducible apply takeRow_sound
    | with_reducible apply sendPoll_sound
    | exact hs

theorem visitEcho_sound {s : State} (hs : Sound s) (d : Fin 2) (p : Fin 16) :
    Sound (visitEcho s d p) := by
  unfold visitEcho
  try dsimp only
  repeat' split
  all_goals repeat' first
    | with_reducible apply beginExchange_sound
    | with_reducible apply setPosition_sound
    | with_reducible apply visitRows_sound
    | exact hs

theorem beginVisit_sound {s : State} (hs : Sound s) (d : Fin 2) (p : Fin 16) (rest : List (Fin 16)) :
    Sound (beginVisit s d p rest) := by
  unfold beginVisit
  try dsimp only
  repeat' split
  all_goals repeat' first
    | with_reducible apply setController_sound
    | with_reducible apply beginExchange_sound
    | with_reducible apply setPosition_sound
    | with_reducible apply visitEcho_sound
    | exact hs

theorem visitNext_sound {s : State} (hs : Sound s) (d : Fin 2) (ps : List (Fin 16)) :
    Sound (visitNext s d ps) := by
  induction ps generalizing s with
  | nil => exact hs
  | cons p ps ih =>
    unfold visitNext
    dsimp only
    repeat' split
    · exact beginVisit_sound hs d p ps
    · exact sendPoll_sound (setController_sound hs d _) d p
    · exact ih (setPosition_sound hs p _)
    · exact ih hs

theorem beginCycle_sound {s : State} (hs : Sound s) (d : Fin 2) :
    Sound (beginCycle s d) := by
  unfold beginCycle
  try dsimp only
  all_goals repeat' first
    | with_reducible apply visitNext_sound
    | exact hs

theorem endLineCheck_sound {s : State} (hs : Sound s) (status : Status) (detail : Nat) :
    Sound (endLineCheck s status detail) := by
  unfold endLineCheck
  try dsimp only
  all_goals repeat' first
    | with_reducible apply complete_sound
    | exact hs

theorem loseLineCheck_sound {s : State} (hs : Sound s) (d : Fin 2) : Sound (loseLineCheck s d) := by
  unfold loseLineCheck
  split
  · exact hs
  · dsimp only
    split
    · exact endLineCheck_sound (setPosition_sound hs _ _) _ _
    · exact hs

theorem finishLearn_sound {s : State} (hs : Sound s) (d : Fin 2) :
    Sound (finishLearn s d) := by
  unfold finishLearn
  try dsimp only
  all_goals repeat' first
    | with_reducible apply beginCycle_sound
    | with_reducible apply sendDrop_sound
    | with_reducible apply setController_sound
    | exact hs

theorem sendAssign_sound {s : State} (hs : Sound s) (d : Fin 2) (p : Fin 16) :
    Sound (sendAssign s d p) := by
  unfold sendAssign
  try dsimp only
  all_goals repeat' first
    | with_reducible apply setController_sound
    | with_reducible apply beginExchange_sound
    | exact hs

theorem assignNext_sound {s : State} (hs : Sound s) (d : Fin 2) :
    Sound (assignNext s d) := by
  unfold assignNext
  try dsimp only
  repeat' split
  all_goals repeat' first
    | with_reducible apply sendAssign_sound
    | with_reducible apply finishLearn_sound
    | with_reducible apply loseLineCheck_sound
    | exact hs

theorem beginLearning_sound {s : State} (hs : Sound s) (d : Fin 2) : Sound (beginLearning s d) :=
  assignNext_sound (setController_sound hs d _) d

theorem afterExchange_sound {s : State} (hs : Sound s) (d : Fin 2) {visit : State → State}
    (hv : ∀ s, Sound s → Sound (visit s)) : Sound (afterExchange s d visit) := by
  unfold afterExchange
  split
  · exact beginLearning_sound hs d
  · exact hv s hs

theorem endVisit_sound {s : State} (hs : Sound s) (d : Fin 2) :
    Sound (endVisit s d) := by
  unfold endVisit
  try dsimp only
  all_goals repeat' first
    | with_reducible refine afterExchange_sound ?_ _ (fun s hs => ?_)
    | with_reducible apply clearExchange_sound
    | with_reducible apply visitNext_sound
    | exact hs

theorem keysTaken_sound {s : State} (hs : Sound s) (p : Fin 16) (keys : List (BitVec 16)) :
    Sound (keysTaken s p keys) := by
  unfold keysTaken
  try dsimp only
  repeat' split
  all_goals repeat' first
    | with_reducible apply setPosition_sound
    | with_reducible apply handGroup_sound
    | exact hs

theorem loseTerminal_sound {s : State} (hs : Sound s) (p : Fin 16) :
    Sound (loseTerminal s p) := by
  unfold loseTerminal
  try dsimp only
  repeat' split
  all_goals repeat' first
    | with_reducible apply recomposeRows_sound
    | with_reducible apply setPosition_sound
    | with_reducible apply eventEntry_sound
    | with_reducible apply raiseAlert_sound
    | with_reducible apply endLineCheck_sound
    | exact hs

theorem countMiss_sound {s : State} (hs : Sound s) (p : Fin 16) : Sound (countMiss s p) := by
  unfold countMiss
  try dsimp only
  repeat' split
  all_goals repeat' first
    | with_reducible apply setPosition_sound
    | with_reducible apply loseTerminal_sound
    | exact hs

theorem countOutcome_sound {s : State} (hs : Sound s) (e : Exchange) (o : DropOutcome) :
    Sound (countOutcome s e o) := by
  unfold countOutcome
  try dsimp only
  repeat' split
  all_goals repeat' first
    | with_reducible apply setPosition_sound
    | with_reducible apply countMiss_sound
    | exact hs

theorem returnRow_sound {s : State} (hs : Sound s) (d : Fin 2) (p : Fin 16) :
    Sound (returnRow s d p) := by
  unfold returnRow
  try dsimp only
  all_goals repeat' first
    | with_reducible apply setController_sound
    | with_reducible apply setPosition_sound
    | exact hs

theorem rowOutcome_sound {s : State} (hs : Sound s) (d : Fin 2) (p : Fin 16) (resend : Bool) (o : DropOutcome) :
    Sound (rowOutcome s d p resend o) := by
  unfold rowOutcome
  try dsimp only
  repeat' split
  all_goals repeat' first
    | with_reducible refine afterExchange_sound ?_ _ (fun s hs => ?_)
    | with_reducible apply clearExchange_sound
    | with_reducible apply visitRows_sound
    | with_reducible apply returnRow_sound
    | with_reducible apply beginExchange_sound
    | with_reducible apply endVisit_sound
    | exact hs

theorem pollOutcome_sound {s : State} (hs : Sound s) (d : Fin 2) (p : Fin 16) (wasAbsent : Bool) (o : DropOutcome) :
    Sound (pollOutcome s d p wasAbsent o) := by
  unfold pollOutcome
  try dsimp only
  repeat' split
  all_goals repeat' first
    | with_reducible apply recomposeRows_sound
    | with_reducible apply setPosition_sound
    | with_reducible apply endVisit_sound
    | with_reducible apply eventEntry_sound
    | with_reducible apply keysTaken_sound
    | exact hs

theorem echoOutcome_sound {s : State} (hs : Sound s) (d : Fin 2) (p : Fin 16) (o : DropOutcome) :
    Sound (echoOutcome s d p o) := by
  unfold echoOutcome
  try dsimp only
  repeat' split
  all_goals repeat' first
    | with_reducible refine afterExchange_sound ?_ _ (fun s hs => ?_)
    | with_reducible apply endLineCheck_sound
    | with_reducible apply clearExchange_sound
    | with_reducible apply visitRows_sound
    | with_reducible apply endVisit_sound
    | exact hs

theorem bellOutcome_sound {s : State} (hs : Sound s) (d : Fin 2) (p : Fin 16) (o : DropOutcome) :
    Sound (bellOutcome s d p o) := by
  unfold bellOutcome
  try dsimp only
  repeat' split
  all_goals repeat' first
    | with_reducible refine afterExchange_sound ?_ _ (fun s hs => ?_)
    | with_reducible apply clearExchange_sound
    | with_reducible apply visitEcho_sound
    | with_reducible apply endVisit_sound
    | exact hs

theorem assignOutcome_sound {s : State} (hs : Sound s) (d : Fin 2) (p : Fin 16) (o : DropOutcome) :
    Sound (assignOutcome s d p o) := by
  unfold assignOutcome
  try dsimp only
  repeat' split
  all_goals repeat' first
    | with_reducible apply assignNext_sound
    | with_reducible apply setController_sound
    | with_reducible apply sendDrop_sound
    | exact hs

theorem takeOutcome_sound {s : State} (hs : Sound s) (d : Fin 2) (e : Exchange) (o : DropOutcome) :
    Sound (takeOutcome s d e o) := by
  unfold takeOutcome
  try dsimp only
  repeat' split
  all_goals repeat' first
    | with_reducible apply countOutcome_sound
    | with_reducible apply bellOutcome_sound
    | with_reducible apply echoOutcome_sound
    | with_reducible apply rowOutcome_sound
    | with_reducible apply pollOutcome_sound
    | with_reducible apply assignOutcome_sound
    | exact hs

theorem receiveDrop_sound {s : State} (hs : Sound s) (d : Fin 2) (frame : List Byte) :
    Sound (receiveDrop s d frame) := by
  unfold receiveDrop
  try dsimp only
  repeat' split
  all_goals repeat' first
    | with_reducible apply takeOutcome_sound
    | exact hs

theorem expireReply_sound {s : State} (hs : Sound s) (d : Fin 2) (late : ReplyTimeout) :
    Sound (expireReply s d late) := by
  unfold expireReply
  try dsimp only
  repeat' split
  all_goals repeat' first
    | with_reducible apply takeOutcome_sound
    | exact hs

theorem dropSent_sound {s : State} (hs : Sound s) (d : Fin 2) :
    Sound (dropSent s d) := by
  unfold dropSent
  try dsimp only
  repeat' split
  all_goals repeat' first
    | with_reducible apply frameSent_sound
    | with_reducible apply setController_sound
    | exact hs

theorem sendRow_sound {s : State} (hs : Sound s) (d : Fin 2) :
    Sound (sendRow s d) := by
  unfold sendRow
  try dsimp only
  repeat' split
  all_goals repeat' first
    | with_reducible apply beginExchange_sound
    | exact hs

theorem startCycle_sound {s : State} (hs : Sound s) (d : Fin 2) :
    Sound (startCycle s d) := by
  unfold startCycle
  try dsimp only
  repeat' split
  all_goals repeat' first
    | with_reducible apply beginCycle_sound
    | exact hs

theorem repeatAssign_sound {s : State} (hs : Sound s) (d : Fin 2) :
    Sound (repeatAssign s d) := by
  unfold repeatAssign
  try dsimp only
  repeat' split
  all_goals repeat' first
    | with_reducible apply sendAssign_sound
    | exact hs

theorem startLearning_sound {s : State} (hs : Sound s) (d : Fin 2) :
    Sound (startLearning s d) := by
  unfold startLearning
  try dsimp only
  repeat' split
  all_goals repeat' first
    | with_reducible apply setController_sound
    | with_reducible apply beginLearning_sound
    | with_reducible apply clearExchange_sound
    | with_reducible apply returnRow_sound
    | with_reducible apply withdrawFetch_sound
    | exact hs


/-! ### Batch.lean -/

theorem setBatch_sound {s : State} (hs : Sound s) (b : Batch) :
    Sound (setBatch s b) := by
  unfold setBatch
  try dsimp only
  all_goals repeat' first
    | exact hs

theorem sendBlock_sound {s : State} (hs : Sound s) (b : Batch) :
    Sound (sendBlock s b) := by
  unfold sendBlock
  try dsimp only
  all_goals repeat' first
    | with_reducible apply sendFrame_sound
    | with_reducible apply setBatch_sound
    | exact hs

theorem composeBlock_sound {s : State} (hs : Sound s) (b : Batch) (p : Plan) (n : Nat) :
    Sound (composeBlock s b p n) := by
  unfold composeBlock
  try dsimp only
  repeat' split
  all_goals repeat' first
    | with_reducible apply sendBlock_sound
    | with_reducible apply askRun_sound
    | with_reducible apply setBatch_sound
    | exact hs

theorem fixBatch_sound {s : State} (hs : Sound s) :
    Sound (fixBatch s) := by
  unfold fixBatch
  try dsimp only
  all_goals repeat' first
    | with_reducible apply composeBlock_sound
    | exact hs

theorem setDayState_sound {s : State} (hs : Sound s) (d : DayState) :
    Sound (setDayState s d) := by
  unfold setDayState
  try dsimp only
  all_goals repeat' first
    | exact hs

theorem testSending_sound {s : State} (hs : Sound s) :
    Sound (testSending s) := by
  unfold testSending
  try dsimp only
  repeat' split
  all_goals repeat' first
    | with_reducible apply fixBatch_sound
    | with_reducible apply setDayState_sound
    | with_reducible apply dayControlEntry_sound
    | exact hs

theorem suspendBatch_sound {s : State} (hs : Sound s) (cause : SuspendCause) :
    Sound (suspendBatch s cause) := by
  unfold suspendBatch
  try dsimp only
  all_goals repeat' first
    | with_reducible apply dayControlEntry_sound
    | with_reducible apply setDayState_sound
    | with_reducible apply setBatch_sound
    | exact hs

theorem failedSend_sound {s : State} (hs : Sound s) :
    Sound (failedSend s) := by
  unfold failedSend
  try dsimp only
  repeat' split
  all_goals repeat' first
    | with_reducible apply sendBlock_sound
    | with_reducible apply raiseAlert_sound
    | with_reducible apply suspendBatch_sound
    | exact hs

theorem restartBatch_sound {s : State} (hs : Sound s) (n : Nat) :
    Sound (restartBatch s n) := by
  unfold restartBatch
  try dsimp only
  repeat' split
  all_goals repeat' first
    | with_reducible apply dayControlEntry_sound
    | with_reducible apply composeBlock_sound
    | with_reducible apply setDayState_sound
    | exact hs

theorem settleDay_sound {s : State} (hs : Sound s) :
    Sound (settleDay s) := by
  unfold settleDay
  try dsimp only
  all_goals repeat' first
    | with_reducible apply handGroups_sound
    | exact hs

theorem acknowledge_sound {s : State} (hs : Sound s) :
    Sound (acknowledge s) := by
  unfold acknowledge
  try dsimp only
  repeat' split
  all_goals repeat' first
    | with_reducible apply setBatch_sound
    | with_reducible apply composeBlock_sound
    | exact hs

theorem takeHoAck_sound {s : State} (hs : Sound s) (port : HoPort) (f : List Byte) :
    Sound (takeHoAck s port f) := by
  unfold takeHoAck
  try dsimp only
  repeat' split
  all_goals repeat' first
    | with_reducible apply acknowledge_sound
    | exact hs

theorem takeHoNak_sound {s : State} (hs : Sound s) (port : HoPort) (f : List Byte) :
    Sound (takeHoNak s port f) := by
  unfold takeHoNak
  try dsimp only
  repeat' split
  all_goals repeat' first
    | with_reducible apply failedSend_sound
    | exact hs

theorem takeHoWait_sound {s : State} (hs : Sound s) (port : HoPort) (f : List Byte) :
    Sound (takeHoWait s port f) := by
  unfold takeHoWait
  try dsimp only
  repeat' split
  all_goals repeat' first
    | with_reducible apply setBatch_sound
    | exact hs

theorem rejectBatch_sound {s : State} (hs : Sound s) (code : Nat) (hash : Nat) :
    Sound (rejectBatch s code hash) := by
  unfold rejectBatch
  try dsimp only
  all_goals repeat' first
    | with_reducible apply raiseAlert_sound
    | with_reducible apply dayControlEntry_sound
    | with_reducible apply setDayState_sound
    | with_reducible apply setBatch_sound
    | exact hs

theorem judgeFinal_sound {s : State} (hs : Sound s) (result hash : Nat) :
    Sound (judgeFinal s result hash) := by
  unfold judgeFinal
  try dsimp only
  repeat' split
  all_goals repeat' first
    | with_reducible apply rejectBatch_sound
    | with_reducible apply settleDay_sound
    | with_reducible apply setBatch_sound
    | exact hs

theorem takeHoFinal_sound {s : State} (hs : Sound s) (port : HoPort) (f : List Byte) :
    Sound (takeHoFinal s port f) := by
  unfold takeHoFinal
  try dsimp only
  repeat' split
  all_goals repeat' first
    | with_reducible apply judgeFinal_sound
    | with_reducible apply acknowledge_sound
    | exact hs

theorem hoSent_sound {s : State} (hs : Sound s) (port : HoPort) :
    Sound (hoSent s port) := by
  unfold hoSent
  try dsimp only
  repeat' split
  all_goals repeat' first
    | with_reducible apply frameSent_sound
    | with_reducible apply setBatch_sound
    | exact hs

theorem expireAck_sound {s : State} (hs : Sound s) :
    Sound (expireAck s) := by
  unfold expireAck
  try dsimp only
  repeat' split
  all_goals repeat' first
    | with_reducible apply failedSend_sound
    | exact hs

theorem expirePause_sound {s : State} (hs : Sound s) :
    Sound (expirePause s) := by
  unfold expirePause
  try dsimp only
  repeat' split
  all_goals repeat' first
    | with_reducible apply sendBlock_sound
    | exact hs

theorem expireFinal_sound {s : State} (hs : Sound s) :
    Sound (expireFinal s) := by
  unfold expireFinal
  try dsimp only
  repeat' split
  all_goals repeat' first
    | with_reducible apply failedSend_sound
    | exact hs

theorem batchTakesEntry_sound {s : State} (hs : Sound s) (e : List Byte) (last : Bool) :
    Sound (batchTakesEntry s e last) := by
  unfold batchTakesEntry
  try dsimp only
  repeat' split
  all_goals repeat' first
    | with_reducible apply sendBlock_sound
    | with_reducible apply setBatch_sound
    | exact hs

theorem batchBreaks_sound {s : State} (hs : Sound s) :
    Sound (batchBreaks s) := by
  unfold batchBreaks
  try dsimp only
  all_goals repeat' first
    | with_reducible apply raiseAlert_sound
    | with_reducible apply suspendBatch_sound
    | exact hs


/-! ### Day.lean -/

theorem cutOff_sound {s : State} (hs : Sound s) (code tag : Nat) :
    Sound (cutOff s code tag) := by
  unfold cutOff
  try dsimp only
  all_goals repeat' first
    | with_reducible apply testSending_sound
    | with_reducible apply dayControlEntry_sound
    | with_reducible apply setDayState_sound
    | exact hs

theorem takeTick_sound {s : State} (hs : Sound s) : Sound (takeTick s) := by
  have hc : clockAfter s.day.clock < 172800 := by
    have := hs.clock
    unfold clockAfter
    split <;> omega
  have ht : Sound { s with day := { s.day with clock := clockAfter s.day.clock } } :=
    ⟨hs.path, hs.memory, hc, hs.work⟩
  unfold takeTick
  dsimp only
  split
  · exact cutOff_sound ht 2 0
  · exact ht

theorem fetchRecords_sound {s : State} (hs : Sound s) (work : DayWork)
    (hw : DayWork.timely (some work)) : Sound (fetchRecords s work) :=
  requestFetch_sound (s := { s with day := { s.day with records := _, work := some work } })
    ⟨hs.path, hs.memory, hs.clock, hw⟩ _ _ _

theorem dayOpens_sound {s : State} (hs : Sound s) (date time : Nat) (record : Option (Fin 2))
    (ht : time < 172800) : Sound (dayOpens s date time record) := by
  unfold dayOpens
  dsimp only
  apply complete_sound
  apply dayControlEntry_sound
  refine foldl_sound (fun s k h => reopenPrinter_sound h k) _ ?_
  exact ⟨{ hs.path with }, hs.memory, ht, trivial⟩

theorem openChosen_sound {s : State} (hs : Sound s) (date time : Nat) (ht : time < 172800) :
    Sound (openChosen s date time) := by
  have hn : Sound { s with day := { s.day with work := none } } :=
    ⟨hs.path, hs.memory, hs.clock, trivial⟩
  unfold openChosen
  dsimp only
  repeat' split
  · exact complete_sound hn _ _
  · exact complete_sound hn _ _
  · exact dayOpens_sound hs _ _ _ ht

theorem settlementDone_sound {s : State} (hs : Sound s) :
    Sound (settlementDone s) := by
  unfold settlementDone
  try dsimp only
  repeat' split
  all_goals repeat' first
    | with_reducible apply dayControlEntry_sound
    | exact hs


/-! ### Replay.lean -/

theorem replayPosting_sound {s : State} (hs : Sound s) (number : Nat) (f : EntryFields) (breakdown : List Byte) :
    Sound (replayPosting s number f breakdown) := by
  unfold replayPosting
  try dsimp only
  repeat' split
  all_goals repeat' first
    | exact hs

theorem replayFired_sound {s : State} (hs : Sound s) (f : EntryFields) :
    Sound (replayFired s f) := by
  unfold replayFired
  try dsimp only
  repeat' split
  all_goals repeat' first
    | exact hs

theorem replayCleared_sound {s : State} (hs : Sound s) (f : EntryFields) :
    Sound (replayCleared s f) := by
  unfold replayCleared
  try dsimp only
  repeat' split
  all_goals repeat' first
    | exact hs

theorem replayHoldReleased_sound {s : State} (hs : Sound s) (f : EntryFields) :
    Sound (replayHoldReleased s f) := by
  unfold replayHoldReleased
  try dsimp only
  repeat' split
  all_goals repeat' first
    | exact hs

theorem replayForced_sound {s : State} (hs : Sound s) (f : EntryFields) :
    Sound (replayForced s f) := by
  unfold replayForced
  try dsimp only
  repeat' split
  all_goals repeat' first
    | exact hs

theorem setReplay_sound {s : State} (hs : Sound s) (r : Replay) :
    Sound (setReplay s r) := by
  unfold setReplay
  try dsimp only
  all_goals repeat' first
    | exact hs

theorem setReplayItems_sound {s : State} (hs : Sound s) (items : List ReplayItem) :
    Sound (setReplayItems s items) := by
  unfold setReplayItems
  try dsimp only
  all_goals repeat' first
    | exact hs

theorem replayBatch_sound {s : State} (hs : Sound s) (number : Nat) (f : EntryFields) :
    Sound (replayBatch s number f) := by
  unfold replayBatch
  try dsimp only
  repeat' split
  all_goals repeat' first
    | exact hs

theorem replayedTo_sound {s : State} (hs : Sound s) (number : Nat) (chain : BitVec 32) :
    Sound (replayedTo s number chain) := by
  unfold replayedTo
  try dsimp only
  all_goals repeat' first
    | with_reducible apply setReplay_sound
    | exact hs

theorem replayDayOpen_sound {s : State} (hs : Sound s) (f : EntryFields) :
    Sound (replayDayOpen s f) := by
  unfold replayDayOpen
  try dsimp only
  all_goals repeat' first
    | exact hs

theorem resumeDay_sound {s : State} (hs : Sound s) :
    Sound (resumeDay s) := by
  unfold resumeDay
  try dsimp only
  repeat' split
  all_goals repeat' first
    | with_reducible apply raiseAlertIf_sound
    | with_reducible apply complete_sound
    | with_reducible apply testSending_sound
    | exact hs
    | exact ⟨{ hs.path with }, hs.memory, hs.clock, hs.work⟩
    | exact ⟨hs.path, hs.memory, hs.clock, trivial⟩

theorem failResume_sound {s : State} (hs : Sound s) (detail : Nat) :
    Sound (failResume s detail) := by
  unfold failResume
  try dsimp only
  all_goals repeat' first
    | with_reducible apply complete_sound
    | exact hs
    | exact ⟨{ hs.path with }, hs.memory, hs.clock, hs.work⟩
    | exact ⟨hs.path, hs.memory, hs.clock, trivial⟩

theorem endReplay_sound {s : State} (hs : Sound s) :
    Sound (endReplay s) := by
  unfold endReplay
  try dsimp only
  repeat' split
  all_goals repeat' first
    | with_reducible apply endRun_sound
    | with_reducible apply failResume_sound
    | with_reducible apply resumeDay_sound
    | exact hs

theorem resumeChosen_sound {s : State} (hs : Sound s) :
    Sound (resumeChosen s) := by
  unfold resumeChosen
  try dsimp only
  repeat' split
  all_goals repeat' first
    | with_reducible apply failResume_sound
    | with_reducible apply askRun_sound
    | exact hs
    | exact ⟨{ hs.path with }, hs.memory, hs.clock, hs.work⟩
    | exact ⟨hs.path, hs.memory, hs.clock, trivial⟩

theorem endJournalCheck_sound {s : State} (hs : Sound s) (chain : BitVec 32) :
    Sound (endJournalCheck s chain) := by
  unfold endJournalCheck
  try dsimp only
  repeat' split
  all_goals repeat' first
    | with_reducible apply complete_sound
    | with_reducible apply raiseAlert_sound
    | exact hs

theorem tellBreak_sound {s : State} (hs : Sound s) (r : Run) : Sound (tellBreak s r) := by
  have he := endRun_sound hs .check
  unfold tellBreak
  split
  · exact endReplay_sound hs
  · exact batchBreaks_sound (endRun_sound hs .batch)
  · apply complete_sound
    apply raiseAlert_sound
    exact ⟨he.path, he.memory, he.clock, he.work⟩

theorem replayOther_sound {s t : State} (hs : Sound s) (number : Nat) (f : EntryFields)
    (ht : replayOther s number f = some t) : Sound t := by
  have hb : Sound (if f.kind = 16 then replayBatch s number f else s) := by
    split
    · exact replayBatch_sound hs number f
    · exact hs
  unfold replayOther at ht
  split at ht
  any_goals (injection ht with ht; subst ht)
  · exact ⟨hs.path, hs.memory, hs.clock, hs.work⟩
  · exact setReplayItems_sound hs _
  · exact setReplayItems_sound hs _
  · exact replayFired_sound hs f
  · exact replayCleared_sound hs f
  · exact replayHoldReleased_sound hs f
  · exact replayForced_sound hs f
  any_goals exact hs
  any_goals
    simp only [Option.map_eq_some_iff] at ht
    obtain ⟨d, _, rfl⟩ := ht
    exact setReplay_sound hb _
  exact nomatch ht

theorem replayEntry_sound {s t : State} (hs : Sound s) (number : Nat) (e : List Byte)
    (ht : replayEntry s number e = some t) : Sound t := by
  unfold replayEntry at ht
  dsimp only at ht
  split at ht
  · split at ht
    · injection ht with ht; subst ht
      exact replayedTo_sound (replayDayOpen_sound hs _) _ _
    · exact nomatch ht
  · split at ht
    · split at ht
      · injection ht with ht; subst ht
        exact replayedTo_sound (replayPosting_sound hs _ _ _) _ _
      · exact nomatch ht
    · split at ht
      · split at ht
        · injection ht with ht; subst ht
          exact setReplay_sound hs _
        · split at ht
          · injection ht with ht; subst ht
            exact replayedTo_sound (replayPosting_sound hs _ _ _) _ _
          · injection ht with ht; subst ht
            exact replayedTo_sound hs _ _
      · simp only [Option.map_eq_some_iff] at ht
        obtain ⟨u, hu, rfl⟩ := ht
        exact replayedTo_sound (replayOther_sound hs _ _ hu) _ _

theorem handEntry_sound {s : State} (hs : Sound s) (r : Run) (e : List Byte) (last : Bool) :
    Sound (handEntry s r e last) := by
  unfold handEntry
  split
  · split
    · exact endReplay_sound hs
    · rename_i t ht
      have hu := replayEntry_sound hs _ _ ht
      split
      · exact endReplay_sound hu
      · exact hu
  · apply batchTakesEntry_sound
    split
    · exact endRun_sound hs .batch
    · exact hs
  · split
    · exact endJournalCheck_sound (endRun_sound hs .check) _
    · exact hs

theorem passTurn_sound {s : State} (hs : Sound s) :
    Sound (passTurn s) := by
  unfold passTurn
  try dsimp only
  repeat' split
  all_goals repeat' first
    | with_reducible apply serveRuns_sound
    | exact hs

theorem verifyEntry_sound {s : State} (hs : Sound s) :
    Sound (verifyEntry s) := by
  unfold verifyEntry
  try dsimp only
  repeat' split
  all_goals repeat' first
    | with_reducible apply passTurn_sound
    | with_reducible apply handEntry_sound
    | with_reducible apply tellBreak_sound
    | exact hs

theorem takeRunEntry_sound {s : State} (hs : Sound s) :
    Sound (takeRunEntry s) := by
  unfold takeRunEntry
  try dsimp only
  repeat' split
  all_goals repeat' first
    | with_reducible apply verifyEntry_sound
    | with_reducible apply grantFetch_sound
    | exact hs


/-! ### Setup.lean -/

theorem beginCycles_sound {s : State} (hs : Sound s) : Sound (beginCycles s) := by
  refine foldl_sound (fun s d h => ?_) _ hs
  split
  · exact beginCycle_sound h d
  · exact h

theorem endJobs_sound {s : State} (hs : Sound s) :
    Sound (endJobs s) := by
  unfold endJobs
  try dsimp only
  all_goals repeat' first
    | with_reducible apply interruptLine_sound
    | (with_reducible apply foldl_sound; intro s a hs; try split)
    | exact hs

theorem withConfiguration_sound {s : State} (hs : Sound s) (c : Configuration) :
    Sound (withConfiguration s c) := by
  unfold withConfiguration
  try dsimp only
  all_goals repeat' first
    | exact hs
    | exact ⟨{ hs.path with }, hs.memory, hs.clock, hs.work⟩

theorem takeEffect_sound {s : State} (hs : Sound s) (c : Configuration) :
    Sound (takeEffect s c) := by
  unfold takeEffect
  try dsimp only
  repeat' split
  all_goals repeat' first
    | with_reducible apply endJobs_sound
    | with_reducible apply withdrawFetch_sound
    | with_reducible apply withConfiguration_sound
    | with_reducible apply restartPrinter_sound
    | with_reducible apply beginCycles_sound
    | with_reducible apply handGroups_sound
    | with_reducible apply complete_sound
    | (with_reducible apply foldl_sound; intro s a hs; try split)
    | exact hs

theorem judgeImage_sound {s : State} (hs : Sound s) (words : List Dword) :
    Sound (judgeImage s words) := by
  unfold judgeImage
  try dsimp only
  repeat' split
  all_goals repeat' first
    | with_reducible apply complete_sound
    | with_reducible apply takeEffect_sound
    | exact hs
    | exact ⟨{ hs.path with }, hs.memory, hs.clock, hs.work⟩


/-! ### Commands.lean -/

theorem commandApplyConfig_sound {s : State} (hs : Sound s) :
    Sound (commandApplyConfig s) := by
  unfold commandApplyConfig
  try dsimp only
  repeat' split
  all_goals repeat' first
    | with_reducible apply complete_sound
    | with_reducible apply requestFetch_sound
    | exact hs

theorem commandOpenDay_sound {s : State} (hs : Sound s) : Sound (commandOpenDay s) := by
  unfold commandOpenDay
  dsimp only
  split
  · exact complete_sound hs _ _
  · split
    · exact complete_sound hs _ _
    · rename_i hb
      simp only [Bool.or_eq_true, decide_eq_true_eq, not_or, not_lt] at hb
      have ht : laneField (argument s 1) 0 4 < 172800 := by omega
      split
      · exact fetchRecords_sound (complete_sound hs _ _) _ ht
      · refine handGroups_sound (complete_sound ?_ _ _) _
        exact ⟨hs.path, hs.memory, hs.clock, ht⟩

theorem commandResumeDay_sound {s : State} (hs : Sound s) : Sound (commandResumeDay s) := by
  unfold commandResumeDay
  dsimp only
  split
  · exact complete_sound hs _ _
  · split
    · exact complete_sound hs _ _
    · refine fetchRecords_sound (complete_sound ?_ _ _) _ trivial
      exact ⟨hs.path, hs.memory, by show laneField (argument s 0) 0 4 < 172800; omega, hs.work⟩

theorem commandSetTime_sound {s : State} (hs : Sound s) : Sound (commandSetTime s) := by
  unfold commandSetTime
  dsimp only
  split
  · exact complete_sound hs _ _
  · split
    · exact complete_sound hs _ _
    · refine complete_sound ?_ _ _
      exact ⟨hs.path, hs.memory, by show laneField (argument s 0) 0 4 < 172800; omega, hs.work⟩

theorem commandCloseDay_sound {s : State} (hs : Sound s) :
    Sound (commandCloseDay s) := by
  unfold commandCloseDay
  try dsimp only
  repeat' split
  all_goals repeat' first
    | with_reducible apply complete_sound
    | with_reducible apply cutOff_sound
    | exact hs

theorem commandForceBalance_sound {s : State} (hs : Sound s) :
    Sound (commandForceBalance s) := by
  unfold commandForceBalance
  try dsimp only
  repeat' split
  all_goals repeat' first
    | with_reducible apply complete_sound
    | with_reducible apply eventEntry_sound
    | with_reducible apply testSending_sound
    | exact hs

theorem commandReleaseDrawer_sound {s : State} (hs : Sound s) :
    Sound (commandReleaseDrawer s) := by
  unfold commandReleaseDrawer
  try dsimp only
  repeat' split
  all_goals repeat' first
    | with_reducible apply complete_sound
    | with_reducible apply drawerEvent_sound
    | with_reducible apply setDrawer_sound
    | exact hs

theorem commandReleaseHold_sound {s : State} (hs : Sound s) :
    Sound (commandReleaseHold s) := by
  unfold commandReleaseHold
  try dsimp only
  repeat' split
  all_goals repeat' first
    | with_reducible apply complete_sound
    | with_reducible apply eventEntry_sound
    | exact hs

theorem commandClearMonitor_sound {s : State} (hs : Sound s) :
    Sound (commandClearMonitor s) := by
  unfold commandClearMonitor
  try dsimp only
  repeat' split
  all_goals repeat' first
    | with_reducible apply complete_sound
    | with_reducible apply eventEntry_sound
    | exact hs

theorem commandResumeBatch_sound {s : State} (hs : Sound s) :
    Sound (commandResumeBatch s) := by
  unfold commandResumeBatch
  try dsimp only
  repeat' split
  all_goals repeat' first
    | with_reducible apply complete_sound
    | with_reducible apply restartBatch_sound
    | exact hs

theorem commandResendBatch_sound {s : State} (hs : Sound s) :
    Sound (commandResendBatch s) := by
  unfold commandResendBatch
  try dsimp only
  repeat' split
  all_goals repeat' first
    | with_reducible apply complete_sound
    | with_reducible apply restartBatch_sound
    | exact hs

theorem commandStartLearn_sound {s : State} (hs : Sound s) :
    Sound (commandStartLearn s) := by
  unfold commandStartLearn
  try dsimp only
  repeat' split
  all_goals repeat' first
    | with_reducible apply complete_sound
    | with_reducible apply startLearning_sound
    | exact hs

theorem commandEndLearn_sound {s : State} (hs : Sound s) :
    Sound (commandEndLearn s) := by
  unfold commandEndLearn
  try dsimp only
  repeat' split
  all_goals repeat' first
    | with_reducible apply complete_sound
    | with_reducible apply finishLearn_sound
    | with_reducible apply clearLine_sound
    | exact hs

theorem commandCheckJournal_sound {s : State} (hs : Sound s) :
    Sound (commandCheckJournal s) := by
  unfold commandCheckJournal
  try dsimp only
  repeat' split
  all_goals repeat' first
    | with_reducible apply complete_sound
    | with_reducible apply askRun_sound
    | exact hs

theorem commandCheckTotals_sound {s : State} (hs : Sound s) :
    Sound (commandCheckTotals s) := by
  unfold commandCheckTotals
  try dsimp only
  all_goals repeat' first
    | with_reducible apply complete_sound
    | with_reducible apply raiseAlertIf_sound
    | exact hs

theorem commandCheckLine_sound {s : State} (hs : Sound s) :
    Sound (commandCheckLine s) := by
  unfold commandCheckLine
  try dsimp only
  repeat' split
  all_goals repeat' first
    | with_reducible apply complete_sound
    | with_reducible apply setPosition_sound
    | exact hs

theorem commandClearAlerts_sound {s : State} (hs : Sound s) :
    Sound (commandClearAlerts s) := by
  unfold commandClearAlerts
  try dsimp only
  repeat' split
  all_goals repeat' first
    | with_reducible apply complete_sound
    | exact hs

theorem runCommand_sound {s : State} (hs : Sound s) (code : Nat) :
    Sound (runCommand s code) := by
  unfold runCommand
  try dsimp only
  repeat' split
  all_goals repeat' first
    | with_reducible apply commandApplyConfig_sound
    | with_reducible apply commandOpenDay_sound
    | with_reducible apply commandResumeDay_sound
    | with_reducible apply commandSetTime_sound
    | with_reducible apply commandCloseDay_sound
    | with_reducible apply commandForceBalance_sound
    | with_reducible apply commandReleaseDrawer_sound
    | with_reducible apply commandReleaseHold_sound
    | with_reducible apply commandClearMonitor_sound
    | with_reducible apply commandResumeBatch_sound
    | with_reducible apply commandResendBatch_sound
    | with_reducible apply commandStartLearn_sound
    | with_reducible apply commandEndLearn_sound
    | with_reducible apply commandCheckJournal_sound
    | with_reducible apply commandCheckTotals_sound
    | with_reducible apply commandCheckLine_sound
    | with_reducible apply commandClearAlerts_sound
    | with_reducible apply complete_sound
    | exact hs


/-! ### Posting.lean -/

theorem askReversal_sound {s : State} (hs : Sound s) (r : ReversalFetch) :
    Sound (askReversal s r) := by
  unfold askReversal
  try dsimp only
  repeat' split
  all_goals repeat' first
    | with_reducible apply requestFetch_sound
    | exact hs

theorem newHead_sound {s : State} (hs : Sound s) :
    Sound (newHead s) := by
  unfold newHead
  try dsimp only
  repeat' split
  all_goals repeat' first
    | with_reducible apply askReversal_sound
    | exact hs

theorem answerPositions_sound {s : State} (hs : Sound s) :
    Sound (answerPositions s) := by
  unfold answerPositions
  try dsimp only
  repeat' split
  all_goals repeat' first
    | with_reducible apply serveRuns_sound
    | with_reducible apply askReversal_sound
    | exact hs

theorem placeVerdict_sound {s : State} (hs : Sound s) (n : Fin 16) (writes : List (Nat × Dword))
    (result : Dword) : Sound (placeVerdict s n writes result) := by
  have ha : ∀ (p : Path), p.Sound → (answerHeld p n result).Sound := by
    intro p hp
    unfold answerHeld
    repeat' split
    all_goals first
      | exact hp
      | exact { hp with }
  have hg := handGroup_sound hs ⟨.posting, writes ++ [(resultAddress s n, result)]⟩
  exact ⟨ha _ hg.path, hg.memory, hg.clock, hg.work⟩

theorem leaveQueue_sound {s : State} (hs : Sound s) (n : Fin 16) (text : List Char) (refused : Bool) :
    Sound (leaveQueue s n text refused) := by
  unfold leaveQueue
  try dsimp only
  all_goals repeat' first
    | exact hs

theorem afterVerdict_sound {s : State} (hs : Sound s) :
    Sound (afterVerdict s) := by
  unfold afterVerdict
  try dsimp only
  all_goals repeat' first
    | with_reducible apply newHead_sound
    | with_reducible apply testSending_sound
    | exact hs

theorem refusalMarks_sound {s : State} (hs : Sound s) (m : Movement) (reason : Reason) :
    Sound (refusalMarks s m reason) := by
  unfold refusalMarks
  try dsimp only
  repeat' split
  all_goals repeat' first
    | with_reducible apply raiseAlert_sound
    | with_reducible apply raiseAlertIf_sound
    | exact hs

theorem refusePosting_sound {s : State} (hs : Sound s) (e : SubmitEntry) (reason : Reason) :
    Sound (refusePosting s e reason) := by
  unfold refusePosting
  dsimp only
  have hm := refusalMarks_sound hs (slotMovement s e (slotFieldsOf s e.slot)) reason
  generalize refusalMarks s (slotMovement s e (slotFieldsOf s e.slot)) reason = marked at hm ⊢
  apply afterVerdict_sound
  apply leaveQueue_sound
  split
  · apply placeVerdict_sound
    apply numberEntry_sound
    exact ⟨hm.path, hm.memory, hm.clock, hm.work⟩
  · apply placeVerdict_sound
    exact ⟨hm.path, hm.memory, hm.clock, hm.work⟩

theorem enterFirings_sound {s : State} (hs : Sound s) (f : SlotFields) (number : Nat) (firings : List Firing) :
    Sound (enterFirings s f number firings) := by
  unfold enterFirings
  try dsimp only
  all_goals repeat' first
    | with_reducible apply eventEntry_sound
    | (with_reducible apply foldl_sound; intro s a hs; try split)
    | exact hs

theorem enterUntracked_sound {s : State} (hs : Sound s) (f : SlotFields) (o : PassbookOutcome) :
    Sound (enterUntracked s f o) := by
  unfold enterUntracked
  try dsimp only
  repeat' split
  all_goals repeat' first
    | with_reducible apply eventEntry_sound
    | exact hs

theorem numberPosting_sound {s : State} (hs : Sound s) (m : Movement) (f : SlotFields) (marked mix : Bool) :
    Sound (numberPosting s m f marked mix).1 := by
  unfold numberPosting
  dsimp only
  split
  · exact numberEntry_sound (numberEntry_sound hs _ _) _ _
  · exact numberEntry_sound hs _ _

theorem acceptPosting_sound {s : State} (hs : Sound s) (e : SubmitEntry) :
    Sound (acceptPosting s e) := by
  unfold acceptPosting
  dsimp only
  apply afterVerdict_sound
  apply leaveQueue_sound
  apply enterUntracked_sound
  apply enterFirings_sound
  apply raiseAlertIf_sound
  apply placeVerdict_sound
  apply numberPosting_sound
  refine foldl_sound (fun s h hs => releaseDrawer_sound hs h) _ ?_
  exact ⟨hs.path, hs.memory, hs.clock, hs.work⟩

theorem judgeHead_sound {s : State} (hs : Sound s) :
    Sound (judgeHead s) := by
  unfold judgeHead
  try dsimp only
  repeat' split
  all_goals repeat' first
    | with_reducible apply refusePosting_sound
    | with_reducible apply acceptPosting_sound
    | exact hs


/-! ### HostBus.lean -/

theorem submit_sound {s : State} (hs : Sound s) (n : Fin 16) (buffer : List Byte) :
    Sound (submit s n buffer) := by
  unfold submit
  try dsimp only
  repeat' split
  all_goals repeat' first
    | with_reducible apply newHead_sound
    | exact hs

theorem captureSlot_sound {s : State} (hs : Sound s) (n : Fin 16) (offset : Nat) (mask : ByteMask) (data : Dword) :
    Sound (captureSlot s n offset mask data) := by
  unfold captureSlot
  try dsimp only
  repeat' split
  all_goals repeat' first
    | with_reducible apply submit_sound
    | exact hs

theorem captureRow_sound {s : State} (hs : Sound s) (p : Fin 16) (r : Nat) :
    Sound (captureRow s p r) := by
  unfold captureRow
  try dsimp only
  all_goals repeat' first
    | with_reducible apply setPosition_sound
    | exact hs

theorem captureConsumer_sound {s : State} (hs : Sound s) (p : Fin 16) (mask : ByteMask) (data : Dword) :
    Sound (captureConsumer s p mask data) := by
  unfold captureConsumer
  try dsimp only
  all_goals repeat' first
    | with_reducible apply setPosition_sound
    | exact hs

theorem captureCommand_sound {s : State} (hs : Sound s) (mask : ByteMask) (data : Dword) :
    Sound (captureCommand s mask data) := by
  unfold captureCommand
  split
  · apply runCommand_sound
    exact ⟨hs.path, hs.memory, hs.clock, hs.work⟩
  · exact ⟨hs.path, hs.memory, hs.clock, hs.work⟩

theorem captureArgument_sound {s : State} (hs : Sound s) (i : Fin 6) (mask : ByteMask) (data : Dword) :
    Sound (captureArgument s i mask data) := by
  unfold captureArgument
  try dsimp only
  all_goals repeat' first
    | exact hs

theorem capture_sound {s : State} (hs : Sound s) (mask : ByteMask) (data : Dword) (x : Region) :
    Sound (capture s mask data x) := by
  unfold capture
  try dsimp only
  repeat' split
  all_goals repeat' first
    | with_reducible apply captureSlot_sound
    | with_reducible apply captureRow_sound
    | with_reducible apply captureConsumer_sound
    | with_reducible apply captureCommand_sound
    | with_reducible apply captureArgument_sound
    | exact hs

theorem violation_sound {s : State} (hs : Sound s) (k : Fin 7) (mask : ByteMask) (addr : Nat) :
    Sound (violation s k mask addr) := by
  unfold violation
  try dsimp only
  repeat' split
  all_goals repeat' first
    | with_reducible apply eventEntry_sound
    | with_reducible apply raiseAlert_sound
    | exact hs
    | exact ⟨{ hs.path with }, hs.memory, hs.clock, hs.work⟩

theorem suppressWrite_sound {s : State} (hs : Sound s) (mask : ByteMask) (addr : Nat) :
    Sound (suppressWrite s mask addr) := by
  unfold suppressWrite
  try dsimp only
  repeat' split
  all_goals repeat' first
    | with_reducible apply violation_sound
    | exact hs

theorem streakUp_le (waits : Bool) {n : Nat} (h : n ≤ 8) : streakUp waits n ≤ 8 := by
  unfold streakUp
  split
  · rename_i hw
    simp only [Bool.and_eq_true, decide_eq_true_eq] at hw
    omega
  · exact h

theorem hostGranted_sound {p : Path} (hp : p.Sound) : (hostGranted p).Sound :=
  { hp with
    injectStreak := streakUp_le _ hp.injectStreak
    fetchStreak := streakUp_le _ hp.fetchStreak
    injectRest := by
      intro he
      have he' : p.queue = [] := he
      simp [hostGranted, streakUp, he', hp.injectRest he']
    fetchRest := by
      intro he
      have he' : p.fetches = [] := he
      simp [hostGranted, streakUp, he', hp.fetchRest he'] }

theorem takeWrite_sound {s : State} (hs : Sound s) (addr : Nat) (mask : ByteMask) (data : Dword) :
    Sound (takeWrite s addr mask data) := by
  have hg : Sound { s with path := { hostGranted s.path with bus := .idle } } :=
    ⟨{ hostGranted_sound hs.path with }, hs.memory, hs.clock, hs.work⟩
  have hw : Sound { s with path := { hostGranted s.path with bus := .idle },
                           mem := Memory.writeDword s.mem addr mask data } :=
    ⟨hg.path, wf_writeDword addr mask data hs.memory, hs.clock, hs.work⟩
  unfold takeWrite
  dsimp only
  split
  · split
    · exact hw
    · exact capture_sound hw mask data _
  · exact suppressWrite_sound hg mask addr

theorem grantWriteWhen_sound {s : State} (hs : Sound s) (row : Option Region → ByteMask → Dword → Bool) :
    Sound (grantWriteWhen s row) := by
  unfold grantWriteWhen
  try dsimp only
  repeat' split
  all_goals repeat' first
    | with_reducible apply takeWrite_sound
    | exact hs

theorem grantCommand_sound {s : State} (hs : Sound s) (code : Nat) :
    Sound (grantCommand s code) := by
  unfold grantCommand
  try dsimp only
  all_goals repeat' first
    | with_reducible apply grantWriteWhen_sound
    | exact hs

theorem readArrives_sound {s : State} (hs : Sound s) (addr : Nat) :
    Sound (readArrives s addr) := by
  unfold readArrives
  try dsimp only
  repeat' split
  all_goals repeat' first
    | exact hs
    | exact ⟨{ hs.path with }, hs.memory, hs.clock, hs.work⟩

theorem writeArrives_sound {s : State} (hs : Sound s) (addr : Nat) (mask : ByteMask) (data : Dword) :
    Sound (writeArrives s addr mask data) := by
  unfold writeArrives
  try dsimp only
  repeat' split
  all_goals repeat' first
    | exact hs
    | exact ⟨{ hs.path with }, hs.memory, hs.clock, hs.work⟩

theorem grantRead_sound {s : State} (hs : Sound s) : Sound (grantRead s) := by
  unfold grantRead
  repeat' split
  all_goals first
    | exact hs
    | exact ⟨{ hostGranted_sound hs.path with }, hs.memory, hs.clock, hs.work⟩

theorem offerRoom_sound {p : Path} (hp : p.Sound) : (offerRoom p).Sound := by
  unfold offerRoom
  split
  · exact { hp with }
  · exact hp

theorem drainedPath_sound {p : Path} (hp : p.Sound) : (drainedPath p).Sound := by
  have ht : (mirrorEntries (drainedPath p)).Sublist (mirrorEntries p) :=
    List.Sublist.filter _ (List.tail_sublist _)
  have hl : p.queue.tail.length = p.queue.length - 1 := List.length_tail
  constructor
  · have := hp.occupancy; simp only [drainedPath, hl]; omega
  · exact ht.length_le.trans hp.mirrorClass
  · exact hp.mirrorApart.sublist (ht.map _)
  · exact Nat.zero_le _
  · exact hp.fetchStreak
  · intro _; rfl
  · exact hp.fetchRest
  · simp only [drainedPath]
    split
    · intro _; omega
    · intro hn; have := hp.normal hn; omega
  · simp only [drainedPath]
    split
    · intro hd; cases hd
    · intro _; omega

theorem placeGroup_sound {s : State} (hs : Sound s) {g : Group} (hf : g.writes.length ≤ freeRoom s.path) :
    Sound (placeGroup s g) := by
  have hc : (dayPlaced s.day g.producer).clock = s.day.clock := by
    unfold dayPlaced; split <;> rfl
  have hw : (dayPlaced s.day g.producer).work = s.day.work := by
    unfold dayPlaced; split <;> rfl
  exact ⟨placeWrites_sound hs.path _ hf, hs.memory, hc ▸ hs.clock, hw ▸ hs.work⟩

theorem placeReached_sound (gs : List Group) {s : State} (hs : Sound s) : Sound (placeReached s gs) := by
  induction gs generalizing s with
  | nil => exact ⟨{ hs.path with }, hs.memory, hs.clock, hs.work⟩
  | cons g rest ih =>
    unfold placeReached
    split
    · rename_i hf
      exact ih (placeGroup_sound hs hf)
    · exact ⟨{ hs.path with }, hs.memory, hs.clock, hs.work⟩

theorem useRoom_sound {s : State} (hs : Sound s) : Sound (useRoom s) := by
  have h := placeReached_sound s.path.waiting hs
  exact ⟨offerRoom_sound h.path, h.memory, h.clock, h.work⟩

theorem drainHead_sound {s : State} (hs : Sound s) : Sound (drainHead s) := by
  unfold drainHead
  split
  · exact hs
  · split
    · exact hs
    · rename_i e _ _
      exact useRoom_sound ⟨drainedPath_sound hs.path,
        wf_writeDword e.addr (BitVec.allOnes 8) e.data hs.memory, hs.clock, hs.work⟩

theorem placeWaiting_sound {s : State} (hs : Sound s) : Sound (placeWaiting s) := by
  unfold placeWaiting
  repeat' split
  all_goals first
    | exact useRoom_sound hs
    | exact drainHead_sound hs
    | exact hs


/-! ### RowsDay.lean -/

theorem takeImage_sound {s : State} (hs : Sound s) :
    Sound (takeImage s) := by
  unfold takeImage
  try dsimp only
  repeat' split
  all_goals repeat' first
    | with_reducible apply judgeImage_sound
    | with_reducible apply grantFetch_sound
    | exact hs

theorem useRecords_sound {s : State} (hs : Sound s) : Sound (useRecords s) := by
  unfold useRecords
  split
  · rename_i date time hw
    have ht := hs.work
    rw [hw] at ht
    exact openChosen_sound hs date time ht
  · exact resumeChosen_sound hs
  · exact hs
  · exact hs
  · exact hs

theorem takeRecords_sound {s : State} (hs : Sound s) :
    Sound (takeRecords s) := by
  unfold takeRecords
  try dsimp only
  repeat' split
  all_goals repeat' first
    | with_reducible apply useRecords_sound
    | with_reducible apply grantFetch_sound
    | exact hs

theorem takeFreshDay_sound {s : State} (hs : Sound s) : Sound (takeFreshDay s) := by
  unfold takeFreshDay
  split
  · rename_i date time hw
    have ht := hs.work
    rw [hw] at ht
    split
    · exact dayOpens_sound hs _ _ _ ht
    · split
      · exact dayOpens_sound (placeWaiting_sound hs) _ _ _ ht
      · exact hs
  · exact hs
  · exact hs
  · exact hs
  · exact hs

theorem takeSettlementDone_sound {s : State} (hs : Sound s) :
    Sound (takeSettlementDone s) := by
  unfold takeSettlementDone
  try dsimp only
  repeat' split
  all_goals repeat' first
    | with_reducible apply settlementDone_sound
    | with_reducible apply placeWaiting_sound
    | exact hs

end Sys2Proof.Machine
end

