-- ==== Sys2Proof/Tests/Slice0.lean ====
section
/-! SUPPORT. Tests: ill-formed terms that the check refuses, check values of the CRCs, a few single steps, and
for every statement with hypotheses a state and operands that meet them all. -/

set_option Elab.async false

namespace Sys2Proof.Machine.Tests

/-! ### Small states -/

/-- A currency with faces 1, 5 and 10 and two decimals. -/
def coin : Currency :=
  { configured := 1, exponent := 2, denominations := 3, decimal := 0, grouping := 1, payable := 5,
    faces := [1, 5, 10, 0, 0, 0, 0, 0, 0, 0, 0, 0] }

/-- A position on drop line 0, bound to printer 0. -/
def counter (role address : Nat) : PositionSetup := ⟨1, role, 0, address, 0⟩

/-- A branch: two currencies, the vault and two tellers, P1 a teller and P2 a supervisor on drop line 0,
printer 0 on port 1, head office on port 2, its backup on port 3. -/
def branch : Configuration :=
  { bases := #v[0x10000, 0x20000, 0x40000, 0x50000, 0x100000, 0x60000], size := 1024, branch := 7,
    release := 0, overdue := 0, cutoff := 100, autoCutoff := 1,
    currencies := #v[coin, coin, { coin with configured := 0 }, { coin with configured := 0 }],
    active := (Vector.replicate 17 0 |>.set 0 1 |>.set 1 1 |>.set 2 1),
    positions := (Vector.replicate 16 ⟨0, 1, 0xFF, 0, 0xFF⟩ |>.set 0 (counter 1 1) |>.set 1 (counter 2 2)),
    ports := #v[⟨1, 0⟩, ⟨3, 0⟩, ⟨7, 0⟩, ⟨8, 0⟩, ⟨0, 0⟩, ⟨0, 0⟩],
    monitors := Vector.replicate 8 ⟨0, 0, 0xFF, 0, 0, 0, 0, 1, 0, 0⟩ }

/-- The part under the branch's configuration, after an installation. -/
def configured : State :=
  { State.reset with
    path := { State.reset.path with windows := configuredWindows State.reset.path.windows[0] branch },
    control := { State.reset.control with config := some branch } }

/-- The part in an OPEN day with its journal PRESENT and entry 1 made. -/
def openDay : State :=
  { configured with
    day := { configured.day with state := .opened, date := 20240506, openingCopy := some 0 },
    journal := { configured.journal with present := true, next := 2, free := 1023 } }

/-- A write that waits for the bus. -/
def waits (s : State) (addr : Nat) (mask : ByteMask) (data : Dword) : State :=
  { s with path := { s.path with bus := .writeWaiting addr mask data } }

/-- A command that waits for its grant, with its first argument doubleword. -/
def commanded (s : State) (code tag : Nat) (argument : Dword) : State :=
  waits
    { s with control := { s.control with arguments := s.control.arguments.set 0 argument } }
    0x3FFE1800 0xFF (dwordOfFields [(1, code), (1, 0), (2, tag)])

/-- The path of a state changed. -/
def onPath (s : State) (f : Path → Path) : State := { s with path := f s.path }

/-- The day state of a state changed. -/
def inDay (s : State) (d : DayState) : State := { s with day := { s.day with state := d } }

/-- The controller of drop line 0 changed. -/
def onLine0 (s : State) (f : Controller → Controller) : State := setController s 0 (f s.screen.controllers[0])

/-- The terminal of P1 changed: on line 0 with address 1. -/
def onTerminal (s : State) (f : Position → Position) : State :=
  setPosition s 0 (f { s.screen.positions[0] with state := .present, line := 0, address := 1 })

/-- Printer 0 changed. -/
def onPrinter (s : State) (f : Printer → Printer) : State := setPrinter s 0 (f s.passbook.printers[0])

/-- The batch changed. -/
def onBatch (s : State) (f : Batch → Batch) : State := { s with batch := f s.batch }

/-- The drawer of the vault changed. -/
def onVault (s : State) (f : Drawer → Drawer) : State := setDrawer s 0 (f s.drawers[0])

/-- Entries at 9000h and up, of both classes. -/
def entries (n : Nat) : List InjectEntry :=
  (List.range n).map fun i => ⟨0x9000 + 8 * i, BitVec.ofNat 64 i, if i % 2 = 0 then .mirror else .journal⟩

/-- A slot buffer: a cash posting of P1 over H1 in C0, 3 pieces of face 5, with a tag copy. -/
def cashBuffer (kind tagCopy : Nat) : List Byte :=
  leBytes 4 9 ++ leBytes 1 kind ++ leBytes 1 1 ++ leBytes 1 1 ++ List.replicate 5 0 ++ leBytes 4 20240506 ++
    leBytes 8 15 ++ List.replicate 24 0 ++ List.replicate 16 0 ++ bytes16 [0, 3, 0, 0, 0, 0, 0, 0, 0, 0, 0, 0] ++
    List.replicate 24 0 ++ leBytes 4 0x54534F50 ++ leBytes 4 tagCopy

/-- An OPEN day with one marked posting of slot 0 at the head of the Submit Queue. -/
def submitted (kind tagCopy : Nat) : State :=
  { openDay with posting := { openDay.posting with
      slots := openDay.posting.slots.set 0 ⟨cashBuffer kind tagCopy, .submitted⟩,
      queue := [⟨0, true⟩], need := some 17 } }

/-- A cash movement of H1 in C0: 3 pieces of face 5. -/
def cashMovement (kind : Nat) : Movement :=
  { kind := kind, form := kind, holderA := 1, holderB := 0, currencyA := 0, currencyB := 0, amountA := 15,
    amountB := 0, rate := 0, debit := false, breakdownA := [0, 3, 0, 0, 0, 0, 0, 0, 0, 0, 0, 0],
    breakdownB := List.replicate 12 0, ref := 0, closing := true }

/-- An ordinary passbook item of account 77. -/
def item (key : Nat) : Item := ordinaryItem 77 0 key .dep 500 1500

/-- Printer 0 prints the item with key 5 of account 77 on page 1, line 3, with its reservation. -/
def printing : State :=
  let s := setItems openDay [{ item 5 with printing := true }]
  onPrinter { s with journal := { s.journal with reservations := [0] } } fun p =>
    { p with state := .printing, job := some ⟨77, 1, 3, 0, some 5⟩, awaited := some .print, lineTimer := true }

/-- A plan of 5 blocks with hash total 40. -/
def plan : Plan :=
  { last := 2, chain := 5, records := 6, blocks := 7, monitors := [], accepted := 1, hash := 40 }

/-- The sender awaits the ACK of block 2 on the primary line. -/
def sendingDay : State :=
  onBatch (inDay openDay .sending) fun b =>
    { b with state := .awaitAck, plan := some plan, current := 2, kind := 2, buffer := [1, 2], ackWait := true }

/-- A head-office frame for a block with no payload. -/
def answer (kind block : Nat) : List Byte := headOfficeFrame kind block []

/-- A FINAL frame for the TRAILER of the plan. -/
def final (result hash : Nat) : List Byte := headOfficeFrame 0x84 6 (leBytes 1 result ++ leBytes 8 hash)

/-- An OPEN day with a REVERSAL of an entry number at the head of the Submit Queue. -/
def reversing (ref : Nat) (marked : Bool) : State :=
  let buffer := (cashBuffer 7 9).take 0x38 ++ leBytes 4 ref ++ (cashBuffer 7 9).drop 0x3C
  { openDay with posting := { openDay.posting with
      slots := openDay.posting.slots.set 0 ⟨buffer, .submitted⟩, queue := [⟨0, marked⟩], need := some 17 } }

/-- The same with the journal's next number and start. -/
def journalAt (s : State) (next start : Nat) : State :=
  { s with journal := { s.journal with next := next, start := start } }

/-- The Submit Queue replaced. -/
def queued (s : State) (queue : List SubmitEntry) : State := { s with posting := { s.posting with queue := queue } }

/-- Every balanced flag set. -/
def balanced (s : State) : State :=
  { s with totals := { s.totals with flags := Vector.replicate 17 ⟨false, true, false⟩ } }

/-- A plan of two ENTRY blocks, the second of one entry. -/
def longPlan : Plan := { plan with last := 5, blocks := 8 }

/-- The doublewords of a carry-forward copy as they are kept, newest first: settled date, next journal start. -/
def carried (settled : Nat) : List Dword :=
  List.replicate 511 0 ++ [dwordOfFields [(4, settled), (4, 10)]]

/-- A day control state whose record buffers hold two copies. -/
def fetchedRecords (s : State) (work : DayWork) (a b : Nat) : State :=
  { s with day := { s.day with
      work := some work, records := #v[⟨carried a, a ≠ 0⟩, ⟨carried b, b ≠ 0⟩] } }

/-- The bytes of the branch's image up to its CRC-32 (13.5). -/
def imageBody : List Byte :=
  let currency (on : Nat) : List Byte := leBytes 1 on ++ [2, 3, 0, 1] ++ List.replicate 3 0 ++ leBytes 4 5 ++
    List.replicate 4 0 ++ leBytes 4 1 ++ leBytes 4 5 ++ leBytes 4 10 ++ List.replicate 36 0
  let unused : List Byte := [0, 1, 0xFF, 0, 0xFF, 0, 0, 0]
  [0x10000, 0x20000, 0x40000, 0x50000, 0x100000, 0x60000, 1024, 7].flatMap (leBytes 4) ++
    List.replicate 4 0 ++ leBytes 4 100 ++ leBytes 1 1 ++ List.replicate 23 0 ++
    currency 1 ++ currency 1 ++ currency 0 ++ currency 0 ++ [1, 1, 1] ++ List.replicate 29 0 ++
    [1, 1, 0, 1, 0, 0, 0, 0] ++ [1, 2, 0, 2, 0, 0, 0, 0] ++ (List.replicate 14 unused).flatten ++
    [1, 0, 3, 0, 7, 0, 8, 0] ++ List.replicate 24 0 ++
    (List.replicate 8 ([0, 0, 0xFF, 0, 0, 0, 0, 1] ++ List.replicate 24 0)).flatten ++
    List.replicate 0x14F8 0

/-- The doublewords of the branch's image, newest first, with its CRC-32. -/
def imageWords : List Dword :=
  (dwordsOfBytes 768 (imageBody ++ leBytes 4 444873341 ++ List.replicate 4 0)).reverse

/-- The bytes of the entry numbered n after openDay's chain, at business time 0. -/
def journaled (n : Nat) (f : EntryFields) : List Byte := chainedEntry openDay (entryContent n 0 f)

/-- RESUME_DAY with DAY_OPEN replayed and entry 2 next. -/
def replaying : State :=
  { inDay configured .recovering with
    day := { configured.day with
      state := .recovering, date := 20240506, openingCopy := some 0, work := some .resumeReplaying,
      replay := { resetReplay with state := .opened, last := 1 } },
    journal := { configured.journal with
      runs := [⟨.replay, 2, none, some openDay.journal.chain, true⟩], serving := some .replay } }

/-- The replay's own figures changed. -/
def onReplay (f : Replay → Replay) : State :=
  { replaying with day := { replaying.day with replay := f replaying.day.replay } }

/-- The state after a command, the state itself where it gives none. -/
def after (c : Instr) (s : State) : State :=
  match exec c s with
  | .next t => t
  | .fault _ | .refused _ => s

theorem exec_after (c : Instr) (s : State) (h : (match exec c s with | .next _ => true | _ => false) = true) :
    exec c s = .next (after c s) := by
  unfold after
  split <;> simp_all

/-! ### Ill-formed commands are refused by the check -/

theorem test_wf_read_address :
    (Instr.hostRead 0x10001).wf = false ∧ (Instr.hostRead 0x10008).wf = true := by decide +kernel

theorem test_wf_write_address :
    (Instr.hostWriteArrival 0x10004 0xFF 5).wf = false ∧ (Instr.hostWriteArrival 0x10008 0xFF 5).wf = true := by
  decide +kernel

theorem test_wf_printer_frames :
    (Instr.bookIn 0 [0x11]).wf = false ∧ (Instr.bookOut 0 [0x10]).wf = false ∧
    (Instr.lineDone 0 [0x13]).wf = false ∧ (Instr.ready 0 [0x12]).wf = false ∧
    (Instr.printerAck 0 [0x15]).wf = false ∧ (Instr.bookIn 0 [0x10]).wf = true := by decide +kernel

theorem test_wf_head_office_frames :
    (Instr.hoAck .primary (answer 0x82 1)).wf = false ∧ (Instr.hoNak .primary (answer 0x81 1)).wf = false ∧
    (Instr.hoWait .primary (answer 0x84 1)).wf = false ∧ (Instr.hoFinal .primary (answer 0x83 1)).wf = false ∧
    (Instr.hoAck .primary (answer 0x81 1)).wf = true := by decide +kernel

theorem test_no_word_spells_a_command : decodeTableWord 32 7 = none := rfl

/-! ### Values the spec works out -/

/-- The text over which the spec states its check values. -/
def digits : List Byte := charBytes "123456789".toList

theorem test_crc16_check_value : crc16 digits = 0x29B1 := by decide +kernel

theorem test_crc32_check_value : crc32 digits = 0xCBF43926 := by decide +kernel

theorem test_crc8_check_value : crc8 digits = 0xF4 := by decide +kernel

theorem test_zero_record_verifies : recordVerifies zeroRecord = true := by decide +kernel

theorem test_exchange_cases :
    (payable 50000 108345000 2 2 500, residue 50000 108345000 2 2 500) = (54000, 1725000) ∧
    (payable 1234567 250000000 3 0 10, residue 1234567 250000000 3 0 10) = (3080, 64175) ∧
    (payable 10000 732100 0 2 1, residue 10000 732100 0 2 1) = (7321, 0) ∧
    payable 1 1 2 0 1 = 0 ∧ payable 500000000000 1000000000 0 2 1 = 500000000000000 := by decide +kernel

theorem test_amount_fields :
    amountField coin 54000 = "       540.00 ".toList ∧
    amountField { coin with exponent := 3 } 1234567 = "    1,234.567 ".toList ∧
    amountField coin (-25000) = "       250.00-".toList ∧ amountField coin 5 = "         0.05 ".toList ∧
    amountField coin 0 = "         0.00 ".toList ∧
    amountField { coin with decimal := 1, grouping := 2 } 1234567 = "    12.345,67 ".toList ∧
    amountField { coin with exponent := 0, grouping := 3 } 1234567 = "    1 234 567 ".toList ∧
    amountField coin (-1183450) = "    11,834.50-".toList ∧
    amountField coin 10000000000 = List.replicate 14 '*' ∧
    amountField { coin with grouping := 0 } 10000000000 = " 100000000.00 ".toList := by decide +kernel

theorem test_strap_bases :
    strapBase 0 = 0x3FFE0000 ∧ strapBase 1 = 0x7FFE0000 ∧ strapBase 2 = 0xBFFE0000 ∧
    strapBase 3 = 0xFFFE0000 := by decide +kernel

theorem test_image_reads_as_the_branch :
    imageConfiguration (bufferBytes imageWords) = branch ∧ imageWords.length = 768 := by decide +kernel

theorem test_image_passes : imageFault configured (bufferBytes imageWords) = none := by decide +kernel

theorem test_cash_in_verdicts :
    verdict (submitted 1 9) ⟨0, true⟩ = none ∧ verdict (submitted 2 9) ⟨0, true⟩ = some .shortNotes ∧
    verdict (submitted 1 8) ⟨0, true⟩ = some .tagMismatch := by decide +kernel

/-! ### Hypotheses that hold of no evaluation -/

theorem test_met_StepRunsTheFrontCommand :
    ∃ (c : Instr) (rest : List Instr) (s : State), s.pending = c :: rest :=
  ⟨.tick, [.injectDrain], { configured with pending := [.tick, .injectDrain] }, rfl⟩

theorem test_met_EmptyQueueIdles : ∃ s : State, s.pending = [] := ⟨configured, rfl⟩

theorem test_met_EveryStepKeepsSoundness : ∃ s t : State, Sound s ∧ step s = .next t :=
  ⟨configured, configured,
    ⟨⟨by decide +kernel, by decide +kernel, by decide +kernel, by decide +kernel, by decide +kernel,
      by decide +kernel, by decide +kernel, by decide +kernel, by decide +kernel⟩,
      by decide +kernel, by decide +kernel, trivial⟩, rfl⟩

theorem test_met_MirrorWriteReplacesJoinsOrIsRefused :
    (∃ (p : Path) (addr : Nat) (a b : List InjectEntry) (d : Dword), p.queue = a ++ ⟨addr, d, .mirror⟩ :: b ∧
      ∀ e ∈ a ++ b, e.cls = .mirror → e.addr ≠ addr) ∧
    (∃ (p : Path) (addr : Nat), (∀ e ∈ p.queue, e.cls = .mirror → e.addr ≠ addr) ∧
      p.queue.length = 23 ∧ p.waiting = []) ∧
    (∃ (p : Path) (addr : Nat), (∀ e ∈ p.queue, e.cls = .mirror → e.addr ≠ addr) ∧
      p.queue.length = 24) :=
  ⟨⟨{ resetPath 0 with queue := entries 3 }, 0x9000, [], [⟨0x9008, 1, .journal⟩, ⟨0x9010, 2, .mirror⟩], 0,
      by decide +kernel⟩,
    ⟨{ resetPath 0 with queue := entries 23 }, 8, by decide +kernel⟩,
    ⟨{ resetPath 0 with queue := entries 24 }, 8, by decide +kernel⟩⟩

theorem test_met_OpeningBooksAreInBalance :
    ∃ counts : Fin 17 → Fin 4 → List Nat, ∀ h k, (counts h k).length ≤ 12 :=
  ⟨fun _ _ => List.replicate 12 3, by decide +kernel⟩

theorem test_met_AcceptedPostingKeepsTheBalance :
    ∃ (s : State) (e : SubmitEntry), verdict s e = none ∧ InBalance s.configuration s.totals :=
  ⟨submitted 1 9, ⟨0, true⟩, by decide +kernel, by decide +kernel, by decide +kernel, by decide +kernel⟩

theorem test_met_PostingKeepsCheckWords : ∃ t : Totals, ChecksTrue t := by
  refine ⟨resetTotals, ?_⟩
  unfold ChecksTrue
  decide +kernel

theorem test_met_JobTakesItsLine :
    ∃ (k : Fin 4) (frame : List Byte) (e : Item) (job : Job), printerSends frame 0x10 = true ∧
      field frame 2 8 = 77 ∧ field frame 10 1 = 32 ∧ field frame 11 1 = 24 ∧ job = ⟨77, 32, 24, 0, none⟩ ∧
      ∀ state ∈ [(PrinterState.idle, (none : Option Job)), (.turnWait, some ⟨78, 1, 25, 4, none⟩),
          (.turnWait, some ⟨77, 31, 25, 0, none⟩)],
        ∀ free ∈ [8, 9],
          let x := onPrinter { setItems openDay [item 5] with journal := { openDay.journal with free := free } }
            fun p => { p with state := state.1, job := state.2 }
          x.inReset = false ∧ x.configuration.printerPort k = some 1 ∧ x.day.state = .opened ∧
            nextWaiting x.passbook.items 77 = some e ∧ (reservationGranted x = true ↔ free = 9) :=
  ⟨0, printerFrame 0x10 (leBytes 8 77 ++ [32, 24]), item 5, _, by decide +kernel, by decide +kernel,
    by decide +kernel, by decide +kernel, rfl, by decide +kernel⟩

theorem test_met_ReversalIsTestedInOrder :
    ∃ (s : State) (r : ReversalFetch), s.posting.reversal = some r :=
  ⟨{ configured with posting := { configured.posting with reversal := some ⟨5, true, true, []⟩ } }, _, rfl⟩

theorem test_met_LegsAndMonitorsAreTakenInOrder :
    ∀ form : Fin 6, ∃ (m : Movement) (a b : Fin 17) (j k : Fin 4), m.form = form.val + 1 ∧
      m.holderA = a.val ∧ m.holderB = b.val ∧ m.currencyA = j.val ∧ m.currencyB = k.val :=
  fun form => ⟨{ cashMovement 1 with form := form.val + 1, holderB := 2, currencyB := 1 }, 1, 2, 0, 1,
    rfl, rfl, rfl, rfl, rfl⟩

theorem test_met_AlertFieldShowsTheHighest :
    openDay.configuration.positions[(1 : Fin 16)].role = 2 ∧
      openDay.configuration.positions[(0 : Fin 16)].role ≠ 2 := by decide +kernel

theorem test_reversed_set_holds_no_two_alike :
    joinReversed [5] 5 = [5] ∧ joinReversed [5] 6 = [5, 6] := by decide +kernel

/-- P1 has missed two replies and is polled; P2, a supervisor with nothing dirty, is next. -/
def thirdMiss : State :=
  let s := after .tick openDay
  let q := s.screen.positions[1]
  onLine0
    (setPosition (onTerminal s fun q => { q with missed := 2 }) 1
      { q with state := .present, line := 0, address := 2, dirty := 0 })
    fun c => { c with mode := .cycling, remaining := [1], exchange := some ⟨0, .poll, .awaiting⟩ }

theorem test_a_lost_terminal_is_shown_at_the_next_visit :
    let c := (after (.dropReplyTimeout 0 .noFirstByte) thirdMiss).screen.controllers[0]
    c.exchange = some ⟨1, .row false, .filling⟩ ∧ c.rowNumber = 23 := by decide +kernel

/-! ### The statements' hypotheses are met -/

theorem test_met_UnalignedAddressIsNoTransaction :
    ∃ (addr : BitVec 64),
      addr.toNat % 8 ≠ 0 :=
  ⟨0x10001, by decide +kernel⟩

theorem test_met_ArrivingWriteWaits :
    ∃ (s : State) (addr : BitVec 64),
      s.inReset = false ∧
      addr.toNat % 8 = 0 ∧
      s.path.bus = .idle :=
  ⟨configured, 0x10000, by decide +kernel⟩

theorem test_met_ArrivingReadIsHeldAnsweredOrWaits :
    (∃ (s : State) (addr : BitVec 64),
      s.inReset = false ∧
      addr.toNat % 8 = 0 ∧
      s.path.bus = .idle ∧
      (∃ n : Fin 16, regionAt s addr.toNat = some (.slotResult n) ∧ s.posting.slots[n].state = .submitted)) ∧
    (∃ (s : State) (addr : BitVec 64),
      s.inReset = false ∧
      addr.toNat % 8 = 0 ∧
      s.path.bus = .idle ∧
      (regionAt s addr.toNat = none ∧ newestEntry s.path.queue addr.toNat = some 1)) ∧
    (∃ (s : State) (addr : BitVec 64),
      s.inReset = false ∧
      addr.toNat % 8 = 0 ∧
      s.path.bus = .idle ∧
      (regionAt s addr.toNat = none ∧ newestEntry s.path.queue addr.toNat = none)) :=
  ⟨⟨(submitted 1 9), 0x10078, by decide +kernel⟩,
    ⟨(onPath configured fun p => { p with queue := entries 2 }), 0x9008, by decide +kernel⟩,
    ⟨configured, 0x9008, by decide +kernel⟩⟩

theorem test_met_GrantedReadReturnsTheNewestValue :
    ∃ (s : State) (addr : Nat),
      s.inReset = false ∧
      s.path.bus = .readWaiting addr ∧
      nextGrant s.path = some .host :=
  ⟨(onPath configured fun p => { p with bus := .readWaiting 0x9008, queue := entries 2 }), 0x9008, by decide +kernel⟩

theorem test_met_ArbiterOrder :
    (∃ (p : Path),
      (p.mode = .drain ∧ p.queue ≠ [])) ∧
    (∃ (p : Path),
      (p.mode = .normal ∧ p.queue ≠ [] ∧ p.injectStreak = 8)) ∧
    (∃ (p : Path),
      (p.mode = .normal ∧ p.queue = [] ∧ p.fetches ≠ [] ∧ p.fetchStreak = 8)) ∧
    (∃ (p : Path),
      (p.mode = .normal ∧ p.injectStreak ≠ 8 ∧ p.fetches = [] ∧ hostWaits p = true)) ∧
    (∃ (p : Path),
      (p.mode = .normal ∧ p.injectStreak ≠ 8 ∧ p.fetches = [] ∧ hostWaits p = false ∧ p.queue ≠ [])) ∧
    (∃ (p : Path),
      (p.mode = .normal ∧ p.queue = [] ∧ p.fetchStreak ≠ 8 ∧ hostWaits p = false ∧ p.fetches ≠ [])) ∧
    (∃ (p : Path),
      (p.mode = .normal ∧ hostWaits p = false ∧ p.queue = [] ∧ p.fetches = [])) :=
  ⟨⟨({ resetPath 0 with mode := .drain, queue := entries 9 }), by decide +kernel⟩,
    ⟨({ resetPath 0 with queue := entries 3, injectStreak := 8 }), by decide +kernel⟩,
    ⟨({ resetPath 0 with fetches := [⟨.day, 0, 2⟩], fetchStreak := 8 }), by decide +kernel⟩,
    ⟨({ resetPath 0 with bus := .readWaiting 0, queue := entries 3 }), by decide +kernel⟩,
    ⟨({ resetPath 0 with queue := entries 3 }), by decide +kernel⟩,
    ⟨({ resetPath 0 with fetches := [⟨.day, 0, 2⟩] }), by decide +kernel⟩,
    ⟨(resetPath 0), by decide +kernel⟩⟩

theorem test_met_WriteChangesItsEnabledLanesOnly :
    (∃ (mem : List Host.Cell) (addr : Nat) (mask : ByteMask) (a : Nat),
      Memory.wf mem = true ∧
      (addr ≤ a ∧ a < addr + 8 ∧ mask.getLsbD (a - addr) = true)) ∧
    (∃ (mem : List Host.Cell) (addr : Nat) (a : Nat),
      Memory.wf mem = true ∧
      (¬(addr ≤ a))) :=
  ⟨⟨[⟨4, 1⟩, ⟨20, 3⟩], 16, 0x11, 20, by decide +kernel⟩,
    ⟨[⟨4, 1⟩, ⟨20, 3⟩], 16, 4, by decide +kernel⟩⟩

theorem test_met_UncapturedWritePasses :
    (∃ (s : State) (addr : Nat) (mask : ByteMask) (data : Dword),
      WriteGranted s addr mask data ∧
      writePasses s addr = true ∧
      (regionAt s addr = none ∨ regionAt s addr = some .image ∨ regionAt s addr = some .hostArea ∨ regionAt s addr = some .screenTail) ∧
      (regionAt s addr = none)) ∧
    (∃ (s : State) (addr : Nat) (mask : ByteMask) (data : Dword),
      WriteGranted s addr mask data ∧
      writePasses s addr = true ∧
      (regionAt s addr = none ∨ regionAt s addr = some .image ∨ regionAt s addr = some .hostArea ∨ regionAt s addr = some .screenTail) ∧
      (regionAt s addr = some .image)) ∧
    (∃ (s : State) (addr : Nat) (mask : ByteMask) (data : Dword),
      WriteGranted s addr mask data ∧
      writePasses s addr = true ∧
      (regionAt s addr = none ∨ regionAt s addr = some .image ∨ regionAt s addr = some .hostArea ∨ regionAt s addr = some .screenTail) ∧
      (regionAt s addr = some .hostArea)) ∧
    (∃ (s : State) (addr : Nat) (mask : ByteMask) (data : Dword),
      WriteGranted s addr mask data ∧
      writePasses s addr = true ∧
      (regionAt s addr = none ∨ regionAt s addr = some .image ∨ regionAt s addr = some .hostArea ∨ regionAt s addr = some .screenTail) ∧
      (regionAt s addr = some .screenTail)) :=
  ⟨⟨(waits configured 0x8000 0x0F 5), 0x8000, 0x0F, 5, by decide +kernel⟩,
    ⟨(waits configured 0x3FFE0000 0x0F 5), 0x3FFE0000, 0x0F, 5, by decide +kernel⟩,
    ⟨(waits configured 0x3FFE1900 0x0F 5), 0x3FFE1900, 0x0F, 5, by decide +kernel⟩,
    ⟨(waits configured 0x20F00 0x0F 5), 0x20F00, 0x0F, 5, by decide +kernel⟩⟩

theorem test_met_ArgumentWriteIsCaptured :
    ∃ (s : State) (addr : Nat) (mask : ByteMask) (data : Dword) (i : Fin 6),
      WriteGranted s addr mask data ∧
      regionAt s addr = some (.argument i) ∧
      pendingAt s addr = false :=
  ⟨(waits configured 0x3FFE1810 0x0F 5), 0x3FFE1810, 0x0F, 5, 1, by decide +kernel⟩

theorem test_met_SuppressedWriteIsCounted :
    (∃ (s : State) (addr : Nat) (mask : ByteMask) (data : Dword) (k : Fin 7),
      WriteGranted s addr mask data ∧
      mask ≠ 0 ∧
      writePasses s addr = false ∧
      windowAt s.path addr = some k ∧
      (s.path.reported[k] = false)) ∧
    (∃ (s : State) (addr : Nat) (mask : ByteMask) (data : Dword) (k : Fin 7),
      WriteGranted s addr mask data ∧
      mask ≠ 0 ∧
      writePasses s addr = false ∧
      windowAt s.path addr = some k ∧
      (s.path.reported[k] = true ∧ s.path.violations[k] = 0xFFFFFFFF)) :=
  ⟨⟨(waits openDay 0x50000 0x0F 5), 0x50000, 0x0F, 5, 4, by decide +kernel⟩,
    ⟨(onPath (waits configured 0x50000 0x0F 5) fun p => { p with violations := p.violations.set 4 0xFFFFFFFF, reported := p.reported.set 4 true }), 0x50000, 0x0F, 5, 4, by decide +kernel⟩⟩

theorem test_met_ScreenRowWriteMarksTheRow :
    ∃ (s : State) (addr : Nat) (mask : ByteMask) (data : Dword) (p : Fin 16) (r : Nat),
      WriteGranted s addr mask data ∧
      regionAt s addr = some (.screenRow p r) ∧
      pendingAt s addr = false :=
  ⟨(waits configured 0x200A0 0x0F 5), 0x200A0, 0x0F, 5, 0, 1, by decide +kernel⟩

theorem test_met_ConsumerWriteSetsTheIndex :
    ∃ (s : State) (addr : Nat) (mask : ByteMask) (data : Dword) (p : Fin 16),
      WriteGranted s addr mask data ∧
      regionAt s addr = some (.consumer p) ∧
      pendingAt s addr = false :=
  ⟨(waits configured 0x40008 0x02 0x1234), 0x40008, 0x02, 0x1234, 0, by decide +kernel⟩

theorem test_met_DrainWritesTheHead :
    (∃ (s : State) (e : InjectEntry) (rest : List InjectEntry),
      s.inReset = false ∧
      nextGrant s.path = some .inject ∧
      s.path.queue = e :: rest) ∧
    (∃ (s : State) (e : InjectEntry) (rest : List InjectEntry),
      s.inReset = false ∧
      nextGrant s.path = some .inject ∧
      s.path.queue = e :: rest ∧
      (s.path.waiting.length = 1 ∧ rest.length = 1)) :=
  ⟨⟨(onPath configured fun p => { p with queue := entries 2 }), ⟨0x9000, 0, .mirror⟩, [⟨0x9008, 1, .journal⟩], by decide +kernel⟩,
    ⟨(onPath configured fun p => { p with queue := entries 2, waiting := [⟨.journal, [(16, 2)]⟩] }), ⟨0x9000, 0, .mirror⟩, [⟨0x9008, 1, .journal⟩], by decide +kernel⟩⟩

theorem test_met_DrainKeepsEveryReadValue :
    ∃ (s : State) (a : Nat),
      Memory.wf s.mem = true ∧
      (∀ e ∈ s.path.queue, e.addr % 8 = 0) ∧
      a % 8 = 0 ∧
      drainPlacesNone s.path :=
  ⟨(onPath configured fun p => { p with queue := entries 2 }), 0x9000, by decide +kernel⟩

theorem test_met_DrainModeEndsAtEight :
    (∃ (s : State),
      s.path.mode = .drain ∧
      s.path.queue ≠ [] ∧
      (s.path.queue.length = 9)) ∧
    (∃ (s : State),
      s.path.mode = .drain ∧
      s.path.queue ≠ [] ∧
      (s.path.queue.length = 10)) :=
  ⟨⟨(onPath configured fun p => { p with queue := entries 9, mode := .drain }), by decide +kernel⟩,
    ⟨(onPath configured fun p => { p with queue := entries 10, mode := .drain }), by decide +kernel⟩⟩

theorem test_met_GroupIsPlacedWholeOrWaits :
    (∃ (s : State) (g : Group),
      (s.path.waiting = [] ∧ s.path.queue.length + g.writes.length ≤ 32)) ∧
    (∃ (s : State) (g : Group),
      (s.path.queue.length + g.writes.length = 33 ∧ g.writes ≠ [])) :=
  ⟨⟨configured, ⟨.journal, [(8, 1), (16, 2)]⟩, by decide +kernel⟩,
    ⟨(onPath configured fun p => { p with queue := entries 31 }), ⟨.journal, [(8, 1), (16, 2)]⟩, by decide +kernel⟩⟩

theorem test_met_OldestWaitingGroupIsPlaced :
    ∃ (s : State) (g : Group) (rest : List Group),
      s.inReset = false ∧
      s.path.waiting = g :: rest ∧
      s.path.queue.length + g.writes.length ≤ 32 ∧
      (∀ h ∈ rest.head?, 32 < s.path.queue.length + g.writes.length + h.writes.length) :=
  ⟨(onPath configured fun p => { p with queue := entries 20, waiting := [⟨.completion true, [(8, 1)]⟩, ⟨.journal, List.replicate 12 (16, 2)⟩] }), ⟨.completion true, [(8, 1)]⟩, [⟨.journal, List.replicate 12 (16, 2)⟩], by decide +kernel⟩

theorem test_met_FetchGrantAnswersTheCurrentDoubleword :
    (∃ (s : State) (r : FetchRequest) (rest : List FetchRequest),
      s.inReset = false ∧
      nextGrant s.path = some .fetch ∧
      s.path.fetches = r :: rest ∧
      1 < r.left ∧
      newestEntry s.path.queue (r.next + 8) = none ∧
      (r.client = .control ∧ s.control.image = some [])) ∧
    (∃ (s : State) (r : FetchRequest) (rest : List FetchRequest),
      s.inReset = false ∧
      nextGrant s.path = some .fetch ∧
      s.path.fetches = r :: rest ∧
      1 < r.left ∧
      newestEntry s.path.queue (r.next + 8) = none ∧
      (r.client = .drop 0)) ∧
    (∃ (s : State) (r : FetchRequest) (rest : List FetchRequest),
      s.inReset = false ∧
      nextGrant s.path = some .fetch ∧
      s.path.fetches = r :: rest ∧
      1 < r.left ∧
      newestEntry s.path.queue (r.next + 8) = none ∧
      (r.client = .posting ∧ s.posting.reversal = some ⟨5, true, false, []⟩)) ∧
    (∃ (s : State) (r : FetchRequest) (rest : List FetchRequest),
      s.inReset = false ∧
      nextGrant s.path = some .fetch ∧
      s.path.fetches = r :: rest ∧
      1 < r.left ∧
      newestEntry s.path.queue (r.next + 8) = none ∧
      (r.client = .journal ∧ s.journal.serving = some .check ∧ (runOf s.journal .check).bind (·.chain) = some 7)) ∧
    (∃ (s : State) (r : FetchRequest) (rest : List FetchRequest),
      s.inReset = false ∧
      nextGrant s.path = some .fetch ∧
      s.path.fetches = r :: rest ∧
      1 < r.left ∧
      newestEntry s.path.queue (r.next + 8) = none ∧
      (r.client = .day ∧ s.day.records[0].words = [])) ∧
    (∃ (s : State) (r : FetchRequest) (rest : List FetchRequest),
      s.inReset = false ∧
      nextGrant s.path = some .fetch ∧
      s.path.fetches = r :: rest ∧
      1 < r.left ∧
      newestEntry s.path.queue (r.next + 8) = none ∧
      (r.client = .day ∧ s.day.records[0].words.length = 512 ∧ s.day.records[1].words = [])) :=
  ⟨⟨(onPath { configured with control := { configured.control with image := some [] } } fun p => { p with fetches := [⟨.control, 0x3FFE0000, 32⟩], fetchWaits := true }), ⟨.control, 0x3FFE0000, 32⟩, [], by decide +kernel⟩,
    ⟨(onPath configured fun p => { p with fetches := [⟨.drop 0, 0x200A0, 20⟩], fetchWaits := true }), ⟨.drop 0, 0x200A0, 20⟩, [], by decide +kernel⟩,
    ⟨(onPath { openDay with posting := { openDay.posting with reversal := some ⟨5, true, false, []⟩ } } fun p => { p with fetches := [⟨.posting, 0x100000, 8⟩], fetchWaits := true }), ⟨.posting, 0x100000, 8⟩, [], by decide +kernel⟩,
    ⟨(onPath { openDay with journal := { openDay.journal with runs := [⟨.check, 1, some 3, some 7, true⟩], serving := some .check } } fun p => { p with fetches := [⟨.journal, 0x100000, 8⟩], fetchWaits := true }), ⟨.journal, 0x100000, 8⟩, [], by decide +kernel⟩,
    ⟨(onPath configured fun p => { p with fetches := [⟨.day, 0x100000, 8⟩], fetchWaits := true }), ⟨.day, 0x100000, 8⟩, [], by decide +kernel⟩,
    ⟨(onPath { configured with day := { configured.day with records := #v[⟨carried 5, true⟩, ⟨[], false⟩] } } fun p => { p with fetches := [⟨.day, 0x100000, 8⟩], fetchWaits := true }), ⟨.day, 0x100000, 8⟩, [], by decide +kernel⟩⟩

theorem test_met_KeysPassTheConsumerAlone :
    (∃ (s : State) (addr : Nat) (mask : ByteMask) (data : Dword) (o : Nat),
      WriteGranted s addr mask data ∧
      mask ≠ 0 ∧
      pendingAt s addr = false ∧
      windowAt s.path addr = some 3 ∧
      addr = s.path.windows[3].base + o ∧
      o < 0x400 ∧
      o % 8 = 0 ∧
      (o % 0x40 = 8 ∧ mask.getLsbD 0 = true ∧ mask.getLsbD 1 = true)) ∧
    (∃ (s : State) (addr : Nat) (mask : ByteMask) (data : Dword) (o : Nat),
      WriteGranted s addr mask data ∧
      mask ≠ 0 ∧
      pendingAt s addr = false ∧
      windowAt s.path addr = some 3 ∧
      addr = s.path.windows[3].base + o ∧
      o < 0x400 ∧
      o % 8 = 0 ∧
      (o % 0x40 ≠ 8)) :=
  ⟨⟨(waits configured 0x40008 0x03 0x1234), 0x40008, 0x03, 0x1234, 8, by decide +kernel⟩,
    ⟨(waits configured 0x40010 0x03 0x1234), 0x40010, 0x03, 0x1234, 0x10, by decide +kernel⟩⟩

theorem test_met_SlotWriteIsCapturedByLane :
    (∃ (s : State) (addr : Nat) (mask : ByteMask) (data : Dword) (n : Fin 16) (o : Nat),
      WriteGranted s addr mask data ∧
      regionAt s addr = some (.slotFields n o) ∧
      pendingAt s addr = false ∧
      s.posting.slots[n].state ≠ .submitted ∧
      (¬(o = 0x70 ∧ lowLanes mask = true))) ∧
    (∃ (s : State) (addr : Nat) (mask : ByteMask) (data : Dword) (n : Fin 16) (o : Nat),
      WriteGranted s addr mask data ∧
      regionAt s addr = some (.slotFields n o) ∧
      pendingAt s addr = false ∧
      s.posting.slots[n].state ≠ .submitted ∧
      (¬(o = 0x70 ∧ lowLanes mask = true)) ∧
      (o = 0x70)) :=
  ⟨⟨(waits configured 0x10008 0xFF 0x1234), 0x10008, 0xFF, 0x1234, 0, 8, by decide +kernel⟩,
    ⟨(waits configured 0x10070 0xF0 0x1234), 0x10070, 0xF0, 0x1234, 0, 0x70, by decide +kernel⟩⟩

theorem test_met_CommitSubmitsTheSlot :
    let meets (s : State) (addr : Nat) (mask : ByteMask) (data : Dword) (n : Fin 16) : Prop :=
      WriteGranted s addr mask data ∧ regionAt s addr = some (.slotFields n 0x70) ∧ pendingAt s addr = false ∧
        s.posting.slots[n].state ≠ .submitted ∧ lowLanes mask = true
    (∃ s addr mask data n, meets s addr mask data n ∧ laneField data 0 4 = 0x54534F50 ∧ s.posting.queue = []) ∧
    (∃ s addr mask data n, meets s addr mask data n ∧ laneField data 0 4 = 0x54534F50 ∧ s.posting.queue ≠ []) ∧
    (∃ s addr mask data n, meets s addr mask data n ∧ laneField data 0 4 ≠ 0x54534F50) :=
  ⟨⟨waits openDay 0x10070 0xFF 0x0000000954534F50, 0x10070, 0xFF, 0x0000000954534F50, 0, by decide +kernel⟩,
    ⟨waits (submitted 1 9) 0x100F0 0x0F 0x54534F50, 0x100F0, 0x0F, 0x54534F50, 1, by decide +kernel⟩,
    ⟨waits openDay 0x10070 0x0F 0x54534F51, 0x10070, 0x0F, 0x54534F51, 0, by decide +kernel⟩⟩

theorem test_met_NewHeadTakesItsNeedAndFetch :
    let fetches (s : State) (e : SubmitEntry) : Prop :=
      let f := slotFieldsOf s e.slot
      f.kind = 7 ∧ (e.marked = true ∨ s.day.state = .opened ∨ s.day.state = .closing) ∧
        2 ≤ f.reverseRef ∧ f.reverseRef + 1 ≤ s.journal.next
    let at' (s : State) := ringPosition s (slotFieldsOf s 0).reverseRef
    (∃ s : State, s.posting.queue = []) ∧
    (∀ s ∈ [submitted 1 9, journalAt (reversing 1 true) 4 0, journalAt (reversing 4 true) 4 0,
        inDay (journalAt (reversing 3 false) 4 0) .setup], ∃ e, s.posting.queue = [e] ∧ ¬fetches s e) ∧
    (∃ (s : State) (e : SubmitEntry), s.posting.queue = [e] ∧ fetches s e ∧ journalUnitFree s = false) ∧
    (∃ (s : State) (e : SubmitEntry), s.posting.queue = [e] ∧ fetches s e ∧ journalUnitFree s = true ∧
      at' s = 0 ∧ (newHead s).path.fetches = [⟨.posting, 0x100000, 8⟩]) ∧
    (∃ (s : State) (e : SubmitEntry), s.posting.queue = [e] ∧ fetches s e ∧ journalUnitFree s = true ∧
      at' s = 1 ∧ (newHead s).path.fetches = [⟨.posting, 0x100038, 9⟩]) := by
  refine ⟨⟨openDay, rfl⟩, ?_, ?_, ?_, ?_⟩
  · simp only [List.forall_mem_cons, List.not_mem_nil, false_imp_iff, implies_true, and_true]
    exact ⟨⟨⟨0, true⟩, by decide +kernel⟩, ⟨⟨0, true⟩, by decide +kernel⟩, ⟨⟨0, true⟩, by decide +kernel⟩,
      ⟨0, false⟩, by decide +kernel⟩
  · exact ⟨onPath (journalAt (reversing 3 true) 4 0) fun p =>
      { p with queue := entries 32, waiting := [⟨.journal, [(8, 1)]⟩] }, ⟨0, true⟩, by decide +kernel⟩
  · exact ⟨journalAt (reversing 3 false) 4 1022, ⟨0, false⟩, by decide +kernel⟩
  · exact ⟨inDay (journalAt (reversing 2 false) 4 0) .closing, ⟨0, false⟩, by decide +kernel⟩

theorem test_met_EarlierChecksDecide :
    (∃ (s : State) (e : SubmitEntry),
      ((slotFieldsOf s e.slot).tagCopy ≠ (slotFieldsOf s e.slot).tag)) ∧
    (∃ (s : State) (e : SubmitEntry),
      ((slotFieldsOf s e.slot).tagCopy = (slotFieldsOf s e.slot).tag ∧ kindPermitted (judgedState s e) (slotFieldsOf s e.slot).kind = false)) ∧
    (∃ (s : State) (e : SubmitEntry),
      ((slotFieldsOf s e.slot).tagCopy = (slotFieldsOf s e.slot).tag ∧ kindPermitted (judgedState s e) (slotFieldsOf s e.slot).kind = true ∧ fieldsFit s.configuration e.slot (judgedForm s (slotFieldsOf s e.slot)) (slotFieldsOf s e.slot) = false)) ∧
    (∃ (s : State) (e : SubmitEntry),
      ((slotFieldsOf s e.slot).tagCopy = (slotFieldsOf s e.slot).tag ∧ kindPermitted (judgedState s e) (slotFieldsOf s e.slot).kind = true ∧ fieldsFit s.configuration e.slot (judgedForm s (slotFieldsOf s e.slot)) (slotFieldsOf s e.slot) = true ∧ (slotFieldsOf s e.slot).date ≠ s.day.date)) :=
  ⟨⟨(submitted 1 8), ⟨0, true⟩, by decide +kernel⟩,
    ⟨(inDay (submitted 1 9) .setup), ⟨0, false⟩, by decide +kernel⟩,
    ⟨(submitted 0 9), ⟨0, true⟩, by decide +kernel⟩,
    ⟨{ submitted 1 9 with day := { openDay.day with date := 20240507 } }, ⟨0, true⟩, by decide +kernel⟩⟩

theorem test_met_DayStatePermitsTheKind :
    (∃ (s : State) (e : SubmitEntry) (kind : Nat),
      (kindPermitted (judgedState s e) kind = true ∧ s.day.state = .closing)) ∧
    (∃ (s : State) (e : SubmitEntry) (kind : Nat),
      (kindPermitted (judgedState s e) kind = false)) :=
  ⟨⟨(inDay openDay .closing), ⟨0, false⟩, 3, by decide +kernel⟩,
    ⟨(inDay openDay .closing), ⟨0, false⟩, 1, by decide +kernel⟩⟩

theorem test_met_AcceptanceNeedsRoomAndCounts :
    ∃ (s : State) (e : SubmitEntry),
      verdict s e = none :=
  ⟨(submitted 1 9), ⟨0, true⟩, by decide +kernel⟩

theorem test_met_RefusalLeavesTheBooks :
    let meets (s : State) (rest : List SubmitEntry) (reason : Reason) : Prop :=
      s.inReset = false ∧ s.posting.queue = s.posting.queue.headD ⟨0, true⟩ :: rest ∧ canJudge s = true ∧
        verdict s (s.posting.queue.headD ⟨0, true⟩) = some reason
    let damaged : State :=
      let s := journalAt (reversing 2 true) 4 0
      let original := journaled 2 { kind := 2, code := 1, position := 1, holderA := 1, amountA := 15 }
      { s with posting := { s.posting with
          reversal := some ⟨2, true, false, 0 :: dwordsOfBytes 8 original⟩ } }
    let faulty : State :=
      { submitted 1 9 with totals := setRecord openDay.totals 1 0 { zeroRecord with check := 0 } }
    let full (s : State) : State := { s with journal := { s.journal with free := 8 } }
    meets (submitted 1 8) [] .tagMismatch ∧ meets faulty [] .totalsFault ∧ meets damaged [] .journalDamaged ∧
    meets (full (submitted 1 8)) [] .tagMismatch ∧ meets (inDay (submitted 1 8) .setup) [] .tagMismatch ∧
    meets (queued (submitted 1 8) [⟨0, true⟩, ⟨1, true⟩]) [⟨1, true⟩] .tagMismatch ∧
    meets (onPath (submitted 1 8) fun p => { p with bus := .readHeld 0x10078 0 }) [] .tagMismatch ∧
    meets (onPath (submitted 1 8) fun p => { p with bus := .readHeld 0x100F8 1 }) [] .tagMismatch := by
  decide +kernel

theorem test_met_RefusalMovesTheClosingDayToSending :
    let s := balanced (inDay (submitted 1 8) .closing)
    s.inReset = false ∧ s.posting.queue = [⟨0, true⟩] ∧ canJudge s = true ∧
      verdict s ⟨0, true⟩ = some .tagMismatch ∧ (after .judgingEvent s).day.state = .sending ∧
      (after .judgingEvent s).batch.plan.isSome = true ∧ (after .judgingEvent s).batch.state = .awaitAck := by
  decide +kernel

theorem test_met_MarkingTouchesTheNamedRecords :
    let t := markFaulty resetTotals [(1, 0), (16, 3)]
    (recordOf t 1 0).faulty = true ∧ (recordOf t 16 3).faulty = true ∧ (recordOf t 1 1).faulty = false := by
  decide +kernel

theorem test_met_PlacingTellsItsProducer :
    (∃ (s : State) (g : Group), s.path.waiting = [] ∧ s.path.queue.length + g.writes.length = 32 ∧
      g.producer = .completion true) ∧
    (∃ (s : State) (g : Group), s.path.waiting = [] ∧ s.path.queue.length + g.writes.length = 32 ∧
      g.producer = .settlement) ∧
    (∃ (s : State) (g : Group), g.writes ≠ [] ∧
      ¬(s.path.waiting = [] ∧ s.path.queue.length + g.writes.length ≤ 32)) :=
  ⟨⟨onPath configured fun p => { p with queue := entries 31 }, ⟨.completion true, [(8, 1)]⟩, by decide +kernel⟩,
    ⟨configured, ⟨.settlement, List.replicate 32 (8, 1)⟩, by decide +kernel⟩,
    ⟨onPath configured fun p => { p with queue := entries 32 }, ⟨.settlement, [(8, 1)]⟩, by decide +kernel⟩⟩

theorem test_met_FaultyRecordIsMarked :
    ∃ (s : State) (e : SubmitEntry) (rest : List SubmitEntry) (h : Fin 17) (k : Fin 4),
      s.inReset = false ∧
      s.posting.queue = e :: rest ∧
      canJudge s = true ∧
      verdict s e = some .totalsFault ∧
      (h, k) ∈ readRecords (slotMovement s e (slotFieldsOf s e.slot)) ∧
      recordVerifies (recordOf s.totals h k) = false :=
  ⟨{ submitted 1 9 with totals := setRecord openDay.totals 1 0 { zeroRecord with check := 0 } }, ⟨0, true⟩, [], 1, 0, by decide +kernel⟩

theorem test_met_AcceptanceAppliesAndAnswers :
    (∃ (s : State) (e : SubmitEntry) (rest : List SubmitEntry),
      s.inReset = false ∧
      s.posting.queue = e :: rest ∧
      canJudge s = true ∧
      verdict s e = none) ∧
    (∃ (s : State) (e : SubmitEntry) (rest : List SubmitEntry),
      s.inReset = false ∧
      s.posting.queue = e :: rest ∧
      canJudge s = true ∧
      verdict s e = none ∧
      (s.day.state = .closing ∧ (slotFieldsOf s e.slot).kind = 6 ∧ (∀ h : Fin 17, h ≠ 1 → s.configuration.holderActive h = true → s.totals.flags[h].balanced = true) ∧ s.totals.flags[(1 : Fin 17)].balanced = false)) ∧
    (∃ (s : State) (e : SubmitEntry) (rest : List SubmitEntry),
      s.inReset = false ∧
      s.posting.queue = e :: rest ∧
      canJudge s = true ∧
      verdict s e = none ∧
      ((evaluate s.configuration s.monitors (watchedLegs s.totals (applyMovement s.configuration s.totals (slotMovement s e (slotFieldsOf s e.slot))) (slotMovement s e (slotFieldsOf s e.slot)))).2.length = 2)) ∧
    (∃ (s : State) (e : SubmitEntry) (rest : List SubmitEntry),
      s.inReset = false ∧
      s.posting.queue = e :: rest ∧
      canJudge s = true ∧
      verdict s e = none ∧
      ((slotFieldsOf s e.slot).passbook = 1 ∧ (slotFieldsOf s e.slot).account = 77 ∧ s.passbook.items.length = 192)) :=
  ⟨⟨(submitted 1 9), ⟨0, true⟩, [], by decide +kernel⟩,
    ⟨{ inDay (submitted 6 9) .closing with posting := { (submitted 6 9).posting with queue := [⟨0, false⟩] }, totals := { setRecord openDay.totals 1 1 { zeroRecord with counted := true } with flags := (openDay.totals.flags.set 0 ⟨false, true, false⟩).set 2 ⟨false, true, false⟩ } }, ⟨0, false⟩, [], by decide +kernel⟩,
    ⟨{ submitted 1 9 with control := { openDay.control with config := some { branch with monitors := (branch.monitors.set 1 ⟨1, 1, 0xFF, 0, 0, 0, 0, 0, 1, 0⟩).set 0 ⟨1, 1, 0xFF, 0, 0, 0, 0, 1, 1, 0⟩ } }, monitors := { openDay.monitors with counts := Vector.replicate 8 0xFFFFFFFF } }, ⟨0, true⟩, [], by decide +kernel⟩,
    ⟨{ submitted 1 9 with posting := { (submitted 1 9).posting with slots := openDay.posting.slots.set 0 ⟨(((cashBuffer 1 9).take 10) ++ [1]) ++ (((cashBuffer 1 9).drop 11).take 29) ++ [77] ++ (cashBuffer 1 9).drop 41, .submitted⟩ }, passbook := { openDay.passbook with items := (List.range 192).map fun k => { item (k + 10) with account := 5 } } }, ⟨0, true⟩, [], by decide +kernel⟩⟩

theorem test_met_AcceptanceMovesTheClosingDayToSending :
    let s : State := { inDay (submitted 6 9) .closing with
      posting := { (submitted 6 9).posting with queue := [⟨0, false⟩] },
      totals := { setRecord openDay.totals 1 1 { zeroRecord with counted := true } with
        flags := (openDay.totals.flags.set 0 ⟨false, true, false⟩).set 2 ⟨false, true, false⟩ } }
    canJudge s = true ∧ verdict s ⟨0, false⟩ = none ∧ (after .judgingEvent s).day.state = .sending ∧
      (after .judgingEvent s).batch.current = 0 ∧ (after .judgingEvent s).batch.state = .awaitAck := by
  decide +kernel

theorem test_met_CashPostingBooks :
    (∃ (m : Movement) (h : Fin 17) (k : Fin 4),
      m.holderA = h.val ∧
      m.currencyA = k.val ∧
      (m.kind = 1 ∧ m.form = 1)) ∧
    (∃ (m : Movement) (h : Fin 17) (k : Fin 4),
      m.holderA = h.val ∧
      m.currencyA = k.val ∧
      (m.kind = 2 ∧ m.form = 2)) :=
  ⟨⟨(cashMovement 1), 1, 0, by decide +kernel⟩,
    ⟨(cashMovement 2), 1, 0, by decide +kernel⟩⟩

theorem test_met_NoncashPostingBooks :
    (∃ (m : Movement) (k : Fin 4),
      m.kind = 5 ∧
      m.form = 5 ∧
      m.currencyA = k.val ∧
      (m.debit = true)) ∧
    (∃ (m : Movement) (k : Fin 4),
      m.kind = 5 ∧
      m.form = 5 ∧
      m.currencyA = k.val ∧
      (m.debit = false)) :=
  ⟨⟨{ cashMovement 5 with debit := true }, 0, by decide +kernel⟩,
    ⟨(cashMovement 5), 0, by decide +kernel⟩⟩

theorem test_met_ClosingCountBalancesTheHolder :
    (∃ (c : Configuration) (t : Totals) (m : Movement) (h : Fin 17) (k : Fin 4),
      m.kind = 6 ∧
      m.form = 6 ∧
      m.holderA = h.val ∧
      m.currencyA = k.val ∧
      m.closing = true ∧
      (∀ n ∈ m.breakdownA, n ≤ 65535) ∧
      (∃ j : Fin 4, j ≠ k ∧ c.hasCurrency j = true ∧ (recordOf t h j).counted = false)) ∧
    (∃ (c : Configuration) (t : Totals) (m : Movement) (h : Fin 17) (k : Fin 4),
      m.kind = 6 ∧
      m.form = 6 ∧
      m.holderA = h.val ∧
      m.currencyA = k.val ∧
      m.closing = true ∧
      (∀ n ∈ m.breakdownA, n ≤ 65535) ∧
      (∀ j : Fin 4, j ≠ k → c.hasCurrency j = true → (recordOf t h j).counted = true)) :=
  ⟨⟨branch, resetTotals, (cashMovement 6), 1, 0, by decide +kernel⟩,
    ⟨branch, (setRecord resetTotals 1 1 { zeroRecord with counted := true }), (cashMovement 6), 1, 0, by decide +kernel⟩⟩

theorem test_met_ReversalRestoresTheCounts :
    ∃ (old : List Nat) (pieces : List Nat),
      old.length = pieces.length ∧
      (∀ n ∈ countsAfter old (.gain pieces), n ≤ 65535) :=
  ⟨[1, 2], [3, 4], by decide +kernel⟩

theorem test_met_PayableIsTheQuotientRoundedDown :
    ∃ (u : Nat),
      1 ≤ u :=
  ⟨5, by decide +kernel⟩

theorem test_met_HashIsASumModulo :
    ∃ (hash : Nat) (a : Int) (b : Int),
      hash < 10 ^ 15 ∧
      0 ≤ a ∧
      a ≤ 999999999999 ∧
      0 ≤ b ∧
      b ≤ 999999999999 :=
  ⟨999999999999999, 5, 6, by decide +kernel⟩

theorem test_met_RingPositionAnswerStartsTheFetch :
    (∃ (s : State) (n : Nat),
      s.inReset = false ∧
      s.path.queue = [] ∧
      s.path.fetches = [] ∧
      journalUnitFree s = true ∧
      s.journal.runs = [] ∧
      s.posting.reversal = some ⟨n, false, false, []⟩ ∧
      (ringPosition s n ≠ 0)) ∧
    (∃ (s : State) (n : Nat),
      s.inReset = false ∧
      s.path.queue = [] ∧
      s.path.fetches = [] ∧
      journalUnitFree s = true ∧
      s.journal.runs = [] ∧
      s.posting.reversal = some ⟨n, false, false, []⟩ ∧
      (ringPosition s n = 0)) :=
  ⟨⟨{ openDay with posting := { openDay.posting with reversal := some ⟨5, false, false, []⟩ } }, 5, by decide +kernel⟩,
    ⟨{ openDay with posting := { openDay.posting with reversal := some ⟨1025, false, false, []⟩ } }, 1025, by decide +kernel⟩⟩

theorem test_met_ReleaseActsByState :
    (∃ (d : Drawer),
      (d.state = .locked)) ∧
    (∃ (d : Drawer),
      (d.state = .released)) ∧
    (∃ (d : Drawer),
      (d.state = .opened)) ∧
    (∃ (d : Drawer),
      (d.state = .overdue)) :=
  ⟨⟨{ resetDrawer with state := .locked }, by decide +kernel⟩,
    ⟨{ resetDrawer with state := .released }, by decide +kernel⟩,
    ⟨{ resetDrawer with state := .opened }, by decide +kernel⟩,
    ⟨{ resetDrawer with state := .overdue }, by decide +kernel⟩⟩

theorem test_met_SpansAreReadFromTheirFields :
    (∃ (c : Configuration),
      (c.release = 0 ∧ c.overdue = 0)) ∧
    (∃ (c : Configuration),
      (c.release = 1 ∧ c.overdue = 1)) ∧
    (∃ (c : Configuration),
      (c.release = 16 ∧ c.overdue = 9)) ∧
    (∃ (c : Configuration),
      (c.release = 15 ∧ c.overdue = 10)) ∧
    (∃ (c : Configuration),
      (c.overdue = 600)) ∧
    (∃ (c : Configuration),
      (c.overdue = 601)) ∧
    (∃ (c : Configuration) (s : State),
      (s.control.config = some c)) :=
  ⟨⟨branch, by decide +kernel⟩,
    ⟨{ branch with release := 1, overdue := 1 }, by decide +kernel⟩,
    ⟨{ branch with release := 16, overdue := 9 }, by decide +kernel⟩,
    ⟨{ branch with release := 15, overdue := 10 }, by decide +kernel⟩,
    ⟨{ branch with overdue := 600 }, by decide +kernel⟩,
    ⟨{ branch with overdue := 601 }, by decide +kernel⟩,
    ⟨branch, configured, by decide +kernel⟩⟩

theorem test_met_ReleaseStartsTheSpanInForce :
    ∀ state ∈ [DrawerState.locked, .released, .opened, .overdue], ∃ (s : State) (c : Configuration) (h : Fin 17),
      s.control.config = some c ∧ s.drawers[h].state = state := by
  intro state _
  refine ⟨onVault configured fun d => { d with state := state }, branch, 0, ?_⟩
  revert state
  decide +kernel

theorem test_met_OpeningStartsTheSpanInForce :
    ∀ sense ∈ [some Sense.closed, none], ∀ state ∈ [DrawerState.locked, .released],
      ∃ (s : State) (c : Configuration) (h : Fin 17),
        s.inReset = false ∧ s.control.config = some c ∧ c.holderActive h = true ∧
          s.drawers[h].runLevel = .opened ∧ s.drawers[h].runLength = 2 ∧ s.drawers[h].sense = sense ∧
          (sense = none → s.drawers[h].settle = true) ∧ s.drawers[h].state = state := by
  intro sense _ state _
  refine ⟨onVault configured fun d =>
    { d with sense := sense, settle := sense.isNone, runLevel := .opened, runLength := 2, state := state },
    branch, 0, ?_⟩
  revert sense state
  decide +kernel

theorem test_met_NoTimerRunsOnAnOldSpan :
    (∃ (s : State) (c : Configuration),
      s.inReset = false ∧
      s.path.placement = some c ∧
      readIsHeld s.path = false ∧
      (s.drawers[0].window = some 5 ∧ s.drawers[0].state = .released)) ∧
    (∃ (c : Configuration) (ds : Vector Drawer 17) (h : Fin 17),
      (c.holderActive h = true ∧ ds[h].sense = some .opened)) ∧
    (∃ (c : Configuration) (ds : Vector Drawer 17) (h : Fin 17),
      (c.holderActive h = false ∧ ds[h].sense = some .opened)) :=
  ⟨⟨onPath (onVault configured fun d => { d with state := .released, window := some 5 }) fun p =>
      { p with placement := some branch }, branch, by decide +kernel⟩,
    ⟨branch, Vector.replicate 17 { resetDrawer with sense := some .opened }, 0, by decide +kernel⟩,
    ⟨branch, Vector.replicate 17 { resetDrawer with sense := some .opened }, 3, by decide +kernel⟩⟩

theorem test_met_SensedOpenOpensTheDrawer :
    (∃ (s : State) (h : Fin 17),
      s.inReset = false ∧
      s.configuration.holderActive h = true ∧
      s.drawers[h].sense = some .closed ∧
      s.drawers[h].runLevel = .opened ∧
      s.drawers[h].runLength = 2 ∧
      (s.drawers[h].state = .released)) ∧
    (∃ (s : State) (h : Fin 17),
      s.inReset = false ∧
      s.configuration.holderActive h = true ∧
      s.drawers[h].sense = some .closed ∧
      s.drawers[h].runLevel = .opened ∧
      s.drawers[h].runLength = 2 ∧
      (s.drawers[h].state = .locked)) :=
  ⟨⟨(onVault openDay fun d => { d with state := .released, window := some 5, sense := some .closed, runLevel := .opened, runLength := 2 }), 0, by decide +kernel⟩,
    ⟨(onVault openDay fun d => { d with sense := some .closed, runLevel := .opened, runLength := 2 }), 0, by decide +kernel⟩⟩

theorem test_met_SensedClosedLocksTheDrawer :
    (∃ (s : State) (h : Fin 17),
      s.inReset = false ∧
      s.configuration.holderActive h = true ∧
      s.drawers[h].sense = some .opened ∧
      s.drawers[h].runLevel = .closed ∧
      s.drawers[h].runLength = 2 ∧
      (s.drawers[h].state = .opened)) ∧
    (∃ (s : State) (h : Fin 17),
      s.inReset = false ∧
      s.configuration.holderActive h = true ∧
      s.drawers[h].sense = some .opened ∧
      s.drawers[h].runLevel = .closed ∧
      s.drawers[h].runLength = 2 ∧
      (s.drawers[h].state = .overdue)) :=
  ⟨⟨(onVault openDay fun d => { d with state := .opened, limit := some 60, sense := some .opened, runLevel := .closed, runLength := 2 }), 0, by decide +kernel⟩,
    ⟨(onVault openDay fun d => { d with state := .overdue, sense := some .opened, runLevel := .closed, runLength := 2 }), 0, by decide +kernel⟩⟩

theorem test_met_WindowExpiryLocksOrIsHeld :
    (∃ (s : State) (h : Fin 17) (span : Nat),
      s.inReset = false ∧
      s.drawers[h].state = .released ∧
      s.drawers[h].window = some span ∧
      s.drawers[h].heldExpiry = false ∧
      (¬(s.drawers[h].runLevel = .opened ∧ 1 ≤ s.drawers[h].runLength))) ∧
    (∃ (s : State) (h : Fin 17) (span : Nat),
      s.inReset = false ∧
      s.drawers[h].state = .released ∧
      s.drawers[h].window = some span ∧
      s.drawers[h].heldExpiry = false ∧
      (s.drawers[h].runLevel = .opened ∧ s.drawers[h].runLength = 1)) :=
  ⟨⟨(onVault openDay fun d => { d with state := .released, window := some 5 }), 0, 5, by decide +kernel⟩,
    ⟨(onVault openDay fun d => { d with state := .released, window := some 5, sense := some .closed, runLevel := .opened, runLength := 1 }), 0, 5, by decide +kernel⟩⟩

theorem test_met_HeldExpiryIsTakenAtTheClosedSample :
    let meets (s : State) (h : Fin 17) : Prop := s.inReset = false ∧ s.configuration.holderActive h = true ∧
      s.drawers[h].state = .released ∧ s.drawers[h].heldExpiry = true
    (∃ s h, meets s h ∧ s.drawers[h].sense = some .closed) ∧
    (∃ s h, meets s h ∧ s.drawers[h].sense = none ∧ s.drawers[h].runLevel = .opened) :=
  ⟨⟨onVault openDay fun d =>
      { d with state := .released, heldExpiry := true, sense := some .closed, runLevel := .opened, runLength := 1 },
      0, by decide +kernel⟩,
    ⟨onVault openDay fun d =>
      { d with state := .released, heldExpiry := true, sense := none, runLevel := .opened, runLength := 2 },
      0, by decide +kernel⟩⟩

theorem test_met_OverdueLimitRaisesTheAlert :
    ∃ (s : State) (h : Fin 17) (span : Nat),
      s.inReset = false ∧
      s.drawers[h].limit = some span :=
  ⟨(onVault openDay fun d => { d with state := .opened, limit := some 60 }), 0, 60, by decide +kernel⟩

theorem test_met_FirstDeterminationSettlesTheDrawer :
    ∀ level ∈ [Sense.opened, .closed], ∀ state ∈ [DrawerState.locked, .released], ∃ (s : State) (h : Fin 17),
      s.inReset = false ∧ s.configuration.holderActive h = true ∧ s.drawers[h].settle = true ∧
        s.drawers[h].sense = none ∧ s.drawers[h].runLevel = level ∧ s.drawers[h].runLength = 2 ∧
        s.drawers[h].state = state := by
  intro level _ state _
  refine ⟨onVault openDay fun d => { d with settle := true, runLevel := level, runLength := 2, state := state }, 0, ?_⟩
  revert level state
  decide +kernel

theorem test_met_DeterminationWithoutASettle :
    ∀ level ∈ [Sense.opened, .closed], ∃ (s : State) (h : Fin 17), s.inReset = false ∧
      s.drawers[h].settle = false ∧ s.drawers[h].sense = none ∧ s.drawers[h].runLevel = level ∧
      s.drawers[h].runLength = 2 := by
  intro level _
  refine ⟨onVault configured fun d => { d with runLevel := level, runLength := 2 }, 0, ?_⟩
  revert level
  decide +kernel

theorem test_met_ShortRunGivesNoEvent :
    let meets (s : State) (h : Fin 17) (level : Sense) : Prop :=
      s.inReset = false ∧ s.drawers[h].sense ≠ some level ∧
        (level = .closed → s.drawers[h].heldExpiry = false) ∧
        (s.drawers[h].runLevel = level → s.drawers[h].runLength ≤ 1)
    (∃ s h, meets s h .opened) ∧ (∃ s h, meets s h .closed ∧ s.drawers[h].runLength = 1) ∧
    (∃ s h, meets s h .opened ∧ s.drawers[h].sense = none) :=
  ⟨⟨onVault openDay fun d => { d with sense := some .closed }, 0, by decide +kernel⟩,
    ⟨onVault openDay fun d => { d with sense := some .opened, runLevel := .closed, runLength := 1 }, 0,
      by decide +kernel⟩,
    ⟨openDay, 0, by decide +kernel⟩⟩

theorem test_met_DebouncedLevelEmptiesTheRun :
    (∃ (s : State) (h : Fin 17), s.inReset = false ∧ s.drawers[h].sense = some .opened ∧
      s.drawers[h].runLength = 2 ∧ s.drawers[h].heldExpiry = false) ∧
    (∃ (s : State) (h : Fin 17), s.inReset = false ∧ s.drawers[h].sense = some .closed ∧
      s.drawers[h].heldExpiry = true ∧ s.configuration.holderActive h = true) :=
  ⟨⟨onVault openDay fun d => { d with sense := some .opened, runLevel := .closed, runLength := 2 }, 0,
      by decide +kernel⟩,
    ⟨onVault openDay fun d =>
      { d with state := .released, heldExpiry := true, sense := some .closed, runLevel := .opened, runLength := 1 },
      0, by decide +kernel⟩⟩

theorem test_met_InactiveHoldersSenseIsDebouncedAlone :
    ∃ (s : State) (h : Fin 17), s.inReset = false ∧ s.configuration.holderActive h = false :=
  ⟨openDay, 16, by decide +kernel⟩

theorem test_met_EventEntryIsWrittenSkippedOrDropped :
    (∃ (s : State),
      (s.journal.present = false)) ∧
    (∃ (s : State),
      (s.journal.present = true ∧ s.day.state = .opened ∧ 8 < s.journal.free)) ∧
    (∃ (s : State),
      (s.journal.present = true ∧ s.day.state = .opened ∧ s.journal.free = 8)) :=
  ⟨⟨configured, by decide +kernel⟩,
    ⟨openDay, by decide +kernel⟩,
    ⟨{ openDay with journal := { openDay.journal with free := 8 } }, by decide +kernel⟩⟩

theorem test_met_EntryStandsAtItsRingPosition :
    ∃ (i : Nat),
      i < 8 :=
  ⟨7, by decide +kernel⟩

theorem test_met_FrozenMonitorsCountNothing :
    ∃ (mon : Monitors),
      mon.freeze ≠ none :=
  ⟨{ resetMonitors with freeze := some 2 }, by decide +kernel⟩

theorem test_met_MonitorCountsAndFires :
    (∃ (c : Configuration) (l : WatchedLeg) (mon : Monitors) (m : Fin 8),
      mon.freeze = none ∧
      (legMatches c.monitors[m] l = false)) ∧
    (∃ (c : Configuration) (l : WatchedLeg) (mon : Monitors) (m : Fin 8),
      mon.freeze = none ∧
      (legMatches c.monitors[m] l = true ∧ mon.counts[m] ≠ 0xFFFFFFFF)) ∧
    (∃ (c : Configuration) (l : WatchedLeg) (mon : Monitors) (m : Fin 8),
      mon.freeze = none ∧
      (legMatches c.monitors[m] l = true ∧ mon.counts[m] = 0xFFFFFFFF ∧ mon.fired[m] = false)) :=
  ⟨⟨branch, ⟨1, some 1, 0, 15, 0, 15⟩, resetMonitors, 2, by decide +kernel⟩,
    ⟨{ branch with monitors := branch.monitors.set 2 ⟨1, 1, 0xFF, 0, 0, 0, 0, 3, 10, 0⟩ }, ⟨1, some 1, 0, 15, 0, 15⟩, resetMonitors, 2, by decide +kernel⟩,
    ⟨{ branch with monitors := branch.monitors.set 2 ⟨1, 1, 0xFF, 0, 0, 0, 0, 3, 10, 0⟩ }, ⟨1, some 1, 0, 15, 0, 15⟩, { resetMonitors with counts := resetMonitors.counts.set 2 0xFFFFFFFF }, 2, by decide +kernel⟩⟩

theorem test_met_MonitorLegMatches :
    (∃ (d : MonitorSetup) (l : WatchedLeg),
      1 ≤ l.kind ∧
      l.kind ≤ 7 ∧
      (d.basis = 0 ∧ d.compare = 0)) ∧
    (∃ (d : MonitorSetup) (l : WatchedLeg),
      1 ≤ l.kind ∧
      l.kind ≤ 7 ∧
      (d.basis = 0 ∧ d.compare = 1)) ∧
    (∃ (d : MonitorSetup) (l : WatchedLeg),
      1 ≤ l.kind ∧
      l.kind ≤ 7 ∧
      (d.basis = 1 ∧ l.holder = some 1 ∧ d.mode = 0 ∧ d.compare = 0)) ∧
    (∃ (d : MonitorSetup) (l : WatchedLeg),
      1 ≤ l.kind ∧
      l.kind ≤ 7 ∧
      (d.basis = 1 ∧ l.holder = some 1 ∧ d.mode = 0 ∧ d.compare = 1)) ∧
    (∃ (d : MonitorSetup) (l : WatchedLeg),
      1 ≤ l.kind ∧
      l.kind ≤ 7 ∧
      (d.basis = 1 ∧ l.holder = some 1 ∧ d.mode = 1 ∧ d.compare = 0)) ∧
    (∃ (d : MonitorSetup) (l : WatchedLeg),
      1 ≤ l.kind ∧
      l.kind ≤ 7 ∧
      (d.basis = 1 ∧ l.holder = some 1 ∧ d.mode = 1 ∧ d.compare = 1)) ∧
    (∃ (d : MonitorSetup) (l : WatchedLeg),
      1 ≤ l.kind ∧
      l.kind ≤ 7 ∧
      (d.basis = 1 ∧ l.holder = none)) :=
  ⟨⟨⟨1, 1, 1, 0, 0, 0, 0, 3, 10, 0⟩, ⟨1, some 1, 0, 15, 0, 15⟩, by decide +kernel⟩,
    ⟨⟨1, 1, 1, 0, 0, 1, 0, 3, 10, 0⟩, ⟨1, some 1, 0, 15, 0, 15⟩, by decide +kernel⟩,
    ⟨⟨1, 1, 1, 0, 1, 0, 0, 3, 10, 0⟩, ⟨1, some 1, 0, 15, 0, 15⟩, by decide +kernel⟩,
    ⟨⟨1, 1, 1, 0, 1, 1, 0, 3, 10, 0⟩, ⟨1, some 1, 0, 15, 0, 15⟩, by decide +kernel⟩,
    ⟨⟨1, 1, 1, 0, 1, 0, 1, 3, 10, 0⟩, ⟨1, some 1, 0, 15, 0, 15⟩, by decide +kernel⟩,
    ⟨⟨1, 1, 1, 0, 1, 1, 1, 3, 10, 0⟩, ⟨1, some 1, 0, 15, 0, 15⟩, by decide +kernel⟩,
    ⟨⟨1, 1, 1, 0, 1, 1, 0, 3, 10, 0⟩, ⟨5, none, 0, 15, 0, 15⟩, by decide +kernel⟩⟩

theorem test_met_TickAdvancesTheClock :
    (∃ (s : State),
      s.inReset = false ∧
      s.day.clock < 172800 ∧
      (s.day.state = .opened ∧ s.day.clock + 1 ≠ s.configuration.cutoff)) ∧
    (∃ (s : State),
      s.inReset = false ∧
      s.day.clock < 172800 ∧
      (s.day.clock = 172799 ∧ s.configuration.cutoff ≠ 0)) :=
  ⟨⟨openDay, by decide +kernel⟩,
    ⟨{ openDay with day := { openDay.day with clock := 172799 } }, by decide +kernel⟩⟩

theorem test_met_SetTimeSetsTheClock :
    (∃ (s : State) (addr : Nat) (mask : ByteMask) (data : Dword),
      CommandGiven s addr mask data 4 ∧
      (s.day.state ≠ .recovering ∧ laneField s.control.arguments[0] 0 4 ≤ 172799)) ∧
    (∃ (s : State) (addr : Nat) (mask : ByteMask) (data : Dword),
      CommandGiven s addr mask data 4 ∧
      (s.day.state ≠ .recovering ∧ laneField s.control.arguments[0] 0 4 = 172800)) ∧
    (∃ (s : State) (addr : Nat) (mask : ByteMask) (data : Dword),
      CommandGiven s addr mask data 4 ∧
      (s.day.state = .recovering)) :=
  ⟨⟨(commanded openDay 4 33 77), 0x3FFE1800, 0xFF, (dwordOfFields [(1, 4), (1, 0), (2, 33)]), by decide +kernel⟩,
    ⟨(commanded openDay 4 33 172800), 0x3FFE1800, 0xFF, (dwordOfFields [(1, 4), (1, 0), (2, 33)]), by decide +kernel⟩,
    ⟨(commanded (inDay openDay .recovering) 4 33 77), 0x3FFE1800, 0xFF, (dwordOfFields [(1, 4), (1, 0), (2, 33)]), by decide +kernel⟩⟩

theorem test_met_CompletionIsOneDoubleword :
    (∃ (s : State) (status : Status) (detail : Nat) (k : TakenCommand),
      s.control.taken = some k ∧
      k.tag < 0x10000 ∧
      detail < 0x100000000 ∧
      (status = .done ∧ s.path.waiting = [] ∧ s.path.queue.length < 32)) ∧
    (∃ (s : State) (status : Status) (detail : Nat) (k : TakenCommand),
      s.control.taken = some k ∧
      k.tag < 0x10000 ∧
      detail < 0x100000000 ∧
      (status = .inProgress)) :=
  ⟨⟨{ openDay with control := { openDay.control with busy := true, taken := some ⟨5, 33⟩ } }, .done, 4, ⟨5, 33⟩, by decide +kernel⟩,
    ⟨{ openDay with control := { openDay.control with busy := true, taken := some ⟨5, 33⟩ } }, .inProgress, 4, ⟨5, 33⟩, by decide +kernel⟩⟩

theorem test_met_UnknownCodeIsBadArgument :
    (∃ (s : State) (addr : Nat) (mask : ByteMask) (data : Dword) (code : Nat),
      CommandGiven s addr mask data code ∧
      (code = 0 ∨ 17 < code) ∧
      (code = 18)) ∧
    (∃ (s : State) (addr : Nat) (mask : ByteMask) (data : Dword) (code : Nat),
      CommandGiven s addr mask data code ∧
      (code = 0 ∨ 17 < code) ∧
      (code = 0)) :=
  ⟨⟨(commanded openDay 18 33 0), 0x3FFE1800, 0xFF, (dwordOfFields [(1, 18), (1, 0), (2, 33)]), 18, by decide +kernel⟩,
    ⟨(commanded openDay 0 33 0), 0x3FFE1800, 0xFF, (dwordOfFields [(1, 0), (1, 0), (2, 33)]), 0, by decide +kernel⟩⟩

theorem test_met_ReleaseDrawerReleases :
    (∃ (s : State) (addr : Nat) (mask : ByteMask) (data : Dword) (h : Fin 17),
      CommandGiven s addr mask data 7 ∧
      s.control.config.isSome = true ∧
      s.day.state ≠ .recovering ∧
      laneField s.control.arguments[0] 0 1 = h.val ∧
      s.configuration.holderActive h = true ∧
      (s.drawers[h].state = .locked)) ∧
    (∃ (s : State) (addr : Nat) (mask : ByteMask) (data : Dword) (h : Fin 17),
      CommandGiven s addr mask data 7 ∧
      s.control.config.isSome = true ∧
      s.day.state ≠ .recovering ∧
      laneField s.control.arguments[0] 0 1 = h.val ∧
      s.configuration.holderActive h = true ∧
      (s.drawers[h].state = .overdue)) :=
  ⟨⟨(commanded openDay 7 33 0), 0x3FFE1800, 0xFF, (dwordOfFields [(1, 7), (1, 0), (2, 33)]), 0, by decide +kernel⟩,
    ⟨(commanded (onVault openDay fun d => { d with state := .overdue }) 7 33 0), 0x3FFE1800, 0xFF, (dwordOfFields [(1, 7), (1, 0), (2, 33)]), 0, by decide +kernel⟩⟩

theorem test_met_ReleaseHoldClearsTheHold :
    ∃ (s : State) (addr : Nat) (mask : ByteMask) (data : Dword) (h : Fin 17),
      CommandGiven s addr mask data 8 ∧
      s.control.config.isSome = true ∧
      s.day.state ≠ .recovering ∧
      laneField s.control.arguments[0] 0 1 = h.val ∧
      s.configuration.holderActive h = true :=
  ⟨(commanded { openDay with totals := setFlags openDay.totals 1 ⟨true, false, false⟩ } 8 33 1), 0x3FFE1800, 0xFF, (dwordOfFields [(1, 8), (1, 0), (2, 33)]), 1, by decide +kernel⟩

theorem test_met_ClearAlertsRemovesTheMasked :
    (∃ (s : State) (addr : Nat) (mask : ByteMask) (data : Dword),
      CommandGiven s addr mask data 17 ∧
      ((s.control.arguments[0].setWidth 16).toNat < 0x800)) ∧
    (∃ (s : State) (addr : Nat) (mask : ByteMask) (data : Dword),
      CommandGiven s addr mask data 17 ∧
      ((s.control.arguments[0].setWidth 16).toNat = 0x800)) :=
  ⟨⟨(commanded { openDay with control := { openDay.control with alerts := 0x7 } } 17 33 5), 0x3FFE1800, 0xFF, (dwordOfFields [(1, 17), (1, 0), (2, 33)]), by decide +kernel⟩,
    ⟨(commanded openDay 17 33 0x800), 0x3FFE1800, 0xFF, (dwordOfFields [(1, 17), (1, 0), (2, 33)]), by decide +kernel⟩⟩

theorem test_met_CheckTotalsMarksTheFailing :
    (∃ (s : State) (addr : Nat) (mask : ByteMask) (data : Dword),
      CommandGiven s addr mask data 15 ∧
      ((examinedRecords s.configuration).filter (failsExamination s.configuration s.totals) = [])) ∧
    (∃ (s : State) (addr : Nat) (mask : ByteMask) (data : Dword),
      CommandGiven s addr mask data 15 ∧
      ((examinedRecords s.configuration).filter (failsExamination s.configuration s.totals) ≠ [])) :=
  ⟨⟨(commanded openDay 15 33 0), 0x3FFE1800, 0xFF, (dwordOfFields [(1, 15), (1, 0), (2, 33)]), by decide +kernel⟩,
    ⟨(commanded { openDay with totals := setRecord openDay.totals 1 0 { zeroRecord with check := 0 } } 15 33 0), 0x3FFE1800, 0xFF, (dwordOfFields [(1, 15), (1, 0), (2, 33)]), by decide +kernel⟩⟩

theorem test_met_ApplyConfigFetchesTheImage :
    (∃ (s : State) (addr : Nat) (mask : ByteMask) (data : Dword),
      CommandGiven s addr mask data 1 ∧
      (s.day.state = .setup ∧ s.day.settlement = none)) ∧
    (∃ (s : State) (addr : Nat) (mask : ByteMask) (data : Dword),
      CommandGiven s addr mask data 1 ∧
      (s.day.state ≠ .setup ∧ s.day.state ≠ .settled)) ∧
    (∃ (s : State) (addr : Nat) (mask : ByteMask) (data : Dword),
      CommandGiven s addr mask data 1 ∧
      (s.day.settlement ≠ none)) :=
  ⟨⟨(commanded configured 1 33 0), 0x3FFE1800, 0xFF, (dwordOfFields [(1, 1), (1, 0), (2, 33)]), by decide +kernel⟩,
    ⟨(commanded openDay 1 33 0), 0x3FFE1800, 0xFF, (dwordOfFields [(1, 1), (1, 0), (2, 33)]), by decide +kernel⟩,
    ⟨(commanded { inDay openDay .settled with day := { openDay.day with state := .settled, settlement := some ⟨3, 1, 2⟩ } } 1 33 0), 0x3FFE1800, 0xFF, (dwordOfFields [(1, 1), (1, 0), (2, 33)]), by decide +kernel⟩⟩

theorem test_met_OpenDayBegins :
    (∃ (s : State) (addr : Nat) (mask : ByteMask) (data : Dword),
      CommandGiven s addr mask data 2 ∧
      (dateValid (laneField s.control.arguments[0] 0 4) = true ∧ laneField s.control.arguments[1] 0 4 ≤ 172799 ∧ laneField s.control.arguments[2] 0 1 = 0)) ∧
    (∃ (s : State) (addr : Nat) (mask : ByteMask) (data : Dword),
      CommandGiven s addr mask data 2 ∧
      (dateValid (laneField s.control.arguments[0] 0 4) = true ∧ laneField s.control.arguments[1] 0 4 ≤ 172799 ∧ laneField s.control.arguments[2] 0 1 = 1)) ∧
    (∃ (s : State) (addr : Nat) (mask : ByteMask) (data : Dword),
      CommandGiven s addr mask data 2 ∧
      (dateValid (laneField s.control.arguments[0] 0 4) = false)) ∧
    (∃ (s : State) (addr : Nat) (mask : ByteMask) (data : Dword),
      CommandGiven s addr mask data 2 ∧
      (1 < laneField s.control.arguments[2] 0 1)) ∧
    (∃ (s : State) (addr : Nat) (mask : ByteMask) (data : Dword),
      CommandGiven s addr mask data 2 ∧
      (172799 < laneField s.control.arguments[1] 0 4)) ∧
    (∃ (s : State) (addr : Nat) (mask : ByteMask) (data : Dword),
      CommandGiven s addr mask data 2 ∧
      (s.day.state = .opened)) :=
  ⟨⟨(commanded { configured with control := { configured.control with arguments := #v[0, 50, 0, 0, 0, 0] } } 2 33 20240506), 0x3FFE1800, 0xFF, (dwordOfFields [(1, 2), (1, 0), (2, 33)]), by decide +kernel⟩,
    ⟨(commanded { configured with control := { configured.control with arguments := #v[0, 50, 1, 0, 0, 0] } } 2 33 20240506), 0x3FFE1800, 0xFF, (dwordOfFields [(1, 2), (1, 0), (2, 33)]), by decide +kernel⟩,
    ⟨(commanded { configured with control := { configured.control with arguments := #v[0, 50, 1, 0, 0, 0] } } 2 33 20241306), 0x3FFE1800, 0xFF, (dwordOfFields [(1, 2), (1, 0), (2, 33)]), by decide +kernel⟩,
    ⟨(commanded { configured with control := { configured.control with arguments := #v[0, 50, 2, 0, 0, 0] } } 2 33 20240506), 0x3FFE1800, 0xFF, (dwordOfFields [(1, 2), (1, 0), (2, 33)]), by decide +kernel⟩,
    ⟨(commanded { configured with control := { configured.control with arguments := #v[0, 172800, 0, 0, 0, 0] } } 2 33 20240506), 0x3FFE1800, 0xFF, (dwordOfFields [(1, 2), (1, 0), (2, 33)]), by decide +kernel⟩,
    ⟨(commanded openDay 2 33 0), 0x3FFE1800, 0xFF, (dwordOfFields [(1, 2), (1, 0), (2, 33)]), by decide +kernel⟩⟩

theorem test_met_ResumeDayBegins :
    (∃ (s : State) (addr : Nat) (mask : ByteMask) (data : Dword),
      CommandGiven s addr mask data 3 ∧
      (s.day.state = .setup ∧ s.control.config.isSome = true ∧ laneField s.control.arguments[0] 0 4 ≤ 172799)) ∧
    (∃ (s : State) (addr : Nat) (mask : ByteMask) (data : Dword),
      CommandGiven s addr mask data 3 ∧
      (s.day.state ≠ .setup)) ∧
    (∃ (s : State) (addr : Nat) (mask : ByteMask) (data : Dword),
      CommandGiven s addr mask data 3 ∧
      (s.day.state = .setup ∧ s.control.config ≠ none ∧ laneField s.control.arguments[0] 0 4 = 172800)) :=
  ⟨⟨(commanded configured 3 33 50), 0x3FFE1800, 0xFF, (dwordOfFields [(1, 3), (1, 0), (2, 33)]), by decide +kernel⟩,
    ⟨(commanded openDay 3 33 50), 0x3FFE1800, 0xFF, (dwordOfFields [(1, 3), (1, 0), (2, 33)]), by decide +kernel⟩,
    ⟨(commanded configured 3 33 172800), 0x3FFE1800, 0xFF, (dwordOfFields [(1, 3), (1, 0), (2, 33)]), by decide +kernel⟩⟩

theorem test_met_CheckJournalBeginsARun :
    (∃ (s : State) (addr : Nat) (mask : ByteMask) (data : Dword),
      CommandGiven s addr mask data 14 ∧
      (s.journal.present = true)) ∧
    (∃ (s : State) (addr : Nat) (mask : ByteMask) (data : Dword),
      CommandGiven s addr mask data 14 ∧
      (s.journal.present = false)) ∧
    (∃ (s : State) (addr : Nat) (mask : ByteMask) (data : Dword),
      CommandGiven s addr mask data 14 ∧
      (s.day.state = .recovering ∧ s.journal.present = true)) :=
  ⟨⟨(commanded openDay 14 33 0), 0x3FFE1800, 0xFF, (dwordOfFields [(1, 14), (1, 0), (2, 33)]), by decide +kernel⟩,
    ⟨(commanded configured 14 33 0), 0x3FFE1800, 0xFF, (dwordOfFields [(1, 14), (1, 0), (2, 33)]), by decide +kernel⟩,
    ⟨(commanded (inDay openDay .recovering) 14 33 0), 0x3FFE1800, 0xFF, (dwordOfFields [(1, 14), (1, 0), (2, 33)]), by decide +kernel⟩⟩

theorem test_met_StartLearnAssignsTheLowest :
    ∃ (s : State) (addr : Nat) (mask : ByteMask) (data : Dword) (d : Fin 2) (k : Fin 6) (p : Fin 16) (rest : List (Fin 16)),
      CommandGiven s addr mask data 12 ∧
      s.control.config.isSome = true ∧
      s.day.state ≠ .recovering ∧
      laneField s.control.arguments[0] 0 1 = d.val ∧
      s.screen.controllers[d].mode ≠ .learning ∧
      s.configuration.dropPort d = some k ∧
      s.configuration.linePositions d = p :: rest ∧
      s.screen.controllers[d].exchange = none :=
  ⟨(commanded openDay 12 33 0), 0x3FFE1800, 0xFF, (dwordOfFields [(1, 12), (1, 0), (2, 33)]), 0, 0, 0, [1], by decide +kernel⟩

theorem test_met_LaterValidCopyIsChosen :
    (∃ (s : State),
      (s.day.records[0].valid = true ∧ s.day.records[1].valid = true ∧ recordSettled (copyBytes s 1) ≤ recordSettled (copyBytes s 0))) ∧
    (∃ (s : State),
      (s.day.records[0].valid = true ∧ s.day.records[1].valid = true ∧ recordSettled (copyBytes s 0) < recordSettled (copyBytes s 1))) ∧
    (∃ (s : State),
      (s.day.records[0].valid = true ∧ s.day.records[1].valid = false)) ∧
    (∃ (s : State),
      (s.day.records[0].valid = false ∧ s.day.records[1].valid = true)) ∧
    (∃ (s : State),
      (s.day.records[0].valid = false ∧ s.day.records[1].valid = false)) :=
  ⟨⟨(fetchedRecords configured (.openFetching 20240506 9) 5 4), by decide +kernel⟩,
    ⟨(fetchedRecords configured (.openFetching 20240506 9) 4 5), by decide +kernel⟩,
    ⟨(fetchedRecords configured (.openFetching 20240506 9) 5 0), by decide +kernel⟩,
    ⟨(fetchedRecords configured (.openFetching 20240506 9) 0 5), by decide +kernel⟩,
    ⟨(fetchedRecords configured (.openFetching 20240506 9) 0 0), by decide +kernel⟩⟩

theorem test_met_FetchedRecordOpensTheDay :
    (∃ (s : State) (date : Nat) (time : Nat),
      s.inReset = false ∧
      recordsFetched s = true ∧
      s.day.work = some (.openFetching date time) ∧
      (chosenCopy s = some 0 ∧ recordSettled (copyBytes s 0) < date ∧ 2 ≤ ringSize s)) ∧
    (∃ (s : State) (date : Nat) (time : Nat),
      s.inReset = false ∧
      recordsFetched s = true ∧
      s.day.work = some (.openFetching date time) ∧
      (chosenCopy s = none)) ∧
    (∃ (s : State) (date : Nat) (time : Nat),
      s.inReset = false ∧
      recordsFetched s = true ∧
      s.day.work = some (.openFetching date time) ∧
      (chosenCopy s = some 0 ∧ recordSettled (copyBytes s 0) = date)) :=
  ⟨⟨(fetchedRecords configured (.openFetching 20240506 9) 20240505 20240504), 20240506, 9, by decide +kernel⟩,
    ⟨(fetchedRecords configured (.openFetching 20240506 9) 0 0), 20240506, 9, by decide +kernel⟩,
    ⟨(fetchedRecords configured (.openFetching 20240506 9) 20240506 0), 20240506, 9, by decide +kernel⟩⟩

theorem test_met_FreshDayOpensWithZeroCounts :
    ∃ (s : State) (date : Nat) (time : Nat),
      s.inReset = false ∧
      s.day.work = some (.openWriting date time) ∧
      noneWaiting s .freshRecord = true ∧
      2 ≤ ringSize s :=
  ⟨{ configured with day := { configured.day with work := some (.openWriting 20240506 9) } }, 20240506, 9, by decide +kernel⟩

/-- Printer 0 prints while OPEN_DAY works. -/
def openingOver (work : DayWork) : State :=
  let s := fetchedRecords printing work 20240505 20240504
  { s with journal := configured.journal }

theorem test_met_FetchedOpeningGivesEveryBlockItsStart :
    let s := openingOver (.openFetching 20240506 9)
    let t := after .carryRecordFetched s
    (s.inReset = false ∧ recordsFetched s = true ∧ chosenCopy s = some 0 ∧
      recordSettled (copyBytes s 0) < 20240506) ∧
    t.passbook.printers[0] = { barePrinter .fault with awaited := some .reset } ∧
    t.lines[1] = [printerFrame 0x05 []] ∧
    t.screen.positions[0].message = ⟨"PRINTER 0 FAULT".toList, false⟩ ∧ t.day.records[0].words = [] := by
  decide +kernel

theorem test_met_FreshOpeningGivesEveryBlockItsStart :
    let s := openingOver (.openWriting 20240506 9)
    let t := after .freshDayOpens s
    (s.inReset = false ∧ noneWaiting s .freshRecord = true) ∧
    t.passbook.printers[0] = { barePrinter .fault with awaited := some .reset } ∧
    t.lines[1] = [printerFrame 0x05 []] ∧ t.passbook.items = [] ∧ t.journal.reservations = [] := by
  decide +kernel

theorem test_met_SettlementWriteEndsWithDaySettled :
    ∃ (s : State) (w : Settlement),
      s.inReset = false ∧
      s.day.settlement = some w ∧
      w.placed = 16 :=
  ⟨{ inDay openDay .settled with day := { openDay.day with state := .settled, settlement := some ⟨16, 1, 2⟩ } }, ⟨16, 1, 2⟩, by decide +kernel⟩

theorem test_met_FetchedImageIsJudged :
    (∃ (s : State) (words : List Dword),
      s.inReset = false ∧
      s.control.image = some words ∧
      words.length = 768 ∧
      (imageFault s (bufferBytes words) = some 1)) ∧
    (∃ (s : State) (words : List Dword),
      s.inReset = false ∧
      s.control.image = some words ∧
      words.length = 768 ∧
      (imageFault s (bufferBytes words) = none ∧ readIsHeld s.path = false)) ∧
    (∃ (s : State) (words : List Dword),
      s.inReset = false ∧
      s.control.image = some words ∧
      words.length = 768 ∧
      (imageFault s (bufferBytes words) = none ∧ readIsHeld s.path = true)) :=
  ⟨⟨{ configured with control := { configured.control with image := some (List.replicate 768 0) } }, (List.replicate 768 0), by decide +kernel⟩,
    ⟨{ configured with control := { configured.control with image := some imageWords } }, imageWords, rfl, rfl, test_image_reads_as_the_branch.2, test_image_passes, rfl⟩,
    ⟨(onPath { configured with control := { configured.control with image := some imageWords } } fun p => { p with bus := .readHeld 0x10078 0 }), imageWords, rfl, rfl, test_image_reads_as_the_branch.2, test_image_passes, rfl⟩⟩

theorem test_met_InstalledConfigurationTakesEffect :
    (∃ (s : State) (c : Configuration),
      s.inReset = false ∧
      s.path.placement = some c ∧
      readIsHeld s.path = false ∧
      (s.drawers[0].sense = none ∧ c.holderActive 0 = true ∧ c.holderActive 3 = false)) ∧
    (∃ (s : State) (c : Configuration),
      s.inReset = false ∧
      s.path.placement = some c ∧
      readIsHeld s.path = false ∧
      (s.configuration.size ≠ c.size ∧ c.holderActive 1 = true ∧ s.drawers[1].sense = some .opened)) :=
  ⟨⟨(onPath State.reset fun p => { p with placement := some branch }), branch, by decide +kernel⟩,
    ⟨(onPath { configured with drawers := configured.drawers.set 1 { resetDrawer with sense := some .opened, forced := true } } fun p => { p with placement := some { branch with size := 2048 } }), { branch with size := 2048 }, by decide +kernel⟩⟩

theorem test_met_HeldReadDelaysTheInstallation :
    ∃ (s : State) (c : Configuration),
      s.inReset = false ∧
      s.path.placement = some c ∧
      readIsHeld s.path = true :=
  ⟨(onPath configured fun p => { p with placement := some branch, bus := .readHeld 0x10078 0 }), branch, by decide +kernel⟩

theorem test_met_CyclePollsAPresentTerminal :
    ∃ (s : State) (d : Fin 2) (k : Fin 6) (p : Fin 16) (rest : List (Fin 16)),
      s.inReset = false ∧
      s.screen.controllers[d].mode = .cycling ∧
      s.screen.controllers[d].exchange = none ∧
      s.configuration.linePositions d = p :: rest ∧
      s.configuration.dropPort d = some k ∧
      s.screen.positions[p].state = .present ∧
      s.screen.positions[p].bell = false ∧
      s.screen.positions[p].echo = false ∧
      s.screen.positions[p].dirty = 0 :=
  ⟨(onLine0 (onTerminal openDay id) fun c => { c with mode := .cycling }), 0, 0, 0, [1], by decide +kernel⟩

theorem test_met_FullRowBufferIsSent :
    ∃ (s : State) (d : Fin 2) (p : Fin 16) (resend : Bool),
      s.inReset = false ∧
      s.screen.controllers[d].exchange = some ⟨p, .row resend, .filling⟩ ∧
      s.screen.controllers[d].row.length = 20 :=
  ⟨(onLine0 openDay fun c => { c with mode := .cycling, exchange := some ⟨0, .row false, .filling⟩, row := List.replicate 20 7 }), 0, 0, false, by decide +kernel⟩

theorem test_met_SentFrameAwaitsItsReply :
    ∃ (s : State) (d : Fin 2) (k : Fin 6) (e : Exchange) (frame : List Byte),
      s.inReset = false ∧
      s.configuration.dropPort d = some k ∧
      s.lines[k] = [frame] ∧
      s.screen.controllers[d].exchange = some e ∧
      e.phase = .sending :=
  ⟨(onLine0 { openDay with lines := openDay.lines.set 0 [[1, 2]] } fun c => { c with mode := .cycling, exchange := some ⟨0, .poll, .sending⟩ }), 0, 0, ⟨0, .poll, .sending⟩, [1, 2], by decide +kernel⟩

theorem test_met_GoodPollFlipsThePollBit :
    ∃ (s : State) (d : Fin 2) (p : Fin 16),
      s.inReset = false ∧
      s.screen.controllers[d].exchange = some ⟨p, .poll, .awaiting⟩ ∧
      s.screen.controllers[d].mode = .cycling ∧
      s.screen.controllers[d].remaining = [] ∧
      s.screen.positions[p].state = .present ∧
      s.screen.positions[p].address ≤ 14 :=
  ⟨(onLine0 (onTerminal openDay fun q => { q with missed := 2 }) fun c => { c with mode := .cycling, exchange := some ⟨0, .poll, .awaiting⟩ }), 0, 0, by decide +kernel⟩

theorem test_met_UnawaitedReplyIsDiscarded :
    ∃ (s : State) (d : Fin 2),
      s.inReset = false ∧
      awaitedExchange s d = none :=
  ⟨openDay, 0, by decide +kernel⟩

theorem test_met_ThirdMissLosesTheTerminal :
    ∀ echo : Bool, ∃ (s : State) (d : Fin 2) (p : Fin 16), s.inReset = false ∧
      s.screen.controllers[d].exchange = some ⟨p, .poll, .awaiting⟩ ∧
      s.screen.controllers[d].mode = .cycling ∧ s.screen.controllers[d].remaining = [] ∧
      s.screen.positions[p].state = .present ∧ s.screen.positions[p].missed = 2 ∧
      s.screen.positions[p].echo = echo ∧ (s.control.lineCheck.isSome = echo) :=
  fun echo =>
    ⟨{ onLine0 (onTerminal openDay fun q => { q with missed := 2, echo := echo }) fun c =>
          { c with mode := .cycling, exchange := some ⟨0, .poll, .awaiting⟩ } with
        control := { openDay.control with
          lineCheck := if echo = true then some (0, List.replicate 16 1) else none } },
      0, 0, by revert echo; decide +kernel⟩

theorem test_met_RepeatTimerAssignsAgain :
    ∃ (s : State) (d : Fin 2) (p : Fin 16),
      s.inReset = false ∧
      s.screen.controllers[d].mode = .learning ∧
      s.screen.controllers[d].repeatTimer = true ∧
      s.screen.controllers[d].current = some p :=
  ⟨(onLine0 openDay fun c => { c with mode := .learning, repeatTimer := true, current := some 0 }), 0, 0, by decide +kernel⟩

theorem test_met_KeysFillTheRing :
    (∃ (q : Position) (keys : List (BitVec 16)),
      q.ring.length = 24 ∧
      q.writeAt < 24 ∧
      keysHeld q ≤ 24 ∧
      (24 - keysHeld q < keys.length)) ∧
    (∃ (q : Position) (keys : List (BitVec 16)),
      q.ring.length = 24 ∧
      q.writeAt < 24 ∧
      keysHeld q ≤ 24 ∧
      (keys.length ≤ 24 - keysHeld q)) :=
  ⟨⟨{ resetPosition with producer := 22, writeAt := 22 }, [1, 2, 3], by decide +kernel⟩,
    ⟨{ resetPosition with producer := 20, writeAt := 22 }, [1, 2, 3], by decide +kernel⟩⟩

theorem test_met_ItemIsAdmittedByTheFirstCase :
    (∃ (items : List Item) (i : Item),
      ordinaryCount items i.account ≤ 5 ∧
      (summaryOf items i.account = none ∧ ordinaryCount items i.account < 5 ∧ items.length < 192)) ∧
    (∃ (items : List Item) (i : Item),
      ordinaryCount items i.account ≤ 5 ∧
      (summaryOf items i.account = none ∧ ordinaryCount items i.account = 5 ∧ items.length < 192)) ∧
    (∃ (items : List Item) (i : Item),
      ordinaryCount items i.account ≤ 5 ∧
      ((summaryOf items i.account).any (fun e => !e.printing && e.isOpen && e.currency == i.currency) = true)) ∧
    (∃ (items : List Item) (i : Item),
      ordinaryCount items i.account ≤ 5 ∧
      ((summaryOf items i.account).any (fun e => !e.isOpen) = true ∧ ordinaryCount items i.account = 5)) ∧
    (∃ (items : List Item) (i : Item),
      ordinaryCount items i.account ≤ 5 ∧
      ((summaryOf items i.account).any (fun e => e.printing) = true ∧ ordinaryCount items i.account < 5 ∧ items.length < 192)) ∧
    (∃ (items : List Item) (i : Item),
      ordinaryCount items i.account ≤ 5 ∧
      (summaryOf items i.account = none ∧ items.length = 192)) :=
  ⟨⟨((List.range 0).map fun k => item (k + 1)), (item 9), by decide +kernel⟩,
    ⟨((List.range 5).map fun k => item (k + 1)), (item 9), by decide +kernel⟩,
    ⟨(((List.range 5).map fun k => item (k + 1)) ++ [{ item 6 with summary := true, isOpen := true, first := 6 }]), (item 9), by decide +kernel⟩,
    ⟨(((List.range 5).map fun k => item (k + 1)) ++ [{ item 6 with summary := true, isOpen := false, first := 6 }]), (item 9), by decide +kernel⟩,
    ⟨(((List.range 4).map fun k => item (k + 1)) ++ [{ item 6 with summary := true, isOpen := true, printing := true, first := 6 }]), (item 9), by decide +kernel⟩,
    ⟨((List.range 192).map fun k => { item (k + 1) with account := 5 }), (item 9), by decide +kernel⟩⟩

theorem test_met_BookWithoutItemsIsEjected :
    (∃ (s : State) (k : Fin 4) (frame : List Byte) (port : Fin 6),
      s.inReset = false ∧
      s.configuration.printerPort k = some port ∧
      printerSends frame 0x10 = true ∧
      s.passbook.printers[k].state = .idle ∧
      (s.day.state = .opened ∧ field frame 2 8 = 77 ∧ field frame 10 1 = 1 ∧ field frame 11 1 = 3 ∧ nextWaiting s.passbook.items 77 = none)) ∧
    (∃ (s : State) (k : Fin 4) (frame : List Byte) (port : Fin 6),
      s.inReset = false ∧
      s.configuration.printerPort k = some port ∧
      printerSends frame 0x10 = true ∧
      s.passbook.printers[k].state = .idle ∧
      (s.day.state = .setup)) :=
  ⟨⟨openDay, 0, (printerFrame 0x10 (leBytes 8 77 ++ [1, 3])), 1, by decide +kernel⟩,
    ⟨configured, 0, (printerFrame 0x10 (leBytes 8 77 ++ [1, 3])), 1, by decide +kernel⟩⟩

theorem test_met_BookOutEndsTheJob :
    (∃ (s : State) (k : Fin 4) (frame : List Byte) (port : Fin 6),
      s.inReset = false ∧
      s.configuration.printerPort k = some port ∧
      printerSends frame 0x11 = true ∧
      (s.passbook.printers[k].state = .book)) ∧
    (∃ (s : State) (k : Fin 4) (frame : List Byte) (port : Fin 6),
      s.inReset = false ∧
      s.configuration.printerPort k = some port ∧
      printerSends frame 0x11 = true ∧
      (s.passbook.printers[k].state = .printing ∧ (currentItem s s.passbook.printers[k]).any (fun e => !e.summary && e.reversals == []) = true)) :=
  ⟨⟨(onPrinter openDay fun p => { p with state := .book }), 0, (printerFrame 0x11 []), 1, by decide +kernel⟩,
    ⟨printing, 0, (printerFrame 0x11 []), 1, by decide +kernel⟩⟩

theorem test_met_ReadyResetsThePrinter :
    ∃ (s : State) (k : Fin 4) (frame : List Byte) (port : Fin 6),
      s.inReset = false ∧
      s.configuration.printerPort k = some port ∧
      printerSends frame 0x13 = true ∧
      s.passbook.printers[k].state ≠ .printing :=
  ⟨openDay, 0, (printerFrame 0x13 []), 1, by decide +kernel⟩

theorem test_met_AckAnswersTheMessage :
    (∃ (s : State) (k : Fin 4) (frame : List Byte) (port : Fin 6),
      s.inReset = false ∧
      s.configuration.printerPort k = some port ∧
      printerSends frame 0x14 = true ∧
      (s.passbook.printers[k].awaited = some .reset)) ∧
    (∃ (s : State) (k : Fin 4) (frame : List Byte) (port : Fin 6),
      s.inReset = false ∧
      s.configuration.printerPort k = some port ∧
      printerSends frame 0x14 = true ∧
      (s.passbook.printers[k].awaited = some .print)) ∧
    (∃ (s : State) (k : Fin 4) (frame : List Byte) (port : Fin 6),
      s.inReset = false ∧
      s.configuration.printerPort k = some port ∧
      printerSends frame 0x14 = true ∧
      (s.passbook.printers[k].awaited = none)) :=
  ⟨⟨(onPrinter openDay fun p => { p with awaited := some .reset }), 0, (printerFrame 0x14 []), 1, by decide +kernel⟩,
    ⟨(onPrinter openDay fun p => { p with awaited := some .print }), 0, (printerFrame 0x14 []), 1, by decide +kernel⟩,
    ⟨(onPrinter openDay fun p => { p with awaited := none }), 0, (printerFrame 0x14 []), 1, by decide +kernel⟩⟩

theorem test_met_FailedMessageFaultsThePrinter :
    (∃ (s : State) (k : Fin 4) (frame : List Byte) (port : Fin 6),
      s.inReset = false ∧
      s.configuration.printerPort k = some port ∧
      (printerSends frame 0x15 = true ∨ printerFrameValid frame = false) ∧
      (s.passbook.printers[k].awaited ≠ none ∧ s.passbook.printers[k].state ≠ .printing)) ∧
    (∃ (s : State) (k : Fin 4) (frame : List Byte) (port : Fin 6),
      s.inReset = false ∧
      s.configuration.printerPort k = some port ∧
      (printerSends frame 0x15 = true ∨ printerFrameValid frame = false) ∧
      (s.passbook.printers[k].awaited = none)) ∧
    (∃ (s : State) (k : Fin 4) (frame : List Byte) (port : Fin 6),
      s.inReset = false ∧
      s.configuration.printerPort k = some port ∧
      (printerSends frame 0x15 = true ∨ printerFrameValid frame = false) ∧
      (printerFrameValid frame = false ∧ s.passbook.printers[k].awaited ≠ none ∧ s.passbook.printers[k].state ≠ .printing)) ∧
    (∃ (s : State) (k : Fin 4) (frame : List Byte) (port : Fin 6),
      s.inReset = false ∧
      s.configuration.printerPort k = some port ∧
      (printerSends frame 0x15 = true ∨ printerFrameValid frame = false) ∧
      (s.passbook.printers[k].awaited = none ∧ s.passbook.printers[k].state = .printing)) :=
  ⟨⟨(onPrinter openDay fun p => { p with awaited := some .reset }), 0, (printerFrame 0x15 []), 1, by decide +kernel⟩,
    ⟨(onPrinter openDay fun p => { p with awaited := none }), 0, (printerFrame 0x15 []), 1, by decide +kernel⟩,
    ⟨(onPrinter openDay fun p => { p with awaited := some .eject }), 0, [1, 2], 1, by decide +kernel⟩,
    ⟨(onPrinter printing fun p => { p with awaited := none }), 0, (printerFrame 0x15 []), 1, by decide +kernel⟩⟩

theorem test_met_InvalidPrinterFrameIsDiscarded :
    ∃ (s : State) (k : Fin 4) (frame : List Byte),
      s.inReset = false ∧
      printerFrameValid frame = false ∧
      s.passbook.printers[k].awaited = none :=
  ⟨openDay, 0, [1, 2], by decide +kernel⟩

theorem test_met_TurnTimeoutEndsTheJob :
    ∃ (s : State) (k : Fin 4),
      s.inReset = false ∧
      s.passbook.printers[k].turnTimer = true :=
  ⟨(onPrinter openDay fun p => { p with state := .turnWait, turnTimer := true }), 0, by decide +kernel⟩

theorem test_met_SentBlockStartsTheAckWait :
    ∃ (s : State) (k : Fin 6) (frame : List Byte),
      s.inReset = false ∧
      s.configuration.headOfficePort s.batch.port = some k ∧
      s.lines[k] = [frame] ∧
      s.batch.state = .awaitAck :=
  ⟨{ sendingDay with lines := sendingDay.lines.set 2 [[9]] }, 2, [9], by decide +kernel⟩

theorem test_met_AckMovesToTheNextBlock :
    (∃ (s : State) (f : List Byte) (p : Plan),
      s.inReset = false ∧
      frameTaken s s.batch.port f 0x81 = true ∧
      s.batch.state ≠ .awaitFinal ∧
      s.batch.plan = some p ∧
      (frameBlock f = s.batch.current ∧ s.batch.current + 1 ≠ p.blocks)) ∧
    (∃ (s : State) (f : List Byte) (p : Plan),
      s.inReset = false ∧
      frameTaken s s.batch.port f 0x81 = true ∧
      s.batch.state ≠ .awaitFinal ∧
      s.batch.plan = some p ∧
      (frameBlock f ≠ s.batch.current)) ∧
    (∃ (s : State) (f : List Byte) (p : Plan),
      s.inReset = false ∧
      frameTaken s s.batch.port f 0x81 = true ∧
      s.batch.state ≠ .awaitFinal ∧
      s.batch.plan = some p ∧
      (frameBlock f = s.batch.current ∧ s.batch.current + 1 = p.blocks)) :=
  ⟨⟨sendingDay, (answer 0x81 2), plan, by decide +kernel⟩,
    ⟨sendingDay, (answer 0x81 3), plan, by decide +kernel⟩,
    ⟨(onBatch sendingDay fun b => { b with current := 6 }), (answer 0x81 6), plan, by decide +kernel⟩⟩

theorem test_met_FailedSendIsRetried :
    (∃ (s : State) (k : Fin 6) (f : List Byte),
      s.inReset = false ∧
      s.batch.retries < 3 ∧
      s.configuration.headOfficePort s.batch.port = some k ∧
      (frameTaken s s.batch.port f 0x82 = true ∧ frameBlock f = s.batch.current ∧ s.batch.state ≠ .awaitFinal ∧ s.batch.ackWait = true)) ∧
    (∃ (s : State) (k : Fin 6),
      s.inReset = false ∧
      s.batch.retries < 3 ∧
      s.configuration.headOfficePort s.batch.port = some k ∧
      (s.batch.finalWait = true)) :=
  ⟨⟨sendingDay, 2, (answer 0x82 2), by decide +kernel⟩,
    ⟨(onBatch sendingDay fun b => { b with state := .awaitFinal, ackWait := false, finalWait := true, current := 6 }), 2, by decide +kernel⟩⟩

theorem test_met_WaitPausesTheSender :
    (∃ (s : State) (f : List Byte),
      s.inReset = false ∧
      frameTaken s s.batch.port f 0x83 = true ∧
      frameBlock f = s.batch.current ∧
      (s.batch.state ≠ .awaitFinal)) ∧
    (∃ (s : State) (f : List Byte),
      s.inReset = false ∧
      frameTaken s s.batch.port f 0x83 = true ∧
      frameBlock f = s.batch.current ∧
      (s.batch.state = .awaitFinal)) :=
  ⟨⟨sendingDay, (answer 0x83 2), by decide +kernel⟩,
    ⟨(onBatch sendingDay fun b => { b with state := .awaitFinal, current := 6 }), (answer 0x83 6), by decide +kernel⟩⟩

theorem test_met_EndedPauseResendsTheBlock :
    ∃ (s : State) (k : Fin 6),
      s.inReset = false ∧
      s.batch.pause = true ∧
      s.configuration.headOfficePort s.batch.port = some k :=
  ⟨(onBatch sendingDay fun b => { b with state := .paused, pause := true }), 2, by decide +kernel⟩

theorem test_met_FinalSettlesOrRejects :
    (∃ (s : State) (f : List Byte) (p : Plan),
      s.inReset = false ∧
      frameTaken s s.batch.port f 0x84 = true ∧
      s.batch.state = .awaitFinal ∧
      s.batch.plan = some p ∧
      (field f 6 1 = 1 ∧ field f 7 8 = p.hash)) ∧
    (∃ (s : State) (f : List Byte) (p : Plan),
      s.inReset = false ∧
      frameTaken s s.batch.port f 0x84 = true ∧
      s.batch.state = .awaitFinal ∧
      s.batch.plan = some p ∧
      (field f 6 1 = 1 ∧ field f 7 8 ≠ p.hash)) ∧
    (∃ (s : State) (f : List Byte) (p : Plan),
      s.inReset = false ∧
      frameTaken s s.batch.port f 0x84 = true ∧
      s.batch.state = .awaitFinal ∧
      s.batch.plan = some p ∧
      (field f 6 1 = 2)) :=
  ⟨⟨(onBatch sendingDay fun b => { b with state := .awaitFinal, current := 6, finalWait := true }), (final 1 40), plan, by decide +kernel⟩,
    ⟨(onBatch sendingDay fun b => { b with state := .awaitFinal, current := 6, finalWait := true }), (final 1 41), plan, by decide +kernel⟩,
    ⟨(onBatch sendingDay fun b => { b with state := .awaitFinal, current := 6, finalWait := true }), (final 2 40), plan, by decide +kernel⟩⟩

theorem test_met_InvalidHeadOfficeFrameIsDiscarded :
    (∃ (s : State),
      s.inReset = false) ∧
    (∃ (s : State) (port : HoPort) (f : List Byte),
      s.inReset = false ∧
      (headOfficeFrameValid f = true ∧ s.batch.port ≠ port)) :=
  ⟨⟨openDay, by decide +kernel⟩,
    ⟨sendingDay, .backup, (answer 0x81 2), by decide +kernel⟩⟩

theorem test_met_JournalRunVerifiesOrBreaks :
    (∃ (s : State) (r : Run) (last : Nat),
      s.inReset = false ∧
      s.journal.runs = [r] ∧
      r.requester = .check ∧
      r.started = true ∧
      r.last = some last ∧
      s.journal.serving = some .check ∧
      8 ≤ s.journal.buffer.length ∧
      (entryNumber (bytesOfDwords (s.journal.buffer.take 8)) ≠ r.next)) ∧
    (∃ (s : State) (r : Run) (last : Nat),
      s.inReset = false ∧
      s.journal.runs = [r] ∧
      r.requester = .check ∧
      r.started = true ∧
      r.last = some last ∧
      s.journal.serving = some .check ∧
      8 ≤ s.journal.buffer.length ∧
      (entryNumber (bytesOfDwords (s.journal.buffer.take 8)) = r.next ∧ entryChain (bytesOfDwords (s.journal.buffer.take 8)) = chainOf (r.chain.getD 0xFFFFFFFF) (bytesOfDwords (s.journal.buffer.take 8)) ∧ r.next < last)) ∧
    (∃ (s : State) (r : Run) (last : Nat),
      s.inReset = false ∧
      s.journal.runs = [r] ∧
      r.requester = .check ∧
      r.started = true ∧
      r.last = some last ∧
      s.journal.serving = some .check ∧
      8 ≤ s.journal.buffer.length ∧
      (entryNumber (bytesOfDwords (s.journal.buffer.take 8)) = r.next ∧ entryChain (bytesOfDwords (s.journal.buffer.take 8)) = chainOf (r.chain.getD 0xFFFFFFFF) (bytesOfDwords (s.journal.buffer.take 8)) ∧ r.next < last)) :=
  ⟨⟨{ openDay with journal := { openDay.journal with next := 4, runs := [⟨.check, 1, some 3, some 0xFFFFFFFF, true⟩], serving := some .check, buffer := List.replicate 8 0 }, control := { openDay.control with journalCheck := some (3, 7) } }, ⟨.check, 1, some 3, some 0xFFFFFFFF, true⟩, 3, by decide +kernel⟩,
    ⟨{ openDay with journal := { openDay.journal with next := 4, runs := [⟨.check, 1, some 3, some 0xFFFFFFFF, true⟩], serving := some .check, buffer := dwordsOfBytes 8 (chainedEntry { openDay with journal := { openDay.journal with chain := 0xFFFFFFFF } } (entryContent 1 0 { kind := 1 })) }, control := { openDay.control with journalCheck := some (3, 7) } }, ⟨.check, 1, some 3, some 0xFFFFFFFF, true⟩, 3, by decide +kernel⟩,
    ⟨{ openDay with journal := { openDay.journal with next := 4, runs := [⟨.check, 1, some 3, some 0xFFFFFFFF, true⟩], serving := some .check, buffer := dwordsOfBytes 8 (chainedEntry { openDay with journal := { openDay.journal with chain := 0xFFFFFFFF } } (entryContent 1 0 { kind := 1 })) }, control := { openDay.control with journalCheck := some (3, 7) } }, ⟨.check, 1, some 3, some 0xFFFFFFFF, true⟩, 3, by decide +kernel⟩⟩

theorem test_met_AssertedResetHoldsEveryCommand :
    (∃ (s : State) (c : Instr),
      s.inReset = true ∧
      c ≠ .reset ∧
      (∀ straps, c ≠ .resetRelease straps) ∧
      (∀ addr, c = .hostRead addr → addr.toNat % 8 = 0) ∧
      (∀ addr mask data, c = .hostWriteArrival addr mask data → addr.toNat % 8 = 0)) ∧
    (∃ (s : State) (c : Instr),
      s.inReset = true ∧
      c ≠ .reset ∧
      (∀ straps, c ≠ .resetRelease straps) ∧
      (∀ addr, c = .hostRead addr → addr.toNat % 8 = 0) ∧
      (∀ addr mask data, c = .hostWriteArrival addr mask data → addr.toNat % 8 = 0)) :=
  ⟨⟨{ configured with inReset := true }, .tick, by decide +kernel, by decide +kernel, by rintro _ ⟨⟩, by rintro _ ⟨⟩, by rintro _ _ _ ⟨⟩⟩,
    ⟨{ configured with inReset := true }, (.hostRead 0x10008), by decide +kernel, by decide +kernel, by rintro _ ⟨⟩, by rintro _ ⟨⟩; decide, by rintro _ _ _ ⟨⟩⟩⟩

theorem test_met_RegionsStandAtTheirOffsets :
    (∃ (s : State) (addr : Nat) (k : Fin 7) (o : Nat),
      windowAt s.path addr = some k ∧
      addr = s.path.windows[k].base + o ∧
      o % 8 = 0 ∧
      (k = 0 ∧ o < 0x1800)) ∧
    (∃ (s : State) (addr : Nat) (k : Fin 7) (o : Nat),
      windowAt s.path addr = some k ∧
      addr = s.path.windows[k].base + o ∧
      o % 8 = 0 ∧
      (k = 0 ∧ o = 0x1800)) ∧
    (∃ (s : State) (addr : Nat) (k : Fin 7) (o : Nat),
      windowAt s.path addr = some k ∧
      addr = s.path.windows[k].base + o ∧
      o % 8 = 0 ∧
      (k = 0 ∧ o = 0x1808 + 8 * 5)) ∧
    (∃ (s : State) (addr : Nat) (k : Fin 7) (o : Nat),
      windowAt s.path addr = some k ∧
      addr = s.path.windows[k].base + o ∧
      o % 8 = 0 ∧
      (k = 0 ∧ o = 0x1838)) ∧
    (∃ (s : State) (addr : Nat) (k : Fin 7) (o : Nat),
      windowAt s.path addr = some k ∧
      addr = s.path.windows[k].base + o ∧
      o % 8 = 0 ∧
      (k = 0 ∧ 0x1840 ≤ o ∧ o < 0x2000)) ∧
    (∃ (s : State) (addr : Nat) (k : Fin 7) (o : Nat),
      windowAt s.path addr = some k ∧
      addr = s.path.windows[k].base + o ∧
      o % 8 = 0 ∧
      (k = 1 ∧ o = 15 * 0x80 + 0x70)) ∧
    (∃ (s : State) (addr : Nat) (k : Fin 7) (o : Nat),
      windowAt s.path addr = some k ∧
      addr = s.path.windows[k].base + o ∧
      o % 8 = 0 ∧
      (k = 1 ∧ o = 15 * 0x80 + 0x78)) ∧
    (∃ (s : State) (addr : Nat) (k : Fin 7) (o : Nat),
      windowAt s.path addr = some k ∧
      addr = s.path.windows[k].base + o ∧
      o % 8 = 0 ∧
      (k = 2 ∧ o = 15 * 0x1000 + 0xE58)) ∧
    (∃ (s : State) (addr : Nat) (k : Fin 7) (o : Nat),
      windowAt s.path addr = some k ∧
      addr = s.path.windows[k].base + o ∧
      o % 8 = 0 ∧
      (k = 2 ∧ o = 15 * 0x1000 + 0xE60)) ∧
    (∃ (s : State) (addr : Nat) (k : Fin 7) (o : Nat),
      windowAt s.path addr = some k ∧
      addr = s.path.windows[k].base + o ∧
      o % 8 = 0 ∧
      (k = 2 ∧ o = 15 * 0x1000 + 0xF00)) ∧
    (∃ (s : State) (addr : Nat) (k : Fin 7) (o : Nat),
      windowAt s.path addr = some k ∧
      addr = s.path.windows[k].base + o ∧
      o % 8 = 0 ∧
      (k = 3 ∧ o = 15 * 0x40 + 8)) ∧
    (∃ (s : State) (addr : Nat) (k : Fin 7) (o : Nat),
      windowAt s.path addr = some k ∧
      addr = s.path.windows[k].base + o ∧
      o % 8 = 0 ∧
      (k = 3 ∧ o = 15 * 0x40 + 0x38)) ∧
    (∃ (s : State) (addr : Nat) (k : Fin 7) (o : Nat),
      windowAt s.path addr = some k ∧
      addr = s.path.windows[k].base + o ∧
      o % 8 = 0 ∧
      (4 ≤ k.val)) :=
  ⟨⟨configured, 0x3FFE17F8, 0, 0x17F8, by decide +kernel⟩,
    ⟨configured, 0x3FFE1800, 0, 0x1800, by decide +kernel⟩,
    ⟨configured, 0x3FFE1830, 0, 0x1830, by decide +kernel⟩,
    ⟨configured, 0x3FFE1838, 0, 0x1838, by decide +kernel⟩,
    ⟨configured, 0x3FFE1FF8, 0, 0x1FF8, by decide +kernel⟩,
    ⟨configured, 0x107F0, 1, 0x7F0, by decide +kernel⟩,
    ⟨configured, 0x107F8, 1, 0x7F8, by decide +kernel⟩,
    ⟨configured, 0x2FE58, 2, 0xFE58, by decide +kernel⟩,
    ⟨configured, 0x2FE60, 2, 0xFE60, by decide +kernel⟩,
    ⟨configured, 0x2FF00, 2, 0xFF00, by decide +kernel⟩,
    ⟨configured, 0x403C8, 3, 0x3C8, by decide +kernel⟩,
    ⟨configured, 0x403F8, 3, 0x3F8, by decide +kernel⟩,
    ⟨configured, 0x61FF8, 6, 0x1FF8, by decide +kernel⟩⟩

theorem test_met_WindowsCoverTheirSpans :
    (∃ (s : State) (addr : Nat),
      (windowAt s.path addr = some 1)) ∧
    (∃ (s : State) (addr : Nat),
      (windowAt s.path addr = none)) ∧
    (∃ (s : State) (addr : Nat),
      (s.path.windows[(1 : Fin 7)].known = true ∧ s.path.windows[(2 : Fin 7)].base = s.path.windows[(1 : Fin 7)].base ∧ windowAt s.path addr = some 1)) ∧
    (∃ (s : State) (addr : Nat),
      (s.path.windows[(1 : Fin 7)].base + s.path.windows[(1 : Fin 7)].length = addr ∧ windowAt s.path addr = some 2)) :=
  ⟨⟨configured, 0x10000, by decide +kernel⟩,
    ⟨configured, 0x10800, by decide +kernel⟩,
    ⟨(onPath configured fun p => { p with windows := p.windows.set 2 ⟨true, 0x10000, 0x1000⟩ }), 0x107F8, by decide +kernel⟩,
    ⟨(onPath configured fun p => { p with windows := p.windows.set 2 ⟨true, 0x10000, 0x1000⟩ }), 0x10800, by decide +kernel⟩⟩

theorem test_met_DrainThatLeavesRoomPlacesTheGroup :
    ∃ (s : State) (e : InjectEntry) (queue : List InjectEntry) (g : Group) (rest : List Group),
      s.inReset = false ∧
      nextGrant s.path = some .inject ∧
      s.path.queue = e :: queue ∧
      s.path.waiting = g :: rest ∧
      g.writes ≠ [] ∧
      queue.length + g.writes.length = 32 ∧
      (∀ h ∈ rest, h.writes ≠ []) :=
  ⟨(onPath configured fun p => { p with queue := entries 32, mode := .drain, waiting := [⟨.journal, [(16, 2)]⟩] }), ⟨0x9000, 0, .mirror⟩, (entries 32).tail, ⟨.journal, [(16, 2)]⟩, [], by decide +kernel⟩

theorem test_met_LaterChecksDecide :
    (∃ (s : State) (e : SubmitEntry),
      ((slotFieldsOf s e.slot).tagCopy = (slotFieldsOf s e.slot).tag ∧ kindPermitted (judgedState s e) (slotFieldsOf s e.slot).kind = true ∧ fieldsFit s.configuration e.slot (judgedForm s (slotFieldsOf s e.slot)) (slotFieldsOf s e.slot) = true ∧ (slotFieldsOf s e.slot).date = s.day.date ∧ s.totals.flags[(1 : Fin 17)].balanced = true)) ∧
    (∃ (s : State) (e : SubmitEntry),
      ((slotFieldsOf s e.slot).tagCopy = (slotFieldsOf s e.slot).tag ∧ kindPermitted (judgedState s e) (slotFieldsOf s e.slot).kind = true ∧ fieldsFit s.configuration e.slot (judgedForm s (slotFieldsOf s e.slot)) (slotFieldsOf s e.slot) = true ∧ (slotFieldsOf s e.slot).date = s.day.date ∧ s.totals.flags[(1 : Fin 17)].held = true)) ∧
    (∃ (s : State) (e : SubmitEntry),
      ((slotFieldsOf s e.slot).tagCopy = (slotFieldsOf s e.slot).tag ∧ kindPermitted (judgedState s e) (slotFieldsOf s e.slot).kind = true ∧ fieldsFit s.configuration e.slot (judgedForm s (slotFieldsOf s e.slot)) (slotFieldsOf s e.slot) = true ∧ (slotFieldsOf s e.slot).date = s.day.date ∧ s.journal.free ≤ 64)) ∧
    (∃ (s : State) (e : SubmitEntry),
      ((slotFieldsOf s e.slot).tagCopy = (slotFieldsOf s e.slot).tag ∧ kindPermitted (judgedState s e) (slotFieldsOf s e.slot).kind = true ∧ fieldsFit s.configuration e.slot (judgedForm s (slotFieldsOf s e.slot)) (slotFieldsOf s e.slot) = true ∧ (slotFieldsOf s e.slot).date = s.day.date ∧ s.journal.free = 65)) :=
  ⟨⟨{ submitted 1 9 with totals := { openDay.totals with flags := openDay.totals.flags.set 1 ⟨false, true, false⟩ } }, ⟨0, true⟩, by decide +kernel⟩,
    ⟨{ submitted 1 9 with totals := { openDay.totals with flags := openDay.totals.flags.set 1 ⟨true, false, false⟩ } }, ⟨0, true⟩, by decide +kernel⟩,
    ⟨{ submitted 1 9 with journal := { openDay.journal with free := 64 } }, ⟨0, true⟩, by decide +kernel⟩,
    ⟨{ submitted 1 9 with journal := { openDay.journal with free := 65 } }, ⟨0, true⟩, by decide +kernel⟩⟩

theorem test_met_FieldsFitTheKind :
    (∃ (c : Configuration) (n : Fin 16) (form : Nat) (f : SlotFields),
      f.kind ≠ 7 ∧
      (f.kind = 1 ∧ fieldsFit c n form f = true)) ∧
    (∃ (c : Configuration) (n : Fin 16) (form : Nat) (f : SlotFields),
      f.kind ≠ 7 ∧
      (f.kind = 3 ∧ fieldsFit c n form f = true)) ∧
    (∃ (c : Configuration) (n : Fin 16) (form : Nat) (f : SlotFields),
      f.kind ≠ 7 ∧
      (f.kind = 4 ∧ fieldsFit c n form f = true)) ∧
    (∃ (c : Configuration) (n : Fin 16) (form : Nat) (f : SlotFields),
      f.kind ≠ 7 ∧
      (f.kind = 5 ∧ fieldsFit c n form f = true)) ∧
    (∃ (c : Configuration) (n : Fin 16) (form : Nat) (f : SlotFields),
      f.kind ≠ 7 ∧
      (f.kind = 6 ∧ fieldsFit c n form f = true)) ∧
    (∃ (c : Configuration) (n : Fin 16) (form : Nat) (f : SlotFields),
      f.kind ≠ 7 ∧
      (f.kind = 6 ∧ fieldsFit c n form f = false)) :=
  ⟨⟨branch, 0, 1, (slotFields (cashBuffer 1 9)), by decide +kernel⟩,
    ⟨branch, 0, 3, { (slotFields (cashBuffer 3 9)) with holderB := 2 }, by decide +kernel⟩,
    ⟨branch, 0, 4, { (slotFields (cashBuffer 4 9)) with holderB := 1, currencyB := 1, rate := 1 }, by decide +kernel⟩,
    ⟨branch, 0, 5, { (slotFields (cashBuffer 5 9)) with holderA := 0, direction := 2, account := 1, breakdownA := List.replicate 12 0 }, by decide +kernel⟩,
    ⟨branch, 0, 6, (slotFields (cashBuffer 6 9)), by decide +kernel⟩,
    ⟨branch, 0, 6, { (slotFields (cashBuffer 6 9)) with holderA := 3 }, by decide +kernel⟩⟩

theorem test_met_ReversalFieldsFit :
    (∃ (c : Configuration) (n : Fin 16) (form : Nat) (f : SlotFields),
      f.kind = 7 ∧
      (fieldsFit c n form f = true ∧ f.holderA = 1)) ∧
    (∃ (c : Configuration) (n : Fin 16) (form : Nat) (f : SlotFields),
      f.kind = 7 ∧
      (fieldsFit c n form f = false ∧ f.holderA = 3)) ∧
    (∃ (c : Configuration) (n : Fin 16) (form : Nat) (f : SlotFields),
      f.kind = 7 ∧
      (fieldsFit c n form f = true ∧ f.holderA = 3)) :=
  ⟨⟨branch, 0, 1, (slotFields (cashBuffer 7 9)), by decide +kernel⟩,
    ⟨branch, 0, 1, { (slotFields (cashBuffer 7 9)) with holderA := 3 }, by decide +kernel⟩,
    ⟨branch, 0, 5, { (slotFields (cashBuffer 7 9)) with holderA := 3 }, by decide +kernel⟩⟩

theorem test_met_RoleAndHoldJudgeTheNamedHolders :
    (∃ (c : Configuration) (n : Fin 16) (form : Nat) (f : SlotFields) (a : Fin 17) (b : Fin 17),
      f.holderA = a.val ∧
      f.holderB = b.val ∧
      (form = 1 ∧ c.positions[n].role = 1 ∧ f.kind = 1)) ∧
    (∃ (c : Configuration) (n : Fin 16) (form : Nat) (f : SlotFields) (a : Fin 17) (b : Fin 17),
      f.holderA = a.val ∧
      f.holderB = b.val ∧
      (form = 3 ∧ c.positions[n].role = 1 ∧ f.kind = 3 ∧ a ≠ b)) ∧
    (∃ (form : Nat) (f : SlotFields) (a : Fin 17) (b : Fin 17),
      f.holderA = a.val ∧
      f.holderB = b.val ∧
      (form = 0 ∧ f.kind = 7)) ∧
    (∃ (c : Configuration) (n : Fin 16) (form : Nat) (f : SlotFields) (a : Fin 17) (b : Fin 17),
      f.holderA = a.val ∧
      f.holderB = b.val ∧
      (c.positions[n].role = 2 ∧ form = 6 ∧ f.kind = 6)) :=
  ⟨⟨branch, 0, 1, (slotFields (cashBuffer 1 9)), 1, 0, by decide +kernel⟩,
    ⟨branch, 0, 3, (slotFields (cashBuffer 3 9)), 1, 0, by decide +kernel⟩,
    ⟨0, (slotFields (cashBuffer 7 9)), 1, 0, by decide +kernel⟩,
    ⟨branch, 1, 6, (slotFields (cashBuffer 6 9)), 1, 0, by decide +kernel⟩⟩

theorem test_met_AmountsAreTestedInOrder :
    (∃ (f : SlotFields) (a : Fin 4) (b : Fin 4),
      f.currencyA = a.val ∧
      f.currencyB = b.val ∧
      (f.kind = 4)) ∧
    (∃ (f : SlotFields) (a : Fin 4) (b : Fin 4),
      f.currencyA = a.val ∧
      f.currencyB = b.val ∧
      (f.kind = 7)) ∧
    (∃ (f : SlotFields) (a : Fin 4) (b : Fin 4),
      f.currencyA = a.val ∧
      f.currencyB = b.val ∧
      (f.kind = 6)) :=
  ⟨⟨{ (slotFields (cashBuffer 4 9)) with currencyB := 1 }, 0, 1, by decide +kernel⟩,
    ⟨{ (slotFields (cashBuffer 7 9)) with currencyB := 1 }, 0, 1, by decide +kernel⟩,
    ⟨(slotFields (cashBuffer 6 9)), 0, 0, by decide +kernel⟩⟩

theorem test_met_CashMovesReleaseTheirHolders :
    (∃ (m : Movement) (a : Fin 17) (b : Fin 17),
      m.holderA = a.val ∧
      m.holderB = b.val ∧
      (m.form = 4)) ∧
    (∃ (m : Movement) (a : Fin 17) (b : Fin 17),
      m.holderA = a.val ∧
      m.holderB = b.val ∧
      (m.form = 3)) ∧
    (∃ (m : Movement) (a : Fin 17) (b : Fin 17),
      m.holderA = a.val ∧
      m.holderB = b.val ∧
      (m.form = 6)) :=
  ⟨⟨{ cashMovement 4 with holderB := 1 }, 1, 1, by decide +kernel⟩,
    ⟨{ cashMovement 3 with holderB := 2 }, 1, 2, by decide +kernel⟩,
    ⟨{ cashMovement 6 with holderB := 0 }, 1, 0, by decide +kernel⟩⟩

theorem test_met_AcceptedPostingHandsItsItem :
    (∃ (f : SlotFields) (k : Fin 4),
      f.currencyA = k.val ∧
      (f.kind ≠ 7 ∧ f.passbook = 0)) ∧
    (∃ (f : SlotFields) (k : Fin 4),
      f.currencyA = k.val ∧
      (f.kind = 1 ∧ f.passbook = 1)) ∧
    (∃ (f : SlotFields) (k : Fin 4),
      f.currencyA = k.val ∧
      (f.kind = 2 ∧ f.passbook = 1)) ∧
    (∃ (f : SlotFields) (k : Fin 4),
      f.currencyA = k.val ∧
      (f.kind = 5 ∧ f.passbook = 1 ∧ f.direction = 1)) ∧
    (∃ (f : SlotFields) (k : Fin 4),
      f.currencyA = k.val ∧
      (f.kind = 5 ∧ f.passbook = 1 ∧ f.direction = 2)) ∧
    (∃ (s : State) (f : SlotFields) (number : Nat) (k : Fin 4),
      f.currencyA = k.val ∧
      (f.kind = 7 ∧ s.posting.reversal.any (fun r => flagSet (entryFields (reversalEntry r)).flags 0) = true ∧ settleOriginal s.passbook.items f.account ⟨number, f.reverseRef, 15, f.balance, true⟩ = some [])) ∧
    (∃ (s : State) (f : SlotFields) (k : Fin 4),
      f.currencyA = k.val ∧
      (f.kind = 7 ∧ s.posting.reversal.any (fun r => flagSet (entryFields (reversalEntry r)).flags 0) = false ∧ f.passbook = 1)) ∧
    (∃ (s : State) (f : SlotFields) (k : Fin 4),
      f.currencyA = k.val ∧
      (f.kind = 7 ∧ s.posting.reversal.any (fun r => flagSet (entryFields (reversalEntry r)).flags 0) = false ∧ f.passbook = 0)) :=
  ⟨⟨(slotFields (cashBuffer 1 9)), 0, by decide +kernel⟩,
    ⟨{ (slotFields (cashBuffer 1 9)) with passbook := 1 }, 0, by decide +kernel⟩,
    ⟨{ (slotFields (cashBuffer 2 9)) with passbook := 1 }, 0, by decide +kernel⟩,
    ⟨{ (slotFields (cashBuffer 5 9)) with passbook := 1, direction := 1 }, 0, by decide +kernel⟩,
    ⟨{ (slotFields (cashBuffer 5 9)) with passbook := 1, direction := 2 }, 0, by decide +kernel⟩,
    ⟨{ openDay with passbook := { openDay.passbook with items := [item 3] }, posting := { openDay.posting with reversal := some ⟨3, true, true, dwordsOfBytes 8 (journaled 3 { kind := 2, code := 1, flags := 1, account := 77 })⟩ } }, { (slotFields (cashBuffer 7 9)) with passbook := 1, reverseRef := 3, account := 77 }, 5, 0, by decide +kernel⟩,
    ⟨{ openDay with passbook := { openDay.passbook with items := [item 3] }, posting := { openDay.posting with reversal := some ⟨3, true, true, dwordsOfBytes 8 (journaled 3 { kind := 2, code := 1, flags := 0, account := 77 })⟩ } }, { (slotFields (cashBuffer 7 9)) with passbook := 1, reverseRef := 3, account := 77 }, 0, by decide +kernel⟩,
    ⟨{ openDay with passbook := { openDay.passbook with items := [item 3] }, posting := { openDay.posting with reversal := some ⟨3, true, true, dwordsOfBytes 8 (journaled 3 { kind := 2, code := 1, flags := 0, account := 77 })⟩ } }, { (slotFields (cashBuffer 7 9)) with reverseRef := 3 }, 0, by decide +kernel⟩⟩

theorem test_met_OriginalItemIsSettled :
    (∃ (items : List Item) (account : Nat) (r : PendingReversal),
      (locateItem items account r.original = none)) ∧
    (∃ (items : List Item) (account : Nat) (r : PendingReversal),
      (locateItem items account r.original = some { item 3 with printing := true })) ∧
    (∃ (items : List Item) (account : Nat) (r : PendingReversal),
      (locateItem items account r.original = some (item 3))) ∧
    (∃ (items : List Item) (account : Nat) (r : PendingReversal),
      (locateItem items account r.original = some { item 5 with summary := true, isOpen := true, first := 3, folds := 1 })) ∧
    (∃ (items : List Item) (account : Nat) (r : PendingReversal),
      (locateItem items account r.original = some { item 5 with summary := true, isOpen := true, first := 3, folds := 2 })) :=
  ⟨⟨[item 3], 77, ⟨9, 4, 15, 0, true⟩, by decide +kernel⟩,
    ⟨[{ item 3 with printing := true }], 77, ⟨9, 3, 15, 0, true⟩, by decide +kernel⟩,
    ⟨[item 3, item 4], 77, ⟨9, 3, 15, 0, true⟩, by decide +kernel⟩,
    ⟨[{ item 5 with summary := true, isOpen := true, first := 3, folds := 1 }], 77, ⟨9, 3, 15, 0, true⟩, by decide +kernel⟩,
    ⟨[{ item 5 with summary := true, isOpen := true, first := 3, folds := 2 }], 77, ⟨9, 4, 15, 0, true⟩, by decide +kernel⟩⟩

theorem test_met_BookedRecordFollowsTheChange :
    (∃ (c : Configuration) (t : Totals) (h : Fin 17) (k : Fin 4) (change : CountChange),
      (c.holderActive h = true ∧ c.hasCurrency k = true ∧ ∀ n ∈ countsAfter (recordOf t h k).counts change, 0 ≤ n ∧ n ≤ 65535)) ∧
    (∃ (c : Configuration) (h : Fin 17),
      (c.holderActive h = false)) ∧
    (∃ (c : Configuration) (k : Fin 4),
      (c.hasCurrency k = false)) :=
  ⟨⟨branch, (setRecord resetTotals 1 0 { zeroRecord with faulty := true }), 1, 0, (.gain [65535, 0, 3, 0, 0, 0, 0, 0, 0, 0, 0, 0]), by decide +kernel⟩,
    ⟨branch, 3, by decide +kernel⟩,
    ⟨branch, 2, by decide +kernel⟩⟩

theorem test_met_TwoLegPostingBooks :
    (∃ (m : Movement) (h : Fin 17) (g : Fin 17) (k : Fin 4),
      m.holderA = h.val ∧
      m.currencyA = k.val ∧
      (m.kind = 3 ∧ m.form = 3 ∧ m.holderB = g.val ∧ g ≠ h)) ∧
    (∃ (m : Movement) (h : Fin 17) (k : Fin 4) (j : Fin 4),
      m.holderA = h.val ∧
      m.currencyA = k.val ∧
      (m.kind = 4 ∧ m.form = 4 ∧ m.currencyB = j.val ∧ j ≠ k)) :=
  ⟨⟨{ cashMovement 3 with holderB := 2 }, 1, 2, 0, by decide +kernel⟩,
    ⟨{ cashMovement 4 with holderB := 1, currencyB := 1, amountB := 15, rate := 100000000 }, 1, 0, 1, by decide +kernel⟩⟩

theorem test_met_CountBooksItsDifference :
    ∃ (m : Movement) (h : Fin 17) (k : Fin 4),
      m.kind = 6 ∧
      m.form = 6 ∧
      m.holderA = h.val ∧
      m.currencyA = k.val ∧
      m.closing = false :=
  ⟨{ cashMovement 6 with closing := false }, 1, 0, by decide +kernel⟩

theorem test_met_ReversalBooksTheOpposite :
    (∃ (m : Movement) (k : Fin 4),
      m.kind = 7 ∧
      m.currencyA = k.val ∧
      (m.form = 1 ∧ m.debit = false)) ∧
    (∃ (m : Movement) (k : Fin 4),
      m.kind = 7 ∧
      m.currencyA = k.val ∧
      (m.form = 2 ∧ m.debit = false)) ∧
    (∃ (m : Movement) (k : Fin 4),
      m.kind = 7 ∧
      m.currencyA = k.val ∧
      (m.form = 5 ∧ m.debit = false)) ∧
    (∃ (m : Movement) (k : Fin 4),
      m.kind = 7 ∧
      m.currencyA = k.val ∧
      (m.form = 5 ∧ m.debit = true)) ∧
    (∃ (t : Totals) (m : Movement) (k : Fin 4),
      m.kind = 7 ∧
      m.currencyA = k.val ∧
      (m.form = 1 ∧ 5 ∈ t.reversed)) :=
  ⟨⟨{ cashMovement 7 with form := 1, debit := false, ref := 5 }, 0, by decide +kernel⟩,
    ⟨{ cashMovement 7 with form := 2, debit := false, ref := 5 }, 0, by decide +kernel⟩,
    ⟨{ cashMovement 7 with form := 5, debit := false, ref := 5 }, 0, by decide +kernel⟩,
    ⟨{ cashMovement 7 with form := 5, debit := true, ref := 5 }, 0, by decide +kernel⟩,
    ⟨{ resetTotals with reversed := [5] }, { cashMovement 7 with form := 1, debit := false, ref := 5 }, 0, by decide +kernel⟩⟩

theorem test_met_TwoLegReversalBooks :
    (∃ (m : Movement) (h : Fin 17) (g : Fin 17) (k : Fin 4),
      m.kind = 7 ∧
      m.holderA = h.val ∧
      m.currencyA = k.val ∧
      (m.form = 3 ∧ m.holderB = g.val ∧ g ≠ h)) ∧
    (∃ (m : Movement) (h : Fin 17) (k : Fin 4) (j : Fin 4),
      m.kind = 7 ∧
      m.holderA = h.val ∧
      m.currencyA = k.val ∧
      (m.form = 4 ∧ m.currencyB = j.val ∧ j ≠ k)) :=
  ⟨⟨{ cashMovement 7 with form := 3, holderB := 2 }, 1, 2, 0, by decide +kernel⟩,
    ⟨{ cashMovement 7 with form := 4, holderB := 1, currencyB := 1, amountB := 15, rate := 100000000 }, 1, 0, 1, by decide +kernel⟩⟩

theorem test_met_ResidueIsWhatThePayableLeaves :
    (∃ (c : Configuration) (a : Fin 4) (b : Fin 4) (amount : Nat) (rate : Nat),
      c.hasCurrency a = true ∧
      c.hasCurrency b = true ∧
      1 ≤ c.currencies[b].payable ∧
      1 ≤ amount ∧
      amount ≤ 999999999999 ∧
      1 ≤ rate ∧
      rate ≤ 999999999999 ∧
      (amount = 1234)) ∧
    (∃ (c : Configuration) (a : Fin 4) (b : Fin 4) (amount : Nat) (rate : Nat),
      c.hasCurrency a = true ∧
      c.hasCurrency b = true ∧
      1 ≤ c.currencies[b].payable ∧
      1 ≤ amount ∧
      amount ≤ 999999999999 ∧
      1 ≤ rate ∧
      rate ≤ 999999999999 ∧
      (amount = 999999999999 ∧ rate = 999999999999)) :=
  ⟨⟨branch, 0, 1, 1234, 123456789, by decide +kernel⟩,
    ⟨branch, 0, 1, 999999999999, 999999999999, by decide +kernel⟩⟩

theorem test_met_AmountFieldShowsTheAmount :
    (∃ (cur : Currency) (v : Int),
      v.natAbs < 10 ^ 24 ∧
      (cur.grouping = 0)) ∧
    (∃ (cur : Currency) (v : Int),
      v.natAbs < 10 ^ 24 ∧
      (groupingSeparator cur.grouping = some ',')) :=
  ⟨⟨{ coin with grouping := 0 }, (-123), by decide +kernel⟩,
    ⟨coin, (10 ^ 24 - 1), by decide +kernel⟩⟩

theorem test_met_DayControlEntryUsesTheLastEntry :
    (∃ (s : State),
      (s.journal.present = false)) ∧
    (∃ (s : State),
      (s.journal.present = true ∧ s.journal.free = 0)) ∧
    (∃ (s : State),
      (s.journal.present = true ∧ s.journal.free = 1)) :=
  ⟨⟨configured, by decide +kernel⟩,
    ⟨{ openDay with journal := { openDay.journal with free := 0 } }, by decide +kernel⟩,
    ⟨{ openDay with journal := { openDay.journal with free := 1 } }, by decide +kernel⟩⟩

theorem test_met_ReservationPaysForItsEntry :
    (∃ (s : State) (k : Fin 4),
      (k ∉ s.journal.reservations)) ∧
    (∃ (s : State) (k : Fin 4),
      (k ∈ s.journal.reservations ∧ s.day.state = .opened)) ∧
    (∃ (s : State) (k : Fin 4),
      (k ∈ s.journal.reservations ∧ s.day.state = .settled)) :=
  ⟨⟨openDay, 0, by decide +kernel⟩,
    ⟨{ openDay with journal := { openDay.journal with reservations := [0], free := 0 } }, 0, by decide +kernel⟩,
    ⟨{ inDay openDay .settled with journal := { openDay.journal with reservations := [0] } }, 0, by decide +kernel⟩⟩

theorem test_met_LowFreeCountRaisesTheAlert :
    (∃ (s : State),
      1 ≤ s.journal.free ∧
      (10 * (s.journal.free - 1) ≤ s.configuration.size)) ∧
    (∃ (s : State),
      1 ≤ s.journal.free ∧
      (¬10 * (s.journal.free - 1) ≤ s.configuration.size)) :=
  ⟨⟨{ openDay with journal := { openDay.journal with free := 103 } }, by decide +kernel⟩,
    ⟨{ openDay with journal := { openDay.journal with free := 104 } }, by decide +kernel⟩⟩

theorem test_met_HolderCommandsAreRefused :
    (∃ (s : State) (addr : Nat) (mask : ByteMask) (data : Dword) (c : Instr) (code : Nat),
      (c = .releaseDrawer ∧ code = 7) ∨ (c = .releaseHold ∧ code = 8) ∧
      CommandGiven s addr mask data code ∧
      (s.day.state = .recovering)) ∧
    (∃ (s : State) (addr : Nat) (mask : ByteMask) (data : Dword) (c : Instr) (code : Nat),
      (c = .releaseDrawer ∧ code = 7) ∨ (c = .releaseHold ∧ code = 8) ∧
      CommandGiven s addr mask data code ∧
      (s.control.config = none)) ∧
    (∃ (s : State) (addr : Nat) (mask : ByteMask) (data : Dword) (c : Instr) (code : Nat),
      (c = .releaseDrawer ∧ code = 7) ∨ (c = .releaseHold ∧ code = 8) ∧
      CommandGiven s addr mask data code ∧
      (s.control.config ≠ none ∧ s.day.state ≠ .recovering ∧ laneField s.control.arguments[0] 0 1 = 17)) ∧
    (∃ (s : State) (addr : Nat) (mask : ByteMask) (data : Dword) (c : Instr) (code : Nat),
      (c = .releaseDrawer ∧ code = 7) ∨ (c = .releaseHold ∧ code = 8) ∧
      CommandGiven s addr mask data code ∧
      (s.control.config ≠ none ∧ s.day.state ≠ .recovering ∧ laneField s.control.arguments[0] 0 1 = 3 ∧ s.configuration.holderActive 3 = false)) :=
  ⟨⟨(commanded (inDay openDay .recovering) 7 33 0), 0x3FFE1800, 0xFF, (dwordOfFields [(1, 7), (1, 0), (2, 33)]), .releaseDrawer, 7, by decide +kernel⟩,
    ⟨(commanded State.reset 8 33 0), 0x3FFE1800, 0xFF, (dwordOfFields [(1, 8), (1, 0), (2, 33)]), .releaseHold, 8, by decide +kernel⟩,
    ⟨(commanded openDay 7 33 17), 0x3FFE1800, 0xFF, (dwordOfFields [(1, 7), (1, 0), (2, 33)]), .releaseDrawer, 7, by decide +kernel⟩,
    ⟨(commanded openDay 8 33 3), 0x3FFE1800, 0xFF, (dwordOfFields [(1, 8), (1, 0), (2, 33)]), .releaseHold, 8, by decide +kernel⟩⟩

theorem test_met_RoleCheckJudgesPortsAndFlags :
    ∃ (c : Configuration),
      (rolesFit c = true) :=
  ⟨branch, by decide +kernel⟩

theorem test_met_WindowCheckJudgesThePlaces :
    ∃ (control : Nat) (c : Configuration),
      (windowsFit control c = true) :=
  ⟨0x3FFE0000, branch, by decide +kernel⟩

theorem test_met_CurrencyCheckJudgesTheConfigured :
    ∃ (c : Configuration),
      (currenciesFit c = true) :=
  ⟨branch, by decide +kernel⟩

theorem test_met_BindingCheckJudgesThePositions :
    ∃ (c : Configuration),
      (bindingsFit c = true) :=
  ⟨branch, by decide +kernel⟩

theorem test_met_MonitorCheckJudgesTheEnabled :
    ∃ (c : Configuration),
      (monitorsFit c = true) :=
  ⟨branch, by decide +kernel⟩

theorem test_met_InstallationRebuildsTheTerminals :
    ∃ (s : State) (c : Configuration),
      s.inReset = false ∧
      s.path.placement = some c ∧
      readIsHeld s.path = false ∧
      (c.dropPort 0 = some 0 ∧ c.dropPort 1 = none) :=
  ⟨(onPath State.reset fun p => { p with placement := some branch }), branch, by decide +kernel⟩

theorem test_met_InstallationRestartsThePrinters :
    ∃ (s : State) (c : Configuration),
      s.inReset = false ∧
      s.path.placement = some c ∧
      readIsHeld s.path = false ∧
      (c.printerPort 0 = some 1 ∧ c.printerPort 1 = none) :=
  ⟨(onPath State.reset fun p => { p with placement := some branch }), branch, by decide +kernel⟩

theorem test_met_InstallationWritesTheRingsAndCompletes :
    (∃ (s : State) (c : Configuration),
      s.inReset = false ∧
      s.path.placement = some c ∧
      readIsHeld s.path = false ∧
      (s.day.state = .setup ∨ s.day.state = .settled) ∧
      (s.path.windows[3].known = false)) ∧
    (∃ (s : State) (c : Configuration),
      s.inReset = false ∧
      s.path.placement = some c ∧
      readIsHeld s.path = false ∧
      (s.day.state = .setup ∨ s.day.state = .settled) ∧
      (s.path.windows[3].known = true ∧ s.configuration.bases[2] = c.bases[2])) :=
  ⟨⟨(onPath State.reset fun p => { p with placement := some branch }), branch, by decide +kernel⟩,
    ⟨(onPath configured fun p => { p with placement := some { branch with positions := branch.positions.set 1 ⟨0, 1, 0xFF, 0, 0xFF⟩ } }), { branch with positions := branch.positions.set 1 ⟨0, 1, 0xFF, 0, 0xFF⟩ }, by decide +kernel⟩⟩

/-- The branch with SCREENS moved to 30000h and a third position enabled. -/
def movedBranch : Configuration :=
  { branch with bases := branch.bases.set 1 0x30000, positions := branch.positions.set 2 (counter 3 3) }

theorem test_met_InstallationRenewsTheMirrorAndTheRows :
    let meets (s : State) (c : Configuration) : Prop :=
      s.inReset = false ∧ s.path.placement = some c ∧ readIsHeld s.path = false
    (∃ s c, meets s c ∧ s.path.windows[2].known = false ∧ c.positions[0].enabled = 1) ∧
    (∃ s c, meets s c ∧ s.configuration.bases[1] ≠ c.bases[1] ∧ c.positions[0].enabled = 1 ∧
      s.screen.positions[0].composition ≠ none) ∧
    (∃ s c, meets s c ∧ s.path.windows[2].known = true ∧ s.configuration.bases[1] = c.bases[1] ∧
      c.positions[0].enabled = 1 ∧ s.screen.positions[0].composition = none) ∧
    (∃ s c, meets s c ∧ c.positions[3].enabled ≠ 1) :=
  ⟨⟨onPath State.reset fun p => { p with placement := some branch }, branch, by decide +kernel⟩,
    ⟨onPath (recomposeRows configured) fun p => { p with placement := some movedBranch }, movedBranch,
      by decide +kernel⟩,
    ⟨onPath configured fun p => { p with placement := some branch }, branch, by decide +kernel⟩,
    ⟨onPath configured fun p => { p with placement := some branch }, branch, by decide +kernel⟩⟩

theorem test_met_ResumeLoadsTheChosenRecord :
    ∃ (s : State) (copy : Fin 2),
      s.inReset = false ∧
      recordsFetched s = true ∧
      s.day.work = some .resumeChoosing ∧
      chosenCopy s = some copy :=
  ⟨(fetchedRecords (inDay configured .recovering) .resumeChoosing 5 4), 0, by decide +kernel⟩

theorem test_met_ResumeFailsWithoutARecord :
    ∃ (s : State),
      s.inReset = false ∧
      recordsFetched s = true ∧
      s.day.work = some .resumeChoosing ∧
      chosenCopy s = none :=
  ⟨(fetchedRecords (inDay configured .recovering) .resumeChoosing 0 0), by decide +kernel⟩

theorem test_met_ReplayTakesVerifiedEntries :
    ∃ (s : State) (r : Run),
      s.inReset = false ∧
      s.journal.runs = [r] ∧
      r.requester = .replay ∧
      r.started = true ∧
      r.last = none ∧
      s.journal.serving = some .replay ∧
      8 ≤ s.journal.buffer.length :=
  ⟨{ replaying with journal := { replaying.journal with buffer := dwordsOfBytes 8 (journaled 2 { kind := 6 }) } }, ⟨.replay, 2, none, some openDay.journal.chain, true⟩, by decide +kernel⟩

theorem test_met_ReplayBeginsWithDayOpen :
    (∃ (s : State) (e : List Byte) (copy : Fin 2),
      s.day.replay.last = 0 ∧
      s.day.replay.posting = none ∧
      s.day.openingCopy = some copy ∧
      ((entryFields e).kind = 1 ∧ (entryFields e).account = s.journal.start ∧ (entryFields e).ref = s.configuration.size ∧ (entryFields e).amountA = 6 ∧ (entryFields e).code = 0 ∧ (entryFields e).amountB = 5)) ∧
    (∃ (s : State) (e : List Byte) (copy : Fin 2),
      s.day.replay.last = 0 ∧
      s.day.replay.posting = none ∧
      s.day.openingCopy = some copy ∧
      ((entryFields e).kind ≠ 1)) :=
  ⟨⟨{ replaying with day := { replaying.day with replay := resetReplay, records := #v[⟨carried 5, true⟩, ⟨[], false⟩] } }, (journaled 1 { kind := 1, amountA := 6, amountB := 5, ref := 1024 }), 0, by decide +kernel⟩,
    ⟨{ replaying with day := { replaying.day with replay := resetReplay, records := #v[⟨carried 5, true⟩, ⟨[], false⟩] } }, (journaled 1 { kind := 2 }), 0, by decide +kernel⟩⟩

theorem test_met_ReplayBooksPostings :
    (∃ (s : State) (e : List Byte),
      s.day.replay.last ≠ 0 ∧
      (s.day.replay.posting = none ∧ (entryFields e).kind = 2 ∧ (entryFields e).code = 1)) ∧
    (∃ (s : State) (e : List Byte),
      s.day.replay.last ≠ 0 ∧
      (s.day.replay.posting = none ∧ (entryFields e).kind = 2 ∧ (entryFields e).code = 5)) ∧
    (∃ (s : State) (e : List Byte),
      s.day.replay.last ≠ 0 ∧
      (s.day.replay.posting = some (journaled 2 { kind := 2, code := 1, holderA := 1, amountA := 15, flags := 0 }) ∧ (entryFields e).kind = 3 ∧ (entryFields e).code = 1)) ∧
    (∃ (s : State) (e : List Byte),
      s.day.replay.last ≠ 0 ∧
      (s.day.replay.posting = some (journaled 2 { kind := 2, code := 1, holderA := 1, amountA := 15, flags := 0 }) ∧ (entryFields e).kind = 4)) ∧
    (∃ (s : State) (e : List Byte),
      s.day.replay.last ≠ 0 ∧
      (s.day.replay.posting = some (journaled 3 { kind := 2, code := 7, holderA := 1, amountA := 15, ref := 2 }) ∧ (entryFields e).kind = 3 ∧ (entryFields e).code = 7 ∧ replayedKind s.day.replay 2 = 6)) ∧
    (∃ (s : State) (e : List Byte),
      s.day.replay.last ≠ 0 ∧
      (s.day.replay.posting = none ∧ (entryFields e).kind = 2 ∧ (entryFields e).code = 7 ∧ replayedKind s.day.replay (entryFields e).ref = 0)) ∧
    (∃ (s : State) (e : List Byte),
      s.day.replay.last ≠ 0 ∧
      (s.day.replay.posting = none ∧ (entryFields e).kind = 2 ∧ (entryFields e).code = 7 ∧ replayedKind s.day.replay (entryFields e).ref = 7)) ∧
    (∃ (s : State) (e : List Byte),
      s.day.replay.last ≠ 0 ∧
      (s.day.replay.posting = none ∧ (entryFields e).kind = 2 ∧ (entryFields e).code = 9)) :=
  ⟨⟨replaying, (journaled 2 { kind := 2, code := 1, holderA := 1, amountA := 15, flags := 0 }), by decide +kernel⟩,
    ⟨replaying, (journaled 2 { kind := 2, code := 5, holderA := 1, amountA := 15, flags := 1 }), by decide +kernel⟩,
    ⟨(onReplay fun r => { r with posting := some (journaled 2 { kind := 2, code := 1, holderA := 1, amountA := 15, flags := 0 }) }), (journaled 3 { kind := 3, code := 1 }), by decide +kernel⟩,
    ⟨(onReplay fun r => { r with posting := some (journaled 2 { kind := 2, code := 1, holderA := 1, amountA := 15, flags := 0 }) }), (journaled 3 { kind := 4 }), by decide +kernel⟩,
    ⟨(onReplay fun r => { r with kinds := [(2, 6)], posting := some (journaled 3 { kind := 2, code := 7, holderA := 1, amountA := 15, ref := 2 }) }), (journaled 4 { kind := 3, code := 7 }), by decide +kernel⟩,
    ⟨replaying, (journaled 2 { kind := 2, code := 7, amountA := 15, ref := 9 }), by decide +kernel⟩,
    ⟨(onReplay fun r => { r with kinds := [(9, 7)] }), (journaled 2 { kind := 2, code := 7, amountA := 15, ref := 9 }), by decide +kernel⟩,
    ⟨replaying, (journaled 2 { kind := 2, code := 9, holderA := 1, amountA := 15, flags := 0 }), by decide +kernel⟩⟩

theorem test_met_ReplayKnowsTheKinds :
    ∃ (r : Replay) (a : List (Nat × Nat)) (b : List (Nat × Nat)) (n : Nat) (k : Nat),
      r.kinds = a ++ (n, k) :: b ∧
      (∀ x ∈ a, x.1 ≠ n) :=
  ⟨{ resetReplay with kinds := [(2, 1), (4, 3)] }, [(2, 1)], [], 4, 3, by decide +kernel⟩

theorem test_met_ReplayedPostingsTrackItems :
    (∃ (form : Nat) (f : EntryFields) (k : Fin 4),
      f.currencyA = k.val ∧
      (flagSet f.flags 0 = true ∧ form = 2)) ∧
    (∃ (f : EntryFields) (k : Fin 4),
      f.currencyA = k.val ∧
      (flagSet f.flags 0 = false)) ∧
    (∃ (items : List ReplayItem) (f : EntryFields) (k : Fin 4),
      f.currencyA = k.val ∧
      (∃ i ∈ items, i.item.key = f.ref ∧ i.condition = .pending)) ∧
    (∃ (items : List ReplayItem) (f : EntryFields) (k : Fin 4),
      f.currencyA = k.val ∧
      (¬∃ i ∈ items, i.item.key = f.ref ∧ i.condition = .pending)) ∧
    (∃ (items : List ReplayItem) (form : Nat) (f : EntryFields) (k : Fin 4),
      f.currencyA = k.val ∧
      (¬(∃ i ∈ items, i.item.key = f.ref ∧ i.condition = .pending) ∧ form = 5 ∧ flagSet f.flags 3 = true)) ∧
    (∃ (items : List ReplayItem) (form : Nat) (f : EntryFields) (k : Fin 4),
      f.currencyA = k.val ∧
      (¬(∃ i ∈ items, i.item.key = f.ref ∧ i.condition = .pending) ∧ form = 3)) :=
  ⟨⟨2, { kind := 2, code := 2, flags := 1, amountA := 15, account := 77 }, 0, by decide +kernel⟩,
    ⟨{ kind := 2, code := 2, amountA := 15, account := 77 }, 0, by decide +kernel⟩,
    ⟨[⟨item 3, .pending, none⟩], { kind := 2, code := 7, amountA := 15, account := 77, ref := 3 }, 0, by decide +kernel⟩,
    ⟨[⟨item 3, .printed, none⟩], { kind := 2, code := 7, flags := 1, amountA := 15, account := 77, ref := 3 }, 0, by decide +kernel⟩,
    ⟨[], 5, { kind := 2, code := 7, flags := 9, amountA := 15, account := 77, ref := 3 }, 0, by decide +kernel⟩,
    ⟨[], 3, { kind := 2, code := 7, amountA := 15, account := 77, ref := 3 }, 0, by decide +kernel⟩⟩

theorem test_met_ReplayFollowsTheOtherEntries :
    (∃ (s : State) (e : List Byte),
      s.day.replay.last ≠ 0 ∧
      s.day.replay.posting = none ∧
      ((entryFields e).kind = 4)) ∧
    (∃ (s : State) (e : List Byte),
      s.day.replay.last ≠ 0 ∧
      s.day.replay.posting = none ∧
      ((entryFields e).kind = 5)) ∧
    (∃ (s : State) (e : List Byte),
      s.day.replay.last ≠ 0 ∧
      s.day.replay.posting = none ∧
      ((entryFields e).kind = 7)) ∧
    (∃ (s : State) (e : List Byte),
      s.day.replay.last ≠ 0 ∧
      s.day.replay.posting = none ∧
      ((entryFields e).kind = 6)) ∧
    (∃ (s : State) (e : List Byte),
      s.day.replay.last ≠ 0 ∧
      s.day.replay.posting = none ∧
      ((entryFields e).kind = 8)) ∧
    (∃ (s : State) (e : List Byte),
      s.day.replay.last ≠ 0 ∧
      s.day.replay.posting = none ∧
      ((entryFields e).kind = 13)) ∧
    (∃ (s : State) (e : List Byte),
      s.day.replay.last ≠ 0 ∧
      s.day.replay.posting = none ∧
      ((entryFields e).kind = 14)) ∧
    (∃ (s : State) (e : List Byte),
      s.day.replay.last ≠ 0 ∧
      s.day.replay.posting = none ∧
      ((entryFields e).kind = 11 ∧ (entryFields e).ref = 16)) ∧
    (∃ (s : State) (e : List Byte),
      s.day.replay.last ≠ 0 ∧
      s.day.replay.posting = none ∧
      ((entryFields e).kind = 12 ∧ (entryFields e).ref = 16)) ∧
    (∃ (s : State) (e : List Byte),
      s.day.replay.last ≠ 0 ∧
      s.day.replay.posting = none ∧
      ((entryFields e).kind = 10 ∧ (entryFields e).ref = 7)) ∧
    (∃ (s : State) (e : List Byte),
      s.day.replay.last ≠ 0 ∧
      s.day.replay.posting = none ∧
      ((entryFields e).kind = 9 ∧ (entryFields e).code = 2 ∧ s.monitors.fired[(7 : Fin 8)] = false)) ∧
    (∃ (s : State) (e : List Byte),
      s.day.replay.last ≠ 0 ∧
      s.day.replay.posting = none ∧
      ((entryFields e).kind = 9 ∧ (entryFields e).code = 3 ∧ s.monitors.fired[(7 : Fin 8)] = false)) ∧
    (∃ (s : State) (e : List Byte),
      s.day.replay.last ≠ 0 ∧
      s.day.replay.posting = none ∧
      ((entryFields e).kind = 9 ∧ s.monitors.fired[(7 : Fin 8)] = true)) ∧
    (∃ (s : State) (e : List Byte),
      s.day.replay.last ≠ 0 ∧
      s.day.replay.posting = none ∧
      ((entryFields e).kind = 3)) ∧
    (∃ (s : State) (e : List Byte),
      s.day.replay.last ≠ 0 ∧
      s.day.replay.posting = none ∧
      ((entryFields e).kind = 20)) ∧
    (∃ (s : State) (e : List Byte),
      s.day.replay.last ≠ 0 ∧
      s.day.replay.posting = none ∧
      ((entryFields e).kind = 0)) :=
  ⟨⟨replaying, (journaled 2 { kind := 4, ref := 3 }), by decide +kernel⟩,
    ⟨replaying, (journaled 2 { kind := 5, ref := 3 }), by decide +kernel⟩,
    ⟨replaying, (journaled 2 { kind := 7, ref := 3 }), by decide +kernel⟩,
    ⟨replaying, (journaled 2 { kind := 6, ref := 3 }), by decide +kernel⟩,
    ⟨replaying, (journaled 2 { kind := 8, ref := 3 }), by decide +kernel⟩,
    ⟨replaying, (journaled 2 { kind := 13, ref := 3 }), by decide +kernel⟩,
    ⟨replaying, (journaled 2 { kind := 14, ref := 3 }), by decide +kernel⟩,
    ⟨replaying, (journaled 2 { kind := 11, ref := 16 }), by decide +kernel⟩,
    ⟨replaying, (journaled 2 { kind := 12, ref := 16 }), by decide +kernel⟩,
    ⟨replaying, (journaled 2 { kind := 10, ref := 7 }), by decide +kernel⟩,
    ⟨replaying, (journaled 2 { kind := 9, code := 2, holderA := 1, ref := 7 }), by decide +kernel⟩,
    ⟨replaying, (journaled 2 { kind := 9, code := 3, holderA := 1, ref := 7 }), by decide +kernel⟩,
    ⟨{ replaying with monitors := { resetMonitors with fired := resetMonitors.fired.set 7 true } }, (journaled 2 { kind := 9, code := 3, ref := 7 }), by decide +kernel⟩,
    ⟨replaying, (journaled 2 { kind := 3 }), by decide +kernel⟩,
    ⟨replaying, (journaled 2 { kind := 20 }), by decide +kernel⟩,
    ⟨replaying, (journaled 2 { kind := 0 }), by decide +kernel⟩⟩

theorem test_met_ReplayFollowsTheDayStates :
    (∃ (s : State) (e : List Byte),
      s.day.replay.last ≠ 0 ∧
      s.day.replay.posting = none ∧
      ((entryFields e).kind = 15 ∧ s.day.replay.state = .opened)) ∧
    (∃ (s : State) (e : List Byte),
      s.day.replay.last ≠ 0 ∧
      s.day.replay.posting = none ∧
      ((entryFields e).kind = 15 ∧ s.day.replay.state = .closing)) ∧
    (∃ (s : State) (e : List Byte),
      s.day.replay.last ≠ 0 ∧
      s.day.replay.posting = none ∧
      ((entryFields e).kind = 16 ∧ s.day.replay.state = .closing)) ∧
    (∃ (s : State) (e : List Byte),
      s.day.replay.last ≠ 0 ∧
      s.day.replay.posting = none ∧
      ((entryFields e).kind = 16 ∧ s.day.replay.state = .sending)) ∧
    (∃ (s : State) (e : List Byte),
      s.day.replay.last ≠ 0 ∧
      s.day.replay.posting = none ∧
      ((entryFields e).kind = 17 ∧ s.day.replay.state = .sending)) ∧
    (∃ (s : State) (e : List Byte),
      s.day.replay.last ≠ 0 ∧
      s.day.replay.posting = none ∧
      ((entryFields e).kind = 17 ∧ s.day.replay.state = .opened)) ∧
    (∃ (s : State) (e : List Byte),
      s.day.replay.last ≠ 0 ∧
      s.day.replay.posting = none ∧
      ((entryFields e).kind = 18 ∧ s.day.replay.state = .rejected)) ∧
    (∃ (s : State) (e : List Byte),
      s.day.replay.last ≠ 0 ∧
      s.day.replay.posting = none ∧
      ((entryFields e).kind = 18 ∧ s.day.replay.state = .opened)) ∧
    (∃ (s : State) (e : List Byte),
      s.day.replay.last ≠ 0 ∧
      s.day.replay.posting = none ∧
      ((entryFields e).kind = 19 ∧ s.day.replay.state = .suspended)) ∧
    (∃ (s : State) (e : List Byte),
      s.day.replay.last ≠ 0 ∧
      s.day.replay.posting = none ∧
      ((entryFields e).kind = 19 ∧ s.day.replay.state = .opened)) ∧
    (∃ (s : State) (e : List Byte),
      s.day.replay.last ≠ 0 ∧
      s.day.replay.posting = none ∧
      ((entryFields e).kind = 16 ∧ s.day.replay.state = .suspended ∧ s.batch.plan ≠ none)) :=
  ⟨⟨(onReplay fun r => { r with state := .opened }), (journaled 2 { kind := 15, ref := 9 }), by decide +kernel⟩,
    ⟨(onReplay fun r => { r with state := .closing }), (journaled 2 { kind := 15, ref := 9 }), by decide +kernel⟩,
    ⟨(onReplay fun r => { r with state := .closing }), (journaled 2 { kind := 16, ref := 9 }), by decide +kernel⟩,
    ⟨(onReplay fun r => { r with state := .sending }), (journaled 2 { kind := 16, ref := 9 }), by decide +kernel⟩,
    ⟨(onReplay fun r => { r with state := .sending }), (journaled 2 { kind := 17, ref := 9 }), by decide +kernel⟩,
    ⟨(onReplay fun r => { r with state := .opened }), (journaled 2 { kind := 17, ref := 9 }), by decide +kernel⟩,
    ⟨(onReplay fun r => { r with state := .rejected }), (journaled 2 { kind := 18, ref := 9 }), by decide +kernel⟩,
    ⟨(onReplay fun r => { r with state := .opened }), (journaled 2 { kind := 18, ref := 9 }), by decide +kernel⟩,
    ⟨(onReplay fun r => { r with state := .suspended }), (journaled 2 { kind := 19, ref := 9 }), by decide +kernel⟩,
    ⟨(onReplay fun r => { r with state := .opened }), (journaled 2 { kind := 19, ref := 9 }), by decide +kernel⟩,
    ⟨(onBatch (onReplay fun r => { r with state := .suspended }) fun b => { b with plan := some plan }), (journaled 2 { kind := 16, ref := 9 }), by decide +kernel⟩⟩

theorem test_met_ReplayEndsWithTheDay :
    (∃ (s : State) (u : State) (r : Run),
      s.inReset = false ∧
      s.journal.runs = [r] ∧
      r.requester = .replay ∧
      r.started = true ∧
      r.last = none ∧
      s.journal.serving = some .replay ∧
      8 ≤ s.journal.buffer.length ∧
      (u = s ∧ s.day.replay.last = 1 ∧ s.day.replay.state = .opened ∧ entryNumber (bytesOfDwords (s.journal.buffer.take 8)) ≠ r.next)) ∧
    (∃ (s : State) (u : State) (r : Run),
      s.inReset = false ∧
      s.journal.runs = [r] ∧
      r.requester = .replay ∧
      r.started = true ∧
      r.last = none ∧
      s.journal.serving = some .replay ∧
      8 ≤ s.journal.buffer.length ∧
      (u = s ∧ s.day.replay.last = 1 ∧ s.day.replay.state = .sending ∧ replayEntry s r.next (bytesOfDwords (s.journal.buffer.take 8)) = none)) ∧
    (∃ (s : State) (u : State) (r : Run),
      s.inReset = false ∧
      s.journal.runs = [r] ∧
      r.requester = .replay ∧
      r.started = true ∧
      r.last = none ∧
      s.journal.serving = some .replay ∧
      8 ≤ s.journal.buffer.length ∧
      (u = s ∧ s.day.replay.last = 0 ∧ entryNumber (bytesOfDwords (s.journal.buffer.take 8)) ≠ r.next)) ∧
    (∃ (s : State) (u : State) (r : Run),
      s.inReset = false ∧
      s.journal.runs = [r] ∧
      r.requester = .replay ∧
      r.started = true ∧
      r.last = none ∧
      s.journal.serving = some .replay ∧
      8 ≤ s.journal.buffer.length ∧
      (u = s ∧ s.day.replay.last = 1 ∧ s.day.replay.state = .closing ∧ allBalanced s.configuration s.totals = true ∧ entryNumber (bytesOfDwords (s.journal.buffer.take 8)) ≠ r.next)) ∧
    (∃ (s : State) (u : State) (r : Run),
      s.inReset = false ∧
      s.journal.runs = [r] ∧
      r.requester = .replay ∧
      r.started = true ∧
      r.last = none ∧
      s.journal.serving = some .replay ∧
      8 ≤ s.journal.buffer.length ∧
      (entryNumber (bytesOfDwords (s.journal.buffer.take 8)) = r.next ∧ entryChain (bytesOfDwords (s.journal.buffer.take 8)) = chainOf (r.chain.getD 0xFFFFFFFF) (bytesOfDwords (s.journal.buffer.take 8)) ∧ r.next = s.configuration.size ∧ replayEntry s r.next (bytesOfDwords (s.journal.buffer.take 8)) = some u ∧ u.day.replay.last = 2)) :=
  ⟨⟨({ replaying with journal := { replaying.journal with buffer := List.replicate 8 0 } }), ({ replaying with journal := { replaying.journal with buffer := List.replicate 8 0 } }), ⟨.replay, 2, none, some openDay.journal.chain, true⟩, by decide +kernel⟩,
    ⟨((onBatch { onReplay (fun r => { r with state := .sending }) with journal := { replaying.journal with buffer := dwordsOfBytes 8 (journaled 2 { kind := 15 }) } } fun b => { b with plan := some plan })), ((onBatch { onReplay (fun r => { r with state := .sending }) with journal := { replaying.journal with buffer := dwordsOfBytes 8 (journaled 2 { kind := 15 }) } } fun b => { b with plan := some plan })), ⟨.replay, 2, none, some openDay.journal.chain, true⟩, by decide +kernel⟩,
    ⟨({ onReplay (fun _ => resetReplay) with journal := { replaying.journal with buffer := List.replicate 8 0 } }), ({ onReplay (fun _ => resetReplay) with journal := { replaying.journal with buffer := List.replicate 8 0 } }), ⟨.replay, 2, none, some openDay.journal.chain, true⟩, by decide +kernel⟩,
    ⟨({ onReplay (fun r => { r with state := .closing }) with totals := { openDay.totals with flags := Vector.replicate 17 ⟨false, true, false⟩ }, journal := { replaying.journal with buffer := List.replicate 8 0 } }), ({ onReplay (fun r => { r with state := .closing }) with totals := { openDay.totals with flags := Vector.replicate 17 ⟨false, true, false⟩ }, journal := { replaying.journal with buffer := List.replicate 8 0 } }), ⟨.replay, 2, none, some openDay.journal.chain, true⟩, by decide +kernel⟩,
    ⟨({ replaying with control := { configured.control with config := some { branch with size := 2 } }, journal := { replaying.journal with buffer := dwordsOfBytes 8 (journaled 2 { kind := 6 }) } }), ((replayEntry { replaying with control := { configured.control with config := some { branch with size := 2 } }, journal := { replaying.journal with buffer := dwordsOfBytes 8 (journaled 2 { kind := 6 }) } } 2 (journaled 2 { kind := 6 })).getD openDay), ⟨.replay, 2, none, some openDay.journal.chain, true⟩, by decide +kernel⟩⟩

theorem test_met_ResumedDayIsTestedForSending :
    let meets (s : State) (r : Run) : Prop := s.inReset = false ∧ s.journal.runs = [r] ∧
      r.requester = .replay ∧ r.last = none ∧ s.journal.serving = some .replay ∧ 8 ≤ s.journal.buffer.length ∧
      s.day.replay.last ≠ 0
    let first (s : State) := bytesOfDwords (s.journal.buffer.take 8)
    let broken (s : State) : State :=
      { s with journal := { replaying.journal with buffer := List.replicate 8 0 } }
    let ended := balanced (broken (onReplay fun r => { r with state := .closing }))
    let whole : State := { replaying with
      control := { configured.control with config := some { branch with size := 2 } },
      journal := { replaying.journal with buffer := dwordsOfBytes 8 (journaled 2 { kind := 6 }) } }
    let run : Run := ⟨.replay, 2, none, some openDay.journal.chain, true⟩
    (meets (broken replaying) run ∧ entryNumber (first (broken replaying)) ≠ 2) ∧
    (meets ended run ∧ entryNumber (first ended) ≠ 2 ∧ (after .journalRunEntry ended).day.state = .sending ∧
      (after .journalRunEntry ended).batch.state = .awaitAck) ∧
    (meets whole run ∧ entryNumber (first whole) = 2 ∧
      entryChain (first whole) = chainOf openDay.journal.chain (first whole) ∧
      whole.configuration.size = 2 ∧ (replayEntry whole 2 (first whole)).isSome = true) := by
  decide +kernel

theorem test_met_ComposedRecordHoldsItsFields :
    ∃ (settled : Nat) (start : Nat) (t : Totals),
      settled < 2 ^ 32 ∧
      start < 2 ^ 32 ∧
      (∀ (h : Fin 17) (k : Fin 4), (recordOf t h k).counts.length = 12 ∧ ∀ n ∈ (recordOf t h k).counts, n < 65536) :=
  ⟨20240505, 7, resetTotals, by decide +kernel⟩

theorem test_met_RecordIsHandedOverInSixteenGroups :
    ∃ (record : List Byte),
      record.length = 4096 :=
  ⟨(composeRecord 20240505 7 (allCounts resetTotals)), by decide +kernel⟩

theorem test_met_StartLearnMeetsTheCycle :
    (∃ (s : State) (addr : Nat) (mask : ByteMask) (data : Dword),
      CommandGiven s addr mask data 12 ∧
      (s.day.state = .recovering)) ∧
    (∃ (s : State) (addr : Nat) (mask : ByteMask) (data : Dword),
      CommandGiven s addr mask data 12 ∧
      (s.control.config ≠ none ∧ laneField s.control.arguments[0] 0 1 = 0 ∧ s.screen.controllers[(0 : Fin 2)].mode = .learning)) ∧
    (∃ (s : State) (addr : Nat) (mask : ByteMask) (data : Dword),
      CommandGiven s addr mask data 12 ∧
      (s.control.config ≠ none ∧ s.day.state ≠ .recovering ∧ laneField s.control.arguments[0] 0 1 = 2)) ∧
    (∃ (s : State) (addr : Nat) (mask : ByteMask) (data : Dword),
      CommandGiven s addr mask data 12 ∧
      (s.control.config ≠ none ∧ s.day.state ≠ .recovering ∧ laneField s.control.arguments[0] 0 1 = 1 ∧ s.configuration.dropPort 1 = none)) ∧
    (∃ (s : State) (addr : Nat) (mask : ByteMask) (data : Dword),
      CommandGiven s addr mask data 12 ∧
      (s.control.config ≠ none ∧ s.day.state ≠ .recovering ∧ s.configuration.dropPort 0 = some 0 ∧ s.screen.controllers[(0 : Fin 2)].exchange = some ⟨0, .poll, .awaiting⟩)) ∧
    (∃ (s : State) (addr : Nat) (mask : ByteMask) (data : Dword),
      CommandGiven s addr mask data 12 ∧
      (s.control.config ≠ none ∧ s.day.state ≠ .recovering ∧ s.configuration.dropPort 0 = some 0 ∧ s.screen.controllers[(0 : Fin 2)].exchange = none ∧ s.configuration.linePositions 0 = [])) :=
  ⟨⟨(commanded (inDay openDay .recovering) 12 33 0), 0x3FFE1800, 0xFF, (dwordOfFields [(1, 12), (1, 0), (2, 33)]), by decide +kernel⟩,
    ⟨(commanded (onLine0 openDay fun c => { c with mode := .learning }) 12 33 0), 0x3FFE1800, 0xFF, (dwordOfFields [(1, 12), (1, 0), (2, 33)]), by decide +kernel⟩,
    ⟨(commanded openDay 12 33 2), 0x3FFE1800, 0xFF, (dwordOfFields [(1, 12), (1, 0), (2, 33)]), by decide +kernel⟩,
    ⟨(commanded openDay 12 33 1), 0x3FFE1800, 0xFF, (dwordOfFields [(1, 12), (1, 0), (2, 33)]), by decide +kernel⟩,
    ⟨(commanded (onLine0 openDay fun c => { c with mode := .cycling, exchange := some ⟨0, .poll, .awaiting⟩ }) 12 33 0), 0x3FFE1800, 0xFF, (dwordOfFields [(1, 12), (1, 0), (2, 33)]), by decide +kernel⟩,
    ⟨(commanded (onLine0 { openDay with control := { openDay.control with config := some { branch with positions := Vector.replicate 16 ⟨0, 1, 0xFF, 0, 0xFF⟩ } } } fun c => { c with mode := .cycling }) 12 33 0), 0x3FFE1800, 0xFF, (dwordOfFields [(1, 12), (1, 0), (2, 33)]), by decide +kernel⟩⟩

theorem test_met_AssignOutcomesMoveTheLearn :
    (∃ (s : State) (d : Fin 2) (k : Fin 6) (p : Fin 16),
      s.inReset = false ∧
      s.configuration.dropPort d = some k ∧
      s.screen.controllers[d].mode = .learning ∧
      s.screen.controllers[d].exchange = some ⟨p, .assign, .awaiting⟩ ∧
      s.screen.positions[p].address ≤ 14 ∧
      ((s.configuration.linePositions d).filter (fun x => !(s.screen.controllers[d].acknowledged ++ [p]).contains x) = [1])) ∧
    (∃ (s : State) (d : Fin 2) (k : Fin 6) (p : Fin 16),
      s.inReset = false ∧
      s.configuration.dropPort d = some k ∧
      s.screen.controllers[d].mode = .learning ∧
      s.screen.controllers[d].exchange = some ⟨p, .assign, .awaiting⟩ ∧
      s.screen.positions[p].address ≤ 14 ∧
      ((s.configuration.linePositions d).filter (fun x => !(s.screen.controllers[d].acknowledged ++ [p]).contains x) = [])) :=
  ⟨⟨(onLine0 (onTerminal openDay fun q => { q with state := .absent }) fun c => { c with mode := .learning, current := some 0, exchange := some ⟨0, .assign, .awaiting⟩ }), 0, 0, 0, by decide +kernel⟩,
    ⟨(onLine0 (onTerminal openDay fun q => { q with state := .absent }) fun c => { c with mode := .learning, current := some 0, exchange := some ⟨0, .assign, .awaiting⟩, acknowledged := [1] }), 0, 0, 0, by decide +kernel⟩⟩

theorem test_met_ReplyIsGoodOrBad :
    (∃ (address : Nat) (kind : ExchangeKind) (frame : List Byte),
      address < 256 ∧
      (judgeReply address kind frame = .good 0x13 [])) ∧
    (∃ (address : Nat) (kind : ExchangeKind) (frame : List Byte),
      address < 256 ∧
      (judgeReply address kind frame = .bad)) :=
  ⟨⟨1, .poll, (dropFrame 1 0x13 []), by decide +kernel⟩,
    ⟨1, .poll, (dropFrame 2 0x13 []), by decide +kernel⟩⟩

theorem test_met_RowTwentyThreeGoesFirst :
    (∃ (dirty : BitVec 24),
      (rowToSend dirty = some 23)) ∧
    (∃ (dirty : BitVec 24),
      (rowToSend dirty = some 4)) ∧
    (∃ (dirty : BitVec 24),
      (dirty = 0)) :=
  ⟨⟨0x800001, by decide +kernel⟩,
    ⟨0x000030, by decide +kernel⟩,
    ⟨0, by decide +kernel⟩⟩

theorem test_met_RowOutcomesEndTheSend :
    (∃ (s : State) (d : Fin 2) (p : Fin 16) (resend : Bool),
      s.inReset = false ∧
      s.screen.controllers[d].mode = .cycling ∧
      s.screen.controllers[d].exchange = some ⟨p, .row resend, .awaiting⟩ ∧
      1 ≤ s.screen.controllers[d].rowsSent ∧
      s.screen.positions[p].state = .present ∧
      s.screen.positions[p].address ≤ 14 ∧
      (s.screen.controllers[d].rowNumber = 2 ∧ rowToSend (s.screen.positions[p].dirty &&& ~~~BitVec.twoPow 24 2) = none)) ∧
    (∃ (s : State) (d : Fin 2) (p : Fin 16) (resend : Bool),
      s.inReset = false ∧
      s.screen.controllers[d].mode = .cycling ∧
      s.screen.controllers[d].exchange = some ⟨p, .row resend, .awaiting⟩ ∧
      1 ≤ s.screen.controllers[d].rowsSent ∧
      s.screen.positions[p].state = .present ∧
      s.screen.positions[p].address ≤ 14 ∧
      (rowToSend (s.screen.positions[p].dirty &&& ~~~BitVec.twoPow 24 2) = some 5 ∧ s.screen.controllers[d].rowsSent = 1)) ∧
    (∃ (s : State) (d : Fin 2) (p : Fin 16) (resend : Bool),
      s.inReset = false ∧
      s.screen.controllers[d].mode = .cycling ∧
      s.screen.controllers[d].exchange = some ⟨p, .row resend, .awaiting⟩ ∧
      1 ≤ s.screen.controllers[d].rowsSent ∧
      s.screen.positions[p].state = .present ∧
      s.screen.positions[p].address ≤ 14 ∧
      (resend = true ∧ s.screen.controllers[d].rowsSent = 2 ∧ s.screen.positions[p].missed < 2 ∧ s.screen.controllers[d].remaining = [])) ∧
    (∃ (s : State) (d : Fin 2) (p : Fin 16) (resend : Bool),
      s.inReset = false ∧
      s.screen.controllers[d].mode = .cycling ∧
      s.screen.controllers[d].exchange = some ⟨p, .row resend, .awaiting⟩ ∧
      1 ≤ s.screen.controllers[d].rowsSent ∧
      s.screen.positions[p].state = .present ∧
      s.screen.positions[p].address ≤ 14 ∧
      (s.screen.controllers[d].rowNumber = 23 ∧ s.screen.controllers[d].rowsSent = 1 ∧ rowToSend s.screen.positions[p].dirty = some 23)) :=
  ⟨⟨(onLine0 (onTerminal openDay fun q => { q with dirty := 4 }) fun c => { c with mode := .cycling, rowNumber := 2, rowsSent := 1, row := List.replicate 20 7, exchange := some ⟨0, .row false, .awaiting⟩ }), 0, 0, false, by decide +kernel⟩,
    ⟨(onLine0 (onTerminal openDay fun q => { q with dirty := 0x24 }) fun c => { c with mode := .cycling, rowNumber := 2, rowsSent := 1, row := List.replicate 20 7, exchange := some ⟨0, .row true, .awaiting⟩ }), 0, 0, true, by decide +kernel⟩,
    ⟨(onLine0 (onTerminal openDay fun q => { q with dirty := 0x24 }) fun c => { c with mode := .cycling, rowNumber := 2, rowsSent := 2, row := List.replicate 20 7, exchange := some ⟨0, .row true, .awaiting⟩ }), 0, 0, true, by decide +kernel⟩,
    ⟨(onLine0 (onTerminal openDay fun q => { q with dirty := 0x800024 }) fun c => { c with mode := .cycling, rowNumber := 23, rowsSent := 1, row := List.replicate 20 7, exchange := some ⟨0, .row false, .awaiting⟩ }), 0, 0, false, by decide +kernel⟩⟩

theorem test_met_EchoOutcomeEndsTheCheck :
    ∃ (s : State) (d : Fin 2) (p : Fin 16) (pattern : List Byte),
      s.inReset = false ∧
      s.screen.controllers[d].mode = .cycling ∧
      s.screen.controllers[d].exchange = some ⟨p, .echo, .awaiting⟩ ∧
      s.control.lineCheck = some (p, pattern) ∧
      s.screen.positions[p].state = .present ∧
      s.screen.positions[p].address ≤ 14 ∧
      s.screen.positions[p].dirty = 0 ∧
      (s.screen.positions[p].missed < 2 ∧ s.screen.controllers[d].remaining = []) :=
  ⟨(onLine0 (onTerminal { openDay with control := { openDay.control with lineCheck := some (0, List.replicate 16 9) } } fun q => { q with dirty := 0 }) fun c => { c with mode := .cycling, exchange := some ⟨0, .echo, .awaiting⟩ }), 0, 0, (List.replicate 16 9), by decide +kernel⟩

theorem test_met_BellOpensTheVisit :
    (∃ (s : State) (d : Fin 2) (k : Fin 6) (p : Fin 16) (rest : List (Fin 16)),
      s.inReset = false ∧
      s.screen.controllers[d].mode = .cycling ∧
      s.configuration.dropPort d = some k ∧
      s.screen.positions[p].state = .present ∧
      s.screen.positions[p].address ≤ 14 ∧
      (s.screen.controllers[d].exchange = none ∧ s.configuration.linePositions d = p :: rest ∧ s.screen.positions[p].bell = true)) ∧
    (∃ (s : State) (d : Fin 2) (k : Fin 6) (p : Fin 16),
      s.inReset = false ∧
      s.screen.controllers[d].mode = .cycling ∧
      s.configuration.dropPort d = some k ∧
      s.screen.positions[p].state = .present ∧
      s.screen.positions[p].address ≤ 14 ∧
      (s.screen.controllers[d].exchange = some ⟨p, .bell, .awaiting⟩ ∧ s.screen.positions[p].echo = false ∧ s.screen.positions[p].dirty = 0)) :=
  ⟨⟨(onLine0 (onTerminal openDay fun q => { q with dirty := 0, bell := true }) fun c => { c with mode := .cycling, exchange := none }), 0, 0, 0, [1], by decide +kernel⟩,
    ⟨(onLine0 (onTerminal openDay fun q => { q with dirty := 0, bell := false }) fun c => { c with mode := .cycling, exchange := some ⟨0, .bell, .awaiting⟩ }), 0, 0, 0, by decide +kernel⟩⟩

theorem test_met_AnsweringTerminalReturns :
    ∃ (s : State) (d : Fin 2) (p : Fin 16),
      s.inReset = false ∧
      s.screen.controllers[d].mode = .cycling ∧
      s.screen.controllers[d].remaining = [] ∧
      s.screen.controllers[d].exchange = some ⟨p, .poll, .awaiting⟩ ∧
      s.screen.positions[p].state = .absent ∧
      s.screen.positions[p].address ≤ 14 :=
  ⟨(onLine0 (onTerminal openDay fun q => { q with state := .absent }) fun c => { c with mode := .cycling, exchange := some ⟨0, .poll, .awaiting⟩ }), 0, 0, by decide +kernel⟩

theorem test_met_StoppedCycleLearns :
    ∃ (s : State) (d : Fin 2) (k : Fin 6) (p : Fin 16) (first : Fin 16) (rest : List (Fin 16)),
      s.inReset = false ∧
      s.configuration.dropPort d = some k ∧
      s.configuration.linePositions d = first :: rest ∧
      s.screen.controllers[d].exchange = some ⟨p, .poll, .awaiting⟩ ∧
      s.screen.controllers[d].mode = .stopping ∧
      s.screen.positions[p].state = .present ∧
      s.screen.positions[p].address ≤ 14 :=
  ⟨(onLine0 (onTerminal openDay id) fun c => { c with mode := .stopping, exchange := some ⟨0, .poll, .awaiting⟩ }), 0, 0, 0, 0, [1], by decide +kernel⟩

theorem test_met_KeysReplyHandsOverItsGroup :
    (∃ (s : State) (d : Fin 2) (p : Fin 16) (keys : List (BitVec 16)),
      s.inReset = false ∧
      s.screen.controllers[d].mode = .cycling ∧
      s.screen.controllers[d].remaining = [] ∧
      s.screen.controllers[d].exchange = some ⟨p, .poll, .awaiting⟩ ∧
      s.screen.positions[p].state = .present ∧
      s.screen.positions[p].address ≤ 14 ∧
      s.screen.positions[p].writeAt < 24 ∧
      1 ≤ keys.length ∧
      keys.length ≤ 8 ∧
      (keysHeld s.screen.positions[p] = 22)) ∧
    (∃ (s : State) (d : Fin 2) (p : Fin 16) (keys : List (BitVec 16)),
      s.inReset = false ∧
      s.screen.controllers[d].mode = .cycling ∧
      s.screen.controllers[d].remaining = [] ∧
      s.screen.controllers[d].exchange = some ⟨p, .poll, .awaiting⟩ ∧
      s.screen.positions[p].state = .present ∧
      s.screen.positions[p].address ≤ 14 ∧
      s.screen.positions[p].writeAt < 24 ∧
      1 ≤ keys.length ∧
      keys.length ≤ 8 ∧
      (keysHeld s.screen.positions[p] = 24)) :=
  ⟨⟨(onLine0 (onTerminal openDay fun q => { q with producer := 22, writeAt := 22 }) fun c => { c with mode := .cycling, exchange := some ⟨0, .poll, .awaiting⟩ }), 0, 0, [1, 2, 3], by decide +kernel⟩,
    ⟨(onLine0 (onTerminal openDay fun q => { q with producer := 24, writeAt := 22 }) fun c => { c with mode := .cycling, exchange := some ⟨0, .poll, .awaiting⟩ }), 0, 0, [1], by decide +kernel⟩⟩

theorem test_met_StatusRowsFollowTheState :
    (∃ (c : Instr) (s : State) (t : State) (p : Fin 16),
      s.inReset = false ∧
      c ≠ .reset ∧
      (∀ straps, c ≠ .resetRelease straps) ∧
      exec c s = .next t ∧
      t.configuration.positionEnabled p = true ∧
      (t.configuration.positionEnabled p = true ∧ s.screen.positions[p].composition = none)) ∧
    (∃ (c : Instr) (s : State) (t : State) (p : Fin 16),
      s.inReset = false ∧
      c ≠ .reset ∧
      (∀ straps, c ≠ .resetRelease straps) ∧
      exec c s = .next t ∧
      t.configuration.positionEnabled p = true ∧
      (t.configuration.positionEnabled p = true ∧ t.screen.positions[p].dirty.getLsbD 23 = false ∧ t.screen.controllers[0].exchange = some ⟨1, .row false, .filling⟩)) :=
  ⟨⟨.tick, openDay, (after .tick openDay), 0, by decide +kernel, by decide +kernel, by rintro _ ⟨⟩, exec_after _ _ (by decide +kernel), by decide +kernel, by decide +kernel⟩,
    ⟨(.dropReplyTimeout 0 .noFirstByte), thirdMiss, (after (.dropReplyTimeout 0 .noFirstByte) thirdMiss), 1, by decide +kernel, by decide +kernel, by rintro _ ⟨⟩, exec_after _ _ (by decide +kernel), by decide +kernel, by decide +kernel⟩⟩

theorem test_met_ChangedMirrorFiguresAreHandedOn :
    ∃ (c : Instr) (s : State) (t : State) (k : Nat),
      s.inReset = false ∧
      c ≠ .reset ∧
      (∀ straps, c ≠ .resetRelease straps) ∧
      exec c s = .next t ∧
      k ∈ mirrorNumbers ∧
      mirrorFields s k ≠ mirrorFields t k ∧
      (mirrorFields s k ≠ mirrorFields t k) :=
  ⟨.tick, openDay, (after .tick openDay), 1, by decide +kernel, by decide +kernel, by rintro _ ⟨⟩, exec_after _ _ (by decide +kernel), by decide +kernel, by decide +kernel, by decide +kernel⟩

theorem test_met_BookInIsJudgedInOrder :
    (∃ (s : State) (k : Fin 4) (frame : List Byte) (port : Fin 6),
      s.inReset = false ∧
      s.configuration.printerPort k = some port ∧
      printerSends frame 0x10 = true ∧
      (s.passbook.printers[k].state = .book)) ∧
    (∃ (s : State) (k : Fin 4) (frame : List Byte) (port : Fin 6),
      s.inReset = false ∧
      s.configuration.printerPort k = some port ∧
      printerSends frame 0x10 = true ∧
      (s.passbook.printers[k].state = .idle ∧ s.day.state = .setup)) ∧
    (∃ (s : State) (k : Fin 4) (frame : List Byte) (port : Fin 6),
      s.inReset = false ∧
      s.configuration.printerPort k = some port ∧
      printerSends frame 0x10 = true ∧
      (s.passbook.printers[k].state = .idle ∧ s.day.state = .opened ∧ 32 < field frame 10 1)) ∧
    (∃ (s : State) (k : Fin 4) (frame : List Byte) (port : Fin 6),
      s.inReset = false ∧
      s.configuration.printerPort k = some port ∧
      printerSends frame 0x10 = true ∧
      (s.passbook.printers[k].state = .idle ∧ s.day.state = .opened ∧ field frame 10 1 = 32 ∧ field frame 11 1 = 25)) ∧
    (∃ (s : State) (k : Fin 4) (frame : List Byte) (port : Fin 6),
      s.inReset = false ∧
      s.configuration.printerPort k = some port ∧
      printerSends frame 0x10 = true ∧
      (s.passbook.printers[k].state = .idle ∧ s.day.state = .opened ∧ nextWaiting s.passbook.items 77 = none)) ∧
    (∃ (s : State) (k : Fin 4) (frame : List Byte) (port : Fin 6),
      s.inReset = false ∧
      s.configuration.printerPort k = some port ∧
      printerSends frame 0x10 = true ∧
      (s.passbook.printers[k].state = .turnWait ∧ s.day.state = .opened ∧ nextWaiting s.passbook.items 77 ≠ none ∧ field frame 10 1 < 32 ∧ field frame 11 1 = 25)) :=
  ⟨⟨(onPrinter openDay fun p => { p with state := .book }), 0, (printerFrame 0x10 (leBytes 8 77 ++ [1, 3])), 1, by decide +kernel⟩,
    ⟨configured, 0, (printerFrame 0x10 (leBytes 8 77 ++ [1, 3])), 1, by decide +kernel⟩,
    ⟨openDay, 0, (printerFrame 0x10 (leBytes 8 77 ++ [33, 3])), 1, by decide +kernel⟩,
    ⟨openDay, 0, (printerFrame 0x10 (leBytes 8 77 ++ [32, 25])), 1, by decide +kernel⟩,
    ⟨openDay, 0, (printerFrame 0x10 (leBytes 8 77 ++ [1, 3])), 1, by decide +kernel⟩,
    ⟨(onPrinter (setItems openDay [item 5]) fun p => { p with state := .turnWait, job := some ⟨77, 1, 25, 4, none⟩, turnTimer := true }), 0, (printerFrame 0x10 (leBytes 8 77 ++ [31, 25])), 1, by decide +kernel⟩⟩

theorem test_met_AckOfStripeGoesOn :
    (∃ (s : State) (k : Fin 4) (frame : List Byte) (port : Fin 6) (page : Nat) (line : Nat) (turn : Bool) (job : Job),
      s.inReset = false ∧
      s.configuration.printerPort k = some port ∧
      printerSends frame 0x14 = true ∧
      s.passbook.printers[k].awaited = some (.stripe page line turn) ∧
      s.passbook.printers[k].job = some job ∧
      (turn = true)) ∧
    (∃ (s : State) (k : Fin 4) (frame : List Byte) (port : Fin 6) (page : Nat) (line : Nat) (turn : Bool) (job : Job),
      s.inReset = false ∧
      s.configuration.printerPort k = some port ∧
      printerSends frame 0x14 = true ∧
      s.passbook.printers[k].awaited = some (.stripe page line turn) ∧
      s.passbook.printers[k].job = some job ∧
      (turn = false ∧ page = 32 ∧ line = 25)) ∧
    (∃ (s : State) (k : Fin 4) (frame : List Byte) (port : Fin 6) (page : Nat) (line : Nat) (turn : Bool) (job : Job),
      s.inReset = false ∧
      s.configuration.printerPort k = some port ∧
      printerSends frame 0x14 = true ∧
      s.passbook.printers[k].awaited = some (.stripe page line turn) ∧
      s.passbook.printers[k].job = some job ∧
      (turn = false ∧ ¬(page = 32 ∧ line = 25) ∧ nextWaiting s.passbook.items job.account = none)) ∧
    (∃ (s : State) (k : Fin 4) (frame : List Byte) (port : Fin 6) (page : Nat) (line : Nat) (turn : Bool) (job : Job),
      s.inReset = false ∧
      s.configuration.printerPort k = some port ∧
      printerSends frame 0x14 = true ∧
      s.passbook.printers[k].awaited = some (.stripe page line turn) ∧
      s.passbook.printers[k].job = some job ∧
      (turn = false ∧ ¬(page = 32 ∧ line = 25) ∧ nextWaiting s.passbook.items job.account = some (item 5) ∧ reservationGranted s = true)) ∧
    (∃ (s : State) (k : Fin 4) (frame : List Byte) (port : Fin 6) (page : Nat) (line : Nat) (turn : Bool) (job : Job),
      s.inReset = false ∧
      s.configuration.printerPort k = some port ∧
      printerSends frame 0x14 = true ∧
      s.passbook.printers[k].awaited = some (.stripe page line turn) ∧
      s.passbook.printers[k].job = some job ∧
      (turn = false ∧ ¬(page = 32 ∧ line = 25) ∧ nextWaiting s.passbook.items job.account = some (item 5) ∧ reservationGranted s = false)) :=
  ⟨⟨(onPrinter openDay fun p => { p with state := .book, job := some ⟨77, 1, 24, 4, none⟩, awaited := some (.stripe 2 1 true) }), 0, (printerFrame 0x14 []), 1, 2, 1, true, ⟨77, 1, 24, 4, none⟩, by decide +kernel⟩,
    ⟨(onPrinter (setItems openDay [item 5]) fun p => { p with state := .book, job := some ⟨77, 1, 23, 4, none⟩, awaited := some (.stripe 32 25 false) }), 0, (printerFrame 0x14 []), 1, 32, 25, false, ⟨77, 1, 23, 4, none⟩, by decide +kernel⟩,
    ⟨(onPrinter openDay fun p => { p with state := .book, job := some ⟨77, 1, 23, 4, none⟩, awaited := some (.stripe 1 24 false) }), 0, (printerFrame 0x14 []), 1, 1, 24, false, ⟨77, 1, 23, 4, none⟩, by decide +kernel⟩,
    ⟨(onPrinter (setItems openDay [item 5]) fun p => { p with state := .book, job := some ⟨77, 1, 23, 4, none⟩, awaited := some (.stripe 1 24 false) }), 0, (printerFrame 0x14 []), 1, 1, 24, false, ⟨77, 1, 23, 4, none⟩, by decide +kernel⟩,
    ⟨(onPrinter { setItems openDay [item 5] with journal := { openDay.journal with free := 8 } } fun p => { p with state := .book, job := some ⟨77, 1, 23, 4, none⟩, awaited := some (.stripe 1 24 false) }), 0, (printerFrame 0x14 []), 1, 1, 24, false, ⟨77, 1, 23, 4, none⟩, by decide +kernel⟩⟩

theorem test_met_PrintedLineFreesItsEntry :
    (∃ (s : State) (k : Fin 4) (frame : List Byte) (port : Fin 6),
      s.inReset = false ∧
      s.configuration.printerPort k = some port ∧
      printerSends frame 0x12 = true ∧
      (s.passbook.printers[k].state = .printing ∧ s.passbook.printers[k].job = some ⟨77, 1, 3, 0, some 5⟩ ∧ currentItem s s.passbook.printers[k] = some { item 5 with printing := true })) ∧
    (∃ (s : State) (k : Fin 4) (frame : List Byte) (port : Fin 6),
      s.inReset = false ∧
      s.configuration.printerPort k = some port ∧
      printerSends frame 0x12 = true ∧
      (s.passbook.printers[k].state ≠ .printing)) ∧
    (∃ (s : State) (k : Fin 4) (frame : List Byte) (port : Fin 6),
      s.inReset = false ∧
      s.configuration.printerPort k = some port ∧
      printerSends frame 0x12 = true ∧
      (s.passbook.printers[k].state = .printing ∧ s.passbook.printers[k].job = some ⟨77, 1, 3, 0, some 5⟩ ∧ currentItem s s.passbook.printers[k] = some { item 5 with printing := true, reversals := [⟨7, 3, 500, 900, true⟩, ⟨8, 4, 500, 400, false⟩, ⟨9, 5, 500, -100, true⟩] } ∧ s.passbook.items.length = 192)) :=
  ⟨⟨printing, 0, (printerFrame 0x12 []), 1, by decide +kernel⟩,
    ⟨openDay, 0, (printerFrame 0x12 []), 1, by decide +kernel⟩,
    ⟨(onPrinter { setItems openDay ({ item 5 with printing := true, reversals := [⟨7, 3, 500, 900, true⟩, ⟨8, 4, 500, 400, false⟩, ⟨9, 5, 500, -100, true⟩] } :: (List.range 191).map fun k => { item (k + 10) with account := 5 }) with journal := { openDay.journal with reservations := [0] } } fun p => { p with state := .printing, job := some ⟨77, 1, 3, 0, some 5⟩, awaited := some .print, lineTimer := true }), 0, (printerFrame 0x12 []), 1, by decide +kernel⟩⟩

theorem test_met_NextBlockIsComposed :
    (∃ (s : State) (f : List Byte) (p : Plan),
      s.inReset = false ∧
      frameTaken s s.batch.port f 0x81 = true ∧
      s.batch.state ≠ .awaitFinal ∧
      s.batch.plan = some p ∧
      frameBlock f = s.batch.current ∧
      s.batch.current + 1 ≠ p.blocks ∧
      (blockContent s p (s.batch.current + 1) = .payload 3 (dayTotalsBytes s.configuration s.totals))) ∧
    (∃ (s : State) (f : List Byte) (p : Plan),
      s.inReset = false ∧
      frameTaken s s.batch.port f 0x81 = true ∧
      s.batch.state ≠ .awaitFinal ∧
      s.batch.plan = some p ∧
      frameBlock f = s.batch.current ∧
      s.batch.current + 1 ≠ p.blocks ∧
      (blockContent s p (s.batch.current + 1) = .entries 1 2)) :=
  ⟨⟨sendingDay, (answer 0x81 2), plan, by decide +kernel⟩,
    ⟨(onBatch sendingDay fun b => { b with current := 4 }), (answer 0x81 4), plan, by decide +kernel⟩⟩

theorem test_met_HeadOfficeFrameIsValid :
    (∃ (f : List Byte),
      (headOfficeFrameValid f = true)) ∧
    (∃ (f : List Byte),
      (headOfficeFrameValid f = false)) :=
  ⟨⟨(answer 0x81 2), by decide +kernel⟩,
    ⟨[1], by decide +kernel⟩⟩

theorem test_met_BlocksHoldTheirContents :
    let kinds (p : Plan) := (List.range p.blocks).map fun n => match blockContent sendingDay p n with
      | .payload kind _ => (kind, 0, 0)
      | .entries a b => (5, a, b)
    (∀ p ∈ [plan, longPlan], p.blocks = 4 + (p.records + 3) / 4 + (p.last + 3) / 4 ∧
      p.records = (examinedRecords sendingDay.configuration).length) ∧
    kinds plan = [(1, 0, 0), (2, 0, 0), (2, 0, 0), (3, 0, 0), (4, 0, 0), (5, 1, 2), (6, 0, 0)] ∧
    kinds longPlan =
      [(1, 0, 0), (2, 0, 0), (2, 0, 0), (3, 0, 0), (4, 0, 0), (5, 1, 4), (5, 5, 5), (6, 0, 0)] := by
  decide +kernel

theorem test_met_BlocksHoldTheirContents_at_each_boundary :
    let holders := (longPlan.records + 3) / 4
    (∃ n, n = 0) ∧ (∃ n, 1 ≤ n ∧ n ≤ holders ∧ n = 1) ∧ (∃ n, 1 ≤ n ∧ n ≤ holders ∧ n = holders) ∧
    (∃ n, n = holders + 1) ∧ (∃ n, n = holders + 2) ∧
    (∃ n, ∃ j < (longPlan.last + 3) / 4, n = holders + 3 + j ∧ j = 0) ∧
    (∃ n, ∃ j < (longPlan.last + 3) / 4, n = holders + 3 + j ∧ j + 1 = (longPlan.last + 3) / 4) ∧
    (∃ n, n + 1 = longPlan.blocks) ∧
    (∃ s : State, s.configuration.hasCurrency 2 = false ∧ s.totals.day[(2 : Fin 4)].received = 5) :=
  ⟨⟨0, rfl⟩, ⟨1, by decide⟩, ⟨2, by decide⟩, ⟨3, by decide⟩, ⟨4, by decide⟩, ⟨5, 0, by decide⟩,
    ⟨6, 1, by decide⟩, ⟨7, by decide⟩,
    ⟨{ sendingDay with totals := bookReceived openDay.totals 2 5 }, by decide +kernel⟩⟩

theorem test_met_EntryBlockIsReadBack :
    (∃ (s : State) (r : Run) (last : Nat),
      s.inReset = false ∧
      s.journal.runs = [r] ∧
      r.requester = .batch ∧
      r.started = true ∧
      r.last = some last ∧
      s.journal.serving = some .batch ∧
      8 ≤ s.journal.buffer.length ∧
      (entryNumber (bytesOfDwords (s.journal.buffer.take 8)) = r.next ∧ entryChain (bytesOfDwords (s.journal.buffer.take 8)) = chainOf (r.chain.getD 0xFFFFFFFF) (bytesOfDwords (s.journal.buffer.take 8)) ∧ r.next ≠ last)) ∧
    (∃ (s : State) (r : Run) (last : Nat),
      s.inReset = false ∧
      s.journal.runs = [r] ∧
      r.requester = .batch ∧
      r.started = true ∧
      r.last = some last ∧
      s.journal.serving = some .batch ∧
      8 ≤ s.journal.buffer.length ∧
      (entryNumber (bytesOfDwords (s.journal.buffer.take 8)) = r.next ∧ entryChain (bytesOfDwords (s.journal.buffer.take 8)) = chainOf (r.chain.getD 0xFFFFFFFF) (bytesOfDwords (s.journal.buffer.take 8)) ∧ r.next = last)) ∧
    (∃ (s : State) (r : Run) (last : Nat),
      s.inReset = false ∧
      s.journal.runs = [r] ∧
      r.requester = .batch ∧
      r.started = true ∧
      r.last = some last ∧
      s.journal.serving = some .batch ∧
      8 ≤ s.journal.buffer.length ∧
      (entryNumber (bytesOfDwords (s.journal.buffer.take 8)) ≠ r.next)) :=
  ⟨⟨(onBatch { sendingDay with journal := { openDay.journal with runs := [⟨.batch, 2, some 3, some openDay.journal.chain, true⟩], serving := some .batch, buffer := dwordsOfBytes 8 (journaled 2 { kind := 6 }) } } fun b => { b with state := .composing, kind := 5, current := 5, buffer := List.replicate 64 1, ackWait := false }), ⟨.batch, 2, some 3, some openDay.journal.chain, true⟩, 3, by decide +kernel⟩,
    ⟨(onBatch { sendingDay with journal := { openDay.journal with runs := [⟨.batch, 2, some 2, some openDay.journal.chain, true⟩], serving := some .batch, buffer := dwordsOfBytes 8 (journaled 2 { kind := 6 }) } } fun b => { b with state := .composing, kind := 5, current := 5, buffer := List.replicate 64 1, ackWait := false }), ⟨.batch, 2, some 2, some openDay.journal.chain, true⟩, 2, by decide +kernel⟩,
    ⟨(onBatch { sendingDay with journal := { openDay.journal with runs := [⟨.batch, 2, some 2, some openDay.journal.chain, true⟩], serving := some .batch, buffer := List.replicate 8 0 } } fun b => { b with state := .composing, kind := 5, current := 5, buffer := List.replicate 64 1, ackWait := false }), ⟨.batch, 2, some 2, some openDay.journal.chain, true⟩, 2, by decide +kernel⟩⟩

theorem test_met_ClearMonitorLoadsThePreset :
    (∃ (s : State) (addr : Nat) (mask : ByteMask) (data : Dword),
      CommandGiven s addr mask data 9 ∧
      (s.control.config ≠ none ∧ s.day.state ≠ .recovering ∧ laneField s.control.arguments[0] 0 1 = 2 ∧ s.monitors.freeze = some 2)) ∧
    (∃ (s : State) (addr : Nat) (mask : ByteMask) (data : Dword),
      CommandGiven s addr mask data 9 ∧
      (s.control.config ≠ none ∧ s.day.state ≠ .recovering ∧ laneField s.control.arguments[0] 0 1 = 2 ∧ s.monitors.freeze = some 3)) ∧
    (∃ (s : State) (addr : Nat) (mask : ByteMask) (data : Dword),
      CommandGiven s addr mask data 9 ∧
      (s.day.state = .recovering)) ∧
    (∃ (s : State) (addr : Nat) (mask : ByteMask) (data : Dword),
      CommandGiven s addr mask data 9 ∧
      (s.control.config ≠ none ∧ s.day.state ≠ .recovering ∧ laneField s.control.arguments[0] 0 1 = 8)) :=
  ⟨⟨(commanded { openDay with monitors := { openDay.monitors with fired := openDay.monitors.fired.set 2 true, freeze := some 2 } } 9 33 2), 0x3FFE1800, 0xFF, (dwordOfFields [(1, 9), (1, 0), (2, 33)]), by decide +kernel⟩,
    ⟨(commanded { openDay with monitors := { openDay.monitors with fired := openDay.monitors.fired.set 2 true, freeze := some 3 } } 9 33 2), 0x3FFE1800, 0xFF, (dwordOfFields [(1, 9), (1, 0), (2, 33)]), by decide +kernel⟩,
    ⟨(commanded (inDay openDay .recovering) 9 33 2), 0x3FFE1800, 0xFF, (dwordOfFields [(1, 9), (1, 0), (2, 33)]), by decide +kernel⟩,
    ⟨(commanded openDay 9 33 8), 0x3FFE1800, 0xFF, (dwordOfFields [(1, 9), (1, 0), (2, 33)]), by decide +kernel⟩⟩

theorem test_met_ForceBalanceBalancesTheHolder :
    (∃ (s : State) (addr : Nat) (mask : ByteMask) (data : Dword),
      CommandGiven s addr mask data 6 ∧
      (s.day.state = .opened ∧ laneField s.control.arguments[0] 0 1 = 1 ∧ s.configuration.holderActive 1 = true ∧ s.totals.flags[(1 : Fin 17)].balanced = false)) ∧
    (∃ (s : State) (addr : Nat) (mask : ByteMask) (data : Dword),
      CommandGiven s addr mask data 6 ∧
      (s.day.state = .closing ∧ laneField s.control.arguments[0] 0 1 = 1 ∧ s.configuration.holderActive 1 = true ∧ s.totals.flags[(1 : Fin 17)].balanced = false)) ∧
    (∃ (s : State) (addr : Nat) (mask : ByteMask) (data : Dword),
      CommandGiven s addr mask data 6 ∧
      (s.day.state = .closing ∧ laneField s.control.arguments[0] 0 1 = 1 ∧ s.configuration.holderActive 1 = true ∧ s.totals.flags[(1 : Fin 17)].balanced = true)) ∧
    (∃ (s : State) (addr : Nat) (mask : ByteMask) (data : Dword),
      CommandGiven s addr mask data 6 ∧
      (¬(s.day.state = .opened ∨ s.day.state = .closing))) ∧
    (∃ (s : State) (addr : Nat) (mask : ByteMask) (data : Dword),
      CommandGiven s addr mask data 6 ∧
      (s.day.state = .opened ∧ laneField s.control.arguments[0] 0 1 = 17)) :=
  ⟨⟨(commanded { inDay openDay .opened with totals := { openDay.totals with flags := openDay.totals.flags.set 1 ⟨false, false, false⟩ } } 6 33 1), 0x3FFE1800, 0xFF, (dwordOfFields [(1, 6), (1, 0), (2, 33)]), by decide +kernel⟩,
    ⟨(commanded { inDay openDay .closing with totals := { openDay.totals with flags := openDay.totals.flags.set 1 ⟨false, false, false⟩ } } 6 33 1), 0x3FFE1800, 0xFF, (dwordOfFields [(1, 6), (1, 0), (2, 33)]), by decide +kernel⟩,
    ⟨(commanded { inDay openDay .closing with totals := { openDay.totals with flags := openDay.totals.flags.set 1 ⟨false, true, false⟩ } } 6 33 1), 0x3FFE1800, 0xFF, (dwordOfFields [(1, 6), (1, 0), (2, 33)]), by decide +kernel⟩,
    ⟨(commanded configured 6 33 1), 0x3FFE1800, 0xFF, (dwordOfFields [(1, 6), (1, 0), (2, 33)]), by decide +kernel⟩,
    ⟨(commanded openDay 6 33 17), 0x3FFE1800, 0xFF, (dwordOfFields [(1, 6), (1, 0), (2, 33)]), by decide +kernel⟩⟩

theorem test_met_EndLearnEndsTheLearn :
    (∃ (s : State) (addr : Nat) (mask : ByteMask) (data : Dword),
      CommandGiven s addr mask data 13 ∧
      (laneField s.control.arguments[0] 0 1 = 0 ∧ s.screen.controllers[(0 : Fin 2)].mode = .learning)) ∧
    (∃ (s : State) (addr : Nat) (mask : ByteMask) (data : Dword),
      CommandGiven s addr mask data 13 ∧
      (laneField s.control.arguments[0] 0 1 = 0 ∧ s.screen.controllers[(0 : Fin 2)].mode ≠ .learning)) ∧
    (∃ (s : State) (addr : Nat) (mask : ByteMask) (data : Dword),
      CommandGiven s addr mask data 13 ∧
      (laneField s.control.arguments[0] 0 1 = 2)) :=
  ⟨⟨(commanded (onLine0 openDay fun c => { c with mode := .learning, acknowledged := [0] }) 13 33 0), 0x3FFE1800, 0xFF, (dwordOfFields [(1, 13), (1, 0), (2, 33)]), by decide +kernel⟩,
    ⟨(commanded openDay 13 33 0), 0x3FFE1800, 0xFF, (dwordOfFields [(1, 13), (1, 0), (2, 33)]), by decide +kernel⟩,
    ⟨(commanded openDay 13 33 2), 0x3FFE1800, 0xFF, (dwordOfFields [(1, 13), (1, 0), (2, 33)]), by decide +kernel⟩⟩

theorem test_met_EarlyFinalAcknowledgesTheTrailer :
    (∃ (s : State) (f : List Byte) (p : Plan),
      s.inReset = false ∧
      frameTaken s s.batch.port f 0x84 = true ∧
      (s.batch.state = .awaitAck ∨ s.batch.state = .paused) ∧
      s.batch.plan = some p ∧
      (s.batch.current + 1 = p.blocks)) ∧
    (∃ (s : State) (f : List Byte) (p : Plan),
      s.inReset = false ∧
      frameTaken s s.batch.port f 0x84 = true ∧
      (s.batch.state = .awaitAck ∨ s.batch.state = .paused) ∧
      s.batch.plan = some p ∧
      (s.batch.current + 1 ≠ p.blocks)) :=
  ⟨⟨(onBatch sendingDay fun b => { b with current := 6 }), (final 1 40), plan, by decide +kernel⟩,
    ⟨(onBatch sendingDay fun b => { b with current := 2 }), (final 1 40), plan, by decide +kernel⟩⟩

theorem test_met_CheckLineAsksForAnEcho :
    (∃ (s : State) (addr : Nat) (mask : ByteMask) (data : Dword),
      CommandGiven s addr mask data 16 ∧
      (laneField s.control.arguments[0] 0 1 = 0)) ∧
    (∃ (s : State) (addr : Nat) (mask : ByteMask) (data : Dword),
      CommandGiven s addr mask data 16 ∧
      (laneField s.control.arguments[0] 0 1 = 17)) ∧
    (∃ (s : State) (addr : Nat) (mask : ByteMask) (data : Dword),
      CommandGiven s addr mask data 16 ∧
      (laneField s.control.arguments[0] 0 1 = 3 ∧ s.screen.positions[(2 : Fin 16)].state = .notConfigured)) ∧
    (∃ (s : State) (addr : Nat) (mask : ByteMask) (data : Dword),
      CommandGiven s addr mask data 16 ∧
      (laneField s.control.arguments[0] 0 1 = 1 ∧ s.screen.positions[(0 : Fin 16)].state = .absent)) ∧
    (∃ (s : State) (addr : Nat) (mask : ByteMask) (data : Dword),
      CommandGiven s addr mask data 16 ∧
      (laneField s.control.arguments[0] 0 1 = 1 ∧ s.screen.positions[(0 : Fin 16)].state = .present ∧ s.screen.positions[(0 : Fin 16)].line = 0 ∧ s.screen.controllers[(0 : Fin 2)].mode = .learning)) ∧
    (∃ (s : State) (addr : Nat) (mask : ByteMask) (data : Dword),
      CommandGiven s addr mask data 16 ∧
      (laneField s.control.arguments[0] 0 1 = 1 ∧ s.screen.positions[(0 : Fin 16)].state = .present ∧ s.screen.positions[(0 : Fin 16)].line = 0 ∧ s.screen.controllers[(0 : Fin 2)].mode = .stopping)) ∧
    (∃ (s : State) (addr : Nat) (mask : ByteMask) (data : Dword),
      CommandGiven s addr mask data 16 ∧
      (laneField s.control.arguments[0] 0 1 = 1 ∧ s.screen.positions[(0 : Fin 16)].state = .present ∧ s.screen.positions[(0 : Fin 16)].line = 0 ∧ s.screen.controllers[(0 : Fin 2)].mode = .cycling)) :=
  ⟨⟨(commanded openDay 16 33 0), 0x3FFE1800, 0xFF, (dwordOfFields [(1, 16), (1, 0), (2, 33)]), by decide +kernel⟩,
    ⟨(commanded openDay 16 33 17), 0x3FFE1800, 0xFF, (dwordOfFields [(1, 16), (1, 0), (2, 33)]), by decide +kernel⟩,
    ⟨(commanded openDay 16 33 3), 0x3FFE1800, 0xFF, (dwordOfFields [(1, 16), (1, 0), (2, 33)]), by decide +kernel⟩,
    ⟨(commanded (onTerminal openDay fun q => { q with state := .absent }) 16 33 1), 0x3FFE1800, 0xFF, (dwordOfFields [(1, 16), (1, 0), (2, 33)]), by decide +kernel⟩,
    ⟨(commanded (onLine0 (onTerminal openDay id) fun c => { c with mode := .learning }) 16 33 1), 0x3FFE1800, 0xFF, (dwordOfFields [(1, 16), (1, 0), (2, 33)]), by decide +kernel⟩,
    ⟨(commanded (onLine0 (onTerminal openDay id) fun c => { c with mode := .stopping }) 16 33 1), 0x3FFE1800, 0xFF, (dwordOfFields [(1, 16), (1, 0), (2, 33)]), by decide +kernel⟩,
    ⟨(commanded (onLine0 (onTerminal openDay id) fun c => { c with mode := .cycling }) 16 33 1), 0x3FFE1800, 0xFF, (dwordOfFields [(1, 16), (1, 0), (2, 33)]), by decide +kernel⟩⟩

theorem test_met_JournalCheckEndsAtItsLastEntry :
    (∃ (s : State) (r : Run) (last : Nat) (noted : BitVec 32),
      s.inReset = false ∧
      s.journal.runs = [r] ∧
      r.requester = .check ∧
      r.started = true ∧
      r.last = some last ∧
      r.next = last ∧
      s.journal.serving = some .check ∧
      8 ≤ s.journal.buffer.length ∧
      s.control.journalCheck = some (last, noted) ∧
      (entryNumber (bytesOfDwords (s.journal.buffer.take 8)) = last ∧ entryChain (bytesOfDwords (s.journal.buffer.take 8)) = chainOf (r.chain.getD 0xFFFFFFFF) (bytesOfDwords (s.journal.buffer.take 8)) ∧ entryChain (bytesOfDwords (s.journal.buffer.take 8)) = noted)) ∧
    (∃ (s : State) (r : Run) (last : Nat) (noted : BitVec 32),
      s.inReset = false ∧
      s.journal.runs = [r] ∧
      r.requester = .check ∧
      r.started = true ∧
      r.last = some last ∧
      r.next = last ∧
      s.journal.serving = some .check ∧
      8 ≤ s.journal.buffer.length ∧
      s.control.journalCheck = some (last, noted) ∧
      (entryNumber (bytesOfDwords (s.journal.buffer.take 8)) = last ∧ entryChain (bytesOfDwords (s.journal.buffer.take 8)) = chainOf (r.chain.getD 0xFFFFFFFF) (bytesOfDwords (s.journal.buffer.take 8)) ∧ entryChain (bytesOfDwords (s.journal.buffer.take 8)) ≠ noted)) :=
  ⟨⟨({ openDay with journal := { openDay.journal with next := 4, runs := [⟨.check, 3, some 3, some openDay.journal.chain, true⟩], serving := some .check, buffer := dwordsOfBytes 8 (journaled 3 { kind := 6 }) }, control := { openDay.control with journalCheck := some (3, entryChain (journaled 3 { kind := 6 })) } }), ⟨.check, 3, some 3, some openDay.journal.chain, true⟩, 3, (entryChain (journaled 3 { kind := 6 })), by decide +kernel⟩,
    ⟨({ openDay with journal := { openDay.journal with next := 4, runs := [⟨.check, 3, some 3, some openDay.journal.chain, true⟩], serving := some .check, buffer := dwordsOfBytes 8 (journaled 3 { kind := 6 }) }, control := { openDay.control with journalCheck := some (3, 7) } }), ⟨.check, 3, some 3, some openDay.journal.chain, true⟩, 3, 7, by decide +kernel⟩⟩

theorem test_met_CycleSkipsOrPollsAnAbsentTerminal :
    (∃ (s : State) (d : Fin 2) (skipped : List (Fin 16)),
      s.inReset = false ∧
      s.screen.controllers[d].mode = .cycling ∧
      s.screen.controllers[d].exchange = none ∧
      (∀ x ∈ skipped, s.screen.positions[x].state = .absent ∧ 0 < s.screen.positions[x].skip) ∧
      (s.configuration.linePositions d = skipped ++ 0 :: [1] ∧ s.configuration.dropPort d = some 0 ∧ s.screen.positions[(0 : Fin 16)].state = .absent ∧ s.screen.positions[(0 : Fin 16)].skip = 0)) ∧
    (∃ (s : State) (d : Fin 2) (skipped : List (Fin 16)),
      s.inReset = false ∧
      s.screen.controllers[d].mode = .cycling ∧
      s.screen.controllers[d].exchange = none ∧
      (∀ x ∈ skipped, s.screen.positions[x].state = .absent ∧ 0 < s.screen.positions[x].skip) ∧
      (s.configuration.linePositions d = skipped ++ 1 :: [] ∧ s.configuration.dropPort d = some 0 ∧ s.screen.positions[(1 : Fin 16)].state = .absent ∧ s.screen.positions[(1 : Fin 16)].skip = 0)) ∧
    (∃ (s : State) (d : Fin 2) (skipped : List (Fin 16)),
      s.inReset = false ∧
      s.screen.controllers[d].mode = .cycling ∧
      s.screen.controllers[d].exchange = none ∧
      (∀ x ∈ skipped, s.screen.positions[x].state = .absent ∧ 0 < s.screen.positions[x].skip) ∧
      (s.configuration.linePositions d = skipped)) :=
  ⟨⟨(onLine0 (setPosition (onTerminal openDay fun q => { q with state := .absent, skip := 0 }) 1 { openDay.screen.positions[1] with state := .absent, line := 0, address := 2, skip := 3 }) fun c => { c with mode := .cycling }), 0, [], by decide +kernel⟩,
    ⟨(onLine0 (setPosition (onTerminal openDay fun q => { q with state := .absent, skip := 3 }) 1 { openDay.screen.positions[1] with state := .absent, line := 0, address := 2, skip := 0 }) fun c => { c with mode := .cycling }), 0, [0], by decide +kernel⟩,
    ⟨(onLine0 (setPosition (onTerminal openDay fun q => { q with state := .absent, skip := 3 }) 1 { openDay.screen.positions[1] with state := .absent, line := 0, address := 2, skip := 7 }) fun c => { c with mode := .cycling }), 0, [0, 1], by decide +kernel⟩⟩

theorem test_met_BalancedDayMovesToSending :
    (∃ (s : State),
      (s.day.state = .closing ∧ (∀ h : Fin 17, s.configuration.holderActive h = true → s.totals.flags[h].balanced = true) ∧ ∀ x ∈ s.posting.queue, x.marked = false)) ∧
    (∃ (s : State),
      (s.day.state ≠ .closing)) ∧
    (∃ (s : State),
      (s.day.state = .closing ∧ ∃ x ∈ s.posting.queue, x.marked = true)) :=
  ⟨⟨{ inDay openDay .closing with totals := { openDay.totals with flags := Vector.replicate 17 ⟨false, true, false⟩ } }, by decide +kernel⟩,
    ⟨openDay, by decide +kernel⟩,
    ⟨{ ({ inDay openDay .closing with totals := { openDay.totals with flags := Vector.replicate 17 ⟨false, true, false⟩ } }) with posting := { openDay.posting with queue := [⟨0, true⟩] } }, by decide +kernel⟩⟩

theorem test_met_CutOffComparesAtTheTick :
    (∃ (s : State),
      s.inReset = false ∧
      s.day.state = .opened ∧
      s.day.clock < 172800 ∧
      (s.day.clock = 99 ∧ s.configuration.autoCutoff = 1 ∧ s.configuration.cutoff = 100 ∧ ∃ h : Fin 17, s.configuration.holderActive h = true ∧ s.totals.flags[h].balanced = false)) ∧
    (∃ (s : State),
      s.inReset = false ∧
      s.day.state = .opened ∧
      s.day.clock < 172800 ∧
      (s.day.clock = 172799 ∧ s.configuration.autoCutoff = 1 ∧ s.configuration.cutoff = 0 ∧ ∃ h : Fin 17, s.configuration.holderActive h = true ∧ s.totals.flags[h].balanced = false)) ∧
    (∃ (s : State),
      s.inReset = false ∧
      s.day.state = .opened ∧
      s.day.clock < 172800 ∧
      (s.day.clock = 172799 ∧ s.configuration.autoCutoff = 1 ∧ s.configuration.cutoff = 0 ∧ (∀ h : Fin 17, s.configuration.holderActive h = true → s.totals.flags[h].balanced = true) ∧ ∀ x ∈ s.posting.queue, x.marked = false)) :=
  ⟨⟨{ openDay with day := { openDay.day with clock := 99 } }, by decide +kernel⟩,
    ⟨{ openDay with control := { openDay.control with config := some { branch with cutoff := 0 } }, day := { openDay.day with clock := 172799 } }, by decide +kernel⟩,
    ⟨{ openDay with totals := { openDay.totals with flags := Vector.replicate 17 ⟨false, true, false⟩ }, control := { openDay.control with config := some { branch with cutoff := 0 } }, day := { openDay.day with clock := 172799 } }, by decide +kernel⟩⟩

theorem test_met_CloseDayCutsOff :
    (∃ (s : State) (addr : Nat) (mask : ByteMask) (data : Dword),
      CommandGiven s addr mask data 5 ∧
      (s.day.state = .opened ∧ ∃ h : Fin 17, s.configuration.holderActive h = true ∧ s.totals.flags[h].balanced = false)) ∧
    (∃ (s : State) (addr : Nat) (mask : ByteMask) (data : Dword),
      CommandGiven s addr mask data 5 ∧
      (s.day.state = .opened ∧ (∀ h : Fin 17, s.configuration.holderActive h = true → s.totals.flags[h].balanced = true) ∧ ∀ x ∈ s.posting.queue, x.marked = false)) ∧
    (∃ (s : State) (addr : Nat) (mask : ByteMask) (data : Dword),
      CommandGiven s addr mask data 5 ∧
      (s.day.state ≠ .opened)) :=
  ⟨⟨(commanded openDay 5 33 0), 0x3FFE1800, 0xFF, (dwordOfFields [(1, 5), (1, 0), (2, 33)]), by decide +kernel⟩,
    ⟨(commanded ({ openDay with totals := { openDay.totals with flags := Vector.replicate 17 ⟨false, true, false⟩ } }) 5 33 0), 0x3FFE1800, 0xFF, (dwordOfFields [(1, 5), (1, 0), (2, 33)]), by decide +kernel⟩,
    ⟨(commanded configured 5 33 0), 0x3FFE1800, 0xFF, (dwordOfFields [(1, 5), (1, 0), (2, 33)]), by decide +kernel⟩⟩

theorem test_met_FourthFailureFailsOverOrSuspends :
    (∃ (s : State) (f : List Byte),
      s.inReset = false ∧
      3 ≤ s.batch.retries ∧
      (frameTaken s s.batch.port f 0x82 = true ∧ frameBlock f = s.batch.current ∧ s.batch.state ≠ .awaitFinal ∧ s.batch.ackWait = true ∧ s.batch.port = .primary ∧ s.configuration.headOfficePort .backup = some 3)) ∧
    (∃ (s : State) (f : List Byte),
      s.inReset = false ∧
      3 ≤ s.batch.retries ∧
      (frameTaken s s.batch.port f 0x82 = true ∧ frameBlock f = s.batch.current ∧ s.batch.state ≠ .awaitFinal ∧ s.batch.ackWait = true ∧ s.batch.port = .backup)) ∧
    (∃ (s : State),
      s.inReset = false ∧
      3 ≤ s.batch.retries ∧
      (s.batch.finalWait = true ∧ s.batch.port = .primary ∧ s.configuration.headOfficePort .backup = some 3)) ∧
    (∃ (s : State),
      s.inReset = false ∧
      3 ≤ s.batch.retries ∧
      (s.batch.finalWait = true ∧ s.batch.port = .backup)) :=
  ⟨⟨(onBatch sendingDay fun b => { b with retries := 3 }), (answer 0x82 2), by decide +kernel⟩,
    ⟨(onBatch sendingDay fun b => { b with retries := 3, port := .backup }), (answer 0x82 2), by decide +kernel⟩,
    ⟨(onBatch sendingDay fun b => { b with retries := 3, port := .primary, state := .awaitFinal, current := 6, ackWait := false, finalWait := true }), by decide +kernel⟩,
    ⟨(onBatch sendingDay fun b => { b with retries := 3, port := .backup, state := .awaitFinal, current := 6, ackWait := false, finalWait := true }), by decide +kernel⟩⟩

theorem test_met_BatchCommandsRestartTheBatch :
    (∃ (s : State) (addr : Nat) (mask : ByteMask) (data : Dword),
      (CommandGiven s addr mask data 10 ∧ s.day.state = .suspended ∧ s.batch.plan = some plan)) ∧
    (∃ (s : State) (addr : Nat) (mask : ByteMask) (data : Dword),
      (CommandGiven s addr mask data 11 ∧ s.day.state = .suspended ∧ s.batch.plan = some plan)) ∧
    (∃ (s : State) (addr : Nat) (mask : ByteMask) (data : Dword),
      (CommandGiven s addr mask data 11 ∧ s.day.state = .rejected ∧ s.batch.plan = some plan)) ∧
    (∃ (s : State) (addr : Nat) (mask : ByteMask) (data : Dword),
      (CommandGiven s addr mask data 10 ∧ s.day.state ≠ .suspended ∧ s.batch.plan = none)) ∧
    (∃ (s : State) (addr : Nat) (mask : ByteMask) (data : Dword),
      (CommandGiven s addr mask data 11 ∧ s.day.state ≠ .suspended ∧ s.day.state ≠ .rejected ∧ s.batch.plan = none)) :=
  ⟨⟨(commanded (onBatch (inDay sendingDay .suspended) fun b => { b with state := .halted, cause := .link, port := .backup, ackWait := false }) 10 33 0), 0x3FFE1800, 0xFF, (dwordOfFields [(1, 10), (1, 0), (2, 33)]), by decide +kernel⟩,
    ⟨(commanded (onBatch (inDay sendingDay .suspended) fun b => { b with state := .halted, cause := .link, port := .backup, ackWait := false }) 11 33 0), 0x3FFE1800, 0xFF, (dwordOfFields [(1, 11), (1, 0), (2, 33)]), by decide +kernel⟩,
    ⟨(commanded (inDay (onBatch (inDay sendingDay .suspended) fun b => { b with state := .halted, cause := .link, port := .backup, ackWait := false }) .rejected) 11 33 0), 0x3FFE1800, 0xFF, (dwordOfFields [(1, 11), (1, 0), (2, 33)]), by decide +kernel⟩,
    ⟨(commanded openDay 10 33 0), 0x3FFE1800, 0xFF, (dwordOfFields [(1, 10), (1, 0), (2, 33)]), by decide +kernel⟩,
    ⟨(commanded configured 11 33 0), 0x3FFE1800, 0xFF, (dwordOfFields [(1, 11), (1, 0), (2, 33)]), by decide +kernel⟩⟩

theorem test_met_BatchCommandsSendTheirBlock :
    let halted (d : DayState) (n : Nat) : State := onBatch (inDay sendingDay d) fun b =>
      { b with state := .halted, current := n, cause := .link, port := .backup, ackWait := false }
    let word (code : Nat) : Dword := dwordOfFields [(1, code), (1, 0), (2, 33)]
    let gives (s : State) (code : Nat) : Prop := CommandGiven s 0x3FFE1800 0xFF (word code) code
    (gives (commanded (halted .suspended 2) 10 33 0) 10 ∧
      ∃ bytes, blockContent (halted .suspended 2) plan 2 = .payload 2 bytes) ∧
    (gives (commanded (halted .suspended 5) 10 33 0) 10 ∧
      blockContent (halted .suspended 5) plan 5 = .entries 1 2) ∧
    (∀ d ∈ [DayState.suspended, .rejected], gives (commanded (halted d 5) 11 33 0) 11) ∧
    ∃ bytes, blockContent (halted .rejected 5) plan 0 = .payload 1 bytes :=
  ⟨⟨by decide +kernel, _, rfl⟩, by decide +kernel, by decide +kernel, _, rfl⟩

theorem test_met_InterruptedLineReturnsItsEntry :
    (∃ (s : State) (k : Fin 4) (frame : List Byte) (port : Fin 6) (job : Job) (e : Item),
      s.inReset = false ∧
      s.configuration.printerPort k = some port ∧
      s.passbook.printers[k].state = .printing ∧
      s.passbook.printers[k].job = some job ∧
      currentItem s s.passbook.printers[k] = some e ∧
      (s.passbook.printers[k].lineTimer = true ∧ s.passbook.printers[k].awaited = some .print ∧ printerSends frame 0x11 = true ∧ e.reversals = [])) ∧
    (∃ (s : State) (k : Fin 4) (frame : List Byte) (port : Fin 6) (job : Job) (e : Item),
      s.inReset = false ∧
      s.configuration.printerPort k = some port ∧
      s.passbook.printers[k].state = .printing ∧
      s.passbook.printers[k].job = some job ∧
      currentItem s s.passbook.printers[k] = some e ∧
      (s.passbook.printers[k].lineTimer = true ∧ s.passbook.printers[k].awaited = some .print ∧ printerSends frame 0x15 = true ∧ e.summary = false ∧ e.reversals.length = 3)) ∧
    (∃ (s : State) (k : Fin 4) (frame : List Byte) (port : Fin 6) (job : Job) (e : Item),
      s.inReset = false ∧
      s.configuration.printerPort k = some port ∧
      s.passbook.printers[k].state = .printing ∧
      s.passbook.printers[k].job = some job ∧
      currentItem s s.passbook.printers[k] = some e ∧
      (s.passbook.printers[k].lineTimer = true ∧ s.passbook.printers[k].awaited = some .print ∧ printerSends frame 0x13 = true ∧ e.summary = true ∧ e.reversals.length < e.folds)) ∧
    (∃ (s : State) (k : Fin 4) (frame : List Byte) (port : Fin 6) (job : Job) (e : Item),
      s.inReset = false ∧
      s.configuration.printerPort k = some port ∧
      s.passbook.printers[k].state = .printing ∧
      s.passbook.printers[k].job = some job ∧
      currentItem s s.passbook.printers[k] = some e ∧
      (s.passbook.printers[k].lineTimer = true ∧ s.passbook.printers[k].awaited = some .print ∧ printerFrameValid frame = false ∧ e.summary = true ∧ e.reversals.length = e.folds)) :=
  ⟨⟨(onPrinter { setItems openDay ([{ item 5 with printing := true }, item 6]) with journal := { openDay.journal with reservations := [0] } } fun p => { p with state := .printing, job := some ⟨77, 1, 3, 0, some 5⟩, awaited := some .print, lineTimer := true }), 0, (printerFrame 0x11 []), 1, ⟨77, 1, 3, 0, some 5⟩, { item 5 with printing := true }, by decide +kernel⟩,
    ⟨(onPrinter { setItems openDay ([{ item 5 with printing := true, reversals := [⟨7, 3, 500, 900, true⟩, ⟨8, 4, 500, 400, false⟩, ⟨9, 5, 500, -100, true⟩] }, item 6]) with journal := { openDay.journal with reservations := [0] } } fun p => { p with state := .printing, job := some ⟨77, 1, 3, 0, some 5⟩, awaited := some .print, lineTimer := true }), 0, (printerFrame 0x15 []), 1, ⟨77, 1, 3, 0, some 5⟩, { item 5 with printing := true, reversals := [⟨7, 3, 500, 900, true⟩, ⟨8, 4, 500, 400, false⟩, ⟨9, 5, 500, -100, true⟩] }, by decide +kernel⟩,
    ⟨(onPrinter { setItems openDay ([{ item 5 with printing := true, summary := true, folds := 4, amount := 2000, first := 2, reversals := [⟨7, 3, 500, 900, true⟩, ⟨8, 4, 500, 400, false⟩, ⟨9, 5, 500, -100, true⟩] }, item 6]) with journal := { openDay.journal with reservations := [0] } } fun p => { p with state := .printing, job := some ⟨77, 1, 3, 0, some 5⟩, awaited := some .print, lineTimer := true }), 0, (printerFrame 0x13 []), 1, ⟨77, 1, 3, 0, some 5⟩, { item 5 with printing := true, summary := true, folds := 4, amount := 2000, first := 2, reversals := [⟨7, 3, 500, 900, true⟩, ⟨8, 4, 500, 400, false⟩, ⟨9, 5, 500, -100, true⟩] }, by decide +kernel⟩,
    ⟨(onPrinter { setItems openDay ([{ item 5 with printing := true, summary := true, folds := 3, amount := 1500, first := 3, reversals := [⟨7, 3, 500, 900, true⟩, ⟨8, 4, 500, 400, false⟩, ⟨9, 5, 500, -100, true⟩] }, item 6]) with journal := { openDay.journal with reservations := [0] } } fun p => { p with state := .printing, job := some ⟨77, 1, 3, 0, some 5⟩, awaited := some .print, lineTimer := true }), 0, [1, 2], 1, ⟨77, 1, 3, 0, some 5⟩, { item 5 with printing := true, summary := true, folds := 3, amount := 1500, first := 3, reversals := [⟨7, 3, 500, 900, true⟩, ⟨8, 4, 500, 400, false⟩, ⟨9, 5, 500, -100, true⟩] }, by decide +kernel⟩⟩

theorem test_met_LastDoublewordEndsTheRequest :
    (∃ (s : State) (r : FetchRequest) (rest : List FetchRequest),
      s.inReset = false ∧
      nextGrant s.path = some .fetch ∧
      s.path.fetches = r :: rest ∧
      r.left = 1 ∧
      (s.path.queue = [] ∧ r.client = .drop 0)) ∧
    (∃ (s : State) (r : FetchRequest) (rest : List FetchRequest),
      s.inReset = false ∧
      nextGrant s.path = some .fetch ∧
      s.path.fetches = r :: rest ∧
      r.left = 1 ∧
      (s.path.queue = [] ∧ s.posting.reversal = some ⟨5, true, true, List.replicate 7 0⟩)) ∧
    (∃ (s : State) (r : FetchRequest) (rest : List FetchRequest),
      s.inReset = false ∧
      nextGrant s.path = some .fetch ∧
      s.path.fetches = r :: rest ∧
      r.left = 1 ∧
      (s.path.queue = [] ∧ s.posting.reversal = some ⟨5, true, false, List.replicate 8 0⟩)) ∧
    (∃ (s : State) (r : FetchRequest) (rest : List FetchRequest),
      s.inReset = false ∧
      nextGrant s.path = some .fetch ∧
      s.path.fetches = r :: rest ∧
      r.left = 1 ∧
      (s.path.queue = [] ∧ s.journal.runs = [⟨.batch, 5, some 9, some 7, true⟩])) ∧
    (∃ (s : State) (r : FetchRequest) (rest : List FetchRequest),
      s.inReset = false ∧
      nextGrant s.path = some .fetch ∧
      s.path.fetches = r :: rest ∧
      r.left = 1 ∧
      (s.path.queue = [] ∧ s.journal.runs = [⟨.batch, 5, some 9, none, true⟩])) ∧
    (∃ (s : State) (r : FetchRequest) (rest : List FetchRequest),
      s.inReset = false ∧
      nextGrant s.path = some .fetch ∧
      s.path.fetches = r :: rest ∧
      r.left = 1 ∧
      (s.path.queue = [] ∧ s.journal.runs = [⟨.batch, 8, some 9, none, true⟩] ∧ rest = [⟨.day, 0x60000, 4⟩])) ∧
    (∃ (s : State) (r : FetchRequest) (rest : List FetchRequest),
      s.inReset = false ∧
      nextGrant s.path = some .fetch ∧
      s.path.fetches = r :: rest ∧
      r.left = 1 ∧
      (s.path.queue = [] ∧ s.control.image = some (List.replicate 31 0))) ∧
    (∃ (s : State) (r : FetchRequest) (rest : List FetchRequest),
      s.inReset = false ∧
      nextGrant s.path = some .fetch ∧
      s.path.fetches = r :: rest ∧
      r.left = 1 ∧
      (s.path.queue = [] ∧ s.control.image = some (List.replicate 767 0))) ∧
    (∃ (s : State) (r : FetchRequest) (rest : List FetchRequest),
      s.inReset = false ∧
      nextGrant s.path = some .fetch ∧
      s.path.fetches = r :: rest ∧
      r.left = 1 ∧
      (s.path.queue = [] ∧ r.client = .day ∧ s.day.records[0].words.length = 31 ∧ s.day.records[1].words.length = 0)) ∧
    (∃ (s : State) (r : FetchRequest) (rest : List FetchRequest),
      s.inReset = false ∧
      nextGrant s.path = some .fetch ∧
      s.path.fetches = r :: rest ∧
      r.left = 1 ∧
      (s.path.queue = [] ∧ r.client = .day ∧ s.day.records[0].words.length = 511 ∧ s.day.records[1].words.length = 0)) ∧
    (∃ (s : State) (r : FetchRequest) (rest : List FetchRequest),
      s.inReset = false ∧
      nextGrant s.path = some .fetch ∧
      s.path.fetches = r :: rest ∧
      r.left = 1 ∧
      (s.path.queue = [] ∧ r.client = .day ∧ s.day.records[0].words.length = 512 ∧ s.day.records[1].words.length = 31)) ∧
    (∃ (s : State) (r : FetchRequest) (rest : List FetchRequest),
      s.inReset = false ∧
      nextGrant s.path = some .fetch ∧
      s.path.fetches = r :: rest ∧
      r.left = 1 ∧
      (s.path.queue = [] ∧ r.client = .day ∧ s.day.records[0].words.length = 512 ∧ s.day.records[1].words.length = 511)) :=
  ⟨⟨(onPath configured fun p => { p with fetches := [⟨.drop 0, 0x20138, 1⟩], fetchWaits := true }), ⟨.drop 0, 0x20138, 1⟩, [], by decide +kernel⟩,
    ⟨(onPath { openDay with posting := { openDay.posting with reversal := some ⟨5, true, true, List.replicate 7 0⟩ } } fun p => { p with fetches := [⟨.posting, 0x50038, 1⟩], fetchWaits := true }), ⟨.posting, 0x50038, 1⟩, [], by decide +kernel⟩,
    ⟨(onPath { openDay with posting := { openDay.posting with reversal := some ⟨5, true, false, List.replicate 8 0⟩ } } fun p => { p with fetches := [⟨.posting, 0x50038, 1⟩], fetchWaits := true }), ⟨.posting, 0x50038, 1⟩, [], by decide +kernel⟩,
    ⟨(onPath { openDay with journal := { openDay.journal with runs := [⟨.batch, 5, some 9, some 7, true⟩], serving := some .batch } } fun p => { p with fetches := (⟨.journal, 0x50038, 1⟩ :: []), fetchWaits := true }), ⟨.journal, 0x50038, 1⟩, [], by decide +kernel⟩,
    ⟨(onPath { openDay with journal := { openDay.journal with runs := [⟨.batch, 5, some 9, none, true⟩], serving := some .batch } } fun p => { p with fetches := (⟨.journal, 0x50038, 1⟩ :: []), fetchWaits := true }), ⟨.journal, 0x50038, 1⟩, [], by decide +kernel⟩,
    ⟨(onPath { openDay with journal := { openDay.journal with runs := [⟨.batch, 8, some 9, none, true⟩], serving := some .batch } } fun p => { p with fetches := (⟨.journal, 0x50038, 1⟩ :: [⟨.day, 0x60000, 4⟩]), fetchWaits := true }), ⟨.journal, 0x50038, 1⟩, [⟨.day, 0x60000, 4⟩], by decide +kernel⟩,
    ⟨(onPath { configured with control := { configured.control with image := some (List.replicate 31 0) } } fun p => { p with fetches := [⟨.control, 0x3FFE0000, 1⟩], fetchWaits := true }), ⟨.control, 0x3FFE0000, 1⟩, [], by decide +kernel⟩,
    ⟨(onPath { configured with control := { configured.control with image := some (List.replicate 767 0) } } fun p => { p with fetches := [⟨.control, 0x3FFE0000, 1⟩], fetchWaits := true }), ⟨.control, 0x3FFE0000, 1⟩, [], by decide +kernel⟩,
    ⟨(onPath { configured with day := { configured.day with records := #v[⟨List.replicate 31 0, false⟩, ⟨List.replicate 0 0, false⟩] } } fun p => { p with fetches := [⟨.day, 0x100000, 1⟩], fetchWaits := true }), ⟨.day, 0x100000, 1⟩, [], by decide +kernel⟩,
    ⟨(onPath { configured with day := { configured.day with records := #v[⟨List.replicate 511 0, false⟩, ⟨List.replicate 0 0, false⟩] } } fun p => { p with fetches := [⟨.day, 0x100000, 1⟩], fetchWaits := true }), ⟨.day, 0x100000, 1⟩, [], by decide +kernel⟩,
    ⟨(onPath { configured with day := { configured.day with records := #v[⟨List.replicate 512 0, false⟩, ⟨List.replicate 31 0, false⟩] } } fun p => { p with fetches := [⟨.day, 0x100000, 1⟩], fetchWaits := true }), ⟨.day, 0x100000, 1⟩, [], by decide +kernel⟩,
    ⟨(onPath { configured with day := { configured.day with records := #v[⟨List.replicate 512 0, false⟩, ⟨List.replicate 511 0, false⟩] } } fun p => { p with fetches := [⟨.day, 0x100000, 1⟩], fetchWaits := true }), ⟨.day, 0x100000, 1⟩, [], by decide +kernel⟩⟩

theorem test_met_CommandsRequestTheirData :
    (∃ (s : State) (addr : Nat) (mask : ByteMask) (data : Dword),
      s.path.fetches = [] ∧
      (CommandGiven s addr mask data 1 ∧ newestEntry (complete (commandTaken s addr mask data) .inProgress 0).path.queue (windowBase s 0) = none ∧ s.day.state = .setup ∧ s.day.settlement = none)) ∧
    (∃ (s : State) (addr : Nat) (mask : ByteMask) (data : Dword),
      s.path.fetches = [] ∧
      (CommandGiven s addr mask data 2 ∧ newestEntry (complete (commandTaken s addr mask data) .inProgress 0).path.queue (windowBase s 6) = none ∧ s.day.state = .setup ∧ s.day.settlement = none ∧ s.control.config ≠ none ∧ laneField s.control.arguments[0] 0 4 = 20240506 ∧ laneField s.control.arguments[1] 0 4 < 172800 ∧ laneField s.control.arguments[2] 0 1 = 0)) ∧
    (∃ (s : State) (addr : Nat) (mask : ByteMask) (data : Dword),
      s.path.fetches = [] ∧
      (CommandGiven s addr mask data 3 ∧ newestEntry (complete (commandTaken s addr mask data) .inProgress 0).path.queue (windowBase s 6) = none ∧ s.day.state = .setup ∧ s.control.config ≠ none ∧ laneField s.control.arguments[0] 0 4 = 172799)) ∧
    (∃ (s : State) (addr : Nat) (mask : ByteMask) (data : Dword),
      s.path.fetches = [] ∧
      (CommandGiven s addr mask data 14 ∧ newestEntry (complete (commandTaken s addr mask data) .inProgress 0).path.queue (ringAddress s (ringPosition s 1)) = none ∧ s.day.state = .opened ∧ s.journal.present = true ∧ s.journal.runs = [] ∧ s.journal.serving = none ∧ journalUnitFree s = true)) :=
  ⟨⟨(commanded configured 1 33 0), 0x3FFE1800, 0xFF, (dwordOfFields [(1, 1), (1, 0), (2, 33)]), by decide +kernel⟩,
    ⟨(commanded configured 2 33 20240506), 0x3FFE1800, 0xFF, (dwordOfFields [(1, 2), (1, 0), (2, 33)]), by decide +kernel⟩,
    ⟨(commanded configured 3 33 172799), 0x3FFE1800, 0xFF, (dwordOfFields [(1, 3), (1, 0), (2, 33)]), by decide +kernel⟩,
    ⟨(commanded openDay 14 33 0), 0x3FFE1800, 0xFF, (dwordOfFields [(1, 14), (1, 0), (2, 33)]), by decide +kernel⟩⟩

theorem test_met_DeferredRunMakesItsRequest :
    (∃ (s : State) (r : Run),
      s.inReset = false ∧
      s.path.fetches = [] ∧
      s.journal.runs = [r] ∧
      s.journal.serving = none ∧
      s.posting.reversal = none ∧
      journalUnitFree s = true ∧
      (r.chain = none)) ∧
    (∃ (s : State) (r : Run),
      s.inReset = false ∧
      s.path.fetches = [] ∧
      s.journal.runs = [r] ∧
      s.journal.serving = none ∧
      s.posting.reversal = none ∧
      journalUnitFree s = true ∧
      (r.chain ≠ none ∧ r.last = none)) :=
  ⟨⟨{ openDay with journal := { openDay.journal with runs := [⟨.batch, 5, some 9, none, false⟩] } }, ⟨.batch, 5, some 9, none, false⟩, by decide +kernel⟩,
    ⟨{ openDay with journal := { openDay.journal with runs := [⟨.replay, 1023, none, some 7, false⟩] } }, ⟨.replay, 1023, none, some 7, false⟩, by decide +kernel⟩⟩

theorem test_met_VisitTakesItsRow :
    (∃ (s : State) (d : Fin 2) (p : Fin 16) (rest : List (Fin 16)) (n : Nat),
      s.inReset = false ∧
      s.path.fetches = [] ∧
      s.screen.controllers[d].mode = .cycling ∧
      s.screen.controllers[d].exchange = none ∧
      s.configuration.linePositions d = p :: rest ∧
      s.screen.positions[p].state = .present ∧
      s.screen.positions[p].bell = false ∧
      s.screen.positions[p].echo = false ∧
      rowToSend s.screen.positions[p].dirty = some n ∧
      newestEntry s.path.queue (windowBase s 2 + p.val * 0x1000 + n * 0xA0) = none ∧
      (n = 23)) ∧
    (∃ (s : State) (d : Fin 2) (p : Fin 16) (rest : List (Fin 16)) (n : Nat),
      s.inReset = false ∧
      s.path.fetches = [] ∧
      s.screen.controllers[d].mode = .cycling ∧
      s.screen.controllers[d].exchange = none ∧
      s.configuration.linePositions d = p :: rest ∧
      s.screen.positions[p].state = .present ∧
      s.screen.positions[p].bell = false ∧
      s.screen.positions[p].echo = false ∧
      rowToSend s.screen.positions[p].dirty = some n ∧
      newestEntry s.path.queue (windowBase s 2 + p.val * 0x1000 + n * 0xA0) = none ∧
      (n = 3)) :=
  ⟨⟨(onLine0 (onTerminal openDay fun q => { q with dirty := 0x800001 }) fun c => { c with mode := .cycling }), 0, 0, [1], 23, by decide +kernel⟩,
    ⟨(onLine0 (onTerminal openDay fun q => { q with dirty := 0x18 }) fun c => { c with mode := .cycling }), 0, 0, [1], 3, by decide +kernel⟩⟩

theorem test_met_RebuiltRecordCarriesNoMark :
    (∃ (s : State) (p : List Byte) (e : List Byte) (h : Fin 17) (k : Fin 4),
      s.day.replay.last ≠ 0 ∧
      s.day.replay.posting = some p ∧
      (entryFields e).kind = 3 ∧
      (entryFields e).code = (entryFields p).code ∧
      ((∃ l ∈ (replayMovement s.configuration s.day.replay (entryFields p) e).legs, l.holder = some h ∧ l.currency = k) ∧ s.configuration.holderActive h = true ∧ s.configuration.hasCurrency k = true ∧ (recordOf s.totals h k).faulty = true)) ∧
    (∃ (s : State) (p : List Byte) (e : List Byte) (h : Fin 17) (k : Fin 4),
      s.day.replay.last ≠ 0 ∧
      s.day.replay.posting = some p ∧
      (entryFields e).kind = 3 ∧
      (entryFields e).code = (entryFields p).code ∧
      (¬(∃ l ∈ (replayMovement s.configuration s.day.replay (entryFields p) e).legs, l.holder = some h ∧ l.currency = k) ∧ (recordOf s.totals h k).faulty = false)) :=
  ⟨⟨{ (onReplay fun r => { r with posting := some (journaled 2 { kind := 2, code := 1, holderA := 1, amountA := 15, flags := 0 }) }) with totals := setRecord resetTotals 1 0 { zeroRecord with faulty := true } }, (journaled 2 { kind := 2, code := 1, holderA := 1, amountA := 15, flags := 0 }), (journaled 3 { kind := 3, code := 1 }), 1, 0, by decide +kernel⟩,
    ⟨{ (onReplay fun r => { r with posting := some (journaled 2 { kind := 2, code := 1, holderA := 1, amountA := 15, flags := 0 }) }) with totals := setRecord resetTotals 1 0 { zeroRecord with faulty := true } }, (journaled 2 { kind := 2, code := 1, holderA := 1, amountA := 15, flags := 0 }), (journaled 3 { kind := 3, code := 1 }), 2, 0, by decide +kernel⟩⟩

/-! ### The hypotheses of the claims about layouts, lines, checks and the later widenings are met -/

theorem test_met_PendingDoublewordSuppressesItsWrite :
    ∃ (s : State) (addr : Nat) (mask : ByteMask) (data : Dword), WriteGranted s addr mask data ∧
      (∃ e ∈ s.path.queue, e.addr = addr) ∧ windowAt s.path addr = none :=
  ⟨onPath (waits configured 0x9000 0x0F 5) fun p => { p with queue := entries 3 }, 0x9000, 0x0F, 5,
    by decide +kernel⟩

theorem test_met_ReversalBufferHoldsTheOriginal :
    ∀ wrapped : Bool, ∃ r : ReversalFetch, r.words.length = 9 ∧ r.wrapped = wrapped :=
  fun wrapped => ⟨⟨5, true, wrapped, List.replicate 9 7⟩, rfl, rfl⟩

theorem test_met_MovementIsTheSlots :
    ∀ reversal ∈ [none, some (⟨5, true, true, []⟩ : ReversalFetch)],
      ∃ (s : State) (f : SlotFields), f.kind = 7 ∧ s.posting.reversal = reversal :=
  fun reversal _ => ⟨{ openDay with posting := { openDay.posting with reversal := reversal } },
    slotFields (cashBuffer 7 9), by decide +kernel, rfl⟩

theorem test_met_HeadWaitsForItsRoomAndFetch :
    (∃ s : State, s.posting.queue = []) ∧
    ∃ (s : State) (e : SubmitEntry), s.posting.queue = [e] ∧ canJudge s = true :=
  ⟨⟨openDay, rfl⟩, ⟨submitted 1 9, ⟨0, true⟩, rfl, by decide +kernel⟩⟩

theorem test_met_LegsReadTheirRecords :
    ∀ form : Fin 7, ∃ (m : Movement) (a b : Fin 17) (k j : Fin 4), m.form = form.val ∧ m.holderA = a.val ∧
      m.holderB = b.val ∧ m.currencyA = k.val ∧ m.currencyB = j.val :=
  fun form => ⟨{ cashMovement 1 with form := form.val, holderB := 16, currencyB := 3 }, 1, 16, 0, 3,
    rfl, rfl, rfl, rfl, rfl⟩

theorem test_met_PostingEntryCarriesTheSlot :
    (∃ m : Movement, m.form ≠ 6) ∧
    ∃ (c : Configuration) (t : Totals) (m : Movement) (h : Fin 17) (k : Fin 4), m.form = 6 ∧
      m.holderA = h.val ∧ m.currencyA = k.val ∧ mixFlag c t m = true :=
  ⟨⟨cashMovement 1, by decide +kernel⟩,
    branch, setRecord resetTotals 1 0 { zeroRecord with counts := 5 :: List.replicate 11 0, balance := 5 },
    { cashMovement 6 with breakdownA := 0 :: 1 :: List.replicate 10 0 }, 1, 0, by decide +kernel⟩

theorem test_met_ItemsAreFoundAndSided :
    locateItem [item 3] 77 4 = none ∧ locateItem [item 3] 77 3 = some (item 3) := by decide +kernel

theorem test_met_RecordFailsByEachTest :
    let t := setRecord (setRecord (setRecord resetTotals 1 0 { zeroRecord with faulty := true }) 1 1
      { zeroRecord with check := 0 }) 2 0
      { zeroRecord with balance := 1, check := checkWord (List.replicate 12 0) 1 }
    [(1, 0), (1, 1), (2, 0), (2, 1)].map (failsExamination branch t) = [true, true, true, false] := by
  decide +kernel

theorem test_met_ResultDoublewordHoldsTheVerdict :
    ∃ code reason flags number : Nat, code < 256 ∧ reason < 256 ∧ flags < 256 ∧ number < 2 ^ 32 :=
  ⟨255, 255, 255, 0xFFFFFFFF, by decide +kernel⟩

theorem test_met_BreakdownCountsStandAtTheirOffsets :
    ∃ a b : List Nat, a.length = 12 ∧ b.length = 12 :=
  ⟨List.replicate 12 65535, List.replicate 12 0, rfl, rfl⟩

theorem test_met_ChainCoversTheContent : ∃ content : List Byte, content.length = 60 :=
  ⟨List.replicate 60 1, rfl⟩

theorem test_met_FieldsStandBehindOneAnother :
    ∃ (before after : List (Nat × Nat)) (n value : Nat),
      ((before ++ (n, value) :: after).map (·.1)).sum ≤ 8 :=
  ⟨[(2, 7), (1, 300)], [(4, 9)], 1, 5, by decide +kernel⟩

theorem test_met_MirrorNumbers :
    [17, 32, 39, 64, 94, 96, 99, 256, 788].all (mirrorNumbers.contains ·) = true ∧
      [18, 31, 40, 63, 71, 95, 100, 255, 277, 800].any (mirrorNumbers.contains ·) = false := by
  decide +kernel

theorem test_met_ConfigurationIsReadFromItsFields :
    branch.dropPort 0 = some 0 ∧ branch.dropPort 1 = none ∧ branch.printerPort 0 = some 1 ∧
      branch.headOfficePort .backup = some 3 ∧ branch.linePositions 0 = [0, 1] := by decide +kernel

theorem test_met_RecordsAreLoadedFromTheirCounts :
    (branch.holderActive 2 = true ∧ branch.hasCurrency 1 = true) ∧ branch.holderActive 16 = false ∧
      branch.hasCurrency 3 = false := by decide +kernel

theorem test_met_FetchedCopyIsMarkedAtItsEnd :
    ∃ b : RecordBuffer, b.words.length = 511 := ⟨⟨List.replicate 511 0, false⟩, by decide +kernel⟩

theorem test_met_LockEndsTheLineCheck :
    ∃ (s : State) (d : Fin 2) (p x : Fin 16) (pattern : List Byte), s.inReset = false ∧
      s.screen.controllers[d].mode = .learning ∧
      s.screen.controllers[d].exchange = some ⟨p, .assign, .awaiting⟩ ∧ s.screen.positions[p].address ≤ 14 ∧
      (∀ y ∈ s.configuration.linePositions d, y = p ∨ y ∈ s.screen.controllers[d].acknowledged) ∧
      x ∈ s.configuration.linePositions d ∧ s.control.lineCheck = some (x, pattern) ∧
      s.screen.positions[x].echo = true :=
  ⟨{ onLine0 (onTerminal openDay fun q => { q with echo := true }) fun c => { c with
        mode := .learning, current := some 1, exchange := some ⟨1, .assign, .awaiting⟩, acknowledged := [0] } with
      control := { openDay.control with lineCheck := some (0, List.replicate 16 1) } },
    0, 1, 0, List.replicate 16 1, by decide +kernel⟩

theorem test_met_PrintedLineHoldsItsColumns :
    branch.hasCurrency (item 5).currency = true ∧
      printedLine branch 20240506 (item 5) =
        "060524 DEP          5.00          15.00 ".toList := by decide +kernel

theorem test_met_NoticeReachesTheBoundPositions :
    let message (p : Fin 16) := (notice openDay 0 "FAULT".toList).screen.positions[p].message
    (branch.positions[(1 : Fin 16)].enabled = 1 ∧ branch.positions[(1 : Fin 16)].printer = 0) ∧
      branch.positions[(15 : Fin 16)].enabled ≠ 1 ∧ message 1 = ⟨"PRINTER 0 FAULT".toList, false⟩ ∧
      message 15 = ⟨[], false⟩ := by decide +kernel

theorem test_met_PrinterFrameIsValid :
    ∃ (kind : Byte) (payload : List Byte), kind = 0x10 ∧ payload.length = 10 ∧
      printerFrameValid (printerFrame kind payload) = true :=
  ⟨0x10, leBytes 8 77 ++ [1, 3], by decide +kernel⟩

theorem test_met_FrameIsTakenWhileAwaited :
    frameTaken sendingDay .primary (answer 0x81 2) 0x81 = true ∧
      frameTaken sendingDay .backup (answer 0x81 2) 0x81 = false := by decide +kernel

end Sys2Proof.Machine.Tests
end

