-- ==== Sys2Proof/Proofs/DrawerSpans.lean ====
section
/-! SUPPORT. The spans of the drawers' timers follow the configuration in force (R82, R83, R88, R90, R91). -/

namespace Sys2Proof.Machine

/-! ### The configuration in force and its spans -/

theorem configuration_of_inForce {s : State} {c : Configuration} (hc : s.control.config = some c) :
    s.configuration = c := by
  simp [State.configuration, hc]

/-- The release window is its field held to 15 s at most, 0 standing for 5 s (R88). -/
theorem releaseSpan_eq (c : Configuration) :
    c.releaseSpan = if c.release = 0 then 5 else min c.release 15 := by
  unfold Configuration.releaseSpan
  split_ifs <;> omega

/-- The overdue limit is its field held to 10 s at least and 600 s at most, 0 standing for 60 s (R88). -/
theorem overdueSpan_eq (c : Configuration) :
    c.overdueSpan = if c.overdue = 0 then 60 else max 10 (min c.overdue 600) := by
  unfold Configuration.overdueSpan
  split_ifs <;> omega

/-- Mirror doubleword 3 begins with the two spans in use (R88, 13.6). -/
theorem mirrorFields_spans {s : State} {c : Configuration} (hc : s.control.config = some c) :
    (mirrorFields s 3).take 2 = [(2, c.releaseSpan), (2, c.overdueSpan)] := by
  rw [mirrorFields_part s 3 (by decide)]
  simp [partFields, hc, configuration_of_inForce hc]

/-- Each case of R88 is one interval of a field. -/
theorem spansAreReadFromTheirFields : Claims.SpansAreReadFromTheirFields := by
  intro c
  rw [releaseSpan_eq, overdueSpan_eq]
  refine ⟨?_, ?_, ?_, ?_, ?_, ?_, ?_, fun s hc => ?_⟩
  case refine_8 => rw [mirrorFields_spans hc, releaseSpan_eq, overdueSpan_eq]
  all_goals
    intros
    split_ifs <;> omega

/-! ### The drawers after a command -/

theorem conclude_drawers (before after : State) : (conclude before after).drawers = after.drawers :=
  congrArg (fun v => v.1.drawers) (view_conclude before after)

/-- The end of a step leaves the drawers as the command's body left them. -/
theorem exec_drawers_of_running {c : Instr} {s : State} {body : State → State} (hr : s.inReset = false)
    (hc : exec c s = running s body) : ∃ t, exec c s = .next t ∧ t.drawers = (body s).drawers :=
  ⟨conclude s (body s), by rw [hc, running, if_neg (by simp [hr])], conclude_drawers s (body s)⟩

/-! ### Releases (R82) -/

theorem releaseDrawer_getElem (s : State) (h : Fin 17) :
    (releaseDrawer s h).drawers[h] = releasedDrawer s.configuration s.drawers[h] :=
  setDrawer_getElem s h _

theorem releasedDrawer_window (c : Configuration) {d : Drawer} (hs : d.state = .locked ∨ d.state = .released) :
    (releasedDrawer c d).window = some c.releaseSpan := by
  rcases hs with hs | hs <;> simp [releasedDrawer, hs]

theorem releasedDrawer_limit (c : Configuration) {d : Drawer} (hs : d.state = .opened ∨ d.state = .overdue) :
    (releasedDrawer c d).limit = some c.overdueSpan := by
  rcases hs with hs | hs <;> simp [releasedDrawer, hs]

/-- The timer that a release starts is the one its drawer's state asks for, at the span in force. -/
theorem releaseStartsTheSpanInForce : Claims.ReleaseStartsTheSpanInForce := by
  intro s c h hc
  simp only [releaseDrawer_getElem, configuration_of_inForce hc]
  exact ⟨releasedDrawer_window c, releasedDrawer_limit c⟩

/-! ### Openings (R83, R85, R90) -/

/-- A drawer stands OPEN with its limit started at a span and its window stopped. -/
def Drawer.OpenFor (d : Drawer) (span : Nat) : Prop :=
  d.state = .opened ∧ d.window = none ∧ d.limit = some span

theorem openedDrawer_openFor (d : Drawer) (span : Nat) : (openedDrawer d span).OpenFor span := ⟨rfl, rfl, rfl⟩

/-- A sensed open opens a LOCKED drawer and a RELEASED one. -/
theorem takeSensedOpen_openFor {s : State} {h : Fin 17}
    (hs : s.drawers[h].state = .locked ∨ s.drawers[h].state = .released) :
    (takeSensedOpen s h).drawers[h].OpenFor s.configuration.overdueSpan := by
  rcases hs with hs | hs
  · simp only [takeSensedOpen, hs, drawerEvent, eventEntry_drawers, raiseAlert_drawers, setDrawer_getElem]
    exact ⟨rfl, rfl, rfl⟩
  · simp only [takeSensedOpen, hs, setDrawer_getElem]
    exact openedDrawer_openFor _ _

/-- An open first determination with a settle pending opens a LOCKED drawer and a RELEASED one. -/
theorem takeDetermination_openFor {s : State} {h : Fin 17} (hp : s.drawers[h].settle = true)
    (hs : s.drawers[h].state = .locked ∨ s.drawers[h].state = .released) :
    (takeDetermination s h .opened).drawers[h].OpenFor s.configuration.overdueSpan := by
  rcases hs with hs | hs <;>
    simp only [takeDetermination, hp, hs, Bool.not_true, Bool.false_eq_true, if_false, setDrawer_getElem,
      openedDrawer_openFor]

/-- The third open sample in a row opens a LOCKED drawer and a RELEASED one of an active holder, whether it is a
sensed open or settles the drawer. -/
theorem takeSample_openFor {s : State} {h : Fin 17} (ha : s.configuration.holderActive h = true)
    (hl : s.drawers[h].runLevel = .opened) (hn : s.drawers[h].runLength = 2)
    (hd : s.drawers[h].sense = some .closed ∨ s.drawers[h].sense = none ∧ s.drawers[h].settle = true)
    (hs : s.drawers[h].state = .locked ∨ s.drawers[h].state = .released) :
    (takeSample s h .opened).drawers[h].OpenFor s.configuration.overdueSpan := by
  have hother : s.drawers[h].sense ≠ some .opened := by
    rcases hd with hd | ⟨hd, -⟩ <;> rw [hd] <;> decide
  rcases hd with hd | ⟨hd, hp⟩
  · simp only [takeSample, sampled_completes hother hl hn, ha, hd, Bool.not_true, Bool.false_eq_true, if_false,
      Option.isNone_some]
    exact takeSensedOpen_openFor (by simpa only [setDrawer_getElem] using hs)
  · simp only [takeSample, sampled_completes hother hl hn, ha, hd, Bool.not_true, Bool.false_eq_true, if_false,
      Option.isNone_none, if_true]
    exact takeDetermination_openFor (by simpa only [setDrawer_getElem] using hp)
      (by simpa only [setDrawer_getElem] using hs)

/-- The sample that completes an opening starts the limit at the span in force. -/
theorem openingStartsTheSpanInForce : Claims.OpeningStartsTheSpanInForce := by
  intro s c h hr hc ha hl hn hd hs
  obtain ⟨t, ht, hdrawers⟩ := exec_drawers_of_running hr (exec_drawerSenseSample h .opened s)
  obtain rfl := configuration_of_inForce hc
  refine ⟨t, ht, ?_⟩
  rw [hdrawers]
  exact takeSample_openFor ha hl hn hd hs

/-! ### Drawers set from the sense (R90, R91) -/

/-- What takes effect sets the drawers from the sense, whatever else its event does to the part. -/
theorem takeEffect_drawers (s : State) (c : Configuration) :
    (takeEffect s c).drawers = configuredDrawers c s.drawers := by
  obtain ⟨e, hbefore, hafter⟩ := takeEffect_shown s c
  have hkept : e.drawers = s.drawers := congrArg (fun v => v.2.2.2.1) hbefore
  calc (takeEffect s c).drawers
      = (withConfiguration e c).drawers := congrArg (fun v => v.2.2.2.1) hafter
    _ = configuredDrawers c s.drawers := congrArg (configuredDrawers c) hkept

/-- No window runs in a drawer set from its sense, and its limit runs, for the new span, only where it is sensed
open. -/
theorem settledDrawer_timers (c : Configuration) (h : Fin 17) (d : Drawer) :
    let sensed := c.holderActive h = true ∧ d.sense = some .opened
    (settledDrawer c h d).window = none ∧
      (settledDrawer c h d).state = (if sensed then .opened else .locked) ∧
      (settledDrawer c h d).limit = if sensed then some c.overdueSpan else none := by
  unfold settledDrawer
  cases ha : c.holderActive h
  · simp [lockedDrawer]
  · rcases hs : d.sense with _ | _ | _ <;> simp [lockedDrawer]

/-- A configuration that takes effect and a resumed day leave no timer on an old span. -/
theorem noTimerRunsOnAnOldSpan : Claims.NoTimerRunsOnAnOldSpan := by
  constructor
  · intro s c hr hp hheld
    obtain ⟨t, ht, hdrawers⟩ := exec_drawers_of_running hr (exec_installWindowMap s)
    refine ⟨t, ht, hdrawers.trans ?_⟩
    simpa [hp, hheld] using takeEffect_drawers s c
  · intro c ds set hset h
    simp only [List.mem_cons, List.not_mem_nil, or_false] at hset
    rcases hset with rfl | rfl
    · simpa [configuredDrawers] using settledDrawer_timers c h ds[h]
    · simp [resumedDrawers_eq]

/-- Settles O26: the four claims, each from what one operation does to one drawer. -/
theorem spansFollowTheConfiguration : Obligations.SpansFollowTheConfiguration :=
  ⟨spansAreReadFromTheirFields, releaseStartsTheSpanInForce, openingStartsTheSpanInForce,
    noTimerRunsOnAnOldSpan⟩

end Sys2Proof.Machine
end

