-- ==== Sys2Proof/Proofs/MonitorMatch.lean ====
section
/-! SUPPORT. When a leg matches a monitor: the leg is watched and the comparison holds (R97). -/

namespace Sys2Proof.Machine

section

variable {d : MonitorSetup} {l : WatchedLeg}

/-! ### The watch (R97, the first four bullets) -/

/-- The monitor watches the leg: all of R97 but the comparison. -/
def Watches (d : MonitorSetup) (l : WatchedLeg) : Prop :=
  d.enabled = 1 ∧ flagSet d.mask (l.kind - 1) = true ∧
    (d.holder = 0xFF ∨ ∃ h, l.holder = some h ∧ d.holder = h.val) ∧ d.currency = l.currency.val

/-- A holder field is the leg's where the leg has a holder of that number. -/
theorem holderNumber_eq_some_iff {holder : Option (Fin 17)} {n : Nat} :
    holder.map (·.val) = some n ↔ ∃ h, holder = some h ∧ n = h.val :=
  Option.map_eq_some_iff.trans (exists_congr fun _ => and_congr_right' eq_comm)

/-- A leg matches where it is watched and the comparison holds; kind codes begin at 1, the mask's bits at 0. -/
theorem legMatches_iff (hkind : 1 ≤ l.kind) :
    legMatches d l = true ↔ Watches d l ∧ comparisonHolds d l = true := by
  simp only [legMatches, Watches, Bool.and_eq_true, Bool.or_eq_true, beq_iff_eq, decide_eq_true_eq,
    holderNumber_eq_some_iff, hkind, and_true, and_assoc]

/-- Where the comparison comes to `p`, a match comes to the watch and `p`. -/
theorem legMatches_iff_of_comparison {p : Prop} (hkind : 1 ≤ l.kind)
    (hcomparison : comparisonHolds d l = true ↔ p) :
    legMatches d l = true ↔ Watches d l ∧ p :=
  (legMatches_iff hkind).trans (and_congr_right fun _ => hcomparison)

/-- Where the comparison fails there is no match, watched or not. -/
theorem legMatches_eq_false (hcomparison : comparisonHolds d l = false) : legMatches d l = false := by
  simp [legMatches, hcomparison]

/-! ### The comparison (R97, the table) -/

/-- The AMOUNT basis compares the leg's amount, whatever its holder and the monitor's mode. -/
theorem comparisonHolds_amount (hbasis : d.basis = 0) :
    comparisonHolds d l = true ↔
      if d.compare = 0 then (d.threshold : Int) ≤ l.amount else l.amount < (d.threshold : Int) := by
  by_cases hcompare : d.compare = 0 <;> simp [comparisonHolds, hbasis, hcompare]

/-- The BALANCE basis compares nothing of a leg without a holder. -/
theorem comparisonHolds_balance_none (hbasis : d.basis = 1) (hholder : l.holder = none) :
    comparisonHolds d l = false := by
  simp [comparisonHolds, hbasis, hholder]

/-- Mode EACH of the BALANCE basis compares the balance after the posting. -/
theorem comparisonHolds_each {h : Fin 17} (hbasis : d.basis = 1) (hholder : l.holder = some h)
    (hmode : d.mode = 0) :
    comparisonHolds d l = true ↔
      if d.compare = 0 then d.threshold ≤ l.after else l.after < d.threshold := by
  by_cases hcompare : d.compare = 0 <;> simp [comparisonHolds, hbasis, hholder, hmode, hcompare]

/-- Mode CROSSING of the BALANCE basis asks for a move onto the watched side. -/
theorem comparisonHolds_crossing {h : Fin 17} (hbasis : d.basis = 1) (hholder : l.holder = some h)
    (hmode : d.mode = 1) :
    comparisonHolds d l = true ↔
      if d.compare = 0 then l.before < d.threshold ∧ d.threshold ≤ l.after
      else d.threshold ≤ l.before ∧ l.after < d.threshold := by
  by_cases hcompare : d.compare = 0 <;> simp [comparisonHolds, hbasis, hholder, hmode, hcompare]

end

/-! ### The rule -/

/-- Settles O31: each cell of R97's table is the watch together with that cell's comparison. -/
theorem monitorLegMatches : Obligations.MonitorLegMatches := by
  intro d l hkind _
  refine ⟨fun hbasis hcompare => ?amountAbove, fun hbasis hcompare => ?amountBelow,
    fun hbasis hholder => legMatches_eq_false (comparisonHolds_balance_none hbasis hholder),
    fun h hbasis hholder => ⟨fun hmode hcompare => ?eachAbove, fun hmode hcompare => ?eachBelow,
      fun hmode hcompare => ?crossingAbove, fun hmode hcompare => ?crossingBelow⟩⟩
  case amountAbove | amountBelow =>
    exact legMatches_iff_of_comparison hkind (by simp [comparisonHolds_amount hbasis, hcompare])
  case eachAbove | eachBelow =>
    exact legMatches_iff_of_comparison hkind (by simp [comparisonHolds_each hbasis hholder hmode, hcompare])
  case crossingAbove | crossingBelow =>
    exact legMatches_iff_of_comparison hkind
      (by simp [comparisonHolds_crossing hbasis hholder hmode, hcompare])

end Sys2Proof.Machine
end

