-- ==== Sys2Proof/Proofs/ItemAdmission.lean ====
section
/-! SUPPORT. How the Unprinted Item Table admits an item, by what the account's summary does with it (R145). -/

namespace Sys2Proof.Machine

section

variable {items : List Item} {i e : Item}

/-! ### What the cases ask -/

/-- R145's condition of case 1: the summary is WAITING, open and in the item's currency. -/
def Takes (e i : Item) : Prop := e.printing = false ∧ e.isOpen = true ∧ e.currency = i.currency

/-- The condition of case 1 as the table computes it. -/
theorem canFold_iff_takes : (!e.printing && e.isOpen && e.currency == i.currency) = true ↔ Takes e i := by
  simp only [Takes, Bool.and_eq_true, Bool.not_eq_true', beq_iff_eq, and_assoc]

@[simp] theorem hasFreeEntry_iff : hasFreeEntry items = true ↔ items.length < 192 :=
  decide_eq_true_iff

/-- The table with the summary's open mark closed. -/
def closeSummary (items : List Item) (e : Item) : List Item :=
  updateItem items e.key fun e => { e with isOpen := false }

/-! ### The summary takes the item, does not take it, or is not there -/

/-- Case 1 asks neither for a free entry nor for fewer than five ordinary ones. -/
theorem admitItem_of_takes (hsummary : summaryOf items i.account = some e) (htakes : Takes e i) :
    admitItem items i = (updateItem items e.key fun e => foldItem e i, .folded) := by
  simp [admitItem, hsummary, canFold_iff_takes.mpr htakes]

/-- A summary that does not take the item is closed, whether case 3 or case 4 follows. -/
theorem admitItem_of_not_takes (hsummary : summaryOf items i.account = some e) (htakes : ¬Takes e i) :
    admitItem items i =
      if ordinaryCount items i.account < 5 ∧ items.length < 192 then (closeSummary items e ++ [i], .entered)
      else (closeSummary items e, .untracked) := by
  have hfold : (!e.printing && e.isOpen && e.currency == i.currency) = false :=
    Bool.eq_false_iff.mpr fun h => htakes (canFold_iff_takes.mp h)
  simp [admitItem, hsummary, hfold, closeSummary]

/-- Without a summary the free entry is asked first; the ordinary count then tells case 3 from case 2. -/
theorem admitItem_of_no_summary (hsummary : summaryOf items i.account = none) :
    admitItem items i =
      if items.length < 192 then
        if ordinaryCount items i.account < 5 then (items ++ [i], .entered)
        else (items ++ [newSummary i], .entered)
      else (items, .untracked) := by
  by_cases hfree : items.length < 192 <;> simp [admitItem, hsummary, hfree]

end

/-! ### The rule -/

/-- Settles O54: each case of R145 is one branch of the three equations above. That an account has at most five
ordinary entries is not needed, since every case that asks for their count names it. -/
theorem itemIsAdmittedByTheFirstCase : Obligations.ItemIsAdmittedByTheFirstCase := by
  intro items i _
  refine ⟨fun e hsummary htakes => admitItem_of_takes hsummary htakes,
    fun hsummary hfive hfree => ?becomesSummary, fun hsummary hfew hfree => ?becomesOrdinary,
    fun e hsummary htakes hfew hfree => ?ordinaryBesideClosed, fun hsummary hfull => ?tableIsFull,
    fun e hsummary htakes hno => ?untrackedBesideClosed, fun _ _ _ _ _ _ => ⟨rfl, rfl, rfl⟩⟩
  case becomesSummary =>
    rw [admitItem_of_no_summary hsummary, if_pos hfree, if_neg hfive.not_lt, newSummary]
  case becomesOrdinary =>
    rw [admitItem_of_no_summary hsummary, if_pos hfree, if_pos hfew]
  case ordinaryBesideClosed =>
    rw [admitItem_of_not_takes hsummary htakes, if_pos ⟨hfew, hfree⟩, closeSummary]
  case tableIsFull =>
    rw [admitItem_of_no_summary hsummary, if_neg hfull.not_gt]
  case untrackedBesideClosed =>
    have hnoRoom : ¬(ordinaryCount items i.account < 5 ∧ items.length < 192) := by omega
    rw [admitItem_of_not_takes hsummary htakes, if_neg hnoRoom, closeSummary]

end Sys2Proof.Machine
end

