-- ==== Sys2Proof/Proofs/EverySteps.lean ====
section
/-! SUPPORT. A step runs the front command, and every command keeps the invariant (R12, R19, R20, R163; log 1,
log 3, log 4). -/

namespace Sys2Proof.Machine

/-! ### The front of the queue -/

/-- Settles O1: the step is defined by the front of its queue. -/
theorem stepRunsTheFrontCommand : Obligations.StepRunsTheFrontCommand := by
  refine ⟨fun c rest s hpending => ?_, fun s hpending => ?_⟩
  · simp only [step, hpending]
  · simp only [step, hpending]

/-! ### The state after reset -/

/-- The path after reset is empty, in NORMAL mode and with both streaks at rest, wherever CONTROL stands. -/
theorem resetPath_sound (base : Nat) : (resetPath base).Sound where
  occupancy := Nat.zero_le _
  mirrorClass := Nat.zero_le _
  mirrorApart := List.nodup_nil
  injectStreak := Nat.zero_le _
  fetchStreak := Nat.zero_le _
  injectRest _ := rfl
  fetchRest _ := rfl
  normal _ := by simp [resetPath]
  drain h := by simp [resetPath] at h

/-- What every block takes at reset keeps the invariant where memory has its canonical form. -/
theorem resetState_sound {base : Nat} {mem : List Host.Cell} {pending : List Instr} (hmem : Memory.wf mem = true) :
    Sound (resetState base mem pending) :=
  ⟨resetPath_sound base, hmem, by simp [resetState, resetDay], trivial⟩

/-- Settles O2: memory with nothing listed is canonical. -/
theorem resetStateIsSound : Obligations.ResetStateIsSound := resetState_sound rfl

/-! ### Every command -/

/-- The windows and the reset pin are no part of the invariant. -/
theorem released_sound {s : State} (hs : Sound s) (windows : Vector Window 7) :
    Sound { s with path := { s.path with windows := windows }, inReset := false } :=
  ⟨⟨hs.path.occupancy, hs.path.mirrorClass, hs.path.mirrorApart, hs.path.injectStreak, hs.path.fetchStreak,
    hs.path.injectRest, hs.path.fetchRest, hs.path.normal, hs.path.drain⟩, hs.memory, hs.clock, hs.work⟩

/-- A row that does something only under a condition keeps the invariant where its body does. -/
theorem ite_sound {p : Prop} [Decidable p] {s x : State} (hs : Sound s) (hx : Sound x) :
    Sound (if p then x else s) := by
  split
  · exact hx
  · exact hs

/-- A bus transaction keeps the invariant where its body does: an unaligned one has no next state. -/
theorem transaction_sound {s t : State} {addr : BitVec 64} {body : State → State} (hs : Sound s)
    (hbody : Sound (body s))
    (ht : (if alignedAddress addr then running s body else .fault .unalignedAddress) = .next t) : Sound t := by
  split at ht
  · exact running_sound hs (fun _ => hbody) ht
  · exact nomatch ht

/-- The placement is installed where one waits and no read is held, else nothing happens. -/
theorem installPlacement_sound {s : State} (hs : Sound s) :
    Sound (match s.path.placement with
      | none => s
      | some c => if readIsHeld s.path then s else takeEffect s c) := by
  split
  · exact hs
  · split
    · exact hs
    · exact takeEffect_sound hs _

/-- The rows that run a body: every command but RESET, its release and the two arrivals, which look at the reset pin
or at an address first. -/
abbrev RunsBody (c : Instr) : Prop :=
  c ≠ .reset ∧ (∀ straps, c ≠ .resetRelease straps) ∧ (∀ addr, c ≠ .hostRead addr) ∧
    ∀ addr mask data, c ≠ .hostWriteArrival addr mask data

/-- The row of such a command runs a body in the running part, and the body keeps the invariant. -/
theorem exec_row {c : Instr} (hc : RunsBody c) (s : State) :
    ∃ body, exec c s = running s body ∧ (Sound s → Sound (body s)) := by
  obtain ⟨hreset, hrelease, hread, hwrite⟩ := hc
  cases c with
  | reset => exact absurd rfl hreset
  | resetRelease straps => exact absurd rfl (hrelease straps)
  | hostRead addr => exact absurd rfl (hread addr)
  | hostWriteArrival addr mask data => exact absurd rfl (hwrite addr mask data)
  | installWindowMap => exact ⟨_, exec_installWindowMap s, installPlacement_sound⟩
  | hostWrite => exact ⟨_, exec_hostWrite s, fun hs => grantWriteWhen_sound hs _⟩
  | slotFieldWrite => exact ⟨_, exec_slotFieldWrite s, fun hs => grantWriteWhen_sound hs _⟩
  | commit => exact ⟨_, exec_commit s, fun hs => grantWriteWhen_sound hs _⟩
  | screenRowWrite => exact ⟨_, exec_screenRowWrite s, fun hs => grantWriteWhen_sound hs _⟩
  | consumerIndexWrite => exact ⟨_, exec_consumerIndexWrite s, fun hs => grantWriteWhen_sound hs _⟩
  | badCommandCode => exact ⟨_, exec_badCommandCode s, fun hs => grantWriteWhen_sound hs _⟩
  | applyConfig => exact ⟨_, exec_applyConfig s, fun hs => grantCommand_sound hs _⟩
  | openDay => exact ⟨_, exec_openDay s, fun hs => grantCommand_sound hs _⟩
  | resumeDay => exact ⟨_, exec_resumeDay s, fun hs => grantCommand_sound hs _⟩
  | setTime => exact ⟨_, exec_setTime s, fun hs => grantCommand_sound hs _⟩
  | closeDay => exact ⟨_, exec_closeDay s, fun hs => grantCommand_sound hs _⟩
  | forceBalance => exact ⟨_, exec_forceBalance s, fun hs => grantCommand_sound hs _⟩
  | releaseDrawer => exact ⟨_, exec_releaseDrawer s, fun hs => grantCommand_sound hs _⟩
  | releaseHold => exact ⟨_, exec_releaseHold s, fun hs => grantCommand_sound hs _⟩
  | clearMonitor => exact ⟨_, exec_clearMonitor s, fun hs => grantCommand_sound hs _⟩
  | resumeBatch => exact ⟨_, exec_resumeBatch s, fun hs => grantCommand_sound hs _⟩
  | resendBatch => exact ⟨_, exec_resendBatch s, fun hs => grantCommand_sound hs _⟩
  | startLearn => exact ⟨_, exec_startLearn s, fun hs => grantCommand_sound hs _⟩
  | endLearn => exact ⟨_, exec_endLearn s, fun hs => grantCommand_sound hs _⟩
  | checkJournal => exact ⟨_, exec_checkJournal s, fun hs => grantCommand_sound hs _⟩
  | checkTotals => exact ⟨_, exec_checkTotals s, fun hs => grantCommand_sound hs _⟩
  | checkLine => exact ⟨_, exec_checkLine s, fun hs => grantCommand_sound hs _⟩
  | clearAlerts => exact ⟨_, exec_clearAlerts s, fun hs => grantCommand_sound hs _⟩
  | hostReadGrant => exact ⟨_, exec_hostReadGrant s, grantRead_sound⟩
  | injectDrain => exact ⟨_, exec_injectDrain s, drainHead_sound⟩
  | placeWaitingGroup => exact ⟨_, exec_placeWaitingGroup s, placeWaiting_sound⟩
  | fetchGrant => exact ⟨_, exec_fetchGrant s, fun hs => ite_sound hs (grantFetch_sound hs)⟩
  | judgingEvent => exact ⟨_, exec_judgingEvent s, judgeHead_sound⟩
  | ringPositionAnswer => exact ⟨_, exec_ringPositionAnswer s, answerPositions_sound⟩
  | sensedOpen h => exact ⟨_, exec_sensedOpen h s, fun hs => ite_sound hs (takeSample_sound hs h _)⟩
  | sensedClosed h => exact ⟨_, exec_sensedClosed h s, fun hs => ite_sound hs (takeSample_sound hs h _)⟩
  | heldExpiryTaken h => exact ⟨_, exec_heldExpiryTaken h s, fun hs => ite_sound hs (takeSample_sound hs h _)⟩
  | senseSettle h level =>
    exact ⟨_, exec_senseSettle h level s, fun hs => ite_sound hs (takeSample_sound hs h level)⟩
  | drawerSenseSample h level => exact ⟨_, exec_drawerSenseSample h level s, fun hs => takeSample_sound hs h level⟩
  | releaseWindowExpiry h => exact ⟨_, exec_releaseWindowExpiry h s, fun hs => expireWindow_sound hs h⟩
  | overdueLimitExpiry h => exact ⟨_, exec_overdueLimitExpiry h s, fun hs => expireLimit_sound hs h⟩
  | tick => exact ⟨_, exec_tick s, takeTick_sound⟩
  | configImageFetched => exact ⟨_, exec_configImageFetched s, takeImage_sound⟩
  | carryRecordFetched => exact ⟨_, exec_carryRecordFetched s, takeRecords_sound⟩
  | freshDayOpens => exact ⟨_, exec_freshDayOpens s, takeFreshDay_sound⟩
  | journalRunEntry => exact ⟨_, exec_journalRunEntry s, takeRunEntry_sound⟩
  | settlementWriteDone => exact ⟨_, exec_settlementWriteDone s, takeSettlementDone_sound⟩
  | ackWaitExpiry => exact ⟨_, exec_ackWaitExpiry s, expireAck_sound⟩
  | waitPauseExpiry => exact ⟨_, exec_waitPauseExpiry s, expirePause_sound⟩
  | finalWaitExpiry => exact ⟨_, exec_finalWaitExpiry s, expireFinal_sound⟩
  | cycleStart d => exact ⟨_, exec_cycleStart d s, fun hs => startCycle_sound hs d⟩
  | rowSend d => exact ⟨_, exec_rowSend d s, fun hs => sendRow_sound hs d⟩
  | dropFrameSent d => exact ⟨_, exec_dropFrameSent d s, fun hs => dropSent_sound hs d⟩
  | learnRepeatExpiry d => exact ⟨_, exec_learnRepeatExpiry d s, fun hs => repeatAssign_sound hs d⟩
  | dropReply d frame => exact ⟨_, exec_dropReply d frame s, fun hs => receiveDrop_sound hs d frame⟩
  | dropReplyTimeout d late => exact ⟨_, exec_dropReplyTimeout d late s, fun hs => expireReply_sound hs d late⟩
  | bookIn k frame => exact ⟨_, exec_bookIn k frame s, fun hs => ite_sound hs (takeBookIn_sound hs k frame)⟩
  | bookOut k frame => exact ⟨_, exec_bookOut k frame s, fun hs => ite_sound hs (takeBookOut_sound hs k)⟩
  | lineDone k frame => exact ⟨_, exec_lineDone k frame s, fun hs => ite_sound hs (takeLineDone_sound hs k)⟩
  | ready k frame => exact ⟨_, exec_ready k frame s, fun hs => ite_sound hs (takeReady_sound hs k)⟩
  | printerAck k frame => exact ⟨_, exec_printerAck k frame s, fun hs => ite_sound hs (takeAck_sound hs k)⟩
  | printerNak k frame => exact ⟨_, exec_printerNak k frame s, fun hs => ite_sound hs (takeFailure_sound hs k)⟩
  | printerReplyTimeout k => exact ⟨_, exec_printerReplyTimeout k s, fun hs => takeFailure_sound hs k⟩
  | lineDoneTimeout k => exact ⟨_, exec_lineDoneTimeout k s, fun hs => expireLine_sound hs k⟩
  | pageTurnTimeout k => exact ⟨_, exec_pageTurnTimeout k s, fun hs => expireTurn_sound hs k⟩
  | printerInvalidFrame k frame => exact ⟨_, exec_printerInvalidFrame k frame s, fun hs => hs⟩
  | hoInvalidFrame port frame => exact ⟨_, exec_hoInvalidFrame port frame s, fun hs => hs⟩
  | hoFrameSent port => exact ⟨_, exec_hoFrameSent port s, fun hs => hoSent_sound hs port⟩
  | hoAck port frame => exact ⟨_, exec_hoAck port frame s, fun hs => takeHoAck_sound hs port frame⟩
  | hoNak port frame => exact ⟨_, exec_hoNak port frame s, fun hs => takeHoNak_sound hs port frame⟩
  | hoWait port frame => exact ⟨_, exec_hoWait port frame s, fun hs => takeHoWait_sound hs port frame⟩
  | hoFinal port frame => exact ⟨_, exec_hoFinal port frame s, fun hs => takeHoFinal_sound hs port frame⟩

/-- Every command keeps the invariant: its body does, and so does the end of a step. -/
theorem exec_sound {s t : State} (hs : Sound s) (c : Instr) (ht : exec c s = .next t) : Sound t := by
  by_cases hc : RunsBody c
  · obtain ⟨body, hrow, hbody⟩ := exec_row hc s
    exact running_sound hs hbody (hrow ▸ ht)
  · simp only [RunsBody, not_and_or, not_forall, not_not] at hc
    obtain rfl | ⟨straps, rfl⟩ | ⟨addr, rfl⟩ | ⟨addr, mask, data, rfl⟩ := hc
    · cases ht
      exact resetState_sound (pending := s.pending) hs.memory
    · simp only [exec, execResetRelease] at ht
      split at ht
      · cases ht; exact released_sound hs _
      · cases ht; exact hs
    · exact transaction_sound hs (readArrives_sound hs _) ht
    · exact transaction_sound hs (writeArrives_sound hs _ _ _) ht

/-- Settles O3: an idle step changes nothing, and any other runs a command on the queue's rest, which is no part of
the invariant. -/
theorem everyStepKeepsSoundness : Obligations.EveryStepKeepsSoundness := by
  intro s t hs ht
  unfold step at ht
  split at ht
  · cases ht; exact hs
  · next c rest _ =>
    exact exec_sound (s := { s with pending := rest }) ⟨hs.path, hs.memory, hs.clock, hs.work⟩ c ht

end Sys2Proof.Machine
end

