-- ==== Sys2Proof/Proofs/Reset.lean ====
section
/-! SUPPORT. What RESET leaves, field by field (R21, R40, R43, R92, R95, R142, R161, R162, R191, R197). -/

namespace Sys2Proof.Machine

/-- The window entries that RESET's release leaves: CONTROL alone is known (R3, R21). -/
theorem resetWindows_known (base : Nat) (k : Fin 7) (hk : k ≠ 0) : (resetWindows base)[k].known = false := by
  have h : (0 : Nat) ≠ k.val := fun h => hk (Fin.ext h.symm)
  simp [resetWindows, h]

/-- Settles O4: what RESET puts in the path stands until the release, which samples the straps. -/
theorem resetTakesThePathState : Obligations.ResetTakesThePathState := by
  intro s straps
  refine ⟨_, _, rfl, rfl, rfl, rfl, rfl, rfl, fun k hk => resetWindows_known _ k hk, rfl, rfl, rfl, rfl, rfl, rfl,
    rfl, rfl, rfl, fun k => ?_, rfl, rfl, rfl, rfl⟩
  exact ⟨Vector.getElem_replicate _, Vector.getElem_replicate _⟩

/-- No configuration: no port has a role. -/
theorem noConfiguration_portWithRole {role : Nat} (hrole : role ≠ 0) :
    noConfiguration.portWithRole role = none := by
  refine ((portWithRole_first _ _).1).mpr fun k => ?_
  simpa [noConfiguration] using hrole.symm

/-- RESET leaves every unit in its chapter's table. -/
theorem resetTakesTheUnits : Claims.ResetTakesTheUnitsState := by
  intro s
  refine ⟨_, rfl, rfl, fun n => ?_, rfl, rfl, rfl, rfl, fun h => ?_, rfl, fun h => ?_, fun d => ?_, fun p => ?_,
    rfl, rfl, fun k => ⟨?_, ?_⟩⟩
  all_goals simp only [resetState, resetPosting, State.configuration, resetControl, Option.getD_none,
    Vector.getElem_replicate, Fin.getElem_fin, Configuration.printerPort]
  · exact ⟨rfl, rfl, rfl, rfl, rfl, rfl, rfl, rfl⟩
  · simp [noConfiguration, Configuration.holderActive]
  · exact ⟨rfl, rfl, rfl, rfl, rfl⟩
  · exact ⟨rfl, rfl, rfl, rfl, rfl, rfl, rfl, rfl, rfl, rfl, rfl, rfl, rfl, rfl⟩
  · rfl
  · exact noConfiguration_portWithRole (by omega)

/-- RESET leaves the books, the journal, the day, the batch, the control unit and the lines as their chapters
say. -/
theorem resetTakesTheBooks : Claims.ResetTakesTheBooks := by
  intro s
  refine ⟨_, rfl, fun h k => ?_, fun h => ?_, fun k => ?_, fun k => ?_, rfl, rfl, rfl, rfl, fun m => ⟨?_, ?_, ?_⟩,
    rfl, rfl, rfl, rfl, rfl, rfl, rfl, rfl, rfl, rfl, rfl, rfl, rfl, fun c => ?_, rfl, rfl, rfl, ?_, rfl, rfl, rfl,
    rfl, rfl, rfl, rfl, rfl, rfl, rfl, rfl, rfl, fun i => ?_, rfl, rfl, rfl, rfl, rfl, rfl, rfl, rfl, rfl,
    fun k => ?_, fun p => ?_, fun d => ?dropPort, fun p => ?headOfficePort, fun k => ?_⟩
  case dropPort => exact noConfiguration_portWithRole (by omega)
  case headOfficePort => cases p <;> exact noConfiguration_portWithRole (by decide)
  all_goals simp [resetState, resetTotals, recordOf, zeroRecord, resetMonitors, resetDay, resetControl,
    State.configuration, noConfiguration, Configuration.hasCurrency, Configuration.positionEnabled]

/-- Settles O5: both halves hold of the one state RESET leaves. -/
theorem resetTakesTheUnitsState : Obligations.ResetTakesTheUnitsState := ⟨resetTakesTheUnits, resetTakesTheBooks⟩

end Sys2Proof.Machine
end

