-- ==== Sys2Proof/Proofs/HostTransactions.lean ====
section
/-! SUPPORT. The host's transactions at their arrival and at their grant, and the arbiter (R1 to R11, R16 to R19,
R132). -/

namespace Sys2Proof.Machine

/-! ### Commands while RESET is asserted, and the arrival of a transaction -/

/-- While RESET is asserted a row's body does not run (R21; log 7). -/
theorem running_inReset {s : State} (hreset : s.inReset = true) (body : State → State) :
    running s body = .next s := if_pos hreset

/-- An aligned read is a row (R1). -/
theorem exec_hostRead {addr : BitVec 64} (haligned : addr.toNat % 8 = 0) (s : State) :
    exec (.hostRead addr) s = running s fun s => readArrives s addr.toNat := by
  simp [exec, execHostRead, alignedAddress, haligned]

/-- An aligned write's arrival is a row (R1). -/
theorem exec_hostWriteArrival {addr : BitVec 64} (haligned : addr.toNat % 8 = 0) (mask : ByteMask) (data : Dword)
    (s : State) :
    exec (.hostWriteArrival addr mask data) s = running s fun s => writeArrives s addr.toNat mask data := by
  simp [exec, execHostWriteArrival, alignedAddress, haligned]

theorem assertedResetHoldsEveryCommand : Claims.AssertedResetHoldsEveryCommand := by
  intro s c hinReset hreset hrelease hread hwrite
  by_cases hr : ∃ addr, c = .hostRead addr
  · obtain ⟨addr, rfl⟩ := hr
    rw [exec_hostRead (hread addr rfl), running_inReset hinReset]
  by_cases hw : ∃ addr mask data, c = .hostWriteArrival addr mask data
  · obtain ⟨addr, mask, data, rfl⟩ := hw
    rw [exec_hostWriteArrival (hwrite addr mask data rfl), running_inReset hinReset]
  simp only [not_exists] at hr hw
  obtain ⟨body, hbody, _⟩ := exec_row ⟨hreset, hrelease, hr, hw⟩ s
  rw [hbody, running_inReset hinReset]

theorem unalignedAddressIsNoTransaction : Claims.UnalignedAddressIsNoTransaction := by
  intro s addr mask data haligned
  constructor <;> simp [exec, execHostRead, execHostWriteArrival, alignedAddress, haligned]

theorem arrivingWriteWaits : Claims.ArrivingWriteWaits := by
  intro s addr mask data hr haligned hidle
  exact gives_conclude hr (exec_hostWriteArrival haligned mask data s) (by simp only [writeArrives, hidle])

/-- A read is held where its doubleword is the result of a SUBMITTED slot (R17). -/
theorem heldSlot_eq_some {s : State} {addr : Nat} {n : Fin 16} (hregion : regionAt s addr = some (.slotResult n))
    (hsubmitted : s.posting.slots[n].state = .submitted) : heldSlot s addr = some n := by
  simp only [heldSlot, hregion, if_pos hsubmitted]

/-- No read is held at any other doubleword (R17). -/
theorem heldSlot_eq_none {s : State} {addr : Nat}
    (h : ∀ n, regionAt s addr = some (.slotResult n) → s.posting.slots[n].state ≠ .submitted) :
    heldSlot s addr = none := by
  unfold heldSlot
  split
  · next n hregion => exact if_neg (h n hregion)
  · rfl

theorem arrivingReadIsHeldAnsweredOrWaits : Claims.ArrivingReadIsHeldAnsweredOrWaits := by
  intro s addr hr haligned hidle
  have hrow := exec_hostRead haligned s
  refine ⟨fun n hregion hsubmitted => gives_conclude hr hrow ?held, fun hother => ⟨fun data hdata =>
    gives_conclude hr hrow ?answered, fun hnone => gives_conclude hr hrow ?waiting⟩⟩
  case held => simp only [readArrives, hidle, heldSlot_eq_some hregion hsubmitted]
  case answered => simp only [readArrives, hidle, heldSlot_eq_none hother, hdata]
  case waiting => simp only [readArrives, hidle, heldSlot_eq_none hother, hnone]

/-- Settles O6: the four claims, one for each fate of a transaction. -/
theorem arrivingTransactionsWaitOrAreAnswered : Obligations.ArrivingTransactionsWaitOrAreAnswered :=
  ⟨assertedResetHoldsEveryCommand, unalignedAddressIsNoTransaction, arrivingWriteWaits,
    arrivingReadIsHeldAnsweredOrWaits⟩

/-- A requester without a streak of eight gives no reason to go before the host (R19). -/
theorem not_and_of_or {α : Type} {l : List α} {n : Nat} (h : l = [] ∨ n ≠ 8) : ¬(¬l = [] ∧ n = 8) := by
  tauto

/-! ### The grant of a read, and the arbiter (R16, R19, R20) -/

/-- Settles O7: the grant's data is the read value of the state at the grant. -/
theorem grantedReadReturnsTheNewestValue : Obligations.GrantedReadReturnsTheNewestValue := by
  intro s addr hr hbus hgrant
  exact gives_conclude hr (exec_hostReadGrant s) (by simp [grantRead, hbus, hgrant, readValue])

theorem arbiterOrder_holds : Claims.ArbiterOrder := by
  intro p
  refine ⟨fun hmode hqueue => ?drain, fun hmode => ?normal⟩
  case drain => simp [nextGrant, hmode, hqueue]
  case normal =>
    refine ⟨fun hqueue hstreak => ?_, fun hinject => ⟨fun hfetches hstreak => ?_, fun hfetch => ?_⟩⟩
    · simp [nextGrant, hmode, hqueue, hstreak]
    · simp [nextGrant, hmode, not_and_of_or hinject, hfetches, hstreak]
    · have hrest : nextGrant p = if hostWaits p then some .host else if !p.queue.isEmpty then some .inject
          else if !p.fetches.isEmpty then some .fetch else none := by
        simp [nextGrant, hmode, not_and_of_or hinject, not_and_of_or hfetch]
      refine ⟨fun hhost => ?_, fun hhost => ⟨fun hqueue => ?_, fun hqueue hfetches => ?_, fun hqueue hfetches =>
        ?_⟩⟩
      all_goals simp_all

/-- A streak counts a grant made while its requester waits, up to 8 (R19). -/
theorem streakUp_eq {α : Type} (l : List α) (n : Nat) :
    streakUp (!l.isEmpty) n = if l ≠ [] ∧ n < 8 then n + 1 else n := by
  simp [streakUp]

theorem hostGrantCountsTheStreaks : Claims.HostGrantCountsTheStreaks := fun p =>
  ⟨streakUp_eq p.queue _, streakUp_eq p.fetches _, rfl⟩

/-- Settles O8: the arbiter's order, and what a grant counts. -/
theorem arbiterOrder : Obligations.ArbiterOrder := ⟨arbiterOrder_holds, hostGrantCountsTheStreaks⟩

/-! ### A write transaction in memory (R1, R2) -/

/-- The first n lanes of a write transaction: those enabled are read back, and every other byte is as before. -/
theorem read_foldl_write {mem : List Host.Cell} (addr : Nat) (mask : ByteMask) (data : Dword) (a n : Nat)
    (hmem : Memory.wf mem = true) :
    let after := (List.range n).foldl
      (fun m i => if mask.getLsbD i then Memory.write m (addr + i) (lane data i) else m) mem
    Memory.wf after = true ∧ Memory.read after a =
      if addr ≤ a ∧ a < addr + n ∧ mask.getLsbD (a - addr) = true then lane data (a - addr)
      else Memory.read mem a := by
  induction n with
  | zero => exact ⟨hmem, by rw [if_neg (by omega)]; rfl⟩
  | succ n ih =>
    obtain ⟨hwf, hread⟩ := ih
    simp only [List.range_succ, List.foldl_append, List.foldl_cons, List.foldl_nil]
    by_cases hbit : mask.getLsbD n = true
    · rw [if_pos hbit]
      refine ⟨wf_write _ _ hwf, ?_⟩
      rw [read_write _ _ _ hwf, hread]
      by_cases ha : a = addr + n
      · subst ha
        simp [hbit]
      · rw [if_neg ha]
        congr 1
        simp only [eq_iff_iff]
        exact and_congr_right fun _ => and_congr_left fun _ => by omega
    · rw [if_neg hbit]
      refine ⟨hwf, hread.trans ?_⟩
      by_cases ha : a = addr + n
      · subst ha
        simp [hbit]
      · congr 1
        simp only [eq_iff_iff]
        exact and_congr_right fun _ => and_congr_left fun _ => by omega

/-- Settles O9: a write transaction is its eight lanes. -/
theorem writeChangesItsEnabledLanesOnly : Obligations.WriteChangesItsEnabledLanesOnly :=
  fun _ addr mask data a hmem => (read_foldl_write addr mask data a 8 hmem).2

end Sys2Proof.Machine
end

