-- ==== Sys2Proof/Proofs/GrantedWrites.lean ====
section
/-! SUPPORT. The host's write at its grant: by its region it passes to memory and to the unit that captures it, or is
suppressed and counted (R2 to R11, R132). -/

namespace Sys2Proof.Machine

/-! ### A granted write -/

section

variable {s : State} {addr : Nat} {mask : ByteMask} {data : Dword}

/-- A row takes the waiting write that its test accepts. -/
theorem grantWriteWhen_eq (h : WriteGranted s addr mask data) {row : Option Region → ByteMask → Dword → Bool}
    (hrow : row (regionAt s addr) mask data = true) : grantWriteWhen s row = takeWrite s addr mask data := by
  obtain ⟨_, hgrant, hbus⟩ := h
  simp [grantWriteWhen, grantedWrite, hgrant, hbus, hrow]

/-- Where no entry is pending, the region decides (R10). -/
theorem writePasses_eq {r : Region} (hpending : pendingAt s addr = false) (hregion : regionAt s addr = some r) :
    writePasses s addr = regionPasses s r := by
  simp [writePasses, hpending, hregion]

/-- A passing write goes to memory and to the unit of its region (R5). -/
theorem takeWrite_capture {r : Region} (hpasses : writePasses s addr = true) (hregion : regionAt s addr = some r) :
    takeWrite s addr mask data = capture (written s addr mask data) mask data r := by
  simp [takeWrite, hpasses, hregion, written, granted]

/-- A passing write in no region goes to memory alone (R5). -/
theorem takeWrite_noRegion (hpasses : writePasses s addr = true) (hregion : regionAt s addr = none) :
    takeWrite s addr mask data = written s addr mask data := by
  simp [takeWrite, hpasses, hregion, written, granted]

/-- A write that does not pass is suppressed (R5). -/
theorem takeWrite_suppressed (hpasses : writePasses s addr = false) :
    takeWrite s addr mask data = suppressWrite (granted s) mask addr := by
  simp [takeWrite, hpasses, granted]

/-- The row HOST_WRITE takes any waiting write (log 13). -/
theorem gives_hostWrite {x : State} (h : WriteGranted s addr mask data) (hx : takeWrite s addr mask data = x) :
    Gives .hostWrite s x :=
  gives_conclude h.1 (exec_hostWrite s) (by rw [grantWriteWhen_eq h rfl, hx])

end

/-! ### Writes that pass (R6, R8, R9) -/

theorem uncapturedWritePasses : Claims.UncapturedWritePasses := by
  intro s addr mask data h hpasses hregion
  refine gives_hostWrite h ?_
  obtain hnone | himage | harea | htail := hregion
  · exact takeWrite_noRegion hpasses hnone
  · exact takeWrite_capture hpasses himage
  · exact takeWrite_capture hpasses harea
  · exact takeWrite_capture hpasses htail

theorem argumentWriteIsCaptured : Claims.ArgumentWriteIsCaptured := by
  intro s addr mask data i h hregion hpending
  exact gives_hostWrite h (takeWrite_capture (writePasses_eq hpending hregion) hregion)

theorem screenRowWriteMarksTheRow : Claims.ScreenRowWriteMarksTheRow := by
  intro s addr mask data p r h hregion hpending
  refine gives_conclude h.1 (exec_screenRowWrite s) ?_
  have hrow : rowIsScreenRow (regionAt s addr) mask data = true := by simp only [hregion, rowIsScreenRow]
  rw [grantWriteWhen_eq h hrow, takeWrite_capture (writePasses_eq hpending hregion) hregion]
  rfl

/-! ### The lanes of a doubleword -/

/-- Bit i of the number whose bytes are given is bit i mod 8 of its byte i ÷ 8 (R203). -/
theorem leNat_testBit (l : List Byte) (i : Nat) : (leNat l).testBit i = (l.getD (i / 8) 0).getLsbD (i % 8) := by
  induction l generalizing i with
  | nil => simp [leNat]
  | cons b l ih =>
    rw [leNat, Nat.add_comm, show (256 : Nat) = 2 ^ 8 from rfl, Nat.testBit_two_pow_mul_add _ b.isLt]
    by_cases hi : i < 8
    · rw [if_pos hi, Nat.div_eq_of_lt hi, Nat.mod_eq_of_lt hi]
      rfl
    · obtain ⟨j, rfl⟩ : ∃ j, i = j + 8 := ⟨i - 8, by omega⟩
      rw [if_neg hi, Nat.add_sub_cancel, ih, Nat.add_div_right j (by decide), Nat.add_mod_right]
      rfl

/-- Bit j of a lane is the doubleword's bit in that lane. -/
theorem getLsbD_lane (d : Dword) (i j : Nat) (hj : j < 8) : (lane d i).getLsbD j = d.getLsbD (8 * i + j) := by
  rw [lane, BitVec.getLsbD_ofNat, show (256 : Nat) = 2 ^ 8 from rfl, ← pow_mul, Nat.testBit_div_two_pow]
  simp [hj, BitVec.getLsbD, Nat.add_comm]

/-- Each bit of merged lanes comes from the doubleword that the mask names for its lane (R1, R22, R192). -/
theorem getLsbD_mergeLanes (mask : ByteMask) (old new : Dword) (i : Nat) (hi : i < 64) :
    (mergeLanes mask old new).getLsbD i = if mask.getLsbD (i / 8) then new.getLsbD i else old.getLsbD i := by
  have hlane : i / 8 < 8 := by omega
  have hbit : 8 * (i / 8) + i % 8 = i := Nat.div_add_mod i 8
  rw [mergeLanes, dwordOfBytes, BitVec.getLsbD_ofNat, leNat_testBit]
  simp only [hi, decide_true, Bool.true_and, List.getD_eq_getElem?_getD, List.getElem?_take, hlane, if_true,
    List.getElem?_map, List.getElem?_range hlane, Option.map_some, Option.getD_some]
  split <;> rw [getLsbD_lane _ _ _ (Nat.mod_lt _ (by decide)), hbit]

/-- The low two lanes of a doubleword as 16 bits. -/
theorem ofNat_laneField_low (d : Dword) : BitVec.ofNat 16 (laneField d 0 2) = d.setWidth 16 := by
  apply BitVec.eq_of_toNat_eq
  simp [laneField]

/-! ### The consumer index (R9, R132) -/

/-- The consumer index after a captured write to its doubleword. -/
def consumerAfter (q : Position) (mask : ByteMask) (data : Dword) : BitVec 16 :=
  (mergeLanes mask (q.consumer.setWidth 64) data).setWidth 16

/-- Each bit of the consumer index comes from the write where its lane is enabled. -/
theorem getLsbD_consumerAfter (q : Position) (mask : ByteMask) (data : Dword) (i : Nat) (hi : i < 16) :
    (consumerAfter q mask data).getLsbD i =
      if mask.getLsbD (i / 8) then data.getLsbD i else q.consumer.getLsbD i := by
  rw [consumerAfter, BitVec.getLsbD_setWidth, getLsbD_mergeLanes _ _ _ _ (by omega), BitVec.getLsbD_setWidth]
  simp [hi, show i < 64 by omega]

/-- With both its lanes enabled the consumer index is the write's low 16 bits. -/
theorem consumerAfter_lanes (q : Position) {mask : ByteMask} (data : Dword) (h0 : mask.getLsbD 0 = true)
    (h1 : mask.getLsbD 1 = true) : consumerAfter q mask data = data.setWidth 16 := by
  refine BitVec.eq_of_getLsbD_eq fun i hi => ?_
  have hlane : mask.getLsbD (i / 8) = true := by
    obtain h | h : i / 8 = 0 ∨ i / 8 = 1 := by omega
    · rw [h]; exact h0
    · rw [h]; exact h1
  rw [getLsbD_consumerAfter _ _ _ _ hi, if_pos hlane, BitVec.getLsbD_setWidth]
  simp [hi]

/-- A captured consumer write sets that index alone. -/
theorem captureConsumer_eq (s : State) (p : Fin 16) (mask : ByteMask) (data : Dword) :
    captureConsumer s p mask data =
      setPosition s p { s.screen.positions[p] with consumer := consumerAfter s.screen.positions[p] mask data } := by
  simp only [captureConsumer, ofNat_laneField_low, consumerAfter, BitVec.ofNat_toNat]

/-- What the end of a step leaves of a position: its consumer index among it. -/
theorem consumer_of_books {s t : State} (h : books s = books t) (p : Fin 16) :
    s.screen.positions[p].consumer = t.screen.positions[p].consumer := by
  have hp : (books s).screen.positions[p].consumer = (books t).screen.positions[p].consumer := by rw [h]
  simpa [books, keptPosition] using hp

theorem consumerWriteSetsTheIndex : Claims.ConsumerWriteSetsTheIndex := by
  intro s addr mask data p h hregion hpending q
  have hrow : rowIsConsumer (regionAt s addr) mask data = true := by simp only [hregion, rowIsConsumer]
  have hgives : Gives .consumerIndexWrite s
      (setPosition (written s addr mask data) p { q with consumer := consumerAfter q mask data }) := by
    refine gives_conclude h.1 (exec_consumerIndexWrite s) ?_
    rw [grantWriteWhen_eq h hrow, takeWrite_capture (writePasses_eq hpending hregion) hregion]
    exact captureConsumer_eq _ _ _ _
  obtain ⟨t, ht, hbooks, hjournal⟩ := hgives
  have hconsumer : t.screen.positions[p].consumer = consumerAfter q mask data := by
    rw [consumer_of_books hbooks]
    simp
  refine ⟨t, ht, ?_, hjournal, fun i hi => ?_⟩
  · rw [hbooks, hconsumer]
  · rw [hconsumer, getLsbD_consumerAfter q mask data i hi]

/-- Settles O10: one claim for each kind of region that captures. -/
theorem passedWritesReachMemoryAndTheirUnit : Obligations.PassedWritesReachMemoryAndTheirUnit :=
  ⟨uncapturedWritePasses, argumentWriteIsCaptured, screenRowWriteMarksTheRow, consumerWriteSetsTheIndex⟩

/-! ### Windows and regions (1.2) -/

/-- The window's region at the offset is the doubleword's region. -/
theorem regionAt_eq {s : State} {addr o : Nat} {k : Fin 7} (hwindow : windowAt s.path addr = some k)
    (haddr : addr = s.path.windows[k].base + o) : regionAt s addr = some (windowRegion k o) := by
  rw [regionAt, hwindow, Option.map_some, haddr, Nat.add_sub_cancel_left]

/-- The index of a block of a region, for an offset inside the block. -/
theorem ofNat_block {n w f : Nat} [NeZero n] (i : Fin n) (hf : f < w) : Fin.ofNat n ((i.val * w + f) / w) = i := by
  have hw : 0 < w := by omega
  rw [Nat.add_comm, Nat.add_mul_div_right _ _ hw, Nat.div_eq_of_lt hf, Nat.zero_add]
  exact Fin.ext (Nat.mod_eq_of_lt i.isLt)

/-- The offset inside a block of a region. -/
theorem block_mod {n w f : Nat} (i : Fin n) (hf : f < w) : (i.val * w + f) % w = f := by
  rw [Nat.add_comm, Nat.add_mul_mod_self_right, Nat.mod_eq_of_lt hf]

theorem regionsStandAtTheirOffsets : Claims.RegionsStandAtTheirOffsets := by
  intro s addr k o hwindow haddr hdword
  rw [regionAt_eq hwindow haddr]
  simp only [Option.some.injEq]
  refine ⟨?control, ?slots, ?screens, ?keys, ?owned⟩
  case control =>
    rintro rfl ho
    refine ⟨fun h => ?_, fun h => ?_, fun i h => ?_, fun h => ?_, fun h => ?_⟩ <;>
      simp only [windowRegion, Fin.val_zero, controlRegion]
    · rw [if_pos h]
    · subst h; rfl
    · subst h
      have hi : Fin.ofNat 6 ((0x1808 + 8 * i.val - 0x1808) / 8) = i := by
        rw [Nat.add_sub_cancel_left, Nat.mul_div_cancel_left _ (by decide)]
        exact Fin.ext (Nat.mod_eq_of_lt i.isLt)
      rw [if_neg (by omega), if_neg (by omega), if_pos (by omega), hi]
    · subst h; rfl
    · rw [if_neg (by omega), if_neg (by omega), if_neg (by omega), if_neg (by omega)]
  case slots =>
    rintro rfl n f hf rfl
    simp only [windowRegion, Fin.val_one, slotRegion, block_mod n hf, ofNat_block n hf]
    exact ⟨fun h => if_pos h, fun h => if_neg (by omega)⟩
  case screens =>
    rintro rfl p f hf rfl
    simp only [windowRegion, Fin.val_two, screenRegion, block_mod p hf, ofNat_block p hf]
    refine ⟨fun r hr hlo hhi => ?_, fun hlo hhi => ?_, fun hlo => ?_⟩
    · have hrow : f / 0xA0 = r := by omega
      rw [if_pos (by omega), hrow]
    · rw [if_neg (by omega), if_pos hhi]
    · rw [if_neg (by omega), if_neg (by omega)]
  case keys =>
    rintro rfl p f hf rfl
    have h3 : ((3 : Fin 7) : Nat) = 3 := rfl
    simp only [windowRegion, h3, keysRegion, block_mod p hf, ofNat_block p hf]
    exact ⟨fun h => if_pos h, fun h => if_neg h⟩
  case owned =>
    intro hk
    unfold windowRegion
    split
    iterate 4 · omega
    · rfl

/-- The window found is the first that covers the doubleword (R3). -/
theorem windowAt_eq_some {p : Path} {addr : Nat} {k : Fin 7} :
    windowAt p addr = some k ↔
      (p.windows[k].known = true ∧ p.windows[k].base ≤ addr ∧ addr < p.windows[k].base + p.windows[k].length) ∧
      ∀ j : Fin 7, j < k → ¬(p.windows[j].known = true ∧ p.windows[j].base ≤ addr ∧
        addr < p.windows[j].base + p.windows[j].length) := by
  rw [windowAt, List.find?_eq_some_iff_getElem]
  simp only [Bool.and_eq_true, decide_eq_true_eq, and_assoc, Bool.not_eq_true', List.getElem_finRange,
    List.length_finRange, Fin.cast_mk, ← Bool.not_eq_true]
  refine and_congr_right fun _ => and_congr_right fun _ => and_congr_right fun _ => ⟨?_, fun h => ?_⟩
  · rintro ⟨i, hi, rfl, hbefore⟩ j hj
    exact hbefore j.val hj
  · exact ⟨k.val, k.isLt, rfl, fun j hj => h ⟨j, by omega⟩ hj⟩

theorem windowsCoverTheirSpans : Claims.WindowsCoverTheirSpans := by
  intro s addr covers
  refine ⟨fun k hk => (windowAt_eq_some.mp hk).1, fun k hk hfirst => windowAt_eq_some.mpr ⟨hk, hfirst⟩,
    fun hnone => ?_, fun hnone => by simp [regionAt, hnone]⟩
  rw [Option.eq_none_iff_forall_ne_some]
  exact fun k hk => hnone k (windowAt_eq_some.mp hk).1

theorem regionsPassAsTheirRulesSay : Claims.RegionsPassAsTheirRulesSay := by
  intro s
  simp [regionPasses]

/-! ### Suppressed writes (R5, R10, R11) -/

theorem suppressedWriteIsCounted_holds : Claims.SuppressedWriteIsCounted := by
  intro s addr mask data k h hmask hpasses hwindow counter counted
  refine gives_hostWrite h ?_
  rw [takeWrite_suppressed hpasses, suppressWrite, if_neg hmask]
  have hgranted : windowAt (granted s).path addr = some k := hwindow
  simp only [hgranted]
  rfl

/-- A write passes where nothing is pending at its doubleword and its region, if any, lets it (R5, R10). -/
theorem writePasses_iff {s : State} {addr : Nat} :
    writePasses s addr = true ↔
      ¬(∃ e ∈ s.path.queue, e.addr = addr) ∧ ∀ r, regionAt s addr = some r → regionPasses s r = true := by
  rw [← pendingAt_iff, writePasses, Bool.and_eq_true, Bool.not_eq_true', ← Bool.not_eq_true]
  refine and_congr_right fun _ => ?_
  cases regionAt s addr <;> simp

theorem pendingDoublewordSuppressesItsWrite : Claims.PendingDoublewordSuppressesItsWrite := by
  intro s addr mask data pending
  refine ⟨pendingAt_iff s addr, writePasses_iff, fun h hpending hwindow => gives_hostWrite h ?_⟩
  have hpasses : writePasses s addr = false :=
    Bool.eq_false_iff.mpr fun hp => (writePasses_iff.mp hp).1 hpending
  have hgranted : windowAt (granted s).path addr = none := hwindow
  rw [takeWrite_suppressed hpasses, suppressWrite]
  simp only [hgranted, ite_self]

/-- Settles O11: where the regions are, which of them suppress, and what a suppressed write leaves. -/
theorem suppressedWriteIsCounted : Obligations.SuppressedWriteIsCounted :=
  ⟨regionsStandAtTheirOffsets, windowsCoverTheirSpans, regionsPassAsTheirRulesSay, suppressedWriteIsCounted_holds,
    pendingDoublewordSuppressesItsWrite⟩

/-! ### The KEYS window (R9) -/

/-- What the end of a step leaves of memory: all of it. -/
theorem mem_of_books {s t : State} (h : books s = books t) : s.mem = t.mem := by
  change (books s).mem = (books t).mem
  rw [h]

/-- Settles O12: the consumer doubleword is the one region of KEYS that passes. -/
theorem keysPassTheConsumerAlone : Obligations.KeysPassTheConsumerAlone := by
  intro s addr mask data o h hmask hpending hwindow haddr ho hdword
  have hregion : regionAt s addr = some (keysRegion o) := regionAt_eq hwindow haddr
  refine ⟨fun hconsumer => ?passes, fun hother => ?suppressed⟩
  case passes =>
    rw [keysRegion, if_pos hconsumer] at hregion
    obtain ⟨t, ht, hbooks, _⟩ := gives_hostWrite h (takeWrite_capture (writePasses_eq hpending hregion) hregion)
    refine ⟨t, ht, (mem_of_books hbooks).trans rfl, fun h0 h1 => ?_⟩
    rw [consumer_of_books hbooks, capture, captureConsumer_eq]
    simp [consumerAfter_lanes _ _ h0 h1]
  case suppressed =>
    rw [keysRegion, if_neg hother] at hregion
    have hpasses : writePasses s addr = false := (writePasses_eq hpending hregion).trans rfl
    obtain ⟨t, ht, hbooks, _⟩ := suppressedWriteIsCounted_holds s addr mask data 3 h hmask hpasses hwindow
    refine ⟨t, ht, (mem_of_books hbooks).trans ?_⟩
    split
    · rfl
    · exact eventEntry_mem _ _

end Sys2Proof.Machine
end

