-- ==== Sys2Proof/Proofs/InjectQueue.lean ====
section
/-! SUPPORT. The Inject Queue: groups at their hand-over and while they wait, drains, and mirror-class writes (R12 to
R16, R20). -/

namespace Sys2Proof.Machine

/-- States of one view have the same books. -/
theorem books_of_view {s t : State} (h : view s = view t) : books s = books t := congrArg Prod.fst h

/-- States of one view have the same memory. -/
theorem mem_of_view {s t : State} (h : view s = view t) : s.mem = t.mem := mem_of_books (books_of_view h)

/-! ### A group at its hand-over (R13) -/

section

variable {s : State} {g : Group}

/-- A group that fits is placed. -/
theorem handGroup_of_fits (h : s.path.waiting = [] ∧ s.path.queue.length + g.writes.length ≤ 32) :
    handGroup s g = placeGroup s g := by
  have hfits : groupFits s.path g.writes.length = true := (groupFits_iff _ _ (Or.inr (by omega))).mpr h
  simp [handGroup, placeGroup, hfits]

/-- A group with writes that does not fit waits behind the others. -/
theorem handGroup_of_not_fits (hwrites : g.writes ≠ [])
    (h : ¬(s.path.waiting = [] ∧ s.path.queue.length + g.writes.length ≤ 32)) :
    handGroup s g = { s with path := { s.path with waiting := s.path.waiting ++ [g] } } := by
  have hfits : groupFits s.path g.writes.length = false :=
    Bool.eq_false_iff.mpr fun hf =>
      h ((groupFits_iff _ _ (Or.inl (List.length_pos_iff.mpr hwrites))).mp hf)
  simp [handGroup, hfits]

end

/-- Only a final completion and a settlement record tell anything at their placing (R174, R193). -/
theorem placing_tells (c : Control) (d : Day) (p : Producer) :
    controlPlaced c p = (if p = .completion true then { c with busy := false, taken := none } else c) ∧
      dayPlaced d p = (if p = .settlement then
        { d with settlement := d.settlement.map fun w => { w with placed := w.placed + 1 } } else d) := by
  cases p with
  | completion final => cases final <;> exact ⟨rfl, rfl⟩
  | _ => exact ⟨rfl, rfl⟩

theorem placingTellsItsProducer : Claims.PlacingTellsItsProducer := by
  refine ⟨fun s g hwaiting hroom => ?_, fun s g hwrites hno => ?_, placing_tells⟩
  · rw [handGroup_of_fits ⟨hwaiting, hroom⟩]
    exact ⟨rfl, rfl⟩
  · rw [handGroup_of_not_fits hwrites hno]
    exact ⟨rfl, rfl⟩

theorem groupIsPlacedWholeOrWaits : Claims.GroupIsPlacedWholeOrWaits := by
  refine fun s g => ⟨fun hfits => ?_, fun hno hwrites => ?_⟩
  · rw [handGroup_of_fits hfits]
    exact ⟨rfl, hfits.1⟩
  · rw [handGroup_of_not_fits hwrites hno]
    exact ⟨rfl, rfl⟩

/-! ### Waiting groups (R13) -/

/-- The first groups that wait are placed up to one that the room does not reach. -/
theorem placeReached_of_none {s : State} {gs : List Group}
    (h : ∀ g ∈ gs.head?, freeRoom s.path < g.writes.length) :
    placeReached s gs = { s with path := { s.path with waiting := gs } } := by
  cases gs with
  | nil => rfl
  | cons g rest =>
    have hg : ¬g.writes.length ≤ freeRoom s.path := Nat.not_le.mpr (h g rfl)
    simp [placeReached, hg]

/-- A group that the room reaches is placed before the rest. -/
theorem placeReached_cons {s : State} {g : Group} {rest : List Group}
    (h : g.writes.length ≤ freeRoom s.path) : placeReached s (g :: rest) = placeReached (placeGroup s g) rest := by
  simp [placeReached, h]

/-- The room that a placed group leaves. -/
theorem freeRoom_placeGroup (s : State) (g : Group) :
    freeRoom (placeGroup s g).path = 32 - (s.path.queue.length + g.writes.length) := by
  simp [freeRoom, placeGroup, placeWrites, groupEntries]

/-- Room offered to the refused producers is no part of the books (R14). -/
theorem view_offerRoom (s : State) : view { s with path := offerRoom s.path } = view s := by
  unfold offerRoom
  split <;> rfl

/-- Room left to groups that are all too large changes nothing that the books hold. -/
theorem view_useRoom_none {s : State} (h : ∀ g ∈ s.path.waiting.head?, freeRoom s.path < g.writes.length) :
    view (useRoom s) = view s := by
  rw [useRoom, view_offerRoom, placeReached_of_none h]

/-- Room left to the oldest group, and to no other. -/
theorem view_useRoom_one {s : State} {g : Group} {rest : List Group} (hwaiting : s.path.waiting = g :: rest)
    (hroom : s.path.queue.length + g.writes.length ≤ 32)
    (hrest : ∀ h ∈ rest.head?, 32 < s.path.queue.length + g.writes.length + h.writes.length) :
    view (useRoom s) = view { s with
      path := { s.path with queue := s.path.queue ++ groupEntries g.writes, waiting := rest },
      control := controlPlaced s.control g.producer, day := dayPlaced s.day g.producer } := by
  have hfree : g.writes.length ≤ freeRoom s.path := by unfold freeRoom; omega
  rw [useRoom, view_offerRoom, hwaiting, placeReached_cons hfree, placeReached_of_none]
  · rfl
  · intro h hh
    have := hrest h hh
    rw [freeRoom_placeGroup]
    omega

theorem oldestWaitingGroupIsPlaced : Claims.OldestWaitingGroupIsPlaced := by
  intro s g rest hr hwaiting hroom hrest
  refine gives_of_running hr (exec_placeWaitingGroup s) ?_
  have hfree : g.writes.length ≤ freeRoom s.path := by unfold freeRoom; omega
  simp only [placeWaiting, hwaiting, if_pos hfree]
  exact view_useRoom_one hwaiting hroom hrest

/-! ### Drains (R13, R15, R19, R20) -/

/-- The state whose head has been written to memory and has left the queue, before the room it leaves is used. -/
def drained (s : State) (e : InjectEntry) : State :=
  { s with path := drainedPath s.path, mem := Memory.writeDword s.mem e.addr (BitVec.allOnes 8) e.data }

section

variable {s : State} {e : InjectEntry} {rest : List InjectEntry}

/-- The head drains where the grant is the queue's. -/
theorem drainHead_eq (hgrant : nextGrant s.path = some .inject) (hqueue : s.path.queue = e :: rest) :
    drainHead s = useRoom (drained s e) := by
  simp [drainHead, hgrant, hqueue, drained]

/-- What a drain leaves in the queue. -/
theorem drained_queue (hqueue : s.path.queue = e :: rest) : (drained s e).path.queue = rest := by
  simp [drained, drainedPath, hqueue]

/-- The room a drain leaves. -/
theorem freeRoom_drained (hqueue : s.path.queue = e :: rest) : freeRoom (drained s e).path = 32 - rest.length := by
  rw [freeRoom, drained_queue hqueue]

/-- A drain that leaves no group its room. -/
theorem view_drainHead_none (hgrant : nextGrant s.path = some .inject) (hqueue : s.path.queue = e :: rest)
    (hnone : drainPlacesNone s.path) :
    view (drainHead s) = view { s with
      path := { s.path with queue := rest, injectStreak := 0 },
      mem := Memory.writeDword s.mem e.addr (BitVec.allOnes 8) e.data } := by
  rw [drainHead_eq hgrant hqueue, view_useRoom_none hnone]
  simp only [drained, drainedPath, hqueue, List.tail_cons]
  rfl

/-- A drain that leaves the oldest group its room, and no other. -/
theorem view_drainHead_one {g : Group} {waiting : List Group} (hgrant : nextGrant s.path = some .inject)
    (hqueue : s.path.queue = e :: rest) (hwaiting : s.path.waiting = g :: waiting)
    (hroom : rest.length + g.writes.length ≤ 32)
    (hrest : ∀ h ∈ waiting.head?, 32 < rest.length + g.writes.length + h.writes.length) :
    view (drainHead s) = view { s with
      path := { s.path with queue := rest ++ groupEntries g.writes, waiting := waiting, injectStreak := 0 },
      mem := Memory.writeDword s.mem e.addr (BitVec.allOnes 8) e.data,
      control := controlPlaced s.control g.producer, day := dayPlaced s.day g.producer } := by
  have hleft := drained_queue (s := s) hqueue
  rw [drainHead_eq hgrant hqueue,
    view_useRoom_one (s := drained s e) hwaiting (by rwa [hleft]) (by rwa [hleft]), hleft]
  rfl

end

theorem drainWritesTheHead : Claims.DrainWritesTheHead := by
  intro s e rest hr hgrant hqueue t
  exact ⟨fun hnone => gives_of_running hr (exec_injectDrain s) (view_drainHead_none hgrant hqueue hnone),
    fun g waiting hwaiting hroom hrest =>
      gives_of_running hr (exec_injectDrain s) (view_drainHead_one hgrant hqueue hwaiting hroom hrest)⟩

theorem drainThatLeavesRoomPlacesTheGroup : Claims.DrainThatLeavesRoomPlacesTheGroup := by
  intro s e queue g rest hr hgrant hqueue hwaiting hwrites hroom hrest
  refine gives_of_running hr (exec_placeWaitingGroup s) ?_
  have hpos : 0 < g.writes.length := List.length_pos_iff.mpr hwrites
  have hnow : ¬g.writes.length ≤ freeRoom s.path := by rw [freeRoom, hqueue, List.length_cons]; omega
  have hthen : g.writes.length ≤ freeRoom (drainedPath s.path) := by
    rw [show freeRoom (drainedPath s.path) = _ from freeRoom_drained hqueue]; omega
  simp only [placeWaiting, hwaiting, if_neg hnow, if_pos hthen]
  refine view_drainHead_one hgrant hqueue hwaiting (by omega) fun h hh => ?_
  have := List.length_pos_iff.mpr (hrest h (List.mem_of_mem_head? hh))
  omega

/-- Settles O14: a group at its hand-over, as the oldest that waits, and at a drain. -/
theorem groupsArePlacedWholeAndInOrder : Obligations.GroupsArePlacedWholeAndInOrder :=
  ⟨groupIsPlacedWholeOrWaits, oldestWaitingGroupIsPlaced, drainThatLeavesRoomPlacesTheGroup,
    placingTellsItsProducer⟩

/-! ### What a read returns across a drain (R15, R16) -/

/-- The newest entry of a queue is the newest behind its head, or the head itself. -/
theorem newestEntry_cons (e : InjectEntry) (q : List InjectEntry) (a : Nat) :
    newestEntry (e :: q) a = (newestEntry q a).or (if e.addr = a then some e.data else none) := by
  have hfold : ∀ (q : List InjectEntry) (r : Option Dword),
      q.foldl (fun r e => if e.addr = a then some e.data else r) r =
        (q.foldl (fun r e => if e.addr = a then some e.data else r) none).or r := by
    intro q
    induction q with
    | nil => intro r; rfl
    | cons e q ih =>
      intro r
      rw [List.foldl_cons, ih, List.foldl_cons, ih (if e.addr = a then _ else none)]
      by_cases he : e.addr = a <;> simp [he]
  exact hfold q _

/-- The doubleword whose lanes are those of a doubleword is that doubleword. -/
theorem dwordOfBytes_lanes (d : Dword) : dwordOfBytes ((List.range 8).map fun i => lane d i) = d := by
  have hmerge : mergeLanes (BitVec.allOnes 8) d d = d :=
    BitVec.eq_of_getLsbD_eq fun i hi => by rw [getLsbD_mergeLanes _ _ _ _ hi, ite_self]
  refine Eq.trans ?_ hmerge
  simp only [mergeLanes, ite_self]

/-- A whole doubleword written is read back at its address, and every other aligned doubleword is as before. -/
theorem readDword_writeDword {mem : List Host.Cell} (addr a : Nat) (data : Dword) (hmem : Memory.wf mem = true)
    (haddr : addr % 8 = 0) (ha : a % 8 = 0) :
    Memory.readDword (Memory.writeDword mem addr (BitVec.allOnes 8) data) a =
      if addr = a then data else Memory.readDword mem a := by
  have hread (x : Nat) : Memory.read (Memory.writeDword mem addr (BitVec.allOnes 8) data) x = _ :=
    writeChangesItsEnabledLanesOnly mem addr _ data x hmem
  split
  · next h =>
    subst h
    refine Eq.trans (congrArg dwordOfBytes (List.map_congr_left fun i hi => ?_)) (dwordOfBytes_lanes data)
    have hi : i < 8 := List.mem_range.mp hi
    rw [hread, Nat.add_sub_cancel_left, if_pos ⟨by omega, by omega, by rw [BitVec.getLsbD_allOnes]; simpa⟩]
  · next h =>
    refine congrArg dwordOfBytes (List.map_congr_left fun i hi => ?_)
    have hi : i < 8 := List.mem_range.mp hi
    rw [hread, if_neg (by omega)]

theorem drainKeepsEveryReadValue : Claims.DrainKeepsEveryReadValue := by
  intro s a hmem haligned ha hnone
  by_cases hgrant : nextGrant s.path = some .inject
  · match hqueue : s.path.queue with
    | [] => simp [drainHead, hqueue]
    | e :: rest =>
      have hqueueAfter : (drainHead s).path.queue = rest := by
        rw [drainHead_eq hgrant hqueue, useRoom, placeReached_of_none hnone]
        simp only [offerRoom]
        split <;> exact drained_queue hqueue
      have hmemAfter : (drainHead s).mem = Memory.writeDword s.mem e.addr (BitVec.allOnes 8) e.data :=
        mem_of_view (view_drainHead_none hgrant hqueue hnone)
      have he : e.addr % 8 = 0 := haligned e (by simp [hqueue])
      simp only [readValue, hqueueAfter, hmemAfter, hqueue, newestEntry_cons,
        readDword_writeDword _ _ _ hmem he ha]
      cases newestEntry rest a with
      | some data => simp
      | none => by_cases hea : e.addr = a <;> simp [hea]
  · simp [drainHead, hgrant]

/-! ### DRAIN mode (R20) -/

/-- Placing leaves NORMAL mode only where it was there, and where nothing is placed or occupancy stays below 24. -/
theorem placeReached_normal {gs : List Group} {s : State} (h : (placeReached s gs).path.mode = .normal) :
    s.path.mode = .normal ∧ ((placeReached s gs).path.queue = s.path.queue ∨
      (placeReached s gs).path.queue.length < 24) := by
  induction gs generalizing s with
  | nil => exact ⟨h, Or.inl rfl⟩
  | cons g rest ih =>
    by_cases hfree : g.writes.length ≤ freeRoom s.path
    · rw [placeReached_cons hfree] at h ⊢
      obtain ⟨hmode, hqueue⟩ := ih h
      have hlow : ¬24 ≤ (placeGroup s g).path.queue.length := fun hhigh => by
        have hdrain : (placeGroup s g).path.mode = .drain := if_pos hhigh
        rw [hdrain] at hmode
        exact absurd hmode (by decide)
      have hbefore : (placeGroup s g).path.mode = s.path.mode := if_neg hlow
      refine ⟨hbefore ▸ hmode, Or.inr ?_⟩
      obtain hsame | hless := hqueue
      · rw [hsame]; omega
      · exact hless
    · have hnone : ∀ h ∈ (g :: rest).head?, freeRoom s.path < h.writes.length := by
        rintro h ⟨⟩
        omega
      rw [placeReached_of_none hnone] at h ⊢
      exact ⟨h, Or.inl rfl⟩

/-- The offer of room leaves queue and mode. -/
theorem offerRoom_kept (p : Path) : (offerRoom p).queue = p.queue ∧ (offerRoom p).mode = p.mode := by
  unfold offerRoom
  split <;> exact ⟨rfl, rfl⟩

theorem drainModeEndsAtEight : Claims.DrainModeEndsAtEight := by
  intro s hmode hqueue
  obtain ⟨e, rest, hqueue⟩ := List.exists_cons_of_ne_nil hqueue
  have hgrant : nextGrant s.path = some .inject :=
    (arbiterOrder_holds s.path).1 hmode (by simp [hqueue])
  have hlength : s.path.queue.length = rest.length + 1 := by rw [hqueue, List.length_cons]
  have hdrained : (drained s e).path.mode = if rest.length ≤ 8 then .normal else .drain := by
    simp [drained, drainedPath, hqueue, hmode]
  obtain ⟨hqueueAfter, hmodeAfter⟩ := offerRoom_kept (placeReached (drained s e) s.path.waiting).path
  replace hqueueAfter : (drainHead s).path.queue = _ := (congrArg (·.path.queue) (drainHead_eq hgrant hqueue)).trans
    hqueueAfter
  replace hmodeAfter : (drainHead s).path.mode = _ := (congrArg (·.path.mode) (drainHead_eq hgrant hqueue)).trans
    hmodeAfter
  have hnormal : (drainHead s).path.mode = .normal →
      s.path.queue.length ≤ 9 ∧ (drainHead s).path.queue.length < 24 := by
    intro h
    rw [hmodeAfter] at h
    obtain ⟨hbefore, hless⟩ := placeReached_normal h
    have hrest : rest.length ≤ 8 := by
      by_contra hhigh
      rw [hdrained, if_neg hhigh] at hbefore
      exact absurd hbefore (by decide)
    rw [hqueueAfter]
    obtain hsame | hless := hless
    · rw [hsame, drained_queue hqueue]; omega
    · exact ⟨by omega, hless⟩
  refine ⟨fun hnone => ?_, hnormal, fun hhigh => ?_⟩
  · have hleft : placeReached (drained s e) s.path.waiting = _ := placeReached_of_none hnone
    have hq : (drainHead s).path.queue = rest := by rw [hqueueAfter, hleft]; exact drained_queue hqueue
    have hm : (drainHead s).path.mode = if rest.length ≤ 8 then .normal else .drain := by
      rw [hmodeAfter, hleft]; exact hdrained
    rw [hq, hm]
    split <;> simp [*]
  · cases hafter : (drainHead s).path.mode with
    | normal => exact absurd (hnormal hafter).1 (by omega)
    | drain => rfl

/-- Settles O13: what a drain leaves in memory, to reads and in the mode, and what a placing tells. -/
theorem drainsKeepWhatReadsReturn : Obligations.DrainsKeepWhatReadsReturn :=
  ⟨drainWritesTheHead, drainKeepsEveryReadValue, drainModeEndsAtEight, placingTellsItsProducer⟩

/-! ### Mirror-class writes (R14) -/

/-- Data written over the entries of an address leaves a queue without mirror entries there as it is. -/
theorem map_replace_other {addr : Nat} {data : Dword} {l : List InjectEntry}
    (h : ∀ e ∈ l, e.cls = .mirror → e.addr ≠ addr) :
    l.map (fun e => if e.cls == .mirror && e.addr == addr then { e with data := data } else e) = l := by
  refine (List.map_congr_left fun e he => ?_).trans (List.map_id l)
  have := h e he
  simp_all

/-- Settles O15: the three outcomes are the three branches of the hand-over. -/
theorem mirrorWriteReplacesJoinsOrIsRefused : Obligations.MirrorWriteReplacesJoinsOrIsRefused := by
  intro p addr data
  refine ⟨fun a b d hqueue hothers => ?replaces, fun hnone => ?absent⟩
  case replaces =>
    have ha := map_replace_other (data := data) fun e he => hothers e (List.mem_append_left b he)
    have hb := map_replace_other (data := data) fun e he => hothers e (List.mem_append_right a he)
    simp only [mirrorWrite, hqueue, List.map_append, List.map_cons, ha, hb]
    simp
  case absent =>
    have hany : (p.queue.any fun e => e.cls == .mirror && e.addr == addr) = false := by
      simpa using hnone
    refine ⟨fun hroom => ?_, fun hno => ?_⟩
    · simp [mirrorWrite, hany, hroom]
    · have hrefused : (decide (p.queue.length < 24) && p.waiting.isEmpty) = false := by
        simpa using hno
      simp [mirrorWrite, hany, hrefused]

end Sys2Proof.Machine
end

