-- ==== Sys2Proof/Proofs/Fetches.lean ====
section
/-! SUPPORT. The Fetch Port: a grant's doubleword reaches its client, and the clients' requests (R18, R19, R27, R106,
R119, R128, R167, R194). -/

namespace Sys2Proof.Machine

/-! ### What a step's end leaves of the fetches and their buffers -/

/-- The fetch requests with their streak and the buffers they fill. -/
def fetchSide (s : State) :=
  (s.path.fetches, s.path.fetchStreak, s.posting, s.control.image, s.screen.controllers, s.journal, s.day)

theorem fetchSide_handMirrorDword (s : State) (k : Nat) : fetchSide (handMirrorDword s k) = fetchSide s := by
  unfold handMirrorDword
  split
  · rfl
  · dsimp only
    split
    · simp only [fetchSide]; rw [mirrorWrite_path]
    · rfl

theorem fetchSide_handRowDword (s : State) (p : Fin 16) (j : Nat) : fetchSide (handRowDword s p j) = fetchSide s := by
  unfold handRowDword
  dsimp only
  split
  · rfl
  · split
    · simp only [fetchSide]; rw [mirrorWrite_path]
    · rfl

theorem fetchSide_flushMirror (s : State) : fetchSide (flushMirror s) = fetchSide s := by
  unfold flushMirror
  split
  · rfl
  · exact foldl_keeps _ _ fetchSide_handMirrorDword _ _

theorem fetchSide_flushRows (s : State) : fetchSide (flushRows s) = fetchSide s := by
  unfold flushRows
  split
  · rfl
  · refine foldl_keeps _ _ (fun s p => ?_) _ _
    split
    · rfl
    · exact foldl_keeps _ _ (fun s j => fetchSide_handRowDword s p j) _ _

theorem fetchSide_markMirror (s : State) (set : BitVec 1024) : fetchSide (markMirror s set) = fetchSide s := rfl

theorem fetchSide_recomposeRows (s : State) : fetchSide (recomposeRows s) = fetchSide s := rfl

/-- A step's end renews the fetches and their buffers by the doublewords it answers alone. -/
theorem fetchSide_conclude (before after : State) :
    fetchSide (conclude before after) = fetchSide (pumpFetches 256 after) := by
  rw [conclude, fetchSide_flushRows, fetchSide_flushMirror, fetchSide_markMirror, fetchSide_recomposeRows]

/-- The doubleword to be fetched next, if any, has no entry pending. -/
abbrev NoneAnswered (s : State) : Prop := ∀ r ∈ s.path.fetches.head?, newestEntry s.path.queue r.next = none

/-- Where nothing can be answered, a step's end leaves the fetches and their buffers. -/
theorem fetchSide_pumpFetches (n : Nat) {s : State} (h : NoneAnswered s) :
    fetchSide (pumpFetches n s) = fetchSide s := by
  cases n with
  | zero => rfl
  | succ n =>
    unfold pumpFetches
    split
    · rfl
    · split
      · rfl
      · next r l hf =>
        rw [h r (by simp [hf])]
        rfl

/-- A command whose body leaves nothing to be answered keeps the fetches and buffers that its body leaves. -/
theorem exec_fetchSide {c : Instr} {s x : State} {body : State → State} (hr : s.inReset = false)
    (hc : exec c s = running s body) (hx : body s = x) :
    ∃ t, exec c s = .next t ∧ view t = view x ∧ (NoneAnswered x → fetchSide t = fetchSide x) := by
  subst hx
  refine ⟨conclude s (body s), ?_, view_conclude _ _, fun h => ?_⟩
  · rw [hc, running, if_neg (by simp [hr])]
  · rw [fetchSide_conclude, fetchSide_pumpFetches 256 h]

/-! ### The streak at a step's end (R19) -/

/-- A client that takes a doubleword leaves the streak. -/
theorem clientTakes_fetchStreak (s : State) (data : Dword) (client : FetchClient) :
    (clientTakes s data client).path.fetchStreak = s.path.fetchStreak := by
  obtain ⟨l, w, h⟩ := clientTakes_path s data client
  rw [h]

/-- An answered doubleword leaves a streak at rest. -/
theorem answerFetch_fetchStreak {s : State} (data : Dword) (h : s.path.fetchStreak = 0) :
    (answerFetch s data).path.fetchStreak = 0 := by
  unfold answerFetch
  split
  · exact h
  · simp [clientTakes_fetchStreak, h]

theorem pumpFetches_fetchStreak (n : Nat) {s : State} (h : s.path.fetchStreak = 0) :
    (pumpFetches n s).path.fetchStreak = 0 := by
  induction n generalizing s with
  | zero => exact h
  | succ n ih =>
    unfold pumpFetches
    split
    · exact h
    · split
      · exact h
      · split
        · exact ih (answerFetch_fetchStreak _ h)
        · exact h

/-- A step's end leaves a streak at rest. -/
theorem conclude_fetchStreak (before : State) {after : State} (h : after.path.fetchStreak = 0) :
    (conclude before after).path.fetchStreak = 0 :=
  (congrArg (fun side => side.2.1) (fetchSide_conclude before after)).trans (pumpFetches_fetchStreak 256 h)

/-! ### A grant to the Fetch Port (R18) -/

/-- The requests left when the current doubleword is answered. -/
def leftAfter (r : FetchRequest) (rest : List FetchRequest) : List FetchRequest :=
  if r.left ≤ 1 then rest else { r with next := r.next + 8, left := r.left - 1 } :: rest

/-- The state in which the client of a granted doubleword takes it: the streak is at rest, and the requests are those
left. -/
def fetchGranted (s : State) (left : List FetchRequest) : State :=
  { s with path := { s.path with fetches := left, fetchWaits := false, fetchStreak := 0 } }

/-- The streak once a doubleword is answered. -/
def streakAfter (s : State) : State :=
  { s with path := { s.path with fetchStreak := if s.path.fetches.isEmpty then 0 else s.path.fetchStreak } }

section

variable {s : State} {r : FetchRequest} {rest : List FetchRequest}

/-- A grant hands the client the doubleword's read value. -/
theorem grantFetch_eq (hfetches : s.path.fetches = r :: rest) :
    grantFetch s =
      streakAfter (clientTakes (fetchGranted s (leftAfter r rest)) (readValue s r.next) r.client) := by
  unfold grantFetch
  split
  · next h => exact absurd (h.symm.trans hfetches) (by simp)
  · next r' rest' h =>
    obtain ⟨rfl, rfl⟩ := List.cons.inj (h.symm.trans hfetches)
    unfold answerFetch
    split
    · next h' => exact absurd (h'.symm.trans hfetches) (by simp)
    · next r'' rest'' h' =>
      obtain ⟨rfl, rfl⟩ := List.cons.inj (h'.symm.trans hfetches)
      rfl

/-- What a fetch grant leaves: the streak at rest, the books as they were, and, unless the next doubleword is
answered at once, what the client made of its doubleword. -/
theorem exec_fetchGrant_next (hr : s.inReset = false) (hgrant : nextGrant s.path = some .fetch)
    (hfetches : s.path.fetches = r :: rest) :
    let taken := clientTakes (fetchGranted s (leftAfter r rest)) (readValue s r.next) r.client
    ∃ t, exec .fetchGrant s = .next t ∧ books t = books s ∧ t.path.fetchStreak = 0 ∧
      (NoneAnswered taken → fetchSide t = fetchSide taken) := by
  intro taken
  have hbody : (if nextGrant s.path == some .fetch then grantFetch s else s) = streakAfter taken := by
    rw [hgrant, ← grantFetch_eq hfetches]; rfl
  have hrest : taken.path.fetchStreak = 0 := clientTakes_fetchStreak _ _ _
  have hstreak : (streakAfter taken).path.fetchStreak = 0 := by simp only [streakAfter, hrest, ite_self]
  have hside : fetchSide (streakAfter taken) = fetchSide taken := by
    simp only [fetchSide, hstreak, hrest]
    rfl
  refine ⟨conclude s (streakAfter taken), ?_, ?_, conclude_fetchStreak s hstreak, fun h => ?_⟩
  · rw [exec_fetchGrant, running, if_neg (by simp [hr]), hbody]
  · exact books_of_view ((view_conclude s _).trans (view_clientTakes (fetchGranted s _) _ _))
  · have hnone : NoneAnswered (streakAfter taken) := h
    rw [fetchSide_conclude, fetchSide_pumpFetches 256 hnone, hside]

/-- The same, read off field by field once the client's requests are known. -/
theorem exec_fetchGrant_asked (hr : s.inReset = false) (hgrant : nextGrant s.path = some .fetch)
    (hfetches : s.path.fetches = r :: rest) :
    let taken := clientTakes (fetchGranted s (leftAfter r rest)) (readValue s r.next) r.client
    ∃ t, exec .fetchGrant s = .next t ∧ books t = books s ∧ t.path.fetchStreak = 0 ∧
      ∀ asked, taken.path.fetches = asked → (∀ q ∈ asked.head?, newestEntry s.path.queue q.next = none) →
        t.path.fetches = asked ∧ t.posting = taken.posting ∧ t.control.image = taken.control.image ∧
          t.screen.controllers = taken.screen.controllers ∧ t.journal = taken.journal ∧ t.day = taken.day := by
  intro taken
  obtain ⟨t, ht, hbooks, hstreak, hside⟩ := exec_fetchGrant_next hr hgrant hfetches
  refine ⟨t, ht, hbooks, hstreak, fun asked hasked hnone => ?_⟩
  obtain ⟨l, w, hpath⟩ := clientTakes_path (fetchGranted s (leftAfter r rest)) (readValue s r.next) r.client
  have hqueue : taken.path.queue = s.path.queue := by
    change (clientTakes _ _ _).path.queue = _
    rw [hpath]; rfl
  have hnone : NoneAnswered taken := by
    simp only [NoneAnswered, hasked, hqueue]
    exact hnone
  have hsame := hside hnone
  simp only [fetchSide, Prod.mk.injEq] at hsame
  obtain ⟨hf, -, hposting, himage, hcontrollers, hjournal, hday⟩ := hsame
  exact ⟨hf.trans hasked, hposting, himage, hcontrollers, hjournal, hday⟩

end

/-! ### What each client does with a doubleword (R27, R119, R128, R167, R194) -/

/-- A request joins behind those that wait. -/
@[simp] theorem requestFetch_fetches (s : State) (client : FetchClient) (addr count : Nat) :
    (requestFetch s client addr count).path.fetches = s.path.fetches ++ [⟨client, addr, count⟩] := rfl

@[simp] theorem requestFetch_queue (s : State) (client : FetchClient) (addr count : Nat) :
    (requestFetch s client addr count).path.queue = s.path.queue := rfl

/-- A request where there is reason for one. -/
def askedIf (more : Bool) (q : FetchRequest) : List FetchRequest := if more = true then [q] else []

section

variable {u : State} {data : Dword}

/-- A row buffer takes a doubleword and asks for none. -/
theorem drop_takes (d : Fin 2) :
    (clientTakes u data (.drop d)).path.fetches = u.path.fetches ++ [] ∧
      (clientTakes u data (.drop d)).screen.controllers[d].row = u.screen.controllers[d].row ++ [data] := by
  simp [clientTakes, rowTakes]

/-- The reversal buffer takes a doubleword; behind the eighth of an entry at ring position 0 it asks for the last
doubleword of the entry's predecessor. -/
theorem posting_takes {f : ReversalFetch} (h : u.posting.reversal = some f) :
    (clientTakes u data .posting).path.fetches = u.path.fetches ++
        askedIf (f.wrapped && f.words.length == 7) ⟨.posting, ringAddress u (ringSize u - 1) + 0x38, 1⟩ ∧
      (clientTakes u data .posting).posting.reversal = some { f with words := f.words ++ [data] } := by
  simp only [clientTakes, postingTakes, h, askedIf]
  split
  · exact ⟨rfl, rfl⟩
  · exact ⟨(List.append_nil _).symm, rfl⟩

/-- A run that has its predecessor's chain collects its entries' doublewords. -/
theorem journal_takes {requester : Requester} {chain : BitVec 32} (hserving : u.journal.serving = some requester)
    (hchain : (runOf u.journal requester).bind (·.chain) = some chain) :
    (clientTakes u data .journal).path.fetches = u.path.fetches ++ [] ∧
      (clientTakes u data .journal).journal.buffer = u.journal.buffer ++ [data] := by
  simp [clientTakes, journalTakes, hserving, hchain]

/-- The run whose turn is next, where there is one run and it has started. -/
theorem nextRun_one {j : Journal} {r : Run} (hruns : j.runs = [r]) (hstarted : r.started = true) :
    nextRun j = some (0, r) := by
  cases hturn : j.turn <;> simp [nextRun, hruns, hturn, hstarted]

/-- The first request of a run that is served. -/
def runRequest (s : State) (r : Run) : FetchRequest :=
  if r.chain = none then ⟨.journal, ringAddress s (ringPosition s (r.next - 1)) + 0x38, 1⟩
  else ⟨.journal, ringAddress s (ringPosition s r.next), 8 * requestEntries s r⟩

/-- A single run is served where the Journal Unit's client is free. -/
theorem serveRuns_one {r : Run} (hserving : u.journal.serving = none) (hruns : u.journal.runs = [r])
    (hstarted : r.started = true) :
    (serveRuns u).path.fetches = u.path.fetches ++ [runRequest u r] ∧ (serveRuns u).path.queue = u.path.queue ∧
      (serveRuns u).journal = { u.journal with serving := some r.requester, turn := 1, buffer := [] } := by
  have hidle : u.journal.serving.isSome = false := by rw [hserving]; rfl
  rw [serveRuns, if_neg (by simp [hidle]), nextRun_one hruns hstarted]
  dsimp only
  split
  · next hchain =>
    rw [runRequest, if_pos hchain]
    exact ⟨rfl, rfl, rfl⟩
  · next chain hchain =>
    rw [runRequest, if_neg (by simp [hchain])]
    exact ⟨rfl, rfl, rfl⟩

/-- A single run without its predecessor's chain takes it, and asks for its first entries. -/
theorem journal_takes_chain {r : Run} (hserving : u.journal.serving = some r.requester)
    (hruns : u.journal.runs = [r]) (hstarted : r.started = true) (hchain : r.chain = none) :
    (clientTakes u data .journal).path.fetches = u.path.fetches ++
        [⟨.journal, ringAddress u (ringPosition u r.next), 8 * requestEntries u r⟩] ∧
      (clientTakes u data .journal).journal.runs =
        [{ r with chain := some (BitVec.ofNat 32 (laneField data 4 4)) }] ∧
      (clientTakes u data .journal).journal.buffer = [] := by
  have hrun : (runOf u.journal r.requester).bind (·.chain) = none := by simp [runOf, hruns, hchain]
  let chained : Run := { r with chain := some (BitVec.ofNat 32 (laneField data 4 4)) }
  let started : Journal := { updateRun u.journal r.requester (fun r =>
    { r with chain := some (BitVec.ofNat 32 (laneField data 4 4)) }) with serving := none }
  have hupdated : started.runs = [chained] := by simp [started, chained, updateRun, hruns]
  have htaken : clientTakes u data .journal = serveRuns { u with journal := started } := by
    simp only [clientTakes, journalTakes, hserving, hrun]
    rfl
  obtain ⟨hfetches, -, hjournal⟩ := serveRuns_one (u := { u with journal := started }) rfl hupdated hstarted
  rw [htaken, hfetches, hjournal]
  exact ⟨rfl, hupdated, rfl⟩

/-- The image takes a doubleword; at the end of a request it asks for the 32 that follow, up to 24 requests. -/
theorem control_takes {words : List Dword} (h : u.control.image = some words) :
    (clientTakes u data .control).path.fetches = u.path.fetches ++
        askedIf ((words.length + 1) % 32 == 0 && decide (words.length + 1 < 768))
          ⟨.control, windowBase u 0 + 8 * (words.length + 1), 32⟩ ∧
      (clientTakes u data .control).control.image = some (data :: words) := by
  simp only [clientTakes, controlTakes, h, askedIf]
  split
  · exact ⟨rfl, rfl⟩
  · exact ⟨(List.append_nil _).symm, rfl⟩

/-- Copy 0 takes doublewords up to its last; at the end of a request it asks for the 32 that follow, and behind the
last for copy 1's first. -/
theorem day_takes_first (h : u.day.records[0].words.length < 512) :
    (clientTakes u data .day).path.fetches = u.path.fetches ++
        askedIf ((u.day.records[0].words.length + 1) % 32 == 0)
          (if u.day.records[0].words.length + 1 < 512 then
            ⟨.day, windowBase u 6 + 8 * (u.day.records[0].words.length + 1), 32⟩
          else ⟨.day, windowBase u 6 + 0x1000, 32⟩) ∧
      (clientTakes u data .day).day.records[0].words = data :: u.day.records[0].words := by
  simp only [clientTakes, dayTakes, h, if_true, askedIf]
  by_cases hend : (u.day.records[0].words.length + 1) % 32 = 0
  · by_cases hless : u.day.records[0].words.length + 1 < 512
    · simp [hend, hless, copyAddress, bufferTakes]
    · simp [hend, hless, copyAddress, bufferTakes]
  · simp [hend, bufferTakes]

/-- Copy 1 takes the doublewords behind copy 0's last. -/
theorem day_takes_second (h : 512 ≤ u.day.records[0].words.length) :
    (clientTakes u data .day).path.fetches = u.path.fetches ++
        askedIf ((u.day.records[1].words.length + 1) % 32 == 0 && decide (u.day.records[1].words.length + 1 < 512))
          ⟨.day, windowBase u 6 + 0x1000 + 8 * (u.day.records[1].words.length + 1), 32⟩ ∧
      (clientTakes u data .day).day.records[1].words = data :: u.day.records[1].words := by
  have hcopy : ¬u.day.records[0].words.length < 512 := by omega
  simp only [clientTakes, dayTakes, hcopy, if_false, askedIf]
  by_cases hend : (u.day.records[1].words.length + 1) % 32 = 0
  · by_cases hless : u.day.records[1].words.length + 1 < 512
    · simp [hend, hless, copyAddress, bufferTakes]
    · simp [hend, hless, bufferTakes]
  · simp [hend, bufferTakes]

end

/-! ### The claims about grants -/

theorem fetchGrantAnswersTheCurrentDoubleword : Claims.FetchGrantAnswersTheCurrentDoubleword := by
  intro s r rest hr hgrant hfetches hleft hnone data ahead
  have hahead : leftAfter r rest = ahead := if_neg (by omega)
  obtain ⟨t, ht, hbooks, hstreak, hside⟩ := exec_fetchGrant_asked hr hgrant hfetches
  rw [hahead] at hside
  have hnext : ∀ q ∈ ahead.head?, newestEntry s.path.queue q.next = none := by
    rintro q ⟨⟩
    exact hnone
  refine ⟨t, ht, hbooks, hstreak, fun words hclient himage hwords => ?control, fun d hclient => ?drop,
    fun f hclient hreversal hwords => ?posting, fun requester chain hclient hserving hchain => ?journal,
    fun hclient hfirst hwords => ?first, fun hclient hfirst hwords => ?second⟩
  all_goals
    rw [hclient] at hside
    have hnoMore (more : Bool) (q : FetchRequest) (h : more = false) :
        (fetchGranted s ahead).path.fetches ++ askedIf more q = ahead := by simp [askedIf, h, fetchGranted]
  case control =>
    obtain ⟨hasked, hfield⟩ := control_takes (u := fetchGranted s ahead) (data := data) himage
    obtain ⟨hf, -, himg, -⟩ := hside ahead (hasked.trans (hnoMore _ _ (by simp; omega))) hnext
    exact ⟨himg.trans hfield, hf⟩
  case drop =>
    obtain ⟨hasked, hfield⟩ := drop_takes (u := fetchGranted s ahead) (data := data) d
    obtain ⟨hf, -, -, hc, -⟩ := hside ahead (hasked.trans (List.append_nil _)) hnext
    exact ⟨(congrArg (fun v => v[d].row) hc).trans hfield, hf⟩
  case posting =>
    obtain ⟨hasked, hfield⟩ := posting_takes (u := fetchGranted s ahead) (data := data) hreversal
    obtain ⟨hf, hp, -⟩ := hside ahead (hasked.trans (hnoMore _ _ (by simp [hwords]))) hnext
    exact ⟨(congrArg (·.reversal) hp).trans hfield, hf⟩
  case journal =>
    obtain ⟨hasked, hfield⟩ := journal_takes (u := fetchGranted s ahead) (data := data) hserving hchain
    obtain ⟨hf, -, -, -, hj, -⟩ := hside ahead (hasked.trans (List.append_nil _)) hnext
    exact ⟨(congrArg (·.buffer) hj).trans hfield, hf⟩
  case first =>
    obtain ⟨hasked, hfield⟩ := day_takes_first (u := fetchGranted s ahead) (data := data) hfirst
    obtain ⟨hf, -, -, -, -, hd⟩ := hside ahead (hasked.trans (hnoMore _ _ (by
      change ((s.day.records[0].words.length + 1) % 32 == 0) = false
      simp; omega))) hnext
    exact ⟨(congrArg (fun d => d.records[0].words) hd).trans hfield, hf⟩
  case second =>
    obtain ⟨hasked, hfield⟩ := day_takes_second (u := fetchGranted s ahead) (data := data) hfirst
    obtain ⟨hf, -, -, -, -, hd⟩ := hside ahead (hasked.trans (hnoMore _ _ (by
      change ((s.day.records[1].words.length + 1) % 32 == 0 && _) = false
      simp; omega))) hnext
    exact ⟨(congrArg (fun d => d.records[1].words) hd).trans hfield, hf⟩

theorem lastDoublewordEndsTheRequest : Claims.LastDoublewordEndsTheRequest := by
  intro s r rest hr hgrant hfetches hleft data waits next
  have hrest : leftAfter r rest = rest := if_pos (by omega)
  obtain ⟨t, ht, hbooks, hstreak, hside⟩ := exec_fetchGrant_asked hr hgrant hfetches
  rw [hrest] at hside
  refine ⟨t, ht, hbooks, hstreak, ?drop, ?posting, ?journal, ?chain, ?control, ?first, ?second⟩
  case drop =>
    intro d hclient hwaits
    rw [hclient] at hside
    obtain ⟨hasked, hfield⟩ := drop_takes (u := fetchGranted s rest) (data := data) d
    obtain ⟨hf, -, -, hc, -⟩ := hside (rest ++ []) hasked hwaits
    exact ⟨(congrArg (fun v => v[d].row) hc).trans hfield, hf.trans (List.append_nil _)⟩
  case posting =>
    intro f hclient hreversal asked hwaits
    rw [hclient] at hside
    obtain ⟨hasked, hfield⟩ := posting_takes (u := fetchGranted s rest) (data := data) hreversal
    obtain ⟨hf, hp, -⟩ := hside (rest ++ asked) hasked hwaits
    exact ⟨(congrArg (·.reversal) hp).trans hfield, hf⟩
  case journal =>
    intro u chain hclient hruns hserving hchain hwaits
    rw [hclient] at hside
    have hrun : (runOf s.journal u.requester).bind (·.chain) = some chain := by simp [runOf, hruns, hchain]
    obtain ⟨hasked, hfield⟩ := journal_takes (u := fetchGranted s rest) (data := data) hserving hrun
    obtain ⟨hf, -, -, -, hj, -⟩ := hside (rest ++ []) hasked hwaits
    exact ⟨(congrArg (·.buffer) hj).trans hfield, hf.trans (List.append_nil _)⟩
  case chain =>
    intro u hclient hruns hstarted hserving hchain last entries asked hwaits
    rw [hclient] at hside
    obtain ⟨hasked, hfield, hbuffer⟩ :=
      journal_takes_chain (u := fetchGranted s rest) (data := data) hserving hruns hstarted hchain
    obtain ⟨hf, -, -, -, hj, -⟩ := hside (rest ++ asked) hasked hwaits
    exact ⟨(congrArg (·.runs) hj).trans hfield, (congrArg (·.buffer) hj).trans hbuffer, hf⟩
  case control =>
    intro words hclient himage n asked hwaits
    rw [hclient] at hside
    obtain ⟨hasked, hfield⟩ := control_takes (u := fetchGranted s rest) (data := data) himage
    obtain ⟨hf, -, himg, -⟩ := hside (rest ++ asked) hasked hwaits
    exact ⟨himg.trans hfield, hf⟩
  case first =>
    intro hclient hfirst n asked hwaits
    rw [hclient] at hside
    obtain ⟨hasked, hfield⟩ := day_takes_first (u := fetchGranted s rest) (data := data) hfirst
    obtain ⟨hf, -, -, -, -, hd⟩ := hside (rest ++ asked) hasked hwaits
    exact ⟨(congrArg (fun d => d.records[0].words) hd).trans hfield, hf⟩
  case second =>
    intro hclient hfirst n asked hwaits
    rw [hclient] at hside
    obtain ⟨hasked, hfield⟩ := day_takes_second (u := fetchGranted s rest) (data := data) hfirst
    obtain ⟨hf, -, -, -, -, hd⟩ := hside (rest ++ asked) hasked hwaits
    exact ⟨(congrArg (fun d => d.records[1].words) hd).trans hfield, hf⟩

/-! ### The requests that commands begin with (R119, R121, R167, R194) -/

/-- A command that a granted write gives runs on the state in which it is taken, and keeps the fetches that it makes
where none can be answered at once. -/
theorem exec_command_fetches {c : Instr} {s : State} {addr : Nat} {mask : ByteMask} {data : Dword} {code : Nat}
    (h : CommandGiven s addr mask data code) (hc : exec c s = running s fun s => grantCommand s code)
    {asked : List FetchRequest}
    (hasked : (runCommand (commandTaken s addr mask data) code).path.fetches = asked)
    (hnone : ∀ q ∈ asked.head?,
      newestEntry (runCommand (commandTaken s addr mask data) code).path.queue q.next = none) :
    ∃ t, exec c s = .next t ∧ t.path.fetches = asked := by
  obtain ⟨t, ht, -, hside⟩ := exec_fetchSide h.1.1 hc (grantCommand_eq h)
  have hf := hside (by rw [NoneAnswered, hasked]; exact hnone)
  exact ⟨t, ht, (congrArg (·.1) hf).trans hasked⟩

/-- A group handed over leaves the fetches. -/
@[simp] theorem handGroup_fetches (s : State) (g : Group) : (handGroup s g).path.fetches = s.path.fetches := by
  simp only [handGroup]
  split <;> rfl

/-- A completion leaves the fetches. -/
@[simp] theorem complete_fetches (s : State) (status : Status) (detail : Nat) :
    (complete s status detail).path.fetches = s.path.fetches := handGroup_fetches _ _

/-- What a completion places depends on the path and on the command taken. -/
theorem complete_path {s t : State} (hpath : s.path = t.path) (htaken : s.control.taken = t.control.taken)
    (status : Status) (detail : Nat) : (complete s status detail).path = (complete t status detail).path := by
  simp only [complete, handGroup, windowBase, hpath, htaken]

/-- The first request for the carry-forward records. -/
theorem fetchRecords_path (s : State) (work : DayWork) :
    (fetchRecords s work).path.fetches = s.path.fetches ++ [⟨.day, windowBase s 6, 32⟩] ∧
      (fetchRecords s work).path.queue = s.path.queue := by
  simp [fetchRecords, copyAddress, windowBase]

/-- APPLY_CONFIG in SETUP or SETTLED, with no settlement write, asks for the image (R194). -/
theorem commandApplyConfig_taken {u : State} (hstate : u.day.state = .setup ∨ u.day.state = .settled)
    (hsettlement : u.day.settlement = none) :
    commandApplyConfig u = requestFetch
      (complete { u with control := { u.control with image := some [] } } .inProgress 0)
      .control (windowBase u 0) 32 := by
  rw [commandApplyConfig, if_neg]
  obtain h | h := hstate <;> simp [h, hsettlement]

/-- A date is valid where its month and day are in their ranges. -/
theorem dateValid_iff (d : Nat) :
    dateValid d = true ↔ 1 ≤ d / 100 % 100 ∧ d / 100 % 100 ≤ 12 ∧ 1 ≤ d % 100 ∧ d % 100 ≤ 31 := by
  simp [dateValid, and_assoc]

/-- OPEN_DAY without the fresh flag, where nothing refuses it, asks for the carry-forward records (R168). -/
theorem commandOpenDay_taken {u : State} (hstate : u.day.state = .setup ∨ u.day.state = .settled)
    (hsettlement : u.day.settlement = none) (hconfig : u.control.config ≠ none)
    (hdate : dateValid (laneField (argument u 0) 0 4) = true) (htime : laneField (argument u 1) 0 4 < 172800)
    (hfresh : laneField (argument u 2) 0 1 = 0) :
    commandOpenDay u = fetchRecords (complete u .inProgress 0)
      (.openFetching (laneField (argument u 0) 0 4) (laneField (argument u 1) 0 4)) := by
  obtain ⟨c, hc⟩ := Option.ne_none_iff_exists'.mp hconfig
  rw [commandOpenDay, if_neg, if_neg, if_pos hfresh]
  · simp [hdate, hfresh]; omega
  · obtain h | h := hstate <;> simp [h, hsettlement, hc, hfresh]

/-- RESUME_DAY in SETUP, where nothing refuses it, asks for the carry-forward records (R175). -/
theorem commandResumeDay_taken {u : State} (hstate : u.day.state = .setup) (hconfig : u.control.config ≠ none)
    (htime : laneField (argument u 0) 0 4 < 172800) :
    commandResumeDay u = fetchRecords
      (complete { u with day := { u.day with state := .recovering, clock := laneField (argument u 0) 0 4 } }
        .inProgress 0) .resumeChoosing := by
  obtain ⟨c, hc⟩ := Option.ne_none_iff_exists'.mp hconfig
  rw [commandResumeDay, if_neg (by simp [hstate, hc]), if_neg (by omega)]

/-- CHECK_JOURNAL, where nothing refuses it, asks for a run over the day's entries (R121). -/
theorem commandCheckJournal_taken {u : State} (hstate : u.day.state ≠ .recovering)
    (hpresent : u.journal.present = true) :
    commandCheckJournal u = askRun
      (complete { u with control := { u.control with journalCheck := some (u.journal.next - 1, u.journal.chain) } }
        .inProgress 0) .check 1 (some (u.journal.next - 1)) := by
  rw [commandCheckJournal, if_neg (by simp [hstate, hpresent])]

/-- A group of another producer leaves the Journal Unit free or not (R106). -/
theorem journalUnitFree_handGroup (s : State) {g : Group} (h : g.producer ≠ .journal) :
    journalUnitFree (handGroup s g) = journalUnitFree s := by
  simp only [journalUnitFree, handGroup]
  split
  · rfl
  · simp [h]

/-- What a completion leaves of the configuration in force. -/
theorem complete_configuration (s : State) (status : Status) (detail : Nat) :
    (complete s status detail).configuration = s.configuration :=
  congrArg (·.getD noConfiguration) (complete_kept s status detail).2

/-- The requests a command body makes where none were waiting, and the queue it leaves them with. -/
def AsksFirst (u x : State) (q : FetchRequest) : Prop :=
  x.path.fetches = [q] ∧ x.path.queue = (complete u .inProgress 0).path.queue

section

variable {u : State}

theorem commandApplyConfig_asks (hfetches : u.path.fetches = [])
    (hstate : u.day.state = .setup ∨ u.day.state = .settled) (hsettlement : u.day.settlement = none) :
    AsksFirst u (commandApplyConfig u) ⟨.control, windowBase u 0, 32⟩ := by
  rw [commandApplyConfig_taken hstate hsettlement]
  refine ⟨?_, congrArg (·.queue) (complete_path rfl rfl _ _)⟩
  rw [requestFetch_fetches, complete_fetches]
  exact congrArg (· ++ _) hfetches

/-- The first carry-forward request behind a completion. -/
theorem fetchRecords_asks {v : State} (hfetches : u.path.fetches = []) (hpath : v.path = u.path)
    (htaken : v.control.taken = u.control.taken) (work : DayWork) :
    AsksFirst u (fetchRecords (complete v .inProgress 0) work) ⟨.day, windowBase u 6, 32⟩ := by
  have hcomplete : (complete v .inProgress 0).path = (complete u .inProgress 0).path := complete_path hpath htaken _ _
  have hbase : windowBase (complete v .inProgress 0) 6 = windowBase u 6 := by
    simp only [windowBase, hcomplete]
    simp only [complete, handGroup]
    split <;> rfl
  obtain ⟨hf, hq⟩ := fetchRecords_path (complete v .inProgress 0) work
  refine ⟨?_, hq.trans (congrArg (·.queue) hcomplete)⟩
  rw [hf, complete_fetches, hpath, hfetches, hbase, List.nil_append]

theorem commandCheckJournal_asks (hfetches : u.path.fetches = []) (hstate : u.day.state ≠ .recovering)
    (hpresent : u.journal.present = true) (hruns : u.journal.runs = []) (hserving : u.journal.serving = none)
    (hfree : journalUnitFree u = true) :
    AsksFirst u (commandCheckJournal u)
      ⟨.journal, ringAddress u (ringPosition u 1),
        8 * min (min 4 (ringSize u - ringPosition u 1)) (u.journal.next - 1)⟩ := by
  let v : State := { u with control := { u.control with
    journalCheck := some (u.journal.next - 1, u.journal.chain) } }
  let r : Run := ⟨.check, 1, some (u.journal.next - 1), some 0xFFFFFFFF, true⟩
  let w : State := { complete v .inProgress 0 with journal := { u.journal with runs := [r] } }
  have hfreeAfter : journalUnitFree (complete v .inProgress 0) = true :=
    (journalUnitFree_handGroup v (by simp)).trans hfree
  have hasked : askRun (complete v .inProgress 0) .check 1 (some (u.journal.next - 1)) = serveRuns w := by
    rw [askRun, hfreeAfter]
    simp only [complete_journal, v, hruns, List.nil_append]
    rfl
  have hconfiguration : w.configuration = u.configuration := complete_configuration v _ _
  have hsize : ringSize w = ringSize u := congrArg (·.size) hconfiguration
  have hposition : ringPosition w 1 = ringPosition u 1 := by
    simp only [ringPosition, hsize]
    rfl
  have haddress : ringAddress w (ringPosition w 1) = ringAddress u (ringPosition u 1) := by
    rw [hposition, ringAddress, ringAddress, hconfiguration]
  have hrequest : runRequest w r = ⟨.journal, ringAddress u (ringPosition u 1),
      8 * min (min 4 (ringSize u - ringPosition u 1)) (u.journal.next - 1)⟩ := by
    rw [runRequest, if_neg (by simp [r]), requestEntries, haddress, hposition, hsize]
    rfl
  obtain ⟨hf, hq, -⟩ := serveRuns_one (u := w) (r := r) hserving rfl rfl
  rw [commandCheckJournal_taken hstate hpresent]
  refine ⟨?_, ?_⟩
  · exact (congrArg (·.path.fetches) hasked).trans (hf.trans (by
      rw [hrequest, show w.path.fetches = _ from complete_fetches v _ _, show v.path.fetches = _ from hfetches,
        List.nil_append]))
  · exact (congrArg (·.path.queue) hasked).trans (hq.trans (congrArg (·.queue) (complete_path rfl rfl _ _)))

end

/-- A taken command whose body asks for its first data makes that one request. -/
theorem exec_command_asks {c : Instr} {s : State} {addr : Nat} {mask : ByteMask} {data : Dword} {code : Nat}
    {q : FetchRequest} (h : CommandGiven s addr mask data code)
    (hc : exec c s = running s fun s => grantCommand s code)
    (hasks : AsksFirst (commandTaken s addr mask data) (runCommand (commandTaken s addr mask data) code) q)
    (hnone : newestEntry (complete (commandTaken s addr mask data) .inProgress 0).path.queue q.next = none) :
    ∃ t, exec c s = .next t ∧ t.path.fetches = [q] := by
  obtain ⟨hf, hq⟩ := hasks
  refine exec_command_fetches h hc hf ?_
  rintro q' ⟨⟩
  rw [hq]
  exact hnone

/-- A command is taken with the arguments written before it (R192). -/
theorem argument_commandTaken (s : State) (addr : Nat) (mask : ByteMask) (data : Dword) (i : Fin 6) :
    argument (commandTaken s addr mask data) i = s.control.arguments[i] := by
  simp only [argument, commandTaken]

/-- A command is taken under the configuration in force. -/
theorem config_commandTaken (s : State) (addr : Nat) (mask : ByteMask) (data : Dword) :
    (commandTaken s addr mask data).control.config = s.control.config := by
  simp only [commandTaken]

/-- A command is taken at the bases and sizes in force. -/
theorem configuration_commandTaken (s : State) (addr : Nat) (mask : ByteMask) (data : Dword) :
    (commandTaken s addr mask data).configuration = s.configuration :=
  congrArg (·.getD noConfiguration) (config_commandTaken s addr mask data)

/-- A command is taken with the Journal Unit free or not, as it was. -/
theorem journalUnitFree_commandTaken (s : State) (addr : Nat) (mask : ByteMask) (data : Dword) :
    journalUnitFree (commandTaken s addr mask data) = journalUnitFree s := by
  simp only [journalUnitFree, commandTaken, written]
  rfl

theorem commandsRequestTheirData : Claims.CommandsRequestTheirData := by
  intro s addr mask data hfetches asks date valid entries
  refine ⟨fun h hstate hsettlement hnone => ?apply, fun h hstate hsettlement hconfig hvalid htime hfresh hnone =>
    ?openDay, fun h hstate hconfig htime hnone => ?resume, fun h hstate hpresent hruns hserving hfree hnone => ?check⟩
  case apply =>
    refine exec_command_asks h (exec_applyConfig s) ?_ hnone
    exact commandApplyConfig_asks (u := commandTaken s addr mask data) hfetches hstate hsettlement
  case openDay =>
    refine exec_command_asks h (exec_openDay s) ?_ hnone
    have hdate : dateValid (laneField (argument (commandTaken s addr mask data) 0) 0 4) = true := by
      rw [argument_commandTaken, dateValid_iff]
      exact hvalid
    have htime' : laneField (argument (commandTaken s addr mask data) 1) 0 4 < 172800 := by
      rw [argument_commandTaken]
      exact htime
    have hfresh' : laneField (argument (commandTaken s addr mask data) 2) 0 1 = 0 := by
      rw [argument_commandTaken]
      exact hfresh
    have hbody := commandOpenDay_taken (u := commandTaken s addr mask data) hstate hsettlement
      (by rwa [config_commandTaken]) hdate htime' hfresh'
    rw [show runCommand (commandTaken s addr mask data) 2 = _ from hbody]
    exact fetchRecords_asks (u := commandTaken s addr mask data) hfetches rfl rfl _
  case resume =>
    refine exec_command_asks h (exec_resumeDay s) ?_ hnone
    have htime' : laneField (argument (commandTaken s addr mask data) 0) 0 4 < 172800 := by
      rw [argument_commandTaken]
      exact htime
    have hbody := commandResumeDay_taken (u := commandTaken s addr mask data) hstate
      (by rwa [config_commandTaken]) htime'
    rw [show runCommand (commandTaken s addr mask data) 3 = _ from hbody]
    have hbase : windowBase s 6 = windowBase (commandTaken s addr mask data) 6 := by
      simp only [windowBase, commandTaken, written]
      rfl
    have hfetchesTaken : (commandTaken s addr mask data).path.fetches = [] := hfetches
    rw [hbase]
    generalize commandTaken s addr mask data = u at *
    refine fetchRecords_asks (u := u) (v := { u with day := { u.day with
      state := .recovering, clock := laneField (argument u 0) 0 4 } }) hfetchesTaken rfl rfl .resumeChoosing
  case check =>
    refine exec_command_asks h (exec_checkJournal s) ?_ hnone
    have hasked := commandCheckJournal_asks (u := commandTaken s addr mask data) hfetches hstate hpresent hruns hserving
      ((journalUnitFree_commandTaken s addr mask data).trans hfree)
    simp only [ringAddress, ringPosition, ringSize, configuration_commandTaken] at hasked
    exact hasked

/-! ### The requests of deferred answers and of a visit (R27, R106, R119, R128) -/

theorem deferredRunMakesItsRequest : Claims.DeferredRunMakesItsRequest := by
  intro s r hr hfetches hruns hserving hreversal hfree last entries asked hnone
  let started : Run := { r with started := true }
  let w : State := { s with journal := { s.journal with runs := [started] } }
  have hbody : answerPositions s = serveRuns w := by
    rw [answerPositions, if_neg (by simp [hfree])]
    simp only [hruns, List.map_cons, List.map_nil, hreversal]
    rfl
  obtain ⟨hf, hq, hj⟩ := serveRuns_one (u := w) (r := started) hserving rfl rfl
  have hasked : (serveRuns w).path.fetches = [asked] := by
    rw [hf, show w.path.fetches = [] from hfetches]
    rfl
  obtain ⟨t, ht, -, hside⟩ := exec_fetchSide hr (exec_ringPositionAnswer s) hbody
  have hnoneAfter : NoneAnswered (serveRuns w) := by
    rw [NoneAnswered, hasked, hq]
    rintro q ⟨⟩
    exact hnone
  have hsame := hside hnoneAfter
  simp only [fetchSide, Prod.mk.injEq] at hsame
  obtain ⟨hfAfter, -, -, -, -, hjAfter, -⟩ := hsame
  rw [hj] at hjAfter
  exact ⟨t, ht, congrArg (·.runs) hjAfter, congrArg (·.serving) hjAfter, hfAfter.trans hasked⟩

/-- A visit of a PRESENT terminal with nothing pending takes the row to be sent (R127, R128). -/
theorem visitNext_takesRow {s : State} {d : Fin 2} {p : Fin 16} {rest : List (Fin 16)} {n : Nat}
    (hpresent : s.screen.positions[p].state = .present) (hbell : s.screen.positions[p].bell = false)
    (hecho : s.screen.positions[p].echo = false) (hrow : rowToSend s.screen.positions[p].dirty = some n) :
    visitNext s d (p :: rest) =
      takeRow (setController s d { s.screen.controllers[d] with remaining := rest, rowsSent := 0 }) d p n := by
  have hsent : (setController s d { s.screen.controllers[d] with
      remaining := rest, rowsSent := 0 }).screen.controllers[d].rowsSent < 2 := by simp
  simp only [visitNext, hpresent, beginVisit, hbell, Bool.false_eq_true, if_false, visitEcho, setController_screen,
    hecho, visitRows, hrow]
  exact if_pos hsent

theorem visitTakesItsRow : Claims.VisitTakesItsRow := by
  intro s d p rest n hr hfetches hmode hexchange hpositions hpresent hbell hecho hrow hnone
  let visiting := setController s d { s.screen.controllers[d] with remaining := rest, rowsSent := 0 }
  have hbody : startCycle s d = takeRow visiting d p n := by
    rw [startCycle, if_pos ⟨hmode, hexchange⟩, beginCycle, hpositions, visitNext_takesRow hpresent hbell hecho hrow]
  have hasked : (takeRow visiting d p n).path.fetches =
      if n = 23 then [] else [⟨.drop d, windowBase s 2 + p.val * 0x1000 + n * 0xA0, 20⟩] := by
    simp only [takeRow]
    split
    · exact hfetches
    · exact (requestFetch_fetches _ _ _ _).trans (congrArg (· ++ _) hfetches)
  have hqueue : (takeRow visiting d p n).path.queue = s.path.queue := by
    simp only [takeRow]
    split <;> rfl
  have hcontroller : (takeRow visiting d p n).screen.controllers[d] =
      { visiting.screen.controllers[d] with
        exchange := some ⟨p, .row false, .filling⟩, rowNumber := n,
        row := if n = 23 then dwordsOfBytes 20 (s.screen.positions[p].composition.getD []) else [],
        rowsSent := visiting.screen.controllers[d].rowsSent + 1 } := by
    simp only [takeRow]
    split <;> simp [visiting]
  obtain ⟨t, ht, -, hside⟩ := exec_fetchSide hr (exec_cycleStart d s) hbody
  have hnoneAfter : NoneAnswered (takeRow visiting d p n) := by
    rw [NoneAnswered, hasked, hqueue]
    split
    · rintro q ⟨⟩
    · rintro q ⟨⟩
      exact hnone
  have hsame := hside hnoneAfter
  simp only [fetchSide, Prod.mk.injEq] at hsame
  obtain ⟨hfAfter, -, -, -, hcAfter, -⟩ := hsame
  have hc : t.screen.controllers[d] = _ := (congrArg (·[d]) hcAfter).trans hcontroller
  exact ⟨t, ht, by rw [hc], by rw [hc], by rw [hc], hfAfter.trans hasked⟩

/-- Without a run there is nothing to serve. -/
theorem serveRuns_none {s : State} (hruns : s.journal.runs = []) : serveRuns s = s := by
  unfold serveRuns
  split
  · rfl
  · simp [nextRun, hruns]

theorem ringPositionAnswerStartsTheFetch : Claims.RingPositionAnswerStartsTheFetch := by
  intro s n hr hqueue hfetches hfree hruns hreversal
  have hstarted : ({ s with journal := { s.journal with
      runs := s.journal.runs.map fun r => { r with started := true } } } : State) = s := by
    rw [hruns, List.map_nil, ← hruns]
  have hbody : answerPositions s = askReversal s ⟨n, false, false, []⟩ := by
    rw [answerPositions, if_neg (by simp [hfree]), hstarted]
    simp only [hreversal, serveRuns_none hruns, Bool.false_eq_true, if_false]
  have hanswer : askReversal s ⟨n, false, false, []⟩ =
      let asked : State := { s with posting := { s.posting with
        reversal := some ⟨n, true, ringPosition s n == 0, []⟩ } }
      if ringPosition s n = 0 then requestFetch asked .posting (ringAddress s 0) 8
      else requestFetch asked .posting (ringAddress s (ringPosition s n) - 8) 9 := by
    simp only [askReversal, beq_iff_eq]
  obtain ⟨t, ht, hview, hside⟩ := exec_fetchSide hr (exec_ringPositionAnswer s) (hbody.trans hanswer)
  refine ⟨t, ht, (books_of_view hview).trans ?_, ?_⟩
  · dsimp only
    split <;> rfl
  · refine (congrArg (·.1) (hside ?_)).trans ?_
    · dsimp only
      split <;> (rintro q -; simp [newestEntry, hqueue])
    · simp only [fetchSide]
      split <;> simp [hfetches]

/-- Settles O16: grants, commands, deferred answers and visits, each with its requests. -/
theorem fetchesReachTheirClients : Obligations.FetchesReachTheirClients :=
  ⟨fetchGrantAnswersTheCurrentDoubleword, lastDoublewordEndsTheRequest, commandsRequestTheirData,
    deferredRunMakesItsRequest, visitTakesItsRow, ringPositionAnswerStartsTheFetch⟩

end Sys2Proof.Machine
end

