-- ==== Sys2Proof/Proofs/SlotWrites.lean ====
section
/-! SUPPORT. The writes of a slot: its fields by byte lane, its commit, and what becoming head does (R7, R22 to R27). -/

namespace Sys2Proof.Machine

/-- Equal books have the same slots. -/
theorem slots_of_books {s t : State} (h : books s = books t) : s.posting.slots = t.posting.slots := by
  change (books s).posting.slots = (books t).posting.slots
  rw [h]

section

variable {s : State} {addr : Nat} {mask : ByteMask} {data : Dword} {n : Fin 16} {o : Nat}

/-- A write to the fields of a slot that is not SUBMITTED passes, where no entry is pending (R7, R22). -/
theorem takeWrite_slotFields (hregion : regionAt s addr = some (.slotFields n o)) (hpending : pendingAt s addr = false)
    (hstate : s.posting.slots[n].state ≠ .submitted) :
    takeWrite s addr mask data = captureSlot (written s addr mask data) n o mask data :=
  takeWrite_capture ((writePasses_eq hpending hregion).trans (by simpa [regionPasses] using hstate)) hregion

/-- A capture that is no commit leaves the slot FILLING (R22, R23). -/
theorem captureSlot_filling (h : commits o mask (captureBuffer s.posting.slots[n].buffer o mask data) = false) :
    captureSlot s n o mask data = { s with posting := { s.posting with
      slots := s.posting.slots.set n ⟨captureBuffer s.posting.slots[n].buffer o mask data, .filling⟩ } } := by
  simp only [captureSlot, h, Bool.false_eq_true, if_false]

/-- The commit doubleword is a commit where lanes 0 to 3 carry the submit code (R24). -/
theorem commits_commitDword (b : List Byte) (hlow : lowLanes mask = true) :
    commits 0x70 mask (captureBuffer b 0x70 mask data) = decide (laneField data 0 4 = 0x54534F50) := by
  simp [commits, hlow, field_captureBuffer b mask data hlow, submitCode, beq_eq_decide]

end

theorem slotWriteIsCapturedByLane : Claims.SlotWriteIsCapturedByLane := by
  intro s addr mask data n o h hregion hpending hstate hno
  have hcommit : (o == 0x70 && lowLanes mask) = false := by
    rw [Bool.and_eq_false_iff]
    by_cases ho : o = 0x70
    · exact Or.inr (Bool.eq_false_iff.mpr fun hl => hno ⟨ho, hl⟩)
    · exact Or.inl (beq_eq_false_iff_ne.mpr ho)
  have hrow : rowIsSlotField (regionAt s addr) mask data = true := by
    rw [hregion]
    by_cases ho : o = 0x70
    · subst ho
      simpa [rowIsSlotField, rowIsCommit] using hcommit
    · simp [rowIsSlotField, rowIsCommit, ho]
  obtain ⟨t, ht, hbooks, hwrites⟩ := gives_conclude h.1 (exec_slotFieldWrite s)
    ((grantWriteWhen_eq h hrow).trans ((takeWrite_slotFields hregion hpending hstate).trans
      (captureSlot_filling (by rw [commits, hcommit, Bool.false_and]))))
  have hslot : t.posting.slots[n] = ⟨captureBuffer s.posting.slots[n].buffer o mask data, .filling⟩ :=
    (congrArg (·[n]) (slots_of_books hbooks)).trans (Vector.getElem_set_self _)
  refine ⟨t, ht, ?_, hwrites, fun j hj => ?_⟩
  · rw [hslot]
    exact hbooks
  · rw [hslot]
    exact captureBuffer_getD _ _ _ _ j hj

theorem commitSubmitsTheSlot : Claims.CommitSubmitsTheSlot := by
  intro s addr mask data n h hregion hpending hstate hlow
  have hrow : rowIsCommit (regionAt s addr) mask data = true := by
    rw [hregion]
    exact hlow
  have htaken := (grantWriteWhen_eq h hrow).trans (takeWrite_slotFields hregion hpending hstate)
  have hcommits := commits_commitDword (data := data) s.posting.slots[n].buffer hlow
  refine ⟨captureBuffer s.posting.slots[n].buffer 0x70 mask data, fun j hj => ?buffer, ?_⟩
  case buffer =>
    rw [captureBuffer_getD _ _ _ _ j hj]
    simp only [show j < 0x70 + 8 from hj, true_and]
  intro filled queued
  have hcaptured : captureSlot (written s addr mask data) n 0x70 mask data =
      if laneField data 0 4 = 0x54534F50 then
        (if s.posting.queue.isEmpty then newHead queued else queued)
      else filled .filling s.posting.queue := by
    by_cases hcode : laneField data 0 4 = 0x54534F50
    · rw [if_pos hcode]
      exact if_pos (hcommits.trans (decide_eq_true hcode))
    · rw [if_neg hcode]
      exact captureSlot_filling (hcommits.trans (decide_eq_false hcode))
  refine ⟨fun hcode hqueue => ?_, fun hcode hqueue => ?_, fun hcode => ?_⟩
  all_goals
    refine givesAsking_conclude h.1 (exec_commit s) (htaken.trans (hcaptured.trans ?_))
    simp [hcode]
  · simp [hqueue]
  · simp [hqueue]

/-! ### Becoming head (R26, R27) -/

/-- A REVERSAL that becomes head has a fetch to make (R27; log 36). -/
def headFetches (s : State) (e : SubmitEntry) : Prop :=
  let f := slotFieldsOf s e.slot
  f.kind = 7 ∧ (e.marked = true ∨ s.day.state = .opened ∨ s.day.state = .closing) ∧
    2 ≤ f.reverseRef ∧ f.reverseRef + 1 ≤ s.journal.next

/-- The day state that an entry is judged under is OPEN or CLOSING as the mark and the day say (R30). -/
theorem judgedState_fetches (s : State) (e : SubmitEntry) :
    (judgedState s e = .opened ∨ judgedState s e = .closing) ↔
      (e.marked = true ∨ s.day.state = .opened ∨ s.day.state = .closing) := by
  cases hmarked : e.marked <;> simp [judgedState, hmarked]

/-- The state whose head has its need. -/
def needed (s : State) (e : SubmitEntry) : State :=
  { s with posting := { s.posting with need := some (headNeed (slotFieldsOf s e.slot).kind), reversal := none } }

section

variable {s : State} {e : SubmitEntry} {rest : List SubmitEntry}

theorem newHead_cons (hqueue : s.posting.queue = e :: rest) :
    newHead s =
      let f := slotFieldsOf s e.slot
      let state := judgedState s e
      let r : ReversalFetch := ⟨f.reverseRef, false, false, []⟩
      if f.kind = 7 ∧ (state = .opened ∨ state = .closing) ∧ 2 ≤ f.reverseRef ∧
          f.reverseRef + 1 ≤ s.journal.next then
        (if journalUnitFree s then askReversal (needed s e) r
        else { needed s e with posting := { (needed s e).posting with reversal := some r } })
      else needed s e := by
  unfold newHead
  split
  next h => simp [hqueue] at h
  next h =>
    obtain ⟨rfl, -⟩ := List.cons.inj (hqueue.symm.trans h)
    rfl

theorem newHead_fetches (hqueue : s.posting.queue = e :: rest) (h : headFetches s e) :
    newHead s =
      let r : ReversalFetch := ⟨(slotFieldsOf s e.slot).reverseRef, false, false, []⟩
      if journalUnitFree s then askReversal (needed s e) r
      else { needed s e with posting := { (needed s e).posting with reversal := some r } } := by
  obtain ⟨hkind, hstate, href⟩ := h
  exact (newHead_cons hqueue).trans (if_pos ⟨hkind, (judgedState_fetches s e).mpr hstate, href⟩)

theorem newHead_no_fetch (hqueue : s.posting.queue = e :: rest) (h : ¬headFetches s e) :
    newHead s = needed s e :=
  (newHead_cons hqueue).trans
    (if_neg fun ⟨hkind, hstate, href⟩ => h ⟨hkind, (judgedState_fetches s e).mp hstate, href⟩)

end

theorem newHead_empty {s : State} (hqueue : s.posting.queue = []) :
    newHead s = { s with posting := { s.posting with need := none, reversal := none } } := by
  simp only [newHead, hqueue]

theorem newHeadTakesItsNeedAndFetch : Claims.NewHeadTakesItsNeedAndFetch := by
  refine fun s => ⟨newHead_empty, fun e rest hqueue => ?_⟩
  intro f fetches position headed asking
  have hneeded : needed s e = headed none := by simp only [needed, headNeed_eq, headed, f]
  refine ⟨fun h => ?none, fun h hfree => ?waits, fun h hfree hposition => ?wrapped, fun h hfree hposition => ?asks⟩
  case none => exact (newHead_no_fetch hqueue h).trans hneeded
  all_goals
    rw [newHead_fetches hqueue h]
    simp only [hneeded, hfree, Bool.false_eq_true, if_false, if_true]
  case waits => rfl
  case wrapped =>
    have hp : ringPosition (headed none) f.reverseRef = 0 := hposition
    simp only [askReversal, f] at hp ⊢
    simp only [hp, beq_self_eq_true, if_true, requestFetch, List.isEmpty_iff]
    rfl
  case asks =>
    have hp : ringPosition (headed none) f.reverseRef ≠ 0 := hposition
    simp only [askReversal, f] at hp ⊢
    simp only [beq_eq_false_iff_ne.mpr hp, Bool.false_eq_true, if_false, requestFetch, List.isEmpty_iff]
    rfl

/-! ### The fields of a slot (R22, 13.1) -/

/-- Fields of two bytes are the numbers at their offsets. -/
theorem fields16_eq (b : List Byte) (o n : Nat) :
    fields16 b o n = (List.range n).map fun i => uintAt b (o + 2 * i) 2 := by
  simp only [fields16, field_eq_uintAt]

/-- A field of eight bytes read in two's complement. -/
theorem signed64_field (b : List Byte) (o : Nat) :
    -2 ^ 63 ≤ signed64 (field b o 8) ∧ signed64 (field b o 8) < 2 ^ 63 ∧
      signed64 (field b o 8) % 2 ^ 64 = uintAt b o 8 := by
  rw [field_eq_uintAt]
  exact signed64_emod _ (uintAt_lt b o 8)

theorem slotFieldsStandAtTheirOffsets : Claims.SlotFieldsStandAtTheirOffsets := by
  intro s n b f signed
  have hfield : ∀ o k, field b o k = uintAt b o k := field_eq_uintAt b
  exact ⟨hfield _ _, hfield _ _, hfield _ _, hfield _ _, hfield _ _, hfield _ _, hfield _ _, hfield _ _, hfield _ _,
    hfield _ _, signed64_field b _, signed64_field b _, hfield _ _, hfield _ _, signed64_field b _, hfield _ _,
    hfield _ _, fields16_eq b _ _, fields16_eq b _ _, hfield _ _, hfield _ _⟩

/-- Settles O17: captures, commits, the new head, and the offsets of the fields. -/
theorem slotsAreFilledAndCommitted : Obligations.SlotsAreFilledAndCommitted :=
  ⟨slotWriteIsCapturedByLane, commitSubmitsTheSlot, newHeadTakesItsNeedAndFetch, slotFieldsStandAtTheirOffsets⟩

end Sys2Proof.Machine
end

