-- ==== Sys2Proof/Proofs/Checks.lean ====
section
/-! SUPPORT. The checks of a posting: their order, and what each of them tests (R26, R27, R29 to R34, R41, R42, R55 to
R63). -/

namespace Sys2Proof.Machine

/-! ### The order of the checks (R29) -/

/-- A check that fails decides; otherwise the next does. -/
theorem orElse_failsWith (fails : Bool) (r : Reason) (next : Option Reason) :
    orElse (failsWith fails r) next = if fails = true then some r else next := by
  cases fails <;> rfl

/-- The first of two tests that fails. -/
theorem orElse_eq_ite (a b : Option Reason) : orElse a b = if a ≠ none then a else b := by
  cases a <;> rfl

/-- A test made for a kind alone. -/
theorem orElse_ite (p : Prop) [Decidable p] (a b : Option Reason) :
    orElse (if p then a else none) b = if p ∧ a ≠ none then a else b := by
  by_cases hp : p <;> simp [hp, orElse_eq_ite]

/-- The first nine checks and those after them (R29). -/
theorem verdict_eq (s : State) (e : SubmitEntry) :
    let f := slotFieldsOf s e.slot
    let form := judgedForm s f
    verdict s e =
      if f.tagCopy ≠ f.tag then some .tagMismatch
      else if kindPermitted (judgedState s e) f.kind = false then some .dayState
      else if fieldsFit s.configuration e.slot form f = false then some .badField
      else if f.date ≠ s.day.date then some .wrongDate
      else if roleFits s.configuration e.slot form f = false then some .notPermitted
      else if ∃ h ∈ namedHolders form f, s.totals.flags[h].balanced = true then some .holderClosed
      else if ∃ h ∈ namedHolders form f, s.totals.flags[h].held = true ∧ holdBlocks f.kind form f h = true then
        some .holderHeld
      else if ∃ n ∈ readRecords (slotMovement s e f), recordVerifies (recordOf s.totals n.1 n.2) = false then
        some .totalsFault
      else if amountTests s.configuration form f ≠ none then amountTests s.configuration form f
      else if f.kind = 4 ∧ f.amountB ≠ (slotPayable s.configuration f : Int) then some .exchangeMismatch
      else if f.kind = 7 ∧ reversalTests s f ≠ none then reversalTests s f
      else if ∃ n ∈ resultingCounts s.totals (slotMovement s e f), n < 0 then some .shortNotes
      else if ∃ n ∈ resultingCounts s.totals (slotMovement s e f), 65535 < n then some .countRange
      else if s.journal.free ≤ 64 then some .journalFull
      else none := by
  intro f form
  simp only [verdict, orElse_failsWith]
  simp only [orElse_ite, orElse_eq_ite (amountTests _ _ _), failsWith, bne_iff_ne,
    Bool.not_eq_true', List.any_eq_true, Bool.and_eq_true, beq_iff_eq, decide_eq_true_eq]
  rfl

theorem earlierChecksDecide : Claims.EarlierChecksDecide := by
  intro s e f form
  rw [verdict_eq]
  refine ⟨fun htag => if_pos htag, fun htag hkind => ?_, fun htag hkind hfields => ?_,
    fun htag hkind hfields hdate => ?_⟩
  all_goals rw [if_neg (not_not_intro htag)]
  · exact if_pos hkind
  · rw [if_neg (ne_false_of_eq_true hkind)]
    exact if_pos hfields
  · rw [if_neg (ne_false_of_eq_true hkind), if_neg (ne_false_of_eq_true hfields)]
    exact if_pos hdate

theorem laterChecksDecide : Claims.LaterChecksDecide := by
  intro s e f form m named htag hkind hfields hdate
  rw [verdict_eq, if_neg (not_not_intro htag), if_neg (ne_false_of_eq_true hkind),
    if_neg (ne_false_of_eq_true hfields), if_neg (not_not_intro hdate)]

/-! ### Check 3: the fields (R31, R41, R42, R55) -/

/-- An index in range is a number of a finite type. -/
theorem indexOf_eq_some {n v : Nat} {i : Fin n} : indexOf n v = some i ↔ v = i.val := by
  rw [indexOf]
  split
  · rw [Option.some.injEq, Fin.ext_iff]
  · simp only [reduceCtorEq, false_iff]
    omega

/-- A number in no range has no index. -/
theorem indexOf_eq_none {n v : Nat} : indexOf n v = none ↔ n ≤ v := by
  rw [indexOf]
  split <;> simp <;> omega

theorem allZero_iff (counts : List Nat) : allZero counts = true ↔ ∀ x ∈ counts, x = 0 := by
  simp [allZero]

theorem holderUsed_iff (c : Configuration) (h : Nat) :
    holderUsed c h = true ↔ ∃ i : Fin 17, h = i.val ∧ c.holderActive i = true := by
  simp only [holderUsed, Option.any_eq_true, indexOf_eq_some]

theorem currencyUsed_iff (c : Configuration) (k : Nat) (counts : List Nat) :
    currencyUsed c k counts = true ↔ ∃ i : Fin 4, k = i.val ∧ c.hasCurrency i = true ∧
      ∀ x ∈ counts.drop c.currencies[i].denominations, x = 0 := by
  rw [currencyUsed]
  split
  next hnone =>
    rw [indexOf_eq_none] at hnone
    simp only [Bool.false_eq_true, false_iff, not_exists]
    omega
  next i hi =>
    rw [indexOf_eq_some] at hi
    subst hi
    simp only [Bool.and_eq_true, beyondZero, Configuration.denominations, List.all_eq_true, beq_iff_eq, Fin.val_inj,
      exists_eq_left']
    exact and_congr_right fun hcurrency => by rw [if_pos hcurrency]

theorem reversalBreakdown_iff (c : Configuration) (k : Nat) (counts : List Nat) :
    reversalBreakdown c k counts = true ↔ (∀ x ∈ counts, x = 0) ∨
      ∃ i : Fin 4, k = i.val ∧ c.hasCurrency i = true ∧
        ∀ x ∈ counts.drop c.currencies[i].denominations, x = 0 := by
  rw [reversalBreakdown, Bool.or_eq_true, allZero_iff, currencyUsed_iff]

/-- The account and balance of a kind that has them (R42). -/
theorem accountFits_iff {f : SlotFields} (hpassbook : f.passbook ≤ 1) :
    accountFits f = true ↔ (if f.kind = 5 then 1 else f.passbook) ≤ f.account ∧ f.account ≤ 999999999999 ∧
      -999999999999 ≤ f.balance ∧ f.balance ≤ 999999999999 := by
  have hlowest : (if f.kind = 5 ∨ f.passbook = 1 then 1 else 0) = if f.kind = 5 then 1 else f.passbook := by
    by_cases hkind : f.kind = 5
    · simp [hkind]
    · simp only [hkind, false_or, if_false]
      split <;> omega
  rw [← hlowest]
  exact decide_eq_true_iff

theorem fieldsFitTheKind : Claims.FieldsFitTheKind := by
  intro c n form f hseven active used zero account plain noAccount
  have hactive : ∀ h, holderUsed c h = true ↔ active h := holderUsed_iff c
  have hused : ∀ k l, currencyUsed c k l = true ↔ used k l := currencyUsed_iff c
  have hzero : ∀ l, allZero l = true ↔ zero l := allZero_iff
  have hflag : f.passbook = 0 ∨ f.passbook = 1 ↔ f.passbook ≤ 1 := by omega
  have haccount : f.passbook ≤ 1 → (accountFits f = true ↔ account (if f.kind = 5 then 1 else f.passbook)) :=
    accountFits_iff
  have hkind : f.kind = 1 ∨ f.kind = 2 ∨ f.kind = 3 ∨ f.kind = 4 ∨ f.kind = 5 ∨ f.kind = 6 ∨
      ¬(1 ≤ f.kind ∧ f.kind ≤ 7) := by omega
  simp only [fieldsFit, hseven, if_false, formFits, Bool.and_eq_true, decide_eq_true_eq, beq_iff_eq, positionNumber,
    plain, noAccount]
  clear_value active used zero account
  obtain h | h | h | h | h | h | h := hkind
  case inr.inr.inr.inr.inr.inr =>
    simp only [h, false_and, false_iff]
    omega
  all_goals
    simp only [h] at haccount
    simp [h, accountKind, hactive, hused, hzero, hflag]
    tauto

theorem reversalFieldsFit : Claims.ReversalFieldsFit := by
  intro c n form f hseven belongs
  have hbelongs : ∀ k l, reversalBreakdown c k l = true ↔ belongs k l := reversalBreakdown_iff c
  simp only [fieldsFit, hseven, if_true, reversalFits, Bool.and_eq_true, decide_eq_true_eq, beq_iff_eq, positionNumber,
    hbelongs, List.all_eq_true]
  simp [maxAccount, maxAmount, and_assoc]

/-! ### Checks 5 and 7: roles and holds (R32) -/

section

variable {form : Nat} {f : SlotFields} {a b : Fin 17}

theorem namedHolders_transfer (ha : f.holderA = a.val) (hb : f.holderB = b.val) : namedHolders 3 f = [a, b] := by
  simp [namedHolders, ha, hb, indexOf_val]

theorem namedHolders_one (ha : f.holderA = a.val) (hform : form = 1 ∨ form = 2 ∨ form = 4 ∨ form = 6) :
    namedHolders form f = [a] := by
  have hthree : form ≠ 3 := by omega
  simp [namedHolders, hform, hthree, ha, indexOf_val]

theorem namedHolders_none (hform : form = 0 ∨ form = 5) : namedHolders form f = [] := by
  obtain rfl | rfl := hform <;> rfl

end

theorem roleAndHoldJudgeTheNamedHolders : Claims.RoleAndHoldJudgeTheNamedHolders := by
  intro c n form f a b ha hb own
  refine ⟨?transfer, namedHolders_one ha, namedHolders_none, fun hrole => ?supervisor, fun hrole hform => ?teller,
    fun hrole hform => ?tellerTransfer, fun h hkind => ?blocks, fun h hkind => if_pos hkind, ?transferHold⟩
  case transfer =>
    rintro rfl
    exact namedHolders_transfer ha hb
  case supervisor =>
    rw [roleFits, if_pos hrole]
    exact List.all_eq_true
  case teller =>
    rw [roleFits, if_neg (by omega), if_neg hform]
    simp [holderOfPosition, own]
  case tellerTransfer =>
    subst hform
    rw [roleFits, if_neg (by omega), if_pos rfl, namedHolders_transfer ha hb]
    simp [holderOfPosition, own]
  case blocks =>
    have hsix : f.kind ≠ 6 := by omega
    have hthree : f.kind ≠ 3 := by omega
    simp [holdBlocks, hsix, hthree]
  case transferHold =>
    rintro hkind rfl hab
    simp [holdBlocks, hkind, namedHolders_transfer ha hb, hab, hab.symm]

/-! ### Check 9: amounts (R62, R63) -/

theorem amountsAreTestedInOrder : Claims.AmountsAreTestedInOrder := by
  intro c f a b ha hb range sum first
  have hrange : ∀ x, rangeTest (postingAmount x) = range 1 x := fun x => by
    simp only [rangeTest, postingAmount, Bool.and_eq_true, decide_eq_true_eq]
    rfl
  have hcount : rangeTest (countAmount f.amountA) = range 0 f.amountA := by
    simp only [rangeTest, countAmount, Bool.and_eq_true, decide_eq_true_eq]
    rfl
  have hsum : ∀ (k : Fin 4) v counts x, v = k.val → fieldSumTest c v counts x = sum k counts x := by
    rintro k v counts x rfl
    have hover : maxAmount < (breakdownSum (c.faces k) counts : Int) ↔
        999999999999 < (List.zipWith (· * ·) counts (c.faces k)).sum := by
      simp only [maxAmount, breakdownSum]
      omega
    simp only [fieldSumTest, indexOf_val, sumTest, hover]
    rfl
  have hA := hsum a f.currencyA f.breakdownA f.amountA ha
  have hB := hsum b f.currencyB f.breakdownB f.amountB hb
  have hor : ∀ x y : Option Reason, orElse x y = first [x, y] := fun x y => by cases x <;> cases y <;> rfl
  have hpayable : slotPayable c f = exchangePayable c a b f.amountA.toNat f.rate := by
    simp [slotPayable, ha, hb, indexOf_val]
  have hor2 : ∀ (x : Option Reason) (l : List (Option Reason)), orElse x (first l) = first (x :: l) :=
    fun x l => by cases x <;> rfl
  refine ⟨?_, ?_, ?_, ?_, ?_, ?_⟩
  · rintro form (rfl | rfl | rfl) <;> simp only [amountTests, hrange, hA, hor]
  · intro hfour
    have hkind : f.kind ≠ 7 := by omega
    simp only [amountTests, if_neg hkind, hrange, hA, hB, hpayable, hor (range 1 f.amountB), hor2]
  · intro hseven
    have hnone : ∀ x, orElse none x = x := fun _ => rfl
    simp only [amountTests, if_pos hseven, hrange, hA, hB, hnone, hor (range 1 f.amountB)]
    simp only [hor2]
  · exact hrange _
  · simp only [amountTests, hcount, hA, hor]
  · rfl

/-! ### Check 11: the original of a REVERSAL (R57, R58) -/

/-- The buffer gives a usable form where it holds a POSTING of kind 1 to 5 (R55). -/
theorem usableForm_some (r : ReversalFetch) :
    usableForm (some r) = if (entryFields (reversalEntry r)).kind = 2 ∧ 1 ≤ (entryFields (reversalEntry r)).code ∧
      (entryFields (reversalEntry r)).code ≤ 5 then (entryFields (reversalEntry r)).code else 0 := rfl

theorem usableForm_eq_zero (r : ReversalFetch) :
    usableForm (some r) = 0 ↔ ¬((entryFields (reversalEntry r)).kind = 2 ∧
      1 ≤ (entryFields (reversalEntry r)).code ∧ (entryFields (reversalEntry r)).code ≤ 5) := by
  rw [usableForm_some, ite_eq_right_iff]
  omega

theorem reversalIsTestedInOrder : Claims.ReversalIsTestedInOrder := by
  refine ⟨fun s f => ⟨fun hnone => by simp only [reversalTests, hnone], fun r hr => ?tests⟩,
    fun f o => ?repeats⟩
  case tests =>
    intro e o
    have hform : usableForm s.posting.reversal = 0 ↔ ¬(o.kind = 2 ∧ 1 ≤ o.code ∧ o.code ≤ 5) := by
      rw [hr]
      exact usableForm_eq_zero r
    unfold reversalTests
    split
    next h => simp [hr] at h
    next r' h =>
      obtain rfl : r = r' := Option.some.inj (hr.symm.trans h)
      simp only [hform, List.contains_iff_mem, Bool.not_eq_true', ite_or]
      rfl
  case repeats =>
    intro zero sameA
    have hzero : ∀ l, allZero l = true ↔ zero l := allZero_iff
    refine ⟨?_, ?_, ?_, ?_⟩
    · rintro form (rfl | rfl) <;> simp only [repeatsOriginal, Bool.and_eq_true, beq_iff_eq, hzero, sameA, and_assoc]
    all_goals simp only [repeatsOriginal, Bool.and_eq_true, beq_iff_eq, hzero, sameA, and_assoc]

/-! ### Checks 2, 12 to 14 and the movement -/

theorem dayStatePermitsTheKind : Claims.DayStatePermitsTheKind := by
  intro s e kind
  cases hmarked : e.marked
  · cases hstate : s.day.state <;> simp [judgedState, hmarked, hstate, kindPermitted]
  · simp [judgedState, hmarked, kindPermitted]

/-- A test with a reason is passed where its condition does not hold. -/
theorem ite_some_eq_none {p : Prop} [Decidable p] {r : Reason} {next : Option Reason} :
    (if p then some r else next) = none ↔ ¬p ∧ next = none := by
  by_cases hp : p <;> simp [hp]

/-- A test that is its own reason is passed where it gives none. -/
theorem ite_test_eq_none {p : Prop} [Decidable p] {test next : Option Reason} (hp : p → test ≠ none) :
    (if p then test else next) = none ↔ ¬p ∧ next = none := by
  by_cases h : p <;> simp [h, hp]

theorem acceptanceNeedsRoomAndCounts : Claims.AcceptanceNeedsRoomAndCounts := by
  intro s e haccepted
  rw [verdict_eq] at haccepted
  simp only [ite_some_eq_none] at haccepted
  obtain ⟨-, -, -, -, -, -, -, -, hamounts⟩ := haccepted
  obtain ⟨-, hreversal⟩ := (ite_test_eq_none id).mp hamounts
  obtain ⟨-, hcounts⟩ := (ite_test_eq_none And.right).mp (ite_some_eq_none.mp hreversal).2
  simp only [ite_some_eq_none] at hcounts
  obtain ⟨hshort, hrange, hroom, -⟩ := hcounts
  exact ⟨not_le.mp hroom, fun n hn =>
    ⟨not_lt.mp fun h => hshort ⟨n, hn, h⟩, not_lt.mp fun h => hrange ⟨n, hn, h⟩⟩⟩

theorem movementIsTheSlots : Claims.MovementIsTheSlots := by
  intro s e f
  have hclosing : (judgedState s e == DayState.closing) = decide (e.marked = false ∧ s.day.state = .closing) := by
    cases hmarked : e.marked <;> simp [judgedState, hmarked, beq_eq_decide]
  refine ⟨?_, fun h => if_neg h, fun h hnone => ?_, fun r h hr => ?_⟩
  · simp only [slotMovement, hclosing, beq_eq_decide]
  · rw [judgedForm, if_pos h, hnone]
    rfl
  · rw [judgedForm, if_pos h, hr]
    rfl

theorem reversalBufferHoldsTheOriginal : Claims.ReversalBufferHoldsTheOriginal := by
  intro r hlength first before
  have hchain : ∀ d : Dword, (BitVec.ofNat 32 (laneField d 4 4)).toNat = d.toNat / 2 ^ 32 := fun d => by
    simp only [laneField, BitVec.toNat_ofNat]
    have := d.isLt
    omega
  cases hwrapped : r.wrapped <;>
    simp only [reversalEntry, reversalChain, hwrapped, first, before, Bool.false_eq_true, if_false, if_true, hchain,
      bytesOfDwords_length, uintAt_bytesOfDwords]
  · refine ⟨by simp [hlength], fun i hi => ?_, trivial⟩
    simp [List.getD_eq_getElem?_getD, Nat.add_comm]
  · refine ⟨by simp [hlength], fun i hi => ?_, trivial⟩
    simp [List.getD_eq_getElem?_getD, hi]

/-! ### The head and the records it reads (R26, R27, R33) -/

/-- A head whose fetch is asked for has its number (R27). -/
theorem askReversal_posting (s : State) (r : ReversalFetch) :
    (askReversal s r).posting = { s.posting with
      reversal := some { r with asked := true, wrapped := ringPosition s r.number == 0 } } := by
  simp only [askReversal]
  split <;> rfl

theorem headWaitsForItsRoomAndFetch : Claims.HeadWaitsForItsRoomAndFetch := by
  intro s
  refine ⟨?judge, fun hqueue => by simp [newHead_empty hqueue], fun e rest hqueue => ?head⟩
  case judge =>
    have hroom : freeRoom s.path = 32 - s.path.queue.length := rfl
    cases hreversal : s.posting.reversal <;> simp [canJudge, hreversal, ← hroom, and_assoc]
  case head =>
    intro f fetches
    by_cases h : headFetches s e
    · have hnewHead := newHead_fetches hqueue h
      rw [hnewHead]
      dsimp only
      split <;> simp [askReversal_posting, needed, headNeed_eq, f, show fetches from h]
    · rw [newHead_no_fetch hqueue h]
      simp [needed, headNeed_eq, f, show ¬fetches from h]

/-- A leg of a holder and a currency in range (R96; log 22). -/
theorem holderLeg_val (h : Fin 17) (c : Fin 4) (amount : Int) (change : CountChange) :
    holderLeg h.val c.val amount change = some ⟨some h, c, amount, some change⟩ := by
  simp [holderLeg, indexOf_val]

theorem legsReadTheirRecords : Claims.LegsReadTheirRecords := by
  intro t m a b k j ha hb hk hj more less into out
  have hinto : ∀ h c p, countsAfter (recordOf t h c).counts (flowIn m.reverses p) = into h c p := by
    intro h c p
    by_cases hkind : m.kind = 7 <;> simp [Movement.reverses, flowIn, hkind, into, countsAfter, less, more]
  have hout : ∀ h c p, countsAfter (recordOf t h c).counts (flowIn (!m.reverses) p) = out h c p := by
    intro h c p
    by_cases hkind : m.kind = 7 <;> simp [Movement.reverses, flowIn, hkind, out, countsAfter, less, more]
  have hreplace : ∀ o p, countsAfter o (.replace p) = p.map fun n => (n : Int) := fun _ _ => rfl
  refine ⟨fun h => ?_, fun h => ?_, fun h => ?_, fun h => ?_, fun h => ?_, fun h => ?_⟩
  case' refine_5 => obtain h | h := h
  all_goals
    simp [readRecords, resultingCounts, Movement.legs, h, ha, hb, hk, hj, holderLeg_val, indexOf_val, hinto, hout,
      hreplace]

/-- Settles O18: the order of the checks, and what each of them tests. -/
theorem checksDecideInTheirOrder : Obligations.ChecksDecideInTheirOrder :=
  ⟨earlierChecksDecide, laterChecksDecide, fieldsFitTheKind, reversalFieldsFit, roleAndHoldJudgeTheNamedHolders,
    amountsAreTestedInOrder, reversalIsTestedInOrder, dayStatePermitsTheKind, acceptanceNeedsRoomAndCounts,
    movementIsTheSlots, reversalBufferHoldsTheOriginal, headWaitsForItsRoomAndFetch, legsReadTheirRecords⟩

end Sys2Proof.Machine
end

