-- ==== Sys2Proof/Proofs/Refusals.lean ====
section
/-! SUPPORT. A refusal: what the judging event does with a head that fails a check (R17, R29, R33, R38, R72, R111). -/

namespace Sys2Proof.Machine

/-! ### Alerts (R201) -/

/-- The code of an alert tells it. -/
theorem alertCode_inj {a b : Alert} : a.code = b.code ↔ a = b := by
  cases a <;> cases b <;> simp [Alert.code]

/-- The code of an alert is a bit of the set. -/
theorem alertCode_lt (a : Alert) : a.code < 16 := by
  cases a <;> decide

/-- An alert that is added is in the set with those before it. -/
theorem alertIn_addAlert (set : BitVec 16) (a b : Alert) :
    alertIn (addAlert set a) b = (decide (b = a) || alertIn set b) := by
  simp only [alertIn, addAlert, BitVec.getLsbD_or, BitVec.getLsbD_twoPow, alertCode_lt, decide_true, Bool.true_and,
    alertCode_inj, Bool.or_comm]
  simp [eq_comm]

/-- A group handed over leaves the alerts. -/
theorem handGroup_alerts (s : State) (g : Group) : (handGroup s g).control.alerts = s.control.alerts := by
  simp only [handGroup]
  split
  · rw [(placing_tells s.control s.day g.producer).1]
    split <;> rfl
  · rfl

/-- Raising under a condition. -/
theorem raiseAlertIf_eq (s : State) (cond : Bool) (a : Alert) :
    raiseAlertIf s cond a = if cond then raiseAlert s a else s := by
  cases cond <;> rfl

section

variable {s : State} {a : Alert}

/-- Further alerts leave those in the set. -/
theorem alertIn_raiseAlertIf (h : alertIn s.control.alerts a = true) (cond : Bool) (b : Alert) :
    alertIn (raiseAlertIf s cond b).control.alerts a = true := by
  rw [raiseAlertIf_eq]
  split
  · simp [alertIn_addAlert, h]
  · exact h

theorem alertIn_dayControlEntry (h : alertIn s.control.alerts a = true) (f : EntryFields) :
    alertIn (dayControlEntry s f).control.alerts a = true := by
  simp only [dayControlEntry]
  split
  · exact h
  · split
    · rw [writeEntry, handGroup_alerts]
      exact alertIn_raiseAlertIf (s := { s with journal := { s.journal with
        next := _, chain := _, free := _ } }) h _ _
    · simp [alertIn_addAlert, h]

end

/-- The first block of a batch is its header (R183). -/
theorem blockContent_zero (s : State) (p : Plan) :
    blockContent s p 0 = .payload 1 (headerBytes s.configuration s.day.date p) := by
  simp [blockContent]

/-- The test of the move to SENDING leaves the totals. -/
theorem testSending_totals (s : State) : (testSending s).totals = s.totals := by
  simp only [testSending]
  split
  · rw [dayControlEntry_totals, fixBatch, composeBlock, blockContent_zero]
    rfl
  · rfl

/-- The test of the move to SENDING clears no alert. -/
theorem alertIn_testSending {s : State} {a : Alert} (h : alertIn s.control.alerts a = true) :
    alertIn (testSending s).control.alerts a = true := by
  simp only [testSending]
  split
  · refine alertIn_dayControlEntry ?_ _
    rw [fixBatch, composeBlock, blockContent_zero]
    exact h
  · exact h

/-- The new head leaves the totals and the alerts. -/
theorem newHead_kept (s : State) : (newHead s).totals = s.totals ∧ (newHead s).control = s.control := by
  have hask : ∀ u r, (askReversal u r).totals = u.totals ∧ (askReversal u r).control = u.control := by
    intro u r
    simp only [askReversal]
    split <;> exact ⟨rfl, rfl⟩
  unfold newHead
  split
  · exact ⟨rfl, rfl⟩
  · dsimp only
    split_ifs
    · exact hask _ _
    · exact ⟨rfl, rfl⟩
    · exact ⟨rfl, rfl⟩

/-! ### The judging event (R26, R29) -/

section

variable {s : State} {e : SubmitEntry} {rest : List SubmitEntry}

theorem judgeHead_refuses {reason : Reason} (hqueue : s.posting.queue = e :: rest) (hjudge : canJudge s = true)
    (hverdict : verdict s e = some reason) : judgeHead s = refusePosting s e reason := by
  simp [judgeHead, hqueue, hjudge, hverdict]

theorem judgeHead_accepts (hqueue : s.posting.queue = e :: rest) (hjudge : canJudge s = true)
    (hverdict : verdict s e = none) : judgeHead s = acceptPosting s e := by
  simp [judgeHead, hqueue, hjudge, hverdict]

/-- The held read of a slot's result doubleword is answered by its verdict (R17). -/
def answeredBy (s : State) (p : Path) (n : Fin 16) (result : Dword) : Path :=
  match s.path.bus with
  | .readHeld _ m => if m = n then { p with bus := .idle, answer := some result } else p
  | _ => p

/-- The verdict's group handed over with its answer, and the head's slot DONE with its message (R17, R25, R36). -/
theorem leaveQueue_placeVerdict {x : State} (hqueue : s.posting.queue = e :: rest) (hpath : x.path = s.path)
    (hposting : x.posting = s.posting) (hscreen : x.screen = s.screen) (writes : List (Nat × Dword)) (result : Dword)
    (text : List Char) (refused : Bool) :
    leaveQueue (placeVerdict x e.slot writes result) e.slot text refused =
      let handed := handGroup x ⟨.posting, writes ++ [(resultAddress s e.slot, result)]⟩
      { handed with
        path := answeredBy s handed.path e.slot result
        posting := { s.posting with
          slots := s.posting.slots.set e.slot { s.posting.slots[e.slot] with state := .done }, queue := rest }
        screen := { s.screen with
          positions := s.screen.positions.set e.slot
            { s.screen.positions[e.slot] with message := ⟨text, refused⟩ } } } := by
  rw [placeVerdict_eq e.slot writes result hpath]
  simp only [leaveQueue, handGroup_posting, handGroup_screen, hposting, hscreen, hqueue, List.tail_cons]
  rfl

end

/-- A refusal's alerts and marks (R29, R33). -/
theorem refusalMarks_eq (s : State) (m : Movement) (reason : Reason) :
    refusalMarks s m reason =
      let failing := (readRecords m).filter fun n => !recordVerifies (recordOf s.totals n.1 n.2)
      if reason = .totalsFault then raiseAlert { s with totals := markFaulty s.totals failing } .totalsFault
      else if reason = .journalDamaged then raiseAlert s .journalDamaged else s := by
  simp only [refusalMarks, raiseAlertIf_eq, beq_iff_eq]

theorem refusalMarks_kept (s : State) (m : Movement) (reason : Reason) :
    (refusalMarks s m reason).path = s.path ∧ (refusalMarks s m reason).posting = s.posting ∧
      (refusalMarks s m reason).screen = s.screen := by
  rw [refusalMarks_eq]
  dsimp only
  split_ifs <;> exact ⟨rfl, rfl, rfl⟩

theorem refusalLeavesTheBooks_holds : Claims.RefusalLeavesTheBooks := by
  intro s e rest reason hr hqueue hjudge hverdict f failing journaled content result marked counted handed message
    positions answered left
  have hbody : judgeHead s = refusePosting s e reason := judgeHead_refuses hqueue hjudge hverdict
  refine givesAsking_conclude hr (exec_judgingEvent s) (hbody.trans ?_)
  have hmarked : refusalMarks s (slotMovement s e f) reason = marked := refusalMarks_eq s _ reason
  obtain ⟨hpath, hposting, hscreen⟩ := hmarked ▸ refusalMarks_kept s (slotMovement s e f) reason
  have hjournaled : refusalJournaled s = true ↔ journaled := by simp [refusalJournaled, journaled]
  have hleft : leaveQueue
      (if refusalJournaled s then
        placeVerdict (numberEntry counted content true) e.slot (entryWrites s content)
          (resultDword 3 reason.code 0 s.journal.next)
      else placeVerdict counted e.slot [] (resultDword 3 reason.code 0 0)) e.slot
      ("REFUSED ".toList ++ reason.name) true = left := by
    by_cases h : journaled
    · rw [if_pos (hjournaled.mpr h),
        leaveQueue_placeVerdict (x := numberEntry counted content true) hqueue hpath hposting hscreen]
      simp only [left, handed, answered, result, if_pos h]
      rfl
    · rw [if_neg fun hj => h (hjournaled.mp hj),
        leaveQueue_placeVerdict (x := counted) hqueue hpath hposting hscreen]
      simp only [left, handed, answered, result, if_neg h]
      rfl
  simp only [refusePosting, afterVerdict]
  rw [← hleft]
  simp only [counted, ← hmarked]
  rfl

/-- Equal books have the same totals and alerts. -/
theorem totals_of_books {s t : State} (h : books s = books t) :
    s.totals = t.totals ∧ s.control.alerts = t.control.alerts := by
  change (books s).totals = (books t).totals ∧ (books s).control.alerts = (books t).control.alerts
  rw [h]
  exact ⟨rfl, rfl⟩

/-- The group of a verdict leaves the totals and the alerts. -/
theorem placeVerdict_kept (s : State) (n : Fin 16) (writes : List (Nat × Dword)) (result : Dword) :
    (placeVerdict s n writes result).totals = s.totals ∧
      (placeVerdict s n writes result).control.alerts = s.control.alerts :=
  ⟨rfl, handGroup_alerts _ _⟩

/-- What a refusal at check 8 leaves of the records and the alerts (R33, R72). -/
theorem refusePosting_totalsFault (s : State) (e : SubmitEntry) :
    let failing := (readRecords (slotMovement s e (slotFieldsOf s e.slot))).filter fun n =>
      !recordVerifies (recordOf s.totals n.1 n.2)
    (refusePosting s e .totalsFault).totals.records = (markFaulty s.totals failing).records ∧
      alertIn (refusePosting s e .totalsFault).control.alerts .totalsFault = true := by
  intro failing
  obtain ⟨htotals, hcontrol⟩ := newHead_kept (testSending (leaveQueue
    (if refusalJournaled s then _ else _) e.slot ("REFUSED ".toList ++ Reason.totalsFault.name) true))
  rw [refusePosting, afterVerdict, htotals, hcontrol, testSending_totals]
  have hraised : alertIn (refusalMarks s (slotMovement s e (slotFieldsOf s e.slot)) .totalsFault).control.alerts
      .totalsFault = true := by
    simp [refusalMarks, alertIn_addAlert]
  split
  · exact ⟨rfl, alertIn_testSending ((congrArg (alertIn · _) (placeVerdict_kept _ _ _ _).2).trans
      (alertIn_raiseAlertIf hraised _ _))⟩
  · exact ⟨rfl, alertIn_testSending ((congrArg (alertIn · _) (placeVerdict_kept _ _ _ _).2).trans hraised)⟩

theorem faultyRecordIsMarked : Claims.FaultyRecordIsMarked := by
  intro s e rest h k hr hqueue hjudge hverdict hread hfails
  have hbody : judgeHead s = refusePosting s e .totalsFault := judgeHead_refuses hqueue hjudge hverdict
  obtain ⟨t, ht, hbooks, -⟩ := gives_conclude hr (exec_judgingEvent s) hbody
  obtain ⟨htotals, halerts⟩ := totals_of_books hbooks
  obtain ⟨hrecords, hraised⟩ := refusePosting_totalsFault s e
  have hrecord := recordOf_markFaulty s.totals ((readRecords (slotMovement s e (slotFieldsOf s e.slot))).filter fun n =>
    !recordVerifies (recordOf s.totals n.1 n.2)) h k
  have hmarked : recordOf t.totals h k = _ :=
    (congrArg (·[h][k]) ((congrArg (·.records) htotals).trans hrecords)).trans hrecord
  refine ⟨t, ht, ?_, ?_, halerts ▸ hraised⟩
  · rw [hmarked]
    simp [hread, hfails]
  · rw [hmarked]

theorem resultDoublewordHoldsTheVerdict : Claims.ResultDoublewordHoldsTheVerdict := by
  intro code reason flags number hcode hreason hflags hnumber
  rw [resultDword, dwordOfFields_toNat _ (by simp)]
  simp only [List.flatMap_cons, List.flatMap_nil, leNat_append, leNat_leBytes, List.append_nil, leBytes_length]
  omega

theorem refusedEntryCarriesTheSlot : Claims.RefusedEntryCarriesTheSlot := by
  intro f marked reason
  cases marked <;> rfl

/-- Settles O19: what a refusal leaves and changes, its entry and its result. -/
theorem refusalLeavesTheBooks : Obligations.RefusalLeavesTheBooks :=
  ⟨refusalLeavesTheBooks_holds, fun t named => ⟨markFaulty_rest t named, recordOf_markFaulty t named⟩,
    faultyRecordIsMarked, resultDoublewordHoldsTheVerdict, refusedEntryCarriesTheSlot, rfl⟩

end Sys2Proof.Machine
end

