-- ==== Sys2Proof/Proofs/Acceptances.lean ====
section
/-! SUPPORT. An acceptance: what the judging event does with a head that passes every check (R17, R35 to R37, R100,
R110, R134, R146, R147, R172). -/

namespace Sys2Proof.Machine

/-- The result flags of an acceptance (R37, 13.1). -/
theorem resultFlags_eq (tracked folded released : Bool) :
    resultFlags tracked folded released =
      (if tracked = true then 1 else 0) + (if folded = true then 2 else 0) + (if released = true then 4 else 0) := by
  cases tracked <;> cases folded <;> cases released <;> rfl

/-- The flags of a POSTING entry (R111, 13.2). -/
theorem postingFlags_eq (passbook marked mix debit : Bool) :
    postingFlags passbook marked mix debit =
      (if passbook = true then 1 else 0) + (if marked = true then 2 else 0) + (if mix = true then 4 else 0) +
        (if debit = true then 8 else 0) := by
  cases passbook <;> cases marked <;> cases mix <;> cases debit <;> rfl

/-- The entry of an item that the table cannot hold, if there is one (R112, R146). -/
def untrackedEntries (f : SlotFields) (o : PassbookOutcome) : List EntryFields :=
  match o.admission, o.item with
  | some .untracked, some i => [untrackedEntry f.position f.tag i]
  | _, _ => []

/-- The entries behind a verdict's group are handed over one by one (R110). -/
theorem enterUntracked_enterFirings (s : State) (f : SlotFields) (number : Nat) (firings : List Firing)
    (o : PassbookOutcome) :
    enterUntracked (enterFirings s f number firings) f o =
      (firings.map (firedEntry f.position f.tag number) ++ untrackedEntries f o).foldl eventEntry s := by
  rw [List.foldl_append, List.foldl_map]
  obtain ⟨_, _ | (_ | _ | _), _ | _⟩ := o <;> rfl

/-- A posting's own entries are numbered before their group is handed over (R110). -/
theorem numberPosting_path (s : State) (m : Movement) (f : SlotFields) (marked mix : Bool) :
    (numberPosting s m f marked mix).1.path = s.path := by
  simp only [numberPosting]
  split <;> rfl

/-- An acceptance's state before its own group and entries: the books, the monitors, the items and the drawers
(R35, R37, R100). -/
def acceptedBooks (s : State) (e : SubmitEntry) : State :=
  let c := s.configuration
  let f := slotFieldsOf s e.slot
  let m := slotMovement s e f
  let booked := applyMovement c s.totals m
  let judged := evaluate c s.monitors (watchedLegs s.totals booked m)
  { s with
    totals := holdsAfter booked judged.2, monitors := judged.1,
    passbook := { s.passbook with items := (passbookOutcome s m f s.journal.next).items },
    drawers := Vector.ofFn fun h => if h ∈ releasedHolders m then releasedDrawer c s.drawers[h] else s.drawers[h] }

/-- An acceptance, with its releases made (R37). -/
theorem acceptPosting_eq (s : State) (e : SubmitEntry) :
    let c := s.configuration
    let f := slotFieldsOf s e.slot
    let m := slotMovement s e f
    let number := s.journal.next
    let firings := (evaluate c s.monitors (watchedLegs s.totals (applyMovement c s.totals m) m)).2
    let item := passbookOutcome s m f number
    let numbered := numberPosting (acceptedBooks s e) m f e.marked (mixFlag c s.totals m)
    let flags := resultFlags (itemTracked item) (item.admission == some .folded) (!(releasedHolders m).isEmpty)
    let placed := placeVerdict numbered.1 e.slot numbered.2 (resultDword 2 0 flags number)
    acceptPosting s e = afterVerdict (leaveQueue
      (enterUntracked (enterFirings (raiseAlertIf placed (noteFired firings) .monitorFired) f number firings) f item)
      e.slot ("ACCEPTED ".toList ++ decimal number) false) := by
  intro c f m number firings item numbered flags placed
  simp only [acceptPosting, foldl_release]
  rfl

theorem acceptanceAppliesAndAnswers_holds : Claims.AcceptanceAppliesAndAnswers := by
  intro s e rest hr hqueue hjudge hverdict c f m booked judged number item flags result changed posting breakdown
    numbered handed answered noted untracked entered message positions slots left
  have hbody : judgeHead s = acceptPosting s e := judgeHead_accepts hqueue hjudge hverdict
  refine givesAsking_conclude hr (exec_judgingEvent s) (hbody.trans ((acceptPosting_eq s e).trans ?_))
  have hflags : resultFlags (itemTracked item) (item.admission == some .folded) (!(releasedHolders m).isEmpty) =
      flags := by
    rw [resultFlags_eq]
    simp [flags, itemTracked, ite_not]
  have hplaced : placeVerdict (numberPosting changed m f e.marked (mixFlag c s.totals m)).1 e.slot
      (numberPosting changed m f e.marked (mixFlag c s.totals m)).2 result = { handed with path := answered } := by
    refine (placeVerdict_eq (s := s) e.slot _ result (numberPosting_path changed m f e.marked _)).trans ?_
    by_cases hcash : cashForm m.form = true
    · simp only [numberPosting, hcash, if_true, handed, answered]
      rfl
    · simp only [numberPosting, hcash, handed, answered]
      rfl
  have hentered : enterUntracked (enterFirings (raiseAlertIf { handed with path := answered } (noteFired judged.2)
      .monitorFired) f number judged.2) f item = entered := by
    rw [enterUntracked_enterFirings, raiseAlertIf_eq]
    rfl
  have hnoted : noted.posting = s.posting ∧ noted.screen = s.screen := by
    simp only [noted, handed]
    split <;> split <;> exact ⟨rfl, rfl⟩
  have hposting : entered.posting = s.posting := (foldl_eventEntry_posting _ noted).trans hnoted.1
  have hscreen : entered.screen = s.screen := (foldl_eventEntry_screen _ noted).trans hnoted.2
  change afterVerdict (leaveQueue
    (enterUntracked (enterFirings (raiseAlertIf
      (placeVerdict (numberPosting changed m f e.marked (mixFlag c s.totals m)).1 e.slot
        (numberPosting changed m f e.marked (mixFlag c s.totals m)).2
        (resultDword 2 0
          (resultFlags (itemTracked item) (item.admission == some .folded) (!(releasedHolders m).isEmpty)) number))
      (noteFired judged.2) .monitorFired) f number judged.2) f item)
    e.slot ("ACCEPTED ".toList ++ decimal number) false) = _
  rw [hflags, hplaced, hentered]
  simp only [afterVerdict, leaveQueue, hposting, hscreen, hqueue, List.tail_cons]
  rfl

/-! ### Holders and items of an acceptance (R37, R42, R144, R147) -/

theorem cashMovesReleaseTheirHolders : Claims.CashMovesReleaseTheirHolders := by
  intro m a b ha hb
  refine ⟨fun h => ?_, fun h => ?_, fun h => ?_⟩
  · have hthree : m.form ≠ 3 := by omega
    simp [releasedHolders, h, hthree, ha, indexOf_val]
  · simp [releasedHolders, h, ha, hb, indexOf_val]
  · obtain h | h := h <;> simp [releasedHolders, h]

theorem acceptedPostingHandsItsItem : Claims.AcceptedPostingHandsItsItem := by
  intro s m f number k hk items own handed out
  have hout : out = if f.kind = 7 then passbookReversal s m f number k
      else if f.passbook = 1 then admitted items (postingItem f number k) else ⟨items, none, none⟩ := by
    simp only [out, passbookOutcome, hk, indexOf_val, items]
  have hordinary : f.passbook = 1 → f.kind ≠ 7 →
      handed (own (itemSide f.kind (f.direction == 2) f.amountA).1 (itemSide f.kind (f.direction == 2) f.amountA).2)
        out := by
    intro h1 h7
    rw [hout, if_neg h7, if_pos h1]
    exact ⟨rfl, rfl⟩
  refine ⟨fun h h0 => ?without, fun h1 h => ?deposit, fun h1 h => ?withdrawal, fun h1 h hd => ?credit,
    fun h1 h hd => ?debit, fun r h hr => ?reversal⟩
  case without => rw [hout, if_neg h, if_neg (by omega)]
  case deposit => simpa [itemSide, h] using hordinary h1 (by omega)
  case withdrawal => simpa [itemSide, h] using hordinary h1 (by omega)
  case credit => simpa [itemSide, h, hd] using hordinary h1 (by omega)
  case debit => simpa [itemSide, h, hd] using hordinary h1 (by omega)
  case reversal =>
    intro o side pending
    have hreversal : passbookReversal s m f number k =
        match (if flagSet o.flags 0 then settleOriginal items f.account pending else none) with
        | some left => ⟨left, none, none⟩
        | none =>
          if f.passbook = 1 then admitted items (ordinaryItem f.account k number .rev (-side) f.balance)
          else ⟨items, none, none⟩ := by
      simp only [passbookReversal, hr]
      rfl
    rw [hout, if_pos h, hreversal]
    refine ⟨fun left hflag hleft => ?_, fun hnone => ?_⟩
    · rw [if_pos hflag, hleft]
    · have hsettled : (if flagSet o.flags 0 then settleOriginal items f.account pending else none) = none := by
        obtain hflag | hsettle := hnone
        · simp [hflag]
        · simp [hsettle]
      rw [hsettled]
      refine ⟨fun h1 => ?_, fun h1 => ?_⟩
      · rw [if_pos h1]
        exact ⟨rfl, rfl⟩
      · rw [if_neg h1]

theorem originalItemIsSettled : Claims.OriginalItemIsSettled := by
  intro items account r
  refine ⟨fun h => by rw [settleOriginal, h]; rfl, fun e he => ?_⟩
  rw [settleOriginal, he]
  refine ⟨fun h => ?_, fun h hs => ?_, fun h hs hfolds => ?_, fun h hs hfolds => ?_⟩
  · simp [h]
  · simp [h, hs, freeItem]
  · simp [h, hs, unfold, hfolds, replaceItem, freeItem]
  · simp [h, hs, unfold, not_le.mpr hfolds, replaceItem]

theorem postingEntryCarriesTheSlot : Claims.PostingEntryCarriesTheSlot := by
  intro c t m f marked mix
  refine ⟨?_, fun h => ?_, fun h k hform hh hk => ?_⟩
  · simp only [postingEntry, postingFlags_eq, beq_iff_eq]
  · unfold mixFlag
    split <;> simp [h]
  · simp only [mixFlag, hh, hk, indexOf_val, hform]
    have hdifference : countDifference c t m = 0 ↔
        (List.zipWith (· * ·) m.breakdownA (c.faces k)).sum = (recordOf t h k).balance := by
      simp only [countDifference, hh, hk, indexOf_val, breakdownSum]
      omega
    simp only [beq_self_eq_true, Bool.true_and, Bool.and_eq_true, beq_iff_eq, bne_iff_ne, hdifference]

theorem itemsAreFoundAndSided : Claims.ItemsAreFoundAndSided := by
  refine ⟨fun debit amount => ⟨rfl, rfl, rfl, rfl⟩, fun items account o => ?_⟩
  intro own holds
  have hown : ∀ e : Item, (!e.summary && e.key == o) = true ↔ own e := fun e => by simp [own]
  have hholds : ∀ e : Item,
      (e.account == account && e.summary && decide (e.first ≤ o ∧ o ≤ e.key)) = true ↔ holds e :=
    fun e => by simp [holds, and_assoc]
  unfold locateItem
  split
  next x hx =>
    have hxtest := List.find?_some hx
    have hxown := (hown x).mp hxtest
    refine ⟨fun e he => ?_, ?_⟩
    · obtain rfl : x = e := Option.some.inj he
      exact ⟨List.mem_of_find?_eq_some hx, Or.inl hxown⟩
    · simp only [reduceCtorEq, false_iff]
      exact fun h => (h x (List.mem_of_find?_eq_some hx)).1 hxown
  next hnone =>
    have hnotown : ∀ x ∈ items, ¬own x := fun x hx => (hown x).not.mp (List.find?_eq_none.mp hnone x hx)
    refine ⟨fun e he => ?_, ?_⟩
    · have htest := List.find?_some he
      exact ⟨List.mem_of_find?_eq_some he, Or.inr ⟨(hholds e).mp htest, hnotown⟩⟩
    · rw [List.find?_eq_none]
      exact forall₂_congr fun x hx => by rw [hholds, and_iff_right (hnotown x hx)]

/-- Settles O20: what an acceptance does, its holders, its item and its entry. -/
theorem acceptanceAppliesAndAnswers : Obligations.AcceptanceAppliesAndAnswers :=
  ⟨acceptanceAppliesAndAnswers_holds, cashMovesReleaseTheirHolders, acceptedPostingHandsItsItem,
    originalItemIsSettled, postingEntryCarriesTheSlot, itemsAreFoundAndSided⟩

end Sys2Proof.Machine
end

