-- ==== Sys2Proof/Proofs/Bookings.lean ====
section
/-! SUPPORT. What each kind of posting books in the Totals Store: its records, the Day Totals and the control totals
(R43 to R61, R64, R69, R71). -/

namespace Sys2Proof.Machine

/-! ### Records and Day Totals -/

/-- A record put in the place of itself changes nothing. -/
theorem setRecord_self (t : Totals) (h : Fin 17) (k : Fin 4) : setRecord t h k (recordOf t h k) = t := by
  simp [setRecord, recordOf]

/-- A leg with a holder books its record (R64, R71). -/
theorem applyLeg_eq (c : Configuration) (t : Totals) (h : Fin 17) (k : Fin 4) (amount : Int) (change : CountChange) :
    applyLeg c t ⟨some h, k, amount, some change⟩ = setRecord t h k (bookedRecord c t h k change) := by
  simp only [applyLeg, bookedRecord]
  split
  · rfl
  · exact (setRecord_self t h k).symm

/-- A leg without a holder books no record (R50). -/
theorem applyLeg_none (c : Configuration) (t : Totals) (k : Fin 4) (amount : Int) :
    applyLeg c t ⟨none, k, amount, none⟩ = t := rfl

/-- The Day Totals of a currency in range are changed. -/
theorem bookDay_val (t : Totals) (k : Fin 4) (f : DayTotals → DayTotals) :
    bookDay t k.val f = { t with day := t.day.set k (f t.day[k]) } := by
  simp only [bookDay, indexOf_val]

/-- Only a COUNT in CLOSING marks a currency counted (R53). -/
theorem markCounted_other {c : Configuration} {t : Totals} {m : Movement} (h : m.form ≠ 6 ∨ m.closing = false) :
    markCounted c t m = t := by
  have hno : (m.form == 6 && m.closing) = false := by
    obtain h | h := h <;> simp [h]
  unfold markCounted
  split
  · simp [hno]
  · rfl

section

variable {c : Configuration} {t : Totals} {m : Movement} {h g : Fin 17} {k j : Fin 4}

/-- The control totals with the count of the posting's kind (R43, R56, R69). -/
theorem bookControl_kind (i : Fin 7) (hkind : m.kind = i.val + 1) :
    bookControl t m = { t with
      accepted := t.accepted + 1, hash := hashAfter t.hash m.amountA m.amountB,
      kinds := t.kinds.set i (t.kinds[i] + 1),
      reversed := if m.kind = 7 then (if m.ref ∈ t.reversed then t.reversed else t.reversed ++ [m.ref])
        else t.reversed } := by
  have hindex : indexOf 7 (m.kind - 1) = some i := by
    rw [indexOf_eq_some]
    omega
  simp [bookControl, hindex, Movement.reverses, joinReversed]

/-- A movement outside a closing COUNT is its form's booking, its legs and the control totals (R35). -/
theorem applyMovement_eq (hmark : m.form ≠ 6 ∨ m.closing = false) (i : Fin 7) (hkind : m.kind = i.val + 1) :
    applyMovement c t m =
      let booked := m.legs.foldl (applyLeg c) (bookForm c t m)
      { booked with
        accepted := booked.accepted + 1, hash := hashAfter booked.hash m.amountA m.amountB,
        kinds := booked.kinds.set i (booked.kinds[i] + 1),
        reversed := if m.kind = 7 then
            (if m.ref ∈ booked.reversed then booked.reversed else booked.reversed ++ [m.ref])
          else booked.reversed } := by
  rw [applyMovement, markCounted_other hmark, bookControl_kind i hkind]

end

/-! ### The legs of a posting (R64) -/

section

variable {c : Configuration} {t u : Totals} {h g : Fin 17} {k j : Fin 4} {a b : Int} {p q : CountChange}

/-- A booked record depends on the record before it. -/
theorem bookedRecord_congr (hrecord : recordOf u h k = recordOf t h k) :
    bookedRecord c u h k p = bookedRecord c t h k p := by
  simp only [bookedRecord, hrecord]

/-- The records after one leg. -/
theorem applyLeg_records (hrecords : u.records = t.records) :
    applyLeg c u ⟨some h, k, a, some p⟩ =
      { u with records := t.records.set h (t.records[h].set k (bookedRecord c t h k p)) } := by
  rw [applyLeg_eq, setRecord, bookedRecord_congr (t := t) (by simp only [recordOf, hrecords]), hrecords]

/-- The records after the legs of two holders. -/
theorem applyLeg_two_holders (hrecords : u.records = t.records) (hg : g ≠ h) :
    applyLeg c (applyLeg c u ⟨some h, k, a, some p⟩) ⟨some g, k, b, some q⟩ =
      { u with
        records := (t.records.set h (t.records[h].set k (bookedRecord c t h k p))).set g
          (t.records[g].set k (bookedRecord c t g k q)) } := by
  have hother := getElem_set_ne t.records h g (t.records[h].set k (bookedRecord c t h k p)) hg
  have hrecord : recordOf (applyLeg c u ⟨some h, k, a, some p⟩) g k = recordOf t g k := by
    rw [applyLeg_records hrecords]
    exact congrArg (·[k]) hother
  rw [applyLeg_eq, bookedRecord_congr hrecord, applyLeg_records hrecords]
  simp only [setRecord, hother]

/-- The records after the legs of two currencies. -/
theorem applyLeg_two_currencies (hrecords : u.records = t.records) (hj : j ≠ k) :
    applyLeg c (applyLeg c u ⟨some h, k, a, some p⟩) ⟨some h, j, b, some q⟩ =
      { u with
        records := t.records.set h
          ((t.records[h].set k (bookedRecord c t h k p)).set j (bookedRecord c t h j q)) } := by
  have hsame : (t.records.set h (t.records[h].set k (bookedRecord c t h k p)))[h] =
      t.records[h].set k (bookedRecord c t h k p) := Vector.getElem_set_self _
  have hother := getElem_set_ne t.records[h] k j (bookedRecord c t h k p) hj
  have hrecord : recordOf (applyLeg c u ⟨some h, k, a, some p⟩) h j = recordOf t h j := by
    rw [applyLeg_records hrecords]
    exact (congrArg (·[j]) hsame).trans hother
  rw [applyLeg_eq, bookedRecord_congr hrecord, applyLeg_records hrecords]
  simp only [setRecord, hsame, Vector.set_set]

end

theorem cashPostingBooks : Claims.CashPostingBooks := by
  intro c t m h k hh hk after
  refine ⟨fun hkind hform => ?_, fun hkind hform => ?_⟩
  · rw [applyMovement_eq (by simp [hform]) 0 hkind]
    simp [Movement.legs, hform, Movement.reverses, hkind, hh, hk, holderLeg_val, flowIn, bookForm, bookReceived,
      bookDay_val, applyLeg_records (t := t), after]
  · rw [applyMovement_eq (by simp [hform]) 1 hkind]
    simp [Movement.legs, hform, Movement.reverses, hkind, hh, hk, holderLeg_val, flowIn, bookForm, bookPaid,
      bookDay_val, applyLeg_records (t := t), after]

/-- A count in 0..65,535 is stored as it is (log 22). -/
theorem storedCount_of_range {n : Int} (h0 : 0 ≤ n) (h1 : n ≤ 65535) : (storedCount n : Int) = n := by
  simp [storedCount, h0, h1]

theorem bookedRecordFollowsTheChange : Claims.BookedRecordFollowsTheChange := by
  intro c t h k change old new
  refine ⟨fun ha hc hrange => ?_, fun hno => ?_⟩
  · have hnew : new = writeCounts (c.faces k) old ((countsAfter old.counts change).map storedCount) := by
      simp only [new, bookedRecord, ha, hc, Bool.and_self, if_true]
      rfl
    rw [hnew]
    refine ⟨?_, rfl, rfl, rfl, rfl, rfl⟩
    have hstored : (countsAfter old.counts change).map (fun n => (storedCount n : Int)) =
        countsAfter old.counts change :=
      (List.map_congr_left fun n hn => storedCount_of_range (hrange n hn).1 (hrange n hn).2).trans (List.map_id _)
    simp [writeCounts, List.flatMap_map, ← List.map_eq_flatMap]
    exact hstored
  · obtain h | h := hno <;> simp [new, bookedRecord, h, old]

/-- The residue of an EXCHANGE of currencies in range (R49, R60, R67). -/
theorem bookResidue_val {c : Configuration} {t : Totals} {m : Movement} {k j : Fin 4} (hk : m.currencyA = k.val)
    (hj : m.currencyB = j.val) :
    bookResidue c t m =
      let r := BitVec.ofNat 64 (exchangeResidue c k j m.amountA m.rate)
      { t with
        day := t.day.set j
          { t.day[j] with residue := if m.reverses then t.day[j].residue - r else t.day[j].residue + r } } := by
  simp only [bookResidue, hk, hj, indexOf_val, bookDay_val]

theorem twoLegPostingBooks : Claims.TwoLegPostingBooks := by
  intro c t m h g k j hh hk
  refine ⟨fun hkind hform hg hgh => ?_, fun hkind hform hj hjk => ?_⟩
  · rw [applyMovement_eq (by simp [hform]) 2 hkind]
    simp [Movement.legs, hform, Movement.reverses, hkind, hh, hg, hk, holderLeg_val, flowIn, bookForm,
      applyLeg_two_holders (t := t) rfl hgh]
  · rw [applyMovement_eq (by simp [hform]) 3 hkind]
    have hkj : k.val ≠ j.val := Fin.val_ne_of_ne hjk.symm
    simp [Movement.legs, hform, Movement.reverses, hkind, hh, hj, hk, holderLeg_val, flowIn, bookForm, bookReceived,
      bookPaid, bookDay_val, bookResidue_val hk hj, applyLeg_two_currencies (t := t) (hj := hjk), hkj]

theorem noncashPostingBooks : Claims.NoncashPostingBooks := by
  intro c t m k hkind hform hk
  rw [applyMovement_eq (by simp [hform]) 4 hkind]
  cases hdebit : m.debit <;>
    simp [Movement.legs, hform, Movement.reverses, hkind, hk, indexOf_val, bookForm, bookNoncash, bookDay_val,
      applyLeg_none, hdebit]

/-- The difference of a COUNT (R52, R68). -/
theorem countDifference_val {c : Configuration} {t : Totals} {m : Movement} {h : Fin 17} {k : Fin 4}
    (hh : m.holderA = h.val) (hk : m.currencyA = k.val) :
    countDifference c t m =
      ((List.zipWith (· * ·) m.breakdownA (c.faces k)).sum : Nat) - ((recordOf t h k).balance : Int) := by
  simp only [countDifference, hh, hk, indexOf_val, breakdownSum]

/-- What a COUNT books in the Day Totals (R52, R68). -/
theorem bookForm_count {c : Configuration} {t : Totals} {m : Movement} {h : Fin 17} {k : Fin 4} (hform : m.form = 6)
    (hh : m.holderA = h.val) (hk : m.currencyA = k.val) :
    let worth := (List.zipWith (· * ·) m.breakdownA (c.faces k)).sum
    let balance := (recordOf t h k).balance
    let day := t.day[k]
    bookForm c t m = { t with
      day := t.day.set k
        { day with
          overage := if balance < worth then day.overage + BitVec.ofNat 64 (worth - balance) else day.overage,
          shortage := if worth < balance then day.shortage + BitVec.ofNat 64 (balance - worth)
            else day.shortage } } := by
  intro worth balance day
  have hdifference : countDifference c t m = (worth : Int) - balance := countDifference_val hh hk
  have hover : balance < worth → addend ((worth : Int) - balance) = BitVec.ofNat 64 (worth - balance) := by
    intro hlt
    rw [addend, ← Nat.cast_sub hlt.le, BitVec.ofInt_natCast]
  have hshort : worth < balance → addend (-((worth : Int) - balance)) = BitVec.ofNat 64 (balance - worth) := by
    intro hlt
    rw [addend, neg_sub, ← Nat.cast_sub hlt.le, BitVec.ofInt_natCast]
  simp only [bookForm, hform, bookDifference, hk, bookDay_val, hdifference]
  obtain hlt | heq | hgt := lt_trichotomy worth balance
  · have h1 : ¬(0 : Int) < worth - balance := by omega
    have h2 : (worth : Int) - balance < 0 := by omega
    simp only [h1, h2, hlt, not_lt.mpr hlt.le, hshort hlt, if_true, if_false]
    rfl
  · simp only [heq, sub_self, lt_irrefl, if_false]
    rfl
  · have h1 : (0 : Int) < worth - balance := by omega
    simp only [h1, hgt, not_lt.mpr hgt.le, hover hgt, if_true, if_false]
    rfl

theorem countBooksItsDifference : Claims.CountBooksItsDifference := by
  intro c t m h k hkind hform hh hk hclosing worth balance day
  rw [applyMovement_eq (Or.inr hclosing) 5 hkind, bookForm_count hform hh hk]
  simp [Movement.legs, hform, hkind, hh, hk, holderLeg_val, applyLeg_records (t := t), worth, balance, day]

/-! ### Reversals (R56, R59, R60) -/

theorem reversalBooksTheOpposite : Claims.ReversalBooksTheOpposite := by
  intro c t m h k hkind hk reversed record
  refine ⟨fun hform hh => ?_, fun hform hh => ?_, fun hform hdebit => ?_, fun hform hdebit => ?_⟩
  all_goals rw [applyMovement_eq (by simp [hform]) 6 hkind]
  · simp [Movement.legs, hform, Movement.reverses, hkind, hh, hk, holderLeg_val, flowIn, bookForm, bookPaid,
      bookDay_val, applyLeg_records (t := t), reversed, record]
  · simp [Movement.legs, hform, Movement.reverses, hkind, hh, hk, holderLeg_val, flowIn, bookForm, bookReceived,
      bookDay_val, applyLeg_records (t := t), reversed, record]
  all_goals
    simp [Movement.legs, hform, Movement.reverses, hkind, hk, indexOf_val, bookForm, bookNoncash, bookDay_val,
      applyLeg_none, hdebit, reversed]

theorem twoLegReversalBooks : Claims.TwoLegReversalBooks := by
  intro c t m h g k j hkind hh hk reversed
  refine ⟨fun hform hg hgh => ?_, fun hform hj hjk => ?_⟩
  all_goals rw [applyMovement_eq (by simp [hform]) 6 hkind]
  · simp [Movement.legs, hform, Movement.reverses, hkind, hh, hg, hk, holderLeg_val, flowIn, bookForm,
      applyLeg_two_holders (t := t) (hg := hgh), reversed]
  · have hkj : k.val ≠ j.val := Fin.val_ne_of_ne hjk.symm
    simp [Movement.legs, hform, Movement.reverses, hkind, hh, hj, hk, holderLeg_val, flowIn, bookForm, bookReceived,
      bookPaid, bookDay_val, bookResidue_val hk hj, applyLeg_two_currencies (t := t) (hj := hjk), hkj, reversed]

theorem reversalRestoresTheCounts : Claims.ReversalRestoresTheCounts := by
  intro old
  induction old with
  | nil =>
    intro pieces hlength
    simp [countsAfter]
  | cons n old ih =>
    intro pieces hlength hrange
    obtain _ | ⟨d, pieces⟩ := pieces
    · simp at hlength
    · simp only [countsAfter, List.zipWith_cons_cons, List.mem_cons, forall_eq_or_imp, List.map_cons] at hrange ih ⊢
      obtain ⟨hhead, htail⟩ := hrange
      rw [storedCount_of_range (by omega) hhead, ih pieces (by simpa using hlength) htail]
      simp

theorem amountsJoinModuloTheDoubleword : Claims.AmountsJoinModuloTheDoubleword :=
  fun a => BitVec.toNat_ofInt a

/-- Settles O23: the bookings of each kind and of its reversal. -/
theorem postingsBookTheirKind : Obligations.PostingsBookTheirKind :=
  ⟨cashPostingBooks, bookedRecordFollowsTheChange, twoLegPostingBooks, noncashPostingBooks, countBooksItsDifference,
    reversalBooksTheOpposite, twoLegReversalBooks, reversalRestoresTheCounts, amountsJoinModuloTheDoubleword⟩

end Sys2Proof.Machine
end

