-- ==== Sys2Proof/Proofs/CheckWords.lean ====
section
/-! SUPPORT. The records of the Totals Store after a posting: their check words and faulty marks, and the counted marks
of a COUNT in CLOSING (R52, R53, R64, R71, R72, R176). -/

namespace Sys2Proof.Machine

/-! ### What the steps of a booking leave of the records -/

/-- The Day Totals are apart from the records and the flags. -/
theorem bookDay_kept (t : Totals) (n : Nat) (f : DayTotals → DayTotals) :
    (bookDay t n f).records = t.records ∧ (bookDay t n f).flags = t.flags := by
  unfold bookDay
  split <;> exact ⟨rfl, rfl⟩

/-- A form's booking of the Day Totals leaves the records and the flags. -/
theorem bookForm_kept (c : Configuration) (t : Totals) (m : Movement) :
    (bookForm c t m).records = t.records ∧ (bookForm c t m).flags = t.flags := by
  have hresidue : ∀ u, (bookResidue c u m).records = u.records ∧ (bookResidue c u m).flags = u.flags := by
    intro u
    unfold bookResidue
    split
    · exact bookDay_kept _ _ _
    · exact ⟨rfl, rfl⟩
  unfold bookForm
  split <;>
    simp only [bookReceived, bookPaid, bookNoncash, bookDifference, hresidue, bookDay_kept, and_self]

/-- The control totals leave the records and the flags. -/
theorem bookControl_kept (t : Totals) (m : Movement) :
    (bookControl t m).records = t.records ∧ (bookControl t m).flags = t.flags := ⟨rfl, rfl⟩

/-- The records decide what a record is. -/
theorem recordOf_congr {t u : Totals} (h : t.records = u.records) (g : Fin 17) (k : Fin 4) :
    recordOf t g k = recordOf u g k := by
  simp only [recordOf, h]

/-- The mark of a COUNT in CLOSING changes the counted mark of one record alone (R53). -/
theorem recordOf_markCounted (c : Configuration) (t : Totals) (m : Movement) (h : Fin 17) (k : Fin 4) :
    recordOf (markCounted c t m) h k =
      if m.form = 6 ∧ m.closing = true ∧ m.holderA = h.val ∧ m.currencyA = k.val then
        { recordOf t h k with counted := true }
      else recordOf t h k := by
  unfold markCounted
  split
  next g j hg hj =>
    rw [indexOf_eq_some] at hg hj
    have hrecord : ∀ b : Bool, recordOf
        (let marked := setRecord t g j { recordOf t g j with counted := true }
         if b then setFlags marked g { marked.flags[g] with balanced := true } else marked) h k =
        if g = h ∧ j = k then { recordOf t g j with counted := true } else recordOf t h k := by
      intro b
      cases b <;> exact recordOf_setRecord t g h j k _
    by_cases hclosing : m.form = 6 ∧ m.closing = true
    · obtain ⟨hform, hclosing⟩ := hclosing
      simp only [hform, hclosing, hg, hj, beq_self_eq_true, Bool.and_self, if_true, true_and, Fin.val_inj]
      rw [hrecord]
      by_cases hsame : g = h ∧ j = k
      · obtain ⟨rfl, rfl⟩ := hsame
        rfl
      · rw [if_neg hsame, if_neg hsame]
    · have hno : (m.form == 6 && m.closing) = false := by simpa using hclosing
      rw [hno, if_neg (by simp), if_neg fun hall => hclosing ⟨hall.1, hall.2.1⟩]
  next hnone =>
    refine (if_neg ?_).symm
    rintro ⟨-, -, hh, hk⟩
    exact hnone h k (indexOf_eq_some.mpr hh) (indexOf_eq_some.mpr hk)

/-! ### Check words (R71, R72) -/

/-- A record that verifies carries no mark, whatever its counted mark. -/
theorem recordVerifies_counted (r : HolderRecord) (b : Bool) :
    recordVerifies { r with counted := b } = recordVerifies r := rfl

/-- A booked record verifies or is as it was (R64, R71). -/
theorem bookedRecord_cases (c : Configuration) (t : Totals) (h : Fin 17) (k : Fin 4) (change : CountChange) :
    recordVerifies (bookedRecord c t h k change) = true ∨ bookedRecord c t h k change = recordOf t h k := by
  unfold bookedRecord
  split
  · exact Or.inl (recordVerifies_writeCounts _ _ _)
  · exact Or.inr rfl

/-- A leg has a holder and a change, or neither. -/
def LegComplete (l : Leg) : Prop :=
  (∃ h k a change, l = ⟨some h, k, a, some change⟩) ∨ ∃ k a, l = ⟨none, k, a, none⟩

theorem legComplete_holderLeg {h k : Nat} {a : Int} {change : CountChange} {l : Leg}
    (hl : l ∈ (holderLeg h k a change).toList) : LegComplete l := by
  unfold holderLeg at hl
  cases hh : indexOf 17 h <;> cases hk : indexOf 4 k <;> simp [hh, hk] at hl
  exact Or.inl ⟨_, _, _, _, hl⟩

theorem legs_complete (m : Movement) : ∀ l ∈ m.legs, LegComplete l := by
  intro l hl
  unfold Movement.legs at hl
  dsimp only at hl
  split at hl
  case h_5 =>
    simp only [Option.toList_map, List.mem_map] at hl
    obtain ⟨k, -, rfl⟩ := hl
    exact Or.inr ⟨_, _, rfl⟩
  case h_7 => simp at hl
  case h_3 | h_4 =>
    obtain hl | hl := List.mem_append.mp hl
    all_goals exact legComplete_holderLeg hl
  all_goals exact legComplete_holderLeg hl

theorem applyLeg_checksTrue {c : Configuration} {t : Totals} {l : Leg} (ht : ChecksTrue t) (hl : LegComplete l) :
    ChecksTrue (applyLeg c t l) := by
  obtain ⟨h, k, a, change, rfl⟩ | ⟨k, a, rfl⟩ := hl
  · intro g j hfaulty
    rw [applyLeg_eq, recordOf_setRecord] at hfaulty ⊢
    split at hfaulty
    next hsame =>
      obtain ⟨rfl, rfl⟩ := hsame
      rw [if_pos ⟨rfl, rfl⟩]
      obtain hverifies | hold := bookedRecord_cases c t h k change
      · exact hverifies
      · rw [hold] at hfaulty ⊢
        exact ht h k hfaulty
    next hother =>
      rw [if_neg hother]
      exact ht g j hfaulty
  · exact ht

/-- The legs of a list keep the check words (R64). -/
theorem foldl_applyLeg_checksTrue {c : Configuration} (legs : List Leg) (hlegs : ∀ l ∈ legs, LegComplete l)
    {t : Totals} (ht : ChecksTrue t) : ChecksTrue (legs.foldl (applyLeg c) t) :=
  foldl_holds (applyLeg c) ChecksTrue legs (fun _ l hl h => applyLeg_checksTrue h (hlegs l hl)) t ht

theorem postingKeepsCheckWords_holds : Claims.PostingKeepsCheckWords := by
  intro c t m ht
  have hbooked : ChecksTrue (m.legs.foldl (applyLeg c) (bookForm c t m)) := by
    refine foldl_applyLeg_checksTrue _ (legs_complete m) fun h k => ?_
    rw [recordOf_congr (bookForm_kept c t m).1]
    exact ht h k
  intro h k
  rw [applyMovement, recordOf_congr (bookControl_kept _ m).1, recordOf_markCounted]
  split
  · exact hbooked h k
  · exact hbooked h k

/-! ### Records rebuilt by a replay (R71, R72, R176) -/

/-- A leg books a record. -/
def Leg.books (l : Leg) (h : Fin 17) (k : Fin 4) : Prop := l.holder = some h ∧ l.currency = k

/-- Legs that do not book a record leave it. -/
theorem recordOf_foldl_other {c : Configuration} {h : Fin 17} {k : Fin 4} (legs : List Leg)
    (hlegs : ∀ l ∈ legs, LegComplete l) (hother : ∀ l ∈ legs, ¬l.books h k) (t : Totals) :
    recordOf (legs.foldl (applyLeg c) t) h k = recordOf t h k := by
  refine foldl_holds (applyLeg c) (recordOf · h k = recordOf t h k) legs (fun u l hl hu => ?_) t rfl
  obtain ⟨g, j, a, change, rfl⟩ | ⟨j, a, rfl⟩ := hlegs l hl
  · rw [applyLeg_eq, recordOf_setRecord, if_neg, hu]
    rintro ⟨rfl, rfl⟩
    exact hother _ hl ⟨rfl, rfl⟩
  · exact hu

/-- A record that a leg books verifies, where it is an active holder's in a configured currency (R64, R71). -/
theorem recordVerifies_foldl {c : Configuration} {h : Fin 17} {k : Fin 4} (hactive : c.holderActive h = true)
    (hcurrency : c.hasCurrency k = true) (legs : List Leg) (hlegs : ∀ l ∈ legs, LegComplete l)
    (hbooks : ∃ l ∈ legs, l.books h k) (t : Totals) :
    recordVerifies (recordOf (legs.foldl (applyLeg c) t) h k) = true := by
  induction legs generalizing t with
  | nil => simp at hbooks
  | cons l rest ih =>
    rw [List.foldl_cons]
    obtain ⟨hl, hrest⟩ := List.forall_mem_cons.mp hlegs
    by_cases hlater : ∃ l ∈ rest, l.books h k
    · exact ih hrest hlater _
    · obtain ⟨hholder, hcur⟩ : l.books h k := by
        obtain ⟨x, hx, hbooked⟩ := hbooks
        obtain rfl | hx := List.mem_cons.mp hx
        · exact hbooked
        · exact absurd ⟨x, hx, hbooked⟩ hlater
      rw [recordOf_foldl_other rest hrest (fun x hx hbooked => hlater ⟨x, hx, hbooked⟩)]
      obtain ⟨g, j, a, change, rfl⟩ | ⟨j, a, rfl⟩ := hl
      · obtain rfl : g = h := Option.some.inj hholder
        subst hcur
        exact recordVerifies_applyLeg rfl rfl hactive hcurrency
      · simp at hholder

/-- The record of a COUNT is the one its leg books (R53). -/
theorem count_books {m : Movement} {h : Fin 17} {k : Fin 4} (hform : m.form = 6) (hh : m.holderA = h.val)
    (hk : m.currencyA = k.val) : ∃ l ∈ m.legs, l.books h k := by
  simp [Movement.legs, hform, hh, hk, holderLeg_val, Leg.books]

/-- A hold changes no record (R100). -/
theorem holdsAfter_records (t : Totals) (firings : List Firing) : (holdsAfter t firings).records = t.records := by
  refine foldl_keeps _ (·.records) (fun t f => ?_) firings t
  unfold holdFor
  split
  · rfl
  · split <;> rfl

/-- A POSTING with its BREAKDOWN is applied (R176). -/
theorem replayEntry_breakdown {s : State} {n : Nat} {p e : List Byte} (hlast : s.day.replay.last ≠ 0)
    (hposting : s.day.replay.posting = some p) (hkind : (entryFields e).kind = 3)
    (hcode : (entryFields e).code = (entryFields p).code) :
    replayEntry s n e =
      some (replayedTo (replayPosting s (entryNumber p) (entryFields p) e) n (entryChain e)) := by
  simp only [replayEntry, hlast, false_and, if_false, hposting, hkind, hcode, and_self, if_true]

theorem rebuiltRecordCarriesNoMark : Claims.RebuiltRecordCarriesNoMark := by
  intro s n p e h k hlast hposting hkind hcode m rebuilt
  refine ⟨_, replayEntry_breakdown hlast hposting hkind hcode, ?_⟩
  have hrecord : recordOf (replayedTo (replayPosting s (entryNumber p) (entryFields p) e) n (entryChain e)).totals h k =
      recordOf (markCounted s.configuration
        (m.legs.foldl (applyLeg s.configuration) (bookForm s.configuration s.totals m)) m) h k :=
    recordOf_congr (holdsAfter_records _ _) h k
  rw [hrecord, recordOf_markCounted]
  refine ⟨fun hrebuilt hactive hcurrency => ?_, fun hno => ?_⟩
  · have hverifies := recordVerifies_foldl hactive hcurrency m.legs (legs_complete m) hrebuilt
      (bookForm s.configuration s.totals m)
    have hfaulty := hverifies
    simp only [recordVerifies, Bool.and_eq_true, Bool.not_eq_true'] at hfaulty
    split
    · exact ⟨hfaulty.1, hverifies⟩
    · exact ⟨hfaulty.1, hverifies⟩
  · rw [if_neg, recordOf_foldl_other m.legs (legs_complete m) fun l hl hbooks => hno ⟨l, hl, hbooks⟩,
      recordOf_congr (bookForm_kept _ _ m).1]
    rintro ⟨hform, -, hh, hk⟩
    exact hno (count_books hform hh hk)

/-- Settles O22: the check words of a posting, and the records that a replay rebuilds. -/
theorem postingKeepsCheckWords : Obligations.PostingKeepsCheckWords :=
  ⟨postingKeepsCheckWords_holds, rebuiltRecordCarriesNoMark⟩

/-! ### A COUNT in CLOSING (R53) -/

/-- Legs leave the flags (R64). -/
theorem foldl_applyLeg_flags (c : Configuration) (legs : List Leg) (t : Totals) :
    (legs.foldl (applyLeg c) t).flags = t.flags := by
  refine foldl_keeps (applyLeg c) (·.flags) (fun u l => ?_) legs t
  unfold applyLeg
  split
  · dsimp only
    split <;> rfl
  · rfl

/-- The flags after the mark of a COUNT in CLOSING (R53). -/
theorem markCounted_flags {c : Configuration} {t : Totals} {m : Movement} {h : Fin 17} {k : Fin 4} (hform : m.form = 6)
    (hclosing : m.closing = true) (hh : m.holderA = h.val) (hk : m.currencyA = k.val) :
    (markCounted c t m).flags[h] =
      if ∀ j : Fin 4, j ≠ k → c.hasCurrency j = true → (recordOf t h j).counted = true then
        { t.flags[h] with balanced := true }
      else t.flags[h] := by
  have hall : allCounted c (setRecord t h k { recordOf t h k with counted := true }) h = true ↔
      ∀ j : Fin 4, j ≠ k → c.hasCurrency j = true → (recordOf t h j).counted = true := by
    simp only [allCounted, List.all_eq_true, List.mem_finRange, forall_const, Bool.or_eq_true, Bool.not_eq_true',
      recordOf_setRecord, true_and]
    refine forall_congr' fun j => ?_
    by_cases hj : k = j
    · simp [hj]
    · simp only [if_neg hj, ne_comm.mp hj, ne_eq, not_false_eq_true, forall_const]
      cases c.hasCurrency j <;> simp
  have hflag : (m.form == 6 && m.closing) = true := by simp [hform, hclosing]
  simp only [markCounted, hh, hk, indexOf_val, hflag, if_true]
  split
  next h' =>
    rw [if_pos (hall.mp h')]
    exact Vector.getElem_set_self _
  next h' =>
    rw [if_neg (hall.not.mp h')]
    rfl

/-- Counts in 0..65,535 that take the place of others are stored as they are (R52). -/
theorem storedCounts_replace (old : List Nat) {pieces : List Nat} (hrange : ∀ n ∈ pieces, n ≤ 65535) :
    (countsAfter old (.replace pieces)).map storedCount = pieces := by
  have hcounts : countsAfter old (.replace pieces) = pieces.map fun n : Nat => (n : Int) := by
    simp [countsAfter, List.map_eq_flatMap]
  rw [hcounts, List.map_map]
  refine (List.map_congr_left fun n hn => ?_).trans (List.map_id _)
  have hle : (n : Int) ≤ 65535 := by exact_mod_cast hrange n hn
  exact Int.natCast_inj.mp (storedCount_of_range (Int.natCast_nonneg n) hle)

/-- Settles O24: the counted mark, and the balanced flag once every configured currency is counted. -/
theorem closingCountBalancesTheHolder : Obligations.ClosingCountBalancesTheHolder := by
  intro c t m h k hkind hform hh hk hclosing hrange t'
  have hlegs : m.legs = [⟨some h, k, m.amountA, some (.replace m.breakdownA)⟩] := by
    simp [Movement.legs, hform, hh, hk, holderLeg_val]
  have hbooked : m.legs.foldl (applyLeg c) (bookForm c t m) =
      { bookForm c t m with
        records := t.records.set h (t.records[h].set k (bookedRecord c t h k (.replace m.breakdownA))) } := by
    rw [hlegs]
    exact applyLeg_records (bookForm_kept c t m).1
  have hother : ∀ j, j ≠ k → recordOf (m.legs.foldl (applyLeg c) (bookForm c t m)) h j = recordOf t h j := by
    intro j hj
    rw [recordOf_foldl_other m.legs (legs_complete m), recordOf_congr (bookForm_kept c t m).1]
    simp [hlegs, Leg.books, hj.symm]
  have hrecord : recordOf t' h k =
      { bookedRecord c t h k (.replace m.breakdownA) with counted := true } := by
    have hmarked := recordOf_markCounted c (m.legs.foldl (applyLeg c) (bookForm c t m)) m h k
    rw [if_pos ⟨hform, hclosing, hh, hk⟩, hbooked] at hmarked
    simpa [t', applyMovement, hbooked, recordOf, bookControl] using hmarked
  have hflags : t'.flags[h] =
      if ∀ j : Fin 4, j ≠ k → c.hasCurrency j = true → (recordOf t h j).counted = true then
        { t.flags[h] with balanced := true }
      else t.flags[h] := by
    have hmarked := markCounted_flags (c := c) (t := m.legs.foldl (applyLeg c) (bookForm c t m)) hform hclosing hh hk
    rw [foldl_applyLeg_flags, (bookForm_kept c t m).2] at hmarked
    refine hmarked.trans (if_congr (forall₂_congr fun j hj => ?_) rfl rfl)
    rw [hother j hj]
  refine ⟨fun hactive hcurrency => ?_, ?_, fun hall => ?_, fun hsome => ?_⟩
  · have hcounts := storedCounts_replace (recordOf t h k).counts hrange
    rw [hrecord]
    simp only [bookedRecord, hactive, hcurrency, Bool.and_self, if_true, writeCounts, hcounts, and_self]
  · rw [hrecord]
  · rw [hflags, if_pos hall]
  · rw [hflags, if_neg]
    intro hall
    obtain ⟨j, hj, hcurrency, hnot⟩ := hsome
    simp [hall j hj hcurrency] at hnot

end Sys2Proof.Machine
end

