-- ==== Sys2Proof/Proofs/Balance.lean ====
section
/-! SUPPORT. The books stay in balance: in every currency the balances are the openings with what the Day Totals say
came in and went out (R43, R62, R64, R77). -/

namespace Sys2Proof.Machine

/-! ### Sums over the holders -/

/-- A holder's figure that changes changes the sum by the difference. -/
theorem holderSum_update {f g : Fin 17 → Nat} (h : Fin 17) (hother : ∀ i, i ≠ h → g i = f i) :
    holderSum g = holderSum f + (BitVec.ofNat 64 (g h) - BitVec.ofNat 64 (f h)) := by
  have hsum : ∀ f : Fin 17 → Nat, holderSum f = ∑ i : Fin 17, BitVec.ofNat 64 (f i) := fun f => by
    rw [Fin.sum_univ_def]
    rfl
  rw [hsum, hsum, ← Finset.add_sum_erase _ _ (Finset.mem_univ h), ← Finset.add_sum_erase _ _ (Finset.mem_univ h),
    Finset.sum_congr rfl fun i hi => by rw [hother i (Finset.ne_of_mem_erase hi)]]
  ring

/-- What the holders have gained in a currency since the day opened. -/
def gained (t : Totals) (j : Fin 4) : BitVec 64 :=
  holderSum (fun h => (recordOf t h j).balance) - holderSum (fun h => (recordOf t h j).opening)

/-- What the Day Totals of a currency say came in. -/
def booked (d : DayTotals) : BitVec 64 := d.received - d.paid + d.overage - d.shortage

/-- Every record has twelve counts, and their sum as its balance (R62, R64). -/
structure RecordsTrue (c : Configuration) (t : Totals) : Prop where
  twelve : ∀ (h : Fin 17) (k : Fin 4), (recordOf t h k).counts.length = 12
  sums : ∀ (h : Fin 17) (k : Fin 4),
    (recordOf t h k).balance = breakdownSum (c.faces k) (recordOf t h k).counts

theorem inBalance_iff {c : Configuration} {t : Totals} :
    InBalance c t ↔ RecordsTrue c t ∧ ∀ j : Fin 4, gained t j = booked t.day[j] := by
  have hidentity : ∀ b o r p v w : BitVec 64, b = o + r - p + v - w ↔ b - o = r - p + v - w := by
    intro b o r p v w
    rw [sub_eq_iff_eq_add]
    constructor <;> rintro rfl <;> ring
  constructor
  · rintro ⟨htwelve, hsums, hid⟩
    exact ⟨⟨htwelve, hsums⟩, fun j => (hidentity _ _ _ _ _ _).mp (hid j)⟩
  · rintro ⟨⟨htwelve, hsums⟩, hid⟩
    exact ⟨htwelve, hsums, fun j => (hidentity _ _ _ _ _ _).mpr (hid j)⟩

/-- Nothing counted is worth nothing. -/
theorem breakdownSum_of_zero {counts : List Nat} (faces : List Nat) (h : ∀ x ∈ counts, x = 0) :
    breakdownSum faces counts = 0 := by
  induction counts generalizing faces with
  | nil => rfl
  | cons n counts ih =>
    obtain ⟨hn, hcounts⟩ := List.forall_mem_cons.mp h
    cases faces with
    | nil => rfl
    | cons face faces =>
      have hrest := ih faces hcounts
      simp_all [breakdownSum]

/-! ### A day that opens (R77, R170) -/

theorem openingBooksAreInBalance : Claims.OpeningBooksAreInBalance := by
  intro c counts hcounts
  have hrecord : ∀ h k, recordOf (openedTotals c counts) h k =
      if c.holderActive h && c.hasCurrency k then loadedRecord c k (counts h k) else zeroRecord := by
    intro h k
    simp [recordOf, openedTotals, loadedRecords]
  refine inBalance_iff.mpr ⟨⟨fun h k => ?_, fun h k => ?_⟩, fun j => ?_⟩
  · rw [hrecord]
    have := hcounts h k
    split
    · simp [loadedRecord]
      omega
    · rfl
  · rw [hrecord]
    split
    · rfl
    · exact (breakdownSum_of_zero _ fun x hx => List.eq_of_mem_replicate hx).symm
  · have hopening : ∀ h, (recordOf (openedTotals c counts) h j).balance =
        (recordOf (openedTotals c counts) h j).opening := by
      intro h
      rw [hrecord]
      split <;> rfl
    simp only [gained, hopening, sub_self]
    simp [booked, openedTotals, resetTotals]

/-! ### The worth of a change (R62, R64) -/

/-- The exact counts after a change are in 0..65,535 (R33, R34). -/
def InCountRange (counts : List Int) : Prop := ∀ n ∈ counts, 0 ≤ n ∧ n ≤ 65535

/-- The change's pieces are twelve, as the record's counts are (13.1). -/
def CountChange.pieces : CountChange → List Nat
  | .gain p | .lose p | .replace p => p

/-- What a change adds to the worth of a record. -/
def CountChange.worth (faces : List Nat) (balance : Nat) : CountChange → BitVec 64
  | .gain p => BitVec.ofNat 64 (breakdownSum faces p)
  | .lose p => -BitVec.ofNat 64 (breakdownSum faces p)
  | .replace p => BitVec.ofNat 64 (breakdownSum faces p) - BitVec.ofNat 64 balance

theorem breakdownSum_cons (face n : Nat) (faces counts : List Nat) :
    breakdownSum (face :: faces) (n :: counts) = n * face + breakdownSum faces counts := by
  simp [breakdownSum]

/-- Pieces that go in add their worth. -/
theorem breakdownSum_gain {old pieces : List Nat} (faces : List Nat) (hlength : old.length = pieces.length)
    (hrange : InCountRange (countsAfter old (.gain pieces))) :
    breakdownSum faces ((countsAfter old (.gain pieces)).map storedCount) =
      breakdownSum faces old + breakdownSum faces pieces := by
  induction old generalizing pieces faces with
  | nil => obtain rfl : pieces = [] := List.length_eq_zero_iff.mp hlength.symm; rfl
  | cons n old ih =>
    obtain _ | ⟨d, pieces⟩ := pieces
    · simp at hlength
    obtain ⟨hhead, htail⟩ := List.forall_mem_cons.mp hrange
    have hstored : (storedCount (n + d : Int) : Int) = n + d := storedCount_of_range hhead.1 hhead.2
    cases faces with
    | nil => simp [breakdownSum]
    | cons face faces =>
      have hrest := ih faces (by simpa using hlength) htail
      simp only [countsAfter, List.zipWith_cons_cons, List.map_cons, breakdownSum_cons] at hrest ⊢
      rw [hrest, show storedCount (n + d : Int) = n + d by omega]
      ring

/-- Pieces that go out take their worth. -/
theorem breakdownSum_lose {old pieces : List Nat} (faces : List Nat) (hlength : old.length = pieces.length)
    (hrange : InCountRange (countsAfter old (.lose pieces))) :
    breakdownSum faces ((countsAfter old (.lose pieces)).map storedCount) + breakdownSum faces pieces =
      breakdownSum faces old := by
  induction old generalizing pieces faces with
  | nil => obtain rfl : pieces = [] := List.length_eq_zero_iff.mp hlength.symm; rfl
  | cons n old ih =>
    obtain _ | ⟨d, pieces⟩ := pieces
    · simp at hlength
    obtain ⟨hhead, htail⟩ := List.forall_mem_cons.mp hrange
    have hstored : (storedCount (n - d : Int) : Int) = n - d := storedCount_of_range hhead.1 hhead.2
    cases faces with
    | nil => simp [breakdownSum]
    | cons face faces =>
      have hrest := ih faces (by simpa using hlength) htail
      simp only [countsAfter, List.zipWith_cons_cons, List.map_cons, breakdownSum_cons] at hrest ⊢
      have hn : n = storedCount (n - d : Int) + d := by omega
      rw [← hrest]
      generalize storedCount (n - d : Int) = q at hn ⊢
      subst hn
      ring

/-- A change leaves as many counts as it has pieces, where the record has as many. -/
theorem length_countsAfter {old : List Nat} {change : CountChange} (h : old.length = change.pieces.length) :
    (countsAfter old change).length = old.length := by
  cases change <;> simp_all [countsAfter, CountChange.pieces]

/-- The balance after a change is the one before it with the change's worth. -/
theorem ofNat_breakdownSum_stored {old : List Nat} {change : CountChange} (faces : List Nat)
    (h : old.length = change.pieces.length) (hrange : InCountRange (countsAfter old change)) :
    BitVec.ofNat 64 (breakdownSum faces ((countsAfter old change).map storedCount)) =
      BitVec.ofNat 64 (breakdownSum faces old) + change.worth faces (breakdownSum faces old) := by
  cases change with
  | gain p => rw [breakdownSum_gain (pieces := p) faces h hrange, CountChange.worth, BitVec.ofNat_add]
  | lose p =>
    rw [← breakdownSum_lose (pieces := p) faces h hrange, CountChange.worth, BitVec.ofNat_add]
    ring
  | replace p =>
    have hle : ∀ n ∈ p, n ≤ 65535 := by
      intro n hn
      have := hrange (n : Int) (by simp [countsAfter, hn])
      omega
    rw [storedCounts_replace old hle, CountChange.worth]
    ring

/-! ### A leg in balance (R64) -/

section

variable {c : Configuration} {t : Totals} {h : Fin 17} {k : Fin 4} {a : Int} {change : CountChange}

/-- A leg that books its record exactly: an active holder's in a configured currency, twelve pieces, and counts in
range. -/
structure LegFits (c : Configuration) (t : Totals) (h : Fin 17) (k : Fin 4) (change : CountChange) : Prop where
  active : c.holderActive h = true
  currency : c.hasCurrency k = true
  twelve : change.pieces.length = 12
  range : InCountRange (countsAfter (recordOf t h k).counts change)

theorem LegFits.bookedRecord_eq (hfits : LegFits c t h k change) :
    bookedRecord c t h k change =
      writeCounts (c.faces k) (recordOf t h k) ((countsAfter (recordOf t h k).counts change).map storedCount) := by
  simp only [bookedRecord, hfits.active, hfits.currency, Bool.and_self, if_true]

theorem LegFits.recordsTrue (hfits : LegFits c t h k change) (ht : RecordsTrue c t) :
    RecordsTrue c (applyLeg c t ⟨some h, k, a, some change⟩) := by
  have hrecord : ∀ g j, recordOf (applyLeg c t ⟨some h, k, a, some change⟩) g j =
      if h = g ∧ k = j then
        writeCounts (c.faces k) (recordOf t h k) ((countsAfter (recordOf t h k).counts change).map storedCount)
      else recordOf t g j := fun g j => by
    rw [applyLeg_eq, recordOf_setRecord, hfits.bookedRecord_eq]
  refine ⟨fun g j => ?_, fun g j => ?_⟩
  · rw [hrecord]
    split
    · have hlength := ht.twelve h k
      simp only [writeCounts, List.length_map]
      rw [length_countsAfter (by rw [hlength, hfits.twelve]), hlength]
    · exact ht.twelve g j
  · rw [hrecord]
    split
    next hsame =>
      obtain ⟨rfl, rfl⟩ := hsame
      rfl
    · exact ht.sums g j

theorem LegFits.gained_eq (hfits : LegFits c t h k change) (ht : RecordsTrue c t) (j : Fin 4) :
    gained (applyLeg c t ⟨some h, k, a, some change⟩) j =
      gained t j + if k = j then change.worth (c.faces k) (recordOf t h k).balance else 0 := by
  rw [applyLeg_eq, hfits.bookedRecord_eq]
  by_cases hj : k = j
  · subst hj
    rw [if_pos rfl]
    have hbalance := ofNat_breakdownSum_stored (c.faces k)
      ((ht.twelve h k).trans hfits.twelve.symm) hfits.range
    have hopening : ∀ g, (recordOf (setRecord t h k (writeCounts (c.faces k) (recordOf t h k)
        ((countsAfter (recordOf t h k).counts change).map storedCount))) g k).opening = (recordOf t g k).opening := by
      intro g
      rw [recordOf_setRecord]
      split
      next hsame => obtain ⟨rfl, -⟩ := hsame; rfl
      · rfl
    simp only [gained, hopening]
    rw [holderSum_update (f := fun g => (recordOf t g k).balance) h fun g hg => by
      rw [recordOf_setRecord, if_neg fun hsame => hg hsame.1.symm]]
    rw [recordOf_setRecord, if_pos ⟨rfl, rfl⟩]
    simp only [writeCounts]
    rw [hbalance, ht.sums h k]
    ring
  · have hother : ∀ g, recordOf (setRecord t h k (writeCounts (c.faces k) (recordOf t h k)
        ((countsAfter (recordOf t h k).counts change).map storedCount))) g j = recordOf t g j := fun g => by
      rw [recordOf_setRecord, if_neg fun hsame => hj hsame.2]
    simp only [gained, hother, if_neg hj, add_zero]

end

/-! ### The Day Totals of a booking (R44 to R52) -/

section

variable {c : Configuration} {t : Totals} {m : Movement} {k : Fin 4}

/-- The Day Totals after one currency's are changed. -/
theorem bookDay_day (t : Totals) (k j : Fin 4) (f : DayTotals → DayTotals) :
    (bookDay t k.val f).day[j] = if k = j then f t.day[j] else t.day[j] := by
  rw [bookDay_val]
  by_cases hj : k = j
  · subst hj
    rw [if_pos rfl]
    exact Vector.getElem_set_self _
  · rw [if_neg hj]
    exact getElem_set_ne t.day k j _ (Ne.symm hj)

theorem booked_bookReceived (t : Totals) (k j : Fin 4) (a : Int) :
    booked (bookReceived t k a).day[j] = booked t.day[j] + if k = j then addend a else 0 := by
  rw [bookReceived, bookDay_day]
  split
  · simp only [booked]
    ring
  · rw [add_zero]

theorem booked_bookPaid (t : Totals) (k j : Fin 4) (a : Int) :
    booked (bookPaid t k a).day[j] = booked t.day[j] + if k = j then -addend a else 0 := by
  rw [bookPaid, bookDay_day]
  split
  · simp only [booked]
    ring
  · rw [add_zero]

theorem booked_bookResidue (c : Configuration) (t : Totals) (m : Movement) (j : Fin 4) :
    booked (bookResidue c t m).day[j] = booked t.day[j] := by
  unfold bookResidue
  split
  next i hi =>
    rw [indexOf_eq_some.mp hi, bookDay_day]
    split <;> rfl
  · rfl

theorem booked_bookNoncash (t : Totals) (m : Movement) (j : Fin 4) :
    booked (bookNoncash t m).day[j] = booked t.day[j] := by
  unfold bookNoncash bookDay
  split
  · rfl
  next k _ =>
    by_cases hj : j = k
    · subst hj
      refine (congrArg booked (Vector.getElem_set_self _)).trans ?_
      split <;> rfl
    · exact congrArg booked (getElem_set_ne t.day k j _ hj)

/-- A difference that is none below zero. -/
theorem ofNat_sub {x y : Nat} (h : y ≤ x) : BitVec.ofNat 64 (x - y) = BitVec.ofNat 64 x - BitVec.ofNat 64 y := by
  rw [eq_sub_iff_add_eq, ← BitVec.ofNat_add, Nat.sub_add_cancel h]

theorem booked_count {h : Fin 17} (hform : m.form = 6) (hh : m.holderA = h.val) (hk : m.currencyA = k.val) (j : Fin 4) :
    booked (bookForm c t m).day[j] = booked t.day[j] +
      if k = j then CountChange.worth (c.faces k) (recordOf t h k).balance (.replace m.breakdownA) else 0 := by
  rw [bookForm_count hform hh hk]
  by_cases hj : k = j
  · subst hj
    rw [if_pos rfl]
    refine (congrArg booked (Vector.getElem_set_self _)).trans ?_
    simp only [booked, CountChange.worth]
    change _ = _ + (BitVec.ofNat 64 (List.zipWith (· * ·) m.breakdownA (c.faces k)).sum - _)
    generalize (List.zipWith (· * ·) m.breakdownA (c.faces k)).sum = worth
    generalize (recordOf t h k).balance = balance
    obtain hlt | heq | hgt := lt_trichotomy worth balance
    · rw [if_neg hlt.not_gt, if_pos hlt, ofNat_sub hlt.le]
      ring
    · rw [if_neg heq.not_gt, if_neg heq.not_lt, heq]
      ring
    · rw [if_pos hgt, if_neg hgt.not_gt, ofNat_sub hgt.le]
      ring
  · rw [if_neg hj, add_zero]
    exact congrArg booked (getElem_set_ne t.day k j _ (Ne.symm hj))

end

/-! ### Movements in balance (R43) -/

/-- Marks, flags and control totals are apart from the balance (R43). -/
theorem inBalance_of_figures {c : Configuration} {t u : Totals} (hday : u.day = t.day)
    (hrecords : ∀ h k, (recordOf u h k).counts = (recordOf t h k).counts ∧
      (recordOf u h k).balance = (recordOf t h k).balance ∧ (recordOf u h k).opening = (recordOf t h k).opening)
    (ht : InBalance c t) : InBalance c u := by
  refine ⟨fun h k => ?_, fun h k => ?_, fun k => ?_⟩
  · rw [(hrecords h k).1]
    exact ht.twelve h k
  · rw [(hrecords h k).1, (hrecords h k).2.1]
    exact ht.sums h k
  · simp only [(hrecords _ k).2.1, (hrecords _ k).2.2, hday]
    exact ht.identity k

theorem applyMovement_inBalance {c : Configuration} {t : Totals} {m : Movement}
    (hlegs : InBalance c (m.legs.foldl (applyLeg c) (bookForm c t m))) : InBalance c (applyMovement c t m) := by
  refine inBalance_of_figures ?_ (fun h k => ?_) hlegs
  · unfold applyMovement bookControl markCounted
    split
    · split
      · dsimp only
        split <;> rfl
      · rfl
    · rfl
  · rw [applyMovement, recordOf_congr (bookControl_kept _ m).1, recordOf_markCounted]
    split <;> exact ⟨rfl, rfl, rfl⟩

section

variable {c : Configuration} {t u : Totals} {h g : Fin 17} {k i : Fin 4} {a b : Int} {p q : CountChange}

/-- Figures of the records alone. -/
theorem recordsTrue_congr (hrecords : u.records = t.records) (ht : RecordsTrue c t) : RecordsTrue c u :=
  ⟨fun g j => by rw [recordOf_congr hrecords]; exact ht.twelve g j,
    fun g j => by rw [recordOf_congr hrecords]; exact ht.sums g j⟩

theorem gained_congr (hrecords : u.records = t.records) (j : Fin 4) : gained u j = gained t j := by
  simp only [gained, recordOf_congr hrecords]

theorem legFits_congr (hrecord : recordOf u h k = recordOf t h k) (hfits : LegFits c t h k p) : LegFits c u h k p :=
  ⟨hfits.active, hfits.currency, hfits.twelve, by rw [hrecord]; exact hfits.range⟩

/-- One leg with the Day Totals that match it. -/
theorem inBalance_one_leg (ht : InBalance c t) (hrecords : u.records = t.records) (hfits : LegFits c t h k p)
    (hday : ∀ j : Fin 4, booked u.day[j] = booked t.day[j] +
      if k = j then p.worth (c.faces k) (recordOf t h k).balance else 0) :
    InBalance c (applyLeg c u ⟨some h, k, a, some p⟩) := by
  obtain ⟨htrue, hgained⟩ := inBalance_iff.mp ht
  have hfitsU := legFits_congr (recordOf_congr hrecords h k) hfits
  have htrueU := recordsTrue_congr hrecords htrue
  refine inBalance_iff.mpr ⟨hfitsU.recordsTrue htrueU, fun j => ?_⟩
  rw [hfitsU.gained_eq htrueU, gained_congr hrecords, hgained, recordOf_congr hrecords, ← hday]
  rw [applyLeg_eq]
  rfl

/-- Two legs with the Day Totals that match them; the worth of a change that is no replacement is that of its
pieces. -/
theorem inBalance_two_legs (ht : InBalance c t) (hrecords : u.records = t.records) (hfits : LegFits c t h k p)
    (hsecond : LegFits c (applyLeg c u ⟨some h, k, a, some p⟩) g i q)
    (hday : ∀ (j : Fin 4) (x y : Nat), booked u.day[j] = booked t.day[j] +
      (if k = j then p.worth (c.faces k) x else 0) + if i = j then q.worth (c.faces i) y else 0) :
    InBalance c (applyLeg c (applyLeg c u ⟨some h, k, a, some p⟩) ⟨some g, i, b, some q⟩) := by
  obtain ⟨htrue, hgained⟩ := inBalance_iff.mp ht
  have hfitsU := legFits_congr (recordOf_congr hrecords h k) hfits
  have htrueU := recordsTrue_congr hrecords htrue
  have htrueFirst := hfitsU.recordsTrue (a := a) htrueU
  refine inBalance_iff.mpr ⟨hsecond.recordsTrue htrueFirst, fun j => ?_⟩
  rw [hsecond.gained_eq htrueFirst, hfitsU.gained_eq htrueU, gained_congr hrecords, hgained, ← hday, applyLeg_eq,
    applyLeg_eq]
  rfl

end

end Sys2Proof.Machine
end

