-- ==== Sys2Proof/Proofs/AcceptedBalance.lean ====
section
/-! SUPPORT. An accepted posting keeps the books in balance: the checks it has passed make its legs fit, and the Day
Totals gain what the legs move (R29 to R34, R43, R62 to R64). -/

namespace Sys2Proof.Machine

/-! ### What the checks have established -/

/-- The checks that an accepted posting has passed (R29). -/
theorem accepted_passes {s : State} {e : SubmitEntry} (haccepted : verdict s e = none) :
    let f := slotFieldsOf s e.slot
    fieldsFit s.configuration e.slot (judgedForm s f) f = true ∧
      amountTests s.configuration (judgedForm s f) f = none ∧
      InCountRange (resultingCounts s.totals (slotMovement s e f)) := by
  intro f
  have hcounts := (acceptanceNeedsRoomAndCounts s e haccepted).2
  rw [verdict_eq] at haccepted
  simp only [ite_some_eq_none] at haccepted
  obtain ⟨-, -, hfields, -, -, -, -, -, hamounts⟩ := haccepted
  obtain ⟨htests, -⟩ := (ite_test_eq_none id).mp hamounts
  exact ⟨by simpa using hfields, not_not.mp htests, hcounts⟩

/-- The kinds of a slot whose fields fit, and the form that each is judged by (R31, R55). -/
theorem kind_of_fieldsFit {c : Configuration} {n : Fin 16} {form : Nat} {f : SlotFields}
    (h : fieldsFit c n form f = true) : 1 ≤ f.kind ∧ f.kind ≤ 7 := by
  simp only [fieldsFit, Bool.and_eq_true, decide_eq_true_eq] at h
  exact h.1.1.1

theorem judgedForm_cases (s : State) (f : SlotFields) :
    f.kind ≠ 7 ∧ judgedForm s f = f.kind ∨ f.kind = 7 ∧ judgedForm s f ≤ 5 := by
  by_cases h : f.kind = 7
  · refine Or.inr ⟨h, ?_⟩
    rw [judgedForm, if_pos h]
    cases s.posting.reversal with
    | none => exact Nat.zero_le 5
    | some r =>
      rw [usableForm_some]
      split
      next hform => exact hform.2.2
      · exact Nat.zero_le 5
  · exact Or.inl ⟨h, if_neg h⟩

section

variable {c : Configuration} {n : Fin 16} {form : Nat} {f : SlotFields}

/-- The holders and currencies of a slot whose fields fit are in range (R31, R41, R55). -/
theorem indices_of_fieldsFit (h : fieldsFit c n form f = true) :
    ∃ (a b : Fin 17) (k j : Fin 4), f.holderA = a.val ∧ f.holderB = b.val ∧ f.currencyA = k.val ∧
      f.currencyB = j.val := by
  suffices hrange : f.holderA ≤ 16 ∧ f.holderB ≤ 16 ∧ f.currencyA ≤ 3 ∧ f.currencyB ≤ 3 by
    obtain ⟨ha, hb, hk, hj⟩ := hrange
    exact ⟨⟨f.holderA, by omega⟩, ⟨f.holderB, by omega⟩,
      ⟨f.currencyA, by omega⟩, ⟨f.currencyB, by omega⟩, rfl, rfl,
      rfl, rfl⟩
  by_cases hseven : f.kind = 7
  · obtain ⟨-, -, -, -, ha, hb, hk, hj, -⟩ := (reversalFieldsFit c n form f hseven).mp h
    exact ⟨ha, hb, hk, hj⟩
  · obtain ⟨-, -, -, ⟨k, hk, -⟩, hactive, -, hkinds⟩ := (fieldsFitTheKind c n form f hseven).mp h
    have ha : f.kind ≠ 5 → f.holderA ≤ 16 := by
      intro hfive
      obtain ⟨a, ha, -⟩ := hactive hfive
      omega
    have hplain : f.holderB = 0 → f.currencyB = 0 → f.kind ≠ 5 ∨ f.holderA = 0 →
        f.holderA ≤ 16 ∧ f.holderB ≤ 16 ∧ f.currencyA ≤ 3 ∧ f.currencyB ≤ 3 := by
      intro hb hj hfive
      refine ⟨?_, by omega, by omega, by omega⟩
      obtain hfive | hzero := hfive
      · exact ha hfive
      · omega
    obtain ⟨hk12, ⟨hb, hj, -⟩, -⟩ | ⟨hk3, ⟨b, hb, -⟩, -, hj, -⟩ | ⟨hk4, hb, ⟨j, hj, -⟩, -⟩ |
      ⟨hk5, ha0, -, ⟨hb, hj, -⟩, -⟩ | ⟨hk6, ⟨hb, hj, -⟩, -⟩ := hkinds
    · exact hplain hb hj (Or.inl (by omega))
    · exact ⟨ha (by omega), by omega, by omega, by omega⟩
    · exact ⟨ha (by omega), hb ▸ ha (by omega), by omega, by omega⟩
    · exact hplain hb hj (Or.inr ha0)
    · exact hplain hb hj (Or.inl (by omega))

variable {a b : Fin 17} {k j : Fin 4}

/-- Both of two tests are passed. -/
theorem orElse_eq_none {x y : Option Reason} : orElse x y = none ↔ x = none ∧ y = none := by
  cases x <;> simp [orElse]

/-- An amount that passes the range test is at least one (R63). -/
theorem one_le_of_rangeTest {x : Int} (h : rangeTest (postingAmount x) = none) : 1 ≤ x := by
  simp only [rangeTest, postingAmount, ite_eq_left_iff, reduceCtorEq, imp_false, not_not, Bool.and_eq_true,
    decide_eq_true_eq] at h
  exact h.1

/-- An amount that passes the sum test is that of its breakdown (R62, R63). -/
theorem amount_of_fieldSumTest {v : Nat} {counts : List Nat} {x : Int} (hv : v = k.val)
    (h : fieldSumTest c v counts x = none) : x = (breakdownSum (c.faces k) counts : Nat) := by
  subst hv
  simp only [fieldSumTest, indexOf_val, sumTest] at h
  split at h
  · cases h
  · split at h
    · cases h
    next hne => exact (not_not.mp hne).symm

/-- The first amount of a cash posting is that of its breakdown, and at least one (R63). -/
theorem amountA_of_tests (hk : f.currencyA = k.val) (hform : form = 1 ∨ form = 2 ∨ form = 3 ∨ form = 4)
    (h : amountTests c form f = none) :
    1 ≤ f.amountA ∧ f.amountA = (breakdownSum (c.faces k) f.breakdownA : Nat) := by
  have htests : rangeTest (postingAmount f.amountA) = none ∧
      fieldSumTest c f.currencyA f.breakdownA f.amountA = none := by
    obtain rfl | rfl | rfl | rfl := hform
    all_goals
      obtain ⟨hrange, hrest⟩ := orElse_eq_none.mp h
    · exact ⟨hrange, hrest⟩
    · exact ⟨hrange, hrest⟩
    · exact ⟨hrange, hrest⟩
    · exact ⟨hrange, (orElse_eq_none.mp hrest).1⟩
  exact ⟨one_le_of_rangeTest htests.1, amount_of_fieldSumTest hk htests.2⟩

/-- The second amount of an EXCHANGE is that of its second breakdown, and at least one (R63). -/
theorem amountB_of_tests (hj : f.currencyB = j.val) (h : amountTests c 4 f = none) :
    1 ≤ f.amountB ∧ f.amountB = (breakdownSum (c.faces j) f.breakdownB : Nat) := by
  obtain ⟨-, hrest⟩ := orElse_eq_none.mp h
  obtain ⟨-, hrest⟩ := orElse_eq_none.mp hrest
  obtain ⟨-, hrest⟩ := orElse_eq_none.mp hrest
  obtain ⟨hrange, hsum⟩ := orElse_eq_none.mp hrest
  exact ⟨one_le_of_rangeTest hrange, amount_of_fieldSumTest hj hsum⟩

/-- A breakdown that is worth something belongs to a configured currency (R55). -/
theorem currency_of_worth {counts : List Nat} {x : Int} (hpositive : 1 ≤ x)
    (hworth : x = (breakdownSum (c.faces k) counts : Nat))
    (hbelongs : (∀ y ∈ counts, y = 0) ∨ ∃ i : Fin 4, k.val = i.val ∧ c.hasCurrency i = true ∧
      ∀ y ∈ counts.drop c.currencies[i].denominations, y = 0) : c.hasCurrency k = true := by
  obtain hzero | ⟨i, hi, hcurrency, -⟩ := hbelongs
  · rw [breakdownSum_of_zero _ hzero] at hworth
    omega
  · rwa [Fin.ext hi]

/-- The first holder and currency of a posting with a record are active and configured (R31, R55, R63). -/
theorem fits_first (ha : f.holderA = a.val) (hk : f.currencyA = k.val) (h : fieldsFit c n form f = true)
    (htests : amountTests c form f = none) (hkind : f.kind ≠ 7 ∧ form = f.kind ∨ f.kind = 7 ∧ form ≤ 5)
    (hform : form = 1 ∨ form = 2 ∨ form = 3 ∨ form = 4 ∨ form = 6) :
    c.holderActive a = true ∧ c.hasCurrency k = true := by
  obtain ⟨hseven, rfl⟩ | ⟨hseven, hle⟩ := hkind
  · obtain ⟨-, -, -, ⟨i, hi, hcurrency, -⟩, hactive, -⟩ := (fieldsFitTheKind c n _ f hseven).mp h
    obtain ⟨g, hg, hactive⟩ := hactive (by omega)
    exact ⟨by rwa [Fin.ext (ha.symm.trans hg)], by rwa [Fin.ext (hk.symm.trans hi)]⟩
  · obtain ⟨-, -, -, -, -, -, -, -, -, -, -, -, hbelongs, -, hnamed⟩ := (reversalFieldsFit c n form f hseven).mp h
    have hcash : form = 1 ∨ form = 2 ∨ form = 3 ∨ form = 4 := by omega
    obtain ⟨hpositive, hworth⟩ := amountA_of_tests hk hcash htests
    refine ⟨hnamed a ?_, currency_of_worth hpositive hworth (hk ▸ hbelongs)⟩
    by_cases hthree : form = 3
    · simp [namedHolders, hthree, ha, indexOf_val]
    · rw [namedHolders_one ha (by omega)]
      exact List.mem_singleton_self a

/-- The second holder of a TRANSFER is active, and but for a REVERSAL another one (R31, R55). -/
theorem fits_second_holder (ha : f.holderA = a.val) (hb : f.holderB = b.val) (h : fieldsFit c n 3 f = true)
    (hkind : f.kind ≠ 7 ∧ 3 = f.kind ∨ f.kind = 7 ∧ 3 ≤ 5) :
    c.holderActive b = true ∧ (f.kind ≠ 7 → b ≠ a) := by
  obtain ⟨hseven, hthree⟩ | ⟨hseven, -⟩ := hkind
  · obtain ⟨-, -, -, -, -, -, hkinds⟩ := (fieldsFitTheKind c n _ f hseven).mp h
    obtain ⟨hk12, -⟩ | ⟨-, ⟨g, hg, hactive⟩, hne, -⟩ | ⟨hk4, -⟩ | ⟨hk5, -⟩ | ⟨hk6, -⟩ := hkinds
    case inr.inl =>
      refine ⟨by rwa [Fin.ext (hb.symm.trans hg)], ?_⟩
      rintro - rfl
      exact hne (hb.trans ha.symm)
    all_goals omega
  · obtain ⟨-, -, -, -, -, -, -, -, -, -, -, -, -, -, hnamed⟩ := (reversalFieldsFit c n 3 f hseven).mp h
    refine ⟨hnamed b ?_, fun hno => absurd hseven hno⟩
    rw [namedHolders_transfer ha hb]
    simp

/-- The second currency of an EXCHANGE is configured, and but for a REVERSAL another one (R31, R55, R63). -/
theorem fits_second_currency (hk : f.currencyA = k.val) (hj : f.currencyB = j.val) (h : fieldsFit c n 4 f = true)
    (htests : amountTests c 4 f = none) (hkind : f.kind ≠ 7 ∧ 4 = f.kind ∨ f.kind = 7 ∧ 4 ≤ 5) :
    c.hasCurrency j = true ∧ (f.kind ≠ 7 → j ≠ k) := by
  obtain ⟨hseven, hfour⟩ | ⟨hseven, -⟩ := hkind
  · obtain ⟨-, -, -, -, -, -, hkinds⟩ := (fieldsFitTheKind c n _ f hseven).mp h
    obtain ⟨hk12, -⟩ | ⟨hk3, -⟩ | ⟨-, -, ⟨i, hi, hcurrency, -⟩, hne, -⟩ | ⟨hk5, -⟩ | ⟨hk6, -⟩ :=
      hkinds
    case inr.inr.inl =>
      refine ⟨by rwa [Fin.ext (hj.symm.trans hi)], ?_⟩
      rintro - rfl
      exact hne (hj.trans hk.symm)
    all_goals omega
  · obtain ⟨-, -, -, -, -, -, -, -, -, -, -, -, -, hbelongs, -⟩ := (reversalFieldsFit c n 4 f hseven).mp h
    obtain ⟨hpositive, hworth⟩ := amountB_of_tests hj htests
    exact ⟨currency_of_worth hpositive hworth (hj ▸ hbelongs), fun hno => absurd hseven hno⟩

end

/-! ### The legs of an accepted posting -/

/-- The checks on the counts cover every leg (R33). -/
theorem range_of_leg {t : Totals} {m : Movement} {h : Fin 17} {k : Fin 4} {a : Int} {change : CountChange}
    (hrange : InCountRange (resultingCounts t m)) (hl : ⟨some h, k, a, some change⟩ ∈ m.legs) :
    InCountRange (countsAfter (recordOf t h k).counts change) :=
  fun n hn => hrange n (List.mem_flatMap.mpr ⟨_, hl, hn⟩)

/-- Pieces flow in or out whole. -/
theorem pieces_flowIn (r : Bool) (p : List Nat) : (flowIn r p).pieces = p := by
  cases r <;> rfl

/-- Pieces that flow are worth their amount. -/
theorem worth_flowIn {faces p : List Nat} {x : Int} (hx : x = (breakdownSum faces p : Nat)) (r : Bool) (y : Nat) :
    (flowIn r p).worth faces y = if r then -addend x else addend x := by
  subst hx
  cases r <;> simp [flowIn, CountChange.worth, addend]

/-- Counts that stay in range with pieces in stay so when the same pieces go out again. -/
theorem range_gain_lose {old p : List Nat} (hlength : old.length = p.length)
    (hrange : InCountRange (countsAfter old (.gain p))) :
    InCountRange (countsAfter ((countsAfter old (.gain p)).map storedCount) (.lose p)) := by
  induction old generalizing p with
  | nil => obtain rfl : p = [] := List.length_eq_zero_iff.mp hlength.symm; exact hrange
  | cons n old ih =>
    obtain _ | ⟨d, p⟩ := p
    · simp at hlength
    obtain ⟨hhead, htail⟩ := List.forall_mem_cons.mp hrange
    have hstored : (storedCount (n + d : Int) : Int) = n + d := storedCount_of_range hhead.1 hhead.2
    have hle : (n + d : Int) ≤ 65535 := hhead.2
    have hafter : 0 ≤ (storedCount (n + d : Int) : Int) - d ∧
        (storedCount (n + d : Int) : Int) - d ≤ 65535 := by omega
    exact List.forall_mem_cons.mpr ⟨hafter, ih (by simpa using hlength) htail⟩

/-- Counts that stay in range with some pieces out and with others in stay so with both. -/
theorem range_lose_gain {old p q : List Nat} (hlength : old.length = p.length) (hother : old.length = q.length)
    (hlose : InCountRange (countsAfter old (.lose p))) (hgain : InCountRange (countsAfter old (.gain q))) :
    InCountRange (countsAfter ((countsAfter old (.lose p)).map storedCount) (.gain q)) := by
  induction old generalizing p q with
  | nil => obtain rfl : q = [] := List.length_eq_zero_iff.mp hother.symm; exact fun n hn => by simp [countsAfter] at hn
  | cons n old ih =>
    obtain _ | ⟨d, p⟩ := p
    · simp at hlength
    obtain _ | ⟨g, q⟩ := q
    · simp at hother
    obtain ⟨hout, houts⟩ := List.forall_mem_cons.mp hlose
    obtain ⟨hin, hins⟩ := List.forall_mem_cons.mp hgain
    have hstored : (storedCount (n - d : Int) : Int) = n - d := storedCount_of_range hout.1 hout.2
    have hpositive : (0 : Int) ≤ n - d := hout.1
    have hle : (n + g : Int) ≤ 65535 := hin.2
    have hafter : 0 ≤ (storedCount (n - d : Int) : Int) + g ∧
        (storedCount (n - d : Int) : Int) + g ≤ 65535 := by omega
    exact List.forall_mem_cons.mpr ⟨hafter, ih (by simpa using hlength) (by simpa using hother) houts hins⟩

section

variable {c : Configuration} {t u : Totals} {h g : Fin 17} {k i : Fin 4} {a : Int} {p q : CountChange}

/-- A second leg of another record fits as it does before the first. -/
theorem legFits_second_other (hrecords : u.records = t.records) (hsecond : LegFits c t g i q)
    (hother : ¬(h = g ∧ k = i)) : LegFits c (applyLeg c u ⟨some h, k, a, some p⟩) g i q := by
  refine legFits_congr ?_ hsecond
  rw [applyLeg_eq, recordOf_setRecord, if_neg hother, recordOf_congr hrecords]

/-- A second leg of the same record fits where its counts stay in range after the first. -/
theorem legFits_second_same (hrecords : u.records = t.records) (hfirst : LegFits c t h k p)
    (hsecond : LegFits c t h k q)
    (hrange : InCountRange (countsAfter ((countsAfter (recordOf t h k).counts p).map storedCount) q)) :
    LegFits c (applyLeg c u ⟨some h, k, a, some p⟩) h k q := by
  refine ⟨hsecond.active, hsecond.currency, hsecond.twelve, ?_⟩
  rw [applyLeg_eq, recordOf_setRecord, if_pos ⟨rfl, rfl⟩, bookedRecord_congr (recordOf_congr hrecords h k),
    hfirst.bookedRecord_eq]
  exact hrange

end

/-- A breakdown has twelve fields (13.1). -/
theorem breakdown_length (s : State) (n : Fin 16) :
    (slotFieldsOf s n).breakdownA.length = 12 ∧ (slotFieldsOf s n).breakdownB.length = 12 := by
  simp [slotFieldsOf, slotFields, fields16]

/-! ### Each form in balance (R44 to R53, R59) -/

section

variable {c : Configuration} {t : Totals} {m : Movement} {a b : Fin 17} {k j : Fin 4}

/-- A first leg that flows fits, by the checks. -/
theorem legFits_of_leg {change : CountChange} {x : Int} {h : Fin 17} {i : Fin 4} (hactive : c.holderActive h = true)
    (hcurrency : c.hasCurrency i = true) (hlength : change.pieces.length = 12)
    (hrange : InCountRange (resultingCounts t m)) (hl : ⟨some h, i, x, some change⟩ ∈ m.legs) :
    LegFits c t h i change := ⟨hactive, hcurrency, hlength, range_of_leg hrange hl⟩

theorem inBalance_cash (ht : InBalance c t) (hform : m.form = 1 ∨ m.form = 2) (ha : m.holderA = a.val)
    (hk : m.currencyA = k.val) (hactive : c.holderActive a = true) (hcurrency : c.hasCurrency k = true)
    (hlength : m.breakdownA.length = 12) (hworth : m.amountA = (breakdownSum (c.faces k) m.breakdownA : Nat))
    (hrange : InCountRange (resultingCounts t m)) :
    InBalance c (m.legs.foldl (applyLeg c) (bookForm c t m)) := by
  have hlegs : m.legs = [⟨some a, k, m.amountA, some (flowIn (if m.form = 1 then m.reverses else !m.reverses)
      m.breakdownA)⟩] := by
    obtain hform | hform := hform <;> simp [Movement.legs, hform, ha, hk, holderLeg_val]
  have hfits : LegFits c t a k (flowIn (if m.form = 1 then m.reverses else !m.reverses) m.breakdownA) :=
    legFits_of_leg hactive hcurrency ((congrArg _ (pieces_flowIn _ _)).trans hlength) hrange
      (hlegs ▸ List.mem_singleton_self _)
  rw [hlegs]
  refine inBalance_one_leg ht (bookForm_kept c t m).1 hfits fun i => ?_
  rw [worth_flowIn hworth]
  obtain hform | hform := hform <;> cases hr : m.reverses <;>
    simp [-Fin.getElem_fin, bookForm, hform, hr, hk, booked_bookReceived, booked_bookPaid]

theorem inBalance_transfer (ht : InBalance c t) (hform : m.form = 3) (ha : m.holderA = a.val) (hb : m.holderB = b.val)
    (hk : m.currencyA = k.val) (hactiveA : c.holderActive a = true) (hactiveB : c.holderActive b = true)
    (hcurrency : c.hasCurrency k = true) (hlength : m.breakdownA.length = 12)
    (hworth : m.amountA = (breakdownSum (c.faces k) m.breakdownA : Nat))
    (hrange : InCountRange (resultingCounts t m)) (hdistinct : m.reverses = false → b ≠ a) :
    InBalance c (m.legs.foldl (applyLeg c) (bookForm c t m)) := by
  have hlegs : m.legs = [⟨some a, k, m.amountA, some (flowIn (!m.reverses) m.breakdownA)⟩,
      ⟨some b, k, m.amountA, some (flowIn m.reverses m.breakdownA)⟩] := by
    simp [Movement.legs, hform, ha, hb, hk, holderLeg_val]
  have hfirst : LegFits c t a k (flowIn (!m.reverses) m.breakdownA) :=
    legFits_of_leg (x := m.amountA) hactiveA hcurrency ((congrArg _ (pieces_flowIn _ _)).trans hlength) hrange
      (by simp [hlegs])
  have hsecond : LegFits c t b k (flowIn m.reverses m.breakdownA) :=
    legFits_of_leg (x := m.amountA) hactiveB hcurrency ((congrArg _ (pieces_flowIn _ _)).trans hlength) hrange
      (by simp [hlegs])
  have hrecords := (bookForm_kept c t m).1
  have hthen : LegFits c
      (applyLeg c (bookForm c t m) ⟨some a, k, m.amountA, some (flowIn (!m.reverses) m.breakdownA)⟩)
      b k (flowIn m.reverses m.breakdownA) := by
    by_cases hsame : a = b
    · subst hsame
      have hreverses : m.reverses = true := by
        by_contra hno
        exact hdistinct (Bool.eq_false_iff.mpr hno) rfl
      refine legFits_second_same hrecords hfirst hsecond ?_
      have hgain := hfirst.range
      simp only [hreverses, flowIn, Bool.not_true, Bool.false_eq_true, if_false, if_true] at hgain ⊢
      exact range_gain_lose (((inBalance_iff.mp ht).1.twelve a k).trans hlength.symm) hgain
    · exact legFits_second_other hrecords hsecond fun h => hsame h.1
  rw [hlegs]
  refine inBalance_two_legs ht hrecords hfirst hthen fun i x y => ?_
  rw [worth_flowIn hworth, worth_flowIn hworth]
  cases hr : m.reverses <;> by_cases hi : k = i <;> simp [bookForm, hform, hi]

theorem inBalance_exchange (ht : InBalance c t) (hform : m.form = 4) (ha : m.holderA = a.val)
    (hk : m.currencyA = k.val) (hj : m.currencyB = j.val) (hactive : c.holderActive a = true)
    (hcurrencyA : c.hasCurrency k = true) (hcurrencyB : c.hasCurrency j = true) (hlengthA : m.breakdownA.length = 12)
    (hlengthB : m.breakdownB.length = 12) (hworthA : m.amountA = (breakdownSum (c.faces k) m.breakdownA : Nat))
    (hworthB : m.amountB = (breakdownSum (c.faces j) m.breakdownB : Nat))
    (hrange : InCountRange (resultingCounts t m)) (hdistinct : m.reverses = false → j ≠ k) :
    InBalance c (m.legs.foldl (applyLeg c) (bookForm c t m)) := by
  have hlegs : m.legs = [⟨some a, k, m.amountA, some (flowIn m.reverses m.breakdownA)⟩,
      ⟨some a, j, m.amountB, some (flowIn (!m.reverses) m.breakdownB)⟩] := by
    simp [Movement.legs, hform, ha, hk, hj, holderLeg_val]
  have hfirst : LegFits c t a k (flowIn m.reverses m.breakdownA) :=
    legFits_of_leg (x := m.amountA) hactive hcurrencyA ((congrArg _ (pieces_flowIn _ _)).trans hlengthA) hrange
      (by simp [hlegs])
  have hsecond : LegFits c t a j (flowIn (!m.reverses) m.breakdownB) :=
    legFits_of_leg (x := m.amountB) hactive hcurrencyB ((congrArg _ (pieces_flowIn _ _)).trans hlengthB) hrange
      (by simp [hlegs])
  have hrecords := (bookForm_kept c t m).1
  have hthen : LegFits c
      (applyLeg c (bookForm c t m) ⟨some a, k, m.amountA, some (flowIn m.reverses m.breakdownA)⟩)
      a j (flowIn (!m.reverses) m.breakdownB) := by
    by_cases hsame : k = j
    · subst hsame
      have hreverses : m.reverses = true := by
        by_contra hno
        exact hdistinct (Bool.eq_false_iff.mpr hno) rfl
      refine legFits_second_same hrecords hfirst hsecond ?_
      have hlose := hfirst.range
      have hgain := hsecond.range
      simp only [hreverses, flowIn, Bool.not_true, Bool.false_eq_true, if_false, if_true] at hlose hgain ⊢
      have htwelve := (inBalance_iff.mp ht).1.twelve a k
      exact range_lose_gain (htwelve.trans hlengthA.symm) (htwelve.trans hlengthB.symm) hlose hgain
    · exact legFits_second_other hrecords hsecond fun h => hsame h.2
  rw [hlegs]
  refine inBalance_two_legs ht hrecords hfirst hthen fun i x y => ?_
  rw [worth_flowIn hworthA, worth_flowIn hworthB]
  cases hr : m.reverses <;>
    simp [-Fin.getElem_fin, bookForm, hform, hr, hk, hj, booked_bookResidue, booked_bookReceived, booked_bookPaid]

theorem inBalance_noncash (ht : InBalance c t) (hform : m.form = 5) :
    InBalance c (m.legs.foldl (applyLeg c) (bookForm c t m)) := by
  have hlegs : m.legs.foldl (applyLeg c) (bookForm c t m) = bookNoncash t m := by
    cases hk : indexOf 4 m.currencyA <;> simp [Movement.legs, hform, bookForm, hk, applyLeg_none]
  obtain ⟨htrue, hgained⟩ := inBalance_iff.mp ht
  have hrecords : (bookNoncash t m).records = t.records := (bookDay_kept _ _ _).1
  rw [hlegs]
  refine inBalance_iff.mpr ⟨recordsTrue_congr hrecords htrue, fun i => ?_⟩
  rw [gained_congr hrecords, hgained, booked_bookNoncash]

theorem inBalance_count (ht : InBalance c t) (hform : m.form = 6) (ha : m.holderA = a.val) (hk : m.currencyA = k.val)
    (hactive : c.holderActive a = true) (hcurrency : c.hasCurrency k = true) (hlength : m.breakdownA.length = 12)
    (hrange : InCountRange (resultingCounts t m)) :
    InBalance c (m.legs.foldl (applyLeg c) (bookForm c t m)) := by
  have hlegs : m.legs = [⟨some a, k, m.amountA, some (.replace m.breakdownA)⟩] := by
    simp [Movement.legs, hform, ha, hk, holderLeg_val]
  have hfits : LegFits c t a k (.replace m.breakdownA) :=
    legFits_of_leg (x := m.amountA) hactive hcurrency hlength hrange
      (by simp [hlegs])
  rw [hlegs]
  exact inBalance_one_leg ht (bookForm_kept c t m).1 hfits fun i => booked_count hform ha hk i

theorem inBalance_none (ht : InBalance c t) (hform : m.form = 0) :
    InBalance c (m.legs.foldl (applyLeg c) (bookForm c t m)) := by
  simpa [Movement.legs, hform, bookForm] using ht

end

theorem acceptedPostingKeepsTheBalance : Claims.AcceptedPostingKeepsTheBalance := by
  intro s e haccepted ht
  obtain ⟨hfields, htests, hrange⟩ := accepted_passes haccepted
  obtain ⟨a, b, k, j, ha, hb, hk, hj⟩ := indices_of_fieldsFit hfields
  obtain ⟨hlengthA, hlengthB⟩ := breakdown_length s e.slot
  have hkind := kind_of_fieldsFit hfields
  have hkinds := judgedForm_cases s (slotFieldsOf s e.slot)
  have hreverses : (slotMovement s e (slotFieldsOf s e.slot)).reverses = false → (slotFieldsOf s e.slot).kind ≠ 7 :=
    fun h => by simpa [Movement.reverses, slotMovement] using h
  have hform : (slotMovement s e (slotFieldsOf s e.slot)).form = judgedForm s (slotFieldsOf s e.slot) := rfl
  refine applyMovement_inBalance ?_
  generalize judgedForm s (slotFieldsOf s e.slot) = form at *
  have hcases : form = 0 ∨ form = 1 ∨ form = 2 ∨ form = 3 ∨ form = 4 ∨ form = 5 ∨ form = 6 := by omega
  obtain rfl | rfl | rfl | rfl | rfl | rfl | rfl := hcases
  · exact inBalance_none ht hform
  · obtain ⟨hactive, hcurrency⟩ := fits_first ha hk hfields htests hkinds (by simp)
    exact inBalance_cash ht (Or.inl hform) ha hk hactive hcurrency hlengthA
        (amountA_of_tests hk (by simp) htests).2 hrange
  · obtain ⟨hactive, hcurrency⟩ := fits_first ha hk hfields htests hkinds (by simp)
    exact inBalance_cash ht (Or.inr hform) ha hk hactive hcurrency hlengthA
        (amountA_of_tests hk (by simp) htests).2 hrange
  · obtain ⟨hactive, hcurrency⟩ := fits_first ha hk hfields htests hkinds (by simp)
    obtain ⟨hactiveB, hdistinct⟩ := fits_second_holder ha hb hfields hkinds
    exact inBalance_transfer ht hform ha hb hk hactive hactiveB hcurrency hlengthA
      
        (amountA_of_tests hk (by simp) htests).2 hrange fun h => hdistinct (hreverses h)
  · obtain ⟨hactive, hcurrency⟩ := fits_first ha hk hfields htests hkinds (by simp)
    obtain ⟨hcurrencyB, hdistinct⟩ := fits_second_currency hk hj hfields htests hkinds
    exact inBalance_exchange ht hform ha hk hj hactive hcurrency hcurrencyB hlengthA hlengthB
      (amountA_of_tests hk (by simp) htests).2 (amountB_of_tests hj htests).2 hrange fun h => hdistinct (hreverses h)
  · exact inBalance_noncash ht hform
  · obtain ⟨hactive, hcurrency⟩ := fits_first ha hk hfields htests hkinds (by simp)
    exact inBalance_count ht hform ha hk hactive hcurrency hlengthA hrange

/-- Settles O21: the books of a day that opens, and an accepted posting. -/
theorem booksStayInBalance : Obligations.BooksStayInBalance :=
  ⟨openingBooksAreInBalance, acceptedPostingKeepsTheBalance⟩

end Sys2Proof.Machine
end

