-- ==== Sys2Proof/Proofs/AmountFigures.lean ====
section
/-! SUPPORT. The conversion of an EXCHANGE, the hash total and the printed amount (R65 to R67, R69, R74, R75). -/

namespace Sys2Proof.Machine

/-! ### The conversion (R65 to R67) -/

theorem payableIsTheQuotientRoundedDown : Claims.PayableIsTheQuotientRoundedDown := by
  intro a rate eA eB u hu p q
  have hp : p = q - q % u := rfl
  have hmod : q % u < u := Nat.mod_lt _ hu
  have hle : q % u ≤ q := Nat.mod_le _ _
  have hd : 0 < 10 ^ 8 * 10 ^ eA := by positivity
  have hrest : a * rate * 10 ^ eB - p * (10 ^ 8 * 10 ^ eA) < u * (10 ^ 8 * 10 ^ eA) := by
    have hq : a * rate * 10 ^ eB < (q + 1) * (10 ^ 8 * 10 ^ eA) := Nat.lt_mul_of_div_lt (Nat.lt_succ_self q) hd
    have hup : (q + 1) * (10 ^ 8 * 10 ^ eA) ≤ (p + u) * (10 ^ 8 * 10 ^ eA) := Nat.mul_le_mul_right _ (by omega)
    have hbelow : p * (10 ^ 8 * 10 ^ eA) ≤ a * rate * 10 ^ eB :=
      (Nat.mul_le_mul_right _ (by omega)).trans (Nat.div_mul_le_self _ _)
    rw [Nat.add_mul p u] at hup
    exact (tsub_lt_iff_left hbelow).mpr (hq.trans_le hup)
  refine ⟨?_, by omega, by omega, ?_⟩
  · rw [hp]
    exact Nat.sub_mod_eq_zero_of_mod_eq (Nat.mod_mod _ _).symm
  · refine Nat.div_lt_of_lt_mul ?_
    calc (conversionN a rate eB - payable a rate eA eB u * conversionD eA) * 10 ^ 4
        < u * (10 ^ 8 * 10 ^ eA) * 10 ^ 4 := Nat.mul_lt_mul_of_pos_right hrest (by norm_num)
      _ = conversionD eA * (u * 10 ^ 4) := by rw [conversionD]; ring

theorem residueIsWhatThePayableLeaves : Claims.ResidueIsWhatThePayableLeaves := by
  intro c a b amount rate ha hb hu hamount hamount' hrate hrate' n d u
  have hpayable : exchangePayable c a b amount rate = n / d / u * u := by
    rw [Nat.div_mul_self_eq_mod_sub_self]
    rfl
  have hstated : conversionStated c a b (amount : Int) rate = true := by
    simp only [conversionStated, ha, hb, postingAmount, Bool.true_and, Bool.and_eq_true, decide_eq_true_eq]
    simp only [maxAmount]
    omega
  refine ⟨hpayable, ?_, ?_⟩
  · rw [exchangeResidue_stated hstated, Int.toNat_natCast, ← hpayable]
    rfl
  · calc n / d / u * u * d ≤ n / d * d := Nat.mul_le_mul_right _ (Nat.div_mul_le_self _ _)
      _ ≤ n := Nat.div_mul_le_self _ _

theorem hashIsASumModulo : Claims.HashIsASumModulo := by
  intro hash a b hhash ha ha' hb hb'
  have hposted : ∀ x : Int, 0 ≤ x → x ≤ 999999999999 → countAmount x = true := fun x h0 h1 => by
    simp only [countAmount, Bool.and_eq_true, decide_eq_true_eq]
    exact ⟨h0, h1⟩
  rw [hashAfter_posted (hposted a ha ha') (hposted b hb hb'), hashModulus]
  split <;> omega

/-! ### The printed amount (R74, R75) -/

theorem amountFieldIsFourteenColumns : Claims.AmountFieldIsFourteenColumns := by
  intro cur v
  refine ⟨amountField_length cur v, ?_⟩
  obtain ⟨text, rfl, ⟨-, h⟩ | h⟩ := amountField_cases cur v
  · refine Or.inl ?_
    rw [h, rightAlign, ← List.append_assoc]
    exact List.getLast?_concat ..
  · exact Or.inr h

/-- Exactly n digits: the number's own with zeros before them. -/
theorem fixedDecimal_eq {n v : Nat} (hn : 1 ≤ n) (hv : v < 10 ^ n) :
    fixedDecimal n v = List.replicate (n - (Nat.toDigits 10 v).length) '0' ++ Nat.toDigits 10 v := by
  induction n generalizing v with
  | zero => omega
  | succ n ih =>
    rw [fixedDecimal, toDigits_succ]
    rcases Nat.eq_zero_or_pos n with rfl | hpos
    · have hv0 : v / 10 = 0 := by omega
      simp [hv0, fixedDecimal]
    · rw [ih hpos (by rw [pow_succ] at hv; omega)]
      by_cases hv0 : v / 10 = 0
      · simp [hv0, ← List.replicate_succ', Nat.sub_add_cancel hpos]
      · simp [hv0]

/-- The printed field of a body and a sign. -/
def shownField (sign : Char) (body : List Char) : List Char :=
  if body.length + 1 ≤ 14 then List.replicate (13 - body.length) ' ' ++ body ++ [sign] else List.replicate 14 '*'

theorem amountField_eq (cur : Currency) (v : Int) :
    amountField cur v = shownField (if v < 0 then '-' else ' ') (amountBody cur v.natAbs) := by
  have hspaces : ∀ n, 14 - (n + 1) = 13 - n := by omega
  simp only [amountField, shownField, rightAlign, List.length_append, List.length_singleton, List.append_assoc, hspaces]

/-- The digits of the integer part, lowest first (R74). -/
theorem digitsReversed_eq {n : Nat} (h : n < 10 ^ 24) : digitsReversed 24 n = (Nat.toDigits 10 n).reverse := by
  rw [← digitsReversed_toDigits 24 n h (by norm_num), List.reverse_reverse]

/-- A list that is not of four at least is of three at most. -/
theorem length_le_three {l : List Char}
    (h : ∀ (a b c d : Char) (rest : List Char), l = a :: b :: c :: d :: rest → False) :
    l.length ≤ 3 := by
  match l with
  | [] | [_] | [_, _] | [_, _, _] => simp
  | a :: b :: c :: d :: rest => exact (h a b c d rest rfl).elim

/-- Three digits or fewer are one group (R74). -/
theorem groupDigits_short {sep : Char} {l : List Char}
    (h : ∀ (a b c d : Char) (rest : List Char), l = a :: b :: c :: d :: rest → False) : groupDigits sep l = l := by
  match l with
  | [] | [_] | [_, _] | [_, _, _] => rfl
  | a :: b :: c :: d :: rest => exact (h a b c d rest rfl).elim

/-- Digits in groups of three have a separator behind each third digit that others follow (R74). -/
theorem groupDigits_length (sep : Char) (l : List Char) :
    (groupDigits sep l).length = l.length + (l.length - 1) / 3 := by
  induction l using groupDigits.induct with
  | case1 a b c d rest ih =>
    simp only [groupDigits, List.length_cons] at ih ⊢
    omega
  | case2 short hshort =>
    have hle := length_le_three hshort
    rw [groupDigits_short hshort]
    omega

theorem groupDigits_getElem? (sep : Char) (l : List Char) (i : Nat) (hi : i < (groupDigits sep l).length) :
    (groupDigits sep l)[i]? = if i % 4 = 3 then some sep else l[i - i / 4]? := by
  induction l using groupDigits.induct generalizing i with
  | case1 a b c d rest ih =>
    simp only [groupDigits, List.length_cons] at hi ⊢
    match i with
    | 0 => rfl
    | 1 => rfl
    | 2 => rfl
    | 3 => rfl
    | i + 4 =>
      have hfour : (i + 4) % 4 = i % 4 := Nat.add_mod_right i 4
      have hindex : i + 4 - (i + 4) / 4 = i - i / 4 + 3 := by omega
      rw [hfour, hindex]
      exact ih i (by simpa using hi)
  | case2 short hshort =>
    have hle := length_le_three hshort
    rw [groupDigits_short hshort] at hi ⊢
    rw [if_neg (by omega), show i - i / 4 = i by omega]

theorem amountFieldShowsTheAmount : Claims.AmountFieldShowsTheAmount := by
  intro cur v hv whole rest fraction sign shown
  have hwhole : digitsReversed 24 (v.natAbs / 10 ^ cur.exponent) = whole.reverse :=
    digitsReversed_eq (lt_of_le_of_lt (Nat.div_le_self _ _) hv)
  have hfraction : (if cur.exponent = 0 then []
      else decimalSeparator cur.decimal :: fixedDecimal cur.exponent (v.natAbs % 10 ^ cur.exponent)) = fraction := by
    by_cases he : cur.exponent = 0
    · simp only [he, if_true, fraction]
    · rw [if_neg he, fixedDecimal_eq (Nat.pos_of_ne_zero he) (Nat.mod_lt _ (by positivity))]
      simp only [fraction, if_neg he]
      rfl
  have hfield : ∀ body, amountBody cur v.natAbs = body → amountField cur v = shown body := by
    rintro body rfl
    exact amountField_eq cur v
  refine ⟨fun hgrouping => hfield _ ?_, fun sep hsep =>
    ⟨(groupDigits sep whole.reverse).reverse, hfield _ ?_, ?_, ?_⟩⟩
  · simp only [amountBody, hwhole, hfraction, hgrouping]
    simp [groupingSeparator]
  · simp only [amountBody, hwhole, hfraction, hsep]
  · simp [groupDigits_length]
  · intro i hi
    rw [List.reverse_reverse]
    exact groupDigits_getElem? sep whole.reverse i (by simpa using hi)

/-- Settles O25: the conversion, the hash total and the printed amount. -/
theorem amountArithmetic : Obligations.AmountArithmetic :=
  ⟨payableIsTheQuotientRoundedDown, residueIsWhatThePayableLeaves, hashIsASumModulo, amountFieldIsFourteenColumns,
    amountFieldShowsTheAmount, rfl, rfl, rfl, rfl, rfl, rfl⟩

end Sys2Proof.Machine
end

