-- ==== Sys2Proof/Proofs/Drawers.lean ====
section
/-! SUPPORT. The drawers: the lock, the releases, the sense samples and the timers (R80 to R86, R90). -/

namespace Sys2Proof.Machine

/-! ### The lock and the release (R81, R82) -/

theorem lockFollowsReleased : Claims.LockFollowsReleased := by
  intro d
  cases hstate : d.state <;> simp [Drawer.energised, hstate]

/-- Settles O27: the two pairs of cases of a release are the two branches of its definition. -/
theorem releaseActsByState : Obligations.ReleaseActsByState :=
  ⟨lockFollowsReleased, fun c d =>
    ⟨fun h => by rcases h with h | h <;> simp [releasedDrawer, h],
      fun h => by rcases h with h | h <;> simp [releasedDrawer, h]⟩⟩

/-! ### What one sample completes (R80) -/

section

variable {d : Drawer} {level : Sense}

/-- A sample at the debounced level empties the run. -/
theorem sampledSense_debounced (hsense : d.sense = some level) :
    sampledSense d level = ({ d with runLevel := level, runLength := 0 }, .emptied) := if_pos hsense

/-- A run that stays under three completes nothing. -/
theorem sampledSense_short (hsense : d.sense ≠ some level)
    (hrun : d.runLevel = level → d.runLength ≤ 1) :
    sampledSense d level =
      ({ d with runLevel := level, runLength := if d.runLevel = level then d.runLength + 1 else 1 }, .nothing) := by
  refine (if_neg hsense).trans (if_pos ?_)
  split
  · rename_i hlevel
    have := hrun hlevel
    omega
  · omega

/-- The drawer after a sample: the run counted or emptied, and the sense changed at the third sample. -/
theorem sampledSense_drawer :
    (sampledSense d level).1 = { d with
      runLevel := level,
      sense := if d.sense ≠ some level ∧ 3 ≤ (if d.runLevel = level then d.runLength + 1 else 1) then some level
        else d.sense,
      runLength := if d.sense = some level ∨ 3 ≤ (if d.runLevel = level then d.runLength + 1 else 1) then 0
        else if d.runLevel = level then d.runLength + 1 else 1 } := by
  unfold sampledSense
  generalize (if d.runLevel = level then d.runLength + 1 else 1) = run
  by_cases hsense : d.sense = some level
  · simp [hsense]
  · by_cases hrun : run < 3
    · have hnot : ¬3 ≤ run := by omega
      simp [hsense, hrun, hnot]
    · have hthird : 3 ≤ run := by omega
      simp [hsense, hrun, hthird]

end

/-! ### Samples of an active holder's drawer -/

section

variable {s : State} {h : Fin 17} {level : Sense}

theorem configuration_setDrawer {d : Drawer} : (setDrawer s h d).configuration = s.configuration := rfl

/-- The sense of an inactive holder is debounced and nothing else. -/
theorem takeSample_inactive (hactive : s.configuration.holderActive h = false) :
    takeSample s h level = setDrawer s h (sampledSense s.drawers[h] level).1 := by
  simp [takeSample, hactive]

/-- A debounced level takes an expiry that was held. -/
theorem takeSample_debounced (hactive : s.configuration.holderActive h = true)
    (hsense : s.drawers[h].sense = some level) :
    takeSample s h level =
      takeHeldExpiry (setDrawer s h { s.drawers[h] with runLevel := level, runLength := 0 }) h := by
  simp only [takeSample, hactive, sampledSense_debounced hsense, Bool.not_true, Bool.false_eq_true, if_false]

/-- A short run takes a held expiry at a closed sample. -/
theorem takeSample_short (hactive : s.configuration.holderActive h = true)
    (hsense : s.drawers[h].sense ≠ some level)
    (hrun : s.drawers[h].runLevel = level → s.drawers[h].runLength ≤ 1) :
    takeSample s h level =
      let t := setDrawer s h { s.drawers[h] with
        runLevel := level,
        runLength := if s.drawers[h].runLevel = level then s.drawers[h].runLength + 1 else 1 }
      if level = .closed then takeHeldExpiry t h else t := by
  simp only [takeSample, hactive, sampledSense_short hsense hrun, Bool.not_true, Bool.false_eq_true, if_false]

/-- The third sample at the other level is a sensed open or a sensed closed. -/
theorem takeSample_sensed {old : Sense} (hactive : s.configuration.holderActive h = true)
    (hsense : s.drawers[h].sense = some old) (hother : old ≠ level) (hlevel : s.drawers[h].runLevel = level)
    (hlength : s.drawers[h].runLength = 2) :
    takeSample s h level =
      let t := setDrawer s h { s.drawers[h] with sense := some level, runLevel := level, runLength := 0 }
      if level = .opened then takeSensedOpen t h else takeSensedClosed t h := by
  have hne : s.drawers[h].sense ≠ some level := hsense ▸ fun h => hother (Option.some.inj h)
  cases level <;>
    simp only [takeSample, hactive, sampled_completes hne hlevel hlength, hsense, Option.isNone_some,
      Bool.not_true, Bool.false_eq_true, if_false, reduceCtorEq, if_true]

/-- The third sample of an undetermined sense is its first determination. -/
theorem takeSample_determined (hactive : s.configuration.holderActive h = true)
    (hsense : s.drawers[h].sense = none) (hlevel : s.drawers[h].runLevel = level)
    (hlength : s.drawers[h].runLength = 2) :
    takeSample s h level =
      takeDetermination
        (setDrawer s h { s.drawers[h] with sense := some level, runLevel := level, runLength := 0 }) h level := by
  have hne : s.drawers[h].sense ≠ some level := hsense ▸ nofun
  simp only [takeSample, hactive, sampled_completes hne hlevel hlength, hsense, Option.isNone_none,
    Bool.not_true, Bool.false_eq_true, if_false, if_true]

/-- A held expiry that is taken locks the drawer with NOT_OPENED. -/
theorem takeHeldExpiry_of_held {d : Drawer} (hheld : d.heldExpiry = true) :
    takeHeldExpiry (setDrawer s h d) h = drawerEvent (setDrawer s h (lockedDrawer d)) h 1 0 := by
  simp only [takeHeldExpiry, takeWindowExpiry, setDrawer_getElem, setDrawer_set, hheld, if_true]

theorem takeHeldExpiry_of_not_held {d : Drawer} (hheld : d.heldExpiry = false) :
    takeHeldExpiry (setDrawer s h d) h = setDrawer s h d := by
  simp only [takeHeldExpiry, setDrawer_getElem, hheld, Bool.false_eq_true, if_false]

end

/-! ### Sensed open and sensed closed (R83 to R85) -/

/-- The third sample at the other level is an event of its row and of DRAWER_SENSE_SAMPLE. -/
theorem gives_sensed {s x : State} {h : Fin 17} {level : Sense} {c : Instr} (hr : s.inReset = false)
    (hc : exec c s = running s fun s =>
      if sampleCompletes s h level = .sensed level then takeSample s h level else s)
    (hcompletes : sampleCompletes s h level = .sensed level) (hx : takeSample s h level = x) :
    Gives c s x ∧ Gives (.drawerSenseSample h level) s x :=
  ⟨gives_conclude hr hc ((if_pos hcompletes).trans hx), gives_conclude hr (exec_drawerSenseSample h level s) hx⟩

theorem sampleCompletes_sensed {s : State} {h : Fin 17} {level old : Sense}
    (hsense : s.drawers[h].sense = some old) (hother : old ≠ level) (hlevel : s.drawers[h].runLevel = level)
    (hlength : s.drawers[h].runLength = 2) : sampleCompletes s h level = .sensed level := by
  have hne : s.drawers[h].sense ≠ some level := hsense ▸ fun h => hother (Option.some.inj h)
  simp only [sampleCompletes, sampled_completes hne hlevel hlength, hsense]
  rfl

theorem sensedOpenOpensTheDrawer : Claims.SensedOpenOpensTheDrawer := by
  intro s h hr hactive hsense hlevel hlength d gives
  have hgives (x : State) (hx : takeSample s h .opened = x) : gives x :=
    gives_sensed hr (exec_sensedOpen h s) (sampleCompletes_sensed hsense (by decide) hlevel hlength) hx
  have hsample := takeSample_sensed hactive hsense (by decide) hlevel hlength
  refine ⟨fun hstate => hgives _ (hsample.trans ?_), fun hstate => hgives _ (hsample.trans ?_)⟩
  · simp only [if_true, takeSensedOpen, setDrawer_getElem, hstate, setDrawer_set]
    simp only [d, openedDrawer, configuration_setDrawer, hlevel]
  · simp only [if_true, takeSensedOpen, setDrawer_getElem, hstate, setDrawer_set]
    simp only [d, openedDrawer, configuration_setDrawer, hlevel, drawerEvent, drawerEntry]

theorem sensedClosedLocksTheDrawer : Claims.SensedClosedLocksTheDrawer := by
  intro s h hr hactive hsense hlevel hlength locked gives
  have hgives (x : State) (hx : takeSample s h .closed = x) : gives x :=
    gives_sensed hr (exec_sensedClosed h s) (sampleCompletes_sensed hsense (by decide) hlevel hlength) hx
  have hsample := takeSample_sensed hactive hsense (by decide) hlevel hlength
  refine ⟨fun hstate => hgives _ (hsample.trans ?_), fun hstate => hgives _ (hsample.trans ?_)⟩
  · simp only [reduceCtorEq, if_false, takeSensedClosed, setDrawer_getElem, hstate, setDrawer_set]
    simp only [locked, lockedDrawer, hlevel]
  · simp only [reduceCtorEq, if_false, takeSensedClosed, setDrawer_getElem, hstate, setDrawer_set]
    simp only [locked, lockedDrawer, hlevel, drawerEvent, drawerEntry]

/-! ### Samples that complete no sense (R80, R83) -/

theorem shortRunGivesNoEvent : Claims.ShortRunGivesNoEvent := by
  intro s h level hr hsense hheld hrun
  refine gives_conclude hr (exec_drawerSenseSample h level s) ?_
  by_cases hactive : s.configuration.holderActive h = true
  · rw [takeSample_short hactive hsense hrun]
    by_cases hclosed : level = .closed
    · exact (if_pos hclosed).trans (takeHeldExpiry_of_not_held (hheld hclosed))
    · exact if_neg hclosed
  · rw [takeSample_inactive (by simpa using hactive), sampledSense_short hsense hrun]

theorem debouncedLevelEmptiesTheRun : Claims.DebouncedLevelEmptiesTheRun := by
  intro s h level hr hsense d
  refine ⟨fun hheld => gives_conclude hr (exec_drawerSenseSample h level s) ?_,
    fun hheld hactive _ => gives_conclude hr (exec_drawerSenseSample h level s) ?_⟩
  · by_cases hactive : s.configuration.holderActive h = true
    · exact (takeSample_debounced hactive hsense).trans (takeHeldExpiry_of_not_held hheld)
    · rw [takeSample_inactive (by simpa using hactive), sampledSense_debounced hsense]
  · exact (takeSample_debounced hactive hsense).trans (takeHeldExpiry_of_held hheld)

theorem inactiveHoldersSenseIsDebouncedAlone : Claims.InactiveHoldersSenseIsDebouncedAlone := by
  intro s h level hr hactive d run
  exact gives_conclude hr (exec_drawerSenseSample h level s)
    ((takeSample_inactive hactive).trans (congrArg _ sampledSense_drawer))

/-- Settles O28: each claim is one outcome of a sample, by what the run completes. -/
theorem sensedSamplesMoveTheDrawer : Obligations.SensedSamplesMoveTheDrawer :=
  ⟨sensedOpenOpensTheDrawer, sensedClosedLocksTheDrawer, shortRunGivesNoEvent, debouncedLevelEmptiesTheRun,
    inactiveHoldersSenseIsDebouncedAlone⟩

/-! ### The timers (R83, R84, R86) -/

theorem openRunForming_iff {d : Drawer} :
    openRunForming d = true ↔ d.runLevel = .opened ∧ 1 ≤ d.runLength := by
  simp [openRunForming]

theorem windowExpiryLocksOrIsHeld : Claims.WindowExpiryLocksOrIsHeld := by
  intro s h span hr _ hwindow hheld
  have hexpires : (s.drawers[h].window.isNone || s.drawers[h].heldExpiry) ≠ true := by
    rw [hwindow, hheld]; exact Bool.false_ne_true
  refine ⟨fun hforming => gives_conclude hr (exec_releaseWindowExpiry h s) ?_,
    fun hforming => gives_conclude hr (exec_releaseWindowExpiry h s) ?_⟩
  · refine (if_neg hexpires).trans ((if_neg fun hrun => hforming (openRunForming_iff.mp hrun)).trans ?_)
    simp only [takeWindowExpiry, lockedDrawer, drawerEvent, drawerEntry, ← hheld]
  · exact (if_neg hexpires).trans (if_pos (openRunForming_iff.mpr hforming))

theorem heldExpiryIsTakenAtTheClosedSample : Claims.HeldExpiryIsTakenAtTheClosedSample := by
  intro s h hr hactive _ hheld taken gives
  have hgives (x : State) (hx : takeSample s h .closed = x) : gives x :=
    ⟨gives_conclude hr (exec_heldExpiryTaken h s) ((if_pos hheld).trans hx),
      gives_conclude hr (exec_drawerSenseSample h .closed s) hx⟩
  refine ⟨fun hsense => hgives _ ?_, fun hsense hlevel => hgives _ ?_⟩
  · exact (takeSample_debounced hactive hsense).trans (takeHeldExpiry_of_held hheld)
  · rw [takeSample_short hactive (hsense ▸ nofun) (hlevel ▸ nofun)]
    simp only [hlevel, reduceCtorEq, if_false, if_true]
    exact takeHeldExpiry_of_held hheld

theorem overdueLimitRaisesTheAlert : Claims.OverdueLimitRaisesTheAlert := by
  intro s h span hr hlimit
  exact gives_conclude hr (exec_overdueLimitExpiry h s) (if_neg (by rw [hlimit]; exact Bool.false_ne_true))

/-- Settles O29. -/
theorem drawerTimersRunOut : Obligations.DrawerTimersRunOut :=
  ⟨windowExpiryLocksOrIsHeld, heldExpiryIsTakenAtTheClosedSample, overdueLimitRaisesTheAlert⟩

/-! ### The first determination (R80, R90) -/

theorem sampleCompletes_determined {s : State} {h : Fin 17} {level : Sense}
    (hsense : s.drawers[h].sense = none) (hlevel : s.drawers[h].runLevel = level)
    (hlength : s.drawers[h].runLength = 2) : sampleCompletes s h level = .determined level := by
  have hne : s.drawers[h].sense ≠ some level := hsense ▸ nofun
  simp only [sampleCompletes, sampled_completes hne hlevel hlength, hsense]
  rfl

/-- A determination with no settle pending changes nothing more. -/
theorem takeDetermination_unsettled {s : State} {h : Fin 17} {level : Sense}
    (hsettle : s.drawers[h].settle = false) : takeDetermination s h level = s :=
  if_pos (by rw [hsettle]; decide)

/-- An open determination opens a LOCKED or RELEASED drawer with a settle pending. -/
theorem takeDetermination_opened {s : State} {h : Fin 17} (hsettle : s.drawers[h].settle = true)
    (hstate : s.drawers[h].state = .locked ∨ s.drawers[h].state = .released) :
    takeDetermination s h .opened =
      setDrawer s h (openedDrawer { s.drawers[h] with settle := false } s.configuration.overdueSpan) := by
  rcases hstate with hstate | hstate <;>
    simp only [takeDetermination, hsettle, hstate, Bool.not_true, Bool.false_eq_true, if_false]

/-- A closed determination only ends the pending settle. -/
theorem takeDetermination_closed {s : State} {h : Fin 17} (hsettle : s.drawers[h].settle = true) :
    takeDetermination s h .closed = setDrawer s h { s.drawers[h] with settle := false } := by
  cases hstate : s.drawers[h].state <;>
    simp only [takeDetermination, hsettle, hstate, Bool.not_true, Bool.false_eq_true, if_false]

theorem firstDeterminationSettlesTheDrawer_claim : Claims.FirstDeterminationSettlesTheDrawer := by
  intro s h level hr hactive hsettle hsense hlevel hlength hstate determined gives
  have hgives (x : State) (hx : takeSample s h level = x) : gives x :=
    ⟨gives_conclude hr (exec_senseSettle h level s)
        ((if_pos ⟨hsettle, sampleCompletes_determined hsense hlevel hlength⟩).trans hx),
      gives_conclude hr (exec_drawerSenseSample h level s) hx⟩
  have hsample := takeSample_determined hactive hsense hlevel hlength
  refine ⟨fun hopen => hgives _ (hsample.trans ?_), fun hclosed => hgives _ (hsample.trans ?_)⟩
  · subst hopen
    rw [takeDetermination_opened (by rwa [setDrawer_getElem]) (by rwa [setDrawer_getElem])]
    simp only [setDrawer_getElem, setDrawer_set, configuration_setDrawer, openedDrawer, determined, hlevel]
  · subst hclosed
    rw [takeDetermination_closed (by rwa [setDrawer_getElem])]
    simp only [setDrawer_getElem, setDrawer_set, determined, hlevel]

theorem determinationWithoutASettle : Claims.DeterminationWithoutASettle := by
  rintro s h _ hr hsettle hsense rfl hlength
  refine ⟨gives_conclude hr (exec_drawerSenseSample h _ s) ?_,
    gives_conclude hr (exec_senseSettle h _ s) (if_neg (by rw [hsettle]; simp))⟩
  have hne : s.drawers[h].sense ≠ some s.drawers[h].runLevel := hsense ▸ nofun
  by_cases hactive : s.configuration.holderActive h = true
  · rw [takeSample_determined hactive hsense rfl hlength,
      takeDetermination_unsettled (by rwa [setDrawer_getElem])]
  · rw [takeSample_inactive (by simpa using hactive), sampled_completes hne rfl hlength]

/-- Settles O30. -/
theorem firstDeterminationSettlesTheDrawer : Obligations.FirstDeterminationSettlesTheDrawer :=
  ⟨firstDeterminationSettlesTheDrawer_claim, determinationWithoutASettle⟩

end Sys2Proof.Machine
end

