-- ==== Sys2Proof/Proofs/MonitorFirings.lean ====
section
/-! SUPPORT. The legs and the monitors in their order, counting, firing and the holds (R96, R98 to R101). -/

namespace Sys2Proof.Machine

/-! ### The order of the legs (R96, R98) -/

theorem legsAndMonitorsAreTakenInOrder : Claims.LegsAndMonitorsAreTakenInOrder := by
  refine ⟨fun c mon => rfl, fun c mon legs l => ?_, fun before after m a b j k ha hb hj hk => ?_⟩
  · exact List.foldl_append
  · intro leg legs
    refine ⟨fun hform => ?_, fun hform => ?_, fun hform => ?_, fun hform => ?_⟩
    · rcases hform with hform | hform | hform <;>
        simp [legs, leg, watchedLegs, Movement.legs, legBalance, holderLeg_val, hform, ha, hj]
    · simp [legs, leg, watchedLegs, Movement.legs, legBalance, holderLeg_val, hform, ha, hb, hj]
    · simp [legs, leg, watchedLegs, Movement.legs, legBalance, holderLeg_val, hform, ha, hj, hk]
    · simp [legs, watchedLegs, Movement.legs, legBalance, indexOf_val, hform, hj]

/-! ### One monitor and one leg (R98 to R100) -/

theorem considerLeg_frozen {c : Configuration} {l : WatchedLeg} {r : Monitors × List Firing} {m : Fin 8}
    (hfrozen : r.1.freeze ≠ none) : considerLeg c l r m = r :=
  if_pos (by simp [Option.isSome_iff_ne_none, hfrozen])

theorem frozenMonitorsCountNothing : Claims.FrozenMonitorsCountNothing := by
  intro c mon legs hfrozen
  have hleg (l : WatchedLeg) (ms : List (Fin 8)) : ms.foldl (considerLeg c l) (mon, []) = (mon, []) :=
    List.foldl_fixed' (fun _ => considerLeg_frozen hfrozen) ms
  exact List.foldl_fixed' (fun l => hleg l _) legs

/-- The step that R98 and R99 give a match: the count one up, and a firing where it comes to 0 unfired. -/
theorem considerLeg_match {c : Configuration} {l : WatchedLeg} {mon : Monitors} {firings : List Firing} {m : Fin 8}
    (hfree : mon.freeze = none) (hmatch : legMatches c.monitors[m] l = true) :
    considerLeg c l (mon, firings) m =
      if mon.counts[m] + 1 = 0 ∧ mon.fired[m] = false then
        ({ counts := mon.counts.set m (mon.counts[m] + 1), fired := mon.fired.set m true,
           freeze := if c.monitors[m].action = 3 then some m else none },
          firings ++ [⟨m, l, c.monitors[m].action⟩])
      else ({ mon with counts := mon.counts.set m (mon.counts[m] + 1) }, firings) := by
  have hconsiders : ((mon, firings).1.freeze.isSome || !legMatches c.monitors[m] l) ≠ true := by
    rw [hfree, hmatch]
    exact Bool.false_ne_true
  refine (if_neg hconsiders).trans ?_
  simp [freezeAfter, hfree]

theorem succ_eq_zero_iff (n : BitVec 32) : n + 1 = 0 ↔ n = 0xFFFFFFFF := by
  bv_omega

theorem monitorCountsAndFires_claim : Claims.MonitorCountsAndFires := by
  intro c l mon firings m hfree
  refine ⟨fun hnone => ?none, fun hmatch => ⟨fun hcounts => ?counts, fun hlast hunfired => ?fires⟩⟩
  case none => exact if_pos (Bool.or_eq_true_iff.mpr (.inr (by rw [hnone]; rfl)))
  case counts =>
    rw [considerLeg_match hfree hmatch, if_neg]
    rintro ⟨hzero, hunfired⟩
    rw [succ_eq_zero_iff] at hzero
    rcases hcounts with hcounts | hcounts
    · exact hcounts hzero
    · simp [hunfired] at hcounts
  case fires =>
    have hzero := (succ_eq_zero_iff _).mpr hlast
    rw [considerLeg_match hfree hmatch, if_pos ⟨hzero, hunfired⟩, hzero]

/-! ### The holds and the entry (R100, R101) -/

/-- A firing leaves the flags of every holder but the held flag of its leg's. -/
theorem holdFor_flags (t : Totals) (holder : Option (Fin 17)) (action : Nat) (h : Fin 17) :
    (holdFor t holder action).flags[h] =
      { t.flags[h] with held := t.flags[h].held || decide (action = 2 ∧ holder = some h) } := by
  cases holder with
  | none => simp [holdFor]
  | some g =>
    by_cases haction : action = 2
    · by_cases hg : g = h
      · subst hg
        simp [holdFor, haction, setFlags]
      · have hne : g.val ≠ h.val := fun e => hg (Fin.ext e)
        simp [holdFor, haction, setFlags, hg, Vector.getElem_set_ne, hne]
    · simp [holdFor, haction]

/-- The firings of a posting leave the flags of every holder but the held flags of their legs' holders. -/
theorem holdsAfter_flags (firings : List Firing) (h : Fin 17) (t : Totals) :
    (holdsAfter t firings).flags[h] = { t.flags[h] with
      held := t.flags[h].held || firings.any fun x => decide (x.action = 2 ∧ x.leg.holder = some h) } := by
  induction firings generalizing t with
  | nil => simp [holdsAfter]
  | cons x firings ih =>
    refine (ih (holdFor t x.leg.holder x.action)).trans ?_
    rw [holdFor_flags, List.any_cons, Bool.or_assoc]

/-- A hold changes nothing of the Totals Store but flags. -/
theorem holdsAfter_totals (t : Totals) (firings : List Firing) :
    { holdsAfter t firings with flags := t.flags } = t := by
  refine foldl_keeps _ (fun u : Totals => { u with flags := t.flags }) (fun u f => ?_) firings t
  unfold holdFor
  split
  · rfl
  · split <;> rfl

theorem holdActionSetsTheHold : Claims.HoldActionSetsTheHold := by
  intro t firings t'
  refine ⟨holdsAfter_totals t firings, fun h => ?_⟩
  have hflags : t'.flags[h] = _ := holdsAfter_flags firings h t
  refine ⟨congrArg (·.balanced) hflags, congrArg (·.forced) hflags, ?_⟩
  rw [congrArg (·.held) hflags]
  simp

theorem firedEntryNamesTheFiring : Claims.FiredEntryNamesTheFiring := by
  intro position tag number x
  cases hholder : x.leg.holder <;> simp [firedEntry, hholder]

/-- Settles O32. -/
theorem monitorCountsAndFires : Obligations.MonitorCountsAndFires :=
  ⟨legsAndMonitorsAreTakenInOrder, frozenMonitorsCountNothing, monitorCountsAndFires_claim, holdActionSetsTheHold,
    firedEntryNamesTheFiring⟩

end Sys2Proof.Machine
end

