-- ==== Sys2Proof/Proofs/Entries.lean ====
section
/-! SUPPORT. The journal's entries: who writes them, where they stand, their fields and their chain (R106, R108,
R109, R111, R115 to R118). -/

namespace Sys2Proof.Machine

/-! ### Entries of the Journal Unit's own (R110, R115 to R118) -/

section

variable {s : State} {f : EntryFields}

theorem journals_iff (d : DayState) : d.journals = true ↔ d ≠ .setup ∧ d ≠ .recovering ∧ d ≠ .settled := by
  cases d <;> decide

/-- The placing of the Journal Unit's own group tells the Control Unit nothing. -/
theorem handGroup_entry_control (s : State) (writes : List (Nat × Dword)) :
    (handGroup s ⟨.journal, writes⟩).control = s.control := ite_self _

/-- An entry written takes the next number, chains on, and lowers the free count unless it redeems. -/
theorem writeEntry_journal (lowers : Bool) :
    (writeEntry s f lowers).journal = { s.journal with
      next := s.journal.next + 1, chain := chainOf s.journal.chain (entryContent s.journal.next s.day.clock f),
      free := if lowers then s.journal.free - 1 else s.journal.free } := rfl

theorem numberEntry_redeeming_control (s : State) (content : List Byte) :
    (numberEntry s content false).control = s.control := rfl

theorem dayControlEntry_absent (habsent : s.journal.present = false) : dayControlEntry s f = s :=
  if_pos (by simp [habsent])

theorem dayControlEntry_full (hpresent : s.journal.present = true) (hfull : s.journal.free = 0) :
    dayControlEntry s f = raiseAlert s .journalFull := by
  simp [dayControlEntry, hpresent, hfull]

theorem dayControlEntry_written (hpresent : s.journal.present = true) (hfree : 1 ≤ s.journal.free) :
    dayControlEntry s f = writeEntry s f true := by
  simp [dayControlEntry, hpresent, hfree]

theorem eventEntryIsWrittenSkippedOrDropped_claim : Claims.EventEntryIsWrittenSkippedOrDropped := by
  intro s f
  refine ⟨fun hno => ?dropped, fun hpresent hsetup hrecovering hsettled => ?journals⟩
  case dropped =>
    rw [eventEntry_cases, if_neg]
    rw [Bool.and_eq_true, journals_iff]
    rintro ⟨hpresent, hsetup, hrecovering, hsettled⟩
    rcases hno with habsent | hday | hday | hday
    · simp [habsent] at hpresent
    · exact hsetup hday
    · exact hrecovering hday
    · exact hsettled hday
  case journals =>
    have hjournals := (journals_iff s.day.state).mpr ⟨hsetup, hrecovering, hsettled⟩
    rw [eventEntry_cases, hpresent, hjournals, Bool.and_self, if_pos rfl]
    refine ⟨fun hroom => ?_, fun hfull => if_neg (by omega)⟩
    rw [if_pos hroom]
    exact ⟨journalWrites_writeEntry s f true, rfl, rfl, rfl⟩

theorem dayControlEntryUsesTheLastEntry : Claims.DayControlEntryUsesTheLastEntry := by
  refine fun s f => ⟨dayControlEntry_absent, dayControlEntry_full, fun hpresent hfree => ?_⟩
  rw [dayControlEntry_written hpresent hfree]
  exact ⟨journalWrites_writeEntry s f true, rfl⟩

/-- An entry paid by its reservation, where the day journals. -/
theorem redeemEntry_reserved {k : Fin 4} (hreserved : k ∈ s.journal.reservations)
    (hjournals : s.day.state.journals = true) :
    redeemEntry s k f = writeEntry
      { s with journal := { s.journal with reservations := s.journal.reservations.erase k } } f false :=
  (if_pos (List.contains_iff_mem.mpr hreserved)).trans (if_pos hjournals)

theorem reservationPaysForItsEntry : Claims.ReservationPaysForItsEntry := by
  intro s k f
  refine ⟨?granted, rfl, fun hnone => if_neg (by simpa using hnone), fun hreserved => ⟨?redeemed, ?cancelled⟩⟩
  case granted =>
    simp only [reservationGranted, Bool.and_eq_true, decide_eq_true_eq, journals_iff]
    tauto
  case redeemed =>
    intro hsetup hrecovering hsettled
    rw [redeemEntry_reserved hreserved ((journals_iff _).mpr ⟨hsetup, hrecovering, hsettled⟩)]
    refine ⟨?_, ?_, rfl⟩
    · exact journalWrites_writeEntry _ _ _
    · exact handGroup_entry_control _ _
  case cancelled =>
    intro hday
    have hnot : ¬s.day.state.journals = true := by
      rw [journals_iff]
      rintro ⟨hsetup, hrecovering, hsettled⟩
      rcases hday with hday | hday | hday
      · exact hsetup hday
      · exact hrecovering hday
      · exact hsettled hday
    exact (if_pos (List.contains_iff_mem.mpr hreserved)).trans (if_neg hnot)

theorem lowFreeCountRaisesTheAlert : Claims.LowFreeCountRaisesTheAlert := by
  intro s content k _ low
  have hlow : journalLow s (s.journal.free - 1) = true ↔ low := decide_eq_true_iff
  have hnumber : (numberEntry s content true).control.alerts =
      if journalLow s (s.journal.free - 1) then addAlert s.control.alerts .journalLow else s.control.alerts := by
    rfl
  refine ⟨fun h => ⟨?_, if_pos (hlow.mpr h)⟩, fun h => ?_, rfl⟩
  · exact hnumber.trans (if_pos (hlow.mpr h))
  · have hnot : journalLow s (s.journal.free - 1) = false :=
      Bool.eq_false_iff.mpr fun hlowered => h (hlow.mp hlowered)
    exact ⟨by rw [numberEntry, if_pos rfl, hnot]; rfl, by rw [reserve, hnot]; rfl⟩

end

/-! ### Where an entry stands (R106, R108, R111, 13.2) -/

theorem dwordsOfBytes_getElem? (n : Nat) (b : List Byte) (i : Nat) (hi : i < n) :
    (dwordsOfBytes n b)[i]? = some (dwordOfBytes (b.drop (8 * i))) := by
  induction n generalizing b i with
  | zero => omega
  | succ n ih =>
    cases i with
    | zero => rfl
    | succ i =>
      rw [dwordsOfBytes, List.getElem?_cons_succ, ih _ _ (by omega), List.drop_drop]
      congr 3
      omega

theorem dwordsOfBytes_length (n : Nat) (b : List Byte) : (dwordsOfBytes n b).length = n := by
  induction n generalizing b with
  | zero => rfl
  | succ n ih => simp [dwordsOfBytes, ih]

theorem entryContent_length (number time : Nat) (f : EntryFields) : (entryContent number time f).length = 60 := by
  simp [entryContent, leBytes_length]

theorem entryStandsAtItsRingPosition : Claims.EntryStandsAtItsRingPosition := by
  intro s f i hi content entry
  refine ⟨?_, ?_, ?_, fun hnext => ?_⟩
  · simp [entry, content, entryContent_length, leBytes_length]
  · simp [entryWrites, dwordsOfBytes_length]
  · simp only [entryWrites, List.getElem?_zip_eq_some, List.getElem?_map, dwordsOfBytes_getElem? 8 _ i hi]
    simp [List.getElem?_range hi, ringAddress, ringPosition, ringSize, chainedEntry, entry, content]
  · rw [field_eq_uintAt]
    simp only [entry, content, entryContent, List.append_assoc, uintAt_leBytes]
    exact Nat.mod_eq_of_lt hnext

theorem entryFieldsStandAtTheirOffsets : Claims.EntryFieldsStandAtTheirOffsets := by
  refine ⟨fun number time chain f => ?written, fun e => ?read⟩
  case written =>
    intro e signed
    have hchain : chain.toNat < 4294967296 := chain.isLt
    refine ⟨by simp [e, entryContent_length, leBytes_length], ?_⟩
    simp [e, signed, entryContent, uintAt_skip, uintAt_leBytes, uintAt_leBytes_self, leBytes_length, unsigned64_eq,
      hchain]
    omega
  case read =>
    intro f signed
    have hfield : ∀ o k, field e o k = uintAt e o k := field_eq_uintAt e
    have hchain : (entryChain e).toNat = uintAt e 0x3C 4 := by
      rw [entryChain, hfield, BitVec.toNat_ofNat]
      exact Nat.mod_eq_of_lt (uintAt_lt e 0x3C 4)
    exact ⟨hfield _ _, hfield _ _, hfield _ _, hfield _ _, hfield _ _, hfield _ _, hfield _ _, hfield _ _, hfield _ _,
      hfield _ _, signed64_field e _, signed64_field e _, hfield _ _, signed64_field e _, hfield _ _, hfield _ _,
      hchain⟩

theorem breakdownCountsStandAtTheirOffsets : Claims.BreakdownCountsStandAtTheirOffsets := by
  intro number time code chain a b ha hb e
  have hsplit : e = leBytes 4 number ++ (leBytes 4 time ++ (leBytes 1 3 ++ (leBytes 1 code ++ (leBytes 2 0 ++
      (bytes16 a ++ (bytes16 b ++ leBytes 4 chain.toNat)))))) := by
    simp [e, breakdownContent, leBytes]
  have hchain : chain.toNat < 4294967296 := chain.isLt
  have hla : (bytes16 a).length = 24 := by rw [bytes16_length, ha]
  have hlb : (bytes16 b).length = 24 := by rw [bytes16_length, hb]
  rw [hsplit]
  refine ⟨by simp [leBytes_length, hla, hlb], ?_, ?_, ?_, ?_, ?_, fun d hd => ⟨?countA, ?countB⟩, ?_⟩
  case countA =>
    have := uintAt_bytes16 a (bytes16 b ++ leBytes 4 chain.toNat) d (by omega)
    rw [← this]
    iterate 5 rw [uintAt_skip _ _ _ _ (by simp only [leBytes_length]; omega)]
    simp only [leBytes_length]
    congr 1
    omega
  case countB =>
    have := uintAt_bytes16 b (leBytes 4 chain.toNat) d (by omega)
    rw [← this]
    iterate 6 rw [uintAt_skip _ _ _ _ (by simp only [leBytes_length, hla]; omega)]
    simp only [leBytes_length, hla]
    congr 1
    omega
  all_goals simp [uintAt_skip, uintAt_leBytes, uintAt_leBytes_self, leBytes_length, hla, hlb, hchain]

/-! ### The chain (R109) -/

theorem chainCoversTheContent : Claims.ChainCoversTheContent := by
  intro previous content rest hlength
  rw [chainOf, List.take_left' hlength]

theorem chainIsAShiftRegister : Claims.ChainIsAShiftRegister := by
  refine ⟨by decide, fun bytes b => ?_⟩
  generalize hshift : (fun r : BitVec 32 => if r.getLsbD 0 = true then (r >>> 1) ^^^ 0xEDB88320 else r >>> 1) = shift
  have hrun : ∀ r < 2 ^ 32, ∀ x < 256, crc32Byte r x < 2 ^ 32 := fun r hr x hx =>
    iterate_lt crc32Shift_lt 8 _ (Nat.xor_lt_two_pow hr (by omega))
  generalize hr : crcFeed crc32Byte bytes 0xFFFFFFFF = r
  have hlt : r < 2 ^ 32 := hr ▸ crcFeed_lt hrun bytes _ (by norm_num)
  have hb := b.isLt
  have hstep : BitVec.ofNat 32 (crc32Byte r b.toNat) = shift^[8] (BitVec.ofNat 32 (r ^^^ b.toNat)) :=
    hshift ▸ iterate_of crc32Shift_lt crc32Shift_ofNat 8 _ (Nat.xor_lt_two_pow hlt (by omega))
  have hxor : BitVec.ofNat 32 (r ^^^ b.toNat) = BitVec.ofNat 32 r ^^^ b.setWidth 32 := by
    apply BitVec.eq_of_toNat_eq
    simp only [BitVec.toNat_ofNat, BitVec.toNat_xor, BitVec.toNat_setWidth]
    rw [Nat.mod_eq_of_lt hlt, Nat.mod_eq_of_lt (show b.toNat < 2 ^ 32 by omega)]
    exact Nat.mod_eq_of_lt (Nat.xor_lt_two_pow hlt (by omega))
  rw [crc32, crc32, crcFeed_append, hr, hstep, hxor, BitVec.not_not]

/-- Settles O33. -/
theorem eventEntryIsWrittenSkippedOrDropped : Obligations.EventEntryIsWrittenSkippedOrDropped :=
  ⟨eventEntryIsWrittenSkippedOrDropped_claim, entryStandsAtItsRingPosition, dayControlEntryUsesTheLastEntry,
    reservationPaysForItsEntry, lowFreeCountRaisesTheAlert, entryFieldsStandAtTheirOffsets,
    breakdownCountsStandAtTheirOffsets, chainCoversTheContent, chainIsAShiftRegister⟩

end Sys2Proof.Machine
end

