-- ==== Sys2Proof/Proofs/JournalRuns.lean ====
section
/-! SUPPORT. An entry of a read-back run, a run's end, and CHECK_JOURNAL (R119 to R121). -/

namespace Sys2Proof.Machine

/-! ### Commands -/

/-- A granted command gives what its body makes of the state in which it is taken (R192). -/
theorem gives_command {c : Instr} {s x : State} {addr : Nat} {mask : ByteMask} {data : Dword} {code : Nat}
    (h : CommandGiven s addr mask data code) (hc : exec c s = running s fun s => grantCommand s code)
    (hx : runCommand (commandTaken s addr mask data) code = x) : Gives c s x :=
  gives_conclude h.1.1 hc ((grantCommand_eq h).trans hx)

/-- A completion changes of the Control Unit the busy flag and the command taken alone. -/
theorem complete_control (s : State) (status : Status) (detail : Nat) :
    (complete s status detail).control = s.control ∨
      (complete s status detail).control = { s.control with busy := false, taken := none } := by
  simp only [complete, handGroup]
  split
  · rw [(placing_tells s.control s.day _).1]
    split
    · exact .inr rfl
    · exact .inl rfl
  · exact .inl rfl

/-- What a completion leaves of a figure of the Control Unit that neither the busy flag nor the command taken is. -/
theorem complete_control_kept {α : Type} (f : Control → α)
    (hf : ∀ c : Control, f { c with busy := false, taken := none } = f c) (s : State) (status : Status)
    (detail : Nat) : f (complete s status detail).control = f s.control := by
  rcases complete_control s status detail with h | h
  · rw [h]
  · rw [h, hf]

theorem complete_journalCheck (s : State) (status : Status) (detail : Nat) :
    (complete s status detail).control.journalCheck = s.control.journalCheck :=
  complete_control_kept (·.journalCheck) (fun _ => rfl) s status detail

theorem complete_alerts (s : State) (status : Status) (detail : Nat) :
    (complete s status detail).control.alerts = s.control.alerts :=
  complete_control_kept (·.alerts) (fun _ => rfl) s status detail

/-! ### The runs at a step's end (R119) -/

theorem serveRuns_runs (s : State) : (serveRuns s).journal.runs = s.journal.runs := by
  obtain ⟨j, f, h⟩ := serveRuns_shifted s
  rw [h]
  rfl

/-- Every run has its predecessor's chain. -/
def AllChained (j : Journal) : Prop := ∀ r ∈ j.runs, r.chain ≠ none

/-- A doubleword changes no run that has its predecessor's chain. -/
theorem journalTakes_runs {s : State} (hchained : AllChained s.journal) (data : Dword) :
    (journalTakes s data).journal.runs = s.journal.runs := by
  unfold journalTakes
  split
  · rfl
  · next requester hserving =>
    split
    · rfl
    · next hnone =>
      have hother : ∀ r ∈ s.journal.runs, ¬(r.requester == requester) = true := by
        intro r hr hrequester
        cases hrun : runOf s.journal requester with
        | none => exact absurd hrequester (by simpa using List.find?_eq_none.mp hrun r hr)
        | some r' =>
          rw [hrun] at hnone
          exact hchained r' (List.mem_of_find?_eq_some hrun) hnone
      rw [serveRuns_runs]
      exact (List.map_congr_left fun r hr => if_neg (hother r hr)).trans (List.map_id _)

theorem clientTakes_runs {s : State} (hchained : AllChained s.journal) (data : Dword) (client : FetchClient) :
    (clientTakes s data client).journal.runs = s.journal.runs := by
  cases client with
  | journal => exact journalTakes_runs hchained data
  | posting => simp only [clientTakes, postingTakes]; split <;> [rfl; (split <;> rfl)]
  | drop d => rfl
  | day => simp only [clientTakes, dayTakes]; repeat' split
           all_goals rfl
  | control => simp only [clientTakes, controlTakes]; split <;> [rfl; (split <;> rfl)]

theorem answerFetch_runs {s : State} (hchained : AllChained s.journal) (data : Dword) :
    (answerFetch s data).journal.runs = s.journal.runs := by
  unfold answerFetch
  split
  · rfl
  · next r rest hfetches =>
    exact clientTakes_runs (s := { s with path := { s.path with
      fetches := if r.left ≤ 1 then rest else { r with next := r.next + 8, left := r.left - 1 } :: rest,
      fetchWaits := false } }) hchained data r.client

theorem pumpFetches_runs (n : Nat) {s : State} (hchained : AllChained s.journal) :
    (pumpFetches n s).journal.runs = s.journal.runs := by
  induction n generalizing s with
  | zero => rfl
  | succ n ih =>
    unfold pumpFetches
    split
    · rfl
    · split
      · rfl
      · split
        · next data hdata =>
          have hsame := answerFetch_runs hchained data
          rw [ih (by rw [AllChained, hsame]; exact hchained), hsame]
        · rfl

/-- A step's end leaves the runs that have their predecessors' chains. -/
theorem conclude_runs (before : State) {after : State} (hchained : AllChained after.journal) :
    (conclude before after).journal.runs = after.journal.runs :=
  (congrArg (fun side => side.2.2.2.2.2.1.runs) (fetchSide_conclude before after)).trans
    (pumpFetches_runs 256 hchained)

/-! ### The end of a run (R119, R120) -/

theorem shifted_shifted (x : State) (i j f g) : shifted (shifted x i f) j g = shifted x j g := rfl

/-- The state with no run left. -/
def runEnded (s : State) : State := { s with journal := { s.journal with runs := [] } }

theorem passTurn_shifted (x : State) : ∃ j f, passTurn x = shifted x j f := by
  unfold passTurn
  split
  · obtain ⟨j, f, h⟩ := serveRuns_shifted { x with journal := { x.journal with serving := none } }
    exact ⟨j, f, h⟩
  · exact ⟨(x.journal.serving, x.journal.turn, x.journal.buffer),
      (x.path.fetches, x.path.fetchWaits, x.path.fetchStreak), rfl⟩

theorem view_passTurn (x : State) : view (passTurn x) = view x := by
  obtain ⟨j, f, h⟩ := passTurn_shifted x
  rw [h, view_shifted]

theorem passTurn_runs (x : State) : (passTurn x).journal.runs = x.journal.runs := by
  obtain ⟨j, f, h⟩ := passTurn_shifted x
  rw [h]
  rfl

/-- The end of the one run leaves no run, and beside it what the service of runs touches. -/
theorem endRun_shifted {u : State} {r : Run} (hruns : u.journal.runs = [r])
    (hserving : u.journal.serving = some r.requester) :
    ∃ j f, endRun u r.requester = shifted (runEnded u) j f := by
  have hdropped : dropRun u.journal r.requester = { u.journal with
      runs := [], turn := (dropRun u.journal r.requester).turn } := by
    simp [dropRun, hruns]
  unfold endRun
  rw [if_pos (by simp [hserving]), serveRuns_none (by rw [hdropped]), hdropped]
  exact ⟨(_, _, _), (_, _, _), rfl⟩

/-! ### An entry of a run (R119) -/

/-- The first whole entry of the buffer. -/
def entryRead (s : State) : List Byte := bytesOfDwords (s.journal.buffer.take 8)

theorem entryVerifies_iff {r : Run} {e : List Byte} :
    entryVerifies r e = true ↔ entryNumber e = r.next ∧ entryChain e = chainOf (r.chain.getD 0xFFFFFFFF) e := by
  simp [entryVerifies]

/-- A run behind a verified entry. -/
def runMoved (r : Run) (e : List Byte) : Run := { r with next := r.next + 1, chain := some (entryChain e) }

/-- The state behind a verified entry of the one run. -/
def runMovedOn (s : State) (r : Run) (e : List Byte) : State :=
  { s with journal := { s.journal with runs := [runMoved r e], buffer := s.journal.buffer.drop 8 } }

section

variable {s : State} {r : Run} (hruns : s.journal.runs = [r]) (hserving : s.journal.serving = some r.requester)
  (hbuffer : 8 ≤ s.journal.buffer.length)

include hruns hserving hbuffer

theorem takeRunEntry_verifies (hverifies : entryVerifies r (entryRead s) = true) :
    takeRunEntry s =
      passTurn (handEntry (runMovedOn s r (entryRead s)) r (entryRead s) (runEnds s r)) := by
  have hrun : s.journal.serving.bind (runOf s.journal) = some r := by simp [hserving, runOf, hruns]
  rw [takeRunEntry, if_pos hbuffer, verifyEntry, hrun]
  refine (if_pos hverifies).trans ?_
  simp only [updateRun, hruns, List.map_cons, List.map_nil, beq_self_eq_true, if_true]
  rfl

theorem takeRunEntry_breaks (hbreaks : ¬entryVerifies r (entryRead s) = true) :
    takeRunEntry s = tellBreak { s with journal := { s.journal with buffer := s.journal.buffer.drop 8 } } r := by
  have hrun : s.journal.serving.bind (runOf s.journal) = some r := by simp [hserving, runOf, hruns]
  rw [takeRunEntry, if_pos hbuffer, verifyEntry, hrun]
  exact if_neg hbreaks

omit hruns hbuffer in
/-- The run ends behind its last verified entry. -/
theorem endRun_runMovedOn (e : List Byte) :
    ∃ j f, endRun (runMovedOn s r e) r.requester = shifted (runEnded s) j f := by
  obtain ⟨j, f, h⟩ := endRun_shifted (u := runMovedOn s r e) (r := runMoved r e) rfl hserving
  exact ⟨j, f, h⟩

omit hbuffer in
/-- The run ends at an entry that breaks it. -/
theorem endRun_broken :
    ∃ j f, endRun { s with journal := { s.journal with buffer := s.journal.buffer.drop 8 } } r.requester =
      shifted (runEnded s) j f := by
  obtain ⟨j, f, h⟩ := endRun_shifted (r := r)
    (u := { s with journal := { s.journal with buffer := s.journal.buffer.drop 8 } }) hruns hserving
  exact ⟨j, f, h⟩

end

/-! ### CHECK_JOURNAL (R121) -/

/-- The end of CHECK_JOURNAL's run, with the number and the chain noted when the command was taken. -/
theorem endJournalCheck_noted {x : State} {last : Nat} {noted chain : BitVec 32}
    (hnoted : x.control.journalCheck = some (last, noted)) :
    endJournalCheck x chain =
      let ended : State := { x with control := { x.control with journalCheck := none } }
      if chain = noted then complete ended .done last
      else complete (raiseAlert ended .journalDamaged) .failed last := by
  unfold endJournalCheck
  split
  · next hnone => simp [hnone] at hnoted
  · next hsome =>
    obtain ⟨rfl, rfl⟩ := Prod.mk.inj (Option.some.inj (hsome.symm.trans hnoted))
    rfl

/-- What CHECK_JOURNAL leaves where nothing refuses it, up to the service of the run it asks for. -/
theorem checkJournal_asked {t u : State} (hstate : t.day.state ≠ .recovering) (hpresent : t.journal.present = true)
    (hview : view u = view (commandCheckJournal t)) :
    u.control.journalCheck = some (t.journal.next - 1, t.journal.chain) ∧
      (∃ r ∈ u.journal.runs, r.requester = .check ∧ r.next = 1 ∧ r.last = some (t.journal.next - 1)) ∧
      journalWrites u.path = journalWrites (complete t .inProgress 0).path ∧ u.totals = t.totals ∧
      u.journal.next = t.journal.next ∧ u.journal.free = t.journal.free := by
  let v : State := { t with control := { t.control with
    journalCheck := some (t.journal.next - 1, t.journal.chain) } }
  let run : Run :=
    ⟨.check, 1, some (t.journal.next - 1), some 0xFFFFFFFF, journalUnitFree (complete v .inProgress 0)⟩
  have hasked : view u = view { complete v .inProgress 0 with
      journal := { t.journal with runs := t.journal.runs ++ [run] } } :=
    hview.trans ((congrArg view (commandCheckJournal_taken hstate hpresent)).trans (view_serveRuns _))
  have hbooks := books_of_view hasked
  have hcheck : u.control.journalCheck = (complete v .inProgress 0).control.journalCheck :=
    congrArg (·.control.journalCheck) hbooks
  have hruns : u.journal.runs.map (fun r => { r with chain := none }) =
      (t.journal.runs ++ [run]).map fun r => { r with chain := none } := congrArg (·.journal.runs) hbooks
  have hmem : { run with chain := none } ∈ u.journal.runs.map (fun r => { r with chain := none }) := by
    rw [hruns]
    exact List.mem_map_of_mem (List.mem_append_right _ (List.mem_singleton_self _))
  obtain ⟨r, hr, hsame⟩ := List.mem_map.mp hmem
  exact ⟨hcheck.trans (complete_journalCheck v _ _),
    ⟨r, hr, congrArg Run.requester hsame, congrArg Run.next hsame, congrArg Run.last hsame⟩,
    (congrArg Prod.snd hasked).trans ((journalWrites_complete v _ _).trans (journalWrites_complete t _ _).symm),
    congrArg (·.totals) hbooks, congrArg (·.journal.next) hbooks, congrArg (·.journal.free) hbooks⟩

theorem checkJournalBeginsARun : Claims.CheckJournalBeginsARun := by
  intro s addr mask data h t
  refine ⟨fun hrefused => gives_command h (exec_checkJournal s) (if_pos hrefused), fun hstate hpresent => ?_⟩
  obtain ⟨u, hu, hview, -⟩ := exec_fetchSide h.1.1 (exec_checkJournal s) (grantCommand_eq h)
  exact ⟨u, hu, checkJournal_asked (t := t) hstate hpresent hview⟩

theorem journalRunVerifiesOrBreaks : Claims.JournalRunVerifiesOrBreaks := by
  intro s r last hr hruns hrequester _ hlast hserving hbuffer e
  have hserves : s.journal.serving = some r.requester := hrequester ▸ hserving
  refine ⟨fun hnumber hchain hless => ?verified, fun hbroken => ?broken⟩
  case verified =>
    have hends : runEnds s r = false := by simp [runEnds, hlast, Nat.ne_of_lt hless]
    have hbody : takeRunEntry s = passTurn (runMovedOn s r e) := by
      rw [takeRunEntry_verifies hruns hserves hbuffer (entryVerifies_iff.mpr ⟨hnumber, hchain⟩), hends, handEntry,
        hrequester]
      rfl
    have hchained : AllChained (passTurn (runMovedOn s r e)).journal := by
      rw [AllChained, passTurn_runs]
      simp [runMovedOn, runMoved]
    refine ⟨conclude s (passTurn (runMovedOn s r e)), ?_, ?_, ?_⟩
    · rw [exec_journalRunEntry, running, if_neg (by simp [hr]), hbody]
    · rw [conclude_runs s hchained, passTurn_runs]
      rfl
    · have hview := (view_conclude s (passTurn (runMovedOn s r e))).trans (view_passTurn _)
      have hbooks := books_of_view hview
      exact ⟨congrArg (·.totals) hbooks, congrArg (·.monitors) hbooks, congrArg (·.control.alerts) hbooks,
        congrArg Prod.snd hview⟩
  case broken =>
    have hbreaks : ¬entryVerifies r (entryRead s) = true := by
      rw [entryVerifies_iff]
      rintro ⟨hnumber, hchain⟩
      exact hbroken.elim (· hnumber) (· hchain)
    obtain ⟨j, f, hended⟩ := endRun_broken hruns hserves
    let x : State := raiseAlert { runEnded s with control := { s.control with journalCheck := none } } .journalDamaged
    have hbody : takeRunEntry s = shifted (complete x .failed r.next) j f := by
      rw [takeRunEntry_breaks hruns hserves hbuffer hbreaks, ← complete_shifted, tellBreak, hrequester]
      rw [hrequester] at hended
      simp only [hended]
      rfl
    have hview : view (conclude s (takeRunEntry s)) = view (complete x .failed r.next) := by
      rw [view_conclude, hbody, view_shifted]
    have hbooks := books_of_view hview
    have halerts : _ = (complete x .failed r.next).control.alerts := congrArg (·.control.alerts) hbooks
    have hcheck : _ = (complete x .failed r.next).control.journalCheck := congrArg (·.control.journalCheck) hbooks
    refine ⟨conclude s (takeRunEntry s), by rw [exec_journalRunEntry, running, if_neg (by simp [hr])], ?_,
      halerts.trans (complete_alerts x _ _), hcheck.trans (complete_journalCheck x _ _), ?_⟩
    · exact List.map_eq_nil_iff.mp (congrArg (·.journal.runs) hbooks)
    · exact (congrArg Prod.snd hview).trans (journalWrites_complete x _ _)

theorem journalCheckEndsAtItsLastEntry : Claims.JournalCheckEndsAtItsLastEntry := by
  intro s r last noted hr hruns hrequester _ hlast hnext hserving hbuffer hnoted e ended hnumber hchain
  have hserves : s.journal.serving = some r.requester := hrequester ▸ hserving
  have hends : runEnds s r = true := by simp [runEnds, hlast, hnext]
  obtain ⟨j, f, hended⟩ := endRun_runMovedOn hserves e
  have hbody : takeRunEntry s = passTurn (endJournalCheck (shifted (runEnded s) j f) (entryChain e)) := by
    rw [hrequester] at hended
    rw [takeRunEntry_verifies hruns hserves hbuffer (entryVerifies_iff.mpr ⟨hnumber.trans hnext.symm, hchain⟩),
      hends, handEntry, hrequester, ← hended]
    rfl
  have hcheck := endJournalCheck_noted (x := shifted (runEnded s) j f) (chain := entryChain e) hnoted
  refine ⟨fun hsame => gives_of_running hr (exec_journalRunEntry s) ?_,
    fun hother => gives_of_running hr (exec_journalRunEntry s) ?_⟩
  · rw [hbody, view_passTurn, hcheck.trans (if_pos hsame)]
    exact (congrArg view (complete_shifted ended .done last j f)).trans (view_shifted _ j f)
  · rw [hbody, view_passTurn, hcheck.trans (if_neg hother)]
    exact (congrArg view (complete_shifted (raiseAlert ended .journalDamaged) .failed last j f)).trans
      (view_shifted _ j f)

/-- Settles O34. -/
theorem journalRunsVerifyOrBreak : Obligations.JournalRunsVerifyOrBreak :=
  ⟨checkJournalBeginsARun, journalRunVerifiesOrBreaks, journalCheckEndsAtItsLastEntry⟩

end Sys2Proof.Machine
end

