-- ==== Sys2Proof/Proofs/Commands.lean ====
section
/-! SUPPORT. The tick and the cut-off, the completions, and the commands that act at once (R89, R102, R103, R163 to
R165, R172, R192, R193, R202). -/

namespace Sys2Proof.Machine

/-! ### What the entries leave -/

section

variable {s : State} {f : EntryFields}

/-- The placing of the Journal Unit's own group tells Day Control nothing. -/
theorem handGroup_entry_day (s : State) (writes : List (Nat × Dword)) :
    (handGroup s ⟨.journal, writes⟩).day = s.day := ite_self _

theorem writeEntry_day (lowers : Bool) : (writeEntry s f lowers).day = s.day := handGroup_entry_day _ _

theorem writeEntry_config (lowers : Bool) : (writeEntry s f lowers).control.config = s.control.config :=
  congrArg (·.config) (handGroup_entry_control _ _)

theorem dayControlEntry_day : (dayControlEntry s f).day = s.day := by
  unfold dayControlEntry
  split
  · rfl
  · split
    · exact writeEntry_day _
    · rfl

theorem dayControlEntry_config : (dayControlEntry s f).control.config = s.control.config := by
  unfold dayControlEntry
  split
  · rfl
  · split
    · exact writeEntry_config _
    · rfl

theorem dayControlEntry_configuration : (dayControlEntry s f).configuration = s.configuration :=
  congrArg (·.getD noConfiguration) dayControlEntry_config

end

/-! ### The cut-off (R165, R172) -/

/-- Every active holder is balanced and no marked entry is queued (R172). -/
def ReadyToSend (s : State) : Prop :=
  (∀ h : Fin 17, s.configuration.holderActive h = true → s.totals.flags[h].balanced = true) ∧
    ∀ x ∈ s.posting.queue, x.marked = false

theorem readyToSend_iff {s : State} :
    ReadyToSend s ↔ allBalanced s.configuration s.totals = true ∧ (s.posting.queue.any (·.marked)) = false := by
  refine and_congr ?_ (by simp)
  simp only [allBalanced, List.all_eq_true, List.mem_finRange, true_imp_iff, Bool.or_eq_true, Bool.not_eq_true']
  refine forall_congr' fun h => ?_
  cases s.configuration.holderActive h <;> simp

/-- The readiness looks at the configuration, the Totals Store and the queue alone. -/
theorem readyToSend_congr {s t : State} (hconfiguration : s.configuration = t.configuration)
    (htotals : s.totals = t.totals) (hposting : s.posting = t.posting) : ReadyToSend s ↔ ReadyToSend t := by
  rw [ReadyToSend, ReadyToSend, hconfiguration, htotals, hposting]

theorem testSending_of_not_ready {s : State} (h : ¬ReadyToSend s) : testSending s = s :=
  if_neg fun ⟨_, hbalanced, hmarked⟩ => h (readyToSend_iff.mpr ⟨hbalanced, hmarked⟩)

theorem composeBlock_day (s : State) (b : Batch) (p : Plan) (n : Nat) : (composeBlock s b p n).day = s.day := by
  cases hcontent : blockContent s p n with
  | payload kind bytes =>
    rw [composeBlock_payload s b p n kind bytes hcontent]
    rfl
  | entries a e =>
    rw [composeBlock_entries s b p n a e hcontent]
    obtain ⟨j, f, h⟩ := serveRuns_shifted _
    rw [h]
    rfl

/-- A CLOSING day that is ready passes on to SENDING. -/
theorem testSending_of_ready {s : State} (hstate : s.day.state = .closing) (h : ReadyToSend s) :
    (testSending s).day.state = .sending := by
  rw [testSending, if_pos ⟨hstate, readyToSend_iff.mp h⟩, dayControlEntry_day]
  exact congrArg (·.state) (composeBlock_day _ _ _ _)

/-- The state at the cut-off, with DAY_CUTOFF handed over (R165). -/
def cutState (s : State) (code tag : Nat) : State :=
  dayControlEntry (setDayState s .closing) { kind := 15, code := code, tag := tag }

section

variable {s : State} {code tag : Nat}

theorem readyToSend_cutState : ReadyToSend (cutState s code tag) ↔ ReadyToSend s :=
  readyToSend_congr dayControlEntry_configuration (dayControlEntry_totals _ _) (dayControlEntry_posting _ _)

theorem cutOff_of_not_ready (h : ¬ReadyToSend s) : cutOff s code tag = cutState s code tag :=
  testSending_of_not_ready fun hready => h (readyToSend_cutState.mp hready)

theorem cutOff_sends (h : ReadyToSend s) : (testSending (cutState s code tag)).day.state = .sending :=
  testSending_of_ready (congrArg (·.state) dayControlEntry_day) (readyToSend_cutState.mpr h)

end

/-! ### The tick (R163, R165) -/

theorem clockAfter_eq (clock : Nat) : clockAfter clock = if clock = 172799 then 0 else clock + 1 := by
  simp only [clockAfter, show clock + 1 = 172800 ↔ clock = 172799 by omega]

theorem compareFires_iff {s : State} {clock : Nat} :
    compareFires s clock = true ↔
      s.day.state = .opened ∧ s.configuration.autoCutoff = 1 ∧ clock = s.configuration.cutoff := by
  simp [compareFires, and_assoc]

theorem tickAdvancesTheClock_claim : Claims.TickAdvancesTheClock := by
  intro s hr _ clock hno
  refine gives_conclude hr (exec_tick s) ?_
  have hquiet : ¬compareFires s (clockAfter s.day.clock) = true := by
    rw [compareFires_iff, clockAfter_eq]
    exact hno
  rw [takeTick, if_neg hquiet, clockAfter_eq]

theorem cutOffComparesAtTheTick : Claims.CutOffComparesAtTheTick := by
  intro s hr hopen _ clock hauto hcutoff cut ready
  have hfires : compareFires s (clockAfter s.day.clock) = true := by
    rw [compareFires_iff, clockAfter_eq]
    exact ⟨hopen, hauto, hcutoff.symm⟩
  let ticked : State := { s with day := { s.day with clock := clock } }
  have hbody : takeTick s = cutOff ticked 2 0 := by
    rw [takeTick, if_pos hfires, clockAfter_eq]
  exact ⟨fun h => gives_conclude hr (exec_tick s) (hbody.trans (cutOff_of_not_ready (s := ticked) h)),
    fun h => ⟨gives_conclude hr (exec_tick s) hbody, cutOff_sends (s := ticked) h⟩⟩

/-- Settles O35. -/
theorem tickAdvancesTheClock : Obligations.TickAdvancesTheClock :=
  ⟨tickAdvancesTheClock_claim, cutOffComparesAtTheTick⟩

/-! ### CLOSE_DAY and SET_TIME (R164, R165) -/

theorem closeDayCutsOff : Claims.CloseDayCutsOff := by
  intro s addr mask data hcommand t cut ready
  have hready : ReadyToSend t ↔ ready :=
    readyToSend_congr (configuration_commandTaken s addr mask data) rfl rfl
  refine ⟨fun hopen h => ?_, fun hopen h => ⟨?_, cutOff_sends (hready.mpr h)⟩, fun hclosed => ?_⟩
  · refine gives_command hcommand (exec_closeDay s) ((if_pos hopen).trans ?_)
    exact congrArg (complete · .done 0) (cutOff_of_not_ready fun hr => h (hready.mp hr))
  · exact gives_command hcommand (exec_closeDay s) (if_pos hopen)
  · exact gives_command hcommand (exec_closeDay s) (if_neg hclosed)

theorem setTimeSetsTheClock : Claims.SetTimeSetsTheClock := by
  intro s addr mask data hcommand t time
  have htime : laneField (argument t 0) 0 4 = time :=
    congrArg (laneField · 0 4) (argument_commandTaken s addr mask data 0)
  refine ⟨fun hstate => gives_command hcommand (exec_setTime s) (if_pos hstate),
    fun hstate hlate => gives_command hcommand (exec_setTime s) ((if_neg hstate).trans (if_pos (htime ▸ hlate))),
    fun hstate hintime => gives_command hcommand (exec_setTime s)
      ((if_neg hstate).trans ((if_neg (by rw [htime]; omega)).trans (by rw [htime])))⟩

/-- Settles O36. -/
theorem clockAndCutOffCommands : Obligations.ClockAndCutOffCommands :=
  ⟨closeDayCutsOff, setTimeSetsTheClock⟩

/-! ### Completions (R192, R193, 13.4) -/

/-- The fields of a completion's doubleword that fit are read back (13.4). -/
theorem completionDword_toNat {tag detail : Nat} (status : Status) (htag : tag < 0x10000)
    (hdetail : detail < 0x100000000) :
    (completionDword tag status detail).toNat = tag + 0x10000 * status.code + 0x100000000 * detail := by
  have hcode : status.code < 256 := by cases status <;> decide
  rw [completionDword, dwordOfFields_toNat _ (by simp)]
  simp only [List.flatMap_cons, List.flatMap_nil, leNat_append, leNat_leBytes, List.append_nil, leBytes_length]
  omega

theorem completionIsOneDoubleword_claim : Claims.CompletionIsOneDoubleword := by
  intro s status detail k htaken htag hdetail
  have hdword := completionDword_toNat status htag hdetail
  have hcode : status.code < 256 := by cases status <;> decide
  refine ⟨completionDword k.tag status detail, ?_, ?_, ?_, ?_, ?_, fun hprogress => ?_,
    fun hfinal hwaiting hroom => ?_⟩
  · rw [journalWrites_complete, htaken]
    rfl
  · rw [laneField, hdword]; omega
  · rw [laneField, hdword]; omega
  · rw [laneField, hdword]; omega
  · rw [laneField, hdword]; omega
  · subst hprogress
    exact ite_self _
  · have hplaced : (complete s status detail).control =
        controlPlaced s.control (.completion (status != .inProgress)) :=
      if_pos (by simp [groupFits, hwaiting, freeRoom]; omega)
    have hends : (status != .inProgress) = true := by simpa using hfinal
    rw [hplaced, hends]
    rfl

theorem runCommand_unknown {code : Nat} (hcode : code = 0 ∨ 17 < code) (s : State) :
    runCommand s code = complete s .badArgument 0 := by
  rcases hcode with rfl | hcode
  · rfl
  · obtain ⟨n, rfl⟩ := Nat.exists_eq_add_of_le' hcode
    rfl

theorem unknownCodeIsBadArgument : Claims.UnknownCodeIsBadArgument := by
  intro s addr mask data code h hcode
  refine gives_conclude h.1.1 (exec_badCommandCode s) ?_
  obtain ⟨hgranted, hregion, hpasses, hlanes, hcodes⟩ := h
  have hbusy : s.control.busy = false := by
    have hpass : regionPasses s .command = true := by
      simp only [writePasses, hregion, Bool.and_eq_true] at hpasses
      exact hpasses.2
    simpa [regionPasses] using hpass
  have hunknown : rowIsCommand s (fun k => k == 0 || decide (17 < k)) (regionAt s addr) mask data = true := by
    simpa [rowIsCommand, hregion, hlanes, hbusy, hcodes] using hcode
  have hknown : rowIsCommand s (fun k => k == code) (regionAt s addr) mask data = true := by
    simp [rowIsCommand, hregion, hlanes, hbusy, hcodes]
  calc grantWriteWhen s (rowIsCommand s fun k => k == 0 || decide (17 < k))
      = takeWrite s addr mask data := grantWriteWhen_eq hgranted hunknown
    _ = grantCommand s code := (grantWriteWhen_eq hgranted hknown).symm
    _ = runCommand (commandTaken s addr mask data) code :=
        grantCommand_eq ⟨hgranted, hregion, hpasses, hlanes, hcodes⟩
    _ = complete (commandTaken s addr mask data) .badArgument 0 := runCommand_unknown hcode _

theorem commandWordHoldsCodeAndTag : Claims.CommandWordHoldsCodeAndTag := by
  intro d
  constructor
  · simp [commandCode, laneField]
  · simp [commandTag, laneField]

/-- Settles O37. -/
theorem completionIsOneDoubleword : Obligations.CompletionIsOneDoubleword :=
  ⟨completionIsOneDoubleword_claim, unknownCodeIsBadArgument, commandWordHoldsCodeAndTag⟩

/-! ### The commands of a holder and of a monitor (R89, R102, R103) -/

section

variable {u : State}

/-- What refuses a command marked "config" (12.1, R197). -/
theorem unconfigured_iff : unconfigured u = true ↔ u.day.state = .recovering ∨ u.control.config = none := by
  simp [unconfigured, or_comm]

theorem argumentHolder_eq_some {h : Fin 17} (hnumber : argumentByte u = h.val)
    (hactive : u.configuration.holderActive h = true) : argumentHolder u = some h := by
  rw [argumentHolder, hnumber, indexOf_val]
  exact Option.filter_some_pos hactive

/-- No active holder has a number above 16 or an inactive holder's. -/
theorem argumentHolder_eq_none
    (hno : 16 < argumentByte u ∨ ∃ h : Fin 17, argumentByte u = h.val ∧ u.configuration.holderActive h = false) :
    argumentHolder u = none := by
  rw [argumentHolder]
  rcases hno with hhigh | ⟨h, hnumber, hinactive⟩
  · rw [indexOf_eq_none.mpr (by omega)]
    rfl
  · rw [hnumber, indexOf_val]
    exact Option.filter_some_neg (by simp [hinactive])

theorem commandReleaseDrawer_taken {h : Fin 17} (hconfigured : ¬unconfigured u = true)
    (hholder : argumentHolder u = some h) :
    commandReleaseDrawer u =
      let d : Drawer := { releasedDrawer u.configuration u.drawers[h] with forced := false }
      complete (drawerEvent (setDrawer u h d) h 5 (takenTag u)) .done d.state.code := by
  rw [commandReleaseDrawer, if_neg hconfigured]
  split
  · next hnone => simp [hnone] at hholder
  · next g hsome =>
    obtain rfl := Option.some.inj (hsome.symm.trans hholder)
    rfl

theorem commandReleaseDrawer_none (hconfigured : ¬unconfigured u = true) (hnone : argumentHolder u = none) :
    commandReleaseDrawer u = complete u .badArgument 0 := by
  rw [commandReleaseDrawer, if_neg hconfigured]
  split
  · rfl
  · next g hsome => simp [hnone] at hsome

theorem commandReleaseHold_none (hconfigured : ¬unconfigured u = true) (hnone : argumentHolder u = none) :
    commandReleaseHold u = complete u .badArgument 0 := by
  rw [commandReleaseHold, if_neg hconfigured]
  split
  · rfl
  · next g hsome => simp [hnone] at hsome

theorem commandReleaseHold_taken {h : Fin 17} (hconfigured : ¬unconfigured u = true)
    (hholder : argumentHolder u = some h) :
    commandReleaseHold u =
      complete
        (eventEntry { u with totals := setFlags u.totals h { u.totals.flags[h] with held := false } }
          { kind := 11, code := bit u.totals.flags[h].held, holderA := h.val, tag := takenTag u, ref := h.val })
        .done (bit u.totals.flags[h].held) := by
  rw [commandReleaseHold, if_neg hconfigured]
  split
  · next hnone => simp [hnone] at hholder
  · next g hsome =>
    obtain rfl := Option.some.inj (hsome.symm.trans hholder)
    rfl

theorem commandClearMonitor_none (hconfigured : ¬unconfigured u = true) (hnumber : 7 < argumentByte u) :
    commandClearMonitor u = complete u .badArgument 0 := by
  rw [commandClearMonitor, if_neg hconfigured]
  split
  · rfl
  · next g hsome => simp [indexOf_eq_none.mpr (show 8 ≤ argumentByte u by omega)] at hsome

theorem commandClearMonitor_number {m : Fin 8} (hconfigured : ¬unconfigured u = true)
    (hnumber : argumentByte u = m.val) :
    commandClearMonitor u =
      if u.monitors.freeze.isSome && u.monitors.freeze != some m then complete u .refusedState 0
      else
        complete
          (eventEntry { u with monitors := clearedMonitor u.configuration u.monitors m }
            { kind := 10, code := bit u.monitors.fired[m], tag := takenTag u, amountA := u.monitors.counts[m].toNat,
              ref := m.val })
          .done (bit u.monitors.fired[m]) := by
  rw [commandClearMonitor, if_neg hconfigured]
  split
  · next hnone =>
    rw [hnumber, indexOf_val] at hnone
    cases hnone
  · next g hsome =>
    obtain rfl : m = g := Option.some.inj ((indexOf_val m).symm.trans (hnumber ▸ hsome))
    rfl

end

/-- A release leaves RELEASED, code 1, or OPEN, code 2. -/
theorem releasedDrawer_code (c : Configuration) (d : Drawer) :
    (releasedDrawer c d).state.code = if d.state = .locked ∨ d.state = .released then 1 else 2 := by
  cases hstate : d.state <;> simp [releasedDrawer, hstate, DrawerState.code]

/-- The low byte of the first argument, as the command is taken. -/
theorem argumentByte_commandTaken (s : State) (addr : Nat) (mask : ByteMask) (data : Dword) :
    argumentByte (commandTaken s addr mask data) = laneField s.control.arguments[0] 0 1 :=
  congrArg (laneField · 0 1) (argument_commandTaken s addr mask data 0)

theorem unconfigured_commandTaken (s : State) (addr : Nat) (mask : ByteMask) (data : Dword) :
    unconfigured (commandTaken s addr mask data) = true ↔ s.day.state = .recovering ∨ s.control.config = none := by
  rw [unconfigured_iff, config_commandTaken]
  rfl

/-- The active holder a taken command names. -/
theorem argumentHolder_commandTaken {s : State} {addr : Nat} {mask : ByteMask} {data : Dword} {h : Fin 17}
    (hnumber : laneField s.control.arguments[0] 0 1 = h.val) (hactive : s.configuration.holderActive h = true) :
    argumentHolder (commandTaken s addr mask data) = some h :=
  argumentHolder_eq_some ((argumentByte_commandTaken s addr mask data).trans hnumber)
    (by rwa [configuration_commandTaken])

theorem releaseDrawerReleases : Claims.ReleaseDrawerReleases := by
  intro s addr mask data h hcommand hconfig hstate hnumber hactive t d
  have hconfigured : ¬unconfigured t = true := by
    rw [unconfigured_commandTaken]
    rintro (hrecovering | hnone)
    · exact hstate hrecovering
    · simp [hnone] at hconfig
  have hbody := commandReleaseDrawer_taken hconfigured (argumentHolder_commandTaken hnumber hactive)
  rw [configuration_commandTaken] at hbody
  refine gives_command hcommand (exec_releaseDrawer s) (hbody.trans ?_)
  exact congrArg (complete _ .done) (releasedDrawer_code s.configuration s.drawers[h])

theorem releaseHoldClearsTheHold : Claims.ReleaseHoldClearsTheHold := by
  intro s addr mask data h hcommand hconfig hstate hnumber hactive t was
  have hconfigured : ¬unconfigured t = true := by
    rw [unconfigured_commandTaken]
    rintro (hrecovering | hnone)
    · exact hstate hrecovering
    · simp [hnone] at hconfig
  exact gives_command hcommand (exec_releaseHold s)
    (commandReleaseHold_taken hconfigured (argumentHolder_commandTaken hnumber hactive))

theorem holderCommandsAreRefused : Claims.HolderCommandsAreRefused := by
  intro s addr mask data c code hc hcommand t n
  have hrefused : unconfigured t = true ↔ _ := unconfigured_commandTaken s addr mask data
  have hnone (hno : 16 < n ∨ ∃ h : Fin 17, n = h.val ∧ s.configuration.holderActive h = false) :
      argumentHolder t = none := by
    refine argumentHolder_eq_none ?_
    rw [argumentByte_commandTaken, configuration_commandTaken]
    exact hno
  have hconfigured (hstate : s.day.state ≠ .recovering) (hconfig : s.control.config ≠ none) :
      ¬unconfigured t = true := fun h => (hrefused.mp h).elim hstate hconfig
  obtain ⟨rfl, rfl⟩ | ⟨rfl, rfl⟩ := hc
  · exact ⟨fun h => gives_command hcommand (exec_releaseDrawer s) (if_pos (hrefused.mpr h)),
      fun hstate hconfig hno => gives_command hcommand (exec_releaseDrawer s)
        (commandReleaseDrawer_none (hconfigured hstate hconfig) (hnone hno))⟩
  · exact ⟨fun h => gives_command hcommand (exec_releaseHold s) (if_pos (hrefused.mpr h)),
      fun hstate hconfig hno => gives_command hcommand (exec_releaseHold s)
        (commandReleaseHold_none (hconfigured hstate hconfig) (hnone hno))⟩

/-- Settles O38. -/
theorem holderCommandsActOnTheHolder : Obligations.HolderCommandsActOnTheHolder :=
  ⟨releaseDrawerReleases, releaseHoldClearsTheHold, holderCommandsAreRefused⟩

/-- Settles O39: the freeze decides, where nothing refuses the command. -/
theorem clearMonitorLoadsThePreset : Obligations.ClearMonitorLoadsThePreset := by
  intro s addr mask data hcommand t number
  have hrefused : unconfigured t = true ↔ _ := unconfigured_commandTaken s addr mask data
  have hconfigured (hstate : s.day.state ≠ .recovering) (hconfig : s.control.config ≠ none) :
      ¬unconfigured t = true := fun h => (hrefused.mp h).elim hstate hconfig
  have hargument : argumentByte t = number := argumentByte_commandTaken s addr mask data
  refine ⟨fun m hconfig hstate hnumber => ?number,
    fun h => gives_command hcommand (exec_clearMonitor s) (if_pos (hrefused.mpr h)),
    fun hstate hconfig hhigh => gives_command hcommand (exec_clearMonitor s)
      (commandClearMonitor_none (hconfigured hstate hconfig) (hargument.symm ▸ hhigh))⟩
  intro fired
  have hbody := commandClearMonitor_number (hconfigured hstate hconfig) (hargument.trans hnumber)
  rw [configuration_commandTaken] at hbody
  refine ⟨fun hfree => gives_command hcommand (exec_clearMonitor s) (hbody.trans ((if_neg ?_).trans ?_)),
    fun n hfreeze hother => gives_command hcommand (exec_clearMonitor s) (hbody.trans (if_pos ?_))⟩
  · change ¬(s.monitors.freeze.isSome && s.monitors.freeze != some m) = true
    rcases hfree with hfree | hfree <;> simp [hfree]
  · have hlifted : (if s.monitors.freeze = some m then none else s.monitors.freeze) = none := by
      rcases hfree with hfree | hfree <;> simp [hfree]
    have hcleared : clearedMonitor s.configuration s.monitors m =
        { counts := s.monitors.counts.set m (BitVec.ofNat 32 s.configuration.monitors[m].preset),
          fired := s.monitors.fired.set m false, freeze := none } := by
      rw [clearedMonitor, hlifted]
    rw [← hcleared]
    rfl
  · change (s.monitors.freeze.isSome && s.monitors.freeze != some m) = true
    simp [hfreeze, hother]

theorem commandClearAlerts_mask {u : State} {alerts : BitVec 16}
    (hmask : BitVec.ofNat 16 (laneField (argument u 0) 0 2) = alerts) :
    commandClearAlerts u = if 0x800 ≤ alerts.toNat then complete u .badArgument 0 else
      complete { u with control := { u.control with alerts := u.control.alerts &&& ~~~alerts } } .done
        (u.control.alerts &&& alerts).toNat := by
  rw [commandClearAlerts, hmask]

/-- A command is taken with the alerts standing. -/
theorem alerts_commandTaken (s : State) (addr : Nat) (mask : ByteMask) (data : Dword) :
    (commandTaken s addr mask data).control.alerts = s.control.alerts := by
  simp only [commandTaken]

/-- Settles O40. -/
theorem clearAlertsRemovesTheMasked : Obligations.ClearAlertsRemovesTheMasked := by
  intro s addr mask data hcommand t alerts
  have hmask : BitVec.ofNat 16 (laneField (argument t 0) 0 2) = alerts := by
    rw [argument_commandTaken]
    exact ofNat_laneField_low _
  have hbody := commandClearAlerts_mask hmask
  rw [alerts_commandTaken] at hbody
  exact ⟨fun hunknown => gives_command hcommand (exec_clearAlerts s) (hbody.trans (if_pos hunknown)),
    fun hknown => gives_command hcommand (exec_clearAlerts s) (hbody.trans (if_neg (Nat.not_le.mpr hknown)))⟩

end Sys2Proof.Machine
end

