-- ==== Sys2Proof/Proofs/Examinations.lean ====
section
/-! SUPPORT. CHECK_TOTALS and its tests, FORCE_BALANCE, and the move to SENDING (R70, R72, R73, R171, R172, R179,
R201). -/

namespace Sys2Proof.Machine

/-! ### CHECK_TOTALS (R70, R72, R73) -/

theorem commandCheckTotals_eq (u : State) :
    let failing := (examinedRecords u.configuration).filter (failsExamination u.configuration u.totals)
    commandCheckTotals u =
      if failing = [] then complete u .done 0
      else complete (raiseAlert { u with totals := markFaulty u.totals failing } .totalsFault) .done
        failing.length := by
  intro failing
  have hbody : commandCheckTotals u = complete
      (raiseAlertIf { u with totals := markFaulty u.totals failing } (!failing.isEmpty) .totalsFault) .done
      failing.length := rfl
  rw [hbody, raiseAlertIf_eq]
  cases failing with
  | nil => rfl
  | cons => rfl

theorem checkTotalsMarksTheFailing_claim : Claims.CheckTotalsMarksTheFailing := by
  intro s addr mask data hcommand t failing
  have hbody := commandCheckTotals_eq t
  rw [configuration_commandTaken] at hbody
  exact ⟨fun hnone => gives_command hcommand (exec_checkTotals s) (hbody.trans (if_pos hnone)),
    fun hsome => gives_command hcommand (exec_checkTotals s) (hbody.trans (if_neg hsome))⟩

theorem attentionFollowsTheAlerts : Claims.AttentionFollowsTheAlerts := by
  intro s
  refine ⟨by simp [State.attention], fun a b => ?_⟩
  exact alertIn_addAlert s.control.alerts a b

/-- A currency that is not configured has no faces (R62). -/
theorem faces_eq (c : Configuration) (k : Fin 4) :
    c.faces k = if c.currencies[k].configured = 1 then c.currencies[k].faces.take c.currencies[k].denominations
      else [] := by
  simp only [Configuration.faces, Configuration.denominations, Configuration.hasCurrency, beq_iff_eq]
  split <;> simp

theorem recordVerifies_iff (r : HolderRecord) :
    recordVerifies r = true ↔
      r.faulty = false ∧ r.check = crc16 (r.counts.flatMap (leBytes 2) ++ leBytes 8 r.balance) := by
  simp only [recordVerifies, checkWord, bytes16, Bool.and_eq_true, Bool.not_eq_true', beq_iff_eq]
  exact and_congr_right' eq_comm

theorem examinationTestsMarkWordAndSum : Claims.ExaminationTestsMarkWordAndSum := by
  intro c t h k named r word faces
  refine ⟨?_, recordVerifies_iff r, recordOf_markFaulty t named h k, markFaulty_rest t named⟩
  have hsum : breakdownSum (c.faces k) r.counts = (List.zipWith (· * ·) r.counts faces).sum := by
    rw [breakdownSum, faces_eq]
  have hverifies : ¬recordVerifies r = true ↔ r.faulty = true ∨ r.check ≠ word := by
    rw [recordVerifies_iff, not_and_or, Bool.not_eq_false]
  calc failsExamination c t (h, k) = true
      ↔ ¬recordVerifies r = true ∨ r.balance ≠ breakdownSum (c.faces k) r.counts := by
        simp [failsExamination, r]
    _ ↔ r.faulty = true ∨ r.check ≠ word ∨ r.balance ≠ (List.zipWith (· * ·) r.counts faces).sum := by
        rw [hverifies, hsum, or_assoc]

/-- A byte's step is eight shifts of the register with the byte in its upper lane (R70). -/
theorem crc16Byte_eq (r b : Nat) : crc16Byte r b = crc16Shift^[8] (r ^^^ (b * 256)) := by
  simp only [crc16Byte, Function.iterate_succ_apply, Function.iterate_zero, id]

theorem checkWordIsAShiftRegister : Claims.CheckWordIsAShiftRegister := by
  refine ⟨by decide, fun bytes b => ?_⟩
  generalize hshift : (fun r : BitVec 16 => if r.msb = true then (r <<< 1) ^^^ 0x1021 else r <<< 1) = shift
  have hrun : ∀ r < 2 ^ 16, ∀ x < 256, crc16Byte r x < 2 ^ 16 := fun r hr x hx =>
    crc16Byte_eq r x ▸ iterate_lt crc16Shift_lt 8 _ (Nat.xor_lt_two_pow hr (by omega))
  generalize hr : crcFeed crc16Byte bytes 0xFFFF = r
  have hlt : r < 2 ^ 16 := hr ▸ crcFeed_lt hrun bytes _ (by norm_num)
  have hb := b.isLt
  have hstep : BitVec.ofNat 16 (crc16Byte r b.toNat) = shift^[8] (BitVec.ofNat 16 (r ^^^ (b.toNat * 256))) := by
    rw [crc16Byte_eq, ← hshift]
    exact iterate_of crc16Shift_lt crc16Shift_ofNat 8 _ (Nat.xor_lt_two_pow hlt (by omega))
  have hxor : BitVec.ofNat 16 (r ^^^ (b.toNat * 256)) = BitVec.ofNat 16 r ^^^ (b.setWidth 16 <<< 8) := by
    apply BitVec.eq_of_toNat_eq
    simp only [BitVec.toNat_ofNat, BitVec.toNat_xor, BitVec.toNat_setWidth, BitVec.toNat_shiftLeft, Nat.shiftLeft_eq]
    rw [Nat.mod_eq_of_lt hlt, Nat.mod_eq_of_lt (show b.toNat < 2 ^ 16 by omega),
      Nat.mod_eq_of_lt (show b.toNat * 2 ^ 8 < 2 ^ 16 by omega)]
    exact Nat.mod_eq_of_lt (Nat.xor_lt_two_pow hlt (by omega))
  rw [crc16, crc16, crcFeed_append, hr, hstep, hxor]

/-- Settles O41. -/
theorem checkTotalsMarksTheFailing : Obligations.CheckTotalsMarksTheFailing :=
  ⟨checkTotalsMarksTheFailing_claim, attentionFollowsTheAlerts, examinationTestsMarkWordAndSum,
    checkWordIsAShiftRegister⟩

/-! ### FORCE_BALANCE (R171) -/

theorem eventEntry_day (s : State) (f : EntryFields) : (eventEntry s f).day = s.day := by
  rw [eventEntry_cases]
  split
  · split
    · exact writeEntry_day _
    · rfl
  · rfl

theorem testSending_of_not_closing {s : State} (h : s.day.state ≠ .closing) : testSending s = s :=
  if_neg fun hclosing => h hclosing.1

theorem commandForceBalance_taken {u : State} {h : Fin 17} (hbegun : u.day.state = .opened ∨ u.day.state = .closing)
    (hholder : argumentHolder u = some h) :
    commandForceBalance u =
      if u.totals.flags[h].balanced then complete u .done 0
      else complete (testSending (eventEntry
        { u with totals := setFlags u.totals h { u.totals.flags[h] with balanced := true, forced := true } }
        { kind := 12, holderA := h.val, tag := takenTag u, ref := h.val })) .done 1 := by
  rw [commandForceBalance, if_neg (by rcases hbegun with hday | hday <;> simp [hday])]
  split
  · next hnone => simp [hnone] at hholder
  · next g hsome =>
    obtain rfl := Option.some.inj (hsome.symm.trans hholder)
    rfl

theorem commandForceBalance_none {u : State} (hbegun : u.day.state = .opened ∨ u.day.state = .closing)
    (hnone : argumentHolder u = none) : commandForceBalance u = complete u .badArgument 0 := by
  rw [commandForceBalance, if_neg (by rcases hbegun with hday | hday <;> simp [hday])]
  split
  · rfl
  · next g hsome => simp [hnone] at hsome

theorem forceBalanceBalancesTheHolder : Claims.ForceBalanceBalancesTheHolder := by
  intro s addr mask data hcommand t n begun
  refine ⟨fun h hbegun hnumber hactive => ?holder,
    fun hclosed => gives_command hcommand (exec_forceBalance s) (if_pos ?refused), fun hbegun hno => ?none⟩
  case holder =>
    intro entered
    have hbody := commandForceBalance_taken (u := t) hbegun (argumentHolder_commandTaken hnumber hactive)
    have hentered (hunbalanced : s.totals.flags[h].balanced = false) :
        commandForceBalance t = complete (testSending entered) .done 1 :=
      hbody.trans (if_neg (Bool.eq_false_iff.mp hunbalanced))
    refine ⟨fun hunbalanced hopen => ?_, fun hunbalanced _ => ?_, fun hbalanced => ?_⟩
    · have hstate : entered.day.state ≠ .closing := by
        rw [eventEntry_day]
        exact fun h => nomatch hopen.symm.trans h
      refine gives_command hcommand (exec_forceBalance s) ((hentered hunbalanced).trans ?_)
      rw [testSending_of_not_closing hstate]
    · exact gives_command hcommand (exec_forceBalance s) (hentered hunbalanced)
    · exact gives_command hcommand (exec_forceBalance s) (hbody.trans (if_pos hbalanced))
  case refused =>
    change (!(s.day.state == .opened || s.day.state == .closing)) = true
    simpa [begun] using hclosed
  case none =>
    refine gives_command hcommand (exec_forceBalance s) (commandForceBalance_none (u := t) hbegun ?_)
    refine argumentHolder_eq_none ?_
    rw [argumentByte_commandTaken, configuration_commandTaken]
    exact hno

/-! ### The move to SENDING (R172, R179) -/

theorem balancedDayMovesToSending_claim : Claims.BalancedDayMovesToSending := by
  intro s c last records p header balanced unmarked
  refine ⟨fun hclosing hbalanced hunmarked => ?_, fun hno => if_neg fun ⟨hclosing, hbalanced, hunmarked⟩ => ?_⟩
  · have hcomposed := composeBlock_payload (setDayState s .sending) { resetBatch with plan := some p } p 0 1 header rfl
    have hfixed : fixBatch (setDayState s .sending) = _ := hcomposed
    rw [testSending, if_pos ⟨hclosing, readyToSend_iff.mp ⟨hbalanced, hunmarked⟩⟩]
    simp only [hfixed]
    rfl
  · exact hno ⟨hclosing, readyToSend_iff.mpr ⟨hbalanced, hunmarked⟩⟩

/-- Settles O42. -/
theorem balancedDayMovesToSending : Obligations.BalancedDayMovesToSending :=
  ⟨forceBalanceBalancesTheHolder, balancedDayMovesToSending_claim⟩

end Sys2Proof.Machine
end

