-- ==== Sys2Proof/Proofs/ImageChecks.lean ====
section
/-! SUPPORT. APPLY_CONFIG, the image it fetches, its fields and its checks (R4, R94, R194, R195, 13.5). -/

namespace Sys2Proof.Machine

/-! ### APPLY_CONFIG and the judging of its image (R4, R194) -/

theorem applyConfigFetchesTheImage : Claims.ApplyConfigFetchesTheImage := by
  intro s addr mask data hcommand t
  refine ⟨fun hstate hsettlement => ?fetches, fun hno => gives_command hcommand (exec_applyConfig s) (if_pos ?refused)⟩
  case fetches =>
    have hfree : ¬(!(t.day.state == .setup || t.day.state == .settled) || t.day.settlement.isSome) = true := by
      change ¬(!(s.day.state == .setup || s.day.state == .settled) || s.day.settlement.isSome) = true
      rcases hstate with hstate | hstate <;> simp [hstate, hsettlement]
    have hbody : grantCommand s 1 = requestFetch _ .control (windowBase t 0) 32 :=
      (grantCommand_eq hcommand).trans (if_neg hfree)
    exact gives_of_running hcommand.1.1 (exec_applyConfig s) ((congrArg view hbody).trans (view_requestFetch _ _ _ _))
  case refused =>
    change (!(s.day.state == .setup || s.day.state == .settled) || s.day.settlement.isSome) = true
    rcases hno with ⟨hsetup, hsettled⟩ | hsettlement
    · simp [hsetup, hsettled]
    · simp [Option.isSome_iff_ne_none, hsettlement]

/-- A configuration that takes effect is the one in force. -/
theorem takeEffect_config (s : State) (c : Configuration) : (takeEffect s c).control.config = some c := by
  obtain ⟨e, -, he⟩ := takeEffect_shown s c
  exact congrArg (·.2.1) he

section

variable {s : State} {words : List Dword} (himage : s.control.image = some words) (hwhole : words.length = 768)

include himage hwhole

theorem takeImage_whole : takeImage s = judgeImage s words := by
  unfold takeImage
  split
  · next hnone => simp [hnone] at himage
  · next ws hsome =>
    obtain rfl := Option.some.inj (hsome.symm.trans himage)
    exact if_pos hwhole

theorem takeImage_fault {detail : Nat} (hfault : imageFault s (bufferBytes words) = some detail) :
    takeImage s = complete (withoutImage s) .failed detail := by
  rw [takeImage_whole himage hwhole, judgeImage]
  split
  · next d hd =>
    obtain rfl := Option.some.inj (hd.symm.trans hfault)
    rfl
  · next hnone => simp [hnone] at hfault

theorem takeImage_fits (hfits : imageFault s (bufferBytes words) = none) :
    takeImage s =
      if readIsHeld s.path then withPlacement (withoutImage s) (some (imageConfiguration (bufferBytes words)))
      else takeEffect (withoutImage s) (imageConfiguration (bufferBytes words)) := by
  rw [takeImage_whole himage hwhole, judgeImage]
  split
  · next d hd => simp [hd] at hfits
  · rfl

end

/-- The installation of a placement, with no read held (R4). -/
theorem exec_installWindowMap_of_placement {s : State} {c : Configuration} (hr : s.inReset = false)
    (hplacement : s.path.placement = some c) (hfree : readIsHeld s.path = false) :
    exec .installWindowMap s = .next (conclude s (takeEffect s c)) := by
  rw [exec_installWindowMap, running, if_neg (by simp [hr])]
  simp only [hplacement, hfree, Bool.false_eq_true, if_false]

theorem fetchedImageIsJudged : Claims.FetchedImageIsJudged := by
  intro s words hr himage hwhole
  refine ⟨fun detail hfault => gives_conclude hr (exec_configImageFetched s) (takeImage_fault himage hwhole hfault),
    fun hfits hheld => gives_conclude hr (exec_configImageFetched s)
      ((takeImage_fits himage hwhole hfits).trans (if_pos hheld)), fun hfits hfree => ?installed⟩
  intro placed
  have hbody : takeImage s = takeEffect (withoutImage s) (imageConfiguration (bufferBytes words)) :=
    (takeImage_fits himage hwhole hfits).trans (if_neg (by simp [hfree]))
  refine ⟨conclude s (takeImage s), by rw [exec_configImageFetched, running, if_neg (by simp [hr])], ?_, ?_⟩
  · have hinstalled := exec_installWindowMap_of_placement (s := placed) hr rfl hfree
    have hplaced : placed = withPlacement (withoutImage s) (some (imageConfiguration (bufferBytes words))) := rfl
    rw [hinstalled, hbody, hplaced, takeEffect_withPlacement, conclude_before (mirrorFields_placement s _)]
  · have hconfig : (conclude s (takeImage s)).control.config = (takeImage s).control.config :=
      congrArg (·.control.config) (books_of_view (view_conclude s (takeImage s)))
    rw [hconfig, hbody, takeEffect_config]

/-! ### The checks in their order (R195) -/

theorem imageChecksAreInOrder : Claims.ImageChecksAreInOrder := by
  intro s b c
  simp only [imageFault, imageCrcFits, Bool.not_eq_true', beq_eq_false_iff_ne, windowBase]
  rfl

theorem vector_all_iff {α : Type} {n : Nat} (v : Vector α n) (p : α → Bool) :
    v.all p = true ↔ ∀ i : Fin n, p v[i] = true := by
  rw [Vector.all_eq_true]
  exact ⟨fun h i => h i.val i.isLt, fun h i hi => h ⟨i, hi⟩⟩

theorem vector_any_iff {α : Type} {n : Nat} (v : Vector α n) (p : α → Bool) :
    v.any p = true ↔ ∃ i : Fin n, p v[i] = true := by
  rw [Vector.any_eq_true]
  exact ⟨fun ⟨i, hi, h⟩ => ⟨⟨i, hi⟩, h⟩, fun ⟨i, h⟩ => ⟨i.val, i.isLt, h⟩⟩

/-! ### Check 2 (R3, R195) -/

theorem sizeFits_iff (size : Nat) : sizeFits size = true ↔ ∃ n, 10 ≤ n ∧ n ≤ 16 ∧ size = 2 ^ n := by
  constructor
  · intro h
    simp only [sizeFits, List.contains_iff_mem, List.mem_cons, List.not_mem_nil, or_false] at h
    rcases h with rfl | rfl | rfl | rfl | rfl | rfl | rfl
    exacts [⟨10, by decide⟩, ⟨11, by decide⟩, ⟨12, by decide⟩, ⟨13, by decide⟩, ⟨14, by decide⟩, ⟨15, by decide⟩,
      ⟨16, by decide⟩]
  · rintro ⟨n, hlow, hhigh, rfl⟩
    interval_cases n <;> decide

theorem allApart_iff (l : List (Nat × Nat)) :
    allApart l = true ↔ l.Pairwise fun v w => v.1 + v.2 ≤ w.1 ∨ w.1 + w.2 ≤ v.1 := by
  induction l with
  | nil => simp [allApart]
  | cons w l ih => simp [allApart, apart, ih, List.pairwise_cons]

theorem windowCheckJudgesThePlaces : Claims.WindowCheckJudgesThePlaces := by
  intro control c placed
  have hplaced : placedWindows c = placed := rfl
  simp only [windowsFit, hplaced, Bool.and_eq_true, sizeFits_iff, vector_all_iff, allApart_iff, List.all_eq_true,
    beq_iff_eq, decide_eq_true_eq, and_assoc]
  rfl

/-! ### Check 3 (R195, R198) -/

/-- A value that no two indices share is counted at most once. -/
theorem count_finRange_le_one {n : Nat} (f : Fin n → Nat) (r : Nat) :
    ((List.finRange n).map f).count r ≤ 1 ↔ ∀ j k, f j = r → f k = r → j = k := by
  have hcard : ((List.finRange n).map f).count r = (Finset.univ.filter fun i => f i = r).card := by
    rw [List.count, List.countP_map, List.countP_eq_length_filter]
    simp [Finset.card_def, Fin.univ_def, Finset.filter, Function.comp_def, beq_eq_decide]
  rw [hcard, Finset.card_le_one]
  simp only [Finset.mem_filter, Finset.mem_univ, true_and]
  exact ⟨fun h j k hj hk => h j hj k hk, fun h j hj k hk => h j k hj hk⟩

/-- The roles as the list that check 3 counts in. -/
theorem roles_eq (c : Configuration) :
    c.ports.toList.map (·.role) = (List.finRange 6).map fun k => c.ports[k].role := by
  rw [vector_toList_finRange, List.map_map]
  rfl

/-- One HO_PRIMARY, and no role but UNUSED twice. -/
theorem roles_counted (c : Configuration) (hroles : ∀ k : Fin 6, c.ports[k].role ≤ 8) :
    (c.ports.toList.map (·.role)).count 7 = 1 ∧
        (∀ r ∈ [1, 2, 3, 4, 5, 6, 8], (c.ports.toList.map (·.role)).count r ≤ 1) ↔
      (∃ k : Fin 6, c.ports[k].role = 7) ∧
        ∀ j k : Fin 6, c.ports[j].role = c.ports[k].role → c.ports[j].role ≠ 0 → j = k := by
  have hprimary : 1 ≤ (c.ports.toList.map (·.role)).count 7 ↔ ∃ k : Fin 6, c.ports[k].role = 7 := by
    rw [roles_eq, Nat.succ_le_iff, List.count_pos_iff]
    simp
  have honce (r : Nat) : (c.ports.toList.map (·.role)).count r ≤ 1 ↔
      ∀ j k : Fin 6, c.ports[j].role = r → c.ports[k].role = r → j = k := by
    rw [roles_eq, count_finRange_le_one]
  constructor
  · rintro ⟨hseven, hothers⟩
    refine ⟨hprimary.mp hseven.ge, fun j k hsame hused => ?_⟩
    have hle : (c.ports.toList.map (·.role)).count c.ports[j].role ≤ 1 := by
      by_cases h7 : c.ports[j].role = 7
      · rw [h7, hseven]
      · have hj := hroles j
        exact hothers _ (by simp only [List.mem_cons, List.not_mem_nil, or_false]; omega)
    exact (honce _).mp hle j k rfl hsame.symm
  · rintro ⟨hseven, hothers⟩
    have hle (r : Nat) (hr : r ≠ 0) : (c.ports.toList.map (·.role)).count r ≤ 1 :=
      (honce r).mpr fun j k hj hk => hothers j k (hj.trans hk.symm) (hj ▸ hr)
    refine ⟨le_antisymm (hle 7 (by decide)) (hprimary.mpr hseven), fun r hr => hle r ?_⟩
    rintro rfl
    simp at hr

theorem roleCheckJudgesPortsAndFlags : Claims.RoleCheckJudgesPortsAndFlags := by
  intro c
  simp only [rolesFit, Bool.and_eq_true, vector_all_iff, List.all_eq_true, Bool.or_eq_true, beq_iff_eq,
    decide_eq_true_eq, flagCode, and_assoc]
  refine and_congr_right fun hports => ?_
  have hcounted := roles_counted c fun k => (hports k).1
  rw [← and_assoc, hcounted, and_assoc]

/-! ### Check 4 (R74, R195) -/

theorem ascending_iff (l : List Nat) : ascending l = true ↔ l.Pairwise (· < ·) := by
  rw [← List.isChain_iff_pairwise]
  induction l with
  | nil => simp [ascending]
  | cons a l ih =>
    cases l with
    | nil => simp [ascending]
    | cons b l => simp [ascending, ih]

theorem separatorsClash_iff {decimal grouping : Nat} (hdecimal : decimal ≤ 1) (hgrouping : grouping ≤ 3) :
    separatorsClash decimal grouping = false ↔ groupingSeparator grouping ≠ some (decimalSeparator decimal) := by
  interval_cases decimal <;> interval_cases grouping <;> decide

theorem currencyFits_iff (r : Currency) :
    currencyFits r = true ↔
      let faces := r.faces.take r.denominations
      r.exponent ≤ 3 ∧ 1 ≤ r.denominations ∧ r.denominations ≤ 12 ∧
        (∀ f ∈ faces, 1 ≤ f ∧ f ≤ 10000000) ∧ faces.Pairwise (· < ·) ∧
        1 ≤ r.payable ∧ r.payable ≤ 10000000 ∧ r.decimal ≤ 1 ∧ r.grouping ≤ 3 ∧
        groupingSeparator r.grouping ≠ some (decimalSeparator r.decimal) := by
  simp only [currencyFits, Bool.and_eq_true, List.all_eq_true, ascending_iff, decide_eq_true_eq, Bool.not_eq_true',
    and_assoc]
  have hseparators : r.decimal ≤ 1 ∧ r.grouping ≤ 3 ∧ separatorsClash r.decimal r.grouping = false ↔
      r.decimal ≤ 1 ∧ r.grouping ≤ 3 ∧ groupingSeparator r.grouping ≠ some (decimalSeparator r.decimal) :=
    and_congr_right fun hdecimal => and_congr_right fun hgrouping => separatorsClash_iff hdecimal hgrouping
  rw [hseparators]

theorem currencyCheckJudgesTheConfigured : Claims.CurrencyCheckJudgesTheConfigured := by
  intro c
  simp only [currenciesFit, Bool.and_eq_true, vector_any_iff, vector_all_iff, Bool.or_eq_true, bne_iff_ne, ne_eq,
    ← imp_iff_not_or, currencyFits_iff, Configuration.hasCurrency, beq_iff_eq]

/-! ### Check 5 (R195) -/

/-- The bindings are those of the positions on a line, in order. -/
theorem bindings_eq (c : Configuration) :
    bindings c = ((List.finRange 16).filter fun p => decide (c.positions[p].line ≤ 1)).map fun p =>
      (c.positions[p].line, c.positions[p].address) := by
  rw [bindings, vector_toList_finRange, List.filter_map, List.map_map]
  rfl

theorem bindingCheckJudgesThePositions : Claims.BindingCheckJudgesThePositions := by
  intro c
  have hnodup : (∀ b ∈ bindings c, (bindings c).count b = 1) ↔
      ∀ p q : Fin 16, c.positions[p].line ≤ 1 → c.positions[p].line = c.positions[q].line →
        c.positions[p].address = c.positions[q].address → p = q := by
    rw [← List.nodup_iff_count_eq_one, bindings_eq, List.nodup_map_iff_inj_on ((List.nodup_finRange 16).filter _)]
    simp only [List.mem_filter, List.mem_finRange, true_and, decide_eq_true_eq, Prod.mk.injEq, and_imp]
    exact ⟨fun h p q hp hline haddress => h p hp q (hline ▸ hp) hline haddress,
      fun h p hp q _ hline haddress => h p q hp hline haddress⟩
  simp only [bindingsFit, Bool.and_eq_true, vector_all_iff, List.all_eq_true, beq_iff_eq, hnodup, Bool.or_eq_true,
    decide_eq_true_eq]
  refine and_congr_left fun _ => forall_congr' fun p => ?_
  rw [and_assoc]
  refine and_congr ?_ (and_congr_left fun _ => ?_)
  · rw [Nat.le_one_iff_eq_zero_or_eq_one, or_assoc]
  · rw [← Nat.not_le, ← imp_iff_not_or]

/-! ### Check 6 (R94, R195) -/

theorem indexOf_any_iff {n v : Nat} (p : Fin n → Bool) :
    (indexOf n v).any p = true ↔ ∃ i : Fin n, v = i.val ∧ p i = true := by
  simp only [Option.any_eq_true, indexOf_eq_some]

theorem monitorFits_iff (c : Configuration) (d : MonitorSetup) :
    monitorFits c d = true ↔
      (d.holder = 0xFF ∨ ∃ h : Fin 17, d.holder = h.val ∧ c.holderActive h = true) ∧
        (∃ k : Fin 4, d.currency = k.val ∧ c.hasCurrency k = true) ∧ d.basis ≤ 1 ∧ d.compare ≤ 1 ∧
        d.mode ≤ 1 ∧ 1 ≤ d.action ∧ d.action ≤ 3 ∧ d.threshold ≤ 7864200000000 ∧
        ¬(d.basis = 0 ∧ d.mode = 1) := by
  simp only [monitorFits, Bool.and_eq_true, Bool.or_eq_true, beq_iff_eq, indexOf_any_iff, decide_eq_true_eq,
    Bool.not_eq_true', ← Bool.not_eq_true, and_assoc]

theorem monitorCheckJudgesTheEnabled : Claims.MonitorCheckJudgesTheEnabled := by
  intro c
  simp only [monitorsFit, vector_all_iff, Bool.or_eq_true, bne_iff_ne, ne_eq, ← imp_iff_not_or, monitorFits_iff]

/-! ### The fields (13.5) -/

theorem imageFieldsStandAtTheirOffsets : Claims.ImageFieldsStandAtTheirOffsets := by
  intro b c u
  refine ⟨fun i => ?_, field_eq_uintAt _ _ _, field_eq_uintAt _ _ _, field_eq_uintAt _ _ _, field_eq_uintAt _ _ _,
    field_eq_uintAt _ _ _, field_eq_uintAt _ _ _, fun k => ?_, fun h => ?_, fun p => ?_, fun l => ?_, fun m => ?_⟩
  all_goals
    simp only [c, u, imageConfiguration, Fin.getElem_fin, Vector.getElem_ofFn, imageCurrency, imagePosition, imagePort,
      imageMonitor, fields32, field_eq_uintAt]

theorem configurationIsReadFromItsFields : Claims.ConfigurationIsReadFromItsFields := by
  intro c role
  refine ⟨fun h => beq_iff_eq, fun k => beq_iff_eq, fun p => beq_iff_eq, fun d => portWithRole_first c _,
    fun k => portWithRole_first c _, portWithRole_first c _, portWithRole_first c _, fun d => ?_⟩
  refine List.filter_congr fun p _ => ?_
  rw [Bool.eq_iff_iff, decide_eq_true_eq]
  simp only [Configuration.onLine, Configuration.positionEnabled, Bool.and_eq_true, beq_iff_eq,
    Option.isSome_iff_ne_none, and_assoc]

/-- Settles O43. -/
theorem configurationImageIsFetchedAndJudged : Obligations.ConfigurationImageIsFetchedAndJudged :=
  ⟨applyConfigFetchesTheImage, fetchedImageIsJudged, imageChecksAreInOrder, windowCheckJudgesThePlaces,
    roleCheckJudgesPortsAndFlags, currencyCheckJudgesTheConfigured, bindingCheckJudgesThePositions,
    monitorCheckJudgesTheEnabled, imageFieldsStandAtTheirOffsets, configurationIsReadFromItsFields⟩

end Sys2Proof.Machine
end

