-- ==== Sys2Proof/Proofs/TakingEffect.lean ====
section
/-! SUPPORT. What the operations of an installation do to the part: the jobs ended, the printers restarted, the cycles
begun, and the groups handed over (R4, R124, R150, R196, R198). -/

namespace Sys2Proof.Machine

/-! ### The jobs ended (R150) -/

/-- What the end of a job leaves of the part: all but the Journal Unit, the items, the path and the alerts. -/
def jobSide (s : State) := (s.totals, s.day, s.screen, s.mem, s.control.taken)

theorem jobSide_writeEntry (s : State) (f : EntryFields) (lowers : Bool) :
    jobSide (writeEntry s f lowers) = jobSide s := by
  have hday : (writeEntry s f lowers).day = s.day := writeEntry_day lowers
  have htaken : (writeEntry s f lowers).control.taken = s.control.taken :=
    congrArg (·.taken) (handGroup_entry_control _ _)
  simp only [jobSide, hday, htaken, writeEntry_totals, writeEntry_screen, writeEntry_mem]

theorem jobSide_redeemEntry (s : State) (k : Fin 4) (f : EntryFields) : jobSide (redeemEntry s k f) = jobSide s := by
  unfold redeemEntry
  split
  · dsimp only
    split
    · exact jobSide_writeEntry _ _ _
    · rfl
  · rw [eventEntry_cases]
    split
    · split
      · exact jobSide_writeEntry _ _ _
      · rfl
    · rfl

theorem jobSide_interruptLine (s : State) (k : Fin 4) (timeout : Bool) :
    jobSide (interruptLine s k timeout) = jobSide s := by
  unfold interruptLine
  dsimp only
  split
  · exact jobSide_redeemEntry _ _ _
  · rfl

/-- The state in which an installation finds the part, its rows' fetches withdrawn and its jobs ended. -/
def jobsEnded (s : State) : State := endJobs (withdrawFetch (withdrawFetch s (.drop 0)) (.drop 1))

theorem jobSide_jobsEnded (s : State) : jobSide (jobsEnded s) = jobSide s :=
  foldl_keeps (fun s k => interruptLine s k true) jobSide (fun s k => jobSide_interruptLine s k true) _
    (withdrawFetch (withdrawFetch s (.drop 0)) (.drop 1))

theorem shownOf_jobsEnded (s : State) : shownOf (jobsEnded s) = shownOf s :=
  shownOf_endJobs (withdrawFetch (withdrawFetch s (.drop 0)) (.drop 1))

theorem configuration_jobsEnded (s : State) : (jobsEnded s).configuration = s.configuration :=
  congrArg (fun v => v.2.1.getD noConfiguration) (shownOf_jobsEnded s)

theorem windows_jobsEnded (s : State) : (jobsEnded s).path.windows = s.path.windows :=
  congrArg (·.1) (shownOf_jobsEnded s)

/-- Where the day does not journal, the end of a job hands over no entry. -/
theorem interruptLine_quiet {s : State} (hday : s.day.state.journals = false) (k : Fin 4) (timeout : Bool) :
    journalWrites (interruptLine s k timeout).path = journalWrites s.path := by
  unfold interruptLine
  dsimp only
  split
  · unfold redeemEntry
    split
    · dsimp only
      split
      · next hjournals => exact absurd (hday.symm.trans hjournals) (by decide)
      · rfl
    · rw [eventEntry_cases, if_neg]
      · rfl
      · rw [Bool.and_eq_true]
        exact fun h => absurd (hday.symm.trans h.2) (by decide)
  · rfl

theorem jobsEnded_quiet {s : State} (hday : s.day.state.journals = false) :
    journalWrites (jobsEnded s).path = journalWrites s.path := by
  have hfold (l : List (Fin 4)) (u : State) (hu : u.day.state.journals = false) :
      journalWrites (l.foldl (fun s k => interruptLine s k true) u).path = journalWrites u.path := by
    induction l generalizing u with
    | nil => rfl
    | cons k l ih =>
      have hkept : (interruptLine u k true).day = u.day := congrArg (·.2.1) (jobSide_interruptLine u k true)
      rw [List.foldl_cons, ih _ (by rw [hkept]; exact hu), interruptLine_quiet hu]
  exact hfold (List.finRange 4) (withdrawFetch (withdrawFetch s (.drop 0)) (.drop 1)) hday

/-! ### The printers restarted (R150) -/

/-- A printer restarted: FAULT, awaiting RESET_PRINTER's answer, or IDLE without a port. -/
def restarted (c : Configuration) (k : Fin 4) : Printer :=
  if c.printerPort k = none then barePrinter .idle else { barePrinter .fault with awaited := some .reset }

/-- The lines after a printer's restart: its port carries RESET_PRINTER alone. -/
def resetLine (c : Configuration) (lines : Vector (List (List Byte)) 6) (k : Fin 4) : Vector (List (List Byte)) 6 :=
  match c.printerPort k with
  | none => lines
  | some port => lines.set port [printerFrame 0x05 []]

theorem restartPrinter_eq (s : State) (k : Fin 4) :
    restartPrinter s k = { s with
      passbook := { s.passbook with printers := s.passbook.printers.set k (restarted s.configuration k) },
      lines := resetLine s.configuration s.lines k } := by
  unfold restartPrinter resetLine
  cases hport : s.configuration.printerPort k with
  | none => simp [setPrinter, restarted, hport]
  | some port => simp [sendPrinter, sendFrame, clearLine, setPrinter, restarted, hport]

theorem foldl_restartPrinter (l : List (Fin 4)) (s : State) :
    l.foldl restartPrinter s = { s with
      passbook := { s.passbook with
        printers := l.foldl (fun v (k : Fin 4) => v.set k (restarted s.configuration k)) s.passbook.printers },
      lines := l.foldl (resetLine s.configuration) s.lines } := by
  induction l generalizing s with
  | nil => rfl
  | cons k l ih =>
    rw [List.foldl_cons, ih, restartPrinter_eq]
    rfl

theorem foldl_set_getElem {α : Type} {n : Nat} (f : Fin n → α) (l : List (Fin n)) (v : Vector α n) (i : Fin n) :
    (l.foldl (fun v k => v.set k (f k)) v)[i] = if i ∈ l then f i else v[i] := by
  induction l generalizing v with
  | nil => simp
  | cons k l ih =>
    rw [List.foldl_cons, ih]
    by_cases hl : i ∈ l
    · simp [hl]
    · by_cases hk : i = k
      · subst hk
        simp [hl]
      · simp only [hl, if_false, List.mem_cons, hk, or_self]
        exact getElem_set_ne v k i (f k) hk

/-- After the restarts a printer's port carries RESET_PRINTER alone, and the other ports what they carried. -/
theorem foldl_resetLine_getElem (c : Configuration) (l : List (Fin 4)) (v : Vector (List (List Byte)) 6)
    (port : Fin 6) :
    (l.foldl (resetLine c) v)[port] =
      if ∃ k ∈ l, c.printerPort k = some port then [printerFrame 0x05 []] else v[port] := by
  induction l generalizing v with
  | nil => simp
  | cons k l ih =>
    rw [List.foldl_cons, ih]
    by_cases hl : ∃ k ∈ l, c.printerPort k = some port
    · have hcons : ∃ j ∈ k :: l, c.printerPort j = some port := by
        obtain ⟨j, hj, hport⟩ := hl
        exact ⟨j, List.mem_cons_of_mem k hj, hport⟩
      rw [if_pos hl, if_pos hcons]
    · rw [if_neg hl]
      by_cases hk : c.printerPort k = some port
      · rw [if_pos ⟨k, List.mem_cons_self, hk⟩]
        simp [resetLine, hk]
      · rw [if_neg (by rintro ⟨j, hj, hport⟩; rcases List.mem_cons.mp hj with rfl | hj
                       · exact hk hport
                       · exact hl ⟨j, hj, hport⟩)]
        cases hnone : c.printerPort k with
        | none => simp [resetLine, hnone]
        | some other =>
          have hne : port ≠ other := fun e => hk (e ▸ hnone)
          simp only [resetLine, hnone]
          exact getElem_set_ne v other port _ hne

/-! ### The cycles begun (R124, R127) -/

/-- A controller that begins its cycle on positions that are all ABSENT and due a poll. -/
def polling (c : Controller) (l : List (Fin 16)) : Controller :=
  { c with exchange := l.head?.map fun p => ⟨p, .poll, .sending⟩, remaining := l.tail }

/-- The frames that a cycle's beginning puts on a line. -/
def firstPoll (s : State) (l : List (Fin 16)) : List (List Byte) :=
  (l.head?.map fun p => dropFrame s.screen.positions[p].address 0x02
    [BitVec.ofNat 8 (bit s.screen.positions[p].pollBit)]).toList

/-- The lines with frames added on a port. -/
def linesWith (lines : Vector (List (List Byte)) 6) (port : Option (Fin 6)) (frames : List (List Byte)) :
    Vector (List (List Byte)) 6 :=
  match port with
  | none => lines
  | some k => lines.set k (lines[k] ++ frames)

theorem linesWith_getElem (lines : Vector (List (List Byte)) 6) (port : Option (Fin 6)) (frames : List (List Byte))
    (k : Fin 6) : (linesWith lines port frames)[k] = if port = some k then lines[k] ++ frames else lines[k] := by
  cases port with
  | none => simp [linesWith]
  | some j =>
    by_cases hjk : j = k
    · subst hjk
      simp [linesWith]
    · rw [if_neg (by simpa using hjk)]
      exact getElem_set_ne lines j k _ (Ne.symm hjk)

theorem linesWith_nil (lines : Vector (List (List Byte)) 6) (port : Option (Fin 6)) :
    linesWith lines port [] = lines := by
  cases port with
  | none => rfl
  | some k => simp [linesWith]

theorem beginCycle_absent {s : State} {d : Fin 2}
    (habsent : ∀ p ∈ s.configuration.linePositions d,
      s.screen.positions[p].state = .absent ∧ s.screen.positions[p].skip = 0) :
    beginCycle s d = { s with
      screen := { s.screen with
        controllers := s.screen.controllers.set d
          (polling s.screen.controllers[d] (s.configuration.linePositions d)) },
      lines := linesWith s.lines (s.configuration.dropPort d) (firstPoll s (s.configuration.linePositions d)) } := by
  unfold beginCycle
  cases hl : s.configuration.linePositions d with
  | nil =>
    simp only [firstPoll, List.head?_nil, Option.map_none, Option.toList_none, linesWith_nil]
    rfl
  | cons p rest =>
    obtain ⟨hstate, hskip⟩ := habsent p (by rw [hl]; exact List.mem_cons_self)
    unfold visitNext
    simp only [hstate, hskip, if_true]
    simp only [sendPoll, beginExchange, setController, Fin.getElem_fin, Vector.getElem_set_self, Vector.set_set,
      sendDrop, sendFrame]
    rfl

/-- A cycle begun where the line has a port. -/
def cycleIfPort (s : State) (d : Fin 2) : State :=
  if (s.configuration.dropPort d).isSome then beginCycle s d else s

theorem beginCycles_eq (s : State) : beginCycles s = cycleIfPort (cycleIfPort s 0) 1 := rfl

theorem linePositions_of_no_port {c : Configuration} {d : Fin 2} (hport : c.dropPort d = none) :
    c.linePositions d = [] := by
  simp [Configuration.linePositions, Configuration.onLine, hport]

/-- The same where there is no port, if the controller has no exchange and nothing left to visit. -/
theorem cycleIfPort_eq {s : State} {d : Fin 2} (hrest : polling s.screen.controllers[d] [] = s.screen.controllers[d])
    (habsent : ∀ p ∈ s.configuration.linePositions d,
      s.screen.positions[p].state = .absent ∧ s.screen.positions[p].skip = 0) :
    cycleIfPort s d = { s with
      screen := { s.screen with
        controllers := s.screen.controllers.set d
          (polling s.screen.controllers[d] (s.configuration.linePositions d)) },
      lines := linesWith s.lines (s.configuration.dropPort d) (firstPoll s (s.configuration.linePositions d)) } := by
  unfold cycleIfPort
  split
  · exact beginCycle_absent habsent
  · next hno =>
    have hport : s.configuration.dropPort d = none := by simpa using hno
    rw [linePositions_of_no_port hport, hport, hrest]
    have hsame : s.screen.controllers.set d s.screen.controllers[d] = s.screen.controllers := by simp
    rw [hsame]
    rfl

/-! ### Groups of the rings and of a completion (R132, R193) -/

/-- What a group of a ring or of a completion leaves of the part. -/
def installedSide (s : State) :=
  (s.path.placement, s.path.windows, s.monitors, s.totals, s.day, s.mem, s.journal, s.screen, s.passbook, s.lines)

theorem installedSide_handGroup (s : State) {g : Group} (h : g.producer ≠ .settlement) :
    installedSide (handGroup s g) = installedSide s := by
  have hday : dayPlaced s.day g.producer = s.day := by rw [(placing_tells s.control s.day g.producer).2, if_neg h]
  simp only [installedSide, handGroup, hday, ite_self]
  split <;> rfl

theorem installedSide_handGroups (s : State) (gs : List Group) (h : ∀ g ∈ gs, g.producer ≠ .settlement) :
    installedSide (handGroups s gs) = installedSide s := by
  unfold handGroups
  induction gs generalizing s with
  | nil => rfl
  | cons g gs ih =>
    rw [List.foldl_cons, ih _ fun g hg => h g (List.mem_cons_of_mem _ hg),
      installedSide_handGroup s (h g List.mem_cons_self)]

end Sys2Proof.Machine
end

