-- ==== Sys2Proof/Proofs/Installation.lean ====
section
/-! SUPPORT. The installation of a configuration (R4, R90, R95, R124, R127, R132, R134, R136, R137, R150, R196, R198 to
R200). -/

namespace Sys2Proof.Machine

/-! ### The part at an installation -/

section

variable (s : State) (c : Configuration)

/-- The part with the configuration in force and the printers restarted. -/
def restartedPart : State := (List.finRange 4).foldl restartPrinter (withConfiguration (jobsEnded s) c)

/-- The same with its cycles begun, before the groups of the installation are handed over. -/
def cyclingPart : State := beginCycles (restartedPart s c)

theorem restartedPart_eq :
    restartedPart s c = { withConfiguration (jobsEnded s) c with
      passbook := { (jobsEnded s).passbook with
        printers := (List.finRange 4).foldl (fun v (k : Fin 4) => v.set k (restarted c k))
          (jobsEnded s).passbook.printers },
      lines := (List.finRange 4).foldl (resetLine c) (Vector.replicate 6 []) } :=
  foldl_restartPrinter _ _

/-- A position's entry as the installation rebuilds it. -/
theorem restartedPart_position (p : Fin 16) :
    (restartedPart s c).screen.positions[p] =
      configuredPosition c (!s.path.windows[2].known || s.configuration.bases[1] != c.bases[1]) p
        s.screen.positions[p] := by
  have hscreen : (jobsEnded s).screen = s.screen := congrArg (·.2.2.1) (jobSide_jobsEnded s)
  rw [restartedPart_eq]
  simp only [withConfiguration, Fin.getElem_fin, Vector.getElem_ofFn, windows_jobsEnded, configuration_jobsEnded,
    hscreen]

theorem restartedPart_controller (d : Fin 2) :
    (restartedPart s c).screen.controllers[d] = configuredController c d := by
  rw [restartedPart_eq]
  simp only [withConfiguration, Fin.getElem_fin, Vector.getElem_ofFn]

theorem onLine_cases {p : Fin 16} {d : Fin 2} (h : c.onLine d p = true) : (c.onLine 0 p || c.onLine 1 p) = true := by
  fin_cases d
  · exact Bool.or_eq_true_iff.mpr (.inl h)
  · exact Bool.or_eq_true_iff.mpr (.inr h)

/-- The positions of a line stand ABSENT, due a poll with the poll bit clear, at their addresses. -/
theorem restartedPart_absent {d : Fin 2} {p : Fin 16} (h : p ∈ c.linePositions d) :
    (restartedPart s c).screen.positions[p].state = .absent ∧
      (restartedPart s c).screen.positions[p].skip = 0 ∧
      (restartedPart s c).screen.positions[p].pollBit = false ∧
      (restartedPart s c).screen.positions[p].address = c.positions[p].address := by
  rw [restartedPart_position, configuredPosition, if_pos (onLine_cases c (mem_linePositions.mp h))]
  exact ⟨rfl, rfl, rfl, rfl⟩

theorem polling_configured (d : Fin 2) : polling (configuredController c d) [] = configuredController c d := rfl

/-- The frames that the first poll of a line's cycle puts on it. -/
def firstPolls (d : Fin 2) : List (List Byte) :=
  ((c.linePositions d).head?.map fun p => dropFrame c.positions[p].address 0x02 [0]).toList

end

/-- A part as an installation has left it before its cycles begin: every controller configured, every position on a
line ABSENT and due a poll. -/
structure Configured (u : State) (c : Configuration) : Prop where
  configuration : u.configuration = c
  controller (d : Fin 2) : u.screen.controllers[d] = configuredController c d
  absent {d : Fin 2} {p : Fin 16} (h : p ∈ c.linePositions d) :
    u.screen.positions[p].state = .absent ∧ u.screen.positions[p].skip = 0 ∧
      u.screen.positions[p].pollBit = false ∧ u.screen.positions[p].address = c.positions[p].address

section

variable {u : State} {c : Configuration}

theorem firstPoll_configured (h : Configured u c) (d : Fin 2) :
    firstPoll u (c.linePositions d) = firstPolls c d := by
  unfold firstPoll firstPolls
  cases hl : c.linePositions d with
  | nil => simp only [List.head?_nil, Option.map_none]
  | cons p rest =>
    obtain ⟨-, -, hbit, haddress⟩ := h.absent (d := d) (p := p) (by rw [hl]; exact List.mem_cons_self)
    simp only [List.head?_cons, Option.map_some, hbit, haddress]
    rfl

/-- One line's cycle begun. -/
def withCycle (u : State) (c : Configuration) (d : Fin 2) : State :=
  { u with
    screen := { u.screen with
      controllers := u.screen.controllers.set d (polling (configuredController c d) (c.linePositions d)) },
    lines := linesWith u.lines (c.dropPort d) (firstPolls c d) }

theorem cycleIfPort_first (h : Configured u c) : cycleIfPort u 0 = withCycle u c 0 := by
  have hcycle := cycleIfPort_eq (s := u) (d := 0) (by rw [h.controller, polling_configured]) (by
    rw [h.configuration]
    exact fun p hp => ⟨(h.absent hp).1, (h.absent hp).2.1⟩)
  rwa [h.configuration, h.controller, firstPoll_configured h] at hcycle

theorem cycleIfPort_second (h : Configured u c) :
    cycleIfPort (withCycle u c 0) 1 = withCycle (withCycle u c 0) c 1 := by
  have hconfiguration : (withCycle u c 0).configuration = c := h.configuration
  have hcontroller : (withCycle u c 0).screen.controllers[(1 : Fin 2)] = configuredController c 1 :=
    (getElem_set_ne u.screen.controllers (0 : Fin 2) (1 : Fin 2) _ (by decide)).trans (h.controller 1)
  have hpolls : firstPoll (withCycle u c 0) (c.linePositions 1) = firstPolls c 1 := firstPoll_configured h 1
  have hcycle := cycleIfPort_eq (s := withCycle u c 0) (d := 1) (by rw [hcontroller, polling_configured]) (by
    rw [hconfiguration]
    exact fun p hp => ⟨(h.absent hp).1, (h.absent hp).2.1⟩)
  rwa [hconfiguration, hcontroller, hpolls] at hcycle

theorem beginCycles_configured (h : Configured u c) : beginCycles u = withCycle (withCycle u c 0) c 1 := by
  rw [beginCycles_eq, cycleIfPort_first h, cycleIfPort_second h]

end

section

variable (s : State) (c : Configuration)

theorem configured_restartedPart : Configured (restartedPart s c) c where
  configuration := by
    rw [restartedPart_eq]
    rfl
  controller := restartedPart_controller s c
  absent := restartedPart_absent s c

theorem cyclingPart_eq : cyclingPart s c = withCycle (withCycle (restartedPart s c) c 0) c 1 :=
  beginCycles_configured (configured_restartedPart s c)

/-! ### What takes effect (R196) -/

/-- The groups of the rings, where the installation makes KEYS known or moves it. -/
def ringsHanded : State :=
  if !s.path.windows[3].known || s.configuration.bases[2] != c.bases[2] then
    handGroups (cyclingPart s c) ((List.finRange 16).map (ringGroup (cyclingPart s c)))
  else cyclingPart s c

theorem takeEffect_eq : takeEffect s c = complete (ringsHanded s c) .done 0 := rfl

theorem installedSide_ringsHanded : installedSide (ringsHanded s c) = installedSide (cyclingPart s c) := by
  unfold ringsHanded
  split
  · refine installedSide_handGroups _ _ fun g hg => ?_
    obtain ⟨p, -, rfl⟩ := List.mem_map.mp hg
    exact fun h => nomatch h
  · rfl

theorem installedSide_takeEffect : installedSide (takeEffect s c) = installedSide (cyclingPart s c) := by
  rw [takeEffect_eq]
  exact (installedSide_handGroup _ (by simp)).trans (installedSide_ringsHanded s c)

end

section

variable {x y : State} (h : installedSide x = installedSide y)

include h

theorem path_of_installedSide : x.path.placement = y.path.placement ∧ x.path.windows = y.path.windows := by
  simp only [installedSide, Prod.mk.injEq] at h
  exact ⟨h.1, h.2.1⟩

theorem units_of_installedSide :
    x.monitors = y.monitors ∧ x.totals = y.totals ∧ x.day = y.day ∧ x.mem = y.mem ∧ x.journal = y.journal := by
  simp only [installedSide, Prod.mk.injEq] at h
  obtain ⟨-, -, hmonitors, htotals, hday, hmem, hjournal, -⟩ := h
  exact ⟨hmonitors, htotals, hday, hmem, hjournal⟩

theorem lines_of_installedSide : x.screen = y.screen ∧ x.passbook = y.passbook ∧ x.lines = y.lines := by
  simp only [installedSide, Prod.mk.injEq] at h
  obtain ⟨-, -, -, -, -, -, -, hscreen, hpassbook, hlines⟩ := h
  exact ⟨hscreen, hpassbook, hlines⟩

end

section

variable (s : State) (c : Configuration)

theorem withCycle_positions (u : State) (d : Fin 2) : (withCycle u c d).screen.positions = u.screen.positions := rfl

/-- The positions of the part once a configuration has taken effect. -/
theorem takeEffect_position (p : Fin 16) :
    (takeEffect s c).screen.positions[p] =
      configuredPosition c (!s.path.windows[2].known || s.configuration.bases[1] != c.bases[1]) p
        s.screen.positions[p] := by
  obtain ⟨hscreen, -, -⟩ := lines_of_installedSide (installedSide_takeEffect s c)
  rw [hscreen, cyclingPart_eq, withCycle_positions, withCycle_positions, restartedPart_position]

theorem withCycle_getElem (u : State) (d e : Fin 2) :
    (withCycle u c d).screen.controllers[e] =
      if e = d then polling (configuredController c d) (c.linePositions d) else u.screen.controllers[e] := by
  split
  · next h =>
    subst h
    exact Vector.getElem_set_self _
  · next h => exact getElem_set_ne u.screen.controllers d e _ h

theorem takeEffect_controller (d : Fin 2) :
    (takeEffect s c).screen.controllers[d] = polling (configuredController c d) (c.linePositions d) := by
  obtain ⟨hscreen, -, -⟩ := lines_of_installedSide (installedSide_takeEffect s c)
  rw [hscreen, cyclingPart_eq, withCycle_getElem, withCycle_getElem]
  by_cases hone : d = 1
  · rw [if_pos hone, hone]
  · have hzero : d = 0 := by omega
    rw [if_neg hone, if_pos hzero, hzero]

theorem restartedPart_line (port : Fin 6) :
    (restartedPart s c).lines[port] = if ∃ k, c.printerPort k = some port then [printerFrame 0x05 []] else [] := by
  rw [restartedPart_eq]
  refine (foldl_resetLine_getElem c (List.finRange 4) (Vector.replicate 6 []) port).trans ?_
  simp

theorem takeEffect_line (port : Fin 6) :
    (takeEffect s c).lines[port] =
      (if ∃ k, c.printerPort k = some port then [printerFrame 0x05 []] else []) ++
        (if c.dropPort 0 = some port then firstPolls c 0 else []) ++
        if c.dropPort 1 = some port then firstPolls c 1 else [] := by
  obtain ⟨-, -, hlines⟩ := lines_of_installedSide (installedSide_takeEffect s c)
  rw [hlines, cyclingPart_eq, withCycle, withCycle]
  simp only [linesWith_getElem, restartedPart_line]
  split <;> split <;> simp

theorem takeEffect_printer (k : Fin 4) : (takeEffect s c).passbook.printers[k] = restarted c k := by
  obtain ⟨-, hpassbook, -⟩ := lines_of_installedSide (installedSide_takeEffect s c)
  rw [hpassbook, cyclingPart_eq, withCycle, withCycle]
  simp only [restartedPart_eq]
  refine (foldl_set_getElem (restarted c) (List.finRange 4) (jobsEnded s).passbook.printers k).trans ?_
  rw [if_pos (List.mem_finRange k)]

theorem withCycle_rest (u : State) (d : Fin 2) :
    (withCycle u c d).path = u.path ∧ (withCycle u c d).monitors = u.monitors ∧ (withCycle u c d).totals = u.totals ∧
      (withCycle u c d).day = u.day ∧ (withCycle u c d).mem = u.mem ∧ (withCycle u c d).journal = u.journal ∧
      (withCycle u c d).control = u.control :=
  ⟨rfl, rfl, rfl, rfl, rfl, rfl, rfl⟩

theorem foldl_restartPrinter_rest (l : List (Fin 4)) (u : State) :
    (l.foldl restartPrinter u).path = u.path ∧ (l.foldl restartPrinter u).monitors = u.monitors ∧
      (l.foldl restartPrinter u).totals = u.totals ∧ (l.foldl restartPrinter u).day = u.day ∧
      (l.foldl restartPrinter u).mem = u.mem ∧ (l.foldl restartPrinter u).journal = u.journal ∧
      (l.foldl restartPrinter u).control = u.control := by
  rw [foldl_restartPrinter]
  exact ⟨rfl, rfl, rfl, rfl, rfl, rfl, rfl⟩

theorem withConfiguration_rest (e : State) :
    (withConfiguration e c).monitors = loadedMonitors c ∧ (withConfiguration e c).totals = e.totals ∧
      (withConfiguration e c).day = e.day ∧ (withConfiguration e c).mem = e.mem ∧
      (withConfiguration e c).journal = configuredJournal e.configuration c e.journal ∧
      (withConfiguration e c).control.taken = e.control.taken :=
  ⟨rfl, rfl, rfl, rfl, rfl, rfl⟩

/-- The path, the totals, the monitors, the day, the memory and the journal are those of the configuration. -/
theorem cyclingPart_rest :
    (cyclingPart s c).path = (withConfiguration (jobsEnded s) c).path ∧
      (cyclingPart s c).monitors = loadedMonitors c ∧ (cyclingPart s c).totals = s.totals ∧
      (cyclingPart s c).day = s.day ∧ (cyclingPart s c).mem = s.mem ∧
      (cyclingPart s c).journal = configuredJournal s.configuration c (jobsEnded s).journal ∧
      (cyclingPart s c).control.taken = s.control.taken := by
  have hside := jobSide_jobsEnded s
  simp only [jobSide, Prod.mk.injEq] at hside
  obtain ⟨htotals, hday, -, hmem, htaken⟩ := hside
  obtain ⟨p₁, m₁, t₁, d₁, e₁, j₁, c₁⟩ := withCycle_rest c (withCycle (restartedPart s c) c 0) 1
  obtain ⟨p₂, m₂, t₂, d₂, e₂, j₂, c₂⟩ := withCycle_rest c (restartedPart s c) 0
  obtain ⟨p₃, m₃, t₃, d₃, e₃, j₃, c₃⟩ := foldl_restartPrinter_rest (List.finRange 4) (withConfiguration (jobsEnded s) c)
  obtain ⟨m₄, t₄, d₄, e₄, j₄, c₄⟩ := withConfiguration_rest c (jobsEnded s)
  rw [cyclingPart_eq, p₁, m₁, t₁, d₁, e₁, j₁, c₁, p₂, m₂, t₂, d₂, e₂, j₂, c₂, restartedPart, p₃, m₃, t₃, d₃, e₃, j₃, c₃,
    m₄, t₄, d₄, e₄, j₄, c₄, configuration_jobsEnded, htotals, hday, hmem, htaken]
  exact ⟨rfl, rfl, rfl, rfl, rfl, rfl, rfl⟩

end

end Sys2Proof.Machine
end

