-- ==== Sys2Proof/Proofs/InstallationClaims.lean ====
section
/-! SUPPORT. What the part is after the step that installs a configuration (R4, R90, R95, R124, R127, R132, R134, R136,
R137, R150, R196, R198 to R200). -/

namespace Sys2Proof.Machine

/-! ### The positions and controllers after a step -/

theorem positions_of_books {t u : State} (h : books t = books u) (p : Fin 16) :
    keptPosition t.screen.positions[p] = keptPosition u.screen.positions[p] := by
  have hpositions : t.screen.positions.map keptPosition = u.screen.positions.map keptPosition :=
    congrArg (·.screen.positions) h
  simpa using congrArg (·[p]) hpositions

theorem controllers_of_books {t u : State} (h : books t = books u) (d : Fin 2) :
    ({ t.screen.controllers[d] with row := [] } : Controller) = { u.screen.controllers[d] with row := [] } := by
  have hcontrollers : t.screen.controllers.map (fun c => ({ c with row := [] } : Controller)) =
      u.screen.controllers.map fun c => { c with row := [] } := congrArg (·.screen.controllers) h
  simpa using congrArg (·[d]) hcontrollers

theorem clientTakes_positions (s : State) (data : Dword) (client : FetchClient) :
    (clientTakes s data client).screen.positions = s.screen.positions := by
  cases client with
  | posting => simp only [clientTakes, postingTakes]; split <;> [rfl; (split <;> rfl)]
  | journal =>
    simp only [clientTakes, journalTakes]
    split
    · rfl
    · split
      · rfl
      · obtain ⟨j, f, h⟩ := serveRuns_shifted { s with journal := _ }
        rw [h]
        rfl
  | drop d => rfl
  | day => simp only [clientTakes, dayTakes]; repeat' split
           all_goals rfl
  | control => simp only [clientTakes, controlTakes]; split <;> [rfl; (split <;> rfl)]

theorem answerFetch_positions (s : State) (data : Dword) :
    (answerFetch s data).screen.positions = s.screen.positions := by
  unfold answerFetch
  split
  · rfl
  · exact clientTakes_positions { s with path := _ } _ _

theorem pumpFetches_positions (n : Nat) (s : State) : (pumpFetches n s).screen.positions = s.screen.positions := by
  induction n generalizing s with
  | zero => rfl
  | succ n ih =>
    unfold pumpFetches
    split
    · rfl
    · split
      · rfl
      · split
        · rw [ih, answerFetch_positions]
        · rfl

/-- The hand-over of a row's doubleword leaves every dirty-row set. -/
theorem handRowDword_dirty (s : State) (q p : Fin 16) (i : Nat) :
    (handRowDword s q i).screen.positions[p].dirty = s.screen.positions[p].dirty := by
  unfold handRowDword
  dsimp only
  split
  · rfl
  · split
    · by_cases h : p = q
      · subst h
        simp
      · exact congrArg (·.dirty) (getElem_set_ne s.screen.positions q p _ h)
    · rfl

theorem conclude_dirty (before after : State) (p : Fin 16) :
    (conclude before after).screen.positions[p].dirty = (recomposed (pumpFetches 256 after) p).dirty := by
  unfold conclude
  dsimp only
  have hflush := flushRows_holds (fun u => u.screen.positions[p].dirty = (recomposed (pumpFetches 256 after) p).dirty)
    (fun u q i _ h => (handRowDword_dirty u q p i).trans h)
  refine hflush _ ?_
  rw [flushMirror_positions]
  simp [markMirror, recomposeRows]

/-- A position with every row dirty has every row dirty after the step. -/
theorem conclude_allDirty (before : State) {after : State} {p : Fin 16}
    (h : after.screen.positions[p].dirty = BitVec.allOnes 24) :
    (conclude before after).screen.positions[p].dirty = BitVec.allOnes 24 := by
  have hq : (pumpFetches 256 after).screen.positions[p].dirty = BitVec.allOnes 24 := by
    rw [pumpFetches_positions]
    exact h
  rw [conclude_dirty, recomposed]
  dsimp only
  split
  · split
    · exact hq
    · change _ ||| _ = _
      rw [hq, BitVec.allOnes_or]
  · split
    · exact hq
    · exact hq

/-! ### The configured windows (R4) -/

theorem configuredWindows_control (w : Window) (c : Configuration) : (configuredWindows w c)[0] = w := by
  simp [configuredWindows]

theorem configuredWindows_placed (w : Window) (c : Configuration) (k : Fin 6) :
    (configuredWindows w c)[k.val + 1] = ⟨true, c.bases[k], (windowLengths c.size).getD k.val 0⟩ := by
  simp [configuredWindows]

section

variable {s : State} {c : Configuration}

theorem takeEffect_windows : (takeEffect s c).path.windows = configuredWindows s.path.windows[0] c := by
  obtain ⟨-, hwindows⟩ := path_of_installedSide (installedSide_takeEffect s c)
  have hcontrol : (jobsEnded s).path.windows = s.path.windows := windows_jobsEnded s
  rw [hwindows, (cyclingPart_rest s c).1, ← hcontrol]
  rfl

/-- The windows after the step that installs a configuration. -/
theorem windows_of_install {t : State} (h : books t = books (takeEffect s c)) :
    t.path.windows = configuredWindows s.path.windows[0] c :=
  (congrArg (·.path.windows) h).trans takeEffect_windows

/-- The part's blocks once a configuration has taken effect. -/
theorem takeEffect_units :
    (takeEffect s c).path.placement = none ∧ (takeEffect s c).monitors = loadedMonitors c ∧
      (takeEffect s c).totals = s.totals ∧ (takeEffect s c).day = s.day ∧ (takeEffect s c).mem = s.mem ∧
      (takeEffect s c).journal = configuredJournal s.configuration c (jobsEnded s).journal := by
  obtain ⟨hpath, m, t, d, e, j, -⟩ := cyclingPart_rest s c
  obtain ⟨hplacement, -⟩ := path_of_installedSide (installedSide_takeEffect s c)
  obtain ⟨hm, ht, hd, he, hj⟩ := units_of_installedSide (installedSide_takeEffect s c)
  refine ⟨?_, hm.trans m, ht.trans t, hd.trans d, he.trans e, hj.trans j⟩
  rw [hplacement, hpath]
  rfl

end

/-- A drawer set from an undetermined sense has its settle pending (R90). -/
theorem settledDrawer_settle {c : Configuration} {h : Fin 17} {d : Drawer} (hactive : c.holderActive h = true)
    (hsense : d.sense = none) : (settledDrawer c h d).settle = true := by
  simp [settledDrawer, hactive, hsense]

theorem configuredDrawers_getElem (c : Configuration) (ds : Vector Drawer 17) (h : Fin 17) :
    (configuredDrawers c ds)[h] =
      { settledDrawer c h ds[h] with forced := (settledDrawer c h ds[h]).forced && c.holderActive h } := by
  simp [configuredDrawers]

theorem installedConfigurationTakesEffect_claim : Claims.InstalledConfigurationTakesEffect := by
  intro s c hr hplacement hfree
  refine ⟨_, exec_installWindowMap_of_placement hr hplacement hfree, ?_⟩
  have hbooks := books_of_view (view_conclude s (takeEffect s c))
  have hwindows := windows_of_install hbooks
  have hdrawers := takeEffect_drawers s c
  have hconfig := takeEffect_config s c
  have hcontroller := takeEffect_controller s c
  obtain ⟨hnone, hmonitors, htotals, hday, hmem, hjournal⟩ := takeEffect_units (s := s) (c := c)
  generalize conclude s (takeEffect s c) = t at *
  generalize takeEffect s c = u at *
  refine ⟨(congrArg (·.path.placement) hbooks).trans hnone, (congrArg (·.control.config) hbooks).trans hconfig, ?_,
    fun k => ?_, (congrArg (·.monitors) hbooks).trans hmonitors, (congrArg (·.totals) hbooks).trans htotals,
    (congrArg (·.day.state) hbooks).trans (congrArg (·.state) hday), (congrArg (·.mem) hbooks).trans hmem,
    fun h => ?_, fun d => ?_, fun hchanged => ?_⟩
  · rw [hwindows, configuredWindows_control]
  · rw [hwindows, configuredWindows_placed]
    rfl
  · have hdrawer : t.drawers[h] = _ :=
      (congrArg (·[h]) ((congrArg (·.drawers) hbooks).trans hdrawers)).trans (configuredDrawers_getElem c s.drawers h)
    obtain ⟨-, hstate, hlimit⟩ := settledDrawer_timers c h s.drawers[h]
    rw [hdrawer]
    refine ⟨fun hactive hsense => ⟨hstate.trans (if_pos ⟨hactive, hsense⟩), hlimit.trans (if_pos ⟨hactive, hsense⟩)⟩,
      fun hactive hsense => hstate.trans (if_neg ?_),
      fun hactive hsense => ⟨hstate.trans (if_neg ?_), settledDrawer_settle hactive hsense⟩,
      fun hinactive => ⟨hstate.trans (if_neg ?_), ?_⟩⟩
    · rw [hsense]; simp
    · rw [hsense]; simp
    · rw [hinactive]; simp
    · change (_ && c.holderActive h) = false
      rw [hinactive, Bool.and_false]
  · have hmode := (congrArg (·.mode) (controllers_of_books hbooks d)).trans (congrArg (·.mode) (hcontroller d))
    exact hmode
  · have hnew : ¬(s.configuration.size = c.size ∧ s.configuration.bases[4] = c.bases[4]) := by
      rintro ⟨hsize, hbase⟩
      exact hchanged.elim (· hsize) (· hbase)
    have habsent : u.journal = _ := hjournal.trans (if_neg hnew)
    exact ⟨(congrArg (·.journal.present) hbooks).trans (congrArg (·.present) habsent),
      (congrArg (·.journal.free) hbooks).trans (congrArg (·.free) habsent)⟩

theorem heldReadDelaysTheInstallation : Claims.HeldReadDelaysTheInstallation := by
  intro s c hr hplacement hheld
  refine gives_conclude hr (exec_installWindowMap s) ?_
  simp only [hplacement, hheld, if_true]

/-! ### The terminals (R124, R127, R134) -/

theorem onLine_iff {c : Configuration} {d : Fin 2} {p : Fin 16} :
    c.onLine d p = true ↔
      c.positions[p].enabled = 1 ∧ c.positions[p].line = d.val ∧ (c.dropPort d).isSome = true := by
  simp only [Configuration.onLine, Configuration.positionEnabled, Bool.and_eq_true, beq_iff_eq, and_assoc]

/-- What an installation keeps and clears of every position. -/
theorem configuredPosition_kept (c : Configuration) (moved : Bool) (p : Fin 16) (q : Position) :
    let r := configuredPosition c moved p q
    r.bell = false ∧ r.echo = false ∧ r.message.text = [] ∧ r.producer = q.producer ∧ r.writeAt = q.writeAt ∧
      r.consumer = q.consumer ∧ r.ring = q.ring ∧ r.composition = q.composition ∧
      r.imageDirty = if moved && c.positionEnabled p then BitVec.allOnes 20 else q.imageDirty := by
  unfold configuredPosition
  dsimp only
  split <;> exact ⟨rfl, rfl, rfl, rfl, rfl, rfl, rfl, rfl, rfl⟩

/-- The port of a drop line is no printer's, and no other drop line's (R198). -/
theorem dropPort_apart {c : Configuration} {d : Fin 2} {k : Fin 6} (hport : c.dropPort d = some k) :
    (¬∃ j, c.printerPort j = some k) ∧ ∀ e, c.dropPort e = some k → e = d := by
  have hrole := ((portWithRole_first c _).2 k hport).1
  constructor
  · rintro ⟨j, hj⟩
    have := ((portWithRole_first c _).2 k hj).1
    omega
  · intro e he
    have := ((portWithRole_first c _).2 k he).1
    omega

theorem installationRebuildsTheTerminals : Claims.InstallationRebuildsTheTerminals := by
  intro s c hr hplacement hfree on
  refine ⟨_, exec_installWindowMap_of_placement hr hplacement hfree, ?_⟩
  have hbooks := books_of_view (view_conclude s (takeEffect s c))
  have hposition := takeEffect_position s c
  have hcontroller := takeEffect_controller s c
  have hline := takeEffect_line s c
  have hdirty := fun p => conclude_allDirty s (after := takeEffect s c) (p := p)
  generalize conclude s (takeEffect s c) = t at *
  generalize takeEffect s c = u at *
  generalize (!s.path.windows[2].known || s.configuration.bases[1] != c.bases[1]) = moved at *
  have hon (d : Fin 2) (p : Fin 16) : on d p ↔ c.onLine d p = true := onLine_iff.symm
  have heither (p : Fin 16) : on 0 p ∨ on 1 p ↔ (c.onLine 0 p || c.onLine 1 p) = true := by
    rw [hon, hon, Bool.or_eq_true]
  refine ⟨fun p => ?position, fun d => ?line⟩
  case position =>
    have hkept := positions_of_books hbooks p
    obtain ⟨hbell, hecho, htext, hproducer, hwrite, hconsumer, hring, -, -⟩ :=
      configuredPosition_kept c moved p s.screen.positions[p]
    rw [← hposition] at hbell hecho htext hproducer hwrite hconsumer hring
    refine ⟨(congrArg (·.bell) hkept).trans hbell, (congrArg (·.echo) hkept).trans hecho,
      (congrArg (·.message.text) hkept).trans htext, (congrArg (·.producer) hkept).trans hproducer,
      (congrArg (·.writeAt) hkept).trans hwrite, (congrArg (·.consumer) hkept).trans hconsumer,
      (congrArg (·.ring) hkept).trans hring, fun h => ?_, fun h => ?_⟩
    · have hconfigured := hposition p
      rw [configuredPosition, if_pos ((heither p).mp h)] at hconfigured
      exact ⟨(congrArg (·.state) hkept).trans (congrArg (·.state) hconfigured),
        (congrArg (·.line) hkept).trans (congrArg (·.line) hconfigured),
        (congrArg (·.address) hkept).trans (congrArg (·.address) hconfigured),
        (congrArg (·.missed) hkept).trans (congrArg (·.missed) hconfigured),
        (congrArg (·.skip) hkept).trans (congrArg (·.skip) hconfigured),
        (congrArg (·.pollBit) hkept).trans (congrArg (·.pollBit) hconfigured),
        hdirty p (congrArg (·.dirty) hconfigured)⟩
    · have hconfigured := hposition p
      rw [configuredPosition, if_neg fun hline => h ((heither p).mpr hline)] at hconfigured
      exact (congrArg (·.state) hkept).trans (congrArg (·.state) hconfigured)
  case line =>
    have hpositions : (List.finRange 16).filter (fun p => decide (on d p)) = c.linePositions d :=
      List.filter_congr fun p _ => by rw [Bool.eq_iff_iff, decide_eq_true_eq, hon]
    have hkept := (controllers_of_books hbooks d).trans (congrArg (fun x : Controller => { x with row := [] })
      (hcontroller d))
    refine ⟨fun k p rest hport hfilter => ?_, fun hnone => ?_⟩
    · rw [hpositions] at hfilter
      rw [hfilter] at hkept
      refine ⟨congrArg (·.exchange) hkept, congrArg (·.remaining) hkept, ?_⟩
      have hlines : t.lines[k] = _ := (congrArg (fun x : State => x.lines[k]) hbooks).trans (hline k)
      obtain ⟨hprinter, hother⟩ := dropPort_apart hport
      have hpolls : firstPolls c d = [dropFrame c.positions[p].address 0x02 [0]] := by
        rw [firstPolls, hfilter]
        rfl
      rw [hlines, if_neg hprinter, List.nil_append]
      by_cases hd : d = 0
      · subst hd
        rw [if_pos hport, if_neg (fun h => absurd (hother 1 h) (by decide)), hpolls, List.append_nil]
      · obtain rfl : d = 1 := by omega
        rw [if_pos hport, if_neg (fun h => absurd (hother 0 h) (by decide)), hpolls, List.nil_append]
    · have hempty : c.linePositions d = [] := by
        rw [← hpositions]
        exact List.filter_eq_nil_iff.mpr fun p _ => by simpa using hnone p
      rw [hempty] at hkept
      exact congrArg (·.exchange) hkept

/-! ### The printers and the ports (R150, R198) -/

theorem installationRestartsThePrinters : Claims.InstallationRestartsThePrinters := by
  intro s c hr hplacement hfree
  refine ⟨_, exec_installWindowMap_of_placement hr hplacement hfree, ?_⟩
  have hbooks := books_of_view (view_conclude s (takeEffect s c))
  have hprinter := takeEffect_printer s c
  have hline := takeEffect_line s c
  generalize conclude s (takeEffect s c) = t at *
  generalize takeEffect s c = u at *
  have hprinters (k : Fin 4) : t.passbook.printers[k] = restarted c k :=
    (congrArg (fun x : State => x.passbook.printers[k]) hbooks).trans (hprinter k)
  have hlines (port : Fin 6) : t.lines[port] = _ :=
    (congrArg (fun x : State => x.lines[port]) hbooks).trans (hline port)
  refine ⟨fun k => ⟨fun port hport => ⟨?_, ?_⟩, fun hnone => ?_⟩, fun port hrole => ?_⟩
  · rw [hprinters, restarted, if_neg (by simp [hport])]
  · have hdrop (d : Fin 2) : c.dropPort d ≠ some port := fun h => (dropPort_apart h).1 ⟨k, hport⟩
    rw [hlines, if_pos ⟨k, hport⟩, if_neg (hdrop 0), if_neg (hdrop 1)]
    rfl
  · rw [hprinters, restarted, if_pos hnone]
  · have hapart {n : Nat} (h : c.portWithRole n = some port) : n = 0 ∨ n = 7 ∨ n = 8 :=
      ((portWithRole_first c n).2 port h).1 ▸ hrole
    have hdrop (d : Fin 2) : c.dropPort d ≠ some port := fun h => by
      have := hapart h
      omega
    have hprinter : ¬∃ k, c.printerPort k = some port := by
      rintro ⟨k, hk⟩
      have := hapart hk
      omega
    rw [hlines, if_neg hprinter, if_neg (hdrop 0), if_neg (hdrop 1)]
    rfl

/-! ### The groups of the installation (R132, R196) -/

/-- A group of a ring tells the Control Unit nothing. -/
theorem handGroups_control {gs : List Group} (h : ∀ g ∈ gs, g.producer = .keyRing) (s : State) :
    (handGroups s gs).control = s.control := by
  unfold handGroups
  induction gs generalizing s with
  | nil => rfl
  | cons g gs ih =>
    have hplaced : controlPlaced s.control g.producer = s.control := by rw [h g List.mem_cons_self]; rfl
    rw [List.foldl_cons, ih fun g hg => h g (List.mem_cons_of_mem _ hg)]
    simp only [handGroup, hplaced, ite_self]

section

variable {s : State} {c : Configuration}

theorem cyclingPart_position (p : Fin 16) :
    (cyclingPart s c).screen.positions[p] =
      configuredPosition c (!s.path.windows[2].known || s.configuration.bases[1] != c.bases[1]) p
        s.screen.positions[p] := by
  rw [cyclingPart_eq, withCycle_positions, withCycle_positions, restartedPart_position]

theorem cyclingPart_windows : (cyclingPart s c).path.windows = configuredWindows s.path.windows[0] c := by
  have hcontrol : (jobsEnded s).path.windows = s.path.windows := windows_jobsEnded s
  rw [(cyclingPart_rest s c).1, ← hcontrol]
  rfl

/-- The image of a ring at its new place, 7 doublewords (R132). -/
theorem ringGroup_cyclingPart (p : Fin 16) :
    (ringGroup (cyclingPart s c) p).writes =
      ((List.range 6).map fun j => (c.bases[2] + 0x40 * p.val + 16 + 8 * j,
        dwordOfFields (((s.screen.positions[p].ring.drop (4 * j)).take 4).map fun k => (2, k.toNat)))) ++
        [(c.bases[2] + 0x40 * p.val,
          dwordOfFields [(2, s.screen.positions[p].producer.toNat), (1, s.screen.positions[p].writeAt)])] := by
  obtain ⟨-, -, -, hproducer, hwrite, -, hring, -, -⟩ := configuredPosition_kept c
    (!s.path.windows[2].known || s.configuration.bases[1] != c.bases[1]) p s.screen.positions[p]
  rw [← cyclingPart_position] at hproducer hwrite hring
  have hbase : windowBase (cyclingPart s c) 3 = c.bases[2] := by
    unfold windowBase
    rw [cyclingPart_windows]
    exact congrArg (·.base) (configuredWindows_placed s.path.windows[0] c 2)
  generalize cyclingPart s c = u at *
  simp only [ringGroup, ringDword, keyDword, producerDword, hbase, hring, hproducer, hwrite]
  congr 1
  · refine List.map_congr_left fun j _ => ?_
    congr 1
    omega
  · congr 2
    omega

/-- The end of the jobs and the configuration hand over nothing where the day does not journal. -/
theorem cyclingPart_quiet (hquiet : s.day.state.journals = false) :
    journalWrites (cyclingPart s c).path = journalWrites s.path := by
  have hconfigured (e : State) : journalWrites (withConfiguration e c).path = journalWrites e.path := rfl
  rw [(cyclingPart_rest s c).1, hconfigured, jobsEnded_quiet hquiet]

end

theorem installationWritesTheRingsAndCompletes : Claims.InstallationWritesTheRingsAndCompletes := by
  intro s c hr hplacement hfree hday ring moved
  refine ⟨_, exec_installWindowMap_of_placement hr hplacement hfree, ?_⟩
  have hquiet : s.day.state.journals = false := by rcases hday with h | h <;> rw [h] <;> rfl
  have hcontrol : (ringsHanded s c).control = (cyclingPart s c).control := by
    unfold ringsHanded
    split
    · refine handGroups_control (fun g hg => ?_) _
      obtain ⟨p, -, rfl⟩ := List.mem_map.mp hg
      rfl
    · rfl
  have htaken : takenTag (ringsHanded s c) = takenTag s := by
    unfold takenTag
    rw [hcontrol, (cyclingPart_rest s c).2.2.2.2.2.2]
  have hbase : windowBase (ringsHanded s c) 0 = s.path.windows[0].base := by
    unfold windowBase
    rw [(path_of_installedSide (installedSide_ringsHanded s c)).2, cyclingPart_windows]
    exact congrArg (·.base) (configuredWindows_control _ _)
  have hmoved : (!s.path.windows[3].known || s.configuration.bases[2] != c.bases[2]) = true ↔ moved := by
    simp [moved]
  have hrings : journalWrites (ringsHanded s c).path =
      journalWrites s.path ++ if moved then (List.finRange 16).flatMap ring else [] := by
    unfold ringsHanded
    by_cases hm : moved
    · rw [if_pos (hmoved.mpr hm), if_pos hm, journalWrites_handGroups, cyclingPart_quiet hquiet, List.flatMap_map]
      exact congrArg _ (List.flatMap_congr fun p _ => ringGroup_cyclingPart p)
    · rw [if_neg fun h => hm (hmoved.mp h), if_neg hm, cyclingPart_quiet hquiet, List.append_nil]
  calc journalWrites (conclude s (takeEffect s c)).path
      = journalWrites (complete (ringsHanded s c) .done 0).path := congrArg Prod.snd (view_conclude s (takeEffect s c))
    _ = journalWrites (ringsHanded s c).path ++
          [(windowBase (ringsHanded s c) 0 + 0x1838, completionDword (takenTag (ringsHanded s c)) .done 0)] :=
        journalWrites_complete _ _ _
    _ = _ := by rw [hrings, hbase, htaken]

/-! ### The Mirror and the status rows (R136, R137, R199) -/

section

variable {s : State} {c : Configuration}

/-- The whole Mirror is dirty once a configuration has taken effect. -/
theorem takeEffect_mirrorDirty {k : Nat} (hk : k ∈ mirrorNumbers) :
    (pumpFetches 256 (takeEffect s c)).control.mirrorDirty.getLsbD k = true := by
  obtain ⟨e, -, hshown⟩ := takeEffect_shown s c
  have hdirty : (pumpFetches 256 (takeEffect s c)).control.mirrorDirty = e.control.mirrorDirty ||| wholeMirror :=
    congrArg (·.2.2.1) ((shownOf_pumpFetches 256 (takeEffect s c)).trans hshown)
  rw [hdirty, BitVec.getLsbD_or, (wholeMirror_holds k hk).1, Bool.or_true]

end

/-- What a step leaves of an enabled position's status row (R136, R137). -/
theorem conclude_enabledRow (before : State) {after : State} {p : Fin 16} {j : Nat} (hj : j < 20)
    (henabled : (pumpFetches 256 after).configuration.positionEnabled p = true)
    (hfresh : after.screen.positions[p].composition = none ∨
      after.screen.positions[p].imageDirty = BitVec.allOnes 20) :
    (conclude before after).screen.positions[p].imageDirty.getLsbD j = true ∨
      mirrorEntry (conclude before after).path (rowImageAddress (conclude before after) p j)
        (· = dwordOfBytes ((composeRow (conclude before after) p).drop (8 * j))) := by
  obtain ⟨hshows, hdirty⟩ := recomposed_row (pumpFetches 256 after) p henabled j hj
  rw [pumpFetches_positions] at hdirty
  have hposition : (recomposeRows (pumpFetches 256 after)).screen.positions[p] =
      recomposed (pumpFetches 256 after) p := by
    simp [recomposeRows]
  have hrow := conclude_rows before after p j hj (by rw [hposition]; exact hdirty hfresh)
  have hcells : rowDword (conclude before after).screen.positions[p] j =
      dwordOfBytes ((composeRow (conclude before after) p).drop (8 * j)) := by
    rw [rowDword_congr (conclude_composition before after p), hposition, hshows,
      composeRow_of_view ((view_conclude before after).trans (view_pumpFetches 256 after).symm)]
  rw [← hcells]
  exact hrow

theorem conclude_disabledRow (before : State) {after : State} {p : Fin 16}
    (hdisabled : (pumpFetches 256 after).configuration.positionEnabled p = false) :
    (conclude before after).screen.positions[p].composition = none := by
  have hposition : (recomposeRows (pumpFetches 256 after)).screen.positions[p] =
      recomposed (pumpFetches 256 after) p := by
    simp [recomposeRows]
  rw [conclude_composition, hposition, recomposed]
  dsimp only
  rw [if_neg (by simp [hdisabled])]
  split
  · next h => simpa using h
  · rfl

theorem installationRenewsTheMirrorAndTheRows : Claims.InstallationRenewsTheMirrorAndTheRows := by
  intro s c hr hplacement hfree moved mirror row
  refine ⟨_, exec_installWindowMap_of_placement hr hplacement hfree, ?_⟩
  have hbooks := books_of_view (view_conclude s (takeEffect s c))
  have hwindows := windows_of_install hbooks
  have hdirty := fun k hk => takeEffect_mirrorDirty (s := s) (c := c) (k := k) hk
  have hposition := takeEffect_position s c
  have hconfiguration : (pumpFetches 256 (takeEffect s c)).configuration = c :=
    congrArg (·.getD noConfiguration) ((congrArg (·.control.config)
      (books_of_view (view_pumpFetches 256 (takeEffect s c)))).trans (takeEffect_config s c))
  generalize takeEffect s c = u at *
  have hmirror (k : Nat) : windowBase (conclude s u) 4 + 8 * k = mirror k := by
    unfold windowBase
    rw [hwindows]
    exact congrArg (fun w : Window => w.base + 8 * k) (configuredWindows_placed s.path.windows[0] c 3)
  have hrows (p : Fin 16) (j : Nat) : rowImageAddress (conclude s u) p j = row p j := by
    unfold rowImageAddress
    rw [hwindows]
    exact congrArg (fun w : Window => w.base + p.val * 0x1000 + 0xE60 + 8 * j)
      (configuredWindows_placed s.path.windows[0] c 1)
  refine ⟨fun k hk => ?mirror, fun p henabled hfresh j hj => ?row, fun p hdisabled => ?none⟩
  case mirror =>
    refine (conclude_mirror s u k (wholeMirror_holds k hk).2 (hdirty k hk)).imp_right ?_
    rintro ⟨e, he, hclass, haddress, hdata⟩
    refine ⟨e, he, hclass, haddress.trans (hmirror k), fun hapart => hdata fun p j hj => ?_⟩
    rw [hrows, hmirror]
    exact hapart p j hj
  case row =>
    have hpositionEnabled : c.positionEnabled p = true := beq_iff_eq.mpr henabled
    obtain ⟨-, -, -, -, -, -, -, hcomposition, himage⟩ := configuredPosition_kept c
      (!s.path.windows[2].known || s.configuration.bases[1] != c.bases[1]) p s.screen.positions[p]
    rw [← hposition] at hcomposition himage
    have hshown : u.screen.positions[p].composition = none ∨ u.screen.positions[p].imageDirty = BitVec.allOnes 20 := by
      rcases hfresh with hmoved | hnone
      · refine .inr (himage.trans (if_pos ?_))
        simpa [hpositionEnabled] using hmoved
      · exact .inl (hcomposition.trans hnone)
    refine (conclude_enabledRow s hj (by rw [hconfiguration]; exact hpositionEnabled) hshown).imp_right ?_
    rintro ⟨e, he, hclass, haddress, hdata⟩
    exact ⟨e, he, hclass, haddress.trans (hrows p j), hdata⟩
  case none =>
    refine conclude_disabledRow s ?_
    rw [hconfiguration]
    simpa [Configuration.positionEnabled] using hdisabled

/-- Settles O44. -/
theorem installedConfigurationTakesEffect : Obligations.InstalledConfigurationTakesEffect :=
  ⟨installedConfigurationTakesEffect_claim, heldReadDelaysTheInstallation, installationRebuildsTheTerminals,
    installationRestartsThePrinters, installationWritesTheRingsAndCompletes, installationRenewsTheMirrorAndTheRows⟩

end Sys2Proof.Machine
end

