-- ==== Sys2Proof/Proofs/DayCommands.lean ====
section
/-! SUPPORT. How OPEN_DAY and RESUME_DAY begin (R168, R169, R175), and what each replayed entry does (R104, R160, R176,
R177, R190). -/

namespace Sys2Proof.Machine

/-! ### OPEN_DAY and RESUME_DAY (R168, R169, R175) -/

/-- The placing of a completion tells Day Control nothing. -/
theorem complete_day (s : State) (status : Status) (detail : Nat) : (complete s status detail).day = s.day := ite_self _

/-- Day Control's figures are written before a completion or after it. -/
theorem complete_withDay (u : State) (d : Day) (status : Status) (detail : Nat) :
    complete { u with day := d } status detail = { complete u status detail with day := d } := by
  have hgroup (last : Bool) (writes : List (Nat × Dword)) :
      handGroup { u with day := d } ⟨.completion last, writes⟩ =
        { handGroup u ⟨.completion last, writes⟩ with day := d } := by
    simp only [handGroup]
    split <;> rfl
  exact hgroup _ _

/-- Of a fetch of the records the books show its work alone. -/
theorem view_fetchRecords (u : State) (status : Status) (detail : Nat) (work : DayWork) :
    view (fetchRecords (complete u status detail) work) =
      view (complete { u with day := { u.day with work := some work } } status detail) := by
  rw [fetchRecords, view_requestFetch, complete_withDay u { u.day with work := some work }, complete_day]
  rfl

/-- The books show no record buffer. -/
theorem view_complete_records (u : State) (records : Vector RecordBuffer 2) (status : Status) (detail : Nat) :
    view (complete { u with day := { u.day with records := records } } status detail) =
      view (complete u status detail) := by
  rw [complete_withDay u { u.day with records := records }, ← complete_day u status detail]
  rfl

theorem commandOpenDay_refused {u : State} (h : (u.day.state ≠ .setup ∧ u.day.state ≠ .settled) ∨
    u.control.config = none ∨ u.day.settlement ≠ none ∨
    (laneField (argument u 2) 0 1 = 1 ∧ u.day.state = .settled)) : commandOpenDay u = complete u .refusedState 0 := by
  rw [commandOpenDay, if_pos]
  obtain ⟨hsetup, hsettled⟩ | h | h | ⟨hfresh, h⟩ := h
  · simp [hsetup, hsettled]
  · simp [h]
  · simp [Option.isSome_iff_ne_none.mpr h]
  · simp [h, hfresh]

/-- OPEN_DAY where its state is not refused (R168, R169). -/
theorem commandOpenDay_open {u : State} (h : ¬((u.day.state ≠ .setup ∧ u.day.state ≠ .settled) ∨
    u.control.config = none ∨ u.day.settlement ≠ none ∨
    (laneField (argument u 2) 0 1 = 1 ∧ u.day.state = .settled))) :
    commandOpenDay u =
      let date := laneField (argument u 0) 0 4
      let time := laneField (argument u 1) 0 4
      let fresh := laneField (argument u 2) 0 1
      if !dateValid date || decide (172799 < time) || decide (1 < fresh) then complete u .badArgument 0
      else if fresh = 0 then fetchRecords (complete u .inProgress 0) (.openFetching date time)
      else handGroups (complete { u with day := { u.day with work := some (.openWriting date time) } } .inProgress 0)
        (freshGroups u) := by
  rw [commandOpenDay, if_neg]
  obtain ⟨hstate, hconfig, hsettlement, hfresh⟩ : (u.day.state ≠ .setup → u.day.state = .settled) ∧
      u.control.config ≠ none ∧ u.day.settlement = none ∧
      (laneField (argument u 2) 0 1 = 1 → u.day.state ≠ .settled) := by
    push Not at h
    exact h
  obtain ⟨c, hc⟩ := Option.ne_none_iff_exists'.mp hconfig
  by_cases hsetup : u.day.state = .setup
  · simp [hsetup, hc, hsettlement]
  · have hsettled := hstate hsetup
    have hnot : laneField (argument u 2) 0 1 ≠ 1 := fun hone => hfresh hone hsettled
    simp [hsettled, hc, hsettlement, hnot]

theorem openDayBegins : Claims.OpenDayBegins := by
  intro s addr mask data hcommand t date time fresh valid refused
  have harguments : ∀ i, argument t i = s.control.arguments[i] := argument_commandTaken s addr mask data
  have hconfig : t.control.config = s.control.config := config_commandTaken s addr mask data
  have hdate : laneField (argument t 0) 0 4 = date := congrArg (laneField · 0 4) (harguments 0)
  have htime : laneField (argument t 1) 0 4 = time := congrArg (laneField · 0 4) (harguments 1)
  have hfresh : laneField (argument t 2) 0 1 = fresh := congrArg (laneField · 0 1) (harguments 2)
  have hrefused : refused ↔ (t.day.state ≠ .setup ∧ t.day.state ≠ .settled) ∨ t.control.config = none ∨
      t.day.settlement ≠ none ∨ (laneField (argument t 2) 0 1 = 1 ∧ t.day.state = .settled) := by
    rw [hconfig, hfresh]
    rfl
  refine ⟨fun h => gives_command hcommand (exec_openDay s) (commandOpenDay_refused (hrefused.mp h)),
    fun h => ?_⟩
  have hopen := commandOpenDay_open (mt hrefused.mpr h)
  simp only [hdate, htime, hfresh] at hopen
  refine ⟨fun hbad => ?bad, fun hvalid hlow hzero => ?fetches, fun hvalid hlow hone => ?writes⟩
  case bad =>
    refine gives_command hcommand (exec_openDay s) (hopen.trans (if_pos ?_))
    obtain hvalid | hlate | hflag := hbad
    · simp [mt (dateValid_iff date).mp hvalid]
    · simp [hlate]
    · simp [hflag]
  case fetches =>
    refine gives_of_running hcommand.1.1 (exec_openDay s) ((congrArg view (grantCommand_eq hcommand)).trans ?_)
    have hfits : ¬(!dateValid date || decide (172799 < time) || decide (1 < fresh)) = true := by
      simp [(dateValid_iff date).mpr hvalid, hlow, hzero]
    have hbody := hopen.trans ((if_neg hfits).trans (if_pos hzero))
    exact (congrArg view hbody).trans (view_fetchRecords t .inProgress 0 (.openFetching date time))
  case writes =>
    refine gives_command hcommand (exec_openDay s) (hopen.trans ((if_neg ?_).trans (if_neg (by omega))))
    simp [(dateValid_iff date).mpr hvalid, hlow, hone]

theorem resumeDayBegins : Claims.ResumeDayBegins := by
  intro s addr mask data hcommand t time
  have hargument : laneField (argument t 0) 0 4 = time :=
    congrArg (laneField · 0 4) (argument_commandTaken s addr mask data 0)
  have hconfig : t.control.config = s.control.config := config_commandTaken s addr mask data
  refine ⟨fun h => gives_command hcommand (exec_resumeDay s) (if_pos ?_), fun hstate hconfigured => ⟨fun hlate => ?_,
    fun htime => ?_⟩⟩
  · rw [Bool.or_eq_true, hconfig]
    obtain h | h := h
    · exact .inl (bne_iff_ne.mpr h)
    · exact .inr (by simp [h])
  all_goals
    have hnot : ¬(t.day.state != .setup || t.control.config.isNone) = true := by
      obtain ⟨c, hc⟩ := Option.ne_none_iff_exists'.mp hconfigured
      rw [hconfig, hc, show t.day.state = .setup from hstate]
      exact Bool.false_ne_true
  · refine gives_command hcommand (exec_resumeDay s) ((if_neg hnot).trans (if_pos ?_))
    rwa [hargument]
  · refine gives_of_running hcommand.1.1 (exec_resumeDay s) ((congrArg view (grantCommand_eq hcommand)).trans ?_)
    have hbody := commandResumeDay_taken (u := t) hstate (by rwa [hconfig]) (by omega)
    rw [hargument] at hbody
    exact (congrArg view hbody).trans (view_fetchRecords _ .inProgress 0 .resumeChoosing)

/-! ### The postings replayed (R104, R176) -/

theorem find?_append_of_none {α : Type} {p : α → Bool} {a b : List α} (h : ∀ x ∈ a, p x = false) :
    (a ++ b).find? p = b.find? p := by
  rw [List.find?_append, List.find?_eq_none.mpr fun x hx => by simp [h x hx], Option.none_or]

theorem replayKnowsTheKinds : Claims.ReplayKnowsTheKinds := by
  intro r a b n k hkinds hfirst
  rw [replayedKind, hkinds, find?_append_of_none fun x hx => by simpa using hfirst x hx]
  simp

/-- The counts kept, position by position. -/
theorem take_append_replicate_eq_mapIdx (n : Nat) (counts : List Nat) :
    counts.take n ++ List.replicate (counts.length - n) 0 = counts.mapIdx fun i x => if i < n then x else 0 := by
  refine List.ext_getElem (by simp; omega) fun i h₁ h₂ => ?_
  rw [List.getElem_mapIdx]
  split
  · next hi => rw [List.getElem_append_left (by simp at h₂ ⊢; omega), List.getElem_take]
  · next hi => rw [List.getElem_append_right (by simp; omega), List.getElem_replicate]

theorem keptCounts_eq (c : Configuration) (currency : Nat) (counts : List Nat) :
    keptCounts c currency counts = counts.mapIdx fun i x =>
      if ∀ j : Fin 4, currency = j.val → i < c.denominations j then x else 0 := by
  unfold keptCounts
  split
  · next hnone =>
    have habove : 4 ≤ currency := indexOf_eq_none.mp hnone
    refine List.ext_getElem (by simp) fun i h₁ h₂ => ?_
    rw [List.getElem_mapIdx, if_pos fun j hj => by omega]
  · next k hsome =>
    obtain rfl : currency = k.val := indexOf_eq_some.mp hsome
    rw [take_append_replicate_eq_mapIdx]
    congr 1
    funext i x
    congr 1
    exact propext ⟨fun h j hj => Fin.ext hj ▸ h, fun h => h k rfl⟩

theorem cashForm_iff (form : Nat) : cashForm form = true ↔ 1 ≤ form ∧ form ≤ 4 ∨ form = 6 := by
  simp only [cashForm, Bool.or_eq_true, beq_iff_eq]
  omega

/-- An entry after DAY_OPEN with no posting waiting. -/
theorem replayEntry_alone {s : State} (hlast : s.day.replay.last ≠ 0) (hnone : s.day.replay.posting = none)
    (n : Nat) (e : List Byte) :
    replayEntry s n e =
      if (entryFields e).kind = 2 then
        if cashForm (replayedForm s.day.replay (entryFields e)) then
          some (setReplay s { s.day.replay with posting := some e })
        else if (entryFields e).code = 5 ∨ (entryFields e).code = 7 then
          some (replayedTo (replayPosting s n (entryFields e) (List.replicate 64 0)) n (entryChain e))
        else some (replayedTo s n (entryChain e))
      else (replayOther s n (entryFields e)).map fun t => replayedTo t n (entryChain e) := by
  rw [replayEntry, if_neg fun h => hlast h.1]
  simp only [hnone]

/-- An entry after a posting that waits for its BREAKDOWN. -/
theorem replayEntry_waiting {s : State} {p : List Byte} (hsome : s.day.replay.posting = some p) (n : Nat)
    (e : List Byte) :
    replayEntry s n e =
      if (entryFields e).kind = 3 ∧ (entryFields e).code = (entryFields p).code then
        some (replayedTo (replayPosting s (entryNumber p) (entryFields p) e) n (entryChain e))
      else none := by
  rw [replayEntry, if_neg fun h => Option.some_ne_none p (hsome.symm.trans h.2)]
  simp only [hsome]

theorem replayBooksPostings : Claims.ReplayBooksPostings := by
  intro s n e hlast c r kept moved booked form cash f
  have hkept (k : Nat) (counts : List Nat) : keptCounts c k counts = kept k counts := keptCounts_eq c k counts
  have hcash (g : EntryFields) : cashForm (replayedForm r g) = true ↔ cash (form g) := cashForm_iff (form g)
  have hbooked (number : Nat) (g : EntryFields) (b : List Byte) :
      replayedTo (replayPosting s number g b) n (entryChain e) = booked number g (form g) b := by
    simp only [replayedTo, setReplay, replayPosting, replayMovement, booked, ← hkept]
    rfl
  refine ⟨fun hnone hkind hform => ?_, fun hnone hkind hform hcode => ?_, fun hnone hkind hform hfive hseven => ?_,
    fun p hsome => ?_⟩
  · exact (replayEntry_alone hlast hnone n e).trans ((if_pos hkind).trans (if_pos ((hcash f).mpr hform)))
  · exact (replayEntry_alone hlast hnone n e).trans ((if_pos hkind).trans ((if_neg (mt (hcash f).mp hform)).trans
      ((if_pos hcode).trans (congrArg some (hbooked n f _)))))
  · exact (replayEntry_alone hlast hnone n e).trans ((if_pos hkind).trans ((if_neg (mt (hcash f).mp hform)).trans
      (if_neg (not_or.mpr ⟨hfive, hseven⟩))))
  · intro g
    have hwaiting := replayEntry_waiting hsome n e
    exact ⟨fun hkind hcode => hwaiting.trans ((if_pos ⟨hkind, hcode⟩).trans (congrArg some (hbooked _ g e))),
      fun h => hwaiting.trans (if_neg h)⟩

/-! ### The items replayed (R42, R74, R160) -/

theorem reversedAmount_receive (number : Nat) (f : EntryFields) : reversedAmount number 1 f = -f.amountA := by
  rw [reversedAmount_sided (.inl rfl)]
  rfl

theorem reversedAmount_pay (number : Nat) (f : EntryFields) : reversedAmount number 2 f = f.amountA := by
  rw [reversedAmount_sided (.inr (.inl rfl))]
  exact Int.neg_neg _

theorem reversedAmount_noncash (number : Nat) (f : EntryFields) :
    reversedAmount number 5 f = if flagSet f.flags 3 = true then f.amountA else -f.amountA := by
  rw [reversedAmount_sided (.inr (.inr rfl)), itemSide, if_neg (by decide), if_neg (by decide)]
  split <;> simp

theorem pendingOf_iff (items : List ReplayItem) (f : EntryFields) :
    (items.any fun i => i.item.key == f.ref && i.condition == .pending) = true ↔
      ∃ i ∈ items, i.item.key = f.ref ∧ i.condition = .pending := by
  simp

theorem replayedPostingsTrackItems : Claims.ReplayedPostingsTrackItems := by
  intro items number form f k hcurrency flag debit side cancels
  have hindex : indexOf 4 f.currencyA = some k := indexOf_eq_some.mpr hcurrency
  refine ⟨fun hflag hform => ?_, fun h => ?_, reversedAmount number form f, reversedAmount_cases number form f, ?_, ?_,
    ?_, fun hcancels => ?_, fun hcancels => ?_⟩
  · rw [replayItem, hindex]
    refine if_pos ?_
    simpa [flag, hflag, or_assoc] using hform
  · rw [replayItem, hindex]
    refine if_neg ?_
    obtain h | h | h | h := h
    · simp [flag, h]
    all_goals simp [h]
  · rintro rfl
    exact reversedAmount_receive number f
  · rintro rfl
    exact reversedAmount_pay number f
  · rintro rfl
    exact reversedAmount_noncash number f
  · rw [replayReversal, hindex]
    refine (if_pos ((pendingOf_iff items f).mpr hcancels)).trans ?_
    simp only [beq_iff_eq]
    rfl
  · rw [replayReversal, hindex]
    exact if_neg (mt (pendingOf_iff items f).mp hcancels)

theorem addReplayItem_perm (i : ReplayItem) (items : List ReplayItem) : (addReplayItem i items).Perm (i :: items) := by
  induction items with
  | nil => exact .refl _
  | cons j rest ih =>
    rw [addReplayItem]
    split
    · exact (ih.cons j).trans (.swap i j rest)
    · exact .refl _

theorem addReplayItem_sorted (i : ReplayItem) {items : List ReplayItem}
    (h : items.Pairwise fun a b => a.item.key ≤ b.item.key) :
    (addReplayItem i items).Pairwise fun a b => a.item.key ≤ b.item.key := by
  induction items with
  | nil => exact List.pairwise_singleton _ _
  | cons j rest ih =>
    obtain ⟨hj, hrest⟩ := List.pairwise_cons.mp h
    rw [addReplayItem]
    split
    · next hle =>
      refine List.pairwise_cons.mpr ⟨fun b hb => ?_, ih hrest⟩
      obtain rfl | hb := List.mem_cons.mp ((addReplayItem_perm i rest).mem_iff.mp hb)
      · exact hle
      · exact hj b hb
    · next hnot =>
      refine List.pairwise_cons.mpr ⟨fun b hb => ?_, h⟩
      obtain rfl | hb := List.mem_cons.mp hb
      · omega
      · exact le_trans (by omega) (hj b hb)

theorem printedBy_eq (f : EntryFields) (i : ReplayItem) :
    printedBy f i = if flagSet f.flags 0 = true then
        decide (i.item.account = f.account ∧ f.tag ≤ i.item.key ∧ i.item.key ≤ f.ref ∧
          (i.condition = .pending ∨ i.condition = .cancelled))
      else decide (i.item.key = f.ref) := by
  rw [printedBy]
  split
  · rw [Bool.eq_iff_iff]
    simp [and_assoc]
  · rw [Bool.eq_iff_iff]
    simp

theorem replayedPrintsSettleItems : Claims.ReplayedPrintsSettleItems := by
  refine ⟨fun items f => ?_, fun items i h => ⟨addReplayItem_sorted i h, addReplayItem_perm i items⟩, fun items => rfl⟩
  intro printed back
  have hprinted (i : ReplayItem) : printedBy f i = printed i := printedBy_eq f i
  have hback : notedItems f items = back := by
    simp only [notedItems, back, hprinted, Bool.and_eq_true, beq_iff_eq]
  refine ⟨?_, ?_⟩
  · rw [replayPrinted, hback]
    simp only [hprinted]
    rfl
  · simp only [replayUntracked, beq_iff_eq]

/-! ### The other entries replayed (R104, R160, R176, R177) -/

/-- An entry that is no POSTING, with no posting waiting. -/
theorem replayEntry_other {s : State} (hlast : s.day.replay.last ≠ 0) (hnone : s.day.replay.posting = none)
    (n : Nat) {e : List Byte} (hkind : (entryFields e).kind ≠ 2) :
    replayEntry s n e = (replayOther s n (entryFields e)).map fun t => replayedTo t n (entryChain e) := by
  rw [replayEntry_alone hlast hnone, if_neg hkind]

theorem replayEntry_goes {s u : State} (hlast : s.day.replay.last ≠ 0) (hnone : s.day.replay.posting = none)
    (n : Nat) {e : List Byte} (hkind : (entryFields e).kind ≠ 2)
    (hother : replayOther s n (entryFields e) = some u) :
    replayEntry s n e = some (replayedTo u n (entryChain e)) := by
  rw [replayEntry_other hlast hnone n hkind, hother]
  rfl

theorem replayEntry_ends {s : State} (hlast : s.day.replay.last ≠ 0) (hnone : s.day.replay.posting = none)
    (n : Nat) {e : List Byte} (hkind : (entryFields e).kind ≠ 2) (hother : replayOther s n (entryFields e) = none) :
    replayEntry s n e = none := by
  rw [replayEntry_other hlast hnone n hkind, hother]
  rfl

theorem replayOther_passed {s : State} {n : Nat} {f : EntryFields}
    (h : f.kind = 6 ∨ f.kind = 8 ∨ f.kind = 13 ∨ f.kind = 14) : replayOther s n f = some s := by
  obtain h | h | h | h := h <;> simp [replayOther, h]

theorem replayOther_unknown {s : State} {n : Nat} {f : EntryFields} (h : f.kind < 2 ∨ f.kind = 3 ∨ 19 < f.kind) :
    replayOther s n f = none := by
  unfold replayOther
  split
  rotate_right
  · rfl
  all_goals omega

theorem replayFired_already {s : State} {f : EntryFields} {m : Fin 8} (hm : f.ref = m.val)
    (h : s.monitors.fired[m] = true) : replayFired s f = s := by
  rw [replayFired, indexOf_eq_some.mpr hm]
  exact if_pos h

theorem replayFired_new {s : State} {f : EntryFields} {m : Fin 8} (hm : f.ref = m.val)
    (h : s.monitors.fired[m] = false) :
    replayFired s f = { s with
      monitors := { s.monitors with
        fired := s.monitors.fired.set m true,
        freeze := if f.code = 3 ∧ s.monitors.freeze = none then some m else s.monitors.freeze },
      totals := holdFor s.totals (indexOf 17 f.holderA) f.code } := by
  rw [replayFired, indexOf_eq_some.mpr hm]
  exact if_neg (Bool.eq_false_iff.mp h)

theorem holdFor_nothing {t : Totals} {v action : Nat} (h : action ≠ 2 ∨ 17 ≤ v) :
    holdFor t (indexOf 17 v) action = t := by
  unfold holdFor
  split
  · rfl
  · next k hk =>
    have hv : v = k.val := indexOf_eq_some.mp hk
    exact if_neg (by omega)

theorem replayFollowsTheOtherEntries : Claims.ReplayFollowsTheOtherEntries := by
  intro s n e hlast hnone f t mon go flagged
  have hgo {u : State} (hkind : f.kind ≠ 2) (h : replayOther s n f = some u) : go u :=
    replayEntry_goes hlast hnone n hkind h
  refine ⟨fun hk => ?_, fun hk => ?_, fun hk => ?_, fun hk => ?_, fun h hh => ⟨fun hk => ?_, fun hk => ?_⟩,
    fun m hm => ⟨fun hk => ?_, fun hk hfired => ?_, fun hk hfired => ?_⟩, fun hk => ?_⟩
  · exact hgo (by omega) (by simp [replayOther, hk, t])
  · exact hgo (by omega) (by simp [replayOther, hk, setReplayItems])
  · exact hgo (by omega) (by simp [replayOther, hk, setReplayItems])
  · exact hgo (by omega) (replayOther_passed hk)
  · have hindex : indexOf 17 f.ref = some h := indexOf_eq_some.mpr hh
    refine hgo (by omega) ?_
    simp only [replayOther, hk, replayHoldReleased, hindex]
    rfl
  · have hindex : indexOf 17 f.ref = some h := indexOf_eq_some.mpr hh
    refine hgo (by omega) ?_
    simp only [replayOther, hk, replayForced, hindex]
    rfl
  · have hindex : indexOf 8 f.ref = some m := indexOf_eq_some.mpr hm
    refine hgo (by omega) ?_
    simp only [replayOther, hk, replayCleared, hindex]
    rfl
  · refine hgo (by omega) ?_
    simp only [replayOther, hk]
    exact congrArg some (replayFired_already hm hfired)
  · intro fired
    have hother : replayOther s n f = some (replayFired s f) := by simp only [replayOther, hk]
    have hnew := replayFired_new hm hfired
    refine ⟨fun h hcode hholder => ?_, fun h => ?_⟩
    · refine hgo (by omega) (hother.trans (congrArg some (hnew.trans ?_)))
      have hheld : holdFor s.totals (indexOf 17 f.holderA) f.code =
          setFlags s.totals h { s.totals.flags[h] with held := true } := by
        rw [indexOf_eq_some.mpr hholder]
        exact if_pos hcode
      rw [hheld]
      rfl
    · refine hgo (by omega) (hother.trans (congrArg some (hnew.trans ?_)))
      rw [holdFor_nothing h]
  · exact replayEntry_ends hlast hnone n (show f.kind ≠ 2 by omega) (replayOther_unknown hk)

/-! ### The day-control entries replayed (R176, R177, R190) -/

theorem replayOther_dayControl (s : State) (n : Nat) {f : EntryFields}
    (h : f.kind = 15 ∨ f.kind = 16 ∨ f.kind = 17 ∨ f.kind = 18 ∨ f.kind = 19) :
    replayOther s n f = (replayedState f.kind s.day.replay.state).map fun d =>
      let moved := if f.kind = 16 then replayBatch s n f else s
      setReplay moved { moved.day.replay with state := d } := by
  obtain h | h | h | h | h := h <;> simp [replayOther, h]

theorem replayedState_cutOff (d : DayState) : replayedState 15 d = if d = .opened then some .closing else none := rfl

theorem replayedState_batch (d : DayState) :
    replayedState 16 d = if d = .closing ∨ d = .suspended ∨ d = .rejected then some .sending else none := rfl

/-- The last day-control entries follow from a day whose batch was begun. -/
theorem replayedState_begun (d : DayState) :
    let begun := d = .sending ∨ d = .suspended ∨ d = .rejected
    replayedState 17 d = (if begun then some .suspended else none) ∧
      replayedState 18 d = (if begun then some .rejected else none) ∧
      replayedState 19 d = if begun then some .settled else none := by
  cases d <;> decide

theorem replayFollowsTheDayStates : Claims.ReplayFollowsTheDayStates := by
  intro s n e hlast hnone f state sent moved
  have hother (h : f.kind = 15 ∨ f.kind = 16 ∨ f.kind = 17 ∨ f.kind = 18 ∨ f.kind = 19) := replayOther_dayControl s n h
  have hends (h : f.kind = 15 ∨ f.kind = 16 ∨ f.kind = 17 ∨ f.kind = 18 ∨ f.kind = 19)
      (hstate : replayedState f.kind state = none) : replayEntry s n e = none :=
    replayEntry_ends hlast hnone n (show f.kind ≠ 2 by omega) ((hother h).trans (by rw [hstate]; rfl))
  have hmoved {d : DayState} (h : f.kind = 15 ∨ f.kind = 17 ∨ f.kind = 18 ∨ f.kind = 19)
      (hstate : replayedState f.kind state = some d) : moved s d := by
    refine replayEntry_goes (u := setReplay s { s.day.replay with state := d }) hlast hnone n
      (show f.kind ≠ 2 by omega) ((hother (by omega)).trans ?_)
    simp only [show replayedState f.kind s.day.replay.state = some d from hstate, Option.map_some,
      if_neg (show f.kind ≠ 16 by omega)]
  have hbatch {d : DayState} (h : f.kind = 16) (hstate : replayedState f.kind state = some d) :
      moved (replayBatch s n f) d := by
    refine replayEntry_goes (u := setReplay (replayBatch s n f) { (replayBatch s n f).day.replay with state := d })
      hlast hnone n (show f.kind ≠ 2 by omega) ((hother (by omega)).trans ?_)
    simp only [show replayedState f.kind s.day.replay.state = some d from hstate, Option.map_some, if_pos h]
  obtain ⟨hsuspended, hrejected, hsettled⟩ := replayedState_begun state
  refine ⟨fun hk => ⟨fun h => hmoved (.inl hk) ?_, fun h => hends (by omega) ?_⟩,
    fun hk => ⟨fun h => hmoved (by omega) ?_, fun h => hends (by omega) ?_⟩,
    fun hk => ⟨fun h => hmoved (by omega) ?_, fun h => hends (by omega) ?_⟩,
    fun hk => ⟨fun h => hmoved (by omega) ?_, fun h => hends (by omega) ?_⟩, fun hk => ?batch⟩
  · rw [hk, replayedState_cutOff, if_pos h]
  · rw [hk, replayedState_cutOff, if_neg h]
  · exact hk ▸ hsuspended.trans (if_pos h)
  · exact hk ▸ hsuspended.trans (if_neg h)
  · exact hk ▸ hrejected.trans (if_pos h)
  · exact hk ▸ hrejected.trans (if_neg h)
  · exact hk ▸ hsettled.trans (if_pos h)
  · exact hk ▸ hsettled.trans (if_neg h)
  case batch =>
    intro restarts
    have hstate : replayedState f.kind state = if restarts then some .sending else none :=
      (congrArg (replayedState · state) hk).trans (replayedState_batch state)
    refine ⟨fun h hplan => ?_, fun h hplan => ?_, fun h => hends (by omega) (hstate.trans (if_neg h))⟩
    · obtain ⟨p, hp⟩ := Option.ne_none_iff_exists'.mp hplan
      have hsame : replayBatch s n f = s := by simp only [replayBatch, hp]
      have hgoes := hbatch hk (hstate.trans (if_pos h))
      rwa [hsame] at hgoes
    · let p : Plan :=
        { planAt s.configuration s.totals s.monitors (n - 1) s.day.replay.chain with blocks := f.ref }
      have hfirst : replayBatch s n f = { s with batch := { s.batch with plan := some p } } := by
        simp only [replayBatch, hplan]
        rfl
      have hgoes := hbatch hk (hstate.trans (if_pos h))
      rw [hfirst] at hgoes
      exact ⟨p, hgoes, rfl, rfl, rfl, rfl, rfl, rfl⟩

/-- Settles O45: the two commands by their bodies, the replay by the kind of each entry. -/
theorem dayCommandsBegin : Obligations.DayCommandsBegin :=
  ⟨openDayBegins, resumeDayBegins, replayKnowsTheKinds, replayBooksPostings, replayedPostingsTrackItems,
    replayedPrintsSettleItems, replayFollowsTheOtherEntries, replayFollowsTheDayStates⟩

end Sys2Proof.Machine
end

