-- ==== Sys2Proof/Proofs/Openings.lean ====
section
/-! SUPPORT. The choice of a carry-forward record and the opening of the day, from a record or fresh (R11, R107, R113,
R150, R167 to R170, R179). -/

namespace Sys2Proof.Machine

/-! ### The choice of a record (R167) -/

theorem laterValidCopyIsChosen : Claims.LaterValidCopyIsChosen := by
  intro s v d
  refine ⟨fun h₀ h₁ hle => ?_, fun h₀ h₁ hlt => ?_, fun h₀ h₁ => ?_, fun h₀ h₁ => ?_, fun h₀ h₁ => ?_⟩ <;>
    rw [chosenCopy, show s.day.records[(0 : Fin 2)].valid = _ from h₀,
      show s.day.records[(1 : Fin 2)].valid = _ from h₁]
  · exact congrArg some (if_neg (Nat.not_lt.mpr hle))
  · exact congrArg some (if_pos hlt)

/-! ### What an opening's entry and completion leave (R110, R116, R193) -/

theorem handGroup_violations (s : State) (g : Group) :
    (handGroup s g).path.violations = s.path.violations ∧ (handGroup s g).path.reported = s.path.reported := by
  simp only [handGroup]
  split <;> exact ⟨rfl, rfl⟩

theorem handGroup_windows (s : State) (g : Group) : (handGroup s g).path.windows = s.path.windows := by
  simp only [handGroup]
  split <;> rfl

theorem takenTag_writeEntry (s : State) (f : EntryFields) (lowers : Bool) :
    takenTag (writeEntry s f lowers) = takenTag s := by
  rw [takenTag, writeEntry, handGroup_entry_control, numberEntry]
  rfl

theorem windowBase_writeEntry (s : State) (f : EntryFields) (lowers : Bool) (w : Fin 7) :
    windowBase (writeEntry s f lowers) w = windowBase s w :=
  congrArg (fun windows : Vector Window 7 => windows[w].base) (handGroup_windows (numberEntry s _ lowers) _)

/-- What an opening's entry and completion leave alone. -/
def openingSide (s : State) :=
  (s.day, s.totals, s.monitors, s.passbook, s.batch, s.drawers, s.mem, s.path.violations, s.path.reported)

theorem openingSide_complete (s : State) (status : Status) (detail : Nat) :
    openingSide (complete s status detail) = openingSide s := by
  have hgroup (last : Bool) (writes : List (Nat × Dword)) :
      openingSide (handGroup s ⟨.completion last, writes⟩) = openingSide s := by
    simp only [openingSide, handGroup]
    split <;> rfl
  exact hgroup _ _

theorem openingSide_writeEntry (s : State) (f : EntryFields) (lowers : Bool) :
    openingSide (writeEntry s f lowers) = openingSide s := by
  have hgroup (u : State) (writes : List (Nat × Dword)) :
      openingSide (handGroup u ⟨.journal, writes⟩) = openingSide u := by
    simp only [openingSide, handGroup]
    split <;> rfl
  exact (hgroup _ _).trans rfl

/-- What DAY_OPEN and the completion behind it leave of a day at its start (R113, R170). -/
theorem opening_outcome {v x : State} {f : EntryFields} {detail : Nat} (hpresent : v.journal.present = true)
    (hfree : 1 ≤ v.journal.free) (hx : x = complete (dayControlEntry v f) .done detail) :
    openingSide x = openingSide v ∧
      x.journal = { v.journal with
        next := v.journal.next + 1, chain := chainOf v.journal.chain (entryContent v.journal.next v.day.clock f),
        free := v.journal.free - 1 } ∧
      journalWrites x.path = journalWrites v.path ++ entryWrites v (entryContent v.journal.next v.day.clock f) ++
        [(windowBase v 0 + 0x1838, completionDword (takenTag v) .done detail)] := by
  rw [dayControlEntry_written hpresent hfree] at hx
  have hjournal := writeEntry_journal (s := v) (f := f) true
  have hside := openingSide_writeEntry v f true
  have hwrites := journalWrites_writeEntry v f true
  have hbase := windowBase_writeEntry v f true 0
  have htag := takenTag_writeEntry v f true
  generalize writeEntry v f true = u at *
  subst hx
  refine ⟨(openingSide_complete u _ _).trans hside, hjournal, ?_⟩
  rw [journalWrites_complete, hwrites, hbase, ← htag]
  rfl

/-! ### The opening from a record (R167, R168, R170) -/

theorem takeRecords_used {s : State} (hfetched : recordsFetched s = true) : takeRecords s = useRecords s :=
  if_pos hfetched

theorem useRecords_open {s : State} {date time : Nat} (hwork : s.day.work = some (.openFetching date time)) :
    useRecords s = openChosen s date time := by
  simp only [useRecords, hwork]

theorem useRecords_resume {s : State} (hwork : s.day.work = some .resumeChoosing) :
    useRecords s = resumeChosen s := by
  simp only [useRecords, hwork]

theorem openChosen_none {s : State} (h : chosenCopy s = none) (date time : Nat) :
    openChosen s date time = complete { s with day := { s.day with work := none } } .failed 1 := by
  simp only [openChosen, h]

theorem openChosen_some {s : State} {copy : Fin 2} (h : chosenCopy s = some copy) (date time : Nat) :
    openChosen s date time =
      if date ≤ recordSettled (copyBytes s copy) then
        complete { s with day := { s.day with work := none } } .failed 2
      else dayOpens s date time (some copy) := by
  simp only [openChosen, h]

theorem fetchedOpeningGivesEveryBlockItsStart : Claims.FetchedOpeningGivesEveryBlockItsStart := by
  intro s date time copy hr hwork hfetched hchosen hlater settled start
  refine gives_conclude hr (exec_carryRecordFetched s) ?_
  rw [takeRecords_used hfetched, useRecords_open hwork, openChosen_some hchosen, if_neg (by omega)]
  exact dayOpens_eq s date time (some copy)

/-- What the opening event leaves, in the terms of the state before it. -/
theorem dayOpened_outcome {s t : State} {date time settled start detail : Nat} {copy : Fin 2}
    {counts : Fin 17 → Fin 4 → List Nat} {f : EntryFields} (hsize : 2 ≤ ringSize s)
    (hbooks : books t = books (complete (dayControlEntry (dayOpened s date time copy settled start counts) f) .done
      detail))
    (hwrites : journalWrites t.path =
      journalWrites
        (complete (dayControlEntry (dayOpened s date time copy settled start counts) f) .done detail).path) :
    let opened : State := { s with journal := { s.journal with
      start := start, next := 1, chain := 0xFFFFFFFF } }
    t.day.state = .opened ∧ t.day.date = date ∧ t.day.clock = time ∧ t.day.openingCopy = some copy ∧
      t.day.openingSettled = settled ∧ t.day.work = none ∧ t.totals = openedTotals s.configuration counts ∧
      t.monitors = loadedMonitors s.configuration ∧ t.passbook.items = [] ∧
      t.journal.present = true ∧ t.journal.start = start ∧ t.journal.next = 2 ∧ t.journal.free = ringSize s - 1 ∧
      t.journal.reservations = [] ∧ t.batch = resetBatch ∧
      (∀ h : Fin 17, t.drawers[h] = { s.drawers[h] with forced := false }) ∧
      (∀ k : Fin 7, t.path.violations[k] = 0 ∧ t.path.reported[k] = false) ∧ t.mem = s.mem ∧
      journalWrites t.path = journalWrites s.path ++ entryWrites opened (entryContent 1 time f) ++
        [(windowBase s 0 + 0x1838, completionDword (takenTag s) .done detail)] := by
  intro opened
  generalize hx : complete (dayControlEntry (dayOpened s date time copy settled start counts) f) .done detail = x at *
  obtain ⟨hside, hjournal, hjournalWrites⟩ :=
    opening_outcome (v := dayOpened s date time copy settled start counts) rfl
      (Nat.le_trans (by decide) hsize) hx.symm
  obtain ⟨hday, htotals, hmonitors, hpassbook, hbatch, hdrawers, hmem, hviolations, hreported⟩ :
      x.day = _ ∧ x.totals = _ ∧ x.monitors = _ ∧ x.passbook = _ ∧ x.batch = _ ∧ x.drawers = _ ∧ x.mem = _ ∧
        x.path.violations = _ ∧ x.path.reported = _ := by
    simp only [openingSide, Prod.mk.injEq] at hside
    exact hside
  refine ⟨(congrArg (·.day.state) hbooks).trans (congrArg (·.state) hday),
    (congrArg (·.day.date) hbooks).trans (congrArg (·.date) hday),
    (congrArg (·.day.clock) hbooks).trans (congrArg (·.clock) hday),
    (congrArg (·.day.openingCopy) hbooks).trans (congrArg (·.openingCopy) hday),
    (congrArg (·.day.openingSettled) hbooks).trans (congrArg (·.openingSettled) hday),
    (congrArg (·.day.work) hbooks).trans (congrArg (·.work) hday), (congrArg (·.totals) hbooks).trans htotals,
    (congrArg (·.monitors) hbooks).trans hmonitors,
    (congrArg (·.passbook.items) hbooks).trans (congrArg (·.items) hpassbook),
    (congrArg (·.journal.present) hbooks).trans (congrArg (·.present) hjournal),
    (congrArg (·.journal.start) hbooks).trans (congrArg (·.start) hjournal),
    (congrArg (·.journal.next) hbooks).trans (congrArg (·.next) hjournal),
    (congrArg (·.journal.free) hbooks).trans (congrArg (·.free) hjournal),
    (congrArg (·.journal.reservations) hbooks).trans (congrArg (·.reservations) hjournal),
    (congrArg (·.batch) hbooks).trans hbatch, fun h => ?_, fun k => ⟨?_, ?_⟩,
    (congrArg (·.mem) hbooks).trans hmem, hwrites.trans hjournalWrites⟩
  · exact (congrArg (·.drawers[h]) hbooks).trans ((congrArg (·[h]) hdrawers).trans (Vector.getElem_ofFn _))
  · exact (congrArg (·.path.violations[k]) hbooks).trans
      ((congrArg (·[k]) hviolations).trans (Vector.getElem_replicate _))
  · exact (congrArg (·.path.reported[k]) hbooks).trans
      ((congrArg (·[k]) hreported).trans (Vector.getElem_replicate _))

theorem fetchedRecordOpensTheDay_claim : Claims.FetchedRecordOpensTheDay := by
  intro s date time hr hfetched hwork
  refine ⟨fun copy hchosen hlater hsize => ?opens, fun hnone => ?invalid, fun copy hchosen hold => ?old⟩
  case opens =>
    intro settled start opened
    obtain ⟨t, ht, hbooks, hwrites⟩ :=
      fetchedOpeningGivesEveryBlockItsStart s date time copy hr hwork hfetched hchosen hlater
    exact ⟨t, ht, dayOpened_outcome hsize hbooks hwrites⟩
  case invalid =>
    refine gives_conclude hr (exec_carryRecordFetched s) ?_
    rw [takeRecords_used hfetched, useRecords_open hwork, openChosen_none hnone]
  case old =>
    refine gives_conclude hr (exec_carryRecordFetched s) ?_
    rw [takeRecords_used hfetched, useRecords_open hwork, openChosen_some hchosen, if_pos hold]

/-! ### RESUME_DAY's record (R104, R122, R167, R175, R178) -/

theorem resumeLoadsTheChosenRecord : Claims.ResumeLoadsTheChosenRecord := by
  intro s copy hr hfetched hwork hchosen bytes
  refine gives_of_running hr (exec_carryRecordFetched s) ?_
  rw [takeRecords_used hfetched, useRecords_resume hwork]
  simp only [resumeChosen, hchosen]
  exact view_serveRuns _

/-- What a failed RESUME_DAY leaves before its completion, beside the record buffers (R104, R122, R178). -/
def resumeFailed (s : State) : State :=
  { s with
    totals := resetTotals, monitors := loadedMonitors s.configuration,
    journal := { s.journal with present := false, free := 0, next := 1 },
    passbook := { s.passbook with items := [], replay := [] }, batch := resetBatch,
    day := { s.day with
      state := .setup, date := 0, openingCopy := none, openingSettled := 0, work := none,
      replay := resetReplay } }

theorem view_failResume (s : State) (detail : Nat) :
    view (failResume s detail) = view (complete (resumeFailed s) .failed detail) :=
  view_complete_records (resumeFailed s) (Vector.replicate 2 ⟨[], false⟩) .failed detail

theorem resumeFailsWithoutARecord : Claims.ResumeFailsWithoutARecord := by
  intro s hr hfetched hwork hnone
  refine gives_of_running hr (exec_carryRecordFetched s) ?_
  rw [takeRecords_used hfetched, useRecords_resume hwork]
  simp only [resumeChosen, hnone]
  exact view_failResume s 1

/-! ### The records (R43, R71, R77, R167, 13.7) -/

theorem fetchedCopyIsMarkedAtItsEnd : Claims.FetchedCopyIsMarkedAtItsEnd := by
  intro b data bytes date
  refine ⟨rfl, field_eq_uintAt _ _ _, field_eq_uintAt _ _ _, ?_⟩
  have hvalid : (bufferTakes b data).valid = true ↔ b.words.length = 511 ∧
      field bytes 0xFF8 4 = (crc32 (bytes.take 0xFF8)).toNat ∧ dateValid (field bytes 0 4) = true := by
    simp only [bufferTakes, recordValid, Bool.and_eq_true, beq_iff_eq]
    rfl
  rw [hvalid, dateValid_iff, field_eq_uintAt, field_eq_uintAt]

/-- A record at a day's start. -/
theorem recordOf_openedTotals (c : Configuration) (counts : Fin 17 → Fin 4 → List Nat) (h : Fin 17) (k : Fin 4) :
    recordOf (openedTotals c counts) h k =
      if c.holderActive h && c.hasCurrency k then loadedRecord c k (counts h k) else zeroRecord := by
  simp [recordOf, openedTotals, loadedRecords]

theorem recordsAreLoadedFromTheirCounts : Claims.RecordsAreLoadedFromTheirCounts := by
  refine ⟨fun c counts h k => ?_, fun b h k => ⟨rfl, rfl, fields16_eq _ _ _⟩, fun c m => ⟨?_, ?_, rfl⟩⟩
  · intro r n kept sum
    have hr : r = _ := recordOf_openedTotals c counts h k
    refine ⟨rfl, fun hactive hcurrency => ?_, fun hnone => ?_⟩
    · have hconfigured : c.denominations k = n := if_pos hcurrency
      rw [hr, hactive, hcurrency, Bool.and_self, if_pos rfl, loadedRecord, Configuration.faces, hconfigured]
      rfl
    · rw [hr, if_neg]
      · rfl
      · rcases hnone with h | h <;> simp [h]
  · simp [loadedMonitors]
  · simp [loadedMonitors]

end Sys2Proof.Machine
end

