-- ==== Sys2Proof/Proofs/ReplayRuns.lean ====
section
/-! SUPPORT. The run of a replay: the entries it takes, and the day resumed or RESUME_DAY failed at its end (R104, R119,
R122, R160, R172, R175 to R178, R190). -/

namespace Sys2Proof.Machine

/-! ### DAY_OPEN replayed (R104, R175) -/

/-- The settled date of the opening copy, 0 without one. -/
def openingDate (s : State) : Nat := (s.day.openingCopy.map fun c => recordSettled (copyBytes s c)).getD 0

theorem replayEntry_first {s : State} (hlast : s.day.replay.last = 0) (hnone : s.day.replay.posting = none)
    (n : Nat) (e : List Byte) :
    replayEntry s n e =
      if dayOpenFits s (openingDate s) (entryFields e) then
        some (replayedTo (replayDayOpen s (entryFields e)) n (entryChain e))
      else none := by
  rw [replayEntry, if_pos ⟨hlast, hnone⟩]
  rfl

theorem dayOpenFits_iff (s : State) (settled : Nat) (f : EntryFields) :
    dayOpenFits s settled f = true ↔
      f.kind = 1 ∧ f.account = s.journal.start ∧ f.ref = s.configuration.size ∧
        (settled : Int) < f.amountA ∧ (f.code = 0 → f.amountB = settled) ∧ (f.code = 1 → settled = 101) := by
  simp only [dayOpenFits, Bool.and_eq_true, Bool.or_eq_true, beq_iff_eq, bne_iff_ne, decide_eq_true_eq, and_assoc,
    ringSize, imp_iff_not_or, ne_eq]

theorem replayBeginsWithDayOpen : Claims.ReplayBeginsWithDayOpen := by
  intro s n e copy hlast hnone hcopy f settled fits
  have hentry : replayEntry s n e = if dayOpenFits s settled f then
      some (replayedTo (replayDayOpen s f) n (entryChain e)) else none := by
    rw [replayEntry_first hlast hnone, openingDate, hcopy]
    rfl
  have hfits : dayOpenFits s settled f = true ↔ fits := dayOpenFits_iff s settled f
  refine ⟨fun h => hentry.trans (if_neg (mt hfits.mp h)), fun h => ?_⟩
  rw [hentry, if_pos (hfits.mpr h)]
  rfl

/-! ### What a replayed entry leaves alone -/

/-- The state with another journal. -/
def withJournal (j : Journal) (s : State) : State := { s with journal := j }

/-- The parts that no replayed entry changes. -/
def replaySide (s : State) := (s.path, s.journal, s.control, s.posting, s.mem)

theorem replayFired_apart (s : State) (f : EntryFields) (j : Journal) :
    replaySide (replayFired s f) = replaySide s ∧
      replayFired (withJournal j s) f = withJournal j (replayFired s f) := by
  unfold replayFired
  split
  · exact ⟨rfl, rfl⟩
  · next m _ =>
    by_cases h : s.monitors.fired[m] = true
    · rw [if_pos h, if_pos (show (withJournal j s).monitors.fired[m] = true from h)]
      exact ⟨rfl, rfl⟩
    · rw [if_neg h, if_neg (show ¬(withJournal j s).monitors.fired[m] = true from h)]
      exact ⟨rfl, rfl⟩

theorem replayCleared_apart (s : State) (f : EntryFields) (j : Journal) :
    replaySide (replayCleared s f) = replaySide s ∧
      replayCleared (withJournal j s) f = withJournal j (replayCleared s f) := by
  unfold replayCleared
  split <;> exact ⟨rfl, rfl⟩

theorem replayHoldReleased_apart (s : State) (f : EntryFields) (j : Journal) :
    replaySide (replayHoldReleased s f) = replaySide s ∧
      replayHoldReleased (withJournal j s) f = withJournal j (replayHoldReleased s f) := by
  unfold replayHoldReleased
  split <;> exact ⟨rfl, rfl⟩

theorem replayForced_apart (s : State) (f : EntryFields) (j : Journal) :
    replaySide (replayForced s f) = replaySide s ∧
      replayForced (withJournal j s) f = withJournal j (replayForced s f) := by
  unfold replayForced
  split <;> exact ⟨rfl, rfl⟩

theorem replayBatch_apart (s : State) (n : Nat) (f : EntryFields) (j : Journal) :
    replaySide (replayBatch s n f) = replaySide s ∧
      replayBatch (withJournal j s) n f = withJournal j (replayBatch s n f) := by
  simp only [replayBatch, withJournal]
  split <;> exact ⟨rfl, rfl⟩

/-- A replayed entry and its effect with another journal. -/
def ReplayedApart (a b : Option State) (s : State) (j : Journal) : Prop :=
  (∀ t, a = some t → replaySide t = replaySide s) ∧ b = a.map (withJournal j)

theorem replayedApart_some {a b s : State} {j : Journal} (h : replaySide a = replaySide s ∧ b = withJournal j a) :
    ReplayedApart (some a) (some b) s j :=
  ⟨fun _ ht => Option.some.inj ht ▸ h.1, congrArg some h.2⟩

theorem replayedApart_none (s : State) (j : Journal) : ReplayedApart none none s j :=
  ⟨fun _ h => (Option.some_ne_none _ h.symm).elim, rfl⟩

theorem replayDayControl_apart (s : State) (n : Nat) (f : EntryFields) (j : Journal) (d : DayState) :
    let moved := if f.kind = 16 then replayBatch s n f else s
    let moved' := if f.kind = 16 then replayBatch (withJournal j s) n f else withJournal j s
    replaySide (setReplay moved { moved.day.replay with state := d }) = replaySide s ∧
      setReplay moved' { moved'.day.replay with state := d } =
        withJournal j (setReplay moved { moved.day.replay with state := d }) := by
  intro moved moved'
  obtain ⟨hside, hbatch⟩ := replayBatch_apart s n f j
  by_cases h : f.kind = 16
  · rw [show moved = _ from if_pos h, show moved' = _ from (if_pos h).trans hbatch]
    exact ⟨hside, rfl⟩
  · rw [show moved = _ from if_neg h, show moved' = _ from if_neg h]
    exact ⟨rfl, rfl⟩

theorem replayOther_apart (s : State) (n : Nat) (f : EntryFields) (j : Journal) :
    ReplayedApart (replayOther s n f) (replayOther (withJournal j s) n f) s j := by
  by_cases hcontrol : f.kind = 15 ∨ f.kind = 16 ∨ f.kind = 17 ∨ f.kind = 18 ∨ f.kind = 19
  · rw [replayOther_dayControl s n hcontrol, replayOther_dayControl (withJournal j s) n hcontrol,
      show (withJournal j s).day = s.day from rfl]
    cases replayedState f.kind s.day.replay.state with
    | none => exact replayedApart_none s j
    | some d => exact replayedApart_some (replayDayControl_apart s n f j d)
  · unfold replayOther
    split
    · exact replayedApart_some ⟨rfl, rfl⟩
    · exact replayedApart_some ⟨rfl, rfl⟩
    · exact replayedApart_some ⟨rfl, rfl⟩
    · exact replayedApart_some (replayFired_apart s f j)
    · exact replayedApart_some (replayCleared_apart s f j)
    · exact replayedApart_some (replayHoldReleased_apart s f j)
    · exact replayedApart_some (replayForced_apart s f j)
    · exact replayedApart_some ⟨rfl, rfl⟩
    · exact replayedApart_some ⟨rfl, rfl⟩
    · exact replayedApart_some ⟨rfl, rfl⟩
    · exact replayedApart_some ⟨rfl, rfl⟩
    · omega
    · omega
    · omega
    · omega
    · omega
    · exact replayedApart_none s j

theorem replayPosting_apart (s : State) (n : Nat) (f : EntryFields) (b : List Byte) (j : Journal) :
    replaySide (replayPosting s n f b) = replaySide s ∧
      replayPosting (withJournal j s) n f b = withJournal j (replayPosting s n f b) := ⟨rfl, rfl⟩

theorem replayDayOpen_apart (s : State) (f : EntryFields) (j : Journal) :
    replaySide (replayDayOpen s f) = replaySide s ∧
      replayDayOpen (withJournal j s) f = withJournal j (replayDayOpen s f) := ⟨rfl, rfl⟩

/-- An entry replayed apart is counted apart. -/
theorem replayedTo_apart {a b s : State} {j : Journal} (h : replaySide a = replaySide s ∧ b = withJournal j a)
    (n : Nat) (chain : BitVec 32) : ReplayedApart (some (replayedTo a n chain)) (some (replayedTo b n chain)) s j := by
  obtain ⟨hside, rfl⟩ := h
  exact replayedApart_some ⟨(show replaySide (replayedTo a n chain) = replaySide a from rfl).trans hside, rfl⟩

theorem dayOpenFits_withJournal (s : State) (settled : Nat) (f : EntryFields) {j : Journal}
    (hstart : j.start = s.journal.start) : dayOpenFits (withJournal j s) settled f = dayOpenFits s settled f := by
  rw [Bool.eq_iff_iff, dayOpenFits_iff, dayOpenFits_iff,
    show (withJournal j s).journal.start = s.journal.start from hstart]
  rfl

theorem replayEntry_apart (s : State) (n : Nat) (e : List Byte) {j : Journal} (hstart : j.start = s.journal.start) :
    ReplayedApart (replayEntry s n e) (replayEntry (withJournal j s) n e) s j := by
  by_cases hfirst : s.day.replay.last = 0 ∧ s.day.replay.posting = none
  · rw [replayEntry_first hfirst.1 hfirst.2, replayEntry_first (s := withJournal j s) hfirst.1 hfirst.2,
      dayOpenFits_withJournal s _ _ hstart, show openingDate (withJournal j s) = openingDate s from rfl]
    split
    · exact replayedTo_apart (replayDayOpen_apart s _ j) n _
    · exact replayedApart_none s j
  · cases hposting : s.day.replay.posting with
    | some p =>
      rw [replayEntry_waiting hposting, replayEntry_waiting (s := withJournal j s) hposting]
      split
      · exact replayedTo_apart (replayPosting_apart s _ _ e j) n _
      · exact replayedApart_none s j
    | none =>
      have hlast : s.day.replay.last ≠ 0 := fun h => hfirst ⟨h, hposting⟩
      rw [replayEntry_alone hlast hposting, replayEntry_alone (s := withJournal j s) hlast hposting,
        show (withJournal j s).day = s.day from rfl]
      split
      · split
        · exact replayedApart_some ⟨rfl, rfl⟩
        · split
          · exact replayedTo_apart (replayPosting_apart s _ _ _ j) n _
          · exact replayedTo_apart ⟨rfl, rfl⟩ n _
      · obtain ⟨hside, hother⟩ := replayOther_apart s n (entryFields e) j
        rw [hother]
        cases ht : replayOther s n (entryFields e) with
        | none => exact replayedApart_none s j
        | some t => exact replayedTo_apart ⟨hside t ht, rfl⟩ n _

/-! ### The end of the run (R104, R122, R177, R178) -/

theorem failResume_shifted (x : State) (detail : Nat) (j f) :
    failResume (shifted x j f) detail = shifted (failResume x detail) j f := by
  unfold failResume
  dsimp only
  rw [← complete_shifted]
  rfl

/-- What RESUME_DAY comes to at the end of its run. -/
def replayEnded (u : State) : State := if u.day.replay.last = 0 then failResume u 2 else resumeDay u

theorem view_endReplay {x u : State} (hlast : x.day.replay.last = u.day.replay.last)
    (hended : ∃ j f, endRun x .replay = shifted (runEnded u) j f) :
    view (endReplay x) = view (replayEnded (runEnded u)) := by
  obtain ⟨j, f, h⟩ := hended
  rw [endReplay, replayEnded, h, hlast, show (runEnded u).day = u.day from rfl]
  split
  · rw [failResume_shifted, view_shifted]
  · rw [resumeDay_shifted, view_shifted]

section

variable {s u : State} {r : Run}

/-- The run stands before its next entry. -/
structure ReplayRuns (s : State) (r : Run) : Prop where
  runs : s.journal.runs = [r]
  requester : r.requester = .replay
  last : r.last = none
  serving : s.journal.serving = some .replay
  buffer : 8 ≤ s.journal.buffer.length

/-- The entry in the buffer is verified. -/
def EntryVerified (s : State) (r : Run) : Prop :=
  entryNumber (entryRead s) = r.next ∧ entryChain (entryRead s) = chainOf (r.chain.getD 0xFFFFFFFF) (entryRead s)

theorem ReplayRuns.serves (h : ReplayRuns s r) : s.journal.serving = some r.requester := by
  rw [h.serving, h.requester]

theorem ReplayRuns.ends_iff (h : ReplayRuns s r) : runEnds s r = true ↔ r.next = s.configuration.size := by
  rw [runEnds, h.last, beq_iff_eq]
  rfl

theorem runMovedOn_eq (s : State) (r : Run) (e : List Byte) :
    runMovedOn s r e = withJournal (runMovedOn s r e).journal s := rfl

/-- A verified entry goes to the replay as it stands before the run moves on. -/
theorem replayEntry_runMovedOn (s : State) (r : Run) (e : List Byte) :
    replayEntry (runMovedOn s r e) r.next e =
      (replayEntry s r.next e).map (withJournal (runMovedOn s r e).journal) :=
  (replayEntry_apart s r.next e (j := (runMovedOn s r e).journal) rfl).2

theorem replaySide_of_replayEntry {n : Nat} {e : List Byte} (h : replayEntry s n e = some u) :
    replaySide u = replaySide s := (replayEntry_apart s n e (j := s.journal) rfl).1 u h

theorem journal_of_replayEntry {n : Nat} {e : List Byte} (h : replayEntry s n e = some u) :
    u.journal = s.journal := congrArg (·.2.1) (replaySide_of_replayEntry h)

/-- A verified entry that takes effect. -/
theorem takeRunEntry_replays (h : ReplayRuns s r) (hverified : EntryVerified s r)
    (hreplayed : replayEntry s r.next (entryRead s) = some u) :
    takeRunEntry s = passTurn
      (if runEnds s r then endReplay (runMovedOn u r (entryRead s)) else runMovedOn u r (entryRead s)) := by
  have hmoved : withJournal (runMovedOn s r (entryRead s)).journal u = runMovedOn u r (entryRead s) := by
    simp only [runMovedOn, withJournal, journal_of_replayEntry hreplayed]
  have hhanded : handEntry (runMovedOn s r (entryRead s)) r (entryRead s) (runEnds s r) =
      if runEnds s r then endReplay (runMovedOn u r (entryRead s)) else runMovedOn u r (entryRead s) := by
    simp only [handEntry, h.requester, replayEntry_runMovedOn, hreplayed, Option.map_some, hmoved]
  rw [takeRunEntry_verifies h.runs h.serves h.buffer (entryVerifies_iff.mpr hverified), hhanded]

theorem replayTakesVerifiedEntries : Claims.ReplayTakesVerifiedEntries := by
  intro s u r hr hruns hrequester _ hlast hserving hbuffer e runs hnumber hchain hnext hreplayed
  have h : ReplayRuns s r := ⟨hruns, hrequester, hlast, hserving, hbuffer⟩
  have hbody : takeRunEntry s = passTurn (runMovedOn u r e) :=
    (takeRunEntry_replays h ⟨hnumber, hchain⟩ hreplayed).trans (congrArg passTurn (if_neg (mt h.ends_iff.mp hnext)))
  have hview : view (runMovedOn u r e) = view { u with journal := { s.journal with runs := runs } } := by
    rw [← journal_of_replayEntry hreplayed]
    rfl
  refine ⟨gives_of_running hr (exec_journalRunEntry s) ?_, conclude s (passTurn (runMovedOn u r e)), ?_, ?_⟩
  · rw [hbody, view_passTurn, hview]
  · rw [exec_journalRunEntry, running, if_neg (by simp [hr]), hbody]
  · rw [conclude_runs s, passTurn_runs]
    · rfl
    · rw [AllChained, passTurn_runs]
      simp [runMovedOn, runMoved]

/-- The replay ends at an entry that breaks it, that is no part of the day, or that is entry E. -/
theorem view_takeRunEntry_ends (h : ReplayRuns s r)
    (hends : u = s ∧ (¬EntryVerified s r ∨ replayEntry s r.next (entryRead s) = none) ∨
      EntryVerified s r ∧ r.next = s.configuration.size ∧ replayEntry s r.next (entryRead s) = some u) :
    view (takeRunEntry s) = view (replayEnded (runEnded u)) := by
  by_cases hverified : EntryVerified s r
  · obtain ⟨rfl, hnot | hnone⟩ | ⟨_, hsize, hreplayed⟩ := hends
    · exact absurd hverified hnot
    · have hhanded : handEntry (runMovedOn u r (entryRead u)) r (entryRead u) (runEnds u r) =
          endReplay (runMovedOn u r (entryRead u)) := by
        simp only [handEntry, h.requester, replayEntry_runMovedOn, hnone, Option.map_none]
      rw [takeRunEntry_verifies h.runs h.serves h.buffer (entryVerifies_iff.mpr hverified), hhanded, view_passTurn]
      exact view_endReplay rfl (h.requester ▸ endRun_runMovedOn h.serves (entryRead u))
    · have hserves : u.journal.serving = some r.requester := by
        rw [journal_of_replayEntry hreplayed]
        exact h.serves
      rw [takeRunEntry_replays h hverified hreplayed, if_pos (h.ends_iff.mpr hsize), view_passTurn]
      exact view_endReplay rfl (h.requester ▸ endRun_runMovedOn hserves (entryRead s))
  · obtain ⟨rfl, _⟩ | ⟨hyes, _⟩ := hends
    · rw [takeRunEntry_breaks h.runs h.serves h.buffer (mt entryVerifies_iff.mp hverified), tellBreak]
      simp only [h.requester]
      exact view_endReplay rfl (h.requester ▸ endRun_broken h.runs h.serves)
    · exact absurd hyes hverified

end

end Sys2Proof.Machine
end

