-- ==== Sys2Proof/Proofs/ResumedDays.lean ====
section
/-! SUPPORT. The day that RESUME_DAY resumes, and what it leaves of the part where it fails (R104, R122, R160, R172,
R178, R190). -/

namespace Sys2Proof.Machine

section

variable {s u : State} {r : Run}

theorem gives_replayEnded (hr : s.inReset = false) (h : ReplayRuns s r)
    (hends : u = s ∧ (¬EntryVerified s r ∨ replayEntry s r.next (entryRead s) = none) ∨
      EntryVerified s r ∧ r.next = s.configuration.size ∧ replayEntry s r.next (entryRead s) = some u) :
    Gives .journalRunEntry s (replayEnded (runEnded u)) :=
  gives_of_running hr (exec_journalRunEntry s) (view_takeRunEntry_ends h hends)

/-- A day resumed is the one before the replay's end, its run gone. -/
theorem replayEnded_resumed (h : u.day.replay.last ≠ 0) : replayEnded (runEnded u) = resumeDay (runEnded u) := if_neg h

theorem view_replayEnded_failed (h : u.day.replay.last = 0) :
    view (replayEnded (runEnded u)) = view (complete (resumeFailed (runEnded u)) .failed 2) :=
  (congrArg view (if_pos h)).trans (view_failResume _ _)

end

theorem resumedDayIsTestedForSending : Claims.ResumedDayIsTestedForSending := by
  intro s u r hr hruns hrequester hlast hserving hbuffer e c last state halted records verified hends hsome plan sensed
    low noted alerts resumed
  have h : ReplayRuns s r := ⟨hruns, hrequester, hlast, hserving, hbuffer⟩
  have hgives := gives_replayEnded hr h hends
  rw [replayEnded_resumed hsome, resumeDay_eq (runEnded u)] at hgives
  exact hgives

/-- Where a closing day is not ready, nothing is sent. -/
theorem testSending_of_waiting {v : State} (h : v.day.state = .closing →
    allBalanced v.configuration v.totals = false ∨ v.posting.queue.any (·.marked) = true) : testSending v = v := by
  refine if_neg ?_
  rintro ⟨hclosing, hbalanced, hmarked⟩
  obtain hnot | hsome := h hclosing
  · simp [hnot] at hbalanced
  · simp [hsome] at hmarked

/-- What the resumption leaves where nothing is sent, in the terms of the state before the test. -/
theorem waiting_outcome {v t : State} {detail : Nat} (hwaits : v.day.state = .closing →
      allBalanced v.configuration v.totals = false ∨ v.posting.queue.any (·.marked) = true)
    (hbooks : books t = books (complete (testSending v) .done detail))
    (hwrites : journalWrites t.path = journalWrites (complete (testSending v) .done detail).path) :
    t.day.state = v.day.state ∧ t.day.work = v.day.work ∧
      t.journal.runs.map (fun r => { r with chain := none }) = v.journal.runs.map (fun r => { r with chain := none }) ∧
      t.journal.present = v.journal.present ∧ t.journal.next = v.journal.next ∧ t.journal.chain = v.journal.chain ∧
      t.journal.free = v.journal.free ∧ t.journal.reservations = v.journal.reservations ∧ t.totals = v.totals ∧
      t.monitors = v.monitors ∧ t.drawers = v.drawers ∧ t.passbook.items = v.passbook.items ∧
      t.posting.slots = v.posting.slots ∧ t.batch = v.batch ∧ t.control.alerts = v.control.alerts ∧
      journalWrites t.path = journalWrites v.path ++
        [(windowBase v 0 + 0x1838, completionDword (takenTag v) .done detail)] := by
  rw [testSending_of_waiting hwaits] at hbooks hwrites
  have hday := complete_day v .done detail
  have halerts := complete_alerts v .done detail
  rw [journalWrites_complete] at hwrites
  exact ⟨(congrArg (·.day.state) hbooks).trans (congrArg (·.state) hday),
    (congrArg (·.day.work) hbooks).trans (congrArg (·.work) hday), congrArg (·.journal.runs) hbooks,
    congrArg (·.journal.present) hbooks, congrArg (·.journal.next) hbooks, congrArg (·.journal.chain) hbooks,
    congrArg (·.journal.free) hbooks, congrArg (·.journal.reservations) hbooks, congrArg (·.totals) hbooks,
    congrArg (·.monitors) hbooks, congrArg (·.drawers) hbooks, congrArg (·.passbook.items) hbooks,
    congrArg (·.posting.slots) hbooks, congrArg (·.batch) hbooks,
    (congrArg (·.control.alerts) hbooks).trans halerts, hwrites⟩

/-- What the resumption comes to where the closing day is ready. -/
theorem ready_outcome {v t : State} {detail : Nat}
    (hbooks : books t = books (complete (testSending v) .done detail)) (hclosing : v.day.state = .closing)
    (hready : ¬(allBalanced v.configuration v.totals = false ∨ v.posting.queue.any (·.marked) = true)) :
    t.day.state = .sending := by
  obtain ⟨hbalanced, hmarked⟩ := not_or.mp hready
  have hready : ReadyToSend v := readyToSend_iff.mpr ⟨by simpa using hbalanced, by simpa using hmarked⟩
  exact (congrArg (·.day.state) hbooks).trans
    ((congrArg (·.state) (complete_day _ _ _)).trans (testSending_of_ready hclosing hready))

/-- The replay leaves the Control Unit, the windows and the writes on their way. -/
theorem replaySide_of_ends {s u : State} {r : Run} {e : List Byte} {p q : Prop}
    (hends : u = s ∧ p ∨ q ∧ r.next = s.configuration.size ∧ replayEntry s r.next e = some u) :
    u.path = s.path ∧ u.control = s.control := by
  obtain ⟨rfl, _⟩ | ⟨_, _, hreplayed⟩ := hends
  · exact ⟨rfl, rfl⟩
  · have hside := replaySide_of_replayEntry hreplayed
    exact ⟨congrArg (·.1) hside, congrArg (·.2.2.1) hside⟩

/-- The alerts at the day's resumption. -/
theorem alertIn_resumed (set : BitVec 16) (low noted : Prop) [Decidable low] [Decidable noted] (a : Alert) :
    alertIn
        (if noted then addAlert (if low then addAlert set .journalLow else set) .monitorFired
          else if low then addAlert set .journalLow else set) a =
      (alertIn set a || (a == .journalLow && decide low) || (a == .monitorFired && decide noted)) := by
  by_cases hlow : low <;> by_cases hnoted : noted <;>
    simp [hlow, hnoted, alertIn_addAlert, Bool.or_comm, Bool.or_left_comm, beq_eq_decide]

theorem replayEndsWithTheDay : Claims.ReplayEndsWithTheDay := by
  intro s u r hr hruns hrequester hstarted hlast hserving hbuffer e c last state halted records waits low noted verified
    hends
  have h : ReplayRuns s r := ⟨hruns, hrequester, hlast, hserving, hbuffer⟩
  obtain ⟨hpath, hcontrol⟩ := replaySide_of_ends hends
  refine ⟨fun hsome hwaits => ?resumed, fun hsome hready => ?sends, fun hnone => ?failed⟩
  case resumed =>
    obtain ⟨t, ht, hbooks, hwrites⟩ :=
      resumedDayIsTestedForSending s u r hr hruns hrequester hlast hserving hbuffer hends hsome
    obtain ⟨hstate, hwork, hjournalRuns, hpresent, hnext, hchain, hfree, hreservations, htotals, hmonitors, hdrawers,
      hitems, hslots, hbatch, halerts, hjournalWrites⟩ := waiting_outcome hwaits hbooks hwrites
    refine ⟨t, ht, hstate, hwork, List.map_eq_nil_iff.mp hjournalRuns, hpresent, hnext, hchain, hfree, hreservations,
      htotals, hmonitors, fun h => ?_, hitems, fun n => ?_, hbatch, fun a => ?_, ?_⟩
    · exact (congrArg (·[h]) hdrawers).trans (Vector.getElem_ofFn _)
    · exact (congrArg (·[n]) hslots).trans (Vector.getElem_ofFn _)
    · rw [halerts, ← hcontrol]
      exact alertIn_resumed u.control.alerts low noted a
    · rw [hjournalWrites]
      simp only [windowBase, takenTag, ← hpath, ← hcontrol]
      rfl
  case sends =>
    obtain ⟨t, ht, hbooks, -⟩ :=
      resumedDayIsTestedForSending s u r hr hruns hrequester hlast hserving hbuffer hends hsome
    obtain ⟨hclosing, hnot⟩ := Classical.not_imp.mp hready
    exact ⟨t, ht, ready_outcome hbooks hclosing hnot⟩
  case failed =>
    exact gives_of_running hr (exec_journalRunEntry s)
      ((view_takeRunEntry_ends h hends).trans (view_replayEnded_failed hnone))

/-- Settles O46: the choice, the opening and the resumption, each by the law that writes its end out. -/
theorem fetchedRecordOpensTheDay : Obligations.FetchedRecordOpensTheDay :=
  ⟨laterValidCopyIsChosen, fetchedRecordOpensTheDay_claim, fetchedOpeningGivesEveryBlockItsStart,
    resumeLoadsTheChosenRecord, resumeFailsWithoutARecord, replayTakesVerifiedEntries, replayBeginsWithDayOpen,
    replayEndsWithTheDay, resumedDayIsTestedForSending, fetchedCopyIsMarkedAtItsEnd, recordsAreLoadedFromTheirCounts⟩

end Sys2Proof.Machine
end

