-- ==== Sys2Proof/Proofs/FreshDays.lean ====
section
/-! SUPPORT. The opening of a fresh day and the carry-forward record that is written (R113, R150, R167, R169, R170,
R174, 13.7). -/

namespace Sys2Proof.Machine

/-! ### The opening of a fresh day (R113, R169, R170) -/

theorem takeFreshDay_opens {s : State} {date time : Nat} (hwork : s.day.work = some (.openWriting date time))
    (hnone : noneWaiting s .freshRecord = true) : takeFreshDay s = dayOpens s date time none := by
  simp only [takeFreshDay, hwork, hnone, if_true]

theorem dayOpens_fresh (s : State) (date time : Nat) :
    dayOpens s date time none = complete
      (dayControlEntry (dayOpened s date time 0 0 0 fun _ _ => List.replicate 12 0)
        { kind := 1, code := 1, tag := takenTag s, amountA := date, ref := ringSize s }) .done 2 := by
  have hopens := dayOpens_eq s date time none
  simp only [Option.map_none, Option.getD_none, Nat.zero_mod] at hopens
  exact hopens

theorem freshOpeningGivesEveryBlockItsStart : Claims.FreshOpeningGivesEveryBlockItsStart := by
  intro s date time hr hwork hnone
  exact gives_conclude hr (exec_freshDayOpens s) ((takeFreshDay_opens hwork hnone).trans (dayOpens_fresh s date time))

theorem loadedRecord_zeros (c : Configuration) (k : Fin 4) :
    (loadedRecord c k (List.replicate 12 0)).counts = List.replicate 12 0 ∧
      (loadedRecord c k (List.replicate 12 0)).balance = 0 ∧
      (loadedRecord c k (List.replicate 12 0)).opening = 0 := by
  have hcounts : (loadedRecord c k (List.replicate 12 0)).counts = List.replicate 12 0 := by
    simp only [loadedRecord, List.take_replicate, List.length_replicate, List.replicate_append_replicate]
    congr 1
    omega
  have hsum : breakdownSum (c.faces k) (List.replicate 12 0) = 0 := by
    refine List.sum_eq_zero fun x hx => ?_
    obtain ⟨i, hi, rfl⟩ := List.mem_iff_getElem.mp hx
    rw [List.getElem_zipWith, List.getElem_replicate, Nat.zero_mul]
  have hbalance : (loadedRecord c k (List.replicate 12 0)).balance = 0 :=
    (congrArg (breakdownSum (c.faces k)) hcounts).trans hsum
  exact ⟨hcounts, hbalance, hbalance⟩

theorem freshDayOpensWithZeroCounts_claim : Claims.FreshDayOpensWithZeroCounts := by
  intro s date time hr hwork hnone hsize opened
  obtain ⟨t, ht, hbooks, hwrites⟩ := freshOpeningGivesEveryBlockItsStart s date time hr hwork hnone
  obtain ⟨hstate, hdate, hclock, hcopy, hsettled, -, htotals, -, -, hpresent, hstart, hnext, -, -, -, -, -, hmem,
    hjournalWrites⟩ := dayOpened_outcome hsize hbooks hwrites
  refine ⟨t, ht, hstate, hdate, hclock, hcopy, hsettled, fun h k => ?_, hstart, hnext, hpresent, hmem, hjournalWrites⟩
  rw [htotals, recordOf_openedTotals]
  split
  · exact loadedRecord_zeros _ k
  · exact ⟨rfl, rfl, rfl⟩

/-! ### The record composed (13.7) -/

/-- Element j of part i of a list of parts of one length. -/
theorem getD_flatMap_of_length {α β : Type} {f : α → List β} {m : Nat} (l : List α)
    (hlength : ∀ a ∈ l, (f a).length = m) {i : Nat} (hi : i < l.length) {j : Nat} (hj : j < m) (d : β) :
    (l.flatMap f).getD (m * i + j) d = (f l[i]).getD j d := by
  induction l generalizing i with
  | nil => simp at hi
  | cons a l ih =>
    have ha : (f a).length = m := hlength a List.mem_cons_self
    rw [List.flatMap_cons]
    cases i with
    | zero =>
      rw [Nat.mul_zero, Nat.zero_add, List.getD_append _ _ _ _ (by omega)]
      rfl
    | succ i =>
      rw [List.getD_append_right _ _ _ _ (by rw [ha, Nat.mul_succ]; omega), ha,
        show m * (i + 1) + j - m = m * i + j by rw [Nat.mul_succ]; omega,
        ih (fun b hb => hlength b (List.mem_cons_of_mem a hb)) (by simpa using hi)]
      rfl

section

variable {t : Totals} (hlength : ∀ (h : Fin 17) (k : Fin 4), (recordOf t h k).counts.length = 12)

/-- The counts of one holder's records. -/
def holderCounts (t : Totals) (h : Fin 17) : List Nat := (List.finRange 4).flatMap fun k => (recordOf t h k).counts

theorem allCounts_eq (t : Totals) : allCounts t = (List.finRange 17).flatMap (holderCounts t) := rfl

include hlength

theorem holderCounts_length (h : Fin 17) : (holderCounts t h).length = 48 := by
  simp [holderCounts, List.length_flatMap, hlength]

theorem allCounts_length : (allCounts t).length = 816 := by
  simp [allCounts_eq, List.length_flatMap, holderCounts_length hlength]

/-- Count d of a record among the counts of all records. -/
theorem allCounts_getD (h : Fin 17) (k : Fin 4) (d : Fin 12) :
    (allCounts t).getD (48 * h.val + (12 * k.val + d.val)) 0 = (recordOf t h k).counts.getD d.val 0 := by
  rw [allCounts_eq, getD_flatMap_of_length _ (fun h _ => holderCounts_length hlength h) (by simp) (by omega),
    holderCounts, getD_flatMap_of_length _ (fun k _ => hlength _ k) (by simp) d.isLt]
  simp

end

/-- The bytes of a record before its CRC-32. -/
def recordBody (settled start : Nat) (counts : List Nat) : List Byte :=
  leBytes 4 settled ++ (leBytes 4 start ++ (bytes16 counts ++ List.replicate 0x990 0))

theorem composeRecord_eq (settled start : Nat) (counts : List Nat) :
    composeRecord settled start counts = recordBody settled start counts ++
      (leBytes 4 (crc32 (recordBody settled start counts)).toNat ++ leBytes 4 0) := by
  simp only [composeRecord, recordBody, List.append_assoc]

theorem recordBody_length {settled start : Nat} {counts : List Nat} (h : counts.length = 816) :
    (recordBody settled start counts).length = 0xFF8 := by
  rw [recordBody, List.length_append, leBytes_length, List.length_append, leBytes_length, List.length_append,
    bytes16_length, h, List.length_replicate]

/-- A field within a run of bytes does not see what stands behind. -/
theorem uintAt_append_left {a : List Byte} (b : List Byte) {o n : Nat} (h : o + n ≤ a.length) :
    uintAt (a ++ b) o n = uintAt a o n := by
  rw [uintAt_eq_leNat, uintAt_eq_leNat, List.drop_append_of_le_length (by omega), List.take_append_of_le_length]
  simp
  omega

theorem composedRecordHoldsItsFields : Claims.ComposedRecordHoldsItsFields := by
  intro settled start t hsettled hstart hcounts record
  have hlength : ∀ (h : Fin 17) (k : Fin 4), (recordOf t h k).counts.length = 12 := fun h k => (hcounts h k).1
  have hall : (allCounts t).length = 816 := allCounts_length hlength
  have hbody : (recordBody settled start (allCounts t)).length = 0xFF8 := recordBody_length hall
  have hrecord : record = _ := composeRecord_eq settled start (allCounts t)
  have htake : record.take 0xFF8 = recordBody settled start (allCounts t) := by
    rw [hrecord, List.take_append_of_le_length (by omega), List.take_of_length_le (by omega)]
  have hinBody {o n : Nat} (h : o + n ≤ 0xFF8) :
      field record o n = uintAt (recordBody settled start (allCounts t)) o n := by
    rw [field_eq_uintAt, hrecord, uintAt_append_left _ (by omega)]
  have hdate : field record 0 4 = settled := by
    rw [hinBody (by omega), recordBody, uintAt_leBytes]
    omega
  have hcrc : field record 0xFF8 4 = (crc32 (record.take 0xFF8)).toNat := by
    rw [htake, field_eq_uintAt, hrecord, uintAt_skip _ _ _ _ (by omega), hbody, uintAt_leBytes]
    exact Nat.mod_eq_of_lt (crc32 _).isLt
  refine ⟨?length, hdate, ?next, fun h k d => ?count, fun i hlow hhigh => ?zero, hcrc, ?last, fun hvalid => ?valid⟩
  case length =>
    rw [hrecord]
    simp [hbody, leBytes_length]
  case next =>
    rw [hinBody (by omega), recordBody, uintAt_skip _ _ _ _ (by simp [leBytes_length]), leBytes_length, uintAt_leBytes]
    omega
  case count =>
    have hsmall : (recordOf t h k).counts.getD d.val 0 < 65536 := by
      rw [List.getD_eq_getElem _ _ (by rw [hlength]; exact d.isLt)]
      exact (hcounts h k).2 _ (List.getElem_mem _)
    have hposition : 0x008 + 96 * h.val + 24 * k.val + 2 * d.val - 4 - 4 =
        2 * (48 * h.val + (12 * k.val + d.val)) := by omega
    rw [hinBody (by omega), recordBody, uintAt_skip _ _ _ _ (by rw [leBytes_length]; omega), leBytes_length,
      uintAt_skip _ _ _ _ (by rw [leBytes_length]; omega), leBytes_length, hposition,
      uintAt_bytes16 _ _ _ (by omega), allCounts_getD hlength]
    exact Nat.mod_eq_of_lt hsmall
  case zero =>
    rw [hrecord, List.getElem?_append_left (by omega), recordBody,
      List.getElem?_append_right (by rw [leBytes_length]; omega), leBytes_length,
      List.getElem?_append_right (by rw [leBytes_length]; omega), leBytes_length,
      List.getElem?_append_right (by rw [bytes16_length]; omega), bytes16_length, hall, List.getElem?_replicate,
      if_pos (by omega)]
  case last =>
    rw [field_eq_uintAt, hrecord, uintAt_skip _ _ _ _ (by omega), hbody,
      uintAt_skip _ _ _ _ (by simp [leBytes_length]), leBytes_length]
    exact uintAt_leBytes_self 4 0
  case valid =>
    rw [recordValid, hcrc, hdate, hvalid]
    simp

/-! ### The record handed over (R169, R174) -/

theorem leBytes_leNat (b : List Byte) : leBytes b.length (leNat b) = b := by
  induction b with
  | nil => rfl
  | cons x b ih =>
    have hx : BitVec.ofNat 8 (x.toNat + 256 * leNat b) = x := by
      apply BitVec.eq_of_toNat_eq
      have := x.isLt
      simp only [BitVec.toNat_ofNat]
      omega
    have hrest : (x.toNat + 256 * leNat b) / 256 = leNat b := by
      have := x.isLt
      omega
    simp only [List.length_cons, leNat, leBytes, hx, hrest, ih]

theorem bytesOfDword_dwordOfBytes {b : List Byte} (h : 8 ≤ b.length) : bytesOfDword (dwordOfBytes b) = b.take 8 := by
  have hlength : (b.take 8).length = 8 := by simpa using h
  have hlt := leNat_lt (b.take 8)
  rw [hlength, show 256 ^ 8 = 2 ^ 64 by norm_num] at hlt
  have hcut := leBytes_leNat (b.take 8)
  rw [hlength] at hcut
  rw [bytesOfDword, dwordOfBytes, BitVec.toNat_ofNat, Nat.mod_eq_of_lt hlt, hcut]

/-- The doublewords cut from a run of bytes spell it. -/
theorem bytesOfDwords_cut (b : List Byte) (n : Nat) (h : 8 * n ≤ b.length) :
    bytesOfDwords ((List.range n).map fun i => dwordOfBytes (b.drop (8 * i))) = b.take (8 * n) := by
  induction n with
  | zero => simp [bytesOfDwords]
  | succ n ih =>
    have hlast : bytesOfDword (dwordOfBytes (b.drop (8 * n))) = (b.drop (8 * n)).take 8 :=
      bytesOfDword_dwordOfBytes (by rw [List.length_drop]; omega)
    rw [List.range_succ, List.map_append, bytesOfDwords, List.flatMap_append]
    rw [bytesOfDwords] at ih
    simp only [ih (by omega), List.map_cons, List.map_nil, List.flatMap_cons, List.flatMap_nil, List.append_nil, hlast]
    rw [← List.take_add, Nat.mul_succ]

/-- Rows of a table read one behind the other. -/
theorem flatMap_range_rows {α : Type} (f : Nat → α) (a b : Nat) :
    ((List.range a).flatMap fun i => (List.range b).map fun j => f (b * i + j)) = (List.range (b * a)).map f := by
  induction a with
  | zero => simp
  | succ a ih =>
    rw [List.range_succ, List.flatMap_append, ih, Nat.mul_succ, List.range_add, List.map_append, List.map_map]
    simp [Function.comp_def]

theorem recordIsHandedOverInSixteenGroups : Claims.RecordIsHandedOverInSixteenGroups := by
  intro s producer copy record hlength groups writes
  have hwrites : writes = (List.range 512).map fun i => (copyAddress s copy i, dwordOfBytes (record.drop (8 * i))) := by
    rw [← flatMap_range_rows (fun i => (copyAddress s copy i, dwordOfBytes (record.drop (8 * i)))) 16 32]
    simp only [writes, groups, recordGroups, List.flatMap_map]
  refine ⟨by simp [groups, recordGroups], fun g hg => ?_, ?_, ?_, rfl⟩
  · obtain ⟨i, _, rfl⟩ := List.mem_map.mp hg
    exact ⟨rfl, by simp⟩
  · rw [hwrites, List.map_map]
    rfl
  · rw [hwrites, List.map_map, Function.comp_def]
    simp only
    rw [bytesOfDwords_cut record 512 (by omega), List.take_of_length_le (by omega)]

/-- Settles O47: the fresh opening, and the record's bytes and groups. -/
theorem freshDayOpensWithZeroCounts : Obligations.FreshDayOpensWithZeroCounts :=
  ⟨freshDayOpensWithZeroCounts_claim, freshOpeningGivesEveryBlockItsStart, composedRecordHoldsItsFields,
    recordIsHandedOverInSixteenGroups⟩

end Sys2Proof.Machine
end

