-- ==== Sys2Proof/Proofs/LineChecks.lean ====
section
/-! SUPPORT. CHECK_LINE, and the rules of the screen's operations: a controller or a position replaced, a frame sent
(R123, R126, R141). -/

namespace Sys2Proof.Machine

/-! ### Controllers and positions replaced -/

section

variable (s : State) (d : Fin 2) (c c' : Controller) (p : Fin 16) (q q' : Position)

@[simp] theorem setController_self : (setController s d c).screen.controllers[d] = c := by
  simp [setController]

@[simp] theorem setController_other {e : Fin 2} (h : e ≠ d) :
    (setController s d c).screen.controllers[e] = s.screen.controllers[e] := getElem_set_ne _ d e c h

@[simp] theorem setController_setController : setController (setController s d c) d c' = setController s d c' := by
  simp [setController]

@[simp] theorem setPosition_self : (setPosition s p q).screen.positions[p] = q := by
  simp [setPosition]

@[simp] theorem setPosition_other {x : Fin 16} (h : x ≠ p) :
    (setPosition s p q).screen.positions[x] = s.screen.positions[x] := getElem_set_ne _ p x q h

@[simp] theorem setPosition_setPosition : setPosition (setPosition s p q) p q' = setPosition s p q' := by
  simp [setPosition]

end

/-! ### CHECK_LINE (R141) -/

section

variable {u : State} {p : Fin 16}

theorem commandCheckLine_outside (h : argumentByte u = 0 ∨ 16 < argumentByte u) :
    commandCheckLine u = complete u .badArgument 0 := by
  have hnone : (if argumentByte u = 0 then none else indexOf 16 (argumentByte u - 1)) = none := by
    split
    · rfl
    · exact indexOf_eq_none.mpr (by omega)
  simp only [commandCheckLine, hnone]

/-- The position that CHECK_LINE's number names. -/
theorem checkedPosition (h : argumentByte u = p.val + 1) :
    (if argumentByte u = 0 then none else indexOf 16 (argumentByte u - 1)) = some p := by
  rw [if_neg (by omega)]
  exact indexOf_eq_some.mpr (by omega)

theorem commandCheckLine_notConfigured (h : argumentByte u = p.val + 1)
    (hstate : u.screen.positions[p].state = .notConfigured) : commandCheckLine u = complete u .badArgument 0 := by
  simp only [commandCheckLine, checkedPosition h, hstate]

theorem commandCheckLine_absent (h : argumentByte u = p.val + 1) (hstate : u.screen.positions[p].state = .absent) :
    commandCheckLine u = complete u .refusedState 0 := by
  simp only [commandCheckLine, checkedPosition h, hstate]

theorem commandCheckLine_present (h : argumentByte u = p.val + 1) (hstate : u.screen.positions[p].state = .present) :
    commandCheckLine u =
      if (indexOf 2 u.screen.positions[p].line).any (learning u) then complete u .refusedState 0
      else complete
        { setPosition u p { u.screen.positions[p] with echo := true } with
          control := { u.control with lineCheck := some (p, linePattern u) } }
        .inProgress 0 := by
  simp only [commandCheckLine, checkedPosition h, hstate]

/-- The position's line learns. -/
theorem anyLearning_iff (v : Nat) :
    (indexOf 2 v).any (learning u) = true ↔ ∃ d : Fin 2, v = d.val ∧ u.screen.controllers[d].mode = .learning := by
  simp [Option.any_eq_true, indexOf_eq_some, learning]

end

theorem linePattern_commandTaken (s : State) (addr : Nat) (mask : ByteMask) (data : Dword) :
    linePattern (commandTaken s addr mask data) =
      bytesOfDword s.control.arguments[1] ++ bytesOfDword s.control.arguments[2] := by
  rw [linePattern, argument_commandTaken, argument_commandTaken]
  rfl

/-- Settles O48, by the states of the position named. -/
theorem checkLineAsksForAnEcho : Obligations.CheckLineAsksForAnEcho := by
  intro s addr mask data hcommand n t
  have hbyte : argumentByte t = n := argumentByte_commandTaken s addr mask data
  refine ⟨fun hn => gives_command hcommand (exec_checkLine s) (commandCheckLine_outside (hbyte ▸ hn)), fun p hp => ?_⟩
  intro q
  have hnumber : argumentByte t = p.val + 1 := hbyte.trans hp
  refine ⟨fun hstate => gives_command hcommand (exec_checkLine s) (commandCheckLine_notConfigured hnumber hstate),
    fun hstate => gives_command hcommand (exec_checkLine s) (commandCheckLine_absent hnumber hstate),
    fun d hstate hline hlearning => ?learning, fun hstate hcycles => ?asked⟩
  case learning =>
    refine gives_command hcommand (exec_checkLine s) ((commandCheckLine_present hnumber hstate).trans (if_pos ?_))
    exact (anyLearning_iff q.line).mpr ⟨d, hline, hlearning⟩
  case asked =>
    refine gives_command hcommand (exec_checkLine s)
      ((commandCheckLine_present hnumber hstate).trans ((if_neg ?_).trans ?_))
    · exact fun h => let ⟨d, hline, hlearning⟩ := (anyLearning_iff q.line).mp h; hcycles d hline hlearning
    · rw [linePattern_commandTaken s addr mask data]
      rfl

end Sys2Proof.Machine
end

