-- ==== Sys2Proof/Proofs/Learns.lean ====
section
/-! SUPPORT. Learning a line: START_LEARN, END_LEARN, the ASSIGN exchanges, the repeat timer and the LOCK (R123, R126,
R138 to R141). -/

namespace Sys2Proof.Machine

/-! ### The ASSIGN of a position (R139) -/

section

variable (u : State) (d : Fin 2) (p : Fin 16)

theorem beginExchange_eq (kind : ExchangeKind) (frame : List Byte) :
    beginExchange u d p kind frame =
      sendFrame (setController u d { u.screen.controllers[d] with exchange := some ⟨p, kind, .sending⟩ })
        (u.configuration.dropPort d) frame := rfl

theorem sendAssign_eq :
    sendAssign u d p =
      sendFrame
        (setController u d { u.screen.controllers[d] with
          current := some p, repeatTimer := false, exchange := some ⟨p, .assign, .sending⟩ })
        (u.configuration.dropPort d)
        (dropFrame 15 0x05 [BitVec.ofNat 8 u.screen.positions[p].address]) := by
  rw [sendAssign, beginExchange_eq, setController_self, setController_setController]
  rfl

/-- The positions of a line not acknowledged yet. -/
def unacknowledged (u : State) (d : Fin 2) : List (Fin 16) :=
  (u.configuration.linePositions d).filter fun x => !u.screen.controllers[d].acknowledged.contains x

variable {u d p} in
theorem assignNext_some {rest : List (Fin 16)} (h : unacknowledged u d = p :: rest) :
    assignNext u d = sendAssign u d p := by
  have hfind : (u.configuration.linePositions d).find? (fun p => !u.screen.controllers[d].acknowledged.contains p) =
      some p := by
    rw [← List.head?_filter]
    exact congrArg List.head? h
  rw [assignNext, hfind]

variable {u d} in
theorem assignNext_none (h : unacknowledged u d = []) : assignNext u d = finishLearn (loseLineCheck u d) d := by
  have hfind : (u.configuration.linePositions d).find? (fun p => !u.screen.controllers[d].acknowledged.contains p) =
      none := by
    rw [← List.head?_filter]
    exact congrArg List.head? h
  rw [assignNext, hfind]

/-! ### The end of a learn (R140) -/

/-- The controller of a line whose learn has ended. -/
def unlearnedController (c : Controller) : Controller :=
  { c with mode := .cycling, exchange := none, current := none, repeatTimer := false }

/-- A line's positions at the end of its learn. -/
def unlearnedPositions (u : State) (d : Fin 2) : Vector Position 16 :=
  Vector.ofFn fun p : Fin 16 =>
    if u.configuration.onLine d p then { u.screen.positions[p] with state := .absent, skip := 0, missed := 0 }
    else u.screen.positions[p]

/-- The state at the end of a learn, before the new cycle begins. -/
def unlearned (u : State) (d : Fin 2) : State :=
  sendDrop
    (setController { u with screen := { u.screen with positions := unlearnedPositions u d } } d
      (unlearnedController u.screen.controllers[d])) d (dropFrame broadcast 0x07 [])

theorem finishLearn_eq_beginCycle : finishLearn u d = beginCycle (unlearned u d) d := rfl

theorem unlearned_controller : (unlearned u d).screen.controllers[d] = unlearnedController u.screen.controllers[d] :=
  setController_self _ d _

theorem unlearned_position : (unlearned u d).screen.positions[p] =
    if u.configuration.onLine d p then { u.screen.positions[p] with state := .absent, skip := 0, missed := 0 }
    else u.screen.positions[p] := Vector.getElem_ofFn _

theorem unlearned_lines {k : Fin 6} (hport : u.configuration.dropPort d = some k) :
    (unlearned u d).lines = u.lines.set k (u.lines[k] ++ [dropFrame 15 0x07 []]) := by
  have hsent : (unlearned u d).lines =
      (sendFrame u (u.configuration.dropPort d) (dropFrame broadcast 0x07 [])).lines := rfl
  rw [hsent, hport]
  rfl

/-- A learn's end leaves the cycle begun on positions that are all ABSENT. -/
theorem finishLearn_eq :
    finishLearn u d = { unlearned u d with
      screen := { (unlearned u d).screen with
        controllers := (unlearned u d).screen.controllers.set d
          (polling (unlearnedController u.screen.controllers[d]) (u.configuration.linePositions d)) },
      lines := linesWith (unlearned u d).lines (u.configuration.dropPort d)
        (firstPoll (unlearned u d) (u.configuration.linePositions d)) } := by
  have habsent : ∀ p ∈ (unlearned u d).configuration.linePositions d,
      (unlearned u d).screen.positions[p].state = .absent ∧ (unlearned u d).screen.positions[p].skip = 0 := by
    intro p hp
    have hon : u.configuration.onLine d p = true := mem_linePositions.mp hp
    rw [unlearned_position, if_pos hon]
    exact ⟨rfl, rfl⟩
  rw [finishLearn_eq_beginCycle, beginCycle_absent habsent, unlearned_controller]
  rfl

/-- What the end of a learn leaves of the part. -/
theorem finishLearn_outcome :
    (finishLearn u d).screen.controllers[d] =
        polling (unlearnedController u.screen.controllers[d]) (u.configuration.linePositions d) ∧
      (finishLearn u d).screen.positions = unlearnedPositions u d ∧
      (∀ k, u.configuration.dropPort d = some k → (finishLearn u d).lines[k] =
        u.lines[k] ++ dropFrame 15 0x07 [] :: firstPoll (unlearned u d) (u.configuration.linePositions d)) ∧
      (finishLearn u d).path = u.path ∧ (finishLearn u d).control = u.control ∧
      (finishLearn u d).totals = u.totals ∧ (finishLearn u d).mem = u.mem := by
  refine ⟨?_, ?_, fun k hport => ?_, ?_⟩ <;> rw [finishLearn_eq]
  · simp
  · rfl
  · rw [show (State.lines _) = linesWith _ _ _ from rfl, linesWith_getElem, if_pos hport, unlearned_lines u d hport]
    simp
  · exact ⟨rfl, rfl, rfl, rfl⟩

/-- On a line without positions the LOCK alone goes out. -/
theorem finishLearn_of_no_position (h : u.configuration.linePositions d = []) :
    finishLearn u d =
      sendFrame (setController u d { u.screen.controllers[d] with
        mode := .cycling, exchange := none, remaining := [], current := none, repeatTimer := false })
        (u.configuration.dropPort d) (dropFrame 15 0x07 []) := by
  have hpositions : unlearnedPositions u d = u.screen.positions := by
    ext1 i hi
    have hoff : u.configuration.onLine d ⟨i, hi⟩ = false := by
      rw [← Bool.not_eq_true, ← mem_linePositions, h]
      exact List.not_mem_nil
    simp [unlearnedPositions, hoff]
  rw [finishLearn_eq, h, show firstPoll (unlearned u d) [] = [] from rfl, linesWith_nil, unlearned, hpositions]
  simp only [sendDrop, sendFrame, setController, Vector.set_set]
  rfl

end

/-! ### START_LEARN (R138 to R140) -/

section

variable {u : State} {d : Fin 2} {k : Fin 6}

theorem commandStartLearn_refused (h : unconfigured u = true ∨
    ∃ d : Fin 2, argumentByte u = d.val ∧ u.screen.controllers[d].mode = .learning) :
    commandStartLearn u = complete u .refusedState 0 := by
  refine if_pos ?_
  rw [Bool.or_eq_true, anyLearning_iff]
  exact h

/-- START_LEARN where its line does not refuse it. -/
theorem commandStartLearn_line (hconfigured : unconfigured u = false) (hline : argumentByte u = d.val)
    (hmode : u.screen.controllers[d].mode ≠ .learning) :
    commandStartLearn u =
      if (u.configuration.dropPort d).isNone then complete u .badArgument 0
      else complete (startLearning u d) .done (u.configuration.linePositions d).length := by
  have hindex : indexOf 2 (argumentByte u) = some d := indexOf_eq_some.mpr hline
  have hnot : ¬(unconfigured u || (some d).any (learning u)) = true := by
    rw [hconfigured, Bool.false_or]
    exact fun h => hmode (beq_iff_eq.mp h)
  rw [commandStartLearn, hindex]
  exact if_neg hnot

theorem commandStartLearn_outside (hconfigured : unconfigured u = false) (hline : 1 < argumentByte u) :
    commandStartLearn u = complete u .badArgument 0 := by
  have hindex : indexOf 2 (argumentByte u) = none := indexOf_eq_none.mpr hline
  rw [commandStartLearn, hindex]
  exact if_neg (by simp [hconfigured])

theorem commandStartLearn_taken (hconfigured : unconfigured u = false) (hline : argumentByte u = d.val)
    (hmode : u.screen.controllers[d].mode ≠ .learning) (hport : u.configuration.dropPort d = some k) :
    commandStartLearn u = complete (startLearning u d) .done (u.configuration.linePositions d).length :=
  (commandStartLearn_line hconfigured hline hmode).trans (if_neg (by simp [hport]))

/-- The controller of a line that begins to learn. -/
def learningController (c : Controller) : Controller :=
  { c with mode := .learning, remaining := [], acknowledged := [], current := none, repeatTimer := false }

theorem startLearning_idle (h : u.screen.controllers[d].exchange = none) :
    startLearning u d = assignNext (setController u d (learningController u.screen.controllers[d])) d := by
  rw [startLearning]
  simp only [h]
  rfl

theorem startLearning_busy {e : Exchange} (h : u.screen.controllers[d].exchange = some e)
    (hphase : e.phase ≠ .filling) :
    startLearning u d = setController u d { u.screen.controllers[d] with mode := .stopping } := by
  rw [startLearning]
  simp only [h]
  exact if_neg hphase

/-- No position is acknowledged at the start. -/
theorem unacknowledged_learning (c : Controller) :
    unacknowledged (setController u d (learningController c)) d = u.configuration.linePositions d := by
  rw [unacknowledged, setController_self]
  exact List.filter_eq_self.mpr fun _ _ => rfl

/-- START_LEARN's learn on an idle line with positions. -/
theorem startLearning_assigns {p : Fin 16} {rest : List (Fin 16)} (hexchange : u.screen.controllers[d].exchange = none)
    (hpositions : u.configuration.linePositions d = p :: rest) :
    startLearning u d =
      sendFrame
        (setController u d { u.screen.controllers[d] with
          mode := .learning, exchange := some ⟨p, .assign, .sending⟩, remaining := [], acknowledged := [],
          current := some p, repeatTimer := false })
        (u.configuration.dropPort d) (dropFrame 15 0x05 [BitVec.ofNat 8 u.screen.positions[p].address]) := by
  rw [startLearning_idle hexchange, assignNext_some ((unacknowledged_learning _).trans hpositions), sendAssign_eq,
    setController_self, setController_setController]
  rfl

/-- A line without positions has no terminal to lose. -/
theorem loseLineCheck_of_no_position (h : u.configuration.linePositions d = []) : loseLineCheck u d = u := by
  unfold loseLineCheck
  split
  · rfl
  · next p _ _ =>
    have hoff : u.configuration.onLine d p = false := by
      rw [← Bool.not_eq_true, ← mem_linePositions, h]
      exact List.not_mem_nil
    exact if_neg (by simp [hoff])

/-- On a line without positions the LOCK goes out at once. -/
theorem startLearning_locks (hexchange : u.screen.controllers[d].exchange = none)
    (hpositions : u.configuration.linePositions d = []) :
    startLearning u d =
      sendFrame
        (setController u d { u.screen.controllers[d] with
          mode := .cycling, remaining := [], acknowledged := [], current := none, repeatTimer := false })
        (u.configuration.dropPort d) (dropFrame 15 0x07 []) := by
  rw [startLearning_idle hexchange, assignNext_none ((unacknowledged_learning _).trans hpositions),
    loseLineCheck_of_no_position (u := setController u d (learningController u.screen.controllers[d])) hpositions,
    finishLearn_of_no_position (setController u d (learningController u.screen.controllers[d])) d hpositions,
    setController_self, setController_setController]
  simp only [learningController, hexchange]
  rfl

end

theorem startLearnAssignsTheLowest : Claims.StartLearnAssignsTheLowest := by
  intro s addr mask data d k p rest hcommand hconfig hday hline hmode hport hpositions hexchange t c
  have hconfiguration : t.configuration = s.configuration := configuration_commandTaken s addr mask data
  have hscreen : t.screen = s.screen := rfl
  have hconfigured : unconfigured t = false := by
    rw [← Bool.not_eq_true, unconfigured_commandTaken]
    exact not_or.mpr ⟨hday, Option.isSome_iff_ne_none.mp hconfig⟩
  have hbyte : argumentByte t = d.val := (argumentByte_commandTaken s addr mask data).trans hline
  rw [← hscreen] at hmode hexchange
  rw [← hconfiguration] at hport hpositions
  have hbody := commandStartLearn_taken hconfigured hbyte hmode hport
  rw [startLearning_assigns hexchange hpositions, hport, hpositions, List.length_cons] at hbody
  exact gives_command hcommand (exec_startLearn s) hbody

theorem startLearnMeetsTheCycle : Claims.StartLearnMeetsTheCycle := by
  intro s addr mask data hcommand t line refused
  have hconfiguration : t.configuration = s.configuration := configuration_commandTaken s addr mask data
  have hscreen : t.screen = s.screen := rfl
  have hbyte : argumentByte t = line := argumentByte_commandTaken s addr mask data
  have hunconfigured : unconfigured t = true ↔ s.day.state = .recovering ∨ s.control.config = none :=
    unconfigured_commandTaken s addr mask data
  have hrefused : refused ↔ unconfigured t = true ∨
      ∃ d : Fin 2, argumentByte t = d.val ∧ t.screen.controllers[d].mode = .learning := by
    rw [hunconfigured, hbyte, hscreen, or_assoc]
  refine ⟨fun h => gives_command hcommand (exec_startLearn s) (commandStartLearn_refused (hrefused.mp h)), fun h => ?_⟩
  obtain ⟨hconfigured, hmodes⟩ := not_or.mp (mt hrefused.mpr h)
  have hconfigured := Bool.eq_false_iff.mpr hconfigured
  have hmode (d : Fin 2) (hline : line = d.val) : t.screen.controllers[d].mode ≠ .learning :=
    fun hlearning => hmodes ⟨d, hbyte.trans hline, hlearning⟩
  refine ⟨fun hbad => ?bad, fun d k hline hport => ?_⟩
  case bad =>
    obtain houtside | ⟨d, hline, hport⟩ := hbad
    · exact gives_command hcommand (exec_startLearn s) (commandStartLearn_outside hconfigured (hbyte ▸ houtside))
    · have hbody := commandStartLearn_line hconfigured (hbyte.trans hline) (hmode d hline)
      rw [hconfiguration, hport] at hbody
      exact gives_command hcommand (exec_startLearn s) hbody
  intro c
  have hportTaken : t.configuration.dropPort d = some k := by rw [hconfiguration, hport]
  have hbody := commandStartLearn_taken hconfigured (hbyte.trans hline) (hmode d hline) hportTaken
  refine ⟨fun e he hphase => ?busy, fun hexchange hpositions => ?locks⟩
  case busy =>
    have hexchange : t.screen.controllers[d].exchange = some e := he
    rw [startLearning_busy hexchange hphase, hconfiguration] at hbody
    exact gives_command hcommand (exec_startLearn s) hbody
  case locks =>
    have hidle : t.screen.controllers[d].exchange = none := hexchange
    rw [← hconfiguration] at hpositions
    rw [startLearning_locks hidle hpositions, hportTaken, hpositions] at hbody
    exact gives_command hcommand (exec_startLearn s) hbody

/-! ### The end of a learn in a step (R140) -/

/-- A step that ends with a learn's end, as a reader sees it. -/
theorem learnEnded_outcome {v x r : State} {d : Fin 2} (hbooks : books r = books x)
    (hscreen : x.screen = (finishLearn v d).screen) (hlines : x.lines = (finishLearn v d).lines) :
    r.screen.controllers[d].mode = .cycling ∧ r.screen.controllers[d].current = none ∧
      r.screen.controllers[d].repeatTimer = false ∧
      (∀ k, v.configuration.dropPort d = some k → ∃ more, r.lines[k] = v.lines[k] ++ dropFrame 15 0x07 [] :: more) ∧
      ∀ p : Fin 16, keptPosition r.screen.positions[p] = keptPosition (unlearnedPositions v d)[p] := by
  obtain ⟨hcontroller, hpositions, hline, -⟩ := finishLearn_outcome v d
  have hkept := controllers_of_books hbooks d
  rw [hscreen, hcontroller] at hkept
  refine ⟨congrArg Controller.mode hkept, congrArg Controller.current hkept, congrArg Controller.repeatTimer hkept,
    fun k hport => ⟨firstPoll (unlearned v d) (v.configuration.linePositions d), ?_⟩, fun p => ?_⟩
  · exact (congrArg (fun y : State => y.lines[k]) hbooks).trans ((congrArg (·[k]) hlines).trans (hline k hport))
  · rw [positions_of_books hbooks p, hscreen, hpositions]

theorem unlearnedPositions_on {v : State} {d : Fin 2} {p : Fin 16} (h : p ∈ v.configuration.linePositions d) :
    (unlearnedPositions v d)[p] = { v.screen.positions[p] with state := .absent, skip := 0, missed := 0 } :=
  (Vector.getElem_ofFn _).trans (if_pos (mem_linePositions.mp h))

/-! ### END_LEARN (R140) -/

section

variable {u : State} {d : Fin 2}

theorem commandEndLearn_outside (h : 1 < argumentByte u) : commandEndLearn u = complete u .badArgument 0 := by
  rw [commandEndLearn, indexOf_eq_none.mpr h]

theorem commandEndLearn_line (h : argumentByte u = d.val) :
    commandEndLearn u =
      if learning u d then
        complete (finishLearn (clearLine u (u.configuration.dropPort d)) d) .done
          u.screen.controllers[d].acknowledged.length
      else complete u .refusedState 0 := by
  rw [commandEndLearn, indexOf_eq_some.mpr h]

theorem clearLine_getElem {k : Fin 6} (h : u.configuration.dropPort d = some k) :
    (clearLine u (u.configuration.dropPort d)).lines[k] = [] := by
  rw [h]
  exact Vector.getElem_set_self _

end

theorem journalWrites_commandTaken (s : State) (addr : Nat) (mask : ByteMask) (data : Dword) :
    journalWrites (commandTaken s addr mask data).path = journalWrites s.path := rfl

theorem windowBase_commandTaken (s : State) (addr : Nat) (mask : ByteMask) (data : Dword) (w : Fin 7) :
    windowBase (commandTaken s addr mask data) w = windowBase s w := by
  simp only [windowBase, commandTaken, written]
  rfl

/-- END_LEARN on a learning line, as a reader sees its end. -/
theorem endLearn_outcome {u r : State} {d : Fin 2}
    (hbooks : books r = books (complete (finishLearn (clearLine u (u.configuration.dropPort d)) d) .done
      u.screen.controllers[d].acknowledged.length))
    (hwrites : journalWrites r.path = journalWrites (complete
      (finishLearn (clearLine u (u.configuration.dropPort d)) d) .done
      u.screen.controllers[d].acknowledged.length).path) :
    r.screen.controllers[d].mode = .cycling ∧ r.screen.controllers[d].current = none ∧
      r.screen.controllers[d].repeatTimer = false ∧
      (∀ k, u.configuration.dropPort d = some k → ∃ more, r.lines[k] = dropFrame 15 0x07 [] :: more) ∧
      journalWrites r.path = journalWrites u.path ++ [(windowBase u 0 + 0x1838,
        completionDword (takenTag u) .done u.screen.controllers[d].acknowledged.length)] ∧
      (∀ p ∈ u.configuration.linePositions d, r.screen.positions[p].state = .absent ∧
        r.screen.positions[p].skip = 0 ∧ r.screen.positions[p].missed = 0) ∧
      r.totals = u.totals ∧ r.mem = u.mem := by
  obtain ⟨hmode, hcurrent, htimer, hlines, hpositions⟩ := learnEnded_outcome (d := d) hbooks rfl rfl
  obtain ⟨-, -, -, hpath, hcontrol, htotals, hmem⟩ := finishLearn_outcome (clearLine u (u.configuration.dropPort d)) d
  refine ⟨hmode, hcurrent, htimer, fun k hport => ?_, ?_, fun p hp => ?_, (congrArg (·.totals) hbooks).trans htotals,
    (congrArg (·.mem) hbooks).trans hmem⟩
  · obtain ⟨more, hline⟩ := hlines k hport
    rw [clearLine_getElem hport, List.nil_append] at hline
    exact ⟨more, hline⟩
  · rw [hwrites, journalWrites_complete, windowBase, hpath, hcontrol]
    rfl
  · have hkept := hpositions p
    rw [unlearnedPositions_on (v := clearLine u (u.configuration.dropPort d)) hp] at hkept
    exact ⟨congrArg Position.state hkept, congrArg Position.skip hkept, congrArg Position.missed hkept⟩

theorem endLearnEndsTheLearn : Claims.EndLearnEndsTheLearn := by
  intro s addr mask data hcommand t line
  have hconfiguration : t.configuration = s.configuration := configuration_commandTaken s addr mask data
  have hbyte : argumentByte t = line := argumentByte_commandTaken s addr mask data
  refine ⟨fun houtside => gives_command hcommand (exec_endLearn s) (commandEndLearn_outside (hbyte ▸ houtside)),
    fun d hline => ⟨fun hlearning => ?ends, fun hmode => ?refused⟩⟩
  case refused =>
    have hbody := commandEndLearn_line (hbyte.trans hline)
    exact gives_command hcommand (exec_endLearn s) (hbody.trans (if_neg fun h => hmode (beq_iff_eq.mp h)))
  case ends =>
    have hbody := commandEndLearn_line (hbyte.trans hline)
    have hlearns : learning t d = true := beq_iff_eq.mpr hlearning
    obtain ⟨r, hr, hbooks, hwrites⟩ := gives_command hcommand (exec_endLearn s) (hbody.trans (if_pos hlearns))
    have houtcome := endLearn_outcome hbooks hwrites
    rw [hconfiguration, journalWrites_commandTaken, windowBase_commandTaken] at houtcome
    exact ⟨r, hr, houtcome⟩

/-! ### The outcomes of an ASSIGN (R139, R140) -/

section

variable {s : State} {d : Fin 2} {p : Fin 16}

theorem awaitedExchange_some {e : Exchange} (h : s.screen.controllers[d].exchange = some e)
    (hphase : e.phase = .awaiting) : awaitedExchange s d = some e := by
  rw [awaitedExchange, h]
  exact Option.filter_some_pos (by simp [hphase])

theorem receiveDrop_judged {e : Exchange} (h : s.screen.controllers[d].exchange = some e)
    (hphase : e.phase = .awaiting) (frame : List Byte) :
    receiveDrop s d frame =
      takeOutcome s d e (judgeReply s.screen.positions[e.position].address e.kind frame) := by
  rw [receiveDrop, awaitedExchange_some h hphase]

theorem expireReply_judged {e : Exchange} (h : s.screen.controllers[d].exchange = some e)
    (hphase : e.phase = .awaiting) (late : ReplyTimeout) :
    expireReply s d late = takeOutcome s d e (if late = .noFirstByte then .noReply else .bad) := by
  simp only [expireReply, awaitedExchange_some h hphase]
  cases late <;> rfl

/-- The state whose assigned position has answered, its controller free for the next. -/
def acknowledgedState (s : State) (d : Fin 2) (p : Fin 16) : State :=
  setController (setPosition s p { s.screen.positions[p] with missed := 0 }) d
    { s.screen.controllers[d] with
      exchange := none, acknowledged := s.screen.controllers[d].acknowledged ++ [p] }

theorem takeOutcome_assign_good (phase : ExchangePhase) (kind : Byte) (payload : List Byte) :
    takeOutcome s d ⟨p, .assign, phase⟩ (.good kind payload) = assignNext (acknowledgedState s d p) d := rfl

theorem takeOutcome_assign_bad (phase : ExchangePhase) :
    takeOutcome s d ⟨p, .assign, phase⟩ .bad =
      sendDrop (setController s d { s.screen.controllers[d] with exchange := none, repeatTimer := true }) d
        (dropFrame broadcast 0x06 [BitVec.ofNat 8 s.screen.positions[p].address]) := rfl

theorem takeOutcome_assign_noReply (phase : ExchangePhase) :
    takeOutcome s d ⟨p, .assign, phase⟩ .noReply =
      setController s d { s.screen.controllers[d] with exchange := none, repeatTimer := true } := rfl

theorem unacknowledged_acknowledgedState :
    unacknowledged (acknowledgedState s d p) d = (s.configuration.linePositions d).filter fun x =>
      !(s.screen.controllers[d].acknowledged ++ [p]).contains x := by
  rw [unacknowledged, acknowledgedState, setController_self]
  rfl

/-- An acknowledgement leaves the positions apart from a missed count. -/
theorem acknowledgedState_position (x : Fin 16) :
    (acknowledgedState s d p).screen.positions[x] =
      if x = p then { s.screen.positions[p] with missed := 0 } else s.screen.positions[x] := by
  by_cases h : x = p
  · subst h
    rw [if_pos rfl]
    exact setPosition_self s x _
  · rw [if_neg h]
    exact setPosition_other s p _ h

theorem acknowledgedState_address (x : Fin 16) :
    (acknowledgedState s d p).screen.positions[x].address = s.screen.positions[x].address := by
  rw [acknowledgedState_position]
  split
  · next h => rw [h]
  · rfl

theorem acknowledgedState_echo (x : Fin 16) :
    (acknowledgedState s d p).screen.positions[x].echo = s.screen.positions[x].echo := by
  rw [acknowledgedState_position]
  split
  · next h => rw [h]
  · rfl

end

/-- A line check lost changes neither the lines nor the configuration. -/
theorem loseLineCheck_rest (u : State) (d : Fin 2) :
    (loseLineCheck u d).lines = u.lines ∧ (loseLineCheck u d).configuration = u.configuration := by
  unfold loseLineCheck
  split
  · exact ⟨rfl, rfl⟩
  · dsimp only
    split
    · exact ⟨rfl, congrArg (·.getD noConfiguration) (complete_kept _ _ _).2⟩
    · exact ⟨rfl, rfl⟩

/-- A line check whose ECHO has not been sent is lost with its terminal. -/
theorem loseLineCheck_lost {u : State} {d : Fin 2} {x : Fin 16} {pattern : List Byte}
    (hx : x ∈ u.configuration.linePositions d) (hcheck : u.control.lineCheck = some (x, pattern))
    (hecho : u.screen.positions[x].echo = true) :
    loseLineCheck u d = endLineCheck (setPosition u x { u.screen.positions[x] with echo := false }) .failed 3 := by
  rw [loseLineCheck]
  simp only [hcheck]
  exact if_pos (by rw [mem_linePositions.mp hx, hecho, Bool.and_self])

section

variable {s : State} {d : Fin 2} {p : Fin 16}

/-- The ACK of the last position left ends the learn. -/
theorem receiveDrop_lastAck (hexchange : s.screen.controllers[d].exchange = some ⟨p, .assign, .awaiting⟩)
    (haddress : s.screen.positions[p].address ≤ 14)
    (hleft : ((s.configuration.linePositions d).filter fun x =>
      !(s.screen.controllers[d].acknowledged ++ [p]).contains x) = []) :
    receiveDrop s d (dropFrame s.screen.positions[p].address 0x10 []) =
      finishLearn (loseLineCheck (acknowledgedState s d p) d) d := by
  rw [receiveDrop_judged hexchange rfl, judgeReply_ack _ haddress, takeOutcome_assign_good,
    assignNext_none (unacknowledged_acknowledgedState.trans hleft)]

/-- The ACK of another position assigns the next. -/
theorem receiveDrop_ack {next : Fin 16} {rest : List (Fin 16)}
    (hexchange : s.screen.controllers[d].exchange = some ⟨p, .assign, .awaiting⟩)
    (haddress : s.screen.positions[p].address ≤ 14)
    (hleft : ((s.configuration.linePositions d).filter fun x =>
      !(s.screen.controllers[d].acknowledged ++ [p]).contains x) = next :: rest) :
    receiveDrop s d (dropFrame s.screen.positions[p].address 0x10 []) =
      sendFrame
        (setController (setPosition s p { s.screen.positions[p] with missed := 0 }) d { s.screen.controllers[d] with
          acknowledged := s.screen.controllers[d].acknowledged ++ [p], current := some next, repeatTimer := false,
          exchange := some ⟨next, .assign, .sending⟩ })
        (s.configuration.dropPort d) (dropFrame 15 0x05 [BitVec.ofNat 8 s.screen.positions[next].address]) := by
  rw [receiveDrop_judged hexchange rfl, judgeReply_ack _ haddress, takeOutcome_assign_good,
    assignNext_some (unacknowledged_acknowledgedState.trans hleft), sendAssign_eq, acknowledgedState_address,
    acknowledgedState, setController_self, setController_setController]
  rfl

end

theorem assignOutcomesMoveTheLearn : Claims.AssignOutcomesMoveTheLearn := by
  intro s d k p hr hport hmode hexchange haddress c q good left
  refine ⟨fun next rest hleft => ?next, fun hleft => ?last, fun frame hbad => ?bad, ?noReply⟩
  case next =>
    have hbody := receiveDrop_ack hexchange haddress hleft
    rw [hport] at hbody
    exact gives_conclude hr (exec_dropReply d _ s) hbody
  case last =>
    obtain ⟨t, ht, hbooks, -⟩ :=
      gives_conclude hr (exec_dropReply d _ s) (receiveDrop_lastAck hexchange haddress hleft)
    obtain ⟨hlines, hconfiguration⟩ := loseLineCheck_rest (acknowledgedState s d p) d
    obtain ⟨hmode, hcurrent, -, hlock, hpositions⟩ := learnEnded_outcome (d := d) hbooks rfl rfl
    refine ⟨t, ht, hmode, hcurrent, ?_, fun x hx => ?_⟩
    · obtain ⟨more, hline⟩ := hlock k (by rw [hconfiguration]; exact hport)
      rw [hlines] at hline
      exact ⟨more, hline⟩
    · have hkept := hpositions x
      rw [unlearnedPositions_on (by rw [hconfiguration]; exact hx)] at hkept
      exact congrArg Position.state hkept
  case bad =>
    refine gives_conclude hr (exec_dropReply d frame s) ?_
    have hjudged := receiveDrop_judged hexchange rfl frame
    rw [hbad, takeOutcome_assign_bad] at hjudged
    rw [hjudged, ← hport]
    rfl
  case noReply =>
    refine gives_conclude hr (exec_dropReplyTimeout d .noFirstByte s) ?_
    rw [expireReply_judged hexchange rfl, if_pos rfl, takeOutcome_assign_noReply]

theorem repeatTimerAssignsAgain : Claims.RepeatTimerAssignsAgain := by
  intro s d p hr hmode htimer hcurrent
  refine gives_conclude hr (exec_learnRepeatExpiry d s) ?_
  have hassigns : repeatAssign s d = sendAssign s d p := by
    rw [repeatAssign]
    simp only [hmode, htimer, hcurrent]
  rw [hassigns, sendAssign_eq, ← hcurrent]

theorem lockEndsTheLineCheck : Claims.LockEndsTheLineCheck := by
  intro s d p x pattern hr hmode hexchange haddress hall hx hcheck hecho
  have hleft : ((s.configuration.linePositions d).filter fun y =>
      !(s.screen.controllers[d].acknowledged ++ [p]).contains y) = [] := by
    rw [List.filter_eq_nil_iff]
    intro y hy
    rcases hall y hy with rfl | hmem <;> simp_all
  obtain ⟨t, ht, hbooks, hwrites⟩ :=
    gives_conclude hr (exec_dropReply d _ s) (receiveDrop_lastAck hexchange haddress hleft)
  have hlost := loseLineCheck_lost (u := acknowledgedState s d p) hx hcheck ((acknowledgedState_echo x).trans hecho)
  obtain ⟨-, -, -, -, hpositions⟩ := learnEnded_outcome (d := d) hbooks rfl rfl
  obtain ⟨-, -, -, hpath, hcontrol, -, -⟩ := finishLearn_outcome (loseLineCheck (acknowledgedState s d p) d) d
  have hkept := hpositions x
  rw [unlearnedPositions_on (by rw [(loseLineCheck_rest _ d).2]; exact hx), hlost] at hkept
  refine ⟨t, ht, ?_, ?_, congrArg Position.state hkept, ?_⟩
  · have hkeptControl : t.control.lineCheck =
        (finishLearn (loseLineCheck (acknowledgedState s d p) d) d).control.lineCheck :=
      congrArg (·.control.lineCheck) hbooks
    rw [hkeptControl, hcontrol, hlost]
    exact (complete_kept _ _ _).1
  · refine (congrArg Position.echo hkept).trans ?_
    exact congrArg Position.echo (setPosition_self _ x _)
  · rw [hwrites, hpath, hlost, endLineCheck, journalWrites_complete]
    rfl

/-- Settles O49: the commands by their lines, the outcomes of an ASSIGN, and the LOCK. -/
theorem learnAssignsAddresses : Obligations.LearnAssignsAddresses :=
  ⟨startLearnAssignsTheLowest, startLearnMeetsTheCycle, endLearnEndsTheLearn, assignOutcomesMoveTheLearn,
    repeatTimerAssignsAgain, lockEndsTheLineCheck⟩

end Sys2Proof.Machine
end

