-- ==== Sys2Proof/Proofs/Exchanges.lean ====
section
/-! SUPPORT. How an exchange begins on a drop line: the cycle and its visits, the ROW frame, the reply wait, and the
frame with its check (R123, R125 to R130). -/

namespace Sys2Proof.Machine

/-! ### The row of a visit (R128) -/

theorem rowToSend_eq_some {dirty : BitVec 24} {r : Nat} (hr : r < 24) :
    rowToSend dirty = some r ↔ dirty.getLsbD r = true ∧
      (r = 23 ∨ dirty.getLsbD 23 = false ∧ ∀ i < r, dirty.getLsbD i = false) := by
  unfold rowToSend
  by_cases h : dirty.getLsbD 23 = true
  · rw [if_pos h, Option.some.injEq]
    refine ⟨?_, ?_⟩
    · rintro rfl
      exact ⟨h, .inl rfl⟩
    · rintro ⟨_, rfl | ⟨hnot, _⟩⟩
      · rfl
      · rw [h] at hnot
        cases hnot
  · rw [if_neg h, List.find?_range_eq_some]
    refine ⟨fun ⟨hdirty, hmem, hlower⟩ => ⟨hdirty, .inr ⟨Bool.eq_false_iff.mpr h, fun i hi => ?_⟩⟩, ?_⟩
    · simpa using hlower i hi
    · rintro ⟨hdirty, rfl | ⟨_, hlower⟩⟩
      · exact absurd hdirty h
      · refine ⟨hdirty, List.mem_range.mpr ?_, fun i hi => by simp [hlower i hi]⟩
        have : r ≠ 23 := fun e => h (e ▸ hdirty)
        omega

theorem rowToSend_eq_none {dirty : BitVec 24} (h : ∀ i < 24, dirty.getLsbD i = false) : rowToSend dirty = none := by
  rw [rowToSend, if_neg (Bool.eq_false_iff.mp (h 23 (by decide))), List.find?_eq_none]
  intro i hi
  simp [h i (by have := List.mem_range.mp hi; omega)]

/-- The rows that a visit may send: those dirty, without one that waits for a later visit. -/
def sendable (dirty : BitVec 24) (later : Option Nat) : BitVec 24 := later.elim dirty (withoutRow dirty)

theorem rowToSend_sendable_zero (later : Option Nat) : rowToSend (sendable 0 later) = none := by
  refine rowToSend_eq_none fun i _ => ?_
  cases later <;> simp [sendable, withoutRow]

/-! ### Visits (R127 to R130) -/

section

variable {s : State} {d : Fin 2} {p : Fin 16}

theorem ofNat_bit (b : Bool) : BitVec.ofNat 8 (bit b) = if b = true then 1 else 0 := by cases b <;> rfl

theorem sendPoll_eq (s : State) (d : Fin 2) (p : Fin 16) :
    sendPoll s d p =
      sendFrame (setController s d { s.screen.controllers[d] with exchange := some ⟨p, .poll, .sending⟩ })
        (s.configuration.dropPort d)
        (dropFrame s.screen.positions[p].address 0x02
          [if s.screen.positions[p].pollBit = true then 1 else 0]) := by
  rw [sendPoll, ofNat_bit, beginExchange_eq]

/-- An exchange that begins with its controller replaced. -/
theorem beginExchange_setController (s : State) (d : Fin 2) (c : Controller) (p : Fin 16) (kind : ExchangeKind)
    (frame : List Byte) :
    beginExchange (setController s d c) d p kind frame =
      sendFrame (setController s d { c with exchange := some ⟨p, kind, .sending⟩ })
        (s.configuration.dropPort d) frame := by
  rw [beginExchange_eq, setController_self, setController_setController]
  rfl

theorem sendPoll_setController (s : State) (d : Fin 2) (c : Controller) (p : Fin 16) :
    sendPoll (setController s d c) d p =
      sendFrame (setController s d { c with exchange := some ⟨p, .poll, .sending⟩ }) (s.configuration.dropPort d)
        (dropFrame s.screen.positions[p].address 0x02
          [if s.screen.positions[p].pollBit = true then 1 else 0]) := by
  rw [sendPoll_eq, setController_self, setController_setController]
  rfl

/-- With no row to send, or two rows sent, a visit polls. -/
theorem visitRows_polls {later : Option Nat} (h : rowToSend (sendable s.screen.positions[p].dirty later) = none ∨
    2 ≤ s.screen.controllers[d].rowsSent) : visitRows s d p later = sendPoll s d p := by
  have hrow : visitRows s d p later = (rowToSend (sendable s.screen.positions[p].dirty later)).elim (sendPoll s d p)
      fun r => if s.screen.controllers[d].rowsSent < 2 then takeRow s d p r else sendPoll s d p := by
    cases later <;> simp only [visitRows, sendable, Option.elim] <;> split <;> simp_all
  rw [hrow]
  cases hsend : rowToSend (sendable s.screen.positions[p].dirty later) with
  | none => rfl
  | some r => exact if_neg (by simp only [hsend, reduceCtorEq, false_or] at h; omega)

theorem visitRows_takes {later : Option Nat} {r : Nat}
    (h : rowToSend (sendable s.screen.positions[p].dirty later) = some r)
    (hsent : s.screen.controllers[d].rowsSent < 2) : visitRows s d p later = takeRow s d p r := by
  cases later <;> simp only [sendable, Option.elim] at h <;> simp only [visitRows, h] <;> exact if_pos hsent

theorem visitEcho_of_none (h : s.screen.positions[p].echo = false) : visitEcho s d p = visitRows s d p none := by
  simp only [visitEcho, h]

theorem visitNext_present {rest : List (Fin 16)} (h : s.screen.positions[p].state = .present) :
    visitNext s d (p :: rest) = beginVisit s d p rest := by
  simp only [visitNext, h]

theorem visitNext_due {rest : List (Fin 16)} (h : s.screen.positions[p].state = .absent)
    (hskip : s.screen.positions[p].skip = 0) :
    visitNext s d (p :: rest) =
      sendPoll (setController s d { s.screen.controllers[d] with remaining := rest }) d p := by
  simp only [visitNext, h]
  exact if_pos hskip

theorem visitNext_skips {rest : List (Fin 16)} (h : s.screen.positions[p].state = .absent)
    (hskip : 0 < s.screen.positions[p].skip) :
    visitNext s d (p :: rest) =
      visitNext (setPosition s p { s.screen.positions[p] with skip := s.screen.positions[p].skip - 1 }) d rest := by
  rw [visitNext]
  simp only [h]
  exact if_neg (by omega)

theorem beginVisit_bell {rest : List (Fin 16)} (h : s.screen.positions[p].bell = true) :
    beginVisit s d p rest =
      sendFrame
        (setController (setPosition s p { s.screen.positions[p] with bell := false }) d { s.screen.controllers[d] with
          remaining := rest, rowsSent := 0, exchange := some ⟨p, .bell, .sending⟩ })
        (s.configuration.dropPort d) (dropFrame s.screen.positions[p].address 0x03 []) := by
  exact (if_pos h).trans (beginExchange_setController (setPosition s p { s.screen.positions[p] with bell := false }) d
    { s.screen.controllers[d] with remaining := rest, rowsSent := 0 } p .bell _)

/-- A visit without a BELL or an ECHO goes to its rows. -/
theorem beginVisit_rows {rest : List (Fin 16)} (hbell : s.screen.positions[p].bell = false)
    (hecho : s.screen.positions[p].echo = false) :
    beginVisit s d p rest =
      visitRows (setController s d { s.screen.controllers[d] with remaining := rest, rowsSent := 0 }) d p none := by
  refine (if_neg (Bool.eq_false_iff.mp hbell)).trans ?_
  exact visitEcho_of_none (s := setController s d _) hecho

theorem startCycle_idle (hmode : s.screen.controllers[d].mode = .cycling)
    (hexchange : s.screen.controllers[d].exchange = none) :
    startCycle s d = visitNext s d (s.configuration.linePositions d) := if_pos ⟨hmode, hexchange⟩

end

theorem cyclePollsAPresentTerminal : Claims.CyclePollsAPresentTerminal := by
  intro s d k p rest hr hmode hexchange hpositions hport hpresent hbell hecho hdirty
  refine gives_conclude hr (exec_cycleStart d s) ?_
  rw [startCycle_idle hmode hexchange, hpositions, visitNext_present hpresent]
  rw [beginVisit_rows hbell hecho, visitRows_polls, sendPoll_setController, hport]
  left
  rw [show (setController s d _).screen.positions[p].dirty = 0 from hdirty]
  exact rowToSend_sendable_zero none

/-! ### Skipped terminals (R127, R129) -/

/-- The state with the skip counts of some positions lowered. -/
def lowered (s : State) (skipped : List (Fin 16)) : State :=
  { s with screen := { s.screen with
      positions := Vector.ofFn fun x : Fin 16 =>
        if x ∈ skipped then { s.screen.positions[x] with skip := s.screen.positions[x].skip - 1 }
        else s.screen.positions[x] } }

theorem lowered_nil (s : State) : lowered s [] = s := by simp [lowered]

theorem lowered_position (s : State) (skipped : List (Fin 16)) (x : Fin 16) :
    (lowered s skipped).screen.positions[x] =
      if x ∈ skipped then { s.screen.positions[x] with skip := s.screen.positions[x].skip - 1 }
      else s.screen.positions[x] := Vector.getElem_ofFn _

theorem lowered_cons (s : State) {x : Fin 16} {skipped : List (Fin 16)} (h : x ∉ skipped) :
    lowered (setPosition s x { s.screen.positions[x] with skip := s.screen.positions[x].skip - 1 }) skipped =
      lowered s (x :: skipped) := by
  have hpositions : (lowered (setPosition s x { s.screen.positions[x] with
      skip := s.screen.positions[x].skip - 1 }) skipped).screen.positions =
      (lowered s (x :: skipped)).screen.positions := by
    refine Vector.ext fun i hi => ?_
    have hleft := lowered_position (setPosition s x { s.screen.positions[x] with
      skip := s.screen.positions[x].skip - 1 }) skipped ⟨i, hi⟩
    have hright := lowered_position s (x :: skipped) ⟨i, hi⟩
    refine hleft.trans (Eq.trans ?_ hright.symm)
    by_cases heq : (⟨i, hi⟩ : Fin 16) = x
    · subst heq
      rw [if_neg h, if_pos List.mem_cons_self, setPosition_self]
    · rw [setPosition_other s x _ heq]
      simp only [List.mem_cons, heq, false_or]
  have hscreen : (lowered (setPosition s x { s.screen.positions[x] with
      skip := s.screen.positions[x].skip - 1 }) skipped).screen = (lowered s (x :: skipped)).screen :=
    congrArg (fun v => ({ s.screen with positions := v } : Screen)) hpositions
  exact congrArg (fun v => ({ s with screen := v } : State)) hscreen

/-- The cycle passes the skipped terminals. -/
theorem visitNext_lowered {d : Fin 2} {skipped : List (Fin 16)} (rest : List (Fin 16)) (hnodup : skipped.Nodup)
    {s : State} (hskipped : ∀ x ∈ skipped, s.screen.positions[x].state = .absent ∧ 0 < s.screen.positions[x].skip) :
    visitNext s d (skipped ++ rest) = visitNext (lowered s skipped) d rest := by
  induction skipped generalizing s with
  | nil => rw [lowered_nil, List.nil_append]
  | cons x skipped ih =>
    obtain ⟨hx, hnodup⟩ := List.nodup_cons.mp hnodup
    obtain ⟨habsent, hskip⟩ := hskipped x List.mem_cons_self
    rw [List.cons_append, visitNext_skips habsent hskip, ih hnodup, lowered_cons s hx]
    intro y hy
    rw [setPosition_other s x _ (fun e => hx (e ▸ hy))]
    exact hskipped y (List.mem_cons_of_mem x hy)

theorem linePositions_nodup (c : Configuration) (d : Fin 2) : (c.linePositions d).Nodup :=
  (List.nodup_finRange 16).filter _

theorem cycleSkipsOrPollsAnAbsentTerminal : Claims.CycleSkipsOrPollsAnAbsentTerminal := by
  intro s d skipped hr hmode hexchange hskipped low
  have hstart := startCycle_idle hmode hexchange
  have hnodup := linePositions_nodup s.configuration d
  refine ⟨fun k p rest hpositions hport habsent hskip => ?polls, fun hpositions => ?passes⟩
  case polls =>
    rw [hpositions] at hstart hnodup
    obtain ⟨hnodup, -, hapart⟩ := List.nodup_append.mp hnodup
    have hp : p ∉ skipped := fun h => hapart p h p List.mem_cons_self rfl
    have hposition : (lowered s skipped).screen.positions[p] = s.screen.positions[p] :=
      (lowered_position s skipped p).trans (if_neg hp)
    refine gives_conclude hr (exec_cycleStart d s) ?_
    rw [hstart, visitNext_lowered _ hnodup hskipped,
      visitNext_due (by rw [hposition, habsent]) (by rw [hposition, hskip]), sendPoll_setController, hposition, ← hport]
    rfl
  case passes =>
    rw [hpositions] at hstart hnodup
    refine gives_conclude hr (exec_cycleStart d s) ?_
    have hpassed := visitNext_lowered (d := d) [] hnodup hskipped
    rw [List.append_nil] at hpassed
    rw [hstart, hpassed]
    rfl

/-! ### The ROW frame and the reply wait (R125, R126, R128) -/

theorem fullRowBufferIsSent : Claims.FullRowBufferIsSent := by
  intro s d p resend hr hexchange hfull
  refine gives_conclude hr (exec_rowSend d s) ?_
  rw [sendRow]
  simp only [hexchange]
  exact (if_pos hfull).trans (beginExchange_eq s d p _ _)

theorem sentFrameAwaitsItsReply : Claims.SentFrameAwaitsItsReply := by
  intro s d k e frame hr hport hline hexchange hphase
  refine gives_conclude hr (exec_dropFrameSent d s) ?_
  have hsent : (frameSent s k).lines = s.lines.set k [] := by rw [frameSent_lines, hline]; rfl
  have hempty : ((frameSent s k).lines[k]).isEmpty = true := by rw [hsent]; simp
  rw [dropSent]
  simp only [hport]
  rw [if_neg (by simp [hline]), if_pos hempty, hexchange, Option.map_some, if_pos hphase]
  exact congrArg (fun l => setController { s with lines := l } d _) hsent

/-! ### The frame of a drop line (R125) -/

theorem crc8Shift_ofNat (r : Nat) (h : r < 2 ^ 8) :
    BitVec.ofNat 8 (crc8Shift r) =
      if (BitVec.ofNat 8 r).msb = true then ((BitVec.ofNat 8 r) <<< 1) ^^^ 0x07 else (BitVec.ofNat 8 r) <<< 1 := by
  have hshift : (BitVec.ofNat 8 r) <<< 1 = BitVec.ofNat 8 (2 * r % 0x100) := by
    apply BitVec.eq_of_toNat_eq
    simp only [BitVec.toNat_shiftLeft, BitVec.toNat_ofNat, Nat.shiftLeft_eq]
    omega
  have hmsb : (BitVec.ofNat 8 r).msb = decide (0x80 ≤ r) := by
    rw [BitVec.msb_eq_decide, BitVec.toNat_ofNat, Nat.mod_eq_of_lt h]
  rw [hshift, hmsb, crc8Shift]
  by_cases hhigh : 0x80 ≤ r
  · rw [if_pos hhigh, if_pos (decide_eq_true hhigh), BitVec.ofNat_xor]
    rfl
  · rw [if_neg hhigh, if_neg (by simpa using hhigh), Nat.mod_eq_of_lt (by omega)]

theorem crc8Byte_eq (r b : Nat) : crc8Byte r b = crc8Shift^[8] (r ^^^ b) := by
  simp only [crc8Byte, Function.iterate_succ_apply, Function.iterate_zero, id]

theorem frameCheckIsAShiftRegister : Claims.FrameCheckIsAShiftRegister := by
  refine ⟨by decide, fun bytes b => ?_⟩
  have hrun : ∀ r < 2 ^ 8, ∀ x < 256, crc8Byte r x < 2 ^ 8 := fun r hr x hx =>
    crc8Byte_eq r x ▸ iterate_lt crc8Shift_lt 8 _ (Nat.xor_lt_two_pow hr hx)
  have hlt := crcFeed_lt hrun bytes 0 (by norm_num)
  generalize hshift : (fun r : BitVec 8 => if r.msb = true then (r <<< 1) ^^^ 0x07 else r <<< 1) = shift
  have hstep := iterate_of (g := shift) crc8Shift_lt (fun r hr => hshift ▸ crc8Shift_ofNat r hr) 8 _
    (Nat.xor_lt_two_pow hlt b.isLt)
  rw [crc8, crc8, crcFeed_append, crc8Byte_eq, hstep, BitVec.ofNat_xor, BitVec.ofNat_toNat, BitVec.setWidth_eq]

/-- Settles O50: the cycle by its first position, the ROW frame, the reply wait, and the frame's check. -/
theorem exchangesAreSentOnTheDropLine : Obligations.ExchangesAreSentOnTheDropLine :=
  ⟨cyclePollsAPresentTerminal, cycleSkipsOrPollsAnAbsentTerminal, fullRowBufferIsSent, sentFrameAwaitsItsReply,
    fun _ _ _ => rfl, frameCheckIsAShiftRegister⟩

end Sys2Proof.Machine
end

