-- ==== Sys2Proof/Proofs/JudgedReplies.lean ====
section
/-! SUPPORT. A received frame judged, and what an outcome does to the missed count (R126, R129, 13.8). -/

namespace Sys2Proof.Machine

/-! ### The judgement of a frame (R126, 13.8) -/

/-- Bytes behind a head that end with the check of all before it: a payload and that check. -/
theorem checked_iff (head rest : List Byte) (n : Nat) :
    (rest.length = n + 1 ∧ (head ++ rest).getLast? = some (crc8 (head ++ rest).dropLast)) ↔
      ∃ payload : List Byte, payload.length = n ∧ rest = payload ++ [crc8 (head ++ payload)] := by
  constructor
  · rintro ⟨hlength, hcheck⟩
    rcases List.eq_nil_or_concat' rest with rfl | ⟨payload, last, rfl⟩
    · simp at hlength
    · rw [← List.append_assoc, List.getLast?_concat, List.dropLast_concat, Option.some.injEq] at hcheck
      exact ⟨payload, by simpa using hlength, by rw [hcheck]⟩
  · rintro ⟨payload, hlength, rfl⟩
    rw [← List.append_assoc, List.getLast?_concat, List.dropLast_concat]
    exact ⟨by simp [hlength], rfl⟩

/-- A whole frame is its first three bytes, the payload they announce, and the check of all these. -/
theorem dropFrameWhole_iff {a k len : Byte} {rest : List Byte} :
    dropFrameWhole (a :: k :: len :: rest) = true ↔
      ∃ payload : List Byte, payload.length = len.toNat ∧
        rest = payload ++ [crc8 (a :: k :: len :: payload)] := by
  simp only [dropFrameWhole, Bool.and_eq_true, beq_iff_eq]
  exact checked_iff [a, k, len] rest len.toNat

/-- A frame judged GOOD is the one of the address awaited that the exchange calls for. -/
theorem judgeReply_eq_good {address : Nat} {kind : ExchangeKind} {frame : List Byte} {code : Byte}
    {payload : List Byte} (haddress : address < 256) :
    judgeReply address kind frame = .good code payload ↔
      frame = dropFrame address code payload ∧ payload.length < 256 ∧ replyFits kind code payload.length = true := by
  constructor
  · intro h
    unfold judgeReply at h
    dsimp only at h
    split at h
    · next hgood =>
      simp only [Bool.and_eq_true, beq_iff_eq] at hgood
      obtain ⟨⟨hwhole, hfrom⟩, hfits⟩ := hgood
      obtain ⟨rfl, rfl⟩ := DropOutcome.good.inj h
      match frame, hwhole with
      | a :: k :: len :: rest, hwhole =>
        obtain ⟨payload, hlength, rfl⟩ := dropFrameWhole_iff.mp hwhole
        have hpayload : ((a :: k :: len :: (payload ++ [crc8 (a :: k :: len :: payload)])).drop 3).take len.toNat =
            payload := by simp [← hlength]
        have hcut : ((a :: k :: len :: (payload ++ [crc8 (a :: k :: len :: payload)])).drop 3).take
            ((a :: k :: len :: (payload ++ [crc8 (a :: k :: len :: payload)])).getD 2 0).toNat = payload := hpayload
        have ha : BitVec.ofNat 8 address = a := by
          rw [← hfrom]
          simp
        have hlen : BitVec.ofNat 8 payload.length = len := by
          rw [hlength]
          simp
        rw [hcut]
        refine ⟨?_, ?_, ?_⟩
        · rw [dropFrame, ha, hlen]
          rfl
        · rw [hlength]
          exact len.isLt
        · rw [hlength]
          exact hfits
    · cases h
  · rintro ⟨rfl, hshort, hfits⟩
    have hlen : (BitVec.ofNat 8 payload.length).toNat = payload.length := by
      rw [BitVec.toNat_ofNat, Nat.mod_eq_of_lt hshort]
    have hwhole : dropFrameWhole (dropFrame address code payload) = true :=
      dropFrameWhole_iff.mpr ⟨payload, hlen.symm, rfl⟩
    have hfrom : ((dropFrame address code payload).getD 0 0).toNat = address :=
      (BitVec.toNat_ofNat _ _).trans (Nat.mod_eq_of_lt haddress)
    have hlength : ((dropFrame address code payload).getD 2 0).toNat = payload.length := hlen
    have hcode : (dropFrame address code payload).getD 1 0 = code := rfl
    have hpayload : ((dropFrame address code payload).drop 3).take payload.length = payload := by
      simp [dropFrame]
    unfold judgeReply
    simp only [hwhole, hfrom, hlength, hcode, hpayload, hfits, beq_self_eq_true, Bool.and_self, if_true]

theorem judgeReply_eq_bad {address : Nat} {kind : ExchangeKind} {frame : List Byte}
    (h : ∀ code payload, judgeReply address kind frame ≠ .good code payload) :
    judgeReply address kind frame = .bad := by
  unfold judgeReply at h ⊢
  dsimp only at h ⊢
  split
  · next hgood => exact absurd (if_pos hgood) (h _ _)
  · rfl

theorem replyIsGoodOrBad : Claims.ReplyIsGoodOrBad := by
  intro address kind frame haddress expected
  have hexpected (code : Byte) (payload : List Byte) :
      expected code payload ↔ payload.length < 256 ∧ replyFits kind code payload.length = true := by
    cases kind with
    | row resend => simp +contextual [expected, replyFits]
    | bell => simp +contextual [expected, replyFits]
    | assign => simp +contextual [expected, replyFits]
    | poll =>
      simp only [expected, replyFits, Bool.or_eq_true, Bool.and_eq_true, beq_iff_eq, decide_eq_true_eq,
        List.length_eq_zero_iff]
      constructor
      · rintro (⟨rfl, rfl⟩ | ⟨rfl, hlow, hhigh, heven⟩)
        · exact ⟨by decide, .inl ⟨rfl, rfl⟩⟩
        · exact ⟨by omega, .inr ⟨⟨rfl, hlow, hhigh⟩, heven⟩⟩
      · rintro ⟨-, ⟨rfl, rfl⟩ | ⟨⟨rfl, hlow, hhigh⟩, heven⟩⟩
        · exact .inl ⟨rfl, rfl⟩
        · exact .inr ⟨rfl, hlow, hhigh, heven⟩
    | echo => simp +contextual [expected, replyFits]
  have hgood (code : Byte) (payload : List Byte) : judgeReply address kind frame = .good code payload ↔
      frame = dropFrame address code payload ∧ expected code payload := by
    rw [judgeReply_eq_good haddress, hexpected]
  exact ⟨hgood, fun h => judgeReply_eq_bad fun code payload hjudged => h code payload ((hgood code payload).mp hjudged)⟩

/-- A frame that fits the exchange is GOOD. -/
theorem judgeReply_of_fits {address : Nat} (haddress : address ≤ 14) {kind : ExchangeKind} {code : Byte}
    {payload : List Byte} (hshort : payload.length < 256) (hfits : replyFits kind code payload.length = true) :
    judgeReply address kind (dropFrame address code payload) = .good code payload :=
  (judgeReply_eq_good (by omega)).mpr ⟨rfl, hshort, hfits⟩

theorem rowTwentyThreeGoesFirst : Claims.RowTwentyThreeGoesFirst := by
  refine fun dirty => ⟨?_, fun r hr => rowToSend_eq_some hr⟩
  rintro rfl
  exact rowToSend_sendable_zero none

/-! ### The missed count (R126, R129) -/

section

variable {s : State} {d : Fin 2} {p : Fin 16} {kind : ExchangeKind} {phase : ExchangePhase}

theorem setPosition_same (s : State) (p : Fin 16) : setPosition s p s.screen.positions[p] = s := by
  simp [setPosition]

theorem setController_same (s : State) (d : Fin 2) : setController s d s.screen.controllers[d] = s := by
  simp [setController]

theorem countMiss_of_few (h : s.screen.positions[p].state = .present) (hmissed : s.screen.positions[p].missed < 2) :
    countMiss s p = setPosition s p { s.screen.positions[p] with missed := s.screen.positions[p].missed + 1 } := by
  rw [countMiss]
  exact (if_neg (not_not_intro h)).trans (if_pos (by omega))

theorem countMiss_of_third (h : s.screen.positions[p].state = .present) (hmissed : s.screen.positions[p].missed = 2) :
    countMiss s p = loseTerminal s p := by
  rw [countMiss]
  exact (if_neg (not_not_intro h)).trans (if_neg (by omega))

theorem countMiss_of_absent (h : s.screen.positions[p].state = .absent) : countMiss s p = s := by
  rw [countMiss]
  exact if_pos (by rw [h]; decide)

end

end Sys2Proof.Machine
end

