-- ==== Sys2Proof/Proofs/Outcomes.lean ====
section
/-! SUPPORT. How the exchanges of a visit end: the POLL, the ROW, the ECHO and the BELL, the third miss, the terminal
that returns, and the cycle that a START_LEARN stops (R126 to R130, R136, R138, R139, R141). -/

namespace Sys2Proof.Machine

/-! ### What follows an exchange (R127, R138) -/

section

variable {u : State} {d : Fin 2} {p : Fin 16} {later : Option Nat}

theorem clearExchange_eq (u : State) (d : Fin 2) :
    clearExchange u d = setController u d { u.screen.controllers[d] with exchange := none } := rfl

theorem clearExchange_rowNumber (u : State) (d : Fin 2) :
    (clearExchange u d).screen.controllers[d].rowNumber = u.screen.controllers[d].rowNumber := by
  rw [clearExchange_eq, setController_self]

theorem afterExchange_visit (h : u.screen.controllers[d].mode = .cycling) (visit : State → State) :
    afterExchange (clearExchange u d) d visit = visit (clearExchange u d) := by
  refine if_neg ?_
  rw [clearExchange_eq, setController_self]
  exact fun hstopping => nomatch h.symm.trans hstopping

/-- A visit goes on to its POLL. -/
theorem visitRows_cleared_polls (h : rowToSend (sendable u.screen.positions[p].dirty later) = none ∨
    2 ≤ u.screen.controllers[d].rowsSent) :
    visitRows (clearExchange u d) d p later =
      sendFrame (setController u d { u.screen.controllers[d] with exchange := some ⟨p, .poll, .sending⟩ })
        (u.configuration.dropPort d)
        (dropFrame u.screen.positions[p].address 0x02
          [if u.screen.positions[p].pollBit = true then 1 else 0]) := by
  have hsent : (clearExchange u d).screen.controllers[d].rowsSent = u.screen.controllers[d].rowsSent := by
    rw [clearExchange_eq, setController_self]
  rw [visitRows_polls (s := clearExchange u d) (by rw [hsent]; exact h), clearExchange_eq, sendPoll_setController]

theorem view_takeRow (u : State) (d : Fin 2) (p : Fin 16) (r : Nat) :
    view (takeRow u d p r) = view (setController
      (setPosition u p { u.screen.positions[p] with
        dirty := u.screen.positions[p].dirty &&& ~~~BitVec.twoPow 24 r }) d
      { u.screen.controllers[d] with
        exchange := some ⟨p, .row false, .filling⟩, rowNumber := r,
        rowsSent := u.screen.controllers[d].rowsSent + 1 }) := by
  have hbuffer (v : State) (c : Controller) (row : List Dword) :
      view (setController v d { c with row := row }) = view (setController v d c) := by
    simp [view, books, setController, Vector.map_set]
  rw [takeRow]
  dsimp only
  split
  · exact hbuffer _ { u.screen.controllers[d] with
      exchange := some ⟨p, .row false, .filling⟩, rowNumber := r, rowsSent := u.screen.controllers[d].rowsSent + 1 } _
  · rw [view_requestFetch]
    exact hbuffer _ { u.screen.controllers[d] with
      exchange := some ⟨p, .row false, .filling⟩, rowNumber := r, rowsSent := u.screen.controllers[d].rowsSent + 1 } _

/-- A visit goes on to another row. -/
theorem view_visitRows_cleared {r : Nat} (h : rowToSend (sendable u.screen.positions[p].dirty later) = some r)
    (hsent : u.screen.controllers[d].rowsSent = 1) :
    view (visitRows (clearExchange u d) d p later) = view (setController
      (setPosition u p { u.screen.positions[p] with
        dirty := u.screen.positions[p].dirty &&& ~~~BitVec.twoPow 24 r }) d
      { u.screen.controllers[d] with
        exchange := some ⟨p, .row false, .filling⟩, rowNumber := r, rowsSent := 2 }) := by
  have hrows : (clearExchange u d).screen.controllers[d].rowsSent = 1 := by
    rw [clearExchange_eq, setController_self]
    exact hsent
  have hset (q : Position) (c c' : Controller) :
      setController (setPosition (setController u d c) p q) d c' = setController (setPosition u p q) d c' :=
    setController_setController (setPosition u p q) d c c'
  rw [visitRows_takes (s := clearExchange u d) h (by omega), view_takeRow, hrows, clearExchange_eq, hset,
    setController_self]
  rfl

variable {s : State} {w : Position}

/-- The same behind an outcome that changed the position alone. -/
theorem visitRows_polls_at (h : rowToSend (sendable w.dirty later) = none ∨ 2 ≤ s.screen.controllers[d].rowsSent) :
    visitRows (clearExchange (setPosition s p w) d) d p later =
      sendFrame (setController (setPosition s p w) d { s.screen.controllers[d] with
        exchange := some ⟨p, .poll, .sending⟩ }) (s.configuration.dropPort d)
        (dropFrame w.address 0x02 [if w.pollBit = true then 1 else 0]) := by
  have hpolls := visitRows_cleared_polls (u := setPosition s p w) (d := d) (p := p) (later := later)
  rw [setPosition_self] at hpolls
  exact hpolls h

theorem view_visitRows_at {r : Nat} (h : rowToSend (sendable w.dirty later) = some r)
    (hsent : s.screen.controllers[d].rowsSent = 1) :
    view (visitRows (clearExchange (setPosition s p w) d) d p later) = view (setController
      (setPosition s p { w with dirty := w.dirty &&& ~~~BitVec.twoPow 24 r }) d
      { s.screen.controllers[d] with
        exchange := some ⟨p, .row false, .filling⟩, rowNumber := r, rowsSent := 2 }) := by
  have htakes := view_visitRows_cleared (u := setPosition s p w) (d := d) (p := p) (later := later) (r := r)
  rw [setPosition_self, setPosition_setPosition] at htakes
  exact htakes h hsent

/-- A visit that ends with its cycle. -/
theorem endVisit_cycle (hmode : u.screen.controllers[d].mode = .cycling)
    (hremaining : u.screen.controllers[d].remaining = []) :
    endVisit u d = setController u d { u.screen.controllers[d] with exchange := none } :=
  endVisit_last rfl hmode hremaining

end

/-! ### The POLL (R126, R127, R129, R130) -/

section

variable {s : State} {d : Fin 2} {p : Fin 16}

theorem keysTaken_nil (s : State) (p : Fin 16) : keysTaken s p [] = s := setPosition_same s p

theorem judgeReply_empty {address : Nat} (h : address ≤ 14) :
    judgeReply address .poll (dropFrame address 0x13 []) = .good 0x13 [] :=
  judgeReply_of_fits h (by decide) (by decide)

/-- The GOOD outcome of a PRESENT terminal's POLL. -/
theorem takeOutcome_poll_good {kind : Byte} {payload : List Byte} (h : s.screen.positions[p].state = .present) :
    takeOutcome s d ⟨p, .poll, .awaiting⟩ (.good kind payload) =
      endVisit (keysTaken (setPosition s p { s.screen.positions[p] with
        missed := 0, pollBit := !s.screen.positions[p].pollBit }) p
        (if kind = 0x12 then keyEntries payload else [])) d := by
  have hpresent : ¬(s.screen.positions[p].state = .absent) := fun habsent => nomatch h.symm.trans habsent
  simp only [takeOutcome, countOutcome, pollOutcome, hpresent, decide_false, Bool.false_eq_true, if_false,
    setPosition_self, setPosition_setPosition]

end

theorem goodPollFlipsThePollBit : Claims.GoodPollFlipsThePollBit := by
  intro s d p hr hexchange hmode hremaining hpresent haddress
  refine gives_conclude hr (exec_dropReply d _ s) ?_
  rw [receiveDrop_judged hexchange rfl, judgeReply_empty haddress, takeOutcome_poll_good hpresent, if_neg (by decide),
    keysTaken_nil]
  exact endVisit_last rfl hmode hremaining

theorem unawaitedReplyIsDiscarded : Claims.UnawaitedReplyIsDiscarded := by
  intro s d frame hr hnone
  refine gives_conclude hr (exec_dropReply d frame s) ?_
  rw [receiveDrop]
  simp only [hnone]

/-! ### The third miss (R126, R129, R141) -/

/-- The state with a terminal lost: its entry handed over, and then its CHECK_LINE ended. -/
def terminalLostState (s : State) (p : Fin 16) : State :=
  let q := s.screen.positions[p]
  let lost := eventEntry
    (raiseAlert
      (setPosition s p { q with state := .absent, skip := 7, missed := 0, bell := false, echo := false })
      .terminalLost)
    { kind := 14, code := 1, position := p.val + 1, ref := q.line, amountA := q.address }
  if q.echo = true then complete { lost with control := { lost.control with lineCheck := none } } .failed 3 else lost

theorem loseTerminal_eq (s : State) (p : Fin 16) : loseTerminal s p = recomposeRows (terminalLostState s p) := rfl

theorem terminalLostState_controllers (s : State) (p : Fin 16) :
    (terminalLostState s p).screen.controllers = s.screen.controllers := by
  have hlost (u : State) (f : EntryFields) : (eventEntry u f).screen.controllers = u.screen.controllers :=
    congrArg (·.controllers) (eventEntry_screen u f)
  unfold terminalLostState
  dsimp only
  split
  · exact hlost _ _
  · exact hlost _ _

theorem thirdMissLosesTheTerminal : Claims.ThirdMissLosesTheTerminal := by
  intro s d p hr hexchange hmode hremaining hpresent hmissed q lost told
  refine gives_of_running hr (exec_dropReplyTimeout d .noFirstByte s) ?_
  have houtcome : expireReply s d .noFirstByte = endVisit (recomposeRows (terminalLostState s p)) d := by
    have hpresentNot : ¬(s.screen.positions[p].state = .absent) := fun habsent => nomatch hpresent.symm.trans habsent
    rw [expireReply_judged hexchange rfl, if_pos rfl, ← loseTerminal_eq, ← countMiss_of_third hpresent hmissed]
    simp only [takeOutcome, countOutcome, pollOutcome, hpresentNot, decide_false, Bool.false_eq_true, if_false,
      reduceCtorEq]
  have hcontroller : (recomposeRows (terminalLostState s p)).screen.controllers[d] = s.screen.controllers[d] :=
    congrArg (·[d]) (terminalLostState_controllers s p)
  rw [houtcome, endVisit_last hcontroller hmode hremaining]
  exact view_setController d _ (view_recomposeRows _)

/-! ### The ROW (R126 to R128, R136) -/

section

variable {s : State} {d : Fin 2} {p : Fin 16} {resend : Bool}

theorem judgeReply_row {address : Nat} (h : address ≤ 14) (resend : Bool) :
    judgeReply address (.row resend) (dropFrame address 0x10 []) = .good 0x10 [] :=
  judgeReply_of_fits h (by simp) rfl

/-- The GOOD outcome of a ROW: the visit goes on with the rows that need not wait. -/
theorem takeOutcome_row_good (hmode : s.screen.controllers[d].mode = .cycling) (kind : Byte) (payload : List Byte) :
    takeOutcome s d ⟨p, .row resend, .awaiting⟩ (.good kind payload) =
      visitRows (clearExchange (setPosition s p { s.screen.positions[p] with missed := 0 }) d) d p
        (if s.screen.controllers[d].rowNumber = 23 then none else some s.screen.controllers[d].rowNumber) := by
  have hgood : takeOutcome s d ⟨p, .row resend, .awaiting⟩ (.good kind payload) =
      afterExchange (clearExchange (setPosition s p { s.screen.positions[p] with missed := 0 }) d) d
        fun u => visitRows u d p (rowPutBack u d) := rfl
  refine hgood.trans ((afterExchange_visit (u := setPosition s p { s.screen.positions[p] with missed := 0 }) hmode
    _).trans ?_)
  rw [rowPutBack, clearExchange_rowNumber]
  rfl

/-- A BAD first send is sent again. -/
theorem takeOutcome_row_again (hmode : s.screen.controllers[d].mode = .cycling) :
    takeOutcome s d ⟨p, .row false, .awaiting⟩ .bad = beginExchange s d p (.row true) (rowFrame s d p) := by
  have hstopping : ¬(s.screen.controllers[d].mode = .stopping) := fun h => nomatch hmode.symm.trans h
  refine (if_neg ?_)
  rintro (h | h)
  · cases h
  · exact hstopping h

/-- A BAD resend puts its row back for a later visit. -/
theorem takeOutcome_row_back (hmode : s.screen.controllers[d].mode = .cycling) :
    takeOutcome s d ⟨p, .row true, .awaiting⟩ .bad =
      visitRows (clearExchange (setPosition s p { s.screen.positions[p] with
          dirty := s.screen.positions[p].dirty ||| BitVec.twoPow 24 s.screen.controllers[d].rowNumber }) d) d p
        (some s.screen.controllers[d].rowNumber) := by
  have hback : returnRow (clearExchange s d) d p = clearExchange (setPosition s p { s.screen.positions[p] with
      dirty := s.screen.positions[p].dirty ||| BitVec.twoPow 24 s.screen.controllers[d].rowNumber }) d := by
    rw [returnRow, clearExchange_rowNumber]
    rfl
  have hbad : takeOutcome s d ⟨p, .row true, .awaiting⟩ .bad =
      afterExchange (returnRow (clearExchange s d) d p) d fun u =>
        visitRows u d p (some u.screen.controllers[d].rowNumber) := by
    simp only [takeOutcome, countOutcome, rowOutcome, true_or, if_true]
  rw [hbad, hback]
  refine (afterExchange_visit (u := setPosition s p { s.screen.positions[p] with
    dirty := s.screen.positions[p].dirty ||| BitVec.twoPow 24 s.screen.controllers[d].rowNumber }) hmode _).trans ?_
  rw [clearExchange_rowNumber]
  rfl

/-- With a row withdrawn from the set, putting it back changes nothing of what may be sent. -/
theorem sendable_back (dirty : BitVec 24) (r : Nat) :
    sendable (dirty ||| BitVec.twoPow 24 r) (some r) = dirty &&& ~~~BitVec.twoPow 24 r := by
  ext i hi
  simp [sendable, withoutRow]
  cases dirty[i] <;> simp

end

theorem rowOutcomesEndTheSend : Claims.RowOutcomesEndTheSend := by
  intro s d p resend hr hmode hexchange hrows hpresent haddress c q sent polled back good others next second
  have hgood : receiveDrop s d (dropFrame q.address 0x10 []) = _ :=
    (receiveDrop_judged hexchange rfl _).trans
      ((congrArg (takeOutcome s d _) (judgeReply_row haddress resend)).trans (takeOutcome_row_good hmode _ _))
  have hnext : rowToSend (sendable q.dirty (if c.rowNumber = 23 then none else some c.rowNumber)) = next := by
    simp only [next]
    split <;> rfl
  have hothers : rowToSend (sendable back.dirty (some c.rowNumber)) = others :=
    congrArg rowToSend (sendable_back q.dirty c.rowNumber)
  have hbadFrame (frame : List Byte) (hbad : judgeReply q.address (.row resend) frame = .bad) :
      receiveDrop s d frame = takeOutcome s d ⟨p, .row resend, .awaiting⟩ .bad :=
    (receiveDrop_judged hexchange rfl frame).trans (congrArg (takeOutcome s d _) hbad)
  refine ⟨fun h => ?_, fun r h hone => ?_, fun frame hbad => ⟨?_, ?_, ?_⟩, fun hmissed hremaining => ?_⟩
  · refine gives_conclude hr (exec_dropReply d _ s) (hgood.trans (visitRows_polls_at ?_))
    exact h.imp_left hnext.trans
  · exact gives_of_running hr (exec_dropReply d _ s)
      ((congrArg view hgood).trans (view_visitRows_at (hnext.trans h) hone))
  · rintro rfl
    refine gives_conclude hr (exec_dropReply d frame s)
      ((hbadFrame frame hbad).trans ((takeOutcome_row_again hmode).trans ((beginExchange_eq s d p _ _).trans ?_)))
    simp only [sent, show setPosition s p q = s from setPosition_same s p]
    rfl
  · rintro rfl h
    refine gives_conclude hr (exec_dropReply d frame s)
      ((hbadFrame frame hbad).trans ((takeOutcome_row_back hmode).trans (visitRows_polls_at ?_)))
    exact h.imp_left hothers.trans
  · rintro r rfl h hone
    exact gives_of_running hr (exec_dropReply d frame s) ((congrArg view ((hbadFrame frame hbad).trans
      (takeOutcome_row_back hmode))).trans (view_visitRows_at (hothers.trans h) hone))
  · refine gives_conclude hr (exec_dropReplyTimeout d .noFirstByte s) ?_
    have hmiss : takeOutcome s d ⟨p, .row resend, .awaiting⟩ .noReply =
        endVisit (returnRow (countMiss s p) d p) d := rfl
    rw [expireReply_judged hexchange rfl, if_pos rfl, hmiss, countMiss_of_few hpresent hmissed, returnRow,
      setPosition_self, setPosition_setPosition]
    exact endVisit_last rfl hmode hremaining

/-! ### The ECHO (R126, R141) -/

section

variable {s : State} {d : Fin 2} {p : Fin 16}

/-- A CHECK_LINE ended leaves the screen. -/
theorem endLineCheck_rest (s : State) (status : Status) (detail : Nat) :
    (endLineCheck s status detail).screen = s.screen ∧
      (endLineCheck s status detail).configuration = s.configuration :=
  ⟨rfl, congrArg (·.getD noConfiguration) (complete_kept _ _ _).2⟩

/-- Behind a CHECK_LINE ended, the visit goes on to its POLL. -/
theorem visitRows_endLineCheck (hmode : s.screen.controllers[d].mode = .cycling)
    (hdirty : s.screen.positions[p].dirty = 0) (status : Status) (detail : Nat) :
    afterExchange (clearExchange (endLineCheck s status detail) d) d (fun u => visitRows u d p none) =
      sendFrame
        (setController (endLineCheck s status detail) d { s.screen.controllers[d] with
          exchange := some ⟨p, .poll, .sending⟩ })
        (s.configuration.dropPort d)
        (dropFrame s.screen.positions[p].address 0x02
          [if s.screen.positions[p].pollBit = true then 1 else 0]) := by
  obtain ⟨hscreen, hconfiguration⟩ := endLineCheck_rest s status detail
  generalize endLineCheck s status detail = u at *
  rw [afterExchange_visit (by rw [hscreen, hmode]), visitRows_cleared_polls, hscreen, hconfiguration]
  left
  rw [hscreen, hdirty]
  exact rowToSend_sendable_zero none

/-- The same behind an outcome that changed the missed count alone. -/
theorem visitRows_endLineCheck_at (hmode : s.screen.controllers[d].mode = .cycling)
    (hdirty : s.screen.positions[p].dirty = 0) (missed : Nat) (status : Status) (detail : Nat) :
    afterExchange (clearExchange
        (endLineCheck (setPosition s p { s.screen.positions[p] with missed := missed }) status detail) d) d
        (fun u => visitRows u d p none) =
      sendFrame
        (setController (endLineCheck (setPosition s p { s.screen.positions[p] with missed := missed }) status detail) d
          { s.screen.controllers[d] with exchange := some ⟨p, .poll, .sending⟩ })
        (s.configuration.dropPort d)
        (dropFrame s.screen.positions[p].address 0x02
          [if s.screen.positions[p].pollBit = true then 1 else 0]) := by
  have hvisit := visitRows_endLineCheck (s := setPosition s p { s.screen.positions[p] with missed := missed }) (d := d)
    (p := p)
  rw [setPosition_self] at hvisit
  exact hvisit hmode hdirty status detail

theorem judgeReply_echo {address : Nat} (h : address ≤ 14) {reply : List Byte} (hlength : reply.length = 16) :
    judgeReply address .echo (dropFrame address 0x04 reply) = .good 0x04 reply :=
  judgeReply_of_fits h (by omega) (by simp [replyFits, hlength])

/-- The GOOD outcome of an ECHO. -/
theorem takeOutcome_echo_good {pattern : List Byte} (hcheck : s.control.lineCheck = some (p, pattern)) (kind : Byte)
    (reply : List Byte) :
    takeOutcome s d ⟨p, .echo, .awaiting⟩ (.good kind reply) =
      afterExchange (clearExchange
        (if reply = pattern then endLineCheck (setPosition s p { s.screen.positions[p] with missed := 0 }) .done 0
          else endLineCheck (setPosition s p { s.screen.positions[p] with missed := 0 }) .failed 1) d) d
        fun u => visitRows u d p none := by
  have hpattern : ((setPosition s p { s.screen.positions[p] with missed := 0 }).control.lineCheck.map (·.2)).getD [] =
      pattern := by
    rw [show (setPosition s p _).control.lineCheck = s.control.lineCheck from rfl, hcheck]
    rfl
  simp only [takeOutcome, countOutcome, echoOutcome, hpattern]

end

theorem echoOutcomeEndsTheCheck : Claims.EchoOutcomeEndsTheCheck := by
  intro s d p pattern hr hmode hexchange hcheck hpresent haddress hdirty c q ended polled
  refine ⟨fun reply hlength => ?_, fun frame hbad => ?_, fun hmissed hremaining => ?_⟩
  · refine gives_conclude hr (exec_dropReply d _ s) ?_
    rw [receiveDrop_judged hexchange rfl]
    refine (congrArg (takeOutcome s d _) (judgeReply_echo haddress hlength)).trans
      ((takeOutcome_echo_good hcheck _ _).trans ?_)
    split
    · exact visitRows_endLineCheck_at hmode hdirty 0 .done 0
    · exact visitRows_endLineCheck_at hmode hdirty 0 .failed 1
  · refine gives_conclude hr (exec_dropReply d frame s) ?_
    have hkept : setPosition s p { q with missed := q.missed } = s := setPosition_same s p
    have hvisit := visitRows_endLineCheck_at (p := p) hmode hdirty q.missed .failed 2
    rw [receiveDrop_judged hexchange rfl]
    refine (congrArg (takeOutcome s d _) hbad).trans (Eq.trans ?_ hvisit)
    rw [hkept]
    rfl
  · refine gives_conclude hr (exec_dropReplyTimeout d .noFirstByte s) ?_
    have hmiss : takeOutcome s d ⟨p, .echo, .awaiting⟩ .noReply =
        endVisit (endLineCheck (countMiss s p) .failed 2) d := rfl
    rw [expireReply_judged hexchange rfl, if_pos rfl, hmiss, countMiss_of_few hpresent hmissed]
    exact endVisit_last (by rw [(endLineCheck_rest _ _ _).1]; rfl) hmode hremaining

/-! ### The BELL (R126, R127) -/

section

variable {s : State} {d : Fin 2} {p : Fin 16}

theorem judgeReply_bell {address : Nat} (h : address ≤ 14) :
    judgeReply address .bell (dropFrame address 0x10 []) = .good 0x10 [] :=
  judgeReply_of_fits h (by decide) (by decide)

/-- Behind a BELL the visit of a terminal with nothing else pending goes on to its POLL. -/
theorem visitEcho_cleared_polls {w : Position} (hmode : s.screen.controllers[d].mode = .cycling)
    (hecho : w.echo = false) (hdirty : w.dirty = 0) :
    afterExchange (clearExchange (setPosition s p w) d) d (fun u => visitEcho u d p) =
      sendFrame (setController (setPosition s p w) d { s.screen.controllers[d] with
        exchange := some ⟨p, .poll, .sending⟩ }) (s.configuration.dropPort d)
        (dropFrame w.address 0x02 [if w.pollBit = true then 1 else 0]) := by
  have hposition : (clearExchange (setPosition s p w) d).screen.positions[p] = w := setPosition_self s p w
  refine (afterExchange_visit (u := setPosition s p w) hmode _).trans ?_
  rw [visitEcho_of_none (by rw [hposition, hecho])]
  refine visitRows_polls_at (.inl ?_)
  rw [hdirty]
  exact rowToSend_sendable_zero none

end

theorem bellOpensTheVisit : Claims.BellOpensTheVisit := by
  intro s d k p rest hr hmode hport hpresent haddress c q
  refine ⟨fun hexchange hpositions hbell => ?opens, fun hexchange hecho hdirty => ?ends⟩
  case opens =>
    refine gives_conclude hr (exec_cycleStart d s) ?_
    rw [startCycle_idle hmode hexchange, hpositions, visitNext_present hpresent, beginVisit_bell hbell, hport]
  case ends =>
    intro polled
    refine ⟨?good, fun frame hbad => ?bad, fun hmissed hremaining => ?none⟩
    case good =>
      refine gives_conclude hr (exec_dropReply d _ s) ?_
      have hvisit := visitEcho_cleared_polls (p := p) (w := { q with missed := 0 }) hmode hecho hdirty
      rw [hport] at hvisit
      rw [receiveDrop_judged hexchange rfl, judgeReply_bell haddress]
      exact hvisit
    case bad =>
      refine gives_conclude hr (exec_dropReply d frame s) ?_
      have hkept : setPosition s p { q with missed := q.missed } = s := setPosition_same s p
      have hvisit := visitEcho_cleared_polls (p := p) (w := { q with missed := q.missed }) hmode hecho hdirty
      rw [hport] at hvisit
      rw [receiveDrop_judged hexchange rfl]
      refine (congrArg (takeOutcome s d _) hbad).trans (Eq.trans ?_ hvisit)
      rw [hkept]
      rfl
    case none =>
      refine gives_conclude hr (exec_dropReplyTimeout d .noFirstByte s) ?_
      have hmiss : takeOutcome s d ⟨p, .bell, .awaiting⟩ .noReply = endVisit (countMiss s p) d := rfl
      rw [expireReply_judged hexchange rfl, if_pos rfl, hmiss, countMiss_of_few hpresent hmissed]
      exact endVisit_last rfl hmode hremaining

/-! ### The terminal that returns, and the cycle stopped (R127, R129, R138, R139) -/

section

variable {s : State} {d : Fin 2} {p : Fin 16}

/-- The state of a terminal that has answered its POLL while ABSENT. -/
def returnedState (s : State) (p : Fin 16) : State :=
  let q := s.screen.positions[p]
  eventEntry
    (setPosition s p { q with
      state := .present, missed := 0, skip := 7, dirty := BitVec.allOnes 24, pollBit := !q.pollBit })
    { kind := 14, code := 2, position := p.val + 1, ref := q.line, amountA := q.address }

theorem takeOutcome_poll_returns (h : s.screen.positions[p].state = .absent) :
    takeOutcome s d ⟨p, .poll, .awaiting⟩ (.good 0x13 []) = endVisit (recomposeRows (returnedState s p)) d := by
  have hkind : (if (0x13 : Byte) = 0x12 then keyEntries [] else []) = [] := rfl
  simp only [takeOutcome, countOutcome, pollOutcome, h, decide_true, if_true, setPosition_self,
    setPosition_setPosition, hkind, keysTaken_nil]
  rfl

theorem takeOutcome_poll_lostAgain (h : s.screen.positions[p].state = .absent) :
    takeOutcome s d ⟨p, .poll, .awaiting⟩ .bad =
        endVisit (setPosition s p { s.screen.positions[p] with skip := 7 }) d ∧
      takeOutcome s d ⟨p, .poll, .awaiting⟩ .noReply =
        endVisit (setPosition s p { s.screen.positions[p] with skip := 7 }) d := by
  constructor
  · simp only [takeOutcome, countOutcome, pollOutcome, h, decide_true, if_true]
  · simp only [takeOutcome, countOutcome, pollOutcome, h, decide_true, if_true, reduceCtorEq, if_false,
      countMiss_of_absent h]

end

theorem answeringTerminalReturns : Claims.AnsweringTerminalReturns := by
  intro s d p hr hmode hremaining hexchange habsent haddress q ended
  obtain ⟨hbadOutcome, hnoneOutcome⟩ := takeOutcome_poll_lostAgain (d := d) habsent
  refine ⟨gives_of_running hr (exec_dropReply d _ s) ?_,
    fun frame hbad => gives_conclude hr (exec_dropReply d frame s) ?_,
    gives_conclude hr (exec_dropReplyTimeout d .noFirstByte s) ?_⟩
  · have hcontroller : (recomposeRows (returnedState s p)).screen.controllers[d] = s.screen.controllers[d] :=
      congrArg (·.controllers[d]) (eventEntry_screen _ _)
    rw [receiveDrop_judged hexchange rfl, judgeReply_empty haddress, takeOutcome_poll_returns habsent,
      endVisit_last hcontroller hmode hremaining]
    exact view_setController d _ (view_recomposeRows _)
  · rw [receiveDrop_judged hexchange rfl]
    refine (congrArg (takeOutcome s d _) hbad).trans (hbadOutcome.trans ?_)
    exact endVisit_last rfl hmode hremaining
  · rw [expireReply_judged hexchange rfl, if_pos rfl, hnoneOutcome]
    exact endVisit_last rfl hmode hremaining

theorem stoppedCycleLearns : Claims.StoppedCycleLearns := by
  intro s d k p first rest hr hport hpositions hexchange hmode hpresent haddress q
  refine gives_conclude hr (exec_dropReply d _ s) ?_
  rw [receiveDrop_judged hexchange rfl, judgeReply_empty haddress, takeOutcome_poll_good hpresent, if_neg (by decide),
    keysTaken_nil]
  let u : State := setPosition s p { q with missed := 0, pollBit := !q.pollBit }
  have hlearns : endVisit u d = assignNext (setController u d
      (learningController { s.screen.controllers[d] with exchange := none })) d := by
    refine (if_pos ?_).trans ?_
    · rw [clearExchange_eq, setController_self]
      exact hmode
    · rw [beginLearning, clearExchange_eq, setController_self, setController_setController]
      rfl
  have hsame : u.screen.positions[first].address = s.screen.positions[first].address := by
    by_cases h : first = p
    · subst h
      exact (congrArg Position.address (setPosition_self s first _)).trans rfl
    · exact congrArg Position.address (setPosition_other s p _ h)
  refine hlearns.trans ((assignNext_some ((unacknowledged_learning (u := u) _).trans hpositions)).trans ?_)
  rw [sendAssign_eq, setController_self, setController_setController, ← hport, ← hsame]
  rfl

/-- Settles O51: each exchange by its outcomes. -/
theorem repliesAreJudged : Obligations.RepliesAreJudged :=
  ⟨goodPollFlipsThePollBit, unawaitedReplyIsDiscarded, thirdMissLosesTheTerminal, replyIsGoodOrBad,
    rowTwentyThreeGoesFirst, rowOutcomesEndTheSend, echoOutcomeEndsTheCheck, bellOpensTheVisit,
    answeringTerminalReturns, stoppedCycleLearns⟩

end Sys2Proof.Machine
end

