-- ==== Sys2Proof/Proofs/KeyRings.lean ====
section
/-! SUPPORT. The keys of a reply taken into their ring, and the group handed over for them (R130, R131, 13.3). -/

namespace Sys2Proof.Machine

/-! ### A key taken (R131) -/

/-- A position with one key more in its ring. -/
def keyTaken (q : Position) (k : BitVec 16) : Position :=
  { q with ring := q.ring.set q.writeAt k, writeAt := (q.writeAt + 1) % 24, producer := q.producer + 1 }

/-- A doubleword joins those listed, once. -/
def joined (touched : List Nat) (j : Nat) : List Nat := if touched.contains j then touched else touched ++ [j]

theorem takeKeys_room {q : Position} (h : keysHeld q < 24) (k : BitVec 16) (rest : List (BitVec 16))
    (touched : List Nat) :
    takeKeys (k :: rest) (q, touched) = takeKeys rest (keyTaken q k, joined touched (q.writeAt / 4)) := by
  rw [takeKeys]
  exact if_pos h

theorem takeKeys_full {q : Position} (h : ¬keysHeld q < 24) (k : BitVec 16) (rest : List (BitVec 16))
    (touched : List Nat) : takeKeys (k :: rest) (q, touched) = ({ q with bell := true }, touched) := by
  rw [takeKeys]
  exact if_neg h

theorem keysHeld_keyTaken {q : Position} (h : keysHeld q < 24) (k : BitVec 16) :
    keysHeld (keyTaken q k) = keysHeld q + 1 := by
  simp only [keysHeld, keyTaken] at *
  bv_omega

/-- The keys of a reply that find room. -/
def roomFor (q : Position) (keys : List (BitVec 16)) : Nat := min keys.length (24 - keysHeld q)

theorem roomFor_cons {q : Position} (h : keysHeld q < 24) (k : BitVec 16) (rest : List (BitVec 16)) :
    roomFor q (k :: rest) = roomFor (keyTaken q k) rest + 1 := by
  simp only [roomFor, keysHeld_keyTaken h, List.length_cons]
  omega

theorem roomFor_full {q : Position} (h : ¬keysHeld q < 24) (keys : List (BitVec 16)) : roomFor q keys = 0 := by
  simp only [roomFor]
  omega

/-- What the taking of keys makes of a ring. -/
structure KeysTaken (q r : Position) (keys : List (BitVec 16)) : Prop where
  producer : r.producer = q.producer + BitVec.ofNat 16 (roomFor q keys)
  writeAt : r.writeAt = (q.writeAt + roomFor q keys) % 24
  consumer : r.consumer = q.consumer
  held : keysHeld r ≤ 24
  taken : ∀ i < roomFor q keys, r.ring[(q.writeAt + i) % 24]? = keys[i]?
  others : ∀ j, (∀ i < roomFor q keys, j ≠ (q.writeAt + i) % 24) → r.ring[j]? = q.ring[j]?
  bell : r.bell = true ↔ q.bell = true ∨ roomFor q keys < keys.length

theorem takeKeys_taken {q : Position} (hlength : q.ring.length = 24) (hwrite : q.writeAt < 24) (hheld : keysHeld q ≤ 24)
    (keys : List (BitVec 16)) (touched : List Nat) : KeysTaken q (takeKeys keys (q, touched)).1 keys := by
  induction keys generalizing q touched with
  | nil =>
    have hnone : roomFor q [] = 0 := by simp [roomFor]
    exact ⟨by simp [takeKeys, hnone], by simp [takeKeys, hnone, Nat.mod_eq_of_lt hwrite], rfl, hheld,
      fun i hi => by omega, fun _ _ => rfl, by simp [takeKeys, hnone]⟩
  | cons k rest ih =>
    by_cases hroom : keysHeld q < 24
    · rw [takeKeys_room hroom]
      have hcount := roomFor_cons hroom k rest
      have hrest := ih (q := keyTaken q k) (by simp [keyTaken, hlength]) (Nat.mod_lt _ (by decide))
        (by rw [keysHeld_keyTaken hroom]; omega) (joined touched (q.writeAt / 4))
      have hbound : roomFor (keyTaken q k) rest ≤ 23 := by
        have : roomFor q (k :: rest) ≤ 24 := by simp only [roomFor]; omega
        omega
      have hshift (i : Nat) : ((keyTaken q k).writeAt + i) % 24 = (q.writeAt + (i + 1)) % 24 := by
        simp only [keyTaken]
        omega
      have hfirst : (keyTaken q k).ring[q.writeAt % 24]? = some k := by
        rw [Nat.mod_eq_of_lt hwrite]
        simp [keyTaken, hlength, hwrite]
      refine ⟨?_, ?_, hrest.consumer, hrest.held, fun i hi => ?_, fun j hj => ?_, ?_⟩
      · rw [hrest.producer, hcount]
        rw [BitVec.ofNat_add, BitVec.add_comm (BitVec.ofNat 16 _), ← BitVec.add_assoc]
        rfl
      · rw [hrest.writeAt, hshift, hcount]
      · cases i with
        | zero =>
          rw [Nat.add_zero, hrest.others _ fun i hi => ?_, hfirst]
          · rfl
          · rw [hshift]
            omega
        | succ i =>
          rw [← hshift, hrest.taken i (by omega)]
          rfl
      · rw [hrest.others j fun i hi => hshift i ▸ hj (i + 1) (by omega)]
        have hne : q.writeAt ≠ j := fun e => hj 0 (by omega) (by omega)
        simp [keyTaken, hne]
      · rw [hrest.bell, hcount, List.length_cons]
        simp [keyTaken]
    · rw [takeKeys_full hroom]
      have hnone := roomFor_full hroom (k :: rest)
      exact ⟨by simp [hnone], by simp [hnone, Nat.mod_eq_of_lt hwrite], rfl, hheld,
        fun i hi => by omega, fun _ _ => rfl, by simp [hnone]⟩

theorem keysFillTheRing_claim : Claims.KeysFillTheRing := by
  intro q keys hlength hwrite hheld r taken
  obtain ⟨hproducer, hwriteAt, hconsumer, hheldAfter, htaken, -, hbell⟩ := takeKeys_taken hlength hwrite hheld keys []
  exact ⟨hproducer, hwriteAt, hconsumer, hheldAfter, htaken, hbell⟩

/-! ### The doublewords touched (R131) -/

/-- Listed once each, in the order of their first. -/
theorem foldl_joined (l touched : List Nat) :
    l.foldl joined touched = touched ++ (l.filter fun j => !touched.contains j).eraseDups := by
  induction l generalizing touched with
  | nil => simp
  | cons j l ih =>
    rw [List.foldl_cons, ih]
    by_cases h : touched.contains j = true
    · rw [joined, if_pos h, List.filter_cons_of_neg (by simpa using h)]
    · rw [joined, if_neg h, List.filter_cons_of_pos (by simpa using h), List.eraseDups_cons, List.filter_filter,
        List.append_assoc, List.singleton_append]
      congr 3
      refine List.filter_congr fun i _ => ?_
      simp [Bool.and_comm, Bool.beq_eq_decide_eq]

/-- The touched doublewords of the keys that find room. -/
theorem takeKeys_touched (q : Position) (keys : List (BitVec 16)) (touched : List Nat) (hwrite : q.writeAt < 24) :
    (takeKeys keys (q, touched)).2 =
      ((List.range (roomFor q keys)).map fun i => (q.writeAt + i) % 24 / 4).foldl joined touched := by
  induction keys generalizing q touched with
  | nil => simp [takeKeys, roomFor]
  | cons k rest ih =>
    by_cases hroom : keysHeld q < 24
    · have hshift (i : Nat) : ((keyTaken q k).writeAt + i) % 24 = (q.writeAt + (i + 1)) % 24 := by
        simp only [keyTaken]
        omega
      rw [takeKeys_room hroom, ih _ _ (Nat.mod_lt _ (by decide)), roomFor_cons hroom, List.range_succ_eq_map,
        List.map_cons, List.map_map, List.foldl_cons, Nat.add_zero, Nat.mod_eq_of_lt hwrite]
      simp only [hshift]
      rfl
    · rw [takeKeys_full hroom, roomFor_full hroom]
      rfl

theorem takeKeys_touched_nil (q : Position) (keys : List (BitVec 16)) (hwrite : q.writeAt < 24) :
    (takeKeys keys (q, [])).2 = ((List.range (roomFor q keys)).map fun i => (q.writeAt + i) % 24 / 4).eraseDups := by
  rw [takeKeys_touched q keys [] hwrite, foldl_joined, List.nil_append]
  congr 1
  exact List.filter_eq_self.mpr fun _ _ => rfl

/-! ### A KEYS reply (R130, R131) -/

theorem keyEntries_bytes (keys : List (BitVec 16)) : keyEntries (keys.flatMap fun k => leBytes 2 k.toNat) = keys := by
  induction keys with
  | nil => rfl
  | cons k rest ih =>
    have hkey :
        BitVec.ofNat 16 ((BitVec.ofNat 8 k.toNat).toNat + 256 * (BitVec.ofNat 8 (k.toNat / 256)).toNat) = k := by
      apply BitVec.eq_of_toNat_eq
      have := k.isLt
      simp only [BitVec.toNat_ofNat]
      omega
    exact congr (congrArg List.cons hkey) ih

/-- A group goes over exactly when a key was taken. -/
theorem keysTaken_setPosition {s : State} {p : Fin 16} {q : Position} (hwrite : q.writeAt < 24)
    (keys : List (BitVec 16)) :
    keysTaken (setPosition s p q) p keys =
      if roomFor q keys = 0 then setPosition s p (takeKeys keys (q, [])).1
      else handGroup (setPosition s p (takeKeys keys (q, [])).1) ⟨.keyRing,
        (((List.range (roomFor q keys)).map fun i => (q.writeAt + i) % 24 / 4).eraseDups.map fun j =>
          (ringDword s p (2 + j), keyDword (takeKeys keys (q, [])).1 j)) ++
          [(ringDword s p 0, producerDword (takeKeys keys (q, [])).1)]⟩ := by
  simp only [keysTaken, setPosition_self, setPosition_setPosition, takeKeys_touched_nil q keys hwrite]
  cases hroom : roomFor q keys with
  | zero => rfl
  | succ n =>
    rw [List.range_succ_eq_map, List.map_cons, List.eraseDups_cons]
    rfl

theorem keysReplyHandsOverItsGroup : Claims.KeysReplyHandsOverItsGroup := by
  intro s d p keys hr hmode hremaining hexchange hpresent haddress hwrite hone height q taken r base touched writes held
  refine gives_conclude hr (exec_dropReply d _ s) ?_
  have hlength : (keys.flatMap fun k => leBytes 2 k.toNat).length = 2 * keys.length := by
    simp [List.length_flatMap, leBytes_length]
    omega
  have hjudged : judgeReply q.address .poll (dropFrame q.address 0x12 (keys.flatMap fun k => leBytes 2 k.toNat)) =
      .good 0x12 (keys.flatMap fun k => leBytes 2 k.toNat) := by
    refine judgeReply_of_fits haddress (by omega) ?_
    simp only [replyFits, hlength, Bool.or_eq_true, Bool.and_eq_true, beq_iff_eq, decide_eq_true_eq]
    exact .inr ⟨⟨trivial, by omega, by omega⟩, by omega⟩
  rw [receiveDrop_judged hexchange rfl]
  refine (congrArg (takeOutcome s d _) hjudged).trans ((takeOutcome_poll_good hpresent).trans ?_)
  rw [if_pos rfl, keyEntries_bytes]
  refine (congrArg (endVisit · d) (keysTaken_setPosition (s := s) (p := p)
    (q := { q with missed := 0, pollBit := !q.pollBit }) hwrite keys)).trans ?_
  generalize hholds : (if roomFor _ keys = 0 then _ else _ : State) = u
  have hcontroller : u.screen.controllers[d] = s.screen.controllers[d] := by
    rw [← hholds]
    split
    · rfl
    · exact congrArg (·.controllers[d]) (handGroup_screen _ _)
  refine (endVisit_last hcontroller hmode hremaining).trans ?_
  rw [← hholds]
  rfl

/-- Settles O52: the keys by induction, and the reply by the doublewords they touch. -/
theorem keysFillTheRing : Obligations.KeysFillTheRing := ⟨keysFillTheRing_claim, keysReplyHandsOverItsGroup⟩

end Sys2Proof.Machine
end

