-- ==== Sys2Proof/Proofs/Books.lean ====
section
/-! SUPPORT. A book at a printer: BOOK_IN, the line its job takes and the text of it, the notices, and BOOK_OUT
(R134, R151 to R156, R158, R159). -/

namespace Sys2Proof.Machine

/-! ### A frame from a printer with a port -/

section
variable {s : State} {k : Fin 4} {frame : List Byte} {port : Fin 6} {kind : Byte}

theorem printerHears_port (hport : s.configuration.printerPort k = some port) :
    printerHears s k frame kind = printerSends frame kind := by
  simp [printerHears, hport]

/-- A command that awaits a frame of a kind does its work on one (R149). -/
theorem gives_heard {c : Instr} {x : State} {body : State → State} (hr : s.inReset = false)
    (hport : s.configuration.printerPort k = some port) (hsends : printerSends frame kind = true)
    (hc : exec c s = running s fun s => if printerHears s k frame kind then body s else s) (hx : body s = x) :
    Gives c s x :=
  gives_conclude hr hc ((if_pos ((printerHears_port hport).trans hsends)).trans hx)

end

/-! ### A BOOK_IN judged (R151) -/

/-- The day states without passbook service. -/
abbrev NoService (s : State) : Prop :=
  s.day.state = .setup ∨ s.day.state = .recovering ∨ s.day.state = .settled

/-- A stripe outside its ranges. -/
abbrev BadStripe (job : Job) : Prop :=
  job.account < 1 ∨ 999999999999 < job.account ∨ job.page < 1 ∨ 32 < job.page ∨ job.line < 1 ∨ 25 < job.line

section
variable {s : State} (k : Fin 4) (p : Printer) (job : Job) (started : Bool)

theorem judgeBook_noService (h : NoService s) :
    judgeBook s k p job started = eject s k { p with job := some job } "NO SERVICE".toList := by
  unfold judgeBook
  exact if_pos h

theorem judgeBook_badStripe (h : ¬NoService s) (hbad : BadStripe job) :
    judgeBook s k p job started = eject s k { p with job := some job } "BAD STRIPE".toList := by
  unfold judgeBook
  exact (if_neg h).trans (if_pos hbad)

theorem judgeBook_full (h : ¬NoService s) (hbad : ¬BadStripe job) (hfull : job.page = 32 ∧ job.line = 25) :
    judgeBook s k p job started = eject s k { p with job := some job } "BOOK FULL".toList := by
  unfold judgeBook
  exact (if_neg h).trans ((if_neg hbad).trans (if_pos hfull))

theorem judgeBook_noItems (h : ¬NoService s) (hbad : ¬BadStripe job) (hfull : ¬(job.page = 32 ∧ job.line = 25))
    (hnext : nextWaiting s.passbook.items job.account = none) :
    judgeBook s k p job started = eject s k { p with job := some job }
      (if started then "NO ITEMS".toList else doneText job.printed) := by
  unfold judgeBook
  exact (if_neg h).trans ((if_neg hbad).trans ((if_neg hfull).trans (if_pos (by simp [hnext]))))

theorem judgeBook_pageEnd (h : ¬NoService s) (hbad : ¬BadStripe job) (hpage : job.page < 32) (hline : job.line = 25)
    (hnext : nextWaiting s.passbook.items job.account ≠ none) :
    judgeBook s k p job started = stripe s k { p with job := some job } (job.page + 1) 1 true := by
  unfold judgeBook
  exact (if_neg h).trans ((if_neg hbad).trans ((if_neg (by omega)).trans
    ((if_neg (by simpa using hnext)).trans (if_pos hline))))

theorem judgeBook_line (h : ¬NoService s) (hbad : ¬BadStripe job) (hline : job.line ≤ 24)
    (hnext : nextWaiting s.passbook.items job.account ≠ none) :
    judgeBook s k p job started = takeLine s k { p with job := some job } job := by
  unfold judgeBook
  exact (if_neg h).trans ((if_neg hbad).trans ((if_neg (by omega)).trans
    ((if_neg (by simpa using hnext)).trans (if_neg (by omega)))))

end

/-- The printer a BOOK_IN is judged with. -/
def bookTaken (p : Printer) : Printer := { p with state := .book, awaited := none, turnTimer := false }

section
variable {s : State} {k : Fin 4} {frame : List Byte}

theorem takeBookIn_starts
    (h : s.passbook.printers[k].state = .idle ∨ s.passbook.printers[k].state = .turnWait ∧
      ∀ old, s.passbook.printers[k].job = some old → old.account ≠ field frame 2 8) :
    takeBookIn s k frame = judgeBook s k (bookTaken s.passbook.printers[k])
      ⟨field frame 2 8, field frame 10 1, field frame 11 1, 0, none⟩ true := by
  rcases h with h | ⟨h, hother⟩
  · simp only [takeBookIn, h]
    rfl
  · cases hjob : s.passbook.printers[k].job with
    | none =>
      simp only [takeBookIn, h, hjob]
      rfl
    | some old =>
      simp only [takeBookIn, h, hjob, if_neg (hother old hjob)]
      rfl

theorem takeBookIn_continues {old : Job} (h : s.passbook.printers[k].state = .turnWait)
    (hjob : s.passbook.printers[k].job = some old) (haccount : old.account = field frame 2 8) :
    takeBookIn s k frame = judgeBook s k (bookTaken s.passbook.printers[k])
      { old with page := field frame 10 1, line := field frame 11 1, current := none } false := by
  simp only [takeBookIn, h, hjob, if_pos haccount]
  rfl

theorem takeBookIn_discards
    (h : s.passbook.printers[k].state = .book ∨ s.passbook.printers[k].state = .printing ∨
      s.passbook.printers[k].state = .ejecting ∨ s.passbook.printers[k].state = .fault) :
    takeBookIn s k frame = s := by
  rcases h with h | h | h | h <;> simp only [takeBookIn, h]

end

theorem bookWithoutItemsIsEjected : Claims.BookWithoutItemsIsEjected := by
  intro s k frame port hr hport hsends hidle account page line p ejected
  have hstarts := takeBookIn_starts (frame := frame) (.inl hidle)
  refine ⟨fun hclosed => ?_, fun hopened haccount haccount' hpage hpage' hline hline' hnext => ?_⟩
  · exact gives_heard hr hport hsends (exec_bookIn k frame s) (hstarts.trans (judgeBook_noService k _ _ _ hclosed))
  · have hserves : ¬NoService s := by simp [NoService, hopened]
    have hgood : ¬BadStripe ⟨account, page, line, 0, none⟩ := by
      simp only [BadStripe]
      omega
    refine gives_heard hr hport hsends (exec_bookIn k frame s) (hstarts.trans ?_)
    exact judgeBook_noItems k _ _ _ hserves hgood (fun hfull => absurd (show page = 32 from hfull.1) (by omega)) hnext

theorem bookInIsJudgedInOrder : Claims.BookInIsJudgedInOrder := by
  intro s k frame port hr hport hsends account page line p
  refine ⟨fun hbusy => gives_heard hr hport hsends (exec_bookIn k frame s) (takeBookIn_discards hbusy),
    fun job started hjob => ?_⟩
  intro held ejected closed bad
  have htaken : takeBookIn s k frame = judgeBook s k (bookTaken p) job started := by
    rcases hjob with ⟨rfl, rfl, hstarts⟩ | ⟨rfl, hturn, old, hold, haccount, rfl⟩
    · exact takeBookIn_starts hstarts
    · exact takeBookIn_continues hturn hold haccount
  obtain ⟨haccount, hpage, hline⟩ : job.account = account ∧ job.page = page ∧ job.line = line := by
    rcases hjob with ⟨rfl, rfl, hstarts⟩ | ⟨rfl, hturn, old, hold, haccount, rfl⟩
    · exact ⟨rfl, rfl, rfl⟩
    · exact ⟨haccount, rfl, rfl⟩
  have hbad : BadStripe job ↔ bad := by
    rw [BadStripe, haccount, hpage, hline]
  have gives {x : State} (h : judgeBook s k (bookTaken p) job started = x) : Gives (.bookIn k frame) s x :=
    gives_heard hr hport hsends (exec_bookIn k frame s) (htaken.trans h)
  refine ⟨fun h => gives ?_, fun h hb => gives ?_, fun h hb hp hl => gives ?_, fun h hb hf hn => gives ?_,
    fun h hb hp hl hn => gives ?_⟩
  · exact judgeBook_noService k _ _ _ h
  · exact judgeBook_badStripe k _ _ _ h (hbad.mpr hb)
  · exact judgeBook_full k _ _ _ h (fun e => hb (hbad.mp e)) ⟨hpage.trans hp, hline.trans hl⟩
  · exact judgeBook_noItems k _ _ _ h (fun e => hb (hbad.mp e)) (by rw [hpage, hline]; exact hf)
      (haccount ▸ hn)
  · rw [judgeBook_pageEnd k _ _ _ h (fun e => hb (hbad.mp e)) (hpage ▸ hp) (hline.trans hl) (haccount ▸ hn), hpage]
    rfl

/-! ### The line a job takes (R152) -/

/-- The one of two entries with the smaller key, the earlier where they are alike. -/
def smaller (best : Option Item) (e : Item) : Option Item :=
  match best with
  | none => some e
  | some b => if e.key < b.key then some e else some b

theorem foldl_smaller_some (l : List Item) (b : Item) :
    ∃ r, l.foldl smaller (some b) = some r ∧ r ∈ b :: l ∧ ∀ x ∈ b :: l, r.key ≤ x.key := by
  induction l generalizing b with
  | nil => exact ⟨b, rfl, by simp, by simp⟩
  | cons e l ih =>
    by_cases hlt : e.key < b.key
    · obtain ⟨r, hr, hmem, hle⟩ := ih e
      refine ⟨r, ?_, List.mem_cons_of_mem _ hmem, fun x hx => ?_⟩
      · rw [List.foldl_cons, smaller, if_pos hlt, hr]
      · rcases List.mem_cons.mp hx with rfl | hx
        · exact (hle e (by simp)).trans hlt.le
        · exact hle x hx
    · obtain ⟨r, hr, hmem, hle⟩ := ih b
      refine ⟨r, ?_, ?_, fun x hx => ?_⟩
      · rw [List.foldl_cons, smaller, if_neg hlt, hr]
      · rcases List.mem_cons.mp hmem with rfl | hmem
        · simp
        · simp [hmem]
      · rcases List.mem_cons.mp hx with rfl | hx
        · exact hle x (by simp)
        · rcases List.mem_cons.mp hx with rfl | hx
          · exact (hle b (by simp)).trans (not_lt.mp hlt)
          · exact hle x (List.mem_cons_of_mem _ hx)

theorem nextWaiting_eq (items : List Item) (account : Nat) :
    nextWaiting items account =
      (items.filter fun e => e.account == account && !e.printing).foldl smaller none := rfl

theorem mem_waiting {items : List Item} {account : Nat} {e : Item} :
    e ∈ items.filter (fun e => e.account == account && !e.printing) ↔
      e ∈ items ∧ e.account = account ∧ e.printing = false := by
  simp

/-- The account's WAITING entry of the smallest key, or none without one. -/
theorem nextWaiting_cases (items : List Item) (account : Nat) :
    (nextWaiting items account = none ∧ ∀ e, ¬(e ∈ items ∧ e.account = account ∧ e.printing = false)) ∨
    ∃ r, nextWaiting items account = some r ∧ (r ∈ items ∧ r.account = account ∧ r.printing = false) ∧
      ∀ x, (x ∈ items ∧ x.account = account ∧ x.printing = false) → r.key ≤ x.key := by
  simp only [← mem_waiting, nextWaiting_eq]
  cases items.filter fun e => e.account == account && !e.printing with
  | nil => exact .inl ⟨rfl, by simp⟩
  | cons b l => exact .inr (foldl_smaller_some l b)

section
variable {s : State} (k : Fin 4) (p : Printer) (job : Job) {e : Item}

theorem takeLine_none (h : nextWaiting s.passbook.items job.account = none) :
    takeLine s k p job = eject s k { p with job := some job } (doneText job.printed) := by
  simp only [takeLine, h]

theorem takeLine_refused (h : nextWaiting s.passbook.items job.account = some e)
    (hfull : reservationGranted s = false) :
    takeLine s k p job = eject s k { p with job := some job } "JOURNAL FULL".toList := by
  simp only [takeLine, h, hfull, Bool.not_false, if_true]

theorem takeLine_granted (h : nextWaiting s.passbook.items job.account = some e)
    (hroom : reservationGranted s = true) :
    takeLine s k p job =
      sendPrinter
        (setItems (reserve s k) (updateItem s.passbook.items e.key fun e => { e with printing := true })) k
        { p with state := .printing, job := some { job with current := some e.key }, lineTimer := true,
                 turnTimer := false }
        .print
        (printerFrame 0x01 (BitVec.ofNat 8 job.page :: BitVec.ofNat 8 job.line ::
          charBytes (printedLine s.configuration s.day.date e))) := by
  simp only [takeLine, h, hroom, Bool.not_true, Bool.false_eq_true, if_false]

end

theorem jobTakesItsLine : Claims.JobTakesItsLine := by
  refine ⟨?_, fun items account => ?_⟩
  · intro s k frame port e hr hport hsends account page line p hsetup hrecovering hsettled haccount haccount' hpage
      hpage' hline hline' hnext job hjob
    have hserves : ¬NoService s := by simp [NoService, hsetup, hrecovering, hsettled]
    obtain ⟨started, htaken⟩ : ∃ started, takeBookIn s k frame = judgeBook s k (bookTaken p) job started := by
      rcases hjob with ⟨rfl, hstarts⟩ | ⟨hturn, old, hold, hown, rfl⟩
      · exact ⟨true, takeBookIn_starts hstarts⟩
      · exact ⟨false, takeBookIn_continues hturn hold hown⟩
    obtain ⟨hown, hjobPage, hjobLine⟩ : job.account = account ∧ job.page = page ∧ job.line = line := by
      rcases hjob with ⟨rfl, hstarts⟩ | ⟨hturn, old, hold, hown, rfl⟩
      · exact ⟨rfl, rfl, rfl⟩
      · exact ⟨hown, rfl, rfl⟩
    have hgood : ¬BadStripe job := by
      rw [BadStripe, hown, hjobPage, hjobLine]
      omega
    rw [← hown] at hnext
    have hline := judgeBook_line k (bookTaken p) job started hserves hgood (hjobLine ▸ hline')
      (hnext ▸ Option.some_ne_none e)
    refine ⟨fun hroom => ?_, fun hfull => ?_⟩
    · refine gives_heard hr hport hsends (exec_bookIn k frame s) (htaken.trans (hline.trans ?_))
      rw [takeLine_granted k _ job hnext hroom, hjobPage, hjobLine]
      rfl
    · exact gives_heard hr hport hsends (exec_bookIn k frame s) (htaken.trans (hline.trans
        (takeLine_refused k _ job hnext hfull)))
  · intro waits
    rcases nextWaiting_cases items account with ⟨hnone, hwaits⟩ | ⟨r, hsome, hwaits, hleast⟩
    · exact ⟨⟨fun _ => hwaits, fun _ => hnone⟩, fun e he => (Option.some_ne_none e (he.symm.trans hnone)).elim⟩
    · refine ⟨⟨fun hnone => (Option.some_ne_none r (hsome.symm.trans hnone)).elim, fun h => (h r hwaits).elim⟩,
        fun e he => ?_⟩
      obtain rfl : r = e := Option.some.inj (hsome.symm.trans he)
      exact ⟨hwaits, hleast⟩

/-! ### BOOK_OUT (R154 to R156) -/

theorem interruptLine_printing {s : State} {k : Fin 4} {job : Job} {e : Item} (timeout : Bool)
    (hstate : s.passbook.printers[k].state = .printing) (hjob : s.passbook.printers[k].job = some job)
    (hitem : currentItem s s.passbook.printers[k] = some e) :
    interruptLine s k timeout =
      redeemEntry (setItems s (replaceItem s.passbook.items e.key (interruptedItem e))) k
        (interruptedEntry k job e timeout) := by
  simp only [interruptLine, hstate, hjob, hitem]

theorem bookOutEndsTheJob : Claims.BookOutEndsTheJob := by
  intro s k frame port hr hport hsends p
  refine ⟨fun hstate => ?_, fun hstate => ?_, fun job e hstate hjob hitem hordinary hnone => ?_⟩
  · refine gives_heard hr hport hsends (exec_bookOut k frame s) ?_
    rcases hstate with h | h <;> exact (by simp only [takeBookOut, show s.passbook.printers[k].state = _ from h])
  · refine gives_heard hr hport hsends (exec_bookOut k frame s) ?_
    rcases hstate with h | h | h <;> exact (by simp only [takeBookOut, show s.passbook.printers[k].state = _ from h])
  · refine gives_heard hr hport hsends (exec_bookOut k frame s) ?_
    have hwaits : interruptedItem e = some { e with printing := false, reversals := [] } := by
      simp [interruptedItem, hordinary, hnone]
    simp only [takeBookOut, show s.passbook.printers[k].state = _ from hstate,
      interruptLine_printing false hstate hjob hitem, hwaits]
    rfl

/-! ### The printed line (R158) -/

theorem printedLineHoldsItsColumns : Claims.PrintedLineHoldsItsColumns := by
  intro c date e line digits letters
  have hletters : e.mnemonic.text = letters := by
    simp only [letters]
    cases e.mnemonic <;> rfl
  have hline : line = digits (date % 100) ++ digits (date / 100 % 100) ++ digits (date / 10000 % 100) ++ [' '] ++
      letters ++ [' '] ++ printedAmount c e.currency e.amount ++ [' '] ++ printedAmount c e.currency e.balance := by
    simp only [line, printedLine, printDate, fixedDecimal_two, hletters, digits, List.append_assoc, List.cons_append,
      List.nil_append]
  have hwidth : letters.length = 3 := by
    rw [← hletters]
    cases e.mnemonic <;> rfl
  have hprintable : Printable letters := by
    rw [← hletters]
    cases e.mnemonic <;> simp [Printable, Mnemonic.text]
  have hdigits (n : Nat) : Printable (digits n) := printable_fixedDecimal 2 n
  have hspace : Printable [' '] := by simp [Printable]
  refine ⟨?_, ?_, printedAmount c e.currency e.amount, printedAmount c e.currency e.balance,
    printedAmount_length c _ _, printedAmount_length c _ _, hline,
    fun h => ⟨printedAmount_configured h _, printedAmount_configured h _⟩⟩
  · simp [hline, digits, hwidth, printedAmount_length]
  · rw [hline]
    simp only [List.forall_mem_append]
    exact ⟨⟨⟨⟨⟨⟨⟨⟨hdigits _, hdigits _⟩, hdigits _⟩, hspace⟩, hprintable⟩, hspace⟩,
      printable_printedAmount c _ _⟩, hspace⟩, printable_printedAmount c _ _⟩

/-! ### Notices (R134, R159) -/

theorem decimal_toDigits (n : Nat) : n < 10 ^ 24 → decimal n = Nat.toDigits 10 n := by
  unfold decimal
  generalize hwidth : 24 = width
  exact fun h => digitsReversed_toDigits width n h (by omega)

theorem decimal_printer (k : Fin 4) : decimal k.val = [Char.ofNat (48 + k.val)] := by
  revert k
  decide

theorem boundTo_iff {c : Configuration} {k : Fin 4} {p : Fin 16} :
    boundTo c k p = true ↔ c.positions[p].enabled = 1 ∧ c.positions[p].printer = k.val := by
  simp [boundTo, Configuration.positionEnabled]

theorem notice_position (s : State) (k : Fin 4) (text : List Char) (p : Fin 16) :
    (notice s k text).screen.positions[p] =
      if boundTo s.configuration k p then
        { s.screen.positions[p] with
          message := ⟨"PRINTER ".toList ++ [Char.ofNat (48 + k.val), ' '] ++ text, false⟩ }
      else s.screen.positions[p] := by
  unfold notice
  rw [decimal_printer]
  exact Vector.getElem_ofFn p.isLt

/-- A state with other messages of its positions. -/
def withPositions (s : State) (v : Vector Position 16) : State := { s with screen := { s.screen with positions := v } }

theorem notice_apart (s : State) (k : Fin 4) (text : List Char) :
    withPositions (notice s k text) s.screen.positions = s := by
  unfold notice
  rfl

theorem noticeReachesTheBoundPositions : Claims.NoticeReachesTheBoundPositions := by
  refine ⟨fun s k text p => ?_, decimal_toDigits⟩
  intro t bound
  refine ⟨fun hbound => ?_, fun hbound => ?_, notice_apart s k text⟩
  · exact (notice_position s k text p).trans (if_pos (boundTo_iff.mpr hbound))
  · exact (notice_position s k text p).trans (if_neg fun h => hbound (boundTo_iff.mp h))

/-- Settles O55: a BOOK_IN by the tests in their order, a BOOK_OUT by the printer's state. -/
theorem booksComeAndGo : Obligations.BooksComeAndGo :=
  ⟨bookWithoutItemsIsEjected, bookInIsJudgedInOrder, jobTakesItsLine, bookOutEndsTheJob, printedLineHoldsItsColumns,
    noticeReachesTheBoundPositions⟩

end Sys2Proof.Machine
end

