-- ==== Sys2Proof/Proofs/LineEnds.lean ====
section
/-! SUPPORT. How a line ends: LINE_DONE, and the interruptions (R148 to R150, R153, R156). -/

namespace Sys2Proof.Machine

/-! ### A line done (R153) -/

section
variable {s : State} {k : Fin 4}

theorem takeLineDone_discards (h : s.passbook.printers[k].state ≠ .printing) : takeLineDone s k = s := by
  unfold takeLineDone
  dsimp only
  split
  · exact absurd ‹_› h
  · rfl

theorem takeLineDone_printing {job : Job} {e : Item} (hstate : s.passbook.printers[k].state = .printing)
    (hjob : s.passbook.printers[k].job = some job) (hitem : currentItem s s.passbook.printers[k] = some e) :
    takeLineDone s k =
      afterLine
        (resolvePrinted
          (setItems (redeemEntry s k (printedEntry k job e)) (freeItem s.passbook.items e.key)) e) k
        { s.passbook.printers[k] with
          job := some { job with printed := job.printed + 1, current := none }, awaited := none, lineTimer := false }
        { job with printed := job.printed + 1, current := none } := by
  simp only [takeLineDone, hstate, hjob, hitem]

/-- The stripe goes one line down the page, to the next page, or to the last line of the book (R153, R154). -/
theorem afterLine_eq (p : Printer) (job : Job) :
    let next : Nat × Nat := if job.line < 24 then (job.page, job.line + 1)
      else if job.page < 32 then (job.page + 1, 1) else (32, 25)
    afterLine s k p job = stripe s k p next.1 next.2 (decide (24 ≤ job.line ∧ job.page < 32)) := by
  intro next
  simp only [next, afterLine]
  by_cases hline : job.line < 24
  · rw [if_pos hline, if_pos hline, decide_eq_false (by omega)]
  · by_cases hpage : job.page < 32
    · rw [if_neg hline, if_neg hline, if_pos hpage, if_pos hpage, decide_eq_true (by omega)]
    · rw [if_neg hline, if_neg hline, if_neg hpage, if_neg hpage, decide_eq_false (by omega)]

end

theorem printedLineFreesItsEntry : Claims.PrintedLineFreesItsEntry := by
  intro s k frame port hr hport hsends p
  refine ⟨fun h => gives_heard hr hport hsends (exec_lineDone k frame s) (takeLineDone_discards h), ?_⟩
  intro job e hstate hjob hitem next turn freed admitted
  refine gives_heard hr hport hsends (exec_lineDone k frame s) ?_
  rw [takeLineDone_printing hstate hjob hitem, afterLine_eq]
  rfl

/-! ### An interrupted line (R148, R156) -/

/-- The pending reversals taken out of a waiting summary: none of it is left once they are as many as it holds. -/
theorem foldl_unfold_none (l : List PendingReversal) :
    l.foldl (fun (r : Option Item) p => r.bind fun e => unfold e p) none = none := by
  induction l with
  | nil => rfl
  | cons p l ih => exact ih

theorem foldl_unfold (l : List PendingReversal) (e : Item) :
    l.foldl (fun (r : Option Item) p => r.bind fun e => unfold e p) (some e) =
      if l.length = 0 then some e
      else if l.length < e.folds then some { e with
        folds := e.folds - l.length, amount := e.amount - (l.map (·.amount)).sum,
        balance := (l.getLast?.map (·.balance)).getD e.balance }
      else none := by
  induction l generalizing e with
  | nil => rfl
  | cons p l ih =>
    rw [if_neg (by simp), List.foldl_cons]
    show List.foldl _ (unfold e p) l = _
    by_cases hlast : e.folds ≤ 1
    · rw [unfold, if_pos hlast, if_neg (by simp only [List.length_cons]; omega), foldl_unfold_none]
    · rw [unfold, if_neg hlast, ih]
      cases l with
      | nil =>
        rw [if_pos List.length_nil, if_pos (by simp only [List.length_cons, List.length_nil]; omega)]
        simp
      | cons q l =>
        rw [if_neg (by simp)]
        by_cases hleft : (q :: l).length < e.folds - 1
        · rw [if_pos hleft, if_pos (by simp only [List.length_cons] at *; omega)]
          obtain ⟨last, hlast⟩ : ∃ last, (q :: l).getLast? = some last :=
            ⟨_, List.getLast?_eq_some_getLast (List.cons_ne_nil q l)⟩
          simp [List.getLast?_cons_cons, hlast, Nat.sub_sub, sub_sub, Nat.add_comm]
        · rw [if_neg hleft, if_neg (by simp only [List.length_cons] at *; omega)]

/-- The entry of an interrupted line WAITS again without its pending reversals, or is freed. -/
theorem interruptedItem_eq (e : Item) :
    interruptedItem e =
      let waiting : Item := { e with printing := false, reversals := [] }
      if e.reversals.length = 0 then some waiting
      else if e.summary = true ∧ e.reversals.length < e.folds then some { waiting with
        folds := e.folds - e.reversals.length, amount := e.amount - (e.reversals.map (·.amount)).sum,
        balance := (e.reversals.getLast?.map (·.balance)).getD e.balance }
      else none := by
  by_cases hsummary : e.summary = true
  · refine (if_pos hsummary).trans ((foldl_unfold e.reversals _).trans ?_)
    simp only [hsummary, true_and]
  · simp [interruptedItem, hsummary]

section
variable {s : State} {k : Fin 4}

theorem takeReady_printing (h : s.passbook.printers[k].state = .printing) :
    takeReady s k = notice (restartPrinter (interruptLine s k true) k) k "FAULT".toList := by
  rw [takeReady, noticeIfPrinting, if_pos h]

theorem restartPrinter_port {port : Fin 6} (h : s.configuration.printerPort k = some port) :
    restartPrinter s k = sendPrinter s k (barePrinter .fault) .reset (printerFrame 0x05 []) := by
  simp only [restartPrinter, h]

theorem interruptLine_configuration (timeout : Bool) :
    (interruptLine s k timeout).configuration = s.configuration :=
  congrArg (·.getD noConfiguration) (congrArg (·.2.1) (shownOf_interruptLine s k timeout))

theorem takeFailure_awaited (h : s.passbook.printers[k].awaited ≠ none) : takeFailure s k = failPrinter s k := by
  rw [takeFailure, if_pos (Option.isSome_iff_ne_none.mpr h)]

theorem takeFailure_none (h : s.passbook.printers[k].awaited = none) : takeFailure s k = s := by
  rw [takeFailure, h]
  rfl

/-- A NAK and an invalid frame fail the message awaited alike (R149). -/
theorem gives_printerNak {frame : List Byte} {port : Fin 6} {x : State} (hr : s.inReset = false)
    (hport : s.configuration.printerPort k = some port)
    (hfails : printerSends frame 0x15 = true ∨ printerFrameValid frame = false) (hx : takeFailure s k = x) :
    Gives (.printerNak k frame) s x := by
  refine gives_conclude hr (exec_printerNak k frame s) ((if_pos ?_).trans hx)
  rw [printerHears_port hport, Bool.or_eq_true, Bool.not_eq_true']
  exact hfails

end

theorem interruptedLineReturnsItsEntry : Claims.InterruptedLineReturnsItsEntry := by
  intro s k frame port job e hr hport hstate hjob hitem pending waiting left interrupted failed
  have hleft : replaceItem s.passbook.items e.key (interruptedItem e) = left := by
    rw [interruptedItem_eq]
    dsimp only [left, pending]
    split
    · rfl
    · split
      · rfl
      · rfl
  have hinterrupt (timeout : Bool) : interruptLine s k timeout = interrupted (bit timeout) := by
    rw [interruptLine_printing timeout hstate hjob hitem, hleft]
    rfl
  have hfail : failPrinter s k = failed := by
    rw [failPrinter, hinterrupt]
    rfl
  refine ⟨fun hsends => ?_, fun htimer => ?_, fun hawaited => ⟨fun hfails => ?_, ?_⟩, fun hsends => ?_⟩
  · refine gives_heard hr hport hsends (exec_bookOut k frame s) ?_
    simp only [takeBookOut, hstate, hinterrupt]
    rfl
  · exact gives_conclude hr (exec_lineDoneTimeout k s) ((if_pos htimer).trans hfail)
  · exact gives_printerNak hr hport hfails ((takeFailure_awaited (hawaited ▸ Option.some_ne_none _)).trans hfail)
  · exact gives_conclude hr (exec_printerReplyTimeout k s)
      ((takeFailure_awaited (hawaited ▸ Option.some_ne_none _)).trans hfail)
  · refine gives_heard hr hport hsends (exec_ready k frame s) ?_
    rw [takeReady_printing hstate, restartPrinter_port ((congrArg (·.printerPort k)
      (interruptLine_configuration true)).trans hport), hinterrupt]
    rfl

/-- Settles O56: the line's printer, job and entry together decide both ways a line can end. -/
theorem linesArePrintedOrInterrupted : Obligations.LinesArePrintedOrInterrupted :=
  ⟨printedLineFreesItsEntry, interruptedLineReturnsItsEntry⟩

end Sys2Proof.Machine
end

