-- ==== Sys2Proof/Proofs/PrinterMessages.lean ====
section
/-! SUPPORT. READY, the replies to a part message, the page-turn timer, and the frames of a printer (R149, R150,
R154, R156, 13.8). -/

namespace Sys2Proof.Machine

/-! ### READY and ACK (R149, R150) -/

section
variable {s : State} {k : Fin 4}

theorem interruptLine_idle (h : s.passbook.printers[k].state ≠ .printing) (timeout : Bool) :
    interruptLine s k timeout = s := by
  unfold interruptLine
  dsimp only
  split
  · exact absurd ‹_› h
  · rfl

theorem takeReady_idle (h : s.passbook.printers[k].state ≠ .printing) : takeReady s k = restartPrinter s k := by
  rw [takeReady, interruptLine_idle h, noticeIfPrinting, if_neg h]

theorem takeAck_stripe {page line : Nat} {turn : Bool}
    (h : s.passbook.printers[k].awaited = some (.stripe page line turn)) :
    takeAck s k = stripeDone s k s.passbook.printers[k] page line turn := by
  simp only [takeAck, h]

end

theorem readyResetsThePrinter : Claims.ReadyResetsThePrinter := by
  intro s k frame port hr hport hsends hidle
  exact gives_heard hr hport hsends (exec_ready k frame s) ((takeReady_idle hidle).trans (restartPrinter_port hport))

theorem ackAnswersTheMessage : Claims.AckAnswersTheMessage := by
  intro s k frame port hr hport hsends p
  refine ⟨fun hawaited => ?_, fun hawaited => ?_, fun hawaited => ?_⟩
  · refine gives_heard hr hport hsends (exec_printerAck k frame s) ?_
    simp only [takeAck, show s.passbook.printers[k].awaited = _ from hawaited]
  · refine gives_heard hr hport hsends (exec_printerAck k frame s) ?_
    rcases hawaited with h | h | h <;> simp only [takeAck, show s.passbook.printers[k].awaited = _ from h] <;> rfl
  · refine gives_heard hr hport hsends (exec_printerAck k frame s) ?_
    simp only [takeAck, show s.passbook.printers[k].awaited = _ from hawaited]

/-! ### The ACK of a STRIPE (R152 to R154) -/

section
variable {s : State} {k : Fin 4} {p : Printer} {page line : Nat} {job : Job}

theorem stripeDone_turn (hjob : p.job = some job) :
    stripeDone s k p page line true =
      notice (sendPrinter s k { p with state := .turnWait, turnTimer := true } .turn (printerFrame 0x03 [])) k
        "TURN PAGE".toList := by
  simp only [stripeDone, hjob, if_true]

theorem stripeDone_bookEnd (hjob : p.job = some job) (hfull : page = 32 ∧ line = 25) :
    stripeDone s k p page line false =
      eject s k { p with job := some { job with page := page, line := line, current := none } }
        (if nextWaiting s.passbook.items job.account = none then doneText job.printed else "BOOK FULL".toList) := by
  simp only [stripeDone, hjob, if_pos hfull, Bool.false_eq_true, if_false]
  cases nextWaiting s.passbook.items job.account <;> rfl

theorem stripeDone_goesOn (hjob : p.job = some job) (hfull : ¬(page = 32 ∧ line = 25)) :
    stripeDone s k p page line false =
      takeLine s k { p with job := some { job with page := page, line := line, current := none } }
        { job with page := page, line := line, current := none } := by
  simp only [stripeDone, hjob, if_neg hfull, Bool.false_eq_true, if_false]

end

theorem ackOfStripeGoesOn : Claims.AckOfStripeGoesOn := by
  intro s k frame port page line turn job hr hport hsends hawaited hjob p placed full next done ejected
  have gives {x : State} (h : stripeDone s k p page line turn = x) : Gives (.printerAck k frame) s x :=
    gives_heard hr hport hsends (exec_printerAck k frame s) ((takeAck_stripe hawaited).trans h)
  refine ⟨?_, ?_, ?_, fun e => ?_⟩
  · rintro rfl
    exact gives (stripeDone_turn hjob)
  · rintro rfl hfull
    exact gives (stripeDone_bookEnd hjob hfull)
  · rintro rfl hfull hnext
    exact gives ((stripeDone_goesOn hjob hfull).trans (takeLine_none k _ placed hnext))
  · rintro rfl hfull hnext
    exact ⟨fun hroom => gives ((stripeDone_goesOn hjob hfull).trans (takeLine_refused k _ placed hnext hroom)),
      fun hroom => gives ((stripeDone_goesOn hjob hfull).trans (takeLine_granted k _ placed hnext hroom))⟩

/-! ### Failed messages and timers (R149, R154, R156) -/

theorem failPrinter_idle {s : State} {k : Fin 4} (h : s.passbook.printers[k].state ≠ .printing) :
    failPrinter s k = notice (setPrinter s k (barePrinter .fault)) k "FAULT".toList := by
  rw [failPrinter, interruptLine_idle h]

theorem failedMessageFaultsThePrinter : Claims.FailedMessageFaultsThePrinter := by
  intro s k frame port hr hport hfails failed
  refine ⟨fun hidle hawaited => ?_, fun hnone => ?_⟩
  · have hfailed : takeFailure s k = failed := (takeFailure_awaited hawaited).trans (failPrinter_idle hidle)
    exact ⟨gives_printerNak hr hport hfails hfailed, gives_conclude hr (exec_printerReplyTimeout k s) hfailed⟩
  · exact ⟨gives_printerNak hr hport hfails (takeFailure_none hnone),
      gives_conclude hr (exec_printerReplyTimeout k s) (takeFailure_none hnone)⟩

theorem invalidPrinterFrameIsDiscarded : Claims.InvalidPrinterFrameIsDiscarded := fun s k frame hr _ _ =>
  gives_conclude hr (exec_printerInvalidFrame k frame s) rfl

theorem turnTimeoutEndsTheJob : Claims.TurnTimeoutEndsTheJob := fun s k hr htimer =>
  gives_conclude hr (exec_pageTurnTimeout k s) (if_pos htimer)

/-! ### The frames of a printer (13.8) -/

/-- The payload a kind announces: 10 bytes of a BOOK_IN, none of the other kinds. -/
theorem printerPayload_eq_some {kind : Byte} {n : Nat} :
    printerPayload kind = some n ↔
      kind = 0x10 ∧ n = 10 ∨ 0x11 ≤ kind.toNat ∧ kind.toNat ≤ 0x15 ∧ n = 0 := by
  unfold printerPayload
  by_cases hbook : kind = 0x10
  · subst hbook
    simp [eq_comm]
  · rw [if_neg hbook]
    by_cases hplain : 0x11 ≤ kind.toNat ∧ kind.toNat ≤ 0x15
    · rw [if_pos (by simpa using hplain)]
      refine ⟨fun h => .inr ⟨hplain.1, hplain.2, (Option.some.inj h).symm⟩, ?_⟩
      rintro (⟨h, -⟩ | ⟨-, -, rfl⟩)
      · exact absurd h hbook
      · rfl
    · rw [if_neg (by simpa using hplain)]
      refine ⟨nofun, ?_⟩
      rintro (⟨h, -⟩ | ⟨h, h', -⟩)
      · exact absurd h hbook
      · exact absurd ⟨h, h'⟩ hplain

/-- A valid frame is a kind, the length of its payload, the payload, and the check of all these. -/
theorem printerFrameValid_iff (f : List Byte) :
    printerFrameValid f = true ↔ ∃ (kind : Byte) (payload : List Byte), f = printerFrame kind payload ∧
      printerPayload kind = some payload.length := by
  constructor
  · intro h
    match f, h with
    | kind :: len :: rest, h =>
      simp only [printerFrameValid, Bool.and_eq_true, beq_iff_eq, and_assoc] at h
      obtain ⟨hannounced, hwhole⟩ := h
      obtain ⟨payload, hlength, rfl⟩ := (checked_iff [kind, len] rest len.toNat).mp hwhole
      refine ⟨kind, payload, ?_, by rw [hannounced, hlength]⟩
      have hlen : BitVec.ofNat 8 payload.length = len := by
        rw [hlength]
        simp
      rw [printerFrame, hlen]
      rfl
  · rintro ⟨kind, payload, rfl, hannounced⟩
    have hshort : payload.length < 256 := by
      rcases printerPayload_eq_some.mp hannounced with ⟨-, h⟩ | ⟨-, -, h⟩ <;> omega
    have hlen : (BitVec.ofNat 8 payload.length).toNat = payload.length := by
      rw [BitVec.toNat_ofNat, Nat.mod_eq_of_lt hshort]
    obtain ⟨hlength, hcheck⟩ := (checked_iff [kind, BitVec.ofNat 8 payload.length] _ payload.length).mpr
      ⟨payload, rfl, rfl⟩
    simp only [printerFrame, List.cons_append, printerFrameValid, hlen, Bool.and_eq_true, beq_iff_eq]
    exact ⟨⟨hannounced, hlength⟩, hcheck⟩

theorem printerFrameIsValid : Claims.PrinterFrameIsValid := by
  refine ⟨fun _ _ => rfl, fun f => ⟨?_, fun kind => ?_⟩⟩
  · simp only [printerFrameValid_iff, printerPayload_eq_some, List.length_eq_zero_iff]
  · simp [printerSends]

/-- Settles O57: a message by what is awaited, a frame by its check. -/
theorem printerMessagesAreAnswered : Obligations.PrinterMessagesAreAnswered :=
  ⟨readyResetsThePrinter, ackAnswersTheMessage, ackOfStripeGoesOn, failedMessageFaultsThePrinter,
    invalidPrinterFrameIsDiscarded, turnTimeoutEndsTheJob, printerFrameIsValid⟩

end Sys2Proof.Machine
end

