-- ==== Sys2Proof/Proofs/HeadOfficeFrames.lean ====
section
/-! SUPPORT. The frames exchanged with head office: their layout, which of them are valid and which are taken
(R182, 13.8). -/

namespace Sys2Proof.Machine

/-! ### The layout of a frame (13.8) -/

theorem headOfficeFrameIsClosedByItsCheck : Claims.HeadOfficeFrameIsClosedByItsCheck := fun _ _ _ => rfl

/-- The kinds head office sends, with the payloads they may have (R182). -/
abbrev HeadOfficeSends (kind : Byte) (payload : List Byte) : Prop :=
  (kind = 0x81 ∨ kind = 0x82 ∨ kind = 0x83) ∧ payload = [] ∨
    kind = 0x84 ∧ payload.length = 9 ∧ (payload.head? = some 1 ∨ payload.head? = some 2)

/-- Bytes behind the head of a frame whose length and check fit: the payload announced, and the check. -/
theorem closed_iff (head rest : List Byte) (n : Nat) :
    (rest.length = n + 2 ∧ leNat ((rest.drop n).take 2) = (crc16 (head ++ rest.take n)).toNat) ↔
      ∃ payload : List Byte, payload.length = n ∧ rest = payload ++ leBytes 2 (crc16 (head ++ payload)).toNat := by
  constructor
  · rintro ⟨hlength, hcheck⟩
    have htwo : (rest.drop n).length = 2 := by
      rw [List.length_drop]
      omega
    refine ⟨rest.take n, by rw [List.length_take]; omega, ?_⟩
    rw [List.take_of_length_le htwo.le] at hcheck
    rw [← hcheck, ← htwo, leBytes_leNat, List.take_append_drop]
  · rintro ⟨payload, rfl, rfl⟩
    have hshort : (crc16 (head ++ payload)).toNat < 256 ^ 2 := (crc16 (head ++ payload)).isLt
    refine ⟨by rw [List.length_append, leBytes_length], ?_⟩
    rw [List.drop_left, List.take_left, List.take_of_length_le (leBytes_length _ _).le, leNat_leBytes,
      Nat.mod_eq_of_lt hshort]

/-- A frame by its bytes: the mark, a kind, number and length in two bytes each, the payload, and the check. -/
theorem headOfficeFrameValid_cons {a k n₀ n₁ l₀ l₁ : Byte} {rest : List Byte} :
    headOfficeFrameValid (a :: k :: n₀ :: n₁ :: l₀ :: l₁ :: rest) = true ↔
      a = 0xA5 ∧ ∃ payload : List Byte, payload.length = leNat [l₀, l₁] ∧
        rest = payload ++ leBytes 2 (crc16 ([k, n₀, n₁, l₀, l₁] ++ payload)).toNat ∧ HeadOfficeSends k payload := by
  have hlen : field (a :: k :: n₀ :: n₁ :: l₀ :: l₁ :: rest) 4 2 = leNat [l₀, l₁] := rfl
  have hcheck (n : Nat) : field (a :: k :: n₀ :: n₁ :: l₀ :: l₁ :: rest) (n + 6) 2 = leNat ((rest.drop n).take 2) := rfl
  have hbody (n : Nat) : ((a :: k :: n₀ :: n₁ :: l₀ :: l₁ :: rest).drop 1).take (n + 5) =
      [k, n₀, n₁, l₀, l₁] ++ rest.take n := rfl
  have hfirst : (a :: k :: n₀ :: n₁ :: l₀ :: l₁ :: rest).getD 6 0 = rest.getD 0 0 := rfl
  have hkind : (a :: k :: n₀ :: n₁ :: l₀ :: l₁ :: rest).getD 1 0 = k := rfl
  have hwhole := closed_iff [k, n₀, n₁, l₀, l₁] rest (leNat [l₀, l₁])
  simp only [headOfficeFrameValid, hlen, hcheck, hbody, hfirst, hkind, Bool.and_eq_true, Bool.or_eq_true, beq_iff_eq,
    decide_eq_true_eq, List.head?_cons, Option.some.injEq, List.length_cons]
  constructor
  · rintro ⟨⟨⟨⟨ha, -⟩, hlength⟩, hcrc⟩, hkinds⟩
    obtain ⟨payload, hpayload, rfl⟩ := hwhole.mp ⟨by omega, hcrc⟩
    refine ⟨ha, payload, hpayload, rfl, ?_⟩
    rcases hkinds with ⟨hreply, hnone⟩ | ⟨⟨hfinal, hnine⟩, hresult⟩
    · exact .inl ⟨or_assoc.mp hreply, List.length_eq_zero_iff.mp (hpayload.trans hnone)⟩
    · refine .inr ⟨hfinal, hpayload.trans hnine, ?_⟩
      match payload, hpayload.trans hnine with
      | b :: _, _ => exact hresult.imp (congrArg some) (congrArg some)
  · rintro ⟨ha, payload, hpayload, hrest, hsends⟩
    obtain ⟨hlength, hcrc⟩ := hwhole.mpr ⟨payload, hpayload, hrest⟩
    refine ⟨⟨⟨⟨ha, by omega⟩, by omega⟩, hcrc⟩, ?_⟩
    rcases hsends with ⟨hreply, rfl⟩ | ⟨hfinal, hnine, hresult⟩
    · exact .inl ⟨or_assoc.mpr hreply, hpayload.symm⟩
    · refine .inr ⟨⟨hfinal, hpayload.symm.trans hnine⟩, ?_⟩
      subst hrest
      match payload, hnine with
      | b :: _, _ => exact hresult.imp Option.some.inj Option.some.inj

theorem leNat_leBytes_two {n : Nat} (h : n < 65536) : leNat (leBytes 2 n) = n := by
  rw [leNat_leBytes, Nat.mod_eq_of_lt (by omega)]

/-- A composed frame by its bytes. -/
theorem headOfficeFrame_bytes (kind n : Nat) (payload : List Byte) :
    headOfficeFrame kind n payload =
      0xA5 :: BitVec.ofNat 8 kind :: BitVec.ofNat 8 n :: BitVec.ofNat 8 (n / 256) ::
        BitVec.ofNat 8 payload.length :: BitVec.ofNat 8 (payload.length / 256) ::
        (payload ++ leBytes 2 (crc16 ([BitVec.ofNat 8 kind, BitVec.ofNat 8 n, BitVec.ofNat 8 (n / 256),
          BitVec.ofNat 8 payload.length, BitVec.ofNat 8 (payload.length / 256)] ++ payload)).toNat) := rfl

theorem headOfficeSends_ofNat {kind : Nat} {payload : List Byte}
    (h : (kind = 0x81 ∨ kind = 0x82 ∨ kind = 0x83) ∧ payload = [] ∨
      kind = 0x84 ∧ payload.length = 9 ∧ (payload.head? = some 1 ∨ payload.head? = some 2)) :
    HeadOfficeSends (BitVec.ofNat 8 kind) payload ∧ payload.length < 65536 := by
  rcases h with ⟨hreply, rfl⟩ | ⟨rfl, hnine, hresult⟩
  · refine ⟨.inl ⟨?_, rfl⟩, by simp⟩
    rcases hreply with rfl | rfl | rfl <;> simp
  · exact ⟨.inr ⟨rfl, hnine, hresult⟩, by omega⟩

theorem headOfficeSends_toNat {kind : Byte} {payload : List Byte} (h : HeadOfficeSends kind payload) :
    (kind.toNat = 0x81 ∨ kind.toNat = 0x82 ∨ kind.toNat = 0x83) ∧ payload = [] ∨
      kind.toNat = 0x84 ∧ payload.length = 9 ∧ (payload.head? = some 1 ∨ payload.head? = some 2) := by
  rcases h with ⟨hreply, rfl⟩ | ⟨rfl, hfinal⟩
  · refine .inl ⟨?_, rfl⟩
    rcases hreply with rfl | rfl | rfl <;> simp
  · exact .inr ⟨rfl, hfinal⟩

theorem headOfficeFrameIsValid : Claims.HeadOfficeFrameIsValid := by
  refine fun f => ⟨⟨fun h => ?_, ?_⟩, fun kind n payload hn => ?_⟩
  · match f, h with
    | a :: k :: n₀ :: n₁ :: l₀ :: l₁ :: rest, h =>
      obtain ⟨rfl, payload, hlength, rfl, hsends⟩ := headOfficeFrameValid_cons.mp h
      have hshort : leNat [n₀, n₁] < 256 ^ 2 := leNat_lt [n₀, n₁]
      refine ⟨k.toNat, leNat [n₀, n₁], payload, ?_, by omega, headOfficeSends_toNat hsends⟩
      have hkind : leBytes 1 k.toNat = [k] := by simp [leBytes]
      have hnumber : leBytes 2 (leNat [n₀, n₁]) = [n₀, n₁] := leBytes_leNat [n₀, n₁]
      have hlen : leBytes 2 payload.length = [l₀, l₁] := hlength ▸ leBytes_leNat [l₀, l₁]
      rw [headOfficeFrame, hkind, hnumber, hlen]
      rfl
    | [], h | [_], h | [_, _], h | [_, _, _], h | [_, _, _, _], h | [_, _, _, _, _], h =>
      simp [headOfficeFrameValid] at h
  · rintro ⟨kind, n, payload, rfl, -, hsends⟩
    obtain ⟨hkind, hshort⟩ := headOfficeSends_ofNat hsends
    exact headOfficeFrameValid_cons.mpr ⟨rfl, payload, (leNat_leBytes_two hshort).symm, rfl, hkind⟩
  · exact leNat_leBytes_two hn

/-! ### The frames taken (R182) -/

theorem frameIsTakenWhileAwaited : Claims.FrameIsTakenWhileAwaited := by
  intro s port f kind
  simp only [frameTaken, Bool.and_eq_true, Bool.or_eq_true, beq_iff_eq, Option.isSome_iff_ne_none, and_assoc,
    or_assoc]

theorem frameTaken_of_invalid {s : State} {port : HoPort} {f : List Byte}
    (h : headOfficeFrameValid f = false ∨ s.batch.port ≠ port ∨ s.configuration.headOfficePort port = none ∨
      (s.batch.state ≠ .awaitAck ∧ s.batch.state ≠ .paused ∧ s.batch.state ≠ .awaitFinal)) (kind : Byte) :
    frameTaken s port f kind = false := by
  rw [Bool.eq_false_iff]
  intro htaken
  obtain ⟨hvalid, -, hport, hline, hstate⟩ := (frameIsTakenWhileAwaited s port f kind).mp htaken
  rcases h with h | h | h | ⟨hack, hpause, hfinal⟩
  · exact Bool.eq_false_iff.mp h hvalid
  · exact h hport
  · exact hline h
  · rcases hstate with h | h | h
    · exact hack h
    · exact hpause h
    · exact hfinal h

theorem invalidHeadOfficeFrameIsDiscarded : Claims.InvalidHeadOfficeFrameIsDiscarded := by
  intro s port f hr
  refine ⟨fun _ => gives_conclude hr (exec_hoInvalidFrame port f s) rfl, fun h => ?_⟩
  have hnone := frameTaken_of_invalid h
  refine ⟨gives_conclude hr (exec_hoAck port f s) ?_, gives_conclude hr (exec_hoNak port f s) ?_,
    gives_conclude hr (exec_hoWait port f s) ?_, gives_conclude hr (exec_hoFinal port f s) ?_⟩
  · simp only [takeHoAck, hnone, Bool.false_and, Bool.false_eq_true, if_false]
  · simp only [takeHoNak, hnone, Bool.false_and, Bool.false_eq_true, if_false]
  · simp only [takeHoWait, hnone, Bool.false_and, Bool.false_eq_true, if_false]
  · simp only [takeHoFinal, hnone, Bool.false_eq_true, if_false]

end Sys2Proof.Machine
end

