-- ==== Sys2Proof/Proofs/BatchBlocks.lean ====
section
/-! SUPPORT. The blocks of a batch: what they hold, how one is sent and acknowledged, and the run behind an ENTRY
block (R179 to R184). -/

namespace Sys2Proof.Machine

/-! ### What the blocks hold (R179, R180) -/

theorem dayRecordBytes_zeros : dayRecordBytes ⟨0, 0, 0, 0, 0, 0, 0⟩ = List.replicate 56 0 := by
  decide

/-- The record of a currency that is not configured is all zeros. -/
theorem dayRecordBytes_or_zeros (configured : Bool) (d : DayTotals) :
    (if configured = true then dayRecordBytes d else List.replicate 56 0) =
      dayRecordBytes (if configured = true then d else ⟨0, 0, 0, 0, 0, 0, 0⟩) := by
  cases configured with
  | true => rfl
  | false => exact dayRecordBytes_zeros.symm

theorem blocksHoldTheirContents : Claims.BlocksHoldTheirContents := by
  intro s p n c t holders holderRecord hblocks
  have hquarters : quarters p.records = holders := rfl
  refine ⟨?header, fun hone hholders => ?holder, ?day, ?monitor, fun j hj hn => ?entries, fun hlast => ?trailer⟩
  case header =>
    rintro rfl
    rw [blockContent, if_pos rfl]
    rfl
  case holder =>
    rw [blockContent, hquarters, if_neg (by omega), if_pos hholders]
    rfl
  case day =>
    intro hn
    rw [blockContent, hquarters, if_neg (by omega), if_neg (by omega), if_pos hn]
    exact congrArg (BlockContent.payload 3) (congrArg (· ++ _) (List.flatMap_congr fun k _ =>
      dayRecordBytes_or_zeros (c.hasCurrency k) t.day[k]))
  case monitor =>
    intro hn
    rw [blockContent, hquarters, if_neg (by omega), if_neg (by omega), if_neg (by omega), if_pos hn]
    rfl
  case entries =>
    rw [blockContent, hquarters, if_neg (by omega), if_neg (by omega), if_neg (by omega), if_neg (by omega),
      if_pos (by omega)]
    have hfirst : 4 * (n - holders - 3) + 1 = 4 * j + 1 := by omega
    simp only [hfirst]
  case trailer =>
    rw [blockContent, hquarters, if_neg (by omega), if_neg (by omega), if_neg (by omega), if_neg (by omega),
      if_neg (by omega)]
    rfl

theorem mem_examinedRecords {c : Configuration} {h : Fin 17} {k : Fin 4} :
    (h, k) ∈ examinedRecords c ↔ c.holderActive h = true ∧ c.hasCurrency k = true := by
  simp [examinedRecords]

theorem holderRecordsAreInOrder : Claims.HolderRecordsAreInOrder := by
  refine fun c => ⟨fun h k => mem_examinedRecords, ?_⟩
  have hrow (h : Fin 17) (x : Fin 17 × Fin 4)
      (hx : x ∈ (List.finRange 4).filterMap fun k =>
        if c.holderActive h && c.hasCurrency k then some (h, k) else none) : x.1 = h := by
    obtain ⟨k, -, hk⟩ := List.mem_filterMap.mp hx
    split at hk
    · rw [← Option.some.inj hk]
    · cases hk
  rw [examinedRecords, List.pairwise_flatMap]
  constructor
  · intro h _
    rw [List.pairwise_filterMap]
    refine (List.pairwise_lt_finRange 4).imp fun {k k'} hlt x hx y hy => ?_
    split at hx
    · split at hy
      · rw [← Option.some.inj hx, ← Option.some.inj hy]
        exact .inr ⟨rfl, hlt⟩
      · cases hy
    · cases hx
  · refine (List.pairwise_lt_finRange 17).imp fun {h h'} hlt x hx y hy => ?_
    rw [hrow h x hx, hrow h' y hy]
    exact .inl hlt

/-! ### A block composed (R181) -/

theorem blockContent_cases (s : State) (p : Plan) (n : Nat) :
    (∃ kind bytes, blockContent s p n = .payload kind bytes) ∨ ∃ a e, blockContent s p n = .entries a e := by
  cases blockContent s p n with
  | payload kind bytes => exact .inl ⟨kind, bytes, rfl⟩
  | entries a e => exact .inr ⟨a, e, rfl⟩

/-- The sender with a block current that awaits its sending or its entries. -/
structure BlockCurrent (b x : Batch) (n : Nat) : Prop where
  current : x.current = n
  retries : x.retries = 0
  port : x.port = b.port
  plan : x.plan = b.plan
  cause : x.cause = b.cause
  state : x.state = .awaitAck ∨ x.state = .composing

/-- A state with another sender, other frames on the lines and other runs. -/
def withSender (x : State) (b : Batch) (lines : Vector (List (List Byte)) 6) (runs : List Run) : State :=
  { x with batch := b, lines := lines, journal := { x.journal with runs := runs } }

/-- The composing of a block touches the sender, the lines, the runs and their service alone. -/
theorem composeBlock_parts (s : State) (b : Batch) (p : Plan) (n : Nat) :
    ∃ x lines runs j f, composeBlock s b p n = shifted (withSender s x lines runs) j f ∧ BlockCurrent b x n := by
  rcases blockContent_cases s p n with ⟨kind, bytes, h⟩ | ⟨a, e, h⟩
  · let x : Batch := { b with
      state := .awaitAck, current := n, kind := kind, buffer := bytes, retries := 0, ackWait := false,
      pause := false, finalWait := false }
    let lines := (sendFrame s (s.configuration.headOfficePort b.port) (headOfficeFrame kind n bytes)).lines
    exact ⟨x, lines, s.journal.runs, ⟨s.journal.serving, s.journal.turn, s.journal.buffer⟩,
      ⟨s.path.fetches, s.path.fetchWaits, s.path.fetchStreak⟩, composeBlock_payload s b p n kind bytes h,
      ⟨rfl, rfl, rfl, rfl, rfl, .inl rfl⟩⟩
  · obtain ⟨j, f, hserved⟩ := serveRuns_shifted (withSender s
      { b with
        state := .composing, current := n, kind := 5, buffer := [], retries := 0, ackWait := false,
        pause := false, finalWait := false } s.lines
      (s.journal.runs ++ [⟨.batch, a, some e, if a ≤ 1 then some 0xFFFFFFFF else none, journalUnitFree s⟩]))
    exact ⟨_, _, _, j, f, (composeBlock_entries s b p n a e h).trans hserved, ⟨rfl, rfl, rfl, rfl, rfl, .inr rfl⟩⟩

/-- What the books show of a block composed. -/
theorem view_composeBlock (s : State) (b : Batch) (p : Plan) (n : Nat) :
    ∃ x lines runs, view (composeBlock s b p n) = view (withSender s x lines runs) ∧ BlockCurrent b x n := by
  obtain ⟨x, lines, runs, j, f, h, hcurrent⟩ := composeBlock_parts s b p n
  exact ⟨x, lines, runs, (congrArg view h).trans (view_shifted _ j f), hcurrent⟩

/-! ### The ACK of a block (R183, R184) -/

theorem sentBlockStartsTheAckWait : Claims.SentBlockStartsTheAckWait := by
  intro s k frame hr hport hline hstate
  refine gives_conclude hr (exec_hoFrameSent s.batch.port s) ?_
  have htail : s.lines[k].tail = [] := by rw [hline]; rfl
  have hsent : frameSent s k = { s with lines := s.lines.set k [] } := by rw [frameSent, htail]
  have hempty : (frameSent s k).lines[k] = [] := by simp [hsent]
  have hbusy : ¬s.lines[k].isEmpty = true := by simp [hline]
  simp only [hoSent, hport]
  rw [if_neg hbusy, if_pos ⟨trivial, hstate, hempty⟩, hsent]

section
variable {s : State} {f : List Byte} {p : Plan}

theorem takeHoAck_current (htaken : frameTaken s s.batch.port f 0x81 = true) (hcurrent : frameBlock f = s.batch.current)
    (hstate : s.batch.state ≠ .awaitFinal) : takeHoAck s s.batch.port f = acknowledge s := by
  rw [takeHoAck, htaken, hcurrent, if_pos (by simp [hstate])]

theorem takeHoAck_other (hother : frameBlock f ≠ s.batch.current) : takeHoAck s s.batch.port f = s := by
  rw [takeHoAck, if_neg (by simp [hother])]

theorem trailerCurrent_iff (hplan : s.batch.plan = some p) :
    trailerCurrent s.batch = true ↔ s.batch.current + 1 = p.blocks := by
  simp [trailerCurrent, hplan]

theorem acknowledge_trailer (hplan : s.batch.plan = some p) (hlast : s.batch.current + 1 = p.blocks) :
    acknowledge s = setBatch s { s.batch with
      state := .awaitFinal, retries := 0, ackWait := false, pause := false, finalWait := true } := by
  simp only [acknowledge, hplan, if_pos ((trailerCurrent_iff hplan).mpr hlast)]

theorem acknowledge_block (hplan : s.batch.plan = some p) (hlast : s.batch.current + 1 ≠ p.blocks) :
    acknowledge s = composeBlock s s.batch p (s.batch.current + 1) := by
  simp only [acknowledge, hplan, if_neg (mt (trailerCurrent_iff hplan).mp hlast)]

end

theorem ackMovesToTheNextBlock : Claims.AckMovesToTheNextBlock := by
  intro s f p hr htaken hstate hplan
  refine ⟨fun hcurrent hmore => ?_, fun hcurrent hlast => ?_, fun hother => ?_⟩
  · obtain ⟨x, lines, runs, hcomposed, hnumber, hretries, hport, hplanned, -, hsender⟩ :=
      view_composeBlock s s.batch p (s.batch.current + 1)
    have hview : view (conclude s (takeHoAck s s.batch.port f)) = view (withSender s x lines runs) := by
      rw [view_conclude, takeHoAck_current htaken hcurrent hstate, acknowledge_block hplan hmore, hcomposed]
    have hbooks := books_of_view hview
    have hbatch : (conclude s (takeHoAck s s.batch.port f)).batch = x := congrArg (·.batch) hbooks
    rw [← hbatch] at hnumber hretries hport hplanned hsender
    exact ⟨conclude s (takeHoAck s s.batch.port f), by rw [exec_hoAck, running, if_neg (by simp [hr])], hnumber,
      hretries, hport, hplanned.trans hplan, hsender, congrArg (·.totals) hbooks, congrArg (·.day.state) hbooks,
      congrArg Prod.snd hview⟩
  · exact gives_conclude hr (exec_hoAck s.batch.port f s)
      ((takeHoAck_current htaken hcurrent hstate).trans (acknowledge_trailer hplan hlast))
  · exact gives_conclude hr (exec_hoAck s.batch.port f s) (takeHoAck_other hother)

theorem nextBlockIsComposed : Claims.NextBlockIsComposed := by
  intro s f p hr htaken hstate hplan hcurrent hmore next
  have hbody := (takeHoAck_current htaken hcurrent hstate).trans (acknowledge_block hplan hmore)
  refine ⟨fun kind bytes h => ?_, fun a b h => ?_⟩
  · exact gives_conclude hr (exec_hoAck s.batch.port f s)
      (hbody.trans (composeBlock_payload s s.batch p (s.batch.current + 1) kind bytes h))
  · exact gives_of_running hr (exec_hoAck s.batch.port f s)
      ((congrArg view (hbody.trans (composeBlock_entries s s.batch p (s.batch.current + 1) a b h))).trans
        (view_serveRuns _))

/-! ### The run of an ENTRY block (R119, R120, R181) -/

theorem batchBreaks_shifted (x : State) (j f) : batchBreaks (shifted x j f) = shifted (batchBreaks x) j f := by
  let halted : State := setDayState
    (setBatch x { x.batch with
      state := .halted, cause := .journal, ackWait := false, pause := false, finalWait := false }) .suspended
  exact congrArg (raiseAlert · .journalDamaged)
    (dayControlEntry_shifted halted { kind := 17, ref := x.batch.current } j f)

theorem entryBlockIsReadBack : Claims.EntryBlockIsReadBack := by
  intro s r last hr hruns hrequester hstarted hlast hserving hbuffer e verified filled ended runs
  have hserves : s.journal.serving = some r.requester := hrequester ▸ hserving
  refine ⟨fun hverified hmore => ?more, fun hverified hends => ?ends, fun hbroken => ?broken⟩
  case more =>
    have hgoesOn : runEnds s r = false := by simp [runEnds, hlast, hmore]
    have hbody : takeRunEntry s = passTurn (setBatch (runMovedOn s r e) filled) := by
      rw [takeRunEntry_verifies hruns hserves hbuffer (entryVerifies_iff.mpr hverified), hgoesOn, handEntry, hrequester]
      rfl
    refine ⟨gives_of_running hr (exec_journalRunEntry s) ?_, conclude s (takeRunEntry s), ?_, ?_⟩
    · rw [hbody, view_passTurn]
      rfl
    · rw [exec_journalRunEntry, running, if_neg (by simp [hr])]
    · rw [hbody, conclude_runs s, passTurn_runs]
      · rfl
      · rw [AllChained, passTurn_runs]
        simp [setBatch, runMovedOn, runMoved]
  case ends =>
    have hends' : runEnds s r = true := by simp [runEnds, hlast, hends]
    obtain ⟨j, f, hended⟩ := endRun_runMovedOn hserves e
    have hbody : takeRunEntry s = passTurn (sendBlock (shifted (runEnded s) j f) filled) := by
      rw [hrequester] at hended
      rw [takeRunEntry_verifies hruns hserves hbuffer (entryVerifies_iff.mpr hverified), hends', handEntry, hrequester]
      show passTurn (batchTakesEntry (endRun (runMovedOn s r e) .batch) e true) = _
      rw [hended]
      rfl
    refine gives_of_running hr (exec_journalRunEntry s) ?_
    rw [hbody, view_passTurn]
    rfl
  case broken =>
    obtain ⟨j, f, hended⟩ := endRun_broken hruns hserves
    refine gives_of_running hr (exec_journalRunEntry s) ?_
    have hbody : takeRunEntry s = batchBreaks (shifted (runEnded s) j f) := by
      rw [hrequester] at hended
      rw [takeRunEntry_breaks hruns hserves hbuffer (mt entryVerifies_iff.mp hbroken), tellBreak, hrequester, ← hended]
    rw [hbody, batchBreaks_shifted, view_shifted]
    rfl

/-- Settles O58: frames by their bytes, blocks by their numbers, runs by their entries. -/
theorem blocksAreSentAndAcknowledged : Obligations.BlocksAreSentAndAcknowledged :=
  ⟨sentBlockStartsTheAckWait, ackMovesToTheNextBlock, nextBlockIsComposed, headOfficeFrameIsValid,
    invalidHeadOfficeFrameIsDiscarded, blocksHoldTheirContents, holderRecordsAreInOrder, entryBlockIsReadBack,
    headOfficeFrameIsClosedByItsCheck, frameIsTakenWhileAwaited⟩

end Sys2Proof.Machine
end

