-- ==== Sys2Proof/Proofs/FailedSends.lean ====
section
/-! SUPPORT. A failed send: the retry, the backup line, the suspension of the batch, and the pauses (R185 to R188). -/

namespace Sys2Proof.Machine

section
variable {s : State} {f : List Byte}

theorem takeHoNak_current (htaken : frameTaken s s.batch.port f 0x82 = true) (hcurrent : frameBlock f = s.batch.current)
    (hstate : s.batch.state ≠ .awaitFinal) : takeHoNak s s.batch.port f = failedSend s := by
  rw [takeHoNak, htaken, hcurrent, if_pos (by simp [hstate])]

/-- What a failed send gives at a NAK, at the end of the ACK wait and at the end of the FINAL wait. -/
abbrev SendFails (s : State) (f : List Byte) (x : State) : Prop :=
  (frameTaken s s.batch.port f 0x82 = true → frameBlock f = s.batch.current → s.batch.state ≠ .awaitFinal →
    Gives (.hoNak s.batch.port f) s x) ∧
  (s.batch.ackWait = true → Gives .ackWaitExpiry s x) ∧
  (s.batch.finalWait = true → Gives .finalWaitExpiry s x)

theorem sendFails_failedSend (hr : s.inReset = false) {x : State} (hx : failedSend s = x) : SendFails s f x :=
  ⟨fun htaken hcurrent hstate => gives_conclude hr (exec_hoNak s.batch.port f s)
      ((takeHoNak_current htaken hcurrent hstate).trans hx),
    fun hwait => gives_conclude hr (exec_ackWaitExpiry s) ((if_pos hwait).trans hx),
    fun hwait => gives_conclude hr (exec_finalWaitExpiry s) ((if_pos hwait).trans hx)⟩

theorem failedSend_retries (h : s.batch.retries < 3) :
    failedSend s = sendBlock s { s.batch with retries := s.batch.retries + 1 } := by
  rw [failedSend, if_pos h]

theorem failedSend_failsOver {k : Fin 6} (h : 3 ≤ s.batch.retries) (hport : s.batch.port = .primary)
    (hbackup : s.configuration.headOfficePort .backup = some k) :
    failedSend s = sendBlock s { s.batch with port := .backup, retries := 0 } := by
  rw [failedSend, if_neg (by omega), if_pos ⟨hport, by simp [hbackup]⟩]

theorem failedSend_suspends (h : 3 ≤ s.batch.retries)
    (hport : s.batch.port = .backup ∨ s.configuration.headOfficePort .backup = none) :
    failedSend s = raiseAlert (suspendBatch s .link) .linkSuspended := by
  have hlast : ¬(s.batch.port = .primary ∧ (s.configuration.headOfficePort .backup).isSome = true) := by
    rintro ⟨hprimary, hbackup⟩
    rcases hport with hport | hport
    · exact nomatch hprimary.symm.trans hport
    · simp [hport] at hbackup
  rw [failedSend, if_neg (by omega), if_neg hlast]

/-- A block sent on a port that has a line. -/
theorem sendBlock_port {b : Batch} {k : Fin 6} (hport : s.configuration.headOfficePort b.port = some k) :
    sendBlock s b = sendFrame
      (setBatch s { b with state := .awaitAck, ackWait := false, pause := false, finalWait := false })
      (some k) (headOfficeFrame b.kind b.current b.buffer) := by
  rw [sendBlock, hport]

end

theorem failedSendIsRetried : Claims.FailedSendIsRetried := by
  intro s k f hr hretries hport resent
  exact sendFails_failedSend hr ((failedSend_retries hretries).trans
    (sendBlock_port (b := { s.batch with retries := s.batch.retries + 1 }) hport))

theorem fourthFailureFailsOverOrSuspends : Claims.FourthFailureFailsOverOrSuspends := by
  intro s f hr hretries stopped fails
  refine ⟨fun k hprimary hbackup => ?_, fun hport => ?_⟩
  · exact sendFails_failedSend hr ((failedSend_failsOver hretries hprimary hbackup).trans
      (sendBlock_port (b := { s.batch with port := .backup, retries := 0 }) hbackup))
  · exact sendFails_failedSend hr (failedSend_suspends hretries hport)

theorem waitPausesTheSender : Claims.WaitPausesTheSender := by
  intro s f hr htaken hcurrent
  have hwait : (frameTaken s s.batch.port f 0x83 && frameBlock f == s.batch.current) = true := by
    rw [htaken, hcurrent]
    simp
  exact ⟨fun hstate => gives_conclude hr (exec_hoWait s.batch.port f s) ((if_pos hwait).trans (if_neg hstate)),
    fun hstate => gives_conclude hr (exec_hoWait s.batch.port f s) ((if_pos hwait).trans (if_pos hstate))⟩

theorem endedPauseResendsTheBlock : Claims.EndedPauseResendsTheBlock := by
  intro s k hr hpause hport
  exact gives_conclude hr (exec_waitPauseExpiry s) ((if_pos hpause).trans (sendBlock_port hport))

/-- Settles O59: a failed send by the retries so far and by the port. -/
theorem failedSendsRetryFailOverOrPause : Obligations.FailedSendsRetryFailOverOrPause :=
  ⟨failedSendIsRetried, fourthFailureFailsOverOrSuspends, waitPausesTheSender, endedPauseResendsTheBlock⟩

end Sys2Proof.Machine
end

