-- ==== Sys2Proof/Proofs/BatchEnds.lean ====
section
/-! SUPPORT. FINAL, the end of the settlement write, and the commands that restart a batch (R174, R187, R189). -/

namespace Sys2Proof.Machine

/-! ### FINAL (R174, R187) -/

/-- The settlement as it is begun, apart from the count of its placed groups. -/
def settledSide (s : State) :=
  (s.day.state, s.day.settlement.map fun w => (w.copy, w.nextStart), s.totals, s.batch)

theorem settledSide_books (s : State) : settledSide (books s) = settledSide s := rfl

theorem settledSide_handGroup (s : State) (g : Group) : settledSide (handGroup s g) = settledSide s := by
  have hday : (dayPlaced s.day g.producer).state = s.day.state ∧
      (dayPlaced s.day g.producer).settlement.map (fun w => (w.copy, w.nextStart)) =
        s.day.settlement.map fun w => (w.copy, w.nextStart) := by
    cases g.producer with
    | settlement => exact ⟨rfl, Option.map_map _ _ _⟩
    | _ => exact ⟨rfl, rfl⟩
  unfold handGroup settledSide
  dsimp only
  split
  · rw [hday.1, hday.2]
  · rfl

theorem settledSide_handGroups (s : State) (gs : List Group) : settledSide (handGroups s gs) = settledSide s :=
  foldl_keeps handGroup settledSide settledSide_handGroup gs s

/-- The settled day: its copy and its next start, and the record handed over. -/
theorem settleDay_outcome (s : State) :
    settledSide (settleDay s) = (.settled, some (settlementCopy s, settlementStart s), s.totals, s.batch) ∧
      journalWrites (settleDay s).path = journalWrites s.path ++
        (recordGroups s .settlement (settlementCopy s) (composeRecord s.day.date (settlementStart s)
          (allCounts s.totals))).flatMap (·.writes) :=
  ⟨settledSide_handGroups _ _, journalWrites_handGroups _ _⟩

theorem takeHoFinal_awaited {s : State} {f : List Byte} (htaken : frameTaken s s.batch.port f 0x84 = true)
    (hstate : s.batch.state = .awaitFinal) :
    takeHoFinal s s.batch.port f = judgeFinal s (field f 6 1) (field f 7 8) := by
  rw [takeHoFinal, if_pos htaken, if_pos hstate]

theorem judgeFinal_accepts {s : State} {p : Plan} (hplan : s.batch.plan = some p) :
    judgeFinal s 1 p.hash = settleDay (setBatch s { s.batch with
      state := .finished, finalWait := false, ackWait := false, pause := false, retries := 0 }) := by
  rw [judgeFinal, if_neg (by decide), if_pos (by simp [hplan])]

theorem judgeFinal_mismatch {s : State} {p : Plan} {hash : Nat} (hplan : s.batch.plan = some p) (h : hash ≠ p.hash) :
    judgeFinal s 1 hash = rejectBatch s 2 hash := by
  rw [judgeFinal, if_neg (by decide), if_neg (by simp [hplan, h.symm])]

theorem finalSettlesOrRejects : Claims.FinalSettlesOrRejects := by
  intro s f p hr htaken hstate hplan rejected
  have hjudged := takeHoFinal_awaited htaken hstate
  refine ⟨fun haccept hhash => ?_, fun haccept hhash => ?_, fun hreject => ?_⟩
  · rw [haccept, hhash, judgeFinal_accepts hplan] at hjudged
    generalize hfinished : setBatch s { s.batch with
      state := .finished, finalWait := false, ackWait := false, pause := false, retries := 0 } = u at hjudged
    obtain ⟨hside, hwrites⟩ := settleDay_outcome u
    have hview : view (conclude s (takeHoFinal s s.batch.port f)) = view (settleDay u) := by
      rw [view_conclude, hjudged]
    have hsettled := congrArg settledSide (books_of_view hview)
    rw [settledSide_books, settledSide_books, hside] at hsettled
    simp only [settledSide, Prod.mk.injEq, Option.map_eq_some_iff] at hsettled
    obtain ⟨hday, ⟨w, hsettlement, hcopy, hstart⟩, htotals, hbatch⟩ := hsettled
    subst hfinished
    exact ⟨conclude s (takeHoFinal s s.batch.port f), by rw [exec_hoFinal, running, if_neg (by simp [hr])], hday,
      congrArg (·.state) hbatch, htotals,
      ⟨w, hsettlement, hstart, fun hone => hcopy.trans (if_pos hone), fun hother => hcopy.trans (if_neg hother)⟩,
      (congrArg Prod.snd hview).trans hwrites⟩
  · exact gives_conclude hr (exec_hoFinal s.batch.port f s)
      (hjudged.trans ((congrArg (judgeFinal s · _) haccept).trans (judgeFinal_mismatch hplan hhash)))
  · exact gives_conclude hr (exec_hoFinal s.batch.port f s) (hjudged.trans (if_pos hreject))

theorem earlyFinalAcknowledgesTheTrailer : Claims.EarlyFinalAcknowledgesTheTrailer := by
  intro s f p hr htaken hstate hplan acked
  have hearly : ¬s.batch.state = .awaitFinal := by
    rcases hstate with h | h <;> rw [h] <;> decide
  refine ⟨fun hlast => ?_, fun hmore => ?_⟩
  · have hbody : takeHoFinal s s.batch.port f = judgeFinal acked (field f 6 1) (field f 7 8) := by
      rw [takeHoFinal, if_pos htaken, if_neg hearly, if_pos ((trailerCurrent_iff hplan).mpr hlast),
        acknowledge_trailer hplan hlast]
    rw [exec_hoFinal, running, if_neg (by simp [hr]), hbody]
  · refine gives_conclude hr (exec_hoFinal s.batch.port f s) ?_
    rw [takeHoFinal, if_pos htaken, if_neg hearly, if_neg (mt (trailerCurrent_iff hplan).mp hmore)]

theorem settlementWriteEndsWithDaySettled : Claims.SettlementWriteEndsWithDaySettled := by
  intro s w hr hsettlement hplaced
  have hdone : settlementPlaced s = true := by simp [settlementPlaced, hsettlement, hplaced]
  refine gives_conclude hr (exec_settlementWriteDone s) ?_
  rw [takeSettlementDone, if_pos hdone]
  simp only [settlementDone, hsettlement]

/-! ### RESUME_BATCH and RESEND_BATCH (R189) -/

theorem handGroup_withSender (x : State) (b : Batch) (l : Vector (List (List Byte)) 6) (runs : List Run) (g : Group) :
    handGroup (withSender x b l runs) g = withSender (handGroup x g) b l runs := rfl

theorem dayControlEntry_withSender (x : State) (b : Batch) (l : Vector (List (List Byte)) 6) (runs : List Run)
    (f : EntryFields) :
    dayControlEntry (withSender x b l runs) f = withSender (dayControlEntry x f) b l runs := by
  unfold dayControlEntry
  show (if (!x.journal.present) = true then _ else if 1 ≤ x.journal.free then _ else _) = _
  split
  · rfl
  · split
    · exact handGroup_withSender (numberEntry x _ true) b l runs _
    · rfl

theorem complete_withSender (x : State) (b : Batch) (l : Vector (List (List Byte)) 6) (runs : List Run)
    (status : Status) (detail : Nat) :
    complete (withSender x b l runs) status detail = withSender (complete x status detail) b l runs :=
  handGroup_withSender x b l runs _

/-- BATCH_STARTED and the completion behind a composed block. -/
theorem startedWith_shifted (x : State) (f : EntryFields) (n : Nat) (j i) :
    complete (dayControlEntry (shifted x j i) f) .done n = shifted (complete (dayControlEntry x f) .done n) j i := by
  rw [dayControlEntry_shifted, complete_shifted]

section
variable {u : State} {p : Plan}

/-- What a restarted batch leaves. -/
theorem restartBatch_outcome (hplan : u.batch.plan = some p) (n : Nat) {v : State}
    (hview : view v = view (complete (restartBatch u n) .done n)) :
    v.day.state = .sending ∧ v.batch.current = n ∧ v.batch.port = .primary ∧ v.batch.retries = 0 ∧
      v.batch.cause = .none ∧ v.batch.plan = some p ∧
      (v.batch.state = .awaitAck ∨ v.batch.state = .composing) ∧ v.totals = u.totals ∧
      journalWrites v.path = journalWrites (complete
        (dayControlEntry { u with day := { u.day with state := .sending } } { kind := 16, ref := p.blocks })
        .done n).path := by
  obtain ⟨x, lines, runs, j, i, hcomposed, hnumber, hretries, hport, hplanned, hcause, hsender⟩ :=
    composeBlock_parts { u with day := { u.day with state := .sending } }
      { u.batch with port := .primary, retries := 0, cause := .none } p n
  generalize hstarted : complete
    (dayControlEntry { u with day := { u.day with state := .sending } } { kind := 16, ref := p.blocks }) .done n = w
  have hrestarted : complete (restartBatch u n) .done n = shifted (withSender w x lines runs) j i := by
    rw [restartBatch_eq u p n hplan, hcomposed, startedWith_shifted, dayControlEntry_withSender, complete_withSender,
      hstarted]
  have hviewed : view v = view (withSender w x lines runs) := by rw [hview, hrestarted, view_shifted]
  have hbooks := books_of_view hviewed
  have hbatch : v.batch = x := congrArg (·.batch) hbooks
  have hday : w.day = { u.day with state := .sending } := by
    rw [← hstarted, complete_day, dayControlEntry_day]
  have htotals : w.totals = u.totals := by
    rw [← hstarted]
    exact dayControlEntry_totals _ _
  rw [← hbatch] at hnumber hretries hport hplanned hcause hsender
  exact ⟨(congrArg (·.day.state) hbooks).trans (congrArg (·.state) hday), hnumber, hport, hretries, hcause,
    hplanned.trans hplan, hsender, (congrArg (·.totals) hbooks).trans htotals, congrArg Prod.snd hviewed⟩

/-- A restarted batch whose block is ready. -/
theorem restartBatch_payload (hplan : u.batch.plan = some p) {n kind : Nat} {bytes : List Byte}
    (h : blockContent u p n = .payload kind bytes) :
    restartBatch u n = dayControlEntry
      (sendFrame
        (setBatch { u with day := { u.day with state := .sending } } { u.batch with
          port := .primary, current := n, retries := 0, cause := .none, ackWait := false, pause := false,
          finalWait := false, state := .awaitAck, kind := kind, buffer := bytes })
        (u.configuration.headOfficePort .primary) (headOfficeFrame kind n bytes))
      { kind := 16, ref := p.blocks } := by
  rw [restartBatch_eq u p n hplan]
  exact congrArg (dayControlEntry · _) (composeBlock_payload { u with day := { u.day with state := .sending } }
    { u.batch with port := .primary, retries := 0, cause := .none } p n kind bytes h)

/-- A restarted batch whose block is read back, up to the service of its run. -/
theorem view_restartBatch_entries (hplan : u.batch.plan = some p) {n a b : Nat}
    (h : blockContent u p n = .entries a b) :
    view (complete (restartBatch u n) .done n) = view (complete (dayControlEntry
      { setBatch { u with day := { u.day with state := .sending } } { u.batch with
          port := .primary, current := n, retries := 0, cause := .none, ackWait := false, pause := false,
          finalWait := false, state := .composing, kind := 5, buffer := [] } with
        journal := { u.journal with
          runs := u.journal.runs ++
            [⟨.batch, a, some b, if a ≤ 1 then some 0xFFFFFFFF else none, journalUnitFree u⟩] } }
      { kind := 16, ref := p.blocks }) .done n) := by
  have hcomposed := composeBlock_entries { u with day := { u.day with state := .sending } }
    { u.batch with port := .primary, retries := 0, cause := .none } p n a b h
  generalize hasked : ({ setBatch { u with day := { u.day with state := .sending } } { u.batch with
      port := .primary, current := n, retries := 0, cause := .none, ackWait := false, pause := false,
      finalWait := false, state := .composing, kind := 5, buffer := [] } with
    journal := { u.journal with
      runs := u.journal.runs ++
        [⟨.batch, a, some b, if a ≤ 1 then some 0xFFFFFFFF else none, journalUnitFree u⟩] } } : State) = y
  have hserved : composeBlock { u with day := { u.day with state := .sending } }
      { u.batch with port := .primary, retries := 0, cause := .none } p n = serveRuns y := by
    rw [hcomposed, ← hasked]
    rfl
  obtain ⟨j, i, hshifted⟩ := serveRuns_shifted y
  rw [restartBatch_eq u p n hplan, hserved, hshifted, startedWith_shifted, view_shifted]

end

section
variable (s : State) (addr : Nat) (mask : ByteMask) (data : Dword)

theorem batch_commandTaken : (commandTaken s addr mask data).batch = s.batch := rfl
theorem day_commandTaken : (commandTaken s addr mask data).day = s.day := rfl
theorem totals_commandTaken : (commandTaken s addr mask data).totals = s.totals := rfl
theorem journal_commandTaken : (commandTaken s addr mask data).journal = s.journal := rfl

theorem blockContent_commandTaken (p : Plan) (n : Nat) :
    blockContent (commandTaken s addr mask data) p n = blockContent s p n := by
  unfold blockContent
  rw [configuration_commandTaken, day_commandTaken, totals_commandTaken]

end

theorem commandResumeBatch_taken {u : State} (h : u.day.state = .suspended) :
    commandResumeBatch u = complete (restartBatch u u.batch.current) .done u.batch.current := by
  rw [commandResumeBatch, if_pos h]

theorem commandResendBatch_taken {u : State} (h : u.day.state = .suspended ∨ u.day.state = .rejected) :
    commandResendBatch u = complete (restartBatch u 0) .done 0 := by
  rw [commandResendBatch, if_pos h]

theorem batchCommandsRestartTheBatch : Claims.BatchCommandsRestartTheBatch := by
  intro s addr mask data t restarted
  have hbatch := batch_commandTaken s addr mask data
  have hday := day_commandTaken s addr mask data
  have htotals := totals_commandTaken s addr mask data
  refine ⟨fun h => ⟨fun p hstate hplan => ?_, fun hstate => ?_⟩, fun h => ⟨fun p hstate hplan => ?_,
    fun hstate hstate' => ?_⟩⟩
  · obtain ⟨v, hv, hview, -⟩ := exec_fetchSide h.1.1 (exec_resumeBatch s) (grantCommand_eq h)
    refine ⟨v, hv, ?_⟩
    have hbody := commandResumeBatch_taken ((congrArg (·.state) hday).trans hstate)
    have houtcome := restartBatch_outcome ((congrArg (·.plan) hbatch).trans hplan) _
      (hview.trans (congrArg view hbody))
    rw [htotals, hbatch] at houtcome
    exact houtcome
  · exact gives_command h (exec_resumeBatch s) (if_neg fun hsuspended => hstate ((congrArg (·.state) hday).symm.trans
      hsuspended))
  · obtain ⟨v, hv, hview, -⟩ := exec_fetchSide h.1.1 (exec_resendBatch s) (grantCommand_eq h)
    refine ⟨v, hv, ?_⟩
    have hbody := commandResendBatch_taken (u := commandTaken s addr mask data) (by rw [hday]; exact hstate)
    have houtcome := restartBatch_outcome ((congrArg (·.plan) hbatch).trans hplan) _
      (hview.trans (congrArg view hbody))
    rw [htotals] at houtcome
    exact houtcome
  · refine gives_command h (exec_resendBatch s) (if_neg ?_)
    rw [hday]
    exact fun h => h.elim hstate hstate'

/-- A command that restarts the batch at a block gives it sent, or its entries asked for. -/
theorem gives_restarted {c : Instr} {s : State} {addr : Nat} {mask : ByteMask} {data : Dword} {code : Nat} {p : Plan}
    {n : Nat} (h : CommandGiven s addr mask data code) (hc : exec c s = running s fun s => grantCommand s code)
    (hplan : s.batch.plan = some p)
    (hbody : runCommand (commandTaken s addr mask data) code =
      complete (restartBatch (commandTaken s addr mask data) n) .done n) :
    let t := commandTaken s addr mask data
    let next : Batch := { s.batch with
      port := .primary, current := n, retries := 0, cause := .none, ackWait := false, pause := false,
      finalWait := false }
    let sending (b : Batch) := setBatch { t with day := { t.day with state := .sending } } b
    (∀ kind bytes, blockContent s p n = .payload kind bytes →
      Gives c s (complete (dayControlEntry
        (sendFrame (sending { next with state := .awaitAck, kind := kind, buffer := bytes })
          (s.configuration.headOfficePort .primary) (headOfficeFrame kind n bytes))
        { kind := 16, ref := p.blocks }) .done n)) ∧
    ∀ a b, blockContent s p n = .entries a b →
      Gives c s (complete (dayControlEntry
        { sending { next with state := .composing, kind := 5, buffer := [] } with
          journal := { s.journal with
            runs := s.journal.runs ++
              [⟨.batch, a, some b, if a ≤ 1 then some 0xFFFFFFFF else none, journalUnitFree s⟩] } }
        { kind := 16, ref := p.blocks }) .done n) := by
  intro t next sending
  have hgiven := (grantCommand_eq h).trans hbody
  have hbatch := batch_commandTaken s addr mask data
  have hplanned : (commandTaken s addr mask data).batch.plan = some p := (congrArg (·.plan) hbatch).trans hplan
  refine ⟨fun kind bytes hcontent => ?_, fun a b hcontent => ?_⟩
  · rw [← blockContent_commandTaken s addr mask data] at hcontent
    have hpayload := restartBatch_payload hplanned hcontent
    rw [hbatch, configuration_commandTaken] at hpayload
    exact gives_conclude h.1.1 hc (hgiven.trans (congrArg (complete · .done n) hpayload))
  · rw [← blockContent_commandTaken s addr mask data] at hcontent
    have hentries := view_restartBatch_entries hplanned hcontent
    rw [hbatch, journal_commandTaken, journalUnitFree_commandTaken] at hentries
    exact gives_of_running h.1.1 hc ((congrArg view hgiven).trans hentries)

theorem batchCommandsSendTheirBlock : Claims.BatchCommandsSendTheirBlock := by
  intro s addr mask data p n hplan t next sending gives
  have hbatch := batch_commandTaken s addr mask data
  have hday := day_commandTaken s addr mask data
  refine ⟨fun h hstate hn => ?_, fun h hstate hn => ?_⟩
  · have hbody := commandResumeBatch_taken ((congrArg (·.state) hday).trans hstate)
    rw [hbatch, ← hn] at hbody
    exact gives_restarted h (exec_resumeBatch s) hplan hbody
  · subst hn
    exact gives_restarted h (exec_resendBatch s) hplan
      (commandResendBatch_taken (u := commandTaken s addr mask data) (by rw [hday]; exact hstate))

/-- Settles O60: a FINAL by its result, a restart by the block it begins with. -/
theorem batchSettlesOrRestarts : Obligations.BatchSettlesOrRestarts :=
  ⟨finalSettlesOrRejects, earlyFinalAcknowledgesTheTrailer, settlementWriteEndsWithDaySettled,
    batchCommandsRestartTheBatch, batchCommandsSendTheirBlock⟩

end Sys2Proof.Machine
end

