-- ==== Sys2Proof/Proofs/StatusTexts.lean ====
section
/-! SUPPORT. What a status row shows: its cells by column, the drawer word, the alert field, and the codes of the
tables (R133, R135, 13.6). -/

namespace Sys2Proof.Machine

/-! ### Cells by column (R133) -/

/-- The cells of a text from a column on, each emphasised by its own column. -/
def cellsFrom (emphasis : Nat → Bool) (column : Nat) (text : List Char) : List Byte :=
  (text.zipIdx column).flatMap fun x => [BitVec.ofNat 8 x.1.toNat, if emphasis x.2 = true then 1 else 0]

theorem cellsFrom_append (emphasis : Nat → Bool) (column : Nat) (a b : List Char) :
    cellsFrom emphasis column (a ++ b) = cellsFrom emphasis column a ++ cellsFrom emphasis (column + a.length) b := by
  rw [cellsFrom, List.zipIdx_append, List.flatMap_append]
  rfl

/-- A text with one emphasis throughout. -/
theorem cellsFrom_uniform {emphasis : Nat → Bool} {column : Nat} {b : Bool} {text : List Char}
    (h : ∀ i, column ≤ i → i < column + text.length → emphasis i = b) :
    cellsFrom emphasis column text = cells b text := by
  induction text generalizing column with
  | nil => rfl
  | cons ch text ih =>
    have hfirst : emphasis column = b := h column le_rfl (by simp)
    have hrest : cellsFrom emphasis (column + 1) text = cells b text :=
      ih fun i hi hlt => h i (by omega) (by rw [List.length_cons]; omega)
    simp only [cellsFrom, cells, List.zipIdx_cons, List.flatMap_cons, hfirst] at hrest ⊢
    rw [hrest]

/-- A text at the left of a field, padded with spaces. -/
theorem take_padded (n : Nat) (text : List Char) :
    (text ++ List.replicate n ' ').take n = text.take n ++ List.replicate (n - text.length) ' ' := by
  rw [List.take_append, List.take_replicate, Nat.min_eq_left (by omega)]

theorem leftAlign_eq (n : Nat) (text : List Char) : leftAlign n text = (text ++ List.replicate n ' ').take n :=
  (take_padded n text).symm

theorem padded_length (n : Nat) (text : List Char) : ((text ++ List.replicate n ' ').take n).length = n := by
  simp

theorem drawerWord_length (s : State) (p : Fin 16) : (drawerWord s p).1.length ≤ 8 := by
  unfold drawerWord
  dsimp only
  split
  · decide
  · split
    · split <;> decide
    · decide
    · decide
    · split <;> decide

/-! ### The fields of a row (R133) -/

/-- The columns that a row shows emphasised. -/
def rowEmphasis (word : List Char × Bool) (message : Message) (alerts : List Alert) (i : Nat) : Bool :=
  (word.2 && decide (10 - word.1.length ≤ i ∧ i < 10)) ||
    (message.refused && decide (11 ≤ i ∧ i < 40 ∧ i < 11 + message.text.length)) ||
    (!alerts.isEmpty && decide (40 ≤ i ∧ i < 60))

section
variable {word : List Char × Bool} {message : Message} {alerts : List Alert} {i : Nat}

theorem rowEmphasis_word (hlow : 10 - word.1.length ≤ i) (hhigh : i < 10) :
    rowEmphasis word message alerts i = word.2 := by
  simp only [rowEmphasis]
  rw [decide_eq_true ⟨hlow, hhigh⟩, decide_eq_false (by omega), decide_eq_false (by omega)]
  simp

theorem rowEmphasis_message (hlow : 11 ≤ i) (hhigh : i < 40) (htext : i < 11 + message.text.length) :
    rowEmphasis word message alerts i = message.refused := by
  simp only [rowEmphasis]
  rw [decide_eq_false (by omega), decide_eq_true ⟨hlow, hhigh, htext⟩, decide_eq_false (by omega)]
  simp

theorem rowEmphasis_alert (hlow : 40 ≤ i) (hhigh : i < 60) :
    rowEmphasis word message alerts i = !alerts.isEmpty := by
  simp only [rowEmphasis]
  rw [decide_eq_false (by omega), decide_eq_false (by omega), decide_eq_true ⟨hlow, hhigh⟩]
  simp

theorem rowEmphasis_plain (hword : ¬(10 - word.1.length ≤ i ∧ i < 10))
    (hmessage : ¬(11 ≤ i ∧ i < 40 ∧ i < 11 + message.text.length)) (halert : ¬(40 ≤ i ∧ i < 60)) :
    rowEmphasis word message alerts i = false := by
  simp only [rowEmphasis]
  rw [decide_eq_false hword, decide_eq_false hmessage, decide_eq_false halert]
  simp

end

/-- The cells of a row are those of its fields, one behind the other. -/
theorem cellsFrom_fields {word : List Char × Bool} {message : Message} {alerts : List Alert}
    (number field name time : List Char) (hnumber : number.length = 2) (hword : word.1.length ≤ 8)
    (hfield : field.length = 20) :
    cellsFrom (rowEmphasis word message alerts) 0
        (number ++ List.replicate (8 - word.1.length) ' ' ++ word.1 ++ [' '] ++
          (message.text.take 29 ++ List.replicate (29 - message.text.length) ' ') ++ field ++ name ++ time) =
      cells false number ++ cells false (List.replicate (8 - word.1.length) ' ') ++ cells word.2 word.1 ++
        cells false [' '] ++ textCells message.refused 29 message.text ++ cells (!alerts.isEmpty) field ++
        cells false name ++ cells false time := by
  have plain (column : Nat) (text : List Char) (h : column + text.length ≤ 10 - word.1.length ∨
      10 ≤ column ∧ column + text.length ≤ 11 ∨
      11 + message.text.length ≤ column ∧ column + text.length ≤ 40 ∧ 11 ≤ column ∨ 60 ≤ column) :
      cellsFrom (rowEmphasis word message alerts) column text = cells false text :=
    cellsFrom_uniform fun i hlow hhigh => rowEmphasis_plain (by omega) (by omega) (by omega)
  have hmessage : cellsFrom (rowEmphasis word message alerts) 11
      (message.text.take 29 ++ List.replicate (29 - message.text.length) ' ') =
      textCells message.refused 29 message.text := by
    rw [cellsFrom_append, cellsFrom_uniform (b := message.refused), textCells]
    · rw [List.length_take]
      by_cases hshort : message.text.length ≤ 29
      · rw [plain _ _ (by rw [List.length_replicate]; omega)]
      · rw [Nat.sub_eq_zero_of_le (by omega)]
        rfl
    · intro i hlow hhigh
      rw [List.length_take] at hhigh
      exact rowEmphasis_message hlow (by omega) (by omega)
  have hshown : cellsFrom (rowEmphasis word message alerts) 40 field = cells (!alerts.isEmpty) field :=
    cellsFrom_uniform fun i hlow hhigh => rowEmphasis_alert hlow (by omega)
  have hnamed : cellsFrom (rowEmphasis word message alerts) (10 - word.1.length) word.1 = cells word.2 word.1 :=
    cellsFrom_uniform fun i hlow hhigh => rowEmphasis_word hlow (by omega)
  have hpadded : (message.text.take 29 ++ List.replicate (29 - message.text.length) ' ').length = 29 := by
    rw [← take_padded, padded_length]
  have hbefore : 2 + (8 - word.1.length) = 10 - word.1.length := by omega
  have hbehind : 10 - word.1.length + word.1.length = 10 := by omega
  have hspaces : (List.replicate (8 - word.1.length) ' ').length = 8 - word.1.length := List.length_replicate
  generalize message.text.take 29 ++ List.replicate (29 - message.text.length) ' ' = padded at hmessage hpadded ⊢
  simp only [cellsFrom_append, List.length_append, hnumber, hfield, hspaces, hpadded, List.length_singleton,
    Nat.zero_add, hbefore, hbehind, Nat.reduceAdd]
  rw [plain 0 number (by omega), plain 2 _ (by omega), hnamed, plain 10 [' '] (by simp), hmessage, hshown,
    plain 60 name (by omega), plain (60 + name.length) time (by omega)]

theorem statusRowHoldsItsFields : Claims.StatusRowHoldsItsFields := by
  intro s p word message alerts digits spaces text emphasis
  have hword : word.1.length ≤ 8 := drawerWord_length s p
  have hdigits (n : Nat) : (digits n).length = 2 := rfl
  have htext : text = fixedDecimal 2 (positionNumber p) ++ List.replicate (8 - word.1.length) ' ' ++ word.1 ++ [' '] ++
      (message.text.take 29 ++ List.replicate (29 - message.text.length) ' ') ++
      (' ' :: leftAlign 19 (alertText alerts)) ++ (' ' :: leftAlign 14 s.day.state.name) ++ timeText s.day.clock := by
    simp only [text, spaces, ← take_padded, leftAlign_eq, timeText, fixedDecimal_two, positionNumber, digits,
      List.append_assoc, List.cons_append, List.nil_append]
  refine ⟨?_, ?_⟩
  · simp [text, hdigits, spaces]
    omega
  · have hcells := cellsFrom_fields (word := word) (message := message) (alerts := alerts)
      (fixedDecimal 2 (positionNumber p)) (' ' :: leftAlign 19 (alertText alerts))
      (' ' :: leftAlign 14 s.day.state.name) (timeText s.day.clock) rfl hword
      (by rw [leftAlign_eq, List.length_cons, padded_length])
    rw [← htext] at hcells
    exact hcells.symm

/-! ### The drawer word and the alert field (R133, R135) -/

theorem drawerWordIsTheFirstThatApplies : Claims.DrawerWordIsTheFirstThatApplies := by
  intro s p h d
  cases hstate : d.state <;>
    simp only [drawerWord, show s.drawers[holderOfPosition p].state = _ from hstate, Bool.not_eq_true', reduceCtorEq,
      and_false, and_true, if_false, if_true, apply_ite (fun word : List Char => (word, false))] <;>
    rfl

theorem holderFaulty_iff {t : Totals} {h : Fin 17} :
    holderFaulty t h = true ↔ ∃ k : Fin 4, (recordOf t h k).faulty = true := by
  simp [holderFaulty, recordOf, Vector.any_eq_true, Fin.exists_iff]

theorem alertFieldShowsTheHighest : Claims.AlertFieldShowsTheHighest := by
  refine ⟨fun s p => ?_, fun a b rest => ⟨rfl, rfl, rfl⟩⟩
  intro h d faulty
  refine ⟨fun hrole => if_pos hrole, fun hrole => (if_neg hrole).trans ?_⟩
  simp only [holderConditions, beq_iff_eq, holderFaulty_iff]
  rfl

theorem codesFollowTheTables : Claims.CodesFollowTheTables := by
  refine ⟨rfl, rfl, rfl, rfl, rfl, rfl, rfl, rfl, rfl, rfl, rfl⟩

/-! ### Fields behind one another (R203) -/

theorem fieldsStandBehindOneAnother : Claims.FieldsStandBehindOneAnother := by
  intro before after n value fields hfits
  have hspelled := dwordOfFields_toNat fields hfits
  refine ⟨?_, hspelled ▸ leNat_flatMap_fields fields⟩
  have hwidth : (before.flatMap fun f => leBytes f.1 f.2).length = (before.map (·.1)).sum := by
    simp [List.length_flatMap, leBytes_length]
  have hfield : leNat (fields.flatMap fun f => leBytes f.1 f.2) =
      leNat (before.flatMap fun f => leBytes f.1 f.2) + 256 ^ (before.map (·.1)).sum *
        (value % 256 ^ n + 256 ^ n * leNat (after.flatMap fun f => leBytes f.1 f.2)) := by
    rw [List.flatMap_append, List.flatMap_cons, leNat_append, leNat_append, hwidth, leNat_leBytes, leBytes_length]
  have hbelow := leNat_flatMap_fields before
  rw [laneField, hspelled, hfield, Nat.add_mul_div_left _ _ (by positivity), Nat.div_eq_of_lt hbelow, Nat.zero_add,
    Nat.add_mul_mod_self_left, Nat.mod_mod]

end Sys2Proof.Machine
end

