-- ==== Sys2Proof/Proofs/MirrorFigures.lean ====
section
/-! SUPPORT. The figures of the Mirror's doublewords, and the changed ones handed on at a step's end (R199, R200,
13.6). -/

namespace Sys2Proof.Machine

/-! ### The figures by doubleword (13.6) -/

theorem mem_mirrorNumbers {k : Nat} :
    k ∈ mirrorNumbers ↔ k < 18 ∨ 32 ≤ k ∧ k < 40 ∨ (64 ≤ k ∧ k < 96 ∧ k % 8 ≠ 7) ∨ 96 ≤ k ∧ k < 100 ∨
      (256 ≤ k ∧ k < 800 ∧ k % 32 < 21) := by
  simp only [mirrorNumbers, List.mem_append, List.mem_flatMap, List.mem_map, List.mem_range]
  constructor
  · rintro ((((h | ⟨m, hm, rfl⟩) | ⟨c, hc, j, hj, rfl⟩) | ⟨j, hj, rfl⟩) | ⟨h, hh, j, hj, rfl⟩) <;> omega
  · rintro (h | h | h | h | h)
    · exact .inl (.inl (.inl (.inl h)))
    · exact .inl (.inl (.inl (.inr ⟨k - 32, by omega, by omega⟩)))
    · exact .inl (.inl (.inr ⟨(k - 64) / 8, by omega, (k - 64) % 8, by omega, by omega⟩))
    · exact .inl (.inr ⟨k - 96, by omega, by omega⟩)
    · exact .inr ⟨(k - 256) / 32, by omega, (k - 256) % 32, by omega, by omega⟩

section
variable (s : State)

theorem terminalFields :
    mirrorFields s 11 ++ mirrorFields s 12 =
      (List.finRange 16).map (fun p => (1, s.screen.positions[p].state.code)) ∧ (mirrorFields s 11).length = 8 := by
  rw [mirrorFields_part s 11 (by decide), mirrorFields_part s 12 (by decide)]
  refine ⟨?_, by simp [partFields]⟩
  simp only [partFields]
  rw [← List.map_append, List.take_append_drop, vector_toList_finRange, List.map_map]
  rfl

theorem violationFields_eq (i : Nat) (hi : i < 4) : mirrorFields s (14 + i) = violationFields s i := by
  rw [mirrorFields_part s (14 + i) (by omega)]
  interval_cases i <;> rfl

theorem violationFields_all :
    mirrorFields s 14 ++ mirrorFields s 15 ++ mirrorFields s 16 ++ mirrorFields s 17 =
      (List.finRange 7).map (fun k => (4, s.path.violations[k].toNat)) ++ [(4, 0)] := by
  have hlist : s.path.violations.toList = (List.finRange 7).map fun i => s.path.violations[i] :=
    vector_toList_finRange _
  rw [violationFields_eq s 0 (by decide), violationFields_eq s 1 (by decide), violationFields_eq s 2 (by decide),
    violationFields_eq s 3 (by decide)]
  simp only [violationFields, hlist]
  rfl

theorem dayFields_all (k : Fin 4) :
    ((List.range 7).map fun j => mirrorFields s (64 + 8 * k.val + j)) =
      [[(8, s.totals.day[k].received.toNat)], [(8, s.totals.day[k].paid.toNat)],
        [(8, s.totals.day[k].overage.toNat)], [(8, s.totals.day[k].shortage.toNat)],
        [(8, s.totals.day[k].residue.toNat)], [(8, s.totals.day[k].credit.toNat)],
        [(8, s.totals.day[k].debit.toNat)]] := by
  have hfields : ((List.range 7).map fun j => mirrorFields s (64 + 8 * k.val + j)) =
      (List.range 7).map (dayFields s.totals.day[k]) :=
    List.map_congr_left fun j hj => mirrorFields_day s k j (List.mem_range.mp hj)
  exact hfields

theorem kindFields_all :
    mirrorFields s 96 ++ mirrorFields s 97 ++ mirrorFields s 98 ++ mirrorFields s 99 =
      (List.finRange 7).map (fun k => (4, s.totals.kinds[k].toNat)) := by
  have hlist : s.totals.kinds.toList = (List.finRange 7).map fun i => s.totals.kinds[i] := vector_toList_finRange _
  rw [mirrorFields_kind s 0 (by decide), mirrorFields_kind s 1 (by decide), mirrorFields_kind s 2 (by decide),
    mirrorFields_kind s 3 (by decide)]
  simp only [kindFields, hlist]
  rfl

theorem markBits_eq (t : Totals) (h : Fin 17) (mark : HolderRecord → Bool) :
    markBits t h mark =
      ((List.finRange 4).map fun k => if mark (recordOf t h k) = true then 2 ^ k.val else 0).sum := by
  have hsum (a b c d : Bool) : flagSum [(a, 1), (b, 2), (c, 4), (d, 8)] =
      (if a = true then 2 ^ 0 else 0) + ((if b = true then 2 ^ 1 else 0) + ((if c = true then 2 ^ 2 else 0) +
        ((if d = true then 2 ^ 3 else 0) + 0))) := by
    revert a b c d
    decide
  exact hsum _ _ _ _

theorem recordFields (h : Fin 17) (k : Fin 4) (i : Nat) (hi : i < 5) :
    mirrorFields s (257 + 32 * h.val + 5 * k.val + i) =
      if i = 3 then [(8, (recordOf s.totals h k).balance)] else if i = 4 then [(8, (recordOf s.totals h k).opening)]
      else (((recordOf s.totals h k).counts.drop (4 * i)).take 4).map fun n => (2, n) := by
  have hplace : 257 + 32 * h.val + 5 * k.val + i = 256 + 32 * h.val + (1 + 5 * k.val + i) := by omega
  rw [hplace, mirrorFields_holder s h _ (by omega), holderFields_record s h k i hi]

end

theorem mirrorDoublewordsHoldTheirFigures : Claims.MirrorDoublewordsHoldTheirFigures := by
  intro s c flag applied
  obtain ⟨hterminals, height⟩ := terminalFields s
  refine ⟨rfl, rfl, rfl, fun happlied => ?spans, rfl, rfl, rfl, rfl, rfl, rfl, rfl, hterminals, height, ?printers,
    violationFields_all s, fun i hi => ?_, fun m => mirrorFields_monitor s m, fun k => dayFields_all s k,
    kindFields_all s, fun i hi => ?kinds, fun h => ?holder, fun h k => ?record, fun k => mem_mirrorNumbers⟩
  case spans =>
    rw [mirrorFields_part s 3 (by decide)]
    simp only [partFields, show s.control.config.isSome = true from happlied, if_true]
    rfl
  case printers =>
    rw [mirrorFields_part s 13 (by decide), partFields, vector_toList_finRange, List.map_map]
    rfl
  case kinds =>
    rw [mirrorFields_kind s i (by omega)]
    simp [kindFields]
    omega
  case holder =>
    intro marks
    rw [show 256 + 32 * h.val = 256 + 32 * h.val + 0 from rfl, mirrorFields_holder s h 0 (by decide)]
    simp only [holderFields, if_true, markBits_eq]
    rfl
  case record =>
    intro r first
    exact ⟨fun i hi => (recordFields s h k i (by omega)).trans (by rw [if_neg (by omega), if_neg (by omega)]),
      recordFields s h k 3 (by decide), recordFields s h k 4 (by decide)⟩
  · rw [violationFields_eq s i hi]
    rfl

/-! ### Changed figures at a step's end (R199, R200) -/

/-- The changes of the Mirror are the doublewords whose figures differ. -/
theorem mirrorChanges_getLsbD {before after : State} {k : Nat} (hk : k ∈ mirrorNumbers) (hlt : k < 1024)
    (h : mirrorFields before k ≠ mirrorFields after k) : (mirrorChanges before after).getLsbD k = true := by
  have hfold : ∀ (l : List Nat) (set : BitVec 1024), k ∈ l ∨ set.getLsbD k = true →
      (l.foldl (fun set k => if mirrorFields before k = mirrorFields after k then set
        else set ||| BitVec.twoPow 1024 k) set).getLsbD k = true := by
    intro l
    induction l with
    | nil => exact fun set hset => hset.resolve_left (by simp)
    | cons i l ih =>
      intro set hset
      rw [List.foldl_cons]
      refine ih _ ?_
      by_cases hi : i = k
      · subst hi
        rw [if_neg h]
        exact .inr (by simp [hlt])
      · rcases hset with hmem | hset
        · exact .inl ((List.mem_cons.mp hmem).resolve_left (Ne.symm hi))
        · refine .inr ?_
          split
          · exact hset
          · simp [hset]
  exact hfold _ _ (.inl hk)

/-- A figure that the step changed is dirty after it, or stands in the Inject Queue. -/
theorem conclude_changed {before after : State} {k : Nat} (hk : k ∈ mirrorNumbers)
    (h : mirrorFields before k ≠ mirrorFields (conclude before after) k) :
    mirrorHandledBeside (conclude before after) k := by
  have hlt := (wholeMirror_holds k hk).2
  have hcomposed : mirrorFields (conclude before after) k = mirrorFields (recomposeRows (pumpFetches 256 after)) k :=
    mirrorFields_of_view ((view_conclude before after).trans
      ((view_recomposeRows _).trans (view_pumpFetches _ _)).symm) k
  rw [hcomposed] at h
  refine flushRows_mirrorHandled _ _ (flushMirror_handled _ _ hlt (.inl ?_))
  show BitVec.getLsbD (_ ||| _) k = true
  rw [BitVec.getLsbD_or, mirrorChanges_getLsbD hk hlt h, Bool.or_true]

end Sys2Proof.Machine
end

