-- ==== Sys2Proof/Proofs/StatusRows.lean ====
section
/-! SUPPORT. Why the status rows do not follow the state in every state: a row buffer takes whatever a drop-line
fetch brings (R128, R136), and the obligation names states with a fetch that no row awaits. Its other claims hold. -/

namespace Sys2Proof.Machine

/-! ### Changed Mirror figures after a command (R199, R200) -/

/-- A command of the running part ends its step with the state as it was before. -/
theorem exec_concludes {c : Instr} {s t : State} (hr : s.inReset = false) (hreset : c ≠ .reset)
    (hrelease : ∀ straps, c ≠ .resetRelease straps) (ht : exec c s = .next t) : ∃ u, t = conclude s u := by
  have hrunning {body : State → State} (h : running s body = .next t) : ∃ u, t = conclude s u := by
    rw [running, if_neg (by simp [hr])] at h
    cases h
    exact ⟨_, rfl⟩
  by_cases hc : RunsBody c
  · obtain ⟨body, hrow, -⟩ := exec_row hc s
    exact hrunning (hrow ▸ ht)
  · simp only [RunsBody, not_and_or, not_forall, not_not] at hc
    obtain rfl | ⟨straps, rfl⟩ | ⟨addr, rfl⟩ | ⟨addr, mask, data, rfl⟩ := hc
    · exact absurd rfl hreset
    · exact absurd rfl (hrelease straps)
    · simp only [exec, execHostRead] at ht
      split at ht
      · exact hrunning ht
      · cases ht
    · simp only [exec, execHostWriteArrival] at ht
      split at ht
      · exact hrunning ht
      · cases ht

theorem changedMirrorFiguresAreHandedOn : Claims.ChangedMirrorFiguresAreHandedOn := by
  intro c s t k hr hreset hrelease ht hk hchanged
  obtain ⟨u, rfl⟩ := exec_concludes hr hreset hrelease ht
  exact conclude_changed hk hchanged

/-- What the obligation says besides its first claim holds. -/
theorem shownState_besides_statusRows :
    Claims.StatusRowHoldsItsFields ∧ Claims.DrawerWordIsTheFirstThatApplies ∧ Claims.AlertFieldShowsTheHighest ∧
      Claims.ChangedMirrorFiguresAreHandedOn ∧ Claims.FieldsStandBehindOneAnother ∧
      Claims.MirrorDoublewordsHoldTheirFigures ∧ Claims.CodesFollowTheTables :=
  ⟨statusRowHoldsItsFields, drawerWordIsTheFirstThatApplies, alertFieldShowsTheHighest,
    changedMirrorFiguresAreHandedOn, fieldsStandBehindOneAnother, mirrorDoublewordsHoldTheirFigures,
    codesFollowTheTables⟩

/-! ### A state with a stray fetch -/

/-- A configuration with the position of index 1 enabled. -/
def oneEnabled : Configuration :=
  { noConfiguration with positions := noConfiguration.positions.set 1 ⟨1, 0, 0xFF, 0, 0xFF⟩ }

/-- A controller awaits the reply to the POLL of a terminal that has missed twice, with one more to visit. A fetch of
the same controller is outstanding, which no row awaits, and its doubleword stands in the Inject Queue. -/
def strayFetch : State :=
  { State.reset with
    path := { State.reset.path with queue := [⟨0, 0, .mirror⟩], fetches := [⟨.drop 0, 0, 1⟩] },
    control := { resetControl with config := some oneEnabled },
    screen :=
      { controllers := (Vector.replicate 2 resetController).set 0 { resetController with
          mode := .cycling, exchange := some ⟨0, .poll, .awaiting⟩, remaining := [1] },
        positions := ((Vector.replicate 16 resetPosition).set 0 { resetPosition with
          state := .present, missed := 2 }).set 1 { resetPosition with state := .present } } }

/-- The state after its third miss. -/
def strayEnd : State := conclude strayFetch (expireReply strayFetch 0 .noFirstByte)

theorem exec_strayFetch : exec (.dropReplyTimeout 0 .noFirstByte) strayFetch = .next strayEnd := by
  rw [exec_dropReplyTimeout, running, if_neg (by decide), strayEnd]

/-- The loss changes the row of the enabled position, the visit that follows takes it, and the stray doubleword joins
the 20 of the buffer. -/
theorem strayEnd_row :
    strayEnd.configuration.positionEnabled 1 = true ∧ strayEnd.screen.positions[1].composition ≠ none ∧
      strayEnd.screen.positions[1].dirty.getLsbD 23 = false ∧
      strayEnd.screen.controllers[0].row.length = 21 ∧ strayEnd.screen.controllers[1].exchange = none := by
  decide +kernel

theorem not_statusRowsFollowTheState : ¬Claims.StatusRowsFollowTheState := by
  intro h
  obtain ⟨henabled, hcomposed, hclean, hrow, hidle⟩ := strayEnd_row
  obtain ⟨-, hchanged, -⟩ := h (.dropReplyTimeout 0 .noFirstByte) strayFetch strayEnd 1 rfl nofun nofun exec_strayFetch
    henabled
  have hnew : strayEnd.screen.positions[(1 : Fin 16)].composition.map (·.take 160) ≠
      strayFetch.screen.positions[(1 : Fin 16)].composition.map (·.take 160) :=
    fun hsame => hcomposed (Option.map_eq_none_iff.mp hsame)
  rcases hchanged hnew with hdirty | ⟨d, htaken, -, hbuffer⟩
  · exact Bool.eq_false_iff.mp hclean hdirty
  · match d with
    | 0 =>
      have hlength := congrArg List.length hbuffer
      rw [dwordsOfBytes_length] at hlength
      exact absurd (hrow.symm.trans hlength) (by decide)
    | 1 => exact nomatch hidle.symm.trans htaken

/-- Refutes O53: in a state with a fetch that no row awaits, a row just taken for sending does not have its
composition in the buffer. -/
theorem not_shownStateFollowsTheState : ¬Obligations.ShownStateFollowsTheState :=
  fun h => not_statusRowsFollowTheState h.1

end Sys2Proof.Machine
end
